-- ==== Sys2Proof/Word.lean ====
section
/-!
DEFINITION. The plain types every other file uses: bytes, sparse maps by number, and the device's
fixed counts. (spec/00_scope.md R5, spec/01_structure.md R9 to R12.)
-/

namespace Sys2Proof

/-- One byte. -/
abbrev Byte := BitVec 8

/-- A run of bytes, byte 0 first (R5: every multi-byte field is little-endian). -/
abbrev Bytes := List Byte

/-- A sparse map from numbers: pairs in strictly rising order of the key. A key that is not listed
holds the map's default; the operations of Machine/Maps.lean keep that form. -/
abbrev FMap (α : Type) := List (Nat × α)

/-- Memory by address: the bytes that differ from 0. -/
abbrev Mem := FMap Byte

/-- A 64 KiB tile (R175). -/
abbrev tileBytes : Nat := 65536

/-- A 2 MiB page (R152). -/
abbrev pageBytes : Nat := 2097152

/-- Ticks of the local time counter in 1 ms (R406), 1 s (R110). -/
abbrev ticksMs : Nat := 100000

/-- Ticks in 1 s. -/
abbrev ticksS : Nat := 100000000

end Sys2Proof
end

