-- ==== Sys2Proof/Syntax.lean ====
section
/-!
DEFINITION. The commands and events of the MN9600: one constructor for each row of
spec/opcode_table.json, with the facts its sender or its surroundings supply as operands. A fact of
the physical world (a reading, a test's outcome, the bytes of a peer's message) is an operand, so a
statement about a command holds for every value of it.
-/

namespace Sys2Proof

/-- What error correction found on a read: nothing, a corrected error (R148), an uncorrectable error
seen by the controller code only (kind 0x0C) or signalled by the stack (kind 0x0D) (R149). -/
inductive Ecc where
  | clean
  | corrected
  | codeUe
  | stackUe
deriving DecidableEq, Repr

/-- An error in a word of a rod store, as the error correction finds it when a descriptor reads the word: its address, and
whether it is corrected (R166). -/
structure Upset where
  addr : Nat
  fixed : Bool
deriving DecidableEq, Repr

/-- How a codeword read ended (R176, R184). -/
inductive CwOutcome where
  | clean
  | weak
  | retry
  | rebuild
  | uncorrectable
deriving DecidableEq, Repr

/-- What traffic a request carries (T8.2): a context's, Zilet messages forwarded, Zenith's control traffic,
maintenance, intrusive self-test; the flash work on a tile that waits to be programmed, by its key (R187). -/
inductive Traffic where
  | context (c : Nat)
  | transit
  | control
  | maint
  | selftest
  | tile (key : Nat)
deriving DecidableEq, Repr

/-- A request that reaches a tally arbiter (R211, R214): the source that sends it, what it carries, and its bytes; a
program or an erase of the flash has none. `read` says that it is a read request. -/
structure Request where
  source : Nat
  traffic : Traffic
  bytes : Nat
  read : Bool := false
deriving DecidableEq, Repr

/-- One millisecond reading of a thermal sensor in 0.0625 °C units; `valid` is its self-comparison (R463). -/
structure SensorReading where
  sensor : Nat
  value : Int
  valid : Bool
deriving DecidableEq, Repr

/-- What every received message carries of its packet header (T10.3): the port it arrived on, its source
device, the two boot ids and its number in the stream. -/
structure MsgHdr where
  port : Nat
  src : Nat
  srcBoot : Nat
  dstBoot : Nat
  mseq : Nat
deriving DecidableEq, Repr

/-- A MEMBER message (T11.2). -/
structure MemMsg where
  hdr : MsgHdr
  group : Nat
  view : Nat
  member : Nat
  device : Nat
  newState : Nat
  step : Nat
  digest : BitVec 64
  mismatch : Bool
deriving DecidableEq, Repr

/-- A COLL_STEP message (T11.4) with its block records. -/
structure CollMsg where
  hdr : MsgHdr
  group : Nat
  view : Nat
  run : Nat
  member : Nat
  unit : Nat
  dropped : Bool
  poisoned : Bool
  gen : Nat
  ackCode : Nat
  count : Nat
  mask : Nat
  reasons : Nat
  digest : BitVec 64
  records : List Bytes
deriving DecidableEq, Repr

/-- A shard's committed state as a peer, a partner copy or a slot holds it (R253, R256, R258): the job
definition (T12.16), the version, the selector phase, the shard digest, and the weights and current moment
slots in block order, with the metadata of each 64-byte burst (R147). -/
structure ShardData where
  jobId : Nat := 0
  jobDef : Bytes := []
  version : Nat := 0
  selPhase : Bool := false
  digest : BitVec 64 := 0#64
  weights : Bytes := []
  slots : Bytes := []
  wmd : List (BitVec 4) := []
  smd : List (BitVec 4) := []
  /-- The tensor table and the length that a snapshot record holds (R253). -/
  tensors : Bytes := []
  length : Nat := 0
  /-- What a source of a fill delivers (R258, R259): the first block of the shard that it sends, and the digests of the blocks
  that it sends, formed from its memory. -/
  start : Nat := 0
  blocks : List (BitVec 64) := []
deriving DecidableEq, Repr

/-- What is known of another shard of the job when the barrier is released (R250, R252): resolved, not yet, or not to be
resolved. -/
inductive ShardSt where
  | resolved
  | pending
  | broken
deriving DecidableEq, Repr

/-- What another replica reports of its blocks, in block order of the shard (R250, R251): its digests, the
digests formed again from memory, its lost blocks, and the data (weight block, current slot) of blocks it
is asked for. -/
structure PeerDigests where
  replica : Nat
  digests : List (BitVec 64)
  reread : List (BitVec 64)
  lost : List Nat
  data : List (Nat × Bytes × Bytes)
deriving DecidableEq, Repr

/-- A partner snapshot copy as it arrives (R255). -/
structure SnapCopy where
  shard : ShardData
  pages : Nat
deriving DecidableEq, Repr

/-- One command or event: one constructor for each row of spec/opcode_table.json. A command of a host
queue is named by its queue and sequence number (R346): its packet stands in the journal. -/
inductive Instr where
  /-- IDENTIFY (R350): Command that returns part number, stepping, interface version, serial number, Zilet device id and port. -/
  | identify (q : Fin 512) (seq : Nat)
  /-- GET_INFO (R352): Command that returns one information page, such as the speed word, the local time counter, partitions, sensors or queues. -/
  | getInfo (q : Fin 512) (seq : Nat)
  /-- SET_PARAM_QUEUE (R338): SET_PARAM that configures, enables or disables a non-admin queue pair. -/
  | setParamQueue (q : Fin 512) (seq : Nat)
  /-- SET_PARAM_FC_SEVERITY (R394): SET_PARAM that sets the severity of one fault source, subject to the fixed and forbidden values. -/
  | setParamFcSeverity (q : Fin 512) (seq : Nat)
  /-- SET_PARAM_POWER_LIMIT (R455): SET_PARAM that sets the sustained package power limit enforced by power limiting. -/
  | setParamPowerLimit (q : Fin 512) (seq : Nat)
  /-- SET_PARAM_ZL_DEVICE_ID (R276): SET_PARAM that sets the Zilet device id; refused while sessions are open, and followed by a new HELLO on every UP port. -/
  | setParamZlDeviceId (q : Fin 512) (seq : Nat)
  /-- SET_PARAM_ZL_PORT_ENABLE (R265): SET_PARAM that enables or disables Zilet ports; disabling every port ends all sessions. -/
  | setParamZlPortEnable (q : Fin 512) (seq : Nat)
  /-- SET_PARAM_ZL_MIRROR_PORTS (R296): SET_PARAM that sets the mirror port set of 1 to 4 ports. -/
  | setParamZlMirrorPorts (q : Fin 512) (seq : Nat)
  /-- SET_PARAM_JOURNAL_FLUSH (R376): SET_PARAM that turns flushing of the journal to the SLC journal region on or off; refused while a pair is bound. -/
  | setParamJournalFlush (q : Fin 512) (seq : Nat)
  /-- SET_PARAM_CS_SEG_MODE (R156): SET_PARAM that sets a Common Store segment to cache or scratchpad mode. -/
  | setParamCsSegMode (q : Fin 512) (seq : Nat)
  /-- SET_PARAM_WV_LOG2 (R138): SET_PARAM that sets the weathervane sampling interval of a partition. -/
  | setParamWvLog2 (q : Fin 512) (seq : Nat)
  /-- SET_PARAM_WV_THRESH (R138): SET_PARAM that sets the weathervane drift threshold of a partition. -/
  | setParamWvThresh (q : Fin 512) (seq : Nat)
  /-- GET_PARAM (R350): Command that returns the value of one setting. -/
  | getParam (q : Fin 512) (seq : Nat)
  /-- SET_TALLY_BUDGET (R219): SET_TALLY that changes one class's budget over a range of arbiters, all or nothing. -/
  | setTallyBudget (q : Fin 512) (seq : Nat)
  /-- SET_TALLY_MODE (R219): SET_TALLY that sets HARD or BORROW mode over a range of arbiters. -/
  | setTallyMode (q : Fin 512) (seq : Nat)
  /-- HOST_ADOPT (R359): Command that moves queues from one host port to the other, keeping their sequence state and held completions. -/
  | hostAdopt (q : Fin 512) (seq : Nat)
  /-- CTX_CREATE (R23): Command that creates a context in a defined partition and binds its tally class. -/
  | ctxCreate (q : Fin 512) (seq : Nat)
  /-- CTX_DESTROY (R23): Command that resets a context and releases its objects, groups and queued launches. -/
  | ctxDestroy (q : Fin 512) (seq : Nat)
  /-- CTX_RESET (R410): Command that performs a context reset, ending all of the context's work. -/
  | ctxReset (q : Fin 512) (seq : Nat)
  /-- PART_CONFIG_CLAIM (R17): PART_CONFIG operation that claims idle units from P0 for a partition and builds interleave groups. -/
  | partConfigClaim (q : Fin 512) (seq : Nat)
  /-- PART_CONFIG_RELEASE (R17): PART_CONFIG operation that releases idle units of a partition into P0. -/
  | partConfigRelease (q : Fin 512) (seq : Nat)
  /-- PART_CONFIG_SET_FLAGS (R21): PART_CONFIG operation that sets or clears a defined partition's fast-recovery flag. -/
  | partConfigSetFlags (q : Fin 512) (seq : Nat)
  /-- PART_RESET (R412): Command that performs a partition reset and returns its duration. -/
  | partReset (q : Fin 512) (seq : Nat) (ticks : Nat)
  /-- OBJ_REGISTER (R189): Command that registers a new object and places all its pages, or maps an existing SHARED object. -/
  | objRegister (q : Fin 512) (seq : Nat)
  /-- OBJ_RELEASE (R196): Command that unmaps an object from every context, or ends one sharer's mapping. -/
  | objRelease (q : Fin 512) (seq : Nat)
  /-- OBJ_PLACE (R196): Command that moves an object's named pages to a named tier in ascending page order. -/
  | objPlace (q : Fin 512) (seq : Nat)
  /-- COPY (R147): Command that copies bytes with their metadata bits between device and host or within the device. -/
  | copyBytes (q : Fin 512) (seq : Nat)
  /-- PREFETCH_SCHEDULE (R197): Command that gives a context a prefetch schedule with lead distance D. -/
  | prefetchSchedule (q : Fin 512) (seq : Nat)
  /-- QUOTA_SET (R191): Command that sets a context's page quota in one tier. -/
  | quotaSet (q : Fin 512) (seq : Nat)
  /-- LAUNCH (R351): Command that gives rod sequencers a program of a context and completes with an end record. -/
  | launch (q : Fin 512) (seq : Nat)
  /-- LAUNCH_CHAIN (R351): Command that runs up to 256 launches one after another, ending at the first halt. -/
  | launchChain (q : Fin 512) (seq : Nat)
  /-- PEER_DISCOVER (R292): Command that returns port records of this device or, with REMOTE, of another device. -/
  | peerDiscover (q : Fin 512) (seq : Nat)
  /-- ROUTE_SET (R277): Command that writes consecutive route entries of the peer table, all or nothing. -/
  | routeSet (q : Fin 512) (seq : Nat)
  /-- COLL_GROUP_CREATE (R302): COLL_GROUP operation that defines a collective group and returns its list digest. -/
  | collGroupCreate (q : Fin 512) (seq : Nat)
  /-- COLL_GROUP_ADMIT (R304): COLL_GROUP operation that asks the leader to admit a device at an EXCLUDED member index. -/
  | collGroupAdmit (q : Fin 512) (seq : Nat)
  /-- COLL_GROUP_BIND (R307): COLL_GROUP operation that lets TILE_WRITE and TILE_READ of the group reach an object. -/
  | collGroupBind (q : Fin 512) (seq : Nat)
  /-- COLL_GROUP_UNBIND (R307): COLL_GROUP operation that ends an object's binding to the group. -/
  | collGroupUnbind (q : Fin 512) (seq : Nat)
  /-- COLL_GROUP_DESTROY (R307): COLL_GROUP operation that ends the group on this member. -/
  | collGroupDestroy (q : Fin 512) (seq : Nat)
  /-- COLL_RUN (R308): Command that runs an ALLREDUCE, REDUCE_SCATTER, ALLGATHER or BROADCAST over a group. -/
  | collRun (q : Fin 512) (seq : Nat)
  /-- COLL_RUN_GRAD (R316): COLL_RUN of kind GRAD that performs the step's gradient reduction between replicas. -/
  | collRunGrad (q : Fin 512) (seq : Nat)
  /-- CODE_TABLE_LOAD (R328): Command that installs a code table generation at every LIVE member of a group. -/
  | codeTableLoad (q : Fin 512) (seq : Nat)
  /-- BASE_SET (R325): Command that sets or unsets a delta-coding base id as an OBJECT or SHADOW base. -/
  | baseSet (q : Fin 512) (seq : Nat)
  /-- STEP_BEGIN (R227): Command that opens a training step and, with NEW_JOB, defines the job. -/
  | stepBegin (q : Fin 512) (seq : Nat)
  /-- STEP_COMMIT (R252): Command that arrives at the step barrier, resolves replicas and commits the new version. -/
  | stepCommit (q : Fin 512) (seq : Nat)
  /-- UPDATE_RUN (R240): Command that updates moments and weights of every block of the shard. -/
  | updateRun (q : Fin 512) (seq : Nat) (refetch : List (Nat × Bytes))
  /-- EXCLUDE_MEMBER (R247): Command that removes a member from the job and group through the leader. -/
  | excludeMember (q : Fin 512) (seq : Nat)
  /-- SNAPSHOT (R253): Command that writes the shard's weights and current moments to the free snapshot slot. -/
  | snapshot (q : Fin 512) (seq : Nat)
  /-- RESTORE (R256): Command that restores a shard from an own slot, a partner copy or another replica's snapshot. -/
  | restoreShard (q : Fin 512) (seq : Nat) (peer : Option ShardData)
  /-- EXPORT_SHARD (R260): Command that writes the committed shard state as export records to host memory or an object. -/
  | exportShard (q : Fin 512) (seq : Nat)
  /-- FILL_FROM_PEER (R258): Command that fills a replacement's shard from a live replica and makes it a live replica. -/
  | fillFromPeer (q : Fin 512) (seq : Nat) (peer : Option ShardData) (snap : Option SnapCopy)
  /-- DIGEST_COMPARE (R249): Command that forms the shard digest from memory and compares it with other replicas. -/
  | digestCompare (q : Fin 512) (seq : Nat) (peers : List PeerDigests)
  /-- SELF_TEST_ARRAY_BIST (R424): SELF_TEST that runs the array built-in self-test on free rods and withdraws failing rods from MMA service. -/
  | selfTestArrayBist (q : Fin 512) (seq : Nat) (failing : Nat)
  /-- SELF_TEST_RS_MARCH (R424): SELF_TEST that runs the rod-store march on free rods and withdraws failing rods. -/
  | selfTestRsMarch (q : Fin 512) (seq : Nat) (failing : Nat)
  /-- SELF_TEST_LOOPBACK (R424): SELF_TEST that runs link loopback on free Zilet ports. -/
  | selfTestLoopback (q : Fin 512) (seq : Nat) (failing : Nat)
  /-- SELF_TEST_WV_CHECK (R422): SELF_TEST that runs the weathervane self-check alongside work. -/
  | selfTestWvCheck (q : Fin 512) (seq : Nat) (failing : Nat)
  /-- CALIBRATE_THERMAL (R422): CALIBRATE of the thermal sensors. -/
  | calibrateThermal (q : Fin 512) (seq : Nat)
  /-- CALIBRATE_HBM_PHY (R422): CALIBRATE of the HBM PHYs of named stacks. -/
  | calibrateHbmPhy (q : Fin 512) (seq : Nat)
  /-- CALIBRATE_SPEED (R422): CALIBRATE of the speed monitors of named regions. -/
  | calibrateSpeed (q : Fin 512) (seq : Nat)
  /-- DEFERRED_TEST_START (R424): Start of a deferred SELF_TEST once every named unit is free at the same moment. -/
  | deferredTestStart (q : Fin 512) (seq : Nat) (failing : Nat)
  /-- DEFER_TIMEOUT (R424): Expiry of 3,600 s of waiting for a deferred SELF_TEST, which completes with BUSY_OWNED. -/
  | deferTimeout (q : Fin 512) (seq : Nat)
  /-- READ_COUNTERS (R353): Command that reads, and optionally clears, one counter set. -/
  | readCounters (q : Fin 512) (seq : Nat)
  /-- FAULT_READ (R404): Command that writes sticky bits, prior bits, severities and fault records to a host buffer. -/
  | faultRead (q : Fin 512) (seq : Nat)
  /-- FAULT_CLEAR (R403): Command that clears one or all fault sticky bits. -/
  | faultClear (q : Fin 512) (seq : Nat)
  /-- ESCALATION_SET (R417): ESCALATION_SET with OP SET that chooses escalation mode, N and WINDOW. -/
  | escalationSet (q : Fin 512) (seq : Nat)
  /-- ESCALATION_RETURN (R421): ESCALATION_SET with OP RETURN that returns a retired, power-cycled device to service. -/
  | escalationReturn (q : Fin 512) (seq : Nat)
  /-- FW_STAGE (R438): Command that writes image bytes into the staging area. -/
  | fwStage (q : Fin 512) (seq : Nat)
  /-- FW_ACTIVATE (R439): Command that verifies the staged image and writes it to a firmware or configuration slot. -/
  | fwActivate (q : Fin 512) (seq : Nat)
  /-- ATTEST (R443): Command that writes a signed attestation report of the measurements. -/
  | attest (q : Fin 512) (seq : Nat)
  /-- CERT_READ (R442): Command that returns one certificate chain slot. -/
  | certRead (q : Fin 512) (seq : Nat)
  /-- PAIR_BIND (R377): PAIR_BIND with OP BIND that binds this device with a partner, or restores it from a partner-lost survivor. -/
  | pairBind (q : Fin 512) (seq : Nat)
  /-- PAIR_UNBIND (R379): PAIR_BIND with OP UNBIND that ends the pair and discards held copies. -/
  | pairUnbind (q : Fin 512) (seq : Nat)
  /-- PAIR_BIND_TIMEOUT (R377): Expiry of 10 s without a matching PAIR_BIND at the partner, completing with NOT_READY. -/
  | pairBindTimeout (q : Fin 512) (seq : Nat)
  /-- PAIR_STATUS (R350): Command that returns pair state, partner id, outstanding records and the last mirrored journal index. -/
  | pairStatus (q : Fin 512) (seq : Nat)
  /-- RESUME_POINT (R382): Command that reports last accepted and last applied sequence numbers per queue. -/
  | resumePoint (q : Fin 512) (seq : Nat)
  /-- ADMIN_CFG_WRITE (R336): BAR0 write of ADMIN_CFG that enables or disables the port's admin queue. -/
  | adminCfgWrite (hp : Fin 2) (value : BitVec 32)
  /-- DB_SQ_WRITE (R340): Submission doorbell write that sets a queue's tail and makes entries pending. -/
  | dbSqWrite (hp : Fin 2) (slot : Fin 512) (value : BitVec 32)
  /-- DB_CQ_WRITE (R340): Completion doorbell write that sets a queue's head and frees completion slots. -/
  | dbCqWrite (hp : Fin 2) (slot : Fin 512) (value : BitVec 32)
  /-- REGISTER_WRITE (R334): Write to a BAR0 register or reserved offset with no behaviour of its own. -/
  | registerWrite (hp : Fin 2) (offset : Nat) (wide : Bool) (value : BitVec 64)
  /-- PROGRAM_START (R73): Rod sequencer starts the next launched program, clearing state on a change of context. -/
  | programStart (rod : Fin 64)
  /-- DESC_FETCH (R71): Fetch of descriptors into the descriptor buffer through the rod's beam port. -/
  | descFetch (rod : Fin 64)
  /-- DESC_ISSUE (R75): Sequencer issues a descriptor to its unit once its AFTER mask is satisfied. -/
  | descIssue (rod : Fin 64)
  /-- DESC_COMPLETE (R77): Completion of a descriptor at its unit, releasing AFTER waits. -/
  | descComplete (rod : Fin 64) (unit : Fin 4)
  /-- LOAD (R81): Descriptor that moves a rectangular region from memory into the rod store with conversion. -/
  | loadTile (rod : Fin 64) (e : Option Upset)
  /-- BANK_LOAD (R54): LOAD with TARGET 1 that loads a 64 x 16 FP32 tile into the shadow bank. -/
  | bankLoad (rod : Fin 64) (e : Option Upset)
  /-- LOADW (R86): Descriptor that runs the array with A columns built by the window address generator. -/
  | loadw (rod : Fin 64) (e : Option Upset)
  /-- GATHER (R83): Descriptor that reads memory rows chosen by an index array into the rod store. -/
  | gather (rod : Fin 64) (e : Option Upset)
  /-- STORE (R81): Descriptor that writes a rod-store region to memory, or lands it into G during a step. -/
  | storeTile (rod : Fin 64) (e : Option Upset)
  /-- SCATTER (R84): Descriptor that writes or atomically combines rows into memory at indexed rows. -/
  | scatter (rod : Fin 64) (e : Option Upset)
  /-- MMA (R87): Descriptor that runs K beats of outer-product accumulation into the active bank. -/
  | mma (rod : Fin 64) (e : Option Upset)
  /-- SWAP (R51): Descriptor that exchanges active and shadow banks and preloads the new active bank. -/
  | swap (rod : Fin 64) (e : Option Upset)
  /-- DRAIN (R90): Descriptor that converts the shadow bank with scales and masks into the rod store. -/
  | drain (rod : Fin 64) (e : Option Upset)
  /-- MMV (R89): Descriptor that computes a matrix-vector product on the short path. -/
  | mmv (rod : Fin 64) (e : Option Upset)
  /-- VEC (R93): Descriptor that applies one vector operation to COUNT elements. -/
  | vec (rod : Fin 64) (e : Option Upset)
  /-- REDUCE (R95): Descriptor that performs segmented reduction of value rows. -/
  | reduce (rod : Fin 64) (e : Option Upset)
  /-- SORT (R97): Descriptor that sorts groups of 64 keys or merges two sorted runs. -/
  | sortKeys (rod : Fin 64) (e : Option Upset)
  /-- SETINS (R100): Descriptor that inserts keys into a hash set table. -/
  | setins (rod : Fin 64) (e : Option Upset)
  /-- SETPROBE (R100): Descriptor that looks keys up in a hash set table. -/
  | setprobe (rod : Fin 64) (e : Option Upset)
  /-- LAYER_BEGIN (R103): Descriptor that opens a layer bracket and advances the prefetch cursor. -/
  | layerBegin (rod : Fin 64)
  /-- LAYER_END (R103): Descriptor that closes a bracket or rewinds for a replay pass. -/
  | layerEnd (rod : Fin 64)
  /-- CHECK (R106): Descriptor that forces weathervane sampling of the next DRAIN. -/
  | checkNext (rod : Fin 64)
  /-- WAIT (R107): Descriptor that waits until a synchronisation counter reaches a threshold. -/
  | waitCtr (rod : Fin 64)
  /-- SIGNAL (R107): Descriptor that adds to a counter of a rod in the partition, or holds it as pending. -/
  | signalCtr (rod : Fin 64)
  /-- BARRIER (R109): Descriptor that arrives at a rod barrier and waits for every named rod. -/
  | rodBarrier (rod : Fin 64)
  /-- SYNC_TIMEOUT (R110): Expiry of 1 s on an unsatisfied WAIT or BARRIER, raising a sync time-out. -/
  | syncTimeout (rod : Fin 64)
  /-- TIER_HINT (R111): Descriptor that passes a placement hint to the tier engine. -/
  | tierHint (rod : Fin 64)
  /-- PHASE (R111): Descriptor that charges the rod's time to a named phase. -/
  | setPhase (rod : Fin 64)
  /-- END (R112): Descriptor that waits for every unit and ends the program with an end record. -/
  | endProgram (rod : Fin 64)
  /-- WV_COMPARE (R136): Weathervane comparison of a sampled drain against reference sums, updating the histogram. -/
  | wvCompare (frame : Fin 4)
  /-- SPEED_MEASURE (R39): Millisecond reading of the speed monitors that updates BEAT_LIVE. -/
  | speedMeasure (mhz : List Nat)
  /-- THERMAL_GRADIENT_CHECK (R44): Millisecond comparison of adjacent regions' temperatures, raising THERMAL_GRADIENT. -/
  | thermalGradientCheck
  /-- TIMEREF_LOSS (R46): Loss of TIMEREF edges for 1 us, switching the counter to the internal oscillator and holding flash work. -/
  | timerefLoss
  /-- TIMEREF_RETURN (R46): Return of TIMEREF, switching counting back and relocking the NAND PLL. -/
  | timerefReturn
  /-- HEARTBEAT_ADVANCE (R406): Millisecond advance of HEARTBEAT.COUNT when every firmware core has completed its loop. -/
  | heartbeatAdvance (cores : BitVec 4)
  /-- HEARTBEAT_TIMEOUT (R407): Expiry of 10 ms without an advance, raising source HEARTBEAT. -/
  | heartbeatTimeout
  /-- WATCHDOG_CHIP_RESET (R408): Expiry of a further 1 s without an advance, starting a chip reset. -/
  | watchdogChipReset
  /-- FAULT_MESSAGE (R392): Collector takes a fault message, checks parity, sets the sticky bit and reacts by severity. -/
  | faultMessage (msg : BitVec 67)
  /-- POWER_CYCLE_REPEAT (R414): Repeat of POWER_CYCLE_REQUEST every 1 s until PWR_EN falls. -/
  | powerCycleRepeat
  /-- FC_PARITY_ERROR (R400): Parity error in a collector word, setting FC_PARITY and starting the safe state. -/
  | fcParityError (word : Nat)
  /-- THERMTRIP (R465): A sensor exceeds 115 C, driving THERMTRIP_N low and starting the safe state. -/
  | thermtrip (sensor : Fin 128)
  /-- ENGINE_RESET (R411): Engine reset of one rod, discarding everything in flight on it. -/
  | engineReset (rod : Fin 64)
  /-- PARTITION_RESET (R412): Partition reset requested by escalation, run in the steps of its kind. -/
  | partitionReset (part : Fin 8)
  /-- CHIP_RESET (R413): Chip reset that restarts firmware, switches core domains, and keeps HBM and the journal. -/
  | chipReset (unread : BitVec 4)
  /-- REPLAY (R383): Replay of unapplied accepted commands once a reset or restoration completes. -/
  | replay
  /-- PWR_EN_RISE (R480): Rising PWR_EN that starts conversion soft-start and start-up. -/
  | pwrEnRise (strap : BitVec 4) (pairSel : Bool)
  /-- PWR_EN_FALL (R481): Falling PWR_EN that enters the safe state and starts the power-off sequence. -/
  | pwrEnFall
  /-- CONVERSION_STOP (R481): End of the 4 ms power-off hold: the conversion dies stop and every domain loses power. -/
  | conversionStop
  /-- VIN52_LOSS (R482): VIN52 below the loss level with PWR_EN high: the conversion dies stop and the package stays off. -/
  | vin52Loss
  /-- POWER_READING (R455): Millisecond reading of input power that takes at most one lowering or raising step. -/
  | powerReading (milliwatts : Nat)
  /-- SENSOR_READ (R462): Millisecond reading and self-comparison of the thermal sensors. -/
  | sensorRead (readings : List SensorReading)
  /-- CONV_OVERCURRENT (R451): Conversion die input current above 32 A for 20 us, raising CONV_FAULT kind 0x0E. -/
  | convOvercurrent (die : Fin 2)
  /-- CONV_OVERTEMP (R451): Conversion die above 125 C, raising CONV_FAULT kind 0x0F. -/
  | convOvertemp (die : Fin 2)
  /-- CONV_SHUTDOWN (R451): Conversion die reaching 140 C stops switching, a loss of power. -/
  | convShutdown (die : Fin 2)
  /-- SOFT_START_DONE (R429): The 6 V rail reaches regulation and PD_ON is powered. -/
  | softStartDone
  /-- ROT_SELF_TEST (R429): Root-of-trust self-test, strap sampling, counter start and boot ROM start. -/
  | rotSelfTest (passed : Bool)
  /-- BOOT_ROM_LOAD (R435): Boot ROM reads and verifies the first stage from the preferred slot, then the other slot. -/
  | bootRomLoad
  /-- FIRST_STAGE_START (R429): First stage verifies bundle components, configuration and characterisation, measures, and draws the boot id. -/
  | firstStageStart
  /-- CONFIG_IMAGE_APPLY (R436): Validation and application of the chosen configuration profile, all or nothing. -/
  | configImageApply (mmaFailed : BitVec 64) (rodFailed : BitVec 64)
  /-- MEMORY_TRAINING (R429): Completion of HBM initialisation and training, Zilet training and deep-tier mount. -/
  | memoryTraining (failedStack : Option (Fin 8))
  /-- FIRMWARE_AREA_PREPARE (R429): Preparation of the firmware area and the replay lists. -/
  | firmwareAreaPrepare
  /-- READY (R429): READY is driven high, DEV_STATUS.READY is set and replay begins. -/
  | readyHigh
  /-- HOST_LINK_UP (R333): Host port link training completes and BAR0 becomes readable. -/
  | hostLinkUp (hp : Fin 2)
  /-- HOST_PORT_RESET (R360): HOSTx_PERST_N low or loss of link resets the port and disables its bound queues. -/
  | hostPortReset (hp : Fin 2) (perstLow : Bool)
  /-- SB_GET_STATUS (R446): Sideband message that returns DEV_STATUS, HEARTBEAT and FAULT_SUMMARY. -/
  | sbGetStatus
  /-- SB_FAULT_READ (R446): Sideband message that returns 256 bytes of the fault read layout. -/
  | sbFaultRead (offset : Nat)
  /-- RESET_CHIP (R416): Sideband message that starts a chip reset without firmware. -/
  | resetChip
  /-- RECOVERY_WRITE (R446): Sideband message that writes into the recovery buffer in stage 0xE. -/
  | recoveryWrite (offset : Nat) (data : Bytes)
  /-- RECOVERY_COMMIT (R446): Sideband message that verifies the recovery buffer, writes slot A and starts a chip reset. -/
  | recoveryCommit
  /-- MCTP_CONTROL (R446): MCTP control message on the sideband. -/
  | mctpControl (request : Bytes)
  /-- PLDM_REQUEST (R446): PLDM platform monitoring and control request on the sideband. -/
  | pldmRequest (sensor : Option (Fin 128)) (request : Bytes)
  /-- SETDASA (R475): I3C direct command that assigns the dynamic address from the static address. -/
  | setdasa (staticAddr : Nat) (dynAddr : Nat)
  /-- ENTDAA (R475): I3C dynamic address assignment by provisional ID. -/
  | entdaa (dynAddr : Nat)
  /-- SB_WRITE_RETRY (R476): Retry of an SMBus master write 1 ms after lost arbitration. -/
  | sbWriteRetry
  /-- DOE_DISCOVERY (R445): DOE Discovery request on a host port mailbox. -/
  | doeDiscovery (box : Fin 3) (index : Nat)
  /-- GET_VERSION (R445): SPDM GET_VERSION request. -/
  | getVersion (box : Fin 3)
  /-- GET_CAPABILITIES (R445): SPDM GET_CAPABILITIES request. -/
  | getCapabilities (box : Fin 3)
  /-- NEGOTIATE_ALGORITHMS (R445): SPDM NEGOTIATE_ALGORITHMS request, accepting only P-384 and SHA-384. -/
  | negotiateAlgorithms (box : Fin 3) (p384 : Bool) (sha384 : Bool)
  /-- GET_DIGESTS (R445): SPDM GET_DIGESTS request. -/
  | getDigests (box : Fin 3)
  /-- GET_CERTIFICATE (R445): SPDM GET_CERTIFICATE request for slot 0. -/
  | getCertificate (box : Fin 3) (slot : Nat) (offset : Nat) (length : Nat)
  /-- CHALLENGE (R445): SPDM CHALLENGE request answered with a signed response. -/
  | challenge (box : Fin 3) (slot : Nat) (nonce : Bytes)
  /-- GET_MEASUREMENTS (R445): SPDM GET_MEASUREMENTS request returning measurement blocks. -/
  | getMeasurements (box : Fin 3) (index : Nat) (signed : Bool) (nonce : Bytes)
  /-- UNSUPPORTED_REQUEST (R445): Any other SPDM request, answered with ERROR UnsupportedRequest. -/
  | unsupportedRequest (box : Fin 3) (code : Nat)
  /-- TOKEN_REFILL (R444): Addition of one signing token to the bucket every 1 s. -/
  | tokenRefill
  /-- EXTEST (R478): Test-port instruction that holds start-up or starts the safe state. -/
  | extest
  /-- CLAMP (R478): Test-port instruction that holds start-up or starts the safe state. -/
  | clamp
  /-- HIGHZ (R478): Test-port instruction that holds start-up or starts the safe state. -/
  | highz
  /-- BYPASS (R478): Test-port bypass instruction. -/
  | bypass
  /-- IDCODE (R477): Test-port instruction selecting the IDCODE register. -/
  | idcode
  /-- SAMPLE_PRELOAD (R478): Test-port SAMPLE/PRELOAD instruction. -/
  | samplePreload
  /-- HBM_READ (R149): Channel controller read of a burst with correction, poisoning and fault reporting. -/
  | hbmRead (req : Nat) (t : Traffic) (part : Fin 8) (pa : Nat) (ecc : Ecc)
  /-- HBM_WRITE (R150): Channel controller write of a burst, or read-modify-write of a partial one. -/
  | hbmWrite (req : Nat) (t : Traffic) (part : Fin 8) (pa : Nat) (data : Bytes) (tag : BitVec 2) (ver : Bool)
  /-- PATROL_SCRUB (R151): Periodic maintenance read of every burst of a channel. -/
  | patrolScrub (ch : Fin 256) (burst : Nat) (ecc : Ecc)
  /-- HBM_CE_RATE (R148): Hourly check of a channel's corrections, raising HBM_CE_RATE above 1,000. -/
  | hbmCeRate (ch : Fin 256)
  /-- PHY_CALIBRATION (R171): Periodic calibration of one channel, offline for 1 us or less. -/
  | phyCalibration (ch : Fin 256)
  /-- CS_REQUEST (R160): Common Store lookup and service of a request to a cached or scratchpad page. -/
  | csRequest (req : Nat) (t : Traffic) (ctx : Fin 256) (va : Nat) (write : Option Bytes) (length : Nat) (ecc : Ecc)
  /-- RS_WINDOW_ACCESS (R164): Access to a rod store through its window, checked for ownership. -/
  | rsWindowAccess (req : Nat) (t : Traffic) (part : Fin 8) (pa : Nat) (write : Option Bytes) (length : Nat) (ecc : Ecc)
  /-- USE_REPORT (R192): Millisecond report of used translations that sets pages' last-use stamps. -/
  | useReport (used : List (Nat × Nat))
  /-- TIER_MISS (R200): Access to a non-resident page that becomes a demand fetch. -/
  | tierMiss (ctx : Fin 256) (va : Nat) (rod : Option (Fin 64))
  /-- PAGE_ARRIVAL (R196): Arrival of all 32 tiles of a page, which changes its entry once. -/
  | pageArrival (object : Nat) (page : Nat)
  /-- HINT_SERVICE (R201): Tier engine action on a queued TIER_HINT. -/
  | hintService (part : Fin 8)
  /-- TIER_STARVATION (R193): Expiry of 1 s of a demand fetch waiting for room, raising tier starvation. -/
  | tierStarvation (ctx : Fin 256)
  /-- CODEWORD_READ (R176): Translation-layer read of a codeword with retries and parity rebuild. -/
  | codewordRead (object : Nat) (page : Nat) (tile : Fin 32) (word : Fin 16) (outcome : CwOutcome)
  /-- SOURCE_TIMEOUT (R202): Expiry of the 100 ms allowed to one source for refetching a tile. -/
  | sourceTimeout (object : Nat) (page : Nat) (tile : Fin 32)
  /-- TILE_COMMIT (R177): Commit of tile writes once their stripe and map log record are programmed. -/
  | tileCommit (group : Fin 4) (programOk : Bool)
  /-- STRIPE_CLOSE_TIMEOUT (R177): Closure of an open stripe with padding 1 ms after its last tile. -/
  | stripeCloseTimeout (group : Fin 4)
  /-- MAP_CHECKPOINT (R178): Periodic write of a map checkpoint every 60 s or 64 GiB. -/
  | mapCheckpoint
  /-- MOUNT (R179): Mount of the translation layer from checkpoint and log, or a map rebuild. -/
  | mountTier (newestOk : Bool) (olderOk : Bool)
  /-- STATIC_WEAR_LEVEL (R180): Move of the least-erased block's tiles when erase counts differ by more than 150. -/
  | staticWearLevel (slc : Bool)
  /-- READ_DISTURB_REFRESH (R181): Move and erase of a block whose read count reaches its limit. -/
  | readDisturbRefresh (block : Nat)
  /-- RETENTION_TICK (R182): Minute update of blocks' retention ages, triggering retention refresh. -/
  | retentionTick (case0 : Int) (case1 : Int)
  /-- READ_SCAN (R184): Daily scan of one codeword per wordline, scheduling refresh. -/
  | readScan (outcomes : List (Nat × CwOutcome))
  /-- DIE_FAILURE (R186): Marking of a NAND die as failed and migration of its stripes. -/
  | dieFailure (die : Fin 32)
  /-- COUNTED_SLOT (R215): Grant or lapse of one counted slot at a tally arbiter. -/
  | countedSlot (kind : Fin 6) (inst : Nat) (arrivals : List Request)
  /-- TALLY_STARVATION (R218): Expiry of 1 s of a head request waiting at an arbiter. -/
  | tallyStarvation (kind : Fin 6) (inst : Nat) (cls : Fin 64)
  /-- TRAINING_ATTEMPT (R265): Training attempt of a DOWN port, made every 1 s. -/
  | trainingAttempt (port : Fin 32) (lanes : BitVec 8)
  /-- TRAINING_TIMEOUT (R265): Expiry of 600 ms of training without success, returning the port to DOWN. -/
  | trainingTimeout (port : Fin 32)
  /-- HELLO (R294): Receipt of a neighbour's HELLO, updating automatic routes or isolating the port. -/
  | hello (port : Fin 32) (payload : BitVec 128)
  /-- FLIT_RECEIVE (R268): Receipt of a flit, accepted in sequence or discarded with a NAK. -/
  | flitReceive (port : Fin 32) (fec : Option Nat) (flit : Bytes)
  /-- NAK (R268): Receipt of a NAK that resends flits from the named one (go-back-N). -/
  | nak (port : Fin 32) (fseq : Nat)
  /-- ACK_TIMEOUT (R269): Expiry of 2 us without an ACK while flits are outstanding, entering RECOVERY. -/
  | ackTimeout (port : Fin 32)
  /-- RECOVERY_TIMEOUT (R265): Expiry of 5 ms in RECOVERY, taking the port DOWN. -/
  | recoveryTimeout (port : Fin 32)
  /-- RETRY_RATE_CHECK (R269): Per-second check of NAKs, raising ZL_RETRY_RATE above 10^6. -/
  | retryRateCheck (port : Fin 32)
  /-- LOSS_OF_SIGNAL (R269): Loss of signal on a port, taking it DOWN and discarding partial packets. -/
  | lossOfSignal (port : Fin 32)
  /-- PEER_SAFE (R270): Detection of the safe-state ordered set, taking the port DOWN at once. -/
  | peerSafe (port : Fin 32)
  /-- PACKET_FORWARD (R273): Cut-through forwarding of a packet addressed to another device. -/
  | packetForward (index : Nat)
  /-- NO_ROUTE (R274): Expiry of 100 us waiting for a usable port, discarding the packet. -/
  | noRoute (index : Nat)
  /-- ESCAPE_TIMEOUT (R280): Expiry of 1 us without an adaptive port, moving the packet to the escape route. -/
  | escapeTimeout (index : Nat)
  /-- SESSION_OPEN (R283): Receipt of a SESSION_OPEN message, answered with SESSION_ACCEPT. -/
  | sessionOpen (h : MsgHdr)
  /-- SESSION_ACCEPT (R283): Receipt of a SESSION_ACCEPT message carrying the peer's boot id. -/
  | sessionAccept (h : MsgHdr)
  /-- ACK (R285): Receipt of a cumulative transport acknowledgement with status. -/
  | ack (h : MsgHdr) (stream : Fin 4) (mseq : Nat) (refused : Bool)
  /-- STALE (R283): Receipt of a STALE notice, ending the session and failing messages in flight. -/
  | stale (h : MsgHdr)
  /-- RETRANSMIT_TIMEOUT (R286): Expiry of a message's retransmission time-out, resending it whole. -/
  | retransmitTimeout (peer : Fin 4096) (stream : Fin 4) (mseq : Nat)
  /-- STREAM_TIMEOUT (R286): Expiry of 100 ms without stream progress, ending the session. -/
  | streamTimeout (peer : Fin 4096) (stream : Fin 4)
  /-- TILE_WRITE (R289): Receipt of a TILE_WRITE message that writes a tile to a group-bound object. -/
  | tileWrite (h : MsgHdr) (group : Nat) (object : Nat) (offset : Nat) (data : Bytes) (md : List (BitVec 4))
  /-- TILE_READ (R289): Receipt of a TILE_READ message, answered with TILE_DATA. -/
  | tileRead (h : MsgHdr) (group : Nat) (object : Nat) (offset : Nat) (length : Nat)
  /-- TILE_DATA (R289): Receipt of a TILE_DATA answer with data or a status. -/
  | tileData (h : MsgHdr) (request : Nat) (available : Bool) (data : Bytes) (md : List (BitVec 4))
  /-- JOURNAL (R290): Receipt of partner journal records on the mirror ports. -/
  | journalMsg (h : MsgHdr) (records : List Bytes)
  /-- STATE (R290): Receipt of partner mirrored control state on the mirror ports. -/
  | mirrorState (h : MsgHdr) (record : Bytes)
  /-- SNAP_COPY (R255): Receipt of a partner snapshot copy into the user region. -/
  | snapCopy (h : MsgHdr) (copy : SnapCopy)
  /-- REMOTE_QUERY (R292): Receipt of a request for this device's port records. -/
  | remoteQuery (h : MsgHdr)
  /-- REMOTE_REPLY (R292): Receipt of another device's port records. -/
  | remoteReply (h : MsgHdr) (records : Bytes)
  /-- EXCLUDE_REQ (R304): Leader's receipt of an exclusion request, turned into a view change. -/
  | excludeReq (m : MemMsg)
  /-- ADMIT_REQ (R304): Leader's receipt of an admission request, turned into a view change. -/
  | admitReq (m : MemMsg)
  /-- CHANGE (R303): Member's receipt and application of a view change. -/
  | viewChange (m : MemMsg)
  /-- VIEW_QUERY (R305): Receipt of a new leader's query for the highest view applied. -/
  | viewQuery (m : MemMsg)
  /-- VIEW_REPLY (R305): New leader's receipt of a member's highest applied view. -/
  | viewReply (m : MemMsg)
  /-- ARRIVE (R306): Leader's receipt of a step barrier arrival. -/
  | arrive (m : MemMsg)
  /-- RELEASE (R306): Receipt of the step barrier release, with the mismatch flag. -/
  | barrierRelease (m : MemMsg) (peers : List PeerDigests) (shards : List ShardSt)
  /-- BARRIER_STALL (R246): Expiry of 60 s at the step barrier, raising a barrier stall. -/
  | barrierStall (ctx : Fin 256)
  /-- COLL_READY (R310): Receipt of a peer's READY for a run, checked against the list digest. -/
  | collReady (m : CollMsg)
  /-- CONTRIB (R311): Owner's landing of a delivered contribution into a chunk or block. -/
  | contrib (m : CollMsg)
  /-- LANDING (R235): Landing engine clamps, adds and re-encodes a landed gradient into G. -/
  | landing (slice : Fin 4)
  /-- FINAL (R311): Non-owner's receipt of a reduced chunk or block, written into place. -/
  | collFinal (m : CollMsg)
  /-- COLL_DATA (R312): Receipt of ALLGATHER or BROADCAST data, written at DST. -/
  | collData (m : CollMsg)
  /-- RESEND_REQ (R322): Sender's receipt of a request to resend named blocks stored. -/
  | resendReq (m : CollMsg)
  /-- TABLE_LOAD (R329): Receiver's installation of a code table into an empty slot. -/
  | tableLoad (m : CollMsg)
  /-- TABLE_RETIRE (R329): Receiver's emptying of a code table slot. -/
  | tableRetire (m : CollMsg)
  /-- TABLE_ACK (R328): Sender's receipt of a table acknowledgement, advancing the load. -/
  | tableAck (m : CollMsg)
  /-- NORM (R239): Receipt of a shard sum of squares, forming the total and clip factor. -/
  | normSum (m : CollMsg)
  /-- RECOVERY_EXIT (R265): Realignment in RECOVERY completes within 5 ms; the port returns to UP or UP_X4 and resumes replay from the first unacknowledged flit. -/
  | recoveryExit (port : Fin 32)
  /-- VIN52_SAG (R458): VIN52 falls below 40 V, so the intermediate rail leaves regulation and each region's voltage falls, taking regions below the permitted range or to a stall. -/
  | vin52Sag (mv : Nat)
  /-- VIN52_SAG_END (R407): VIN52 recovers from a sag and stalled regions run again; the watchdog at once acts on the ticks counted during the PD_ON stall. -/
  | vin52SagEnd (mv : Nat)
  /-- VIN52_RISE (R480): VIN52 reaches 43 V while PWR_EN is already high, and the conversion dies then begin soft-start (step 1 of Table 16.1). -/
  | vin52Rise (mv : Nat)
  /-- COMPLETION_TIME_OUT (R389): A host-port DMA read gets no completion in time, and the port raises source HOST_DMA with kind 0x12 and the bus address. -/
  | completionTimeOut (hp : Fin 2) (address : BitVec 64)
  /-- JOURNAL_STRIPE_TIMEOUT (R376): Programming of a journal stripe 100 ms after its first record. -/
  | journalStripeTimeout
  /-- CONTROL_STATE_REWRITE (R376): Rewrite of the full control-state copy in the flush region at least every 60 s. -/
  | controlStateRewrite
  /-- ZL_REFCLK_LOSS (R468): ZL_REFCLK stops, taking every Zilet port DOWN and stopping the HBM PHYs so that beam traffic waits under R40. -/
  | zlRefclkLoss
  /-- PWR_EN_LOW_TIME_END (R481): 100 ms after PWR_EN fell, with the power-off sequence complete, the device acts on a PWR_EN rise that came earlier and is still high, and starts up. -/
  | pwrEnLowTimeEnd
deriving DecidableEq, Repr

end Sys2Proof
end

