-- ==== Sys2Proof/Decode.lean ====
section
/-!
DEFINITION. Words of the command table. spec/opcode_table.json gives no row any bits: its rows are commands and events,
and a host command's own opcode is read from its submission entry (Machine/Ops.lean, R343). So no word spells a command.
-/

namespace Sys2Proof

/-- The command that a word of the table spells: none, since no row has bits. -/
def decodeTableWord (_nbits _w : Nat) : Option Instr := none

end Sys2Proof
end

