-- ==== Sys2Proof/Config.lean ====
section
/-!
DEFINITION. What one implementation fixes and the spec does not: constants without a body, so that no
proof can see their values, and the contents of a configuration profile (T16.4).
-/

namespace Sys2Proof

/-- The units, flags and dedicated ports a profile gives one partition (T16.4, R15). -/
structure ProfilePart where
  part : Nat
  rods : List Nat
  chans : List Nat
  segs : List Nat
  ports : List Nat
  fast : Bool
deriving DecidableEq, Repr

/-- The budgets and mode a profile gives one arbiter kind (R223). -/
structure ProfileTally where
  kind : Nat
  budgets : FMap Nat
  borrow : Option Bool
deriving DecidableEq, Repr

/-- One profile of a configuration image (T16.4). The image's byte layout is not in the spec; its
contents are. -/
structure Profile where
  idBase : Option Nat := none
  portEnable : Nat := 2 ^ 32 - 1
  mirrorPorts : Nat := 0x00010001
  routes : List (Nat × Nat) := []
  severities : List (Nat × Nat) := []
  window : Bool := false
  escN : Nat := 3
  escWindow : Nat := 600
  powerLimit : Nat := 2000
  journalFlush : Nat := 0
  parts : List ProfilePart := []
  scratch : List Nat := []
  tallies : List ProfileTally := []
  wvLog2 : List (Nat × Nat) := []
  wvThresh : List (Nat × Nat) := []
  testPortAll : Bool := false
deriving DecidableEq, Repr

/-- An entry of a job's tensor table (R228). -/
structure Tensor where
  id : Nat
  rank : Nat
  shape : List Nat
  first : Nat
deriving DecidableEq, Repr, Inhabited

namespace Config

/-- A value the spec leaves open, numbered by the model's own counter `State.free`. Log 1. -/
opaque freeValue : Nat → Nat

/-- Error in ulp, minus 2, of the vector functions (R93: within 2 ulp), by operation code and operand. Log 13. -/
opaque fnDelta : Nat → BitVec 32 → Fin 5

/-- Result of a vector function where no real result exists (logarithm of 0 or less, reciprocal of 0,
reciprocal square root of 0 or less): the spec states none. Log 13. -/
opaque fnOpen : Nat → BitVec 32 → BitVec 32

/-- Ulps, minus 1, by which a bias correction 1 ÷ (1 − β^(n+1)) rounded to FP32 differs from the exact one (R240): the order
of the FP64 operations that form it is not stated. Log 14. -/
opaque biasDelta : BitVec 32 → Nat → Fin 3

/-- The voltage in mV at which handshakes stall: "about 0.55 V" (T2.2, a characterisation value), below the permitted
range of R36. Log 15. -/
opaque logicStopMv : Fin 650

/-- The controller code of a 64-byte burst over its data and metadata (T6.2): the spec gives its field, not the code. Log 11. -/
opaque checkCode : Bytes → BitVec 4 → BitVec 28

/-- The LDPC parity in a codeword's spare bytes (R175): the spec gives the code's rate and what it corrects, not the code. Log 24. -/
opaque ldpcParity : Bytes → Bytes

/-- The bytes a region's tile holds (T7.2's boot, map, journal and slot regions), by the region and the tile's index, which the
spec gives no layout. Log 24. -/
opaque regionTile : Nat → Nat → Bytes

/-- SHA-384 (R433, R440): a function of another standard. Log 16. -/
opaque sha384 : Bytes → Bytes

/-- ECDSA P-384 verification of a message under a public key (R433, FIPS 186-5). Log 16. -/
opaque ecdsaVerify : Bytes → Bytes → Bytes → Bool

/-- LMS/HSS verification of a message under a public key (R433, RFC 8554). Log 16. -/
opaque lmsVerify : Bytes → Bytes → Bytes → Bool

/-- The device's ECDSA signature over a message, by signature count (R441, R443). Log 16. -/
opaque ecdsaSign : Nat → Bytes → Bytes

/-- The device's HSS signature over a message with leaf index q (R441, R443). Log 16. -/
opaque lmsSign : Nat → Bytes → Bytes

/-- The components of a bundle's body pass their own checks (R431): the layout of the manifest is not in the spec. Log 16. -/
opaque componentsOk : Bytes → Bool

/-- The bytes that measurement `i` covers, from the image and numbers it names (T16.5); 1 is the boot ROM. Log 16. -/
opaque measured : Nat → Bytes → Bytes

/-- The ROM digests of the four vendor key pairs (R433). Log 16. -/
opaque romKeyDigest : Nat → Bytes

/-- The profiles a configuration image's body holds (R436; the body's byte layout is not in the spec). Log 17. -/
opaque profilesOf : Bytes → List Profile

/-- The speed word fields BEAT_NOM, BEAT_HOT and VSLOPE a characterisation record's body holds (R38). Log 17. -/
opaque charOf : Bytes → Nat × Nat × Nat

/-- The bytes of an information page or counter set beyond what the spec lays out (R352, R353), by page. Log 18. -/
opaque pageLayout : Nat → List Nat → Bytes

/-- Number of the last wordline of a flash block: the spec gives no block size. Log 24. -/
opaque lastWordline : Nat

/-- Which member of a job's group holds replica `r` of shard `s` (job id, shard, replica): the spec does not
say how a member learns it. Log 25. -/
opaque replicaMember : Nat → Nat → Nat → Nat

/-- The shard that a member of a job's group holds (job id, member index). Log 25. -/
opaque shardOf : Nat → Nat → Nat

/-- Vendor ID of Dvoray Microsystems: T12.1 names it and gives no number. Log 87. -/
opaque vendorId : BitVec 16

/-- A word of configuration space past the identity and BAR0, over what software has set: the PCI standard's capabilities in an order
that the spec does not give (T12.1). Log 87. -/
opaque configWord : Nat → List Nat → BitVec 32

/-- The input voltage in mV below which the conversion dies stop switching: "about 26 V" (T17.3). Log 3. -/
opaque inputLossMv : Fin 40000

/-- Bytes of an SPDM request, by request code and operands: they are part of the transcript that a signature covers. Log 16. -/
opaque standardRequest : Nat → Bytes → Bytes

/-- Bytes of an SPDM or PLDM answer that its own standard lays out (R445, R446), by request. Log 16. -/
opaque standardReply : Nat → Bytes → Bytes

/-- The bytes of the state record of a control command (R369), by journal index: its layout is not in the spec. Log 18. -/
opaque stateRecord : Nat → Bytes

/-- The body of a STATE message that marks a point of a pair's exchange, by role, and the role of a received body:
0 a state record, 1 and 2 begin and end of a held copy, 3 and 4 begin and end of a full copy, 5 refusal of a bind,
6 end of the pair. Log 33. -/
opaque stateMark : Nat → Bytes

opaque stateRole : Bytes → Nat

/-- The group id a TILE_READ to a peer source names (device, object): the source field of T12.15 holds none. Log 27. -/
opaque sourceGroup : Nat → Nat → Nat

/-- The 64-byte header of a message whose type's layout is not in the spec, by type and contents (R288). Log 27. -/
opaque messageHeader : Nat → List Nat → Bytes

/-- Bytes of a tensor-table entry, less than 4096, and what an entry holds: its layout is not in the spec (R228). Log 29. -/
opaque tensorBytes : Fin 4096

/-- The bytes of a snapshot record, which holds the job definition, the version, the tensor table, the shard digest and the
length (R253): its layout is not in the spec. Log 63. -/
opaque snapRecord : Bytes → Nat → Bytes → BitVec 64 → Nat → Bytes

opaque tensorEntry : Bytes → Tensor

end Config

end Sys2Proof
end

