-- ==== Sys2Proof/Machine/Maps.lean ====
section
/-!
DEFINITION. Sparse maps by number, their reads and writes, the byte order of fields (R5), and small
list operations used by every unit.
-/

namespace Sys2Proof.Machine

/-- What a map lists at key `k`, if anything. -/
def mapFind {α : Type} : FMap α → Nat → Option α
  | [], _ => none
  | (j, v) :: m, k => if j = k then some v else mapFind m k

/-- What a map holds at `k`: the listed value, or the default `d`. -/
def mapGet {α : Type} (d : α) (m : FMap α) (k : Nat) : α :=
  (mapFind m k).getD d

/-- `m` without key `k`. -/
def mapErase {α : Type} : FMap α → Nat → FMap α
  | [], _ => []
  | (j, v) :: m, k => if j = k then m else (j, v) :: mapErase m k

/-- `m` with `v` listed at `k`, in order. -/
def mapInsert {α : Type} : FMap α → Nat → α → FMap α
  | [], k, v => [(k, v)]
  | (j, w) :: m, k, v =>
    if k < j then (k, v) :: (j, w) :: m
    else if k = j then (k, v) :: m
    else (j, w) :: mapInsert m k v

/-- Write `v` at `k` of a map whose default is `d`: writing the default removes the entry, so equal
maps are equal lists. -/
def mapSet {α : Type} [DecidableEq α] (d : α) (m : FMap α) (k : Nat) (v : α) : FMap α :=
  if v = d then mapErase m k else mapInsert m k v

/-- Change the value at `k`. -/
def mapMod {α : Type} [DecidableEq α] (d : α) (m : FMap α) (k : Nat) (f : α → α) : FMap α :=
  mapSet d m k (f (mapGet d m k))

/-- The canonical form: keys strictly rising and no entry equal to the default. -/
def mapWf {α : Type} [DecidableEq α] (d : α) : FMap α → Bool
  | [] => true
  | [(_, v)] => decide (v ≠ d)
  | (j, v) :: (k, w) :: m => decide (v ≠ d) && decide (j < k) && mapWf d ((k, w) :: m)

/-- Every listed key for which `p` holds, removed. -/
def mapFilter {α : Type} (p : Nat → α → Bool) (m : FMap α) : FMap α :=
  m.filter (fun kv => p kv.1 kv.2)

/-- A memory in canonical form: addresses strictly rising, no entry equal to 0 (log 11). -/
abbrev Memory.wf (m : Mem) : Bool := mapWf (0 : Byte) m

/-- One byte of memory. -/
abbrev memGet (m : Mem) (a : Nat) : Byte := mapGet (0 : Byte) m a

/-- Write one byte of memory. -/
abbrev memSet (m : Mem) (a : Nat) (v : Byte) : Mem := mapSet (0 : Byte) m a v

/-- `n` bytes from `a`. -/
def memRead (m : Mem) (a : Nat) : Nat → Bytes
  | 0 => []
  | n + 1 => memGet m a :: memRead m (a + 1) n

/-- Write a run of bytes from `a`. -/
def memWrite (m : Mem) (a : Nat) : Bytes → Mem
  | [] => m
  | b :: bs => memWrite (memSet m a b) (a + 1) bs

/-- Clear the bytes of `[a, a + n)` to zero. -/
def memZero (m : Mem) (a n : Nat) : Mem :=
  m.filter (fun kv => kv.1 < a || a + n ≤ kv.1)

/-- The number a run of bytes holds, byte 0 least significant (R5). -/
def leNat : Bytes → Nat
  | [] => 0
  | b :: bs => b.toNat + 256 * leNat bs

/-- The `n` bytes of a number, least significant first (R5). -/
def natLe : Nat → Nat → Bytes
  | 0, _ => []
  | n + 1, v => BitVec.ofNat 8 (v % 256) :: natLe n (v / 256)

/-- Bits [hi:lo] of a number. -/
def bitsOf (v hi lo : Nat) : Nat := v / 2 ^ lo % 2 ^ (hi + 1 - lo)

/-- Bit `i` of a number. -/
def bitOf (v i : Nat) : Bool := v / 2 ^ i % 2 = 1

/-- A field value placed at bit `lo`. -/
def fieldAt (v width lo : Nat) : Nat := v % 2 ^ width * 2 ^ lo

/-- A number of `w` bits read as two's complement. -/
def sgn (w v : Nat) : Int := if v % 2 ^ w < 2 ^ (w - 1) then (v % 2 ^ w : Nat) else (v % 2 ^ w : Nat) - (2 ^ w : Nat)

/-- The two's complement of `w` bits of an integer. -/
def unsgn (w : Nat) (i : Int) : Nat := (i % (2 ^ w : Nat)).toNat

/-- Add one, saturating at `2^w - 1`. -/
def satAdd (w v n : Nat) : Nat := min (v + n) (2 ^ w - 1)

/-- Bytes `lo` to `hi` of a run (zero beyond its end). -/
def byteSlice (bs : Bytes) (lo n : Nat) : Bytes :=
  ((bs.drop lo).take n) ++ List.replicate (n - (bs.drop lo).length) 0

/-- The field of bytes `lo` to `lo + n - 1` as a number (R5). -/
def fieldBytes (bs : Bytes) (lo n : Nat) : Nat := leNat (byteSlice bs lo n)

/-- Every byte of the run is zero (reserved fields, R8). -/
def allZero (bs : Bytes) : Bool := bs.all (fun b => b == 0)

/-- The indices below `n` whose bit of a mask is set, ascending (R12). -/
def maskList (mask n : Nat) : List Nat := (List.range n).filter (fun i => bitOf mask i)

/-- The mask of a list of indices (R12). -/
def listMask (l : List Nat) : Nat := l.foldl (fun a i => if bitOf a i then a else a + 2 ^ i) 0

/-- Replace the element at `i`, if there is one. -/
def listSet {α : Type} : List α → Nat → α → List α
  | [], _, _ => []
  | _ :: l, 0, v => v :: l
  | x :: l, i + 1, v => x :: listSet l i v

/-- The first element that satisfies `p` removed. -/
def listEraseFirst {α : Type} (p : α → Bool) : List α → List α
  | [] => []
  | x :: l => if p x then l else x :: listEraseFirst p l

/-- Insert into an ascending list without repeats. -/
def insertAsc (n : Nat) : List Nat → List Nat
  | [] => [n]
  | x :: l => if n < x then n :: x :: l else if n = x then x :: l else x :: insertAsc n l

/-- Append to a ring of `cap` items: the oldest items fall out; the second result counts them. -/
def ringPush {α : Type} (cap : Nat) (l : List α) (x : α) : List α × Nat :=
  let l' := l ++ [x]
  (l'.drop (l'.length - cap), l'.length - cap)

end Sys2Proof.Machine
end

