-- ==== Sys2Proof/Machine/Num.lean ====
section
/-!
DEFINITION. Number formats and exact arithmetic on them (spec/05_numerics.md, spec/03_rod_array.md
R49, R60): decoding of FP16, FP32, M8 and U8 elements (T5.1), truncation toward zero, round to
nearest even, the stochastic rounding of R122 with the generator of R123, and the vector functions
of T4.12.
-/

namespace Sys2Proof.Machine

/-- An exact value: a zero with its sign, `(-1)^neg × m × 2^e` with `m > 0`, an infinity, or a NaN. -/
inductive Val where
  | zero (neg : Bool)
  | fin (neg : Bool) (m : Nat) (e : Int)
  | inf (neg : Bool)
  | nan
deriving DecidableEq, Repr

/-- Canonical NaN of FP32 and FP16 (T5.1). -/
def nan32 : BitVec 32 := 0x7FC00000#32

/-- Canonical NaN of FP16 (T5.1). -/
def nan16 : BitVec 16 := 0x7E00#16

/-- Largest finite magnitude of FP32 with a sign. -/
def max32 (neg : Bool) : BitVec 32 := if neg then 0xFF7FFFFF#32 else 0x7F7FFFFF#32

/-- Zero of FP32 with a sign. -/
def zero32 (neg : Bool) : BitVec 32 := if neg then 0x80000000#32 else 0#32

/-- Infinity of FP32 with a sign. -/
def inf32 (neg : Bool) : BitVec 32 := if neg then 0xFF800000#32 else 0x7F800000#32

/-- An IEEE pattern of `ew` exponent bits and `mw` fraction bits, read exactly (T5.1). -/
def decIeee (ew mw : Nat) (w : Nat) : Val :=
  let neg := bitOf w (ew + mw)
  let e := bitsOf w (ew + mw - 1) mw
  let m := w % 2 ^ mw
  let bias : Int := (2 ^ (ew - 1) - 1 : Nat)
  if e = 2 ^ ew - 1 then (if m = 0 then .inf neg else .nan)
  else if e = 0 then (if m = 0 then .zero neg else .fin neg m (1 - bias - mw))
  else .fin neg (2 ^ mw + m) ((e : Int) - bias - mw)

/-- FP16 (T5.1). -/
def dec16 (w : BitVec 16) : Val := decIeee 5 10 w.toNat

/-- FP32 (T5.1). -/
def dec32 (w : BitVec 32) : Val := decIeee 8 23 w.toNat

/-- FP64, used by the shard sums of R239. -/
def dec64 (w : BitVec 64) : Val := decIeee 11 52 w.toNat

/-- The pattern is a subnormal of its format: exponent field 0 and a non-zero fraction. -/
def isSub (ew mw : Nat) (w : Nat) : Bool := bitsOf w (ew + mw - 1) mw = 0 && w % 2 ^ mw ≠ 0

/-- A subnormal FP16 is flushed to zero of its sign (R49, R118); the flag says it was. -/
def flush16 (w : BitVec 16) : BitVec 16 × Bool :=
  if isSub 5 10 w.toNat then (w &&& 0x8000#16, true) else (w, false)

/-- A subnormal FP32 is flushed to zero of its sign; the flag says it was. -/
def flush32 (w : BitVec 32) : BitVec 32 × Bool :=
  if isSub 8 23 w.toNat then (w &&& 0x80000000#32, true) else (w, false)

/-- An exact integer times a power of two as a value; zero takes the sign given. -/
def ofInt (i : Int) (e : Int) (zneg : Bool) : Val :=
  if i = 0 then .zero zneg else .fin (i < 0) i.natAbs e

/-- The value negated. -/
def vneg : Val → Val
  | .zero n => .zero (!n)
  | .fin n m e => .fin (!n) m e
  | .inf n => .inf (!n)
  | .nan => .nan

/-- The sign of a value (a NaN counts as positive). -/
def vsign : Val → Bool
  | .zero n => n
  | .fin n _ _ => n
  | .inf n => n
  | .nan => false

/-- The exact sum; opposite values give +0, as under rounding toward zero (R49, IEEE 754). -/
def vadd : Val → Val → Val
  | .nan, _ => .nan
  | _, .nan => .nan
  | .inf a, .inf b => if a = b then .inf a else .nan
  | .inf a, _ => .inf a
  | _, .inf b => .inf b
  | .zero a, .zero b => .zero (a && b)
  | .zero _, v => v
  | v, .zero _ => v
  | .fin n1 m1 e1, .fin n2 m2 e2 =>
    let e := min e1 e2
    let i1 : Int := (m1 : Int) * 2 ^ (e1 - e).toNat
    let i2 : Int := (m2 : Int) * 2 ^ (e2 - e).toNat
    ofInt ((if n1 then -i1 else i1) + (if n2 then -i2 else i2)) e false

/-- The exact product (R49, IEEE 754). -/
def vmul : Val → Val → Val
  | .nan, _ => .nan
  | _, .nan => .nan
  | .inf a, .inf b => .inf (a != b)
  | .inf a, .fin b _ _ => .inf (a != b)
  | .fin a _ _, .inf b => .inf (a != b)
  | .inf _, .zero _ => .nan
  | .zero _, .inf _ => .nan
  | .zero a, v => .zero (a != vsign v)
  | v, .zero b => .zero (vsign v != b)
  | .fin n1 m1 e1, .fin n2 m2 e2 => .fin (n1 != n2) (m1 * m2) (e1 + e2)

/-- Multiply a value by 2^s exactly. -/
def vscale (s : Int) : Val → Val
  | .fin n m e => .fin n m (e + s)
  | v => v

/-- Order of finite magnitudes and infinities; `none` when a NaN takes part. -/
def vcmp (a b : Val) : Option Ordering :=
  let key : Val → Option (Int × Int × Int) := fun v => match v with
    | .nan => none
    | .inf n => some (if n then (-2, 0, 0) else (2, 0, 0))
    | .zero _ => some (0, 0, 0)
    | .fin n m e => some (if n then (-1, (m : Int), e) else (1, (m : Int), e))
  match key a, key b with
  | some (c1, m1, e1), some (c2, m2, e2) =>
    if c1 ≠ c2 then some (compare c1 c2)
    else if c1 = 1 ∨ c1 = -1 then
      let e := min e1 e2
      let x := m1 * 2 ^ (e1 - e).toNat
      let y := m2 * 2 ^ (e2 - e).toNat
      some (if c1 = 1 then compare x y else compare y x)
    else some .eq
  | _, _ => none

/-- An FP32 result with what happened on the way: a magnitude beyond the largest finite value
(R49 Overflow) and a flush below the smallest normal (R49 Underflow). -/
structure R32 where
  bits : BitVec 32
  ovf : Bool := false
  udf : Bool := false
deriving DecidableEq, Repr

/-- The exponent of the leading bit of `m × 2^e`. -/
def topExp (m : Nat) (e : Int) : Int := e + Nat.log2 m

/-- `m × 2^e` cut to `p` significant bits toward zero: the integer significand and the exponent of its unit. -/
def cut (p : Nat) (m : Nat) (e : Int) : Nat × Int :=
  let l := Nat.log2 m
  if l + 1 ≤ p then (m * 2 ^ (p - 1 - l), e - (p - 1 - l : Nat)) else (m / 2 ^ (l + 1 - p), e + (l + 1 - p : Nat))

/-- Whether cutting to `p` bits drops a bit that is not zero. -/
def cutInexact (p : Nat) (m : Nat) : Bool :=
  let l := Nat.log2 m
  l + 1 > p && m % 2 ^ (l + 1 - p) ≠ 0

/-- The exact value truncated toward zero to FP32, saturated and flushed as R49 states. -/
def trunc32 : Val → R32
  | .nan => { bits := nan32 }
  | .inf n => { bits := inf32 n }
  | .zero n => { bits := zero32 n }
  | .fin n m e =>
    let t := topExp m e
    let (s, _) := cut 24 m e
    if t > 127 ∨ (t = 127 ∧ s = 2 ^ 24 - 1 ∧ cutInexact 24 m) then { bits := max32 n, ovf := true }
    else if t < -126 then { bits := zero32 n, udf := true }
    else { bits := BitVec.ofNat 32 ((if n then 2 ^ 31 else 0) + (t + 127).toNat * 2 ^ 23 + (s - 2 ^ 23)) }

/-- Round to nearest, ties to even, into an IEEE format of `ew` and `mw` bits, subnormals kept:
the arithmetic of the weathervanes (R134) and of the FP64 sums (R239). -/
def rneBits (ew mw : Nat) : Val → Nat
  | .nan => (2 ^ ew - 1) * 2 ^ mw + 2 ^ (mw - 1)
  | .inf n => (if n then 2 ^ (ew + mw) else 0) + (2 ^ ew - 1) * 2 ^ mw
  | .zero n => if n then 2 ^ (ew + mw) else 0
  | .fin n m e =>
    let bias : Int := (2 ^ (ew - 1) - 1 : Nat)
    let q := max (topExp m e - mw) (1 - bias - mw)
    let s := if q ≤ e then m * 2 ^ (e - q).toNat
      else
        let sh := (q - e).toNat
        let a := m / 2 ^ sh
        let r := m % 2 ^ sh
        if r * 2 > 2 ^ sh ∨ (r * 2 = 2 ^ sh ∧ a % 2 = 1) then a + 1 else a
    let sign := if n then 2 ^ (ew + mw) else 0
    if s = 0 then sign
    else if s < 2 ^ mw then sign + s
    else
      let b := (q + bias + mw).toNat * 2 ^ mw + (s - 2 ^ mw)
      if b ≥ (2 ^ ew - 1) * 2 ^ mw then sign + (2 ^ ew - 1) * 2 ^ mw else sign + b

/-- Round to nearest even to FP32. -/
def rne32 (v : Val) : BitVec 32 := BitVec.ofNat 32 (rneBits 8 23 v)

/-- Round to nearest even to FP64. -/
def rne64 (v : Val) : BitVec 64 := BitVec.ofNat 64 (rneBits 11 52 v)

/-- FP32 sum truncated toward zero; subnormal operands are flushed (R49, R93). -/
def add32 (a b : BitVec 32) : R32 := trunc32 (vadd (dec32 (flush32 a).1) (dec32 (flush32 b).1))

/-- FP32 product truncated toward zero; subnormal operands are flushed (R60, R93). -/
def mul32 (a b : BitVec 32) : R32 := trunc32 (vmul (dec32 (flush32 a).1) (dec32 (flush32 b).1))

/-- The negated FP32 pattern. -/
def neg32 (a : BitVec 32) : BitVec 32 := a ^^^ 0x80000000#32

/-- FP32 sum by round to nearest even, nothing flushed (R134). -/
def addRne (a b : BitVec 32) : BitVec 32 := rne32 (vadd (dec32 a) (dec32 b))

/-- FP32 product by round to nearest even, nothing flushed (R134). -/
def mulRne (a b : BitVec 32) : BitVec 32 := rne32 (vmul (dec32 a) (dec32 b))

/-- The FP32 value nearest to 1 ÷ n (R96, R238, R311). -/
def recipNat32 (n : Nat) : BitVec 32 :=
  if n = 0 then 0#32 else
    let k := Nat.log2 n + 64
    let a := 2 ^ k / n
    let a' := if 2 ^ k % n = 0 then a * 2 else a * 2 + 1
    rne32 (.fin false a' (-(k : Int) - 1))

/-- An integer as the FP32 value reached by truncation toward zero (R116 decode for computation). -/
def ofInt32Trunc (i : Int) : BitVec 32 := (trunc32 (ofInt i 0 false)).bits

/-! ### Stochastic rounding (R122 to R124) -/

/-- `mix` of R123. -/
def mix (z : BitVec 64) : BitVec 64 :=
  let z := (z ^^^ (z >>> 30)) * 0xBF58476D1CE4E5B9#64
  let z := (z ^^^ (z >>> 27)) * 0x94D049BB133111EB#64
  z ^^^ (z >>> 31)

/-- `draw` of R123: the d-th 16-bit draw of a stream. -/
def draw (key : BitVec 64) (d : Nat) : Nat :=
  let w := mix (key + BitVec.ofNat 64 (d / 4) * 0x9E3779B97F4A7C15#64)
  w.toNat / 2 ^ (16 * (d % 4)) % 65536

/-- A narrow floating format: significand bits, exponent of the smallest normal, largest finite
magnitude `maxM × 2^maxE`, fraction bits (T5.1, T5.2). -/
structure NFmt where
  p : Nat
  emin : Int
  maxM : Nat
  maxE : Int
deriving DecidableEq, Repr

/-- FP16 elements (T5.2: 65,504 = 2047 × 2^5). -/
def nf16 : NFmt := ⟨11, -14, 2047, 5⟩

/-- M8 elements (480 = 15 × 2^5). -/
def nfM8 : NFmt := ⟨4, -6, 15, 5⟩

/-- U8 elements (122,880 = 15 × 2^13). -/
def nfU8 : NFmt := ⟨4, -14, 15, 13⟩

/-- `m1 × 2^e1 ≤ m2 × 2^e2`. -/
def magLe (m1 : Nat) (e1 : Int) (m2 : Nat) (e2 : Int) : Bool :=
  let e := min e1 e2
  m1 * 2 ^ (e1 - e).toNat ≤ m2 * 2 ^ (e2 - e).toNat

/-- What converting one element gave: its pattern and which counters it advances (T5.4, T5.5). -/
structure Conv where
  bits : Nat
  range : Bool := false
  outFlush : Bool := false
  nanZero : Bool := false
deriving DecidableEq, Repr

/-- A finite magnitude `m × 2^e` as significand and exponent field of a narrow format, rounding up
when draw `r` is below the discarded fraction (R122). The result is the pattern without sign. -/
def srMag (f : NFmt) (m : Nat) (e : Int) (r : Nat) : Nat :=
  let t := topExp m e
  let q := t - (f.p - 1 : Nat)
  let a := if q ≤ e then m * 2 ^ (e - q).toNat else m / 2 ^ (q - e).toNat
  let frac := if q ≤ e then 0 else m % 2 ^ (q - e).toNat
  let sh := (q - e).toNat
  let tt := frac * 65536 / 2 ^ sh
  let s := if frac ≠ 0 ∧ r < tt then a + 1 else a
  (t - f.emin + 1).toNat * 2 ^ (f.p - 1) + (s - 2 ^ (f.p - 1))

/-- Convert an exact value (already divided by its block scale) into a narrow format whose sign bit
is at `signBit` (none for U8), with draw `r` (T5.4). `ieee` says the format holds infinities and NaN. -/
def encNarrow (f : NFmt) (signBit : Option Nat) (ieee : Bool) (r : Nat) (v : Val) : Conv :=
  let sg : Bool → Nat := fun n => match signBit with | some b => if n then 2 ^ b else 0 | none => 0
  let maxPat := srMag f f.maxM f.maxE 65535
  match v with
  | .nan => if ieee then { bits := nan16.toNat } else { bits := 0, nanZero := true }
  | .inf n =>
    if ieee then { bits := sg n + 31 * 1024 }
    else if signBit.isNone && n then { bits := 0, range := true }
    else { bits := sg n + maxPat, range := true }
  | .zero n => { bits := sg n }
  | .fin n m e =>
    if signBit.isNone && n then { bits := 0, range := true }
    else if !magLe m e f.maxM f.maxE then { bits := sg n + maxPat, range := true }
    else if topExp m e < f.emin then { bits := sg n, outFlush := true }
    else { bits := sg n + srMag f m e r }

/-- Convert to FP16 with a draw. -/
def enc16 (r : Nat) (v : Val) : Conv := encNarrow nf16 (some 15) true r v

/-- Decode an M8 element before its block scale (T5.1). -/
def decM8 (w : Byte) : Val :=
  let e := bitsOf w.toNat 6 3
  if e = 0 then .zero (bitOf w.toNat 7) else .fin (bitOf w.toNat 7) (8 + w.toNat % 8) ((e : Int) - 7 - 3)

/-- Decode a U8 element before its block scale (T5.1). -/
def decU8 (w : Byte) : Val :=
  let e := bitsOf w.toNat 7 3
  if e = 0 then .zero false else .fin false (8 + w.toNat % 8) ((e : Int) - 15 - 3)

/-- A scale byte as an integer, limited to −64..63; the flag says it lay outside (R114). -/
def scaleOf (b : Byte) : Int × Bool :=
  let s := b.toInt
  if s < -64 then (-64, true) else if s > 63 then (63, true) else (s, false)

/-- The least scale of R119 for which every finite magnitude of the block fits. -/
def blockScale (f : NFmt) (vs : List Val) : Int :=
  let fits : Int → Bool := fun s => vs.all fun v => match v with
    | .fin _ m e => magLe m (e - s) f.maxM f.maxE
    | _ => true
  if vs.all (fun v => match v with | .fin _ _ _ => false | _ => true) then 0
  else match (List.range 128).find? (fun (k : Nat) => fits ((k : Int) - 64)) with
    | some k => (k : Int) - 64
    | none => 63

/-- Convert to an FP32 target: exact for every narrower format, INT32 rounded with a draw (R116, R118). -/
def enc32 (r : Nat) (v : Val) : Conv :=
  match v with
  | .nan => { bits := nan32.toNat }
  | .inf n => { bits := (inf32 n).toNat }
  | .zero n => { bits := (zero32 n).toNat }
  | .fin n m e =>
    if !magLe m e (2 ^ 24 - 1) 104 then { bits := (max32 n).toNat, range := true }
    else if topExp m e < -126 then { bits := (zero32 n).toNat, outFlush := true }
    else { bits := (if n then 2 ^ 31 else 0) + srMag ⟨24, -126, 2 ^ 24 - 1, 104⟩ m e r }

/-- Convert to a signed integer of `w` bits: truncation toward zero, saturation with a range event where
the exact magnitude lies beyond the range (R118, R120). -/
def encInt (w : Nat) (v : Val) : Conv :=
  let hi : Int := 2 ^ (w - 1) - 1
  let lo : Int := -(2 ^ (w - 1))
  match v with
  | .nan => { bits := 0, nanZero := true }
  | .inf n => { bits := unsgn w (if n then lo else hi), range := true }
  | .zero _ => { bits := 0 }
  | .fin n m e =>
    let d : Nat := 2 ^ (-e).toNat
    let a : Nat := if 0 ≤ e then m * 2 ^ e.toNat else m / d
    let part : Nat := if 0 ≤ e then 0 else m % d
    let i : Int := if n then -(a : Int) else a
    if hi < i || (i = hi && part ≠ 0) then { bits := unsgn w hi, range := true }
    else if i < lo || (i = lo && part ≠ 0) then { bits := unsgn w lo, range := true }
    else { bits := unsgn w i }

/-! ### Vector functions (T4.12, R93) -/

/-- Fraction bits of the fixed-point reference values. -/
def fxBits : Nat := 160

/-- ln 2 × 2^160, truncated. -/
def ln2Fx : Int := 1013035739299659071135698605846798551586536899366

/-- Terms of the exponential series of a fixed-point `r` (|r| < 1). -/
def expSeries (r : Int) : Nat → Int → Int → Int
  | 0, _, acc => acc
  | n + 1, term, acc =>
    let k : Int := (41 : Int) - (n : Int)
    let t := term * r / (2 ^ fxBits : Nat) / k
    expSeries r n t (acc + t)

/-- A finite value as a fixed-point integer, truncated toward −∞. -/
def toFx (n : Bool) (m : Nat) (e : Int) : Int :=
  let e' := e + fxBits
  let a : Int := if 0 ≤ e' then (m : Int) * 2 ^ e'.toNat else (m : Int) / (2 ^ (-e').toNat : Nat)
  if n then -a else a

/-- e^x for a fixed-point x: significand and exponent of the result. -/
def expFx (x : Int) : Nat × Int :=
  let k := x / ln2Fx
  let r := x - k * ln2Fx
  let one : Int := (2 ^ fxBits : Nat)
  ((expSeries r 41 one one).toNat, k - fxBits)

/-- Powers of y² over odd numbers: the inverse hyperbolic tangent series. -/
def atanhSeries (y2 : Int) : Nat → Int → Int → Int
  | 0, _, acc => acc
  | n + 1, p, acc =>
    let k : Int := 2 * ((60 : Int) - (n : Int)) - 1
    atanhSeries y2 n (p * y2 / (2 ^ fxBits : Nat)) (acc + p / k)

/-- ln of a positive `m × 2^e` in fixed point. -/
def lnFx (m : Nat) (e : Int) : Int :=
  let t := topExp m e
  let one : Int := (2 ^ fxBits : Nat)
  let f : Int := toFx false m (e - t)
  let y := (f - one) * one / (f + one)
  let y2 := y * y / one
  t * ln2Fx + 2 * atanhSeries y2 60 y 0

/-- Integer square root by bits from the top. -/
def isqrtAux (n : Nat) : Nat → Nat → Nat
  | 0, acc => acc
  | k + 1, acc => let c := acc + 2 ^ k; isqrtAux n k (if c * c ≤ n then c else acc)

/-- Integer square root. -/
def isqrt (n : Nat) : Nat := isqrtAux n (Nat.log2 n / 2 + 1) 0

/-- 1 ÷ x, truncated well below an FP32 ulp. -/
def vrecip (n : Bool) (m : Nat) (e : Int) : Val :=
  let k := Nat.log2 m + 64
  .fin n (2 ^ k / m) (-(k : Int) - e)

/-- 1 ÷ √x for a positive x, truncated well below an FP32 ulp. -/
def vrsqrt (m : Nat) (e : Int) : Val :=
  let l := Nat.log2 m
  let k0 := 2 * l + 128
  let k := if (e + k0) % 2 = 0 then k0 else k0 + 1
  -- 1/sqrt(m 2^e) = sqrt(2^k / m) * 2^((-k-e)/2)
  .fin false (isqrt (2 ^ k / m)) ((-(k : Int) - e) / 2)

/-- Move an FP32 pattern by `d` units in the last place of its magnitude, keeping it finite and normal. -/
def ulpMove (b : BitVec 32) (d : Int) : BitVec 32 :=
  let mag : Int := (b.toNat % 2 ^ 31 : Nat)
  if mag < 2 ^ 23 ∨ mag ≥ 0x7F800000 then b
  else
    let m' := mag + d
    let m'' := if m' < 2 ^ 23 then (2 ^ 23 : Int) else if m' > 0x7F7FFFFF then 0x7F7FFFFF else m'
    BitVec.ofNat 32 ((b.toNat / 2 ^ 31) * 2 ^ 31 + m''.toNat)

/-- The reference value of a vector function at a finite operand; `none` where no real result exists. -/
def fnRef (op : Nat) (n : Bool) (m : Nat) (e : Int) : Option Val :=
  let one : Nat := 2 ^ fxBits
  match op with
  | 0x0C =>
    if topExp m e ≥ 8 then some (if n then .fin false 1 (-1000) else .fin false 1 1000)
    else let (s, x) := expFx (toFx n m e); some (.fin false s x)
  | 0x0D => if n then none else some (ofInt (lnFx m e) (-(fxBits : Int)) false)
  | 0x0E => some (vrecip n m e)
  | 0x0F => if n then none else some (vrsqrt m e)
  | 0x10 =>
    if topExp m e < -13 then some (.fin n m e)
    else if topExp m e ≥ 5 then some (.fin n 1 0)
    else
      let (s, x) := expFx (toFx true m (e + 1))
      let q : Nat := (s : Nat) * 2 ^ (x + fxBits).toNat / 2 ^ (-(x + fxBits)).toNat
      some (ofInt (((one - q) * one / (one + q) : Nat) * (if n then -1 else 1)) (-(fxBits : Int)) n)
  | 0x11 =>
    if topExp m e ≥ 8 then some (if n then .fin false 1 (-1000) else .fin false 1 0)
    else
      let (s, x) := expFx (toFx true m e)
      let q : Nat := (s : Nat) * 2 ^ (x + fxBits).toNat / 2 ^ (-(x + fxBits)).toNat
      if n then
        -- e^-|a| / (1 + e^-|a|)
        some (.fin false (q * one / (one + q)) (-(fxBits : Int)))
      else some (.fin false (one * one / (one + q)) (-(fxBits : Int)))
  | _ => none

/-- EXP, LOG, RECIP, RSQRT, TANH or SIGMOID of an FP32 operand (R93): NaN gives the canonical NaN,
infinities give the limits, other operands a value within 2 ulp of the exact one; where no real
result exists, a free value (log 13). -/
def vecFn (op : Nat) (a : BitVec 32) : R32 :=
  match dec32 (flush32 a).1 with
  | .nan => { bits := nan32 }
  | .inf n =>
    match op with
    | 0x0C => { bits := if n then 0#32 else inf32 false }
    | 0x0D => if n then { bits := Config.fnOpen op a } else { bits := inf32 false }
    | 0x0E => { bits := zero32 n }
    | 0x0F => if n then { bits := Config.fnOpen op a } else { bits := 0#32 }
    | 0x10 => { bits := if n then 0xBF800000#32 else 0x3F800000#32 }
    | _ => { bits := if n then 0#32 else 0x3F800000#32 }
  | .zero n =>
    match op with
    | 0x0C => { bits := ulpMove 0x3F800000#32 ((Config.fnDelta op a).val - 2) }
    | 0x10 => { bits := zero32 n }
    | 0x11 => { bits := ulpMove 0x3F000000#32 ((Config.fnDelta op a).val - 2) }
    | _ => { bits := Config.fnOpen op a }
  | .fin n m e =>
    match fnRef op n m e with
    | none => { bits := Config.fnOpen op a }
    | some v => let r := trunc32 v; { r with bits := if r.ovf then r.bits else ulpMove r.bits ((Config.fnDelta op a).val - 2) }

/-- 1 ÷ (1 − β^k), for β from 0 to below 1. -/
def invOneMinusPow (b : BitVec 32) (k : Nat) : Val :=
  match dec32 b with
  | .fin _ m e =>
    let n := 2 ^ ((-e).toNat * k)
    let d := n - m ^ k
    let q := n * 2 ^ 64 / d
    .fin false (2 * q + if q * d = n * 2 ^ 64 then 0 else 1) (-65)
  | _ => .fin false 1 0

/-- The FP64 reciprocal of a finite positive FP64 value, rounded to FP32 (R240). -/
def recip64 (v : BitVec 64) : BitVec 32 :=
  match dec64 v with
  | .fin _ m e =>
    let q := 2 ^ 160 / m
    rne32 (dec64 (rne64 (.fin false (2 * q + if q * m = 2 ^ 160 then 0 else 1) (-e - 161))))
  | _ => 0x3F800000#32

/-- β^k is so small that 1 − β^k is 1 in FP64, however the power is rounded. -/
def powGone (b : BitVec 32) (k : Nat) : Bool :=
  match dec32 b with
  | .fin _ m e => decide (m ^ k * 2 ^ 55 ≤ 2 ^ ((-e).toNat * k))
  | _ => true

/-- The bias correction of step `n` (R240): exactly 1 for β = 0 and where the power vanishes; the FP64 difference and quotient at
step 0, which takes no power; else within an ulp of the exact value (log 14). -/
def biasCorrection (b : BitVec 32) (n : Nat) : BitVec 32 :=
  if powGone b (n + 1) then 0x3F800000#32
  else if n = 0 then recip64 (rne64 (vadd (.fin false 1 0) (dec32 (b ^^^ 0x80000000#32))))
  else ulpMove (rne32 (invOneMinusPow b (n + 1))) ((Config.biasDelta b n).val - 1)

/-- sqrt(x) of R240: 0 for 0, else x × RSQRT(x). -/
def sqrt240 (x : BitVec 32) : BitVec 32 :=
  if x.toNat % 2 ^ 31 = 0 then 0#32 else (mul32 x (vecFn 0x0F x).bits).bits

/-- MAX (or MIN) of two FP32 values: the canonical NaN when either is NaN (R93). +0 counts above −0. -/
def maxMin32 (isMax : Bool) (a b : BitVec 32) : BitVec 32 :=
  let a := (flush32 a).1
  let b := (flush32 b).1
  match vcmp (dec32 a) (dec32 b) with
  | none => nan32
  | some .gt => if isMax then a else b
  | some .lt => if isMax then b else a
  | some .eq => if isMax then (if bitOf a.toNat 31 then b else a) else (if bitOf a.toNat 31 then a else b)

/-- CRC-32C of a run of bytes (reflected, polynomial 0x1EDC6F41). -/
def crcStep (c : Nat) : Nat → Nat
  | 0 => c
  | n + 1 => crcStep (if c % 2 = 1 then (c / 2) ^^^ 0x82F63B78 else c / 2) n

/-- CRC-32C (R267, R271, R317, R371). -/
def crc32c (bs : Bytes) : Nat :=
  (bs.foldl (fun c b => crcStep (c ^^^ b.toNat) 8) 0xFFFFFFFF) ^^^ 0xFFFFFFFF

end Sys2Proof.Machine
end

