-- ==== Sys2Proof/Machine/State.lean ====
section
/-!
DEFINITION. The state of the MN9600 and of what stands around it: every register, buffer, counter and
mode the spec names, as plain data, and the machine right after reset. Field defaults are the reset
values; where the spec gives none, the field's comment names the log entry.
-/

namespace Sys2Proof.Machine

/-- Why the machine stops with a fault. -/
inductive Fault where
  /-- Raised by VIN52_RISE: VIN52 above 62 V, "Damage possible" (17 T17.3); the spec gives no effect.
  Safe: nothing is claimed of a damaged package. -/
  | absoluteMaximum
deriving DecidableEq, Repr

/-- Why the machine has no meaning for a command. -/
inductive Refusal where
  /-- Raised by an arm of `exec` whose command has no meaning yet, with the mnemonic. Safe: no next state. -/
  | notModelled (mnemonic : String)
deriving DecidableEq, Repr

/-! ### Supply, package and pins (17, 18) -/

/-- Where the power sequence stands (R480 to R482, T16.1). -/
inductive Power where
  | off
  | waitInput
  | softStart
  | on
  | holdOff
  | lost
deriving DecidableEq, Repr

/-- The supply, the slow signals and the power domains. -/
structure Supply where
  /-- Level of PWR_EN (R470). -/
  pwrEn : Bool := false
  /-- Levels of HOSTA_PERST_N and HOSTB_PERST_N, bit p (T18.3). -/
  perst : BitVec 2 := 0#2
  /-- STRAP[3:0] and PAIR_SEL as sampled (R428). -/
  strap : BitVec 4 := 0#4
  pairSel : Bool := false
  /-- STRAP[3:0] and PAIR_SEL on the lands (R474). -/
  strapPins : BitVec 4 := 0#4
  pairPin : Bool := false
  /-- VIN52 in mV. Log 3. -/
  vin52 : Nat := 52000
  power : Power := .off
  /-- 100 ms have passed since PWR_EN fell (R481); a rise waits for that. -/
  lowOver : Bool := true
  riseWait : Bool := false
  /-- Domains switched on: 0 PD_ON, 1 PD_FAB, 2 + 4f + g PD_FfGg, 18 to 21 PD_CSs, 22 to 25 PD_HN, PD_HE,
  PD_HS, PD_HW, 26 PD_LW, 27 PD_LE, 28 PD_ST, 29 PD_HP (R44, T17.4). -/
  domains : BitVec 30 := 0#30
  /-- Setpoints of the rod groups and Common Store slices, and of PD_FAB, in mV (R452, R455). -/
  coreMv : Nat := 750
  fabMv : Nat := 750
  /-- Rod duty in eighths (R455). -/
  duty : Nat := 8
  /-- Power readings of the last 100 ms in mW, newest first (R455). -/
  window : List Nat := []
  /-- Readings since the last lowering step, at most 100 (R455). -/
  sinceLower : Nat := 100
  /-- A setpoint was lowered and the speed monitors have not reported since (R37). -/
  unheard : Bool := false
  /-- The thermal condition of R464. -/
  thermal : Bool := false
  /-- THERMTRIP_N driven low (R465); FAULT_N driven low (R405, R431). -/
  thermtripLow : Bool := false
  faultNLow : Bool := false
  /-- TIMEREF and ZL_REFCLK present (R46, R468). Log 3. -/
  timeref : Bool := true
  zlRefclk : Bool := true
deriving DecidableEq, Repr

/-! ### Time, speed and sensors (02, 15, 17) -/

/-- The local time counter, the speed word, the heartbeat and the thermal sensors. -/
structure Clock where
  /-- The local time counter, 64 bits, never wrapping (R45). -/
  ltc : Nat := 0
  /-- The internal oscillator drives the counter; LTC_DEGRADED (R46). -/
  internal : Bool := false
  degraded : Bool := false
  /-- Fields of the speed word (T2.3). Log 4. -/
  swVer : Nat := 1
  beatNom : Nat := 2000
  beatHot : Nat := 1700
  vslope : Nat := 30
  beatLive : Nat := 0
  liveRegion : Nat := 0
  /-- Last readings of the 128 sensors in 0.0625 °C (R462); default 0. Log 5. -/
  sensors : FMap Int := []
  /-- Sensors failed since the last chip reset, and sensors with a valid reading since then (R463, T14.3). -/
  failed : List Nat := []
  valid : List Nat := []
  /-- Pairs of regions whose THERMAL_GRADIENT is disarmed (R44). -/
  gradOff : List (Nat × Nat) := []
  /-- Stacks refreshed at the doubled rate, bit n for Hn (R170). -/
  hotStacks : BitVec 8 := 0#8
  /-- HEARTBEAT.COUNT and its shadow (R401, R406). -/
  beat : Nat := 0
  shadow : Nat := 0
  /-- Counter value at the last advance; HEARTBEAT raised since; watchdog armed (R407, R408). -/
  lastBeat : Nat := 0
  beatRaised : Bool := false
  armed : Bool := false
deriving DecidableEq, Repr

/-! ### Root of trust, images and sideband (16, 18) -/

/-- Instructions of the test port (R478). -/
inductive Jtag where
  | idcode
  | bypass
  | sample
  | extest
  | clamp
  | highz
deriving DecidableEq, Repr

/-- An SPDM responder's progress at one mailbox (R445). -/
structure Spdm where
  version : Bool := false
  caps : Bool := false
  algs : Bool := false
  /-- The messages that a signature covers: of the negotiation, of digests and certificates, of measurements (R445). Log 16. -/
  vca : Bytes := []
  certs : Bytes := []
  meas : Bytes := []
deriving DecidableEq, Repr

/-- The boot region, the root of trust's arrays and the ports that need no firmware. -/
structure Trust where
  /-- Firmware slots A (0) and B (1); configuration slots A and B (R435). Log 6. -/
  fw : FMap Bytes := []
  cfg : FMap Bytes := []
  /-- The configuration slot written last (R435, R439). -/
  cfgNewest : Nat := 0
  charRec : Bytes := []
  /-- The root of trust's policy (R434): minimum SVN by KIND, revoked key indices, preferred slot, boot attempts. -/
  minSvn : FMap Nat := []
  revoked : BitVec 4 := 0#4
  preferred : Fin 2 := 0
  attempts : Nat := 0
  /-- Firmware slot booted, and the bundle's policy effect not yet taken (R434). -/
  booted : Option (Fin 2) := none
  /-- The staging area (R438): bytes, length staged, LAST seen, activation with WHEN 0 pending. -/
  staging : Mem := []
  staged : Nat := 0
  stagedLast : Bool := false
  actPending : Bool := false
  /-- The activation with WHEN 1, by journal index, whose DONE is still to post before its chip reset starts (R439). -/
  resetAfter : Option Nat := none
  /-- The recovery buffer of 64 MiB (T16.7). -/
  recovery : Mem := []
  /-- Measurements 1 to 12 (T16.5). -/
  measures : FMap Bytes := []
  /-- LMS leaf index q, tokens, and the counter value of the last refill (R441, R444). -/
  leaf : Nat := 0
  tokens : Nat := 8
  lastRefill : Nat := 0
  /-- ECDSA signatures made so far: numbers the opaque signatures (model's own). Log 16. -/
  signatures : Nat := 0
  /-- Certificate chains of slots 0 and 1 (R442) and the serial number. -/
  certs : FMap Bytes := []
  serial : BitVec 64 := 0#64
  /-- Test-port setting (T16.4), loaded instruction, and a test entered: it holds start-up at step 2 or has started
  the safe state, and ends only with a power cycle (R478). -/
  testAll : Bool := false
  jtag : Jtag := .idcode
  testHold : Bool := false
  /-- Retirement record, and a power cycle since it was written (R420, R421). -/
  retired : Bool := false
  cycled : Bool := false
deriving DecidableEq, Repr

/-- The sideband and the mailboxes. -/
structure Side where
  /-- Dynamic address, if a controller assigned one (R475). -/
  dynAddr : Option Nat := none
  /-- Messages the device has sent: codes 0x80 to 0x82 (T16.7). -/
  sent : List Nat := []
  /-- Messages sent up to the one whose SMBus write last lost arbitration, and its retries (R476). -/
  retry : Option (Nat × Nat) := none
  /-- SPDM responders of port A, port B and the sideband (R445, R446). -/
  spdm : FMap Spdm := []
  /-- The last answer given on the sideband, a mailbox, BAR0 or the test port. -/
  answer : Bytes := []
deriving DecidableEq, Repr

/-! ### Device status and settings (12, 16) -/

/-- DEV_STATUS's own fields, the start-up step and the settings of T12.20. -/
structure Dev where
  stage : Nat := 0
  ready : Bool := false
  safe : Bool := false
  retired : Bool := false
  bootId : BitVec 16 := 0#16
  /-- Previous boot id, kept in the boot region (R283). Log 6. -/
  prevBoot : BitVec 16 := 0#16
  /-- Step of T16.1 that runs next (1 to 9; 10: start-up complete; 0: package off, or start-up ended in stage 0xE or
  0xF), and whether start-up is from power-on (true) or a chip reset. -/
  bootStep : Nat := 0
  cold : Bool := true
  /-- There is control state that a chip reset keeps, or that was rebuilt; it replaces the profile's (R437). -/
  kept : Bool := false
  powerLimit : Nat := 2000
  zlId : Option Nat := none
  portEnable : BitVec 32 := 0xFFFFFFFF#32
  mirrorPorts : BitVec 32 := 0x00010001#32
  journalFlush : Bool := false
  /-- Common Store segments in scratchpad mode (R156). -/
  scratch : BitVec 320 := 0#320
  /-- WV_LOG2 and WV_THRESH by partition; defaults 8 and 6 (T12.20). -/
  wvLog2 : FMap Nat := []
  wvThresh : FMap Nat := []
deriving DecidableEq, Repr

/-! ### Fault collector and resets (14, 15) -/

/-- A fault record (T14.9). -/
structure FaultRec where
  time : Nat
  source : Nat
  kind : Nat
  sev : Nat
  addr : Nat
deriving DecidableEq, Repr

/-- The rungs of R418. -/
inductive Rung where
  | context
  | engine
  | partition
  | chip
  | powerCycle
deriving DecidableEq, Repr

/-- One reset of the history of R418. -/
structure ResetRec where
  unit : Nat
  rung : Rung
  time : Int
deriving DecidableEq, Repr

/-- The fault collector, its firmware service and the escalation. -/
structure Collector where
  /-- FC_STICKY and FC_PRIOR, bit n for source n (R402, R403). -/
  sticky : BitVec 4096 := 0#4096
  prior : BitVec 4096 := 0#4096
  /-- Severities set so far; other sources hold the default of T14.3. -/
  sev : FMap Nat := []
  /-- The fault record ring, oldest first, and records lost (R399). -/
  ring : List FaultRec := []
  lost : Nat := 0
  /-- The fault service runs (R399). -/
  service : Bool := false
  /-- FAULT_SUMMARY.THERMTRIP (T12.4). -/
  thermtrip : Bool := false
  /-- Messages waiting to enter the fault network, one for each source, and those on their way through it (R390). -/
  net : List (BitVec 67) := []
  transit : List (BitVec 67) := []
  /-- Escalation: window mode, N, WINDOW in seconds, history, resets counted in window mode (R417 to R419). -/
  window : Bool := false
  escN : Nat := 3
  escWindow : Nat := 600
  history : List ResetRec := []
  /-- Resets decided and not yet carried out (R412, R415): rods, partitions, chip. -/
  rstRods : List Nat := []
  rstParts : List Nat := []
  rstChip : Bool := false
  /-- The power-cycle request is posted (R414), and the counter value at which it was sent last. -/
  cycleReq : Bool := false
  cycleAt : Nat := 0
deriving DecidableEq, Repr

/-! ### Host ports, queues, journal (12, 13) -/

/-- One queue pair (T12.5, R337 to R346). -/
structure Queue where
  /-- Bound to the port that is not its home (R337, R359). -/
  away : Bool := false
  enabled : Bool := false
  vector : Nat := 0
  sqLog2 : Nat := 0
  cqLog2 : Nat := 0
  sqBase : Nat := 0
  cqBase : Nat := 0
  sqHead : Nat := 0
  sqTail : Nat := 0
  cqHead : Nat := 0
  cqTail : Nat := 0
  phase : Bool := true
  /-- The next expected sequence number (R346). -/
  e : Nat := 1
  /-- Completion entries held (R339), oldest first, with PHASE 0, and whether each one interrupts (R341). -/
  held : List (Bytes × Bool) := []
deriving DecidableEq, Repr

/-- One MSI-X table entry (T12.2). Log 8. -/
structure Msix where
  addr : BitVec 64 := 0#64
  data : BitVec 32 := 0#32
  masked : Bool := true
deriving DecidableEq, Repr

/-- What software sets in a port's configuration space (T12.1): BAR0, the payload and read-request sizes in bytes, D3hot, ECRC, the
AER status. No row of the table writes it. Log 87. -/
structure PciCfg where
  bar0 : BitVec 64 := 0#64
  payload : Nat := 128
  readRequest : Nat := 512
  d3hot : Bool := false
  ecrc : Bool := false
  aer : BitVec 32 := 0#32
deriving DecidableEq, Repr

/-- The host ports. -/
structure HostIf where
  /-- Configuration spaces by port (R332). -/
  cfg : FMap PciCfg := []
  /-- DEV_STATUS for port A and for port B, and FAULT_SUMMARY, as Zenith wrote them last before PD_ON stalled (R401). -/
  shadow : Nat × Nat × Nat := (0, 0, 0)
  /-- Link up, bit p; BAR0 readable since the first training (R333), bit p. -/
  up : BitVec 2 := 0#2
  trained : BitVec 2 := 0#2
  /-- Admin registers by port (T12.4). -/
  asq : FMap Nat := []
  acq : FMap Nat := []
  acfg : FMap (BitVec 32) := []
  queues : FMap Queue := []
  /-- MSI-X table entries by 64 × port + vector, and PBA bits (T12.2). -/
  msix : FMap Msix := []
  pba : BitVec 128 := 0#128
  /-- Counters of set 0x0B by 8 × port + index (T12.18). -/
  counters : FMap Nat := []
  /-- Intake waits (R373), a completion ring is full (R340) or PD_ON stalls (R40) with entries not fetched. -/
  stalled : Bool := false
  /-- Intake waits under R373, and the length of the parameters that found no room in the ring. -/
  waiting : Bool := false
  need : Nat := 0
  /-- Port and bus address of DMA reads that got no completion since the port was last reset (R345, T14.3). Log 10. -/
  deaf : List (Nat × Nat) := []
  /-- Host memory seen from port A and from port B (R333). Log 10. -/
  memA : Mem := []
  memB : Mem := []
  /-- Rods withdrawn from MMA service, rods withdrawn, ports withdrawn (R426). -/
  mmaOut : BitVec 64 := 0#64
  rodOut : BitVec 64 := 0#64
  portOut : BitVec 32 := 0#32
deriving DecidableEq, Repr

/-- A command of the journal (T13.4) and how far it has got. -/
structure Cmd where
  jidx : Nat := 0
  seq : Nat := 0
  queue : Nat := 0
  opcode : Nat := 0
  ctx : Nat := 0
  guarded : Bool := false
  tries : Nat := 0
  port : Nat := 0
  /-- DEFER, ACK_IRQ, FENCE, EXT in bits 3 to 0 as in the entry's bits [19:16]. -/
  flags : Nat := 0
  tAccept : Nat := 0
  params : Bytes := []
  /-- SQ_HEAD after the fetch (T12.7). -/
  sqHead : Nat := 0
  /-- Entry bytes past its parameters were not zero, or EXT came with a PWC (R343): no part of the record. Log 33. -/
  stray : Bool := false
  /-- The configuration in force at its intake (R363): mirrored in a bound pair, or flushed. -/
  mirror : Bool := false
  flush : Bool := false
  /-- The command was accepted: ACCEPT posted (R347). -/
  accepted : Bool := false
  /-- It has started. -/
  started : Bool := false
  /-- A deferred test or a bind waits since this counter value (R377, R424). -/
  waitFrom : Option Nat := none
  /-- The DONE entry, while the record of the outcome is not held yet (R375). -/
  done : Option Bytes := none
  /-- A launch that has posted its DONE and runs again without another (R370); its `jidx` is 2^64 plus its index. -/
  quiet : Bool := false
deriving DecidableEq, Repr

/-- An outcome ledger slot (T13.5). -/
structure Slot where
  applied : Bool := false
  jidx : Nat := 0
  seq : Nat := 0
  done : Bytes := []
deriving DecidableEq, Repr

/-- Pair states (R377, R380). -/
inductive Pair where
  | unbound
  | binding
  | bound
  | lost
deriving DecidableEq, Repr

/-- A journal-order record that waits for the partner or the flash (R375, R376): the command it belongs
to and whether it carries the outcome. -/
structure HoldRec where
  jidx : Nat
  applied : Bool
deriving DecidableEq, Repr

/-- The journal, the ledger, the pair and the journal flush. -/
structure Journal where
  /-- Command records in JIDX order (R371). -/
  ring : List Cmd := []
  next : Nat := 1
  /-- Ledger slots by 4096 × queue + SEQ mod 4096 (R372). -/
  ledger : FMap Slot := []
  pair : Pair := .unbound
  partner : Nat := 0
  /-- Records not yet held by the partner or by flash, in order (R375). -/
  waiting : List HoldRec := []
  /-- Records made while the partner is lost (R380), and the last mirrored journal index (PAIR_STATUS). -/
  unmirrored : Nat := 0
  lastMirrored : Nat := 0
  /-- The partner's copy held here: journal and ledger records, state records (R374). -/
  heldJournal : List Bytes := []
  heldState : List Bytes := []
  /-- Boot id of the partner when the pair was bound; the PAIR_BIND that waits; the device was partner lost when it
  was issued; this device's full copy is on its way; the copy of its own past that it takes back: journal and
  ledger records, state records, and whether that copy is complete (R377, R378). Log 33. -/
  partnerBoot : Nat := 0
  bindCmd : Option Nat := none
  wasLost : Bool := false
  copySent : Bool := false
  ownJournal : List Bytes := []
  ownState : List Bytes := []
  taking : Bool := false
  taken : Bool := false
  /-- JOURNAL_FLUSH is in force for the commands that intake takes now (R363). -/
  flushing : Bool := false
  /-- Records in the open journal stripe since its first record, and stripes committed (R376). -/
  stripe : List HoldRec := []
  /-- Counter value of the last full copy of the control state in the flush region (R376). -/
  lastCopy : Nat := 0
  /-- Counter value at which the first record entered the open journal stripe (R376). -/
  stripeAt : Nat := 0
  /-- Commands that wait for their replay, and the control commands that a replay runs before all others, by
  journal index (R383). -/
  due : List Nat := []
  first : List Nat := []
deriving DecidableEq, Repr

/-! ### Partitions (01) -/

/-- Ownership of units, dedication of ports, interleave groups. -/
structure Parts where
  /-- Partition of each rod, channel and segment; default P0 (R15). -/
  rod : FMap Nat := []
  chan : FMap Nat := []
  seg : FMap Nat := []
  /-- Partition a Zilet port is dedicated to, if any (R20). -/
  ded : FMap Nat := []
  /-- Fast-recovery flags, bit k (R21). -/
  fast : BitVec 8 := 0#8
  /-- Interleave groups by 32 × partition + number: channels ascending (R142). -/
  groups : FMap (List Nat) := []
deriving DecidableEq, Repr

/-! ### Zilet (10) -/

/-- Port states in the order of T10.1. -/
inductive PortState where
  | disabled
  | down
  | training
  | up
  | upX4
  | recovery
  | isolated
  | safe
deriving DecidableEq, Repr

/-- A packet (T10.3): its header fields and its data. -/
structure Packet where
  dst : Nat := 0
  src : Nat := 0
  hops : Nat := 0
  vc : Nat := 0
  stream : Nat := 0
  mtype : Nat := 0
  flits : Nat := 1
  bytes : Nat := 0
  cls : Nat := 0
  srcBoot : Nat := 0
  dstBoot : Nat := 0
  mseq : Nat := 0
  pkt : Nat := 0
  last : Bool := false
  target : Nat := 0
  ackinfo : Nat := 0
  pcrc : Nat := 0
  data : Bytes := []
  /-- An ABORT flit was among its flits (R275). -/
  aborted : Bool := false
deriving DecidableEq, Repr

/-- One Zilet port. -/
structure Port where
  st : PortState := .disabled
  /-- The half that carries flits in UP_X4: lanes 4 to 7 (R265). -/
  upper : Bool := false
  /-- The state a recovery returns to is UP_X4. -/
  narrow : Bool := false
  /-- Lanes that passed and halves ready, awaiting the HELLO exchange (R265). -/
  pending : Option PortState := none
  failLanes : BitVec 8 := 0#8
  /-- Next FSEQ to send, next FSEQ expected (R268). -/
  txSeq : Nat := 0
  rxSeq : Nat := 0
  /-- DATA and ABORT flits not yet covered by an ACK, oldest first: FSEQ and bytes (R268); the last `unsent` of them have
  not been on the lanes yet, because the port recovers or the core side stalls (R269, R40). -/
  replay : List (Nat × Bytes) := []
  unsent : Nat := 0
  /-- The flit last put on the lanes, and flits since the last IDLE flit (R267, R270). -/
  sent : Bytes := []
  sinceIdle : Nat := 0
  /-- A NAK is outstanding: following flits are discarded (R268). -/
  nakSent : Bool := false
  /-- FSEQ named by the last NAK received, NAKs for it, NAKs in the present second (R269). -/
  nakSeq : Nat := 0
  nakRun : Nat := 0
  nakSecond : Nat := 0
  /-- The second of the local time counter that `nakSecond` counts (R269). -/
  nakAt : Nat := 0
  /-- Counter values: entry into TRAINING or RECOVERY, the last training attempt (R265), the last ACK or the first flit
  after an empty replay buffer (R269). -/
  since : Nat := 0
  tried : Option Nat := none
  ackAt : Nat := 0
  /-- The answer the next transmitted header carries: ACKTYPE and ACKSEQ (T10.2). -/
  reply : Nat × Nat := (0, 0)
  /-- Credits in use by VC (R272), receive flits freed and not yet returned by VC. -/
  used : FMap Nat := []
  freed : FMap Nat := []
  /-- Receive flits by VC that the stalled core has not drained: their credits are withheld (R32). -/
  stuck : FMap Nat := []
  /-- Payload flits of the packet partly received, by VC (R271). -/
  part : FMap (List Bytes) := []
  /-- Packets that are being forwarded while they arrive, by the VC they arrive on: output port (32: none, the
  rest is swallowed), output VC, flits still to come (R273, R275). -/
  thru : FMap (Nat × Nat × Nat) := []
  /-- The neighbour's last HELLO (T10.7). -/
  hello : Option (BitVec 128) := none
  /-- A HELLO is due to be sent once the port has recovered (R291). -/
  helloDue : Bool := false
  /-- Ticks at which the safe-state ordered set began; it is sent for 10 µs (R270). -/
  orderedSet : Option Nat := none
deriving DecidableEq, Repr

/-- A message sent, or waiting to be sent, to a peer. -/
structure OutMsg where
  stream : Nat := 0
  mseq : Nat := 0
  mtype : Nat := 0
  ctx : Nat := 0
  /-- Journal index of the command, or of the record, that it serves; 0 for none. -/
  cmd : Nat := 0
  /-- Collective group and run; for a journal record, run 1 says that it carries the outcome. -/
  group : Nat := 0
  run : Nat := 0
  /-- The 64-byte message header, where the spec lays it out (T11.2, T11.4); otherwise empty. Log 27. -/
  head : Bytes := []
  body : Bytes := []
  /-- Code-table generations its records name (R328). -/
  gens : List Nat := []
  resends : Nat := 0
  /-- Counter value at which it was last sent (R286). -/
  sentAt : Nat := 0
  /-- Its completion is discarded (R287). -/
  dead : Bool := false
  /-- Of a message with coded records: index, raw bytes and extensions of each record, to send them stored where the session
  that holds their tables has ended (R330). -/
  plain : List (Nat × Bytes × Bytes) := []
deriving DecidableEq, Repr

/-- One entry of the peer table (R277). -/
structure Peer where
  /-- Route entry (T10.5A). -/
  route : BitVec 64 := 0#64
  /-- A session is open; the peer's boot id (R283). -/
  isOpen : Bool := false
  boot : Nat := 0
  /-- Next MSEQ to send and to deliver, by stream (R284). -/
  tx : FMap Nat := []
  rx : FMap Nat := []
  /-- Messages in flight, and messages waiting for a session or for room (R283, R284). -/
  out : List OutMsg := []
  backlog : List OutMsg := []
  /-- Counter value of the last progress, by stream (R286). -/
  progress : FMap Nat := []
  /-- Packets held of messages not yet delivered: stream, MSEQ, packet index (R285). -/
  heldPkts : List (Nat × Nat × Nat) := []
deriving DecidableEq, Repr

/-- A packet that waits for an output port (R273, R274, R280): the payloads of its flits so far, and whether each
is an ABORT; for a forwarded one the port and the VC it arrives on; for this device's own the partition of the
sending context; the counter value since when it waits (R274, R280). -/
structure Waiting where
  pkt : Packet
  flits : List Bytes := []
  from_ : Option (Nat × Nat) := none
  part : Nat := 0
  since : Nat := 0
deriving DecidableEq, Repr

/-- The Zilet link. -/
structure Zilet where
  ports : FMap Port := []
  peers : FMap Peer := []
  waiting : List Waiting := []
  /-- Rotation for ties between ports (R280). -/
  turn : Nat := 0
  /-- Counters of T10.11 (48 bits, saturating): see `zcPort`, `zcPeer`, `zcDev` for the keys. -/
  counters : FMap Nat := []
  /-- ZL_MIRROR_LOST raised and the mirror set still down (R298). -/
  mirrorLost : Bool := false
  /-- Messages held until they can be delivered, oldest first: header, stream, and the row that brought the message (R285, R32,
  R153). -/
  later : List (MsgHdr × Nat × Instr) := []
deriving DecidableEq, Repr

/-! ### Rods (03, 04, 05) -/

/-- A weathervane's reference sums for one bank of a rod (R134). -/
structure WvRef where
  rows : FMap (BitVec 32) := []
  col0 : FMap (BitVec 32) := []
  col1 : FMap (BitVec 32) := []
  /-- The sums have followed every beat since the last ZERO, ROWBCAST, load or clear (R135). -/
  followed : Bool := true
deriving DecidableEq, Repr

/-- One accumulator bank (R50 to R62). Element (i, j) stands at 16 × i + j; the default is +0.0. -/
structure Bank where
  acc : FMap (BitVec 32) := []
  ovf : Bool := false
  /-- Recorded scales of the two A row halves and of B (R58). -/
  sA0 : Option Int := none
  sA1 : Option Int := none
  sB : Option Int := none
  /-- Recorded service mode (R61): `some true` is FP32. -/
  mode : Option Bool := none
  /-- Recorded extent (R62). -/
  rows : Nat := 64
  cols : Nat := 16
  /-- Service named by the bank's last SWAP (R62): FP32. -/
  svc : Bool := false
  /-- The bank was last preloaded by ROWBCAST in this service and has had no run since (R88). -/
  bcast : Option Bool := none
  ref : WvRef := {}
deriving DecidableEq, Repr

/-- Numeric events of one kind raised by one descriptor (R133). -/
structure NumEv where
  kind : Nat
  count : Nat
  first : Nat
  value : BitVec 32
  marked : Bool := false
deriving DecidableEq, Repr

/-- A descriptor issued to a unit and not yet completed (R74 to R77). -/
structure Flight where
  /-- Issue number within the program. -/
  n : Nat := 0
  va : Nat
  word : BitVec 256
  /-- Its effect has taken place. -/
  performed : Bool := false
  /-- Events to be logged when it completes (R133). -/
  evs : List NumEv := []
  /-- Landings not yet acknowledged (R234). -/
  wait : Nat := 0
  /-- LAYER_ID and pass of the bracket open at issue (T5.10). -/
  layer : Nat := 0xFFFF
  second : Bool := false
  /-- The bracket open at issue, by its number (R103). -/
  brk : Option Nat := none
  /-- STEP at issue (R137). -/
  step : Nat := 0xFFFFFFFF
  /-- A CHECK marked this DRAIN (R106). -/
  check : Bool := false
  /-- It has started, and waits for a page (R112). -/
  started : Bool := false
deriving DecidableEq, Repr

/-- An open layer bracket (R103). -/
structure Bracket where
  layer : Nat
  /-- Issue number of its LAYER_BEGIN. -/
  id : Nat := 0
  replay : Bool
  marked : Bool := false
  second : Bool := false
  /-- Address of the descriptor after LAYER_BEGIN. -/
  back : Nat := 0
  /-- SIGNALs held: rod, counter, increment (R104). -/
  held : List (Nat × Nat × Nat) := []
deriving DecidableEq, Repr

/-- A program launched on a rod: context, address, launch number, journal index of its command, element of
the chain. -/
structure Launch where
  ctx : Nat
  va : Nat
  number : Nat
  cmd : Nat
  elem : Nat := 0
deriving DecidableEq, Repr

/-- The program a rod runs (R71 to R77, R103 to R112). -/
structure Run where
  l : Launch
  /-- Address of the next descriptor to fetch. -/
  next : Nat
  /-- The descriptor buffer: address and word, in program order. -/
  buf : List (Nat × BitVec 256) := []
  /-- Descriptors in the units MOVE, INDEX, ARRAY, VECTOR, in issue order. -/
  move : List Flight := []
  index : List Flight := []
  array : List Flight := []
  vector : List Flight := []
  /-- The control descriptor that the sequencer is carrying out. -/
  ctl : Option Flight := none
  /-- Descriptors issued. -/
  issued : Nat := 0
  /-- Draws taken (R124). -/
  draws : Nat := 0
  events : Nat := 0
  replays : Nat := 0
  /-- A HIGH record was logged (R131). -/
  high : Bool := false
  bracket : Option Bracket := none
  /-- The widened-range table (R129): first byte and one past the last. -/
  wide : List (Nat × Nat) := []
  check : Bool := false
  /-- Named phase (R111). -/
  phase : Nat := 0
  /-- A WAIT or BARRIER waits since this counter value; its time-out was raised (R110); the rod has arrived. -/
  waiting : Option Nat := none
  timedOut : Bool := false
  arrived : Bool := false
  /-- Halt: REASON and the halting descriptor (R112). -/
  halt : Option (Nat × Nat × BitVec 256) := none
deriving DecidableEq, Repr

/-- One rod. -/
structure Rod where
  bank0 : Bank := {}
  bank1 : Bank := {}
  /-- Bank 1 is active (R50). -/
  act1 : Bool := false
  /-- Launched programs, at most 8 with the one that runs (R73). -/
  queue : List Launch := []
  run : Option Run := none
  /-- Context whose program last ran here; owner of the counters (R69, R107). -/
  last : Option Nat := none
  ctrs : FMap Nat := []
  /-- Counters of T5.5: 0 IN_FLUSH, 1 OUT_FLUSH, 2 RANGE, 3 NAN_ZERO, 4 SCALE_UNDER, 5 SCALE_INVALID, 6 INDEX_RANGE. -/
  num : FMap Nat := []
  /-- Drain count (R135). -/
  drains : Nat := 0
  /-- Corrected errors of the rod store (R166). -/
  corr : Nat := 0
  /-- Ticks charged: phases 0 to 4, 5 tier stall, 6 barrier wait (R111). -/
  ticks : FMap Nat := []
deriving DecidableEq, Repr

/-- An open or following use of a barrier (R109). -/
structure Use where
  rods : BitVec 64
  arrived : List Nat
deriving DecidableEq, Repr

/-- One stratum controller (R73, R107, R109). -/
structure Stratum where
  /-- Further launches, with their rods. -/
  more : List (Nat × Launch) := []
  /-- Pending signals: context, rod, counter, increment, and the launch that sent it; 64 entries. -/
  signals : List (Nat × Nat × Nat × Nat × Nat) := []
  /-- Uses by 16 × context + BAR_ID, oldest first. -/
  uses : FMap (List Use) := []
  /-- Hints waiting at the tier engine: context, address, tiles, action; 64 entries (R201); hints dropped. -/
  hints : List (Nat × Nat × Nat × Nat) := []
  dropped : Nat := 0
  /-- Numeric event log (R132): records oldest first, LOG_LOST. -/
  log : List (BitVec 256) := []
  lost : Nat := 0
  /-- HBM channel whose firmware area holds the log (R132). -/
  logChan : Nat := 0
deriving DecidableEq, Repr

/-- A launch in progress (R351): the rods of the present element still running, and the ends so far. -/
structure LaunchRec where
  ctx : Nat
  elem : Nat := 0
  left : List Nat := []
  /-- Rod, end record, HIGH logged. -/
  ends : List (Nat × BitVec 128 × Bool) := []
  /-- End record of the first program of an earlier element that logged a HIGH record (R131, R351). -/
  high : Option (BitVec 128) := none
  /-- One of its programs has sent a landing (R370). -/
  landed : Bool := false
deriving DecidableEq, Repr

/-- A sampled DRAIN waiting for comparison (R135 to R137): sums D of the drained elements and references R. -/
structure Sample where
  rod : Nat
  part : Nat
  ctx : Nat
  tag : Nat
  step : Nat
  layer : Nat
  second : Bool
  d : List (BitVec 32)
  r : List (BitVec 32)
deriving DecidableEq, Repr

/-- The weathervane of a frame. -/
structure Weathervane where
  queue : List Sample := []
  /-- By 32 × partition + bin; 23 is WV_SAMPLED and 24 WV_SKIPPED. -/
  hist : FMap Nat := []
deriving DecidableEq, Repr
/-! ### Objects and the deep tier (07) -/

/-- Where a page's authoritative copy lies (R190): an interleave group and channel offset in 32 KiB units,
a pair of scratch segments, a half of a rod-store window (R164; no command places a page there, log 76), or the user
region. -/
inductive Loc where
  | hbm (group choff : Nat)
  | scratch (a b : Nat)
  | rod (n half : Nat)
  | deep
deriving DecidableEq, Repr

/-- One page of an object. -/
structure Page where
  loc : Loc := .deep
  /-- The user region holds a committed copy: the page itself, or its clean copy (R190). -/
  flash : Bool := false
  /-- Charged to the pool, in its near tier and in the user region (R193). -/
  pool : Bool := false
  flashPool : Bool := false
  /-- Last-use stamp, 16 bits of 1 ms (R192). -/
  stamp : Nat := 0
  /-- Tiles left poisoned in the map (R202, R203). -/
  bad : BitVec 32 := 0#32
  /-- Poisoned tiles whose sources have not been asked yet; the page was lost in a reset, holds no flash and is
  charged to no quota (R365). -/
  unasked : BitVec 32 := 0#32
  gone : Bool := false
  /-- A move to the user region is under way: the tiles committed so far (R177). -/
  leaving : Option (BitVec 32) := none
  /-- The context on whose behalf it leaves (R205). -/
  leaver : Nat := 0
  /-- A demand fetch brought it, and no schedule entry has named it since (R200). -/
  missed : Bool := false
deriving DecidableEq, Repr

/-- Source of a good copy (T12.15): kind 0 none, 1 peer, 2 host. -/
structure Source where
  kind : Nat := 0
  port : Nat := 0
  device : Nat := 0
  object : Nat := 0
  addr : Nat := 0
deriving DecidableEq, Repr

/-- An object (T7.6) and its pages. -/
structure Object where
  owner : Nat := 0
  home : Nat := 0
  pin : Bool := false
  shared : Bool := false
  writable : Bool := false
  cache : Nat := 0
  src1 : Source := {}
  src2 : Source := {}
  count : Nat := 0
  /-- Virtual page number of page 0 in the owner's space: gives ROT (R145). -/
  vpn : Nat := 0
  pages : FMap Page := []
  /-- Contexts that map it, with the address of page 0. -/
  maps : List (Nat × Nat) := []
deriving DecidableEq, Repr

/-- A page on its way to a tier (R196): destination 0 HBM, 1 Common Store scratch; the frame reserved for it and whether
that is charged to the pool; the context it is charged to; who asks for it, as context and cause (0 demand, 1 schedule,
2 hint or command); since when it waits; rods that wait for it. -/
structure Move where
  object : Nat
  page : Nat
  dest : Nat
  frame : Option Loc := none
  pool : Bool := false
  ctx : Nat := 0
  asks : List (Nat × Nat) := []
  since : Nat := 0
  starved : Bool := false
  rods : List Nat := []
  /-- Codewords of the page read so far, by 16 × tile + codeword (R176). -/
  got : BitVec 512 := 0#512
  /-- The tile that a demand touched, which is read first (R196). -/
  first : Option Nat := none
deriving DecidableEq, Repr

/-- An OBJ_REGISTER or OBJ_PLACE in progress (R189, R196): its command, the object, the destination tier, the
group it names, the next page and one past the last, and the pages moved. -/
structure PlaceJob where
  cmd : Nat
  ctx : Nat
  object : Nat
  dest : Nat
  group : Option Nat := none
  next : Nat
  stop : Nat
  moved : Nat := 0
  fresh : Bool := false
deriving DecidableEq, Repr

/-- A tile that is fetched again (R202): the source asked (1 or 2), since when, and the MSEQ-independent mark
that a peer was asked. -/
structure Refetch where
  object : Nat
  page : Nat
  tile : Nat
  source : Nat := 1
  since : Nat := 0
  /-- MSEQ of the TILE_READ once it is acknowledged. -/
  asked : Option Nat := none
deriving DecidableEq, Repr

/-- Why a tile is written (T7.9, R180 to R187): a request, garbage collection, the refreshes, wear levelling, a block
that retires, a die that failed. -/
inductive TileCause where
  | request
  | gc
  | retention
  | disturb
  | scan
  | wear
  | retire
  | die
  /-- A map checkpoint (R178). -/
  | map
deriving DecidableEq, Repr

/-- A tile in an open stripe (R177): its key, why and for which context it is written, whether a demand waits for it (R199),
its bytes and metadata where neither a near frame nor its old location holds them, the COPY that waits for it, and the
block that retires with it (R202). -/
structure TileWrite where
  key : Nat
  cause : TileCause := .request
  ctx : Nat := 0
  urgent : Bool := false
  data : Option (Bytes × List (BitVec 4)) := none
  cmd : Option Nat := none
  old : Option Nat := none
deriving DecidableEq, Repr

/-- Where a committed tile lies (R177, R178): its block and slot there, its write sequence number (R175), its stripe. -/
structure TileLoc where
  block : Nat
  slot : Nat := 0
  seq : Nat := 0
  stripe : Nat := 0
deriving DecidableEq, Repr, Inhabited

/-- A programmed stripe (R173): its dies, the keys of its tiles that are still committed here, and its parity tile with the
block and slot that hold it. -/
structure Stripe where
  dies : List Nat := []
  keys : List Nat := []
  parity : Bytes := []
  parityAt : Option (Nat × Nat) := none
deriving DecidableEq, Repr

/-- A record of the map log (R178). -/
inductive MapRec where
  | commit (key : Nat) (loc : TileLoc)
  | free (key : Nat)
  | erase (block : Nat)
  | retire (block : Nat)
deriving DecidableEq, Repr

/-- A map checkpoint and the log that follows it up to the next (R178). -/
structure Checkpoint where
  map : FMap TileLoc := []
  log : List MapRec := []
deriving DecidableEq, Repr

/-- A flash block that has been programmed, or has joined a region (R172, R174, R180 to R185). -/
structure Block where
  die : Nat := 0
  slc : Bool := false
  erases : Nat := 0
  reads : Nat := 0
  /-- Retention age in sixtieths of a weighted hour (R182). -/
  age : Nat := 0
  /-- Slots and keys of the committed tiles it holds. -/
  tiles : FMap Nat := []
  /-- Slots programmed since its last erase. -/
  used : Nat := 0
  /-- Its tiles are being moved; it is erased when the last has gone (R180 to R184). -/
  moving : Bool := false
  retired : Bool := false
deriving DecidableEq, Repr

/-- A prefetch schedule (R197, R198). -/
structure Schedule where
  d : Nat := 0
  entries : List (BitVec 128) := []
  /-- The cursor k; −1 after STEP_BEGIN. -/
  cursor : Int := -1
  /-- Entries issued and not yet passed, entries issued since the cursor last moved back. -/
  live : List Nat := []
  issued : List Nat := []
deriving DecidableEq, Repr

/-- One training job's snapshot in a slot, or held for the partner (R253, R255). -/
structure Snap where
  shard : ShardData
  committed : Bool := true
  pages : Nat := 0
  /-- Index of its first tile among those of partner copies. -/
  first : Nat := 0
deriving DecidableEq, Repr

/-- The store die. -/
structure Deep where
  mounted : Bool := false
  moves : List Move := []
  jobs : List PlaceJob := []
  refetch : List Refetch := []
  /-- Open stripes by group, and stripes programmed by group (R173). -/
  stripes : FMap (List TileWrite) := []
  stripeNo : FMap Nat := []
  /-- Counter value of the last tile written into each open stripe (R177). -/
  lastTile : FMap Nat := []
  blocks : FMap Block := []
  /-- Block each die programs at present, by 2 × die + (1 for SLC). -/
  current : FMap Nat := []
  /-- The map of the store die's own memory (R178), and stripes by 4 × number + group. -/
  map : FMap TileLoc := []
  laid : FMap Stripe := []
  /-- Tiles written since manufacture, modulo 2^48 (R175). -/
  writeSeq : Nat := 0
  /-- The two most recent complete checkpoints, newest first (R178); a manufactured device holds an empty one. Log 24. -/
  ckpts : List Checkpoint := [{}]
  /-- Next tile of the journal flush region, and of partner copies. -/
  journalAt : Nat := 0
  copyAt : Nat := 0
  /-- Counter values of the last read scan and the last minute of ageing (R182, R184). -/
  scanAt : Nat := 0
  agedAt : Nat := 0
  /-- Bytes and metadata of committed tiles (log 11); the key of object o, page p is (o × 2^25 + p) × 2^21. -/
  flash : Mem := []
  fmeta : FMap (BitVec 4) := []
  failedDies : BitVec 32 := 0#32
  /-- Keys of the tiles that the map marks poisoned, as the last loss of power left them (R203, R206). -/
  poisoned : List Nat := []
  /-- Retirements of the last hour: die and counter value (R186). -/
  retirements : List (Nat × Nat) := []
  /-- Spare pool in TLC-equivalent tiles of 64 KiB: 342 GiB (T7.2). -/
  spare : Nat := 5603328
  spareLow : Bool := false
  /-- Erases by mode, 1 for SLC, and wear reported by mode (R188). -/
  erases : FMap Nat := []
  worn : BitVec 2 := 0#2
  /-- Counter value and tiles committed at the last checkpoint (R178). -/
  ckptAt : Nat := 0
  ckptTiles : Nat := 0
  /-- Counters of T7.9: see `dcDie`, `dcDev`, `dcCtx`, `dcPart`. -/
  counters : FMap Nat := []
  /-- Case temperatures of the two NAND stacks raised DT_TEMP (R183). -/
  hot : BitVec 2 := 0#2
  /-- Snapshot slots A (0) and B (1), the slot of the last good snapshot, partner copies by arrival (R253, R255). -/
  slots : FMap Snap := []
  good : Option Nat := none
  copies : List Snap := []
deriving DecidableEq, Repr

/-! ### Near memory (06) -/

/-- A cache line: the physical address of its first byte, dirty, 128 bytes and two metadata nibbles. -/
structure Line where
  addr : Nat
  dirty : Bool
  data : Bytes
  md : List (BitVec 4)
deriving DecidableEq, Repr

/-- One set of a cache-mode segment: 16 ways and the tree bits of pseudo-LRU (R159). -/
structure CacheSet where
  ways : FMap Line := []
  tree : BitVec 15 := 0#15
deriving DecidableEq, Repr

/-- HBM channels and Common Store slices. -/
structure Near where
  /-- Metadata of 64-byte bursts by burst number: STEP_TAG [3:2], POISON [1], TILE_VER [0] (T6.2). Log 11. -/
  md : FMap (BitVec 4) := []
  /-- Cache sets by 512 × segment + set. -/
  sets : FMap CacheSet := []
  /-- Corrections by channel: since start, and in one hour of the local time counter, which `ceHour` names (R148). -/
  corr : FMap Nat := []
  corrHour : FMap Nat := []
  ceHour : FMap Nat := []
  /-- Corrected errors by slice (R163). -/
  csCorr : FMap Nat := []
  /-- Channels calibrated: counter value of the last calibration (R171). -/
  calibrated : FMap Nat := []
  /-- Stacks, and channels: counter value of the last training of the PHY, and of the last initialisation by the
  controller (R28, T16.1). -/
  phy : FMap Nat := []
  reinit : FMap Nat := []
  /-- What the last single request returned to its requester: bytes and metadata (log 20). -/
  answer : Bytes := []
  answerMd : List (BitVec 4) := []
deriving DecidableEq, Repr

/-! ### Tallies (08) -/

/-- A request that waits at an arbiter (R214, R218): its source, its class, the grant units still to be granted, the
counter value at which it came, and whether its starvation was reported. -/
structure Waiter where
  source : Nat
  cls : Nat
  units : Nat := 1
  since : Nat := 0
  starved : Bool := false
deriving DecidableEq, Repr

/-- One tally arbiter (R209 to R226). -/
structure Arbiter where
  /-- Requests that wait, in order of arrival; the queue of a source is those of that source (R214). -/
  queue : List Waiter := []
  /-- Budgets by class as held in its table, and as in force in this epoch (R222). -/
  table : FMap Nat := []
  budget : FMap Nat := []
  tableBorrow : Bool := true
  borrow : Bool := true
  /-- Grants by class in this epoch, slots counted, rotating pointer. -/
  used : FMap Nat := []
  slots : Nat := 0
  ptr : Nat := 0
  /-- Counters of R226: GRANTS at class, BORROWED at 64 + class, LAPSED 128, EPOCHS 129, STARVED 130. -/
  counters : FMap Nat := []
deriving DecidableEq, Repr

/-! ### Training (09) -/

/-- Training states (T9.3). -/
inductive TrainSt where
  | none
  | idle
  | opened
  | repair
  | broken
deriving DecidableEq, Repr

/-- A STEP_COMMIT that waits (R246, R252): its journal index, the counter value of its arrival, the stall
message sent. -/
structure Commit where
  cmd : Nat
  since : Nat
  stalled : Bool := false
  /-- When the barrier was released (R246, R248). -/
  released : Option Nat := none
deriving DecidableEq, Repr

/-- The training state of a context. -/
structure Train where
  st : TrainSt := .none
  /-- The job definition: 80 bytes of T12.16. -/
  job : Bytes := []
  version : Nat := 0
  selPhase : Bool := false
  /-- The open step and its start. -/
  step : Nat := 0
  tBegin : Nat := 0
  /-- Shard sums received or formed, by shard (R239); the gradient run completed; UPDATE_RUN completed. -/
  norms : FMap (BitVec 64) := []
  gradDone : Bool := false
  updated : Bool := false
  clip : Option (BitVec 32) := none
  /-- Ticks of this step by phase: 1 forward, 2 backward, 3 reduce, 4 update, 5 tier stall (R248). -/
  phases : FMap Nat := []
  commit : Option Commit := none
  /-- Step and result of the last commit (R252). -/
  last : Option (Nat × Bytes) := none
  /-- Counters of T9.7: 0 CLAMPED, 1 NANZERO, 2 LATE_LANDING, 3 SHORT_REDUCE, 4 LOST, 5 REWRITTEN, 6 REREAD, 7 PARTNER_SKIPPED. -/
  counters : FMap Nat := []
  /-- Phase-timing records, newest last, at most 64. -/
  ring : List (BitVec 512) := []
  /-- Blocks for which a late-landing message went out in this step (R237). -/
  late : List Nat := []
  /-- Blocks a fill has verified (R258). -/
  verified : Nat := 0
  /-- Journal index of the FILL_FROM_PEER in progress, and the replicas it has given up as sources (R259). -/
  filling : Option Nat := none
  fillGone : List Nat := []
  /-- Members that are LIVE without having been filled: they do not hold their shard's committed state (R229). -/
  hollow : List Nat := []
  /-- A RESTORE has begun and waits for a page (R257). -/
  restoring : Bool := false
  /-- Launches accepted since STEP_BEGIN that have started (R370). -/
  launches : List Cmd := []
deriving DecidableEq, Repr

/-- A landing that waits at a landing engine (R234): context, block of the job, first element, the FP32 values,
and the rod and descriptor that sent it. -/
structure Landing where
  ctx : Nat
  block : Nat
  first : Nat
  vals : List (BitVec 32)
  rod : Nat
  desc : Nat
  lastOf : Bool
deriving DecidableEq, Repr

/-! ### Collectives (11) -/

/-- A base (R325): OBJECT or SHADOW, its object and version, and whether it is set. -/
structure Base where
  shadow : Bool
  object : Nat
  ver : Nat
  isSet : Bool := true
deriving DecidableEq, Repr

/-- A code table load in progress (R328): its command, generation, table, and members still to install with
their stage (0 retire when clear, 1 retiring, 2 loading). -/
structure Load where
  cmd : Nat
  gen : Nat
  table : Bytes
  left : FMap Nat
deriving DecidableEq, Repr

/-- A collective run in progress (R308 to R316). -/
structure CollRun where
  run : Nat
  cmd : Nat
  view : Nat
  /-- The descriptor of T11.3. -/
  desc : Bytes
  /-- LIVE members when the run started, ascending. -/
  live : List Nat
  since : Nat := 0
  /-- Members whose READY arrived. -/
  ready : List Nat := []
  /-- Count of each chunk or block owned; units finished (written here); poisoned units. -/
  counts : FMap Nat := []
  written : List Nat := []
  poisoned : List Nat := []
  /-- Records applied by (unit × 4096 + member): bit i for block i. -/
  applied : FMap Nat := []
  /-- Contributions counted for each unit, as a list of members. -/
  landed : FMap (List Nat) := []
  wire : Nat := 0
  missed : Bool := false
  bad : Bool := false
deriving DecidableEq, Repr

/-- A take-over of a group's lead (R305): members still to answer, the views of those that answered, and the highest
of them with its last change. -/
structure Takeover where
  left : List Nat
  views : FMap Nat := []
  best : Nat := 0
  change : Option (Nat × Nat × Nat) := none
deriving DecidableEq, Repr

/-- A collective group as this member holds it. -/
structure Group where
  ctx : Nat
  own : Nat
  /-- Device and state (0 LIVE, 1 JOINING, 2 EXCLUDED) by member index. -/
  members : List (Nat × Nat)
  view : Nat := 0
  nextRun : Nat := 0
  bound : List Nat := []
  bases : FMap Base := []
  /-- Tables this member sends with, by generation; the current one; a load in progress. -/
  tables : FMap Bytes := []
  current : Option Nat := none
  load : Option Load := none
  /-- Generations installed at each member, and the tables installed here by 4 × member + generation. -/
  atPeer : FMap (List Nat) := []
  slots : FMap Bytes := []
  run : Option CollRun := none
  /-- The last run that completed here, and those before it, newest first: they still answer RESEND_REQ (R322). -/
  doneRun : Option CollRun := none
  older : List CollRun := []
  /-- The last change applied (R305), and changes this leader made with the members that have not acknowledged. -/
  lastChange : Option (Nat × Nat × Nat) := none
  /-- Requests that wait at the leader: new state, member, device. -/
  requests : List (Nat × Nat × Nat) := []
  /-- Commands that wait for a change: journal index, member, new state. -/
  asking : List (Nat × Nat × Nat) := []
  /-- A take-over in progress (R305). -/
  takeover : Option Takeover := none
  /-- Barrier arrivals at the leader by member: step (R306). A release the leader has sent and not yet acted on
  itself: step, mismatch. -/
  arrivals : FMap Nat := []
  released : Option (Nat × Bool) := none
  /-- READY messages for runs not started here yet: run number, member, list digest (R310). -/
  early : List (Nat × Nat × BitVec 64) := []
  /-- Runs abandoned under R315, by run number modulo 2^16: messages that arrive for one are discarded and counted. -/
  gone : List Nat := []
  /-- Counters of T11.7: 0 RAW_BYTES, 1 WIRE_BYTES, 2 SENT_CODED, 3 SENT_STORED, 4 to 7 REFUSED_TABLE, _BASE, _CHECK,
  _LENGTH, 8 STALE_VIEW, 9 RUNS_ABANDONED, 16 + s SYMBOLS[s]. -/
  counters : FMap Nat := []
deriving DecidableEq, Repr

/-- A context (R23, R124, R191, R213, R232). -/
structure Ctx where
  part : Nat := 0
  cls : Nat := 0
  seed : BitVec 64 := 0#64
  launches : Nat := 0
  /-- Quotas in pages by tier: 0 HBM, 1 Common Store scratch, 2 user region. -/
  quotas : FMap Nat := []
  sched : Option Schedule := none
  /-- A schedule that takes over at the next STEP_BEGIN (R197). -/
  nextSched : Option Schedule := none
  train : Train := {}
  /-- Narrowing draws of collective runs take the context's key (R311). -/
  collDraws : Nat := 0
deriving DecidableEq, Repr

def Ctx.stepOpen (x : Ctx) : Bool := x.train.st = .opened

def Ctx.step (x : Ctx) : Option Nat := if x.train.st = .opened then some x.train.step else none

/-! ### The control state (T13.6) -/

/-- The control state with the journal and the ledger, as the journal flush region or a partner holds it. -/
structure Control where
  powerLimit : Nat := 2000
  zlId : Option Nat := none
  portEnable : BitVec 32 := 0xFFFFFFFF#32
  mirrorPorts : BitVec 32 := 0x00010001#32
  journalFlush : Bool := false
  scratch : BitVec 320 := 0#320
  wvLog2 : FMap Nat := []
  wvThresh : FMap Nat := []
  sev : FMap Nat := []
  window : Bool := false
  escN : Nat := 3
  escWindow : Nat := 600
  history : List ResetRec := []
  queues : FMap Queue := []
  ring : List Cmd := []
  next : Nat := 1
  ledger : FMap Slot := []
  parts : Parts := {}
  ctxs : FMap Ctx := [(0, {})]
  arbiters : FMap Arbiter := []
  objects : FMap Object := []
  routes : FMap (BitVec 64) := []
  groups : FMap Group := []
  pair : Pair := .unbound
  partner : Nat := 0
  serial : BitVec 64 := 0#64
deriving DecidableEq, Repr, Inhabited

/-- The control state that a sequence of state records holds: their layout is not in the spec (R369). Log 18. -/
opaque heldControl : List Bytes → Control

/-! ### The machine -/

/-- The device and what stands around it. -/
structure State where
  sup : Supply := {}
  clk : Clock := {}
  trust : Trust := {}
  side : Side := {}
  dev : Dev := {}
  fc : Collector := {}
  host : HostIf := {}
  jr : Journal := {}
  parts : Parts := {}
  zl : Zilet := {}
  rods : FMap Rod := []
  strata : FMap Stratum := []
  wvs : FMap Weathervane := []
  /-- Launches in progress, by journal index. -/
  launches : FMap LaunchRec := []
  /-- Counters of T5.5 of the update engines, by 8 × slice + index. -/
  engineNum : FMap Nat := []
  /-- Landings that wait, by slice. -/
  landings : FMap (List Landing) := []
  near : Near := {}
  /-- Tally arbiters by 256 × kind + instance; the default is what T8.4 gives. -/
  arbiters : FMap Arbiter := []
  objects : FMap Object := []
  deep : Deep := {}
  groups : FMap Group := []
  /-- Bytes of HBM, the Common Store scratch window and the rod stores, by device physical address
  (T6.1). Log 11. -/
  mem : Mem := []
  ctxs : FMap Ctx := [(0, {})]
  /-- What the journal flush region holds committed (R376). -/
  flushed : Option Control := none
  /-- The settings that a chip reset keeps, while the profile's starting state stands from step 6 to step 8 (R437). -/
  stash : Option Control := none
  /-- Number of the next draw of a value the spec leaves open: the model's own field. Log 1. -/
  free : Nat := 0
  /-- Requests that wait at a crossing into a region that stalls, oldest first (R40). -/
  crossing : List Instr := []
  /-- Commands and events waiting to be carried out, first in first out (the block form). -/
  pending : List Instr := []
deriving DecidableEq, Repr

/-- The machine right after reset: the package off, PWR_EN low (R471, R481). -/
def State.reset : State := {}

end Sys2Proof.Machine
end

