-- ==== Sys2Proof/Machine/Operands.lean ====
section
/-!
DEFINITION. How a command's operands are read from its parameter bytes (spec/12_host_command_interface.md R343, R350; R8).
-/

namespace Sys2Proof.Machine

/-- A parameter field of `n` bytes from byte `lo`. -/
def Cmd.p (c : Cmd) (lo n : Nat) : Nat := fieldBytes c.params lo n

/-- One bit of parameter byte `lo`. -/
def Cmd.bit (c : Cmd) (lo i : Nat) : Bool := bitOf (c.p lo 1) i

/-- The parameter bytes from `lo` as they are. -/
def Cmd.bytes (c : Cmd) (lo n : Nat) : Bytes := byteSlice c.params lo n

/-- Every parameter byte outside the named fields is 0 (R8, R350), and DEFER stands only in a SELF_TEST or a CALIBRATE
(T12.6; DEDUCED, log 85: any other command that carries it is refused). -/
def Cmd.rest0 (c : Cmd) (named : List (Nat × Nat)) : Bool :=
  (!bitOf c.flags 3 || c.opcode = 0x700 || c.opcode = 0x701) && (List.range c.params.length).all (fun i =>
    c.params.getD i 0 = 0 || named.any (fun r => r.1 ≤ i && i < r.1 + r.2))

end Sys2Proof.Machine
end

