-- ==== Sys2Proof/Machine/Signals.lean ====
section
/-!
DEFINITION. What runs at the present supply, and fault messages (spec/02_timing_without_clock.md R40;
spec/17_package_power_cooling.md R448, R458; spec/14_fault_collection.md R387 to R390, T14.3).
-/

namespace Sys2Proof.Machine

/-! ### Supply sag (R448, R458) -/

/-- A region at setpoint `mv` stalls: VIN52 is below 40 V and the region receives less than the voltage at which
handshakes stop (T17.3, T2.2). Log 15. -/
def stalled (s : State) (mv : Nat) : Bool := decide (s.sup.vin52 < 40000) && decide (mv * s.sup.vin52 / 40000 < Config.logicStopMv.val)

/-- PD_ON is powered and runs: Zenith, the collector, the watchdog. Its rail is fixed at 0.75 V (T17.4). -/
def zenithRuns (s : State) : Bool := s.sup.domains.getLsbD 0 && !stalled s 750

/-- Rods and Common Store slices do no work: safe state, or a stall (R40, R396). -/
def coreHalted (s : State) : Bool := s.dev.safe || stalled s s.sup.coreMv

/-- HBM takes no request: safe state, a stall of PD_FAB, or no ZL_REFCLK for the PHYs (R396, R468). -/
def hbmHalted (s : State) : Bool := s.dev.safe || stalled s s.sup.fabMv || !s.sup.zlRefclk

/-- A request into a region that stalls waits at the crossing (R40); where the region runs, `k` serves it. -/
def across (runs : Bool) (i : Instr) (s : State) (k : State → State) : State :=
  if runs then k s else { s with crossing := s.crossing ++ [i] }

/-- The HBM side of the core runs: no stall of PD_FAB, and ZL_REFCLK drives the PHYs (R40, R468). -/
def hbmRuns (s : State) : Bool := !stalled s s.sup.fabMv && s.sup.zlRefclk

/-- The rods and the Common Store run (R40). -/
def coreRuns (s : State) : Bool := !stalled s s.sup.coreMv

/-! ### Fault sources and messages (R387 to R390) -/

def srcHeartbeat : Nat := 0x000
def srcTimeref : Nat := 0x001
def srcGradient : Nat := 0x002
def srcThermtrip : Nat := 0x003
def srcPairLost : Nat := 0x004
def srcFcParity : Nat := 0x005
def srcMsgParity : Nat := 0x006
def srcFwFault : Nat := 0x007
def srcStratum : Nat := 0x010
def srcCsUe : Nat := 0x020
def srcCsAccess : Nat := 0x030
def srcDecode : Nat := 0x040
def srcRodProgram : Nat := 0x100
def srcRsUe : Nat := 0x140
def srcDrift : Nat := 0x180
def srcRsAccess : Nat := 0x1C0
def srcSevere : Nat := 0x200
def srcHbmUe : Nat := 0x300
def srcHbmRate : Nat := 0x400
def srcHbmAccess : Nat := 0x500
def srcTally : Nat := 0x600
def srcDtDie : Nat := 0x700
def srcDtUe : Nat := 0x720
def srcDtRebuild : Nat := 0x721
def srcDtTemp : Nat := 0x722
def srcDtSpare : Nat := 0x724
def srcDtWear : Nat := 0x725
def srcZlDown : Nat := 0x800
def srcZlDegraded : Nat := 0x820
def srcZlRetry : Nat := 0x840
def srcZlConflict : Nat := 0x860
def srcZlRefused : Nat := 0x880
def srcZlRestart : Nat := 0x8A0
def srcZlUnreach : Nat := 0x8A1
def srcZlMirror : Nat := 0x8A2
def srcHostLink : Nat := 0x900
def srcHostDma : Nat := 0x902
def srcSensor : Nat := 0xA00
def srcConv : Nat := 0xA80
def srcRot : Nat := 0xB00

/-- The ranges of source numbers T14.3 names. -/
def sourceRanges : List (Nat × Nat) :=
  [(0x000, 0x007), (0x010, 0x017), (0x020, 0x023), (0x030, 0x040), (0x100, 0x1FF), (0x200, 0x247),
   (0x300, 0x605), (0x700, 0x725), (0x800, 0x89F), (0x8A0, 0x8A2), (0x900, 0x903), (0xA00, 0xA81), (0xB00, 0xB00)]

/-- The source is not reserved (R388). -/
def sourceKnown (n : Nat) : Bool := sourceRanges.any (fun r => r.1 ≤ n && n ≤ r.2)

/-- Default severity (T14.3): 0 LOG, 1 NOTIFY, 2 CONTAIN, 3 SAFE; a reserved source reads 0 (T14.8). -/
def sevDefault (n : Nat) : Nat :=
  if !sourceKnown n then 0
  else if n = srcThermtrip || n = srcFcParity || n = srcConv || n = srcConv + 1 then 3
  else if n = srcZlRestart then 0
  else 1

/-- Severity of a source now (R392). -/
def sevOf (s : State) (n : Nat) : Nat := (mapFind s.fc.sev n).getD (sevDefault n)

/-- Number of ones among the low `n` bits. -/
def ones (v : Nat) : Nat → Nat
  | 0 => 0
  | n + 1 => ones v n + v / 2 ^ n % 2

/-- A fault message (T14.1) with even parity. -/
def faultMsg (src kind addr : Nat) : BitVec 67 :=
  let v := fieldAt src 12 54 + fieldAt kind 6 48 + addr % 2 ^ 48
  BitVec.ofNat 67 (v + (ones v 66 % 2) * 2 ^ 66)

/-- SOURCE, KIND and ADDRESS of a message. -/
def msgSource (m : BitVec 67) : Nat := bitsOf m.toNat 65 54

def msgKind (m : BitVec 67) : Nat := bitsOf m.toNat 53 48

def msgAddr (m : BitVec 67) : Nat := m.toNat % 2 ^ 48

/-- A block raises a source: its message waits to enter the fault network, unless one of the same
source is waiting already (R390). -/
def raise (src kind addr : Nat) (s : State) : State :=
  if s.fc.net.any (fun m => msgSource m = src) then s
  else { s with fc := { s.fc with net := s.fc.net ++ [faultMsg src kind addr] } }

/-- PD_ON runs without edges of TIMEREF: the oscillator takes over the counter, and the loss is reported (R46). -/
def noteTimeref (s : State) : State :=
  if s.sup.timeref || s.clk.internal || !zenithRuns s then s
  else raise srcTimeref 0 s.clk.ltc { s with clk := { s.clk with internal := true, degraded := true } }

/-- The store die takes reads, programs and erases (R179, R207, R396). -/
def flashRuns (s : State) : Bool := s.deep.mounted && !s.dev.safe && s.sup.timeref

end Sys2Proof.Machine
end

