-- ==== Sys2Proof/Machine/Nand.lean ====
section
/-!
DEFINITION. The NAND dies under the translation layer (spec/07_deep_tier.md R172 to R178, R180 to R188): regions, blocks,
stripes with their parity, the map with its log, wear, and the tiles that wait to be programmed.
-/

namespace Sys2Proof.Machine

/-! ### Counters of T7.9 -/

/-- Of a die: 0 RETIRED, 1 READ_RETRY, 2 PARITY_REBUILD, 3 UNCORRECTABLE. -/
def dcDie (d i : Nat) : Nat := 16 * d + i

/-- Of the device: 0 REFRESH_RETENTION, 1 REFRESH_DISTURB, 2 REFRESH_SCAN, 3 WEAR_MOVE, 4 TILES_WRITTEN, 5 TILES_GC,
6 TILES_PAD. -/
def dcDev (i : Nat) : Nat := 512 + i

/-- Of a context: 0 DEMAND_FETCH, 1 PREFETCH_ISSUED, 2 PREFETCH_LATE, 3 EVICT_DROP, 4 EVICT_WRITE. -/
def dcCtx (c i : Nat) : Nat := 1024 + 8 * c + i

def dcUp (k n : Nat) (s : State) : State :=
  { s with deep := { s.deep with counters := mapMod 0 s.deep.counters k (satAdd 48 · n) } }

/-- Count a tile written for a cause. Tiles of a block that retires, of a die that failed or of a checkpoint have no counter. -/
def countTile (c : TileCause) (s : State) : State :=
  match c with
  | .request => dcUp (dcDev 4) 1 s
  | .gc => dcUp (dcDev 5) 1 s
  | .retention => dcUp (dcDev 0) 1 s
  | .disturb => dcUp (dcDev 1) 1 s
  | .scan => dcUp (dcDev 2) 1 s
  | .wear => dcUp (dcDev 3) 1 s
  | .retire | .die | .map => s

/-! ### Geometry (R172 to R174) -/

/-- Stripe group of a die (R173). -/
def dieGroup (d : Nat) : Nat := 2 * (d % 2) + d / 2 % 2

/-- NAND channel of a die (R172). -/
def dieChannel (d : Nat) : Nat := d / 2

/-- Tiles of 64 KiB that a block holds: three a wordline in TLC mode, one third of that in SLC mode (R172, T7.3). -/
def blockTiles (slc : Bool) : Nat := (Config.lastWordline + 1) * if slc then 1 else 3

/-- Blocks of a die, which holds 128 GiB in TLC mode (R172). -/
def dieBlocks : Nat := 2097152 / blockTiles false

/-- Blocks of a die in the SLC regions, and in the user region, a 32nd part of T7.2 each; the others are spare. They lie
in that order (log 24). -/
def slcShare : Nat := 1004544 / blockTiles false

def tlcShare : Nat := 917504 / blockTiles false

/-- Number of the `k`-th block of a die. -/
def blockId (die k : Nat) : Nat := die * 2 ^ 20 + k

/-- Key of tile `i` of a region other than the user region's object pages: 0 boot, 1 map, 2 journal flush, 3 and 4 the
snapshot slots, 6 partner copies in the user region. -/
def regionKey (r i : Nat) : Nat := (r + 1) * 2 ^ 50 + i

/-- Region of a tile (T7.2): 5 is the user region. -/
def keyRegion (k : Nat) : Nat := if k < 2 ^ 50 then 5 else k / 2 ^ 50 - 1

/-- Tiles of data that a region holds (T7.2): boot 7 GiB, map 1.75 GiB, journal flush 3.5 GiB, each snapshot slot 280 GiB; what
partner copies take of the user region is charged in pages. -/
def regionCap (r : Nat) : Nat := [114688, 28672, 57344, 4587520, 4587520].getD r (2 ^ 40)

/-- Mode of the region of a tile (T7.2). -/
def keySlc (k : Nat) : Bool := keyRegion k < 5

/-- Dies of a group that have not failed, ascending. -/
def groupDies (s : State) (g : Nat) : List Nat :=
  (List.range 32).filter (fun d => dieGroup d = g && !s.deep.failedDies.getLsbD d)

/-- Data tiles of a stripe of a group: 7, or 6 once it has lost a die (R173, R186). -/
def stripeTiles (s : State) (g : Nat) : Nat := (groupDies s g).length - 1

/-- The snapshot slot that the next snapshot takes (R255). -/
def nextSlot (s : State) : Nat := if s.deep.good = some 0 then 1 else 0

/-! ### Blocks (R180, R185, R188) -/

def blockGet (s : State) (b : Nat) : Block := mapGet {} s.deep.blocks b

def blockMod (b : Nat) (f : Block → Block) (s : State) : State :=
  { s with deep := { s.deep with blocks := mapMod {} s.deep.blocks b f } }

/-- Put a record into the map log (R178). -/
def mapLog (r : MapRec) (s : State) : State :=
  { s with deep := { s.deep with ckpts := match s.deep.ckpts with
    | [] => []
    | k :: l => { k with log := k.log ++ [r] } :: l } }

/-- Rated cycles of a mode (T7.5). -/
def ratedCycles (slc : Bool) : Nat := if slc then 40000 else 3000

/-- Blocks that run in a mode: the regions' own, and the spare blocks that joined (R174). -/
def modeBlocks (s : State) (slc : Bool) : Nat :=
  32 * (if slc then slcShare else tlcShare)
    + (s.deep.blocks.filter (fun kv => kv.2.slc = slc && slcShare + tlcShare ≤ kv.1 % 2 ^ 20)).length

/-- LIFE_USED of a mode in percent (R188). -/
def lifeUsed (s : State) (slc : Bool) : Nat :=
  mapGet 0 s.deep.erases (if slc then 1 else 0) * 100 / (ratedCycles slc * modeBlocks s slc)

/-- Erase a block: its erase count, and DT_WEAR once when LIFE_USED reaches 90 % (R188). -/
def eraseBlock (b : Nat) (s : State) : State :=
  let slc := (blockGet s b).slc
  let m := if slc then 1 else 0
  let s := blockMod b (fun x => { x with erases := x.erases + 1, reads := 0, age := 0, tiles := [], used := 0, moving := false }) s
  let s := mapLog (.erase b) { s with deep := { s.deep with erases := mapMod 0 s.deep.erases m (· + 1) } }
  if 90 ≤ lifeUsed s slc && !s.deep.worn.getLsbD m then
    raise srcDtWear 0 m { s with deep := { s.deep with worn := s.deep.worn ||| BitVec.ofNat 2 (2 ^ m) } }
  else s

/-- A block whose tiles were being moved holds none any more: it is erased (R180 to R182). A retired block and a failed
die are not erased. -/
def emptied (b : Nat) (s : State) : State :=
  let x := blockGet s b
  if x.moving && x.tiles.isEmpty && !x.retired && !s.deep.failedDies.getLsbD x.die && flashRuns s then eraseBlock b s else s

/-- Listed blocks of a die in a mode that may be programmed anew: they hold no committed tile and are not open. -/
def freeListed (s : State) (die : Nat) (slc : Bool) : FMap Block :=
  s.deep.blocks.filter (fun kv => kv.2.die = die && kv.2.slc = slc && !kv.2.retired && !kv.2.moving && kv.2.tiles.isEmpty
    && mapFind s.deep.current (2 * die + if slc then 1 else 0) ≠ some kv.1)

/-- Blocks of a die's share of a mode that were never programmed. -/
def untouched (s : State) (die : Nat) (slc : Bool) : List Nat :=
  ((List.range (if slc then slcShare else tlcShare)).map (fun k => blockId die (if slc then k else slcShare + k))).filter
    (fun b => (mapFind s.deep.blocks b).isNone)

/-- Free blocks of a die in a mode. -/
def freeCount (s : State) (die : Nat) (slc : Bool) : Nat := (untouched s die slc).length + (freeListed s die slc).length

/-- A spare block of a die that has joined no region. -/
def spareBlock (s : State) (die : Nat) : Option Nat :=
  ((List.range (dieBlocks - (slcShare + tlcShare))).map (fun k => blockId die (slcShare + tlcShare + k))).find?
    (fun b => (mapFind s.deep.blocks b).isNone)

/-- A spare block joins a region of a die and takes its mode (R174, R185); DT_SPARE_LOW below 34 GiB. -/
def joinSpare (die : Nat) (slc : Bool) (s : State) : State :=
  match (if s.deep.spare = 0 then none else spareBlock s die) with
  | none => s
  | some b =>
    let left := if s.deep.spare < 2 * blockTiles false then 0 else s.deep.spare - blockTiles false
    let s := blockMod b (fun x => { x with die := die, slc := slc }) { s with deep := { s.deep with spare := left } }
    if left < 557056 && !s.deep.spareLow then
      raise srcDtSpare 0 (left / 16) { s with deep := { s.deep with spareLow := true } }
    else s

/-- The free block of a die with the lowest erase count (R180); one never programmed has none. -/
def freshBlock (s : State) (die : Nat) (slc : Bool) : Option Nat :=
  match untouched s die slc, freeListed s die slc with
  | b :: _, _ => some b
  | [], a :: l => some (l.foldl (fun x kv => if kv.2.erases < x.2.erases then kv else x) a).1
  | [], [] => none

/-- The open block of a die has room. -/
def openRoom (s : State) (die : Nat) (slc : Bool) : Option Nat :=
  match mapFind s.deep.current (2 * die + if slc then 1 else 0) with
  | some b => let x := blockGet s b; if x.retired || x.moving || blockTiles slc ≤ x.used then none else some b
  | none => none

/-- A die can take one tile more in a mode. -/
def dieRoom (s : State) (slc : Bool) (die : Nat) : Bool :=
  (openRoom s die slc).isSome || 0 < freeCount s die slc || (s.deep.spare ≠ 0 && (spareBlock s die).isSome)

/-! ### Tiles that wait to be programmed (R177, R199) -/

/-- Queue a tile for the open stripe of a group; those a demand waits for go first (R199). -/
def queueWrite (g : Nat) (t : TileWrite) (s : State) : State :=
  let l := mapGet [] s.deep.stripes g
  let l := if t.urgent then l.takeWhile (·.urgent) ++ t :: l.dropWhile (·.urgent) else l ++ [t]
  { s with deep := { s.deep with stripes := mapSet [] s.deep.stripes g l, lastTile := mapInsert s.deep.lastTile g s.clk.ltc } }

/-- A tile waits to be programmed. -/
def queued (s : State) (key : Nat) : Bool := s.deep.stripes.any (fun kv => kv.2.any (fun t => t.key = key))

/-- Take the waiting tiles that `p` names out of the open stripes. -/
def unqueue (p : TileWrite → Bool) (s : State) : State :=
  { s with deep := { s.deep with stripes :=
    (s.deep.stripes.map (fun kv => (kv.1, kv.2.filter (fun t => !p t)))).filter (fun kv => !kv.2.isEmpty) } }

/-- Move a block's committed tiles to other blocks of its group, and erase it when they have gone (R180 to R186). `ctx` is
the context whose write made garbage collection necessary (R187). -/
def moveBlock (b : Nat) (why : TileCause) (ctx : Nat) (s : State) : State :=
  let x := blockGet s b
  let s := blockMod b (fun y => { y with moving := true }) s
  emptied b (x.tiles.foldl (fun s kv =>
    if queued s kv.2 then s else queueWrite (dieGroup x.die) { key := kv.2, cause := why, ctx := ctx } s) s)

/-- Garbage collection (R174, R187): with one free block left to a die in the user region, the committed tiles of the
fullest-of-garbage block are moved (log 24). -/
def collect (die ctx : Nat) (s : State) : State :=
  let l := s.deep.blocks.filter (fun kv => kv.2.die = die && !kv.2.slc && !kv.2.retired && !kv.2.moving
    && kv.2.tiles.length < kv.2.used && !kv.2.tiles.isEmpty && mapFind s.deep.current (2 * die) ≠ some kv.1)
  match l with
  | [] => s
  | a :: r => moveBlock (r.foldl (fun x kv => if kv.2.tiles.length < x.2.tiles.length then kv else x) a).1 .gc ctx s

/-- The block a die programs now. A full one gives way to the free block with the lowest erase count, erased first where
it was used; where none is left a spare block joins (R174, R180). -/
def openBlock (die : Nat) (slc : Bool) (ctx : Nat) (s : State) : Nat × State :=
  match openRoom s die slc with
  | some b => (b, s)
  | none =>
    let s := if freeCount s die slc = 0 then joinSpare die slc s else s
    match freshBlock s die slc with
    | none => (blockId die 0, s)
    | some b =>
      let s := if 0 < (blockGet s b).used then eraseBlock b s else s
      let s := blockMod b (fun x => { x with die := die, slc := slc })
        { s with deep := { s.deep with current := mapInsert s.deep.current (2 * die + if slc then 1 else 0) b } }
      (b, if !slc && freeCount s die slc ≤ 1 then collect die ctx s else s)

/-! ### Stripes, parity, commits (R173, R175, R177) -/

/-- A codeword of a tile of an object's page: its data, the metadata of its 64 bursts, and its tag, which names the object,
page, tile, codeword and write sequence number (R175; the order of the tag's fields is log 24's). -/
def codeword (s : State) (key seq i : Nat) : Bytes :=
  let a := key * 65536 + 4096 * i
  memRead s.deep.flash a 4096
    ++ natLe 32 ((List.range 64).foldl (fun n j => n + (mapGet 0#4 s.deep.fmeta (a / 64 + j)).toNat * 16 ^ j) 0)
    ++ natLe 16 ((key * 16 + i) * 2 ^ 48 + seq)

/-- What a die stores of a codeword: the codeword, and the parity of its LDPC code in the spare bytes (R175; the code is
log 24's). -/
def storedCodeword (s : State) (key seq i : Nat) : Bytes := codeword s key seq i ++ Config.ldpcParity (codeword s key seq i)

/-- The 16 codewords of a tile. What the other regions hold is state of its own, whose bytes in a tile the spec does not lay
out (log 24). -/
def tileImage (s : State) (key seq : Nat) : Bytes :=
  if keyRegion key = 5 then (List.range 16).flatMap (codeword s key seq) else Config.regionTile key seq

/-- Bytewise XOR of tiles; a padding tile is zero and adds nothing. -/
def xorTiles (l : List Bytes) : Bytes :=
  l.foldl (fun a b => if a.isEmpty then b else List.zipWith (fun (x y : BitVec 8) => x ^^^ y) a b) []

/-- Take a tile out of the block and the stripe that hold it (R190, R196). -/
def dropTile (key : Nat) (s : State) : State :=
  match mapFind s.deep.map key with
  | none => s
  | some l =>
    let y := mapGet {} s.deep.laid l.stripe
    let keys := y.keys.filter (· ≠ key)
    let s := { s with deep := { s.deep with
      map := mapErase s.deep.map key
      laid := if keys.isEmpty then mapErase s.deep.laid l.stripe else mapInsert s.deep.laid l.stripe { y with keys := keys } } }
    emptied l.block (blockMod l.block (fun x => { x with tiles := mapErase x.tiles l.slot }) s)

/-- Program a tile into its place in a stripe and commit it: the old location holds it no more, and the map log names the
new one (R177, R178). A refresh for retention sets the new block's age to 0 (R182). -/
def placeTile (die stripe : Nat) (t : TileWrite) (s : State) : State :=
  let r := openBlock die (keySlc t.key) t.ctx s
  let x := blockGet r.2 r.1
  let loc : TileLoc := { block := r.1, slot := x.used, seq := r.2.deep.writeSeq, stripe := stripe }
  let s := blockMod r.1 (fun x => { x with tiles := mapInsert x.tiles x.used t.key, used := x.used + 1,
                                           age := if t.cause = .retention || x.tiles.isEmpty then 0 else x.age }) r.2
  let s := dropTile t.key s
  let y := mapGet {} s.deep.laid stripe
  mapLog (.commit t.key loc) { s with deep := { s.deep with
    map := mapInsert s.deep.map t.key loc
    laid := mapInsert s.deep.laid stripe { y with keys := y.keys ++ [t.key] }
    writeSeq := (s.deep.writeSeq + 1) % 2 ^ 48
    ckptTiles := s.deep.ckptTiles + 1 } }

/-- Program a slot of a die that no map entry names: parity or padding; the block and slot it takes. -/
def placeOther (die : Nat) (slc : Bool) (ctx : Nat) (s : State) : (Nat × Nat) × State :=
  let r := openBlock die slc ctx s
  ((r.1, (blockGet r.2 r.1).used), blockMod r.1 (fun x => { x with used := x.used + 1 }) r.2)

/-- The die of a group's next stripe that takes the parity (R173). -/
def parityDie (s : State) (g : Nat) : Nat :=
  let l := groupDies s g
  l.getD (mapGet 0 s.deep.stripeNo g % 8 % l.length) 0

/-- Dies of a stripe's data tiles: the group's dies without the one that takes the parity. -/
def dataDies (s : State) (g : Nat) : List Nat := (groupDies s g).filter (· ≠ parityDie s g)

/-- Reads of the codewords with which a tile's codeword is rebuilt: those of the other tiles of its stripe and of the parity
tile (R176, R181). -/
def stripeReads (key n : Nat) (s : State) : State :=
  match mapFind s.deep.map key with
  | none => s
  | some l =>
    let y := mapGet {} s.deep.laid l.stripe
    let bs := (y.keys.filter (· ≠ key)).filterMap (fun k => (mapFind s.deep.map k).map (·.block)) ++ (y.parityAt.map (·.1)).toList
    bs.foldl (fun s b => blockMod b (fun x => { x with reads := x.reads + n }) s) s

/-- A tile that moves is read where it lay, codeword by codeword (R181); on a failed die its codewords are rebuilt from
parity (R186). -/
def moveRead (t : TileWrite) (s : State) : State :=
  match (if t.cause = .request || t.cause = .map then none else mapFind s.deep.map t.key) with
  | none => s
  | some l =>
    let die := (blockGet s l.block).die
    let s := blockMod l.block (fun x => { x with reads := x.reads + 16 }) s
    if s.deep.failedDies.getLsbD die then stripeReads t.key 16 (dcUp (dcDie die 2) 16 s) else s

/-- Program one stripe of a group: its data tiles, padding for the rest, and the parity tile (R173, R177). -/
def programStripe (g : Nat) (slc : Bool) (l : List TileWrite) (s : State) : State :=
  let n := mapGet 0 s.deep.stripeNo g
  let dies := dataDies s g
  let par := parityDie s g
  let ctx := (l.headD { key := 0 }).ctx
  let parity := xorTiles ((List.range l.length).map (fun i =>
    match l[i]? with
    | some t => tileImage s t.key ((s.deep.writeSeq + i) % 2 ^ 48)
    | none => []))
  let s := { s with deep := { s.deep with
    stripeNo := mapSet 0 s.deep.stripeNo g (n + 1)
    laid := mapInsert s.deep.laid (4 * n + g) { dies := groupDies s g, keys := [], parity := parity } } }
  let s := (l.foldl (fun (r : Nat × State) t => (r.1 + 1, countTile t.cause (placeTile (dies.getD r.1 0) (4 * n + g) t (moveRead t r.2)))) (0, s)).2
  let s := (dies.drop l.length).foldl (fun s d => dcUp (dcDev 6) 1 (placeOther d slc ctx s).2) s
  let p := placeOther par slc ctx s
  { p.2 with deep := { p.2.deep with laid := mapMod {} p.2.deep.laid (4 * n + g) (fun y => { y with parityAt := some p.1 }) } }

/-- Every die of a group has room for a stripe. -/
def stripeRoom (s : State) (g : Nat) (slc : Bool) : Bool := 1 < (groupDies s g).length && (groupDies s g).all (dieRoom s slc)

/-- Write tiles of a region in stripes, the groups in turn from `g`. The last stripe is padded and closed at once (DESIGN CHOICE,
log 24: R177 has it wait 1 ms for more). -/
def writeStripes (why : TileCause) : Nat → Nat → List Nat → State → State
  | 0, _, _, s => s
  | fuel + 1, g, keys, s =>
    let n := stripeTiles s g
    if keys.isEmpty then s
    else if !stripeRoom s g (keySlc (keys.headD 0)) then writeStripes why fuel ((g + 1) % 4) keys s
    else writeStripes why fuel ((g + 1) % 4) (keys.drop n)
      (programStripe g (keySlc (keys.headD 0)) ((keys.take n).map (fun k => { key := k, cause := why })) s)

/-- Write `n` tiles of a region from tile `i`, inside its data capacity (log 24 for the group that comes first); what they
replace is free. -/
def writeRegion (r i n : Nat) (s : State) : State :=
  writeStripes (if r = 1 then .map else .request) (4 * n + 4) (i / 7 % 4)
    (((List.range n).filter (fun k => i + k < regionCap r)).map (fun k => regionKey r (i + k))) s

/-- Release the tiles of a region that `p` names. -/
def freeRegion (r : Nat) (p : Nat → Bool) (s : State) : State :=
  ((s.deep.map.map (·.1)).filter (fun k => keyRegion k = r && p (k % 2 ^ 50))).foldl (fun s k => dropTile k (mapLog (.free k) s)) s

/-- Read every codeword of those of a region's tiles whose numbers `p` picks (R181). -/
def readTiles (r : Nat) (p : Nat → Bool) (s : State) : State :=
  { s with deep := { s.deep with blocks := s.deep.blocks.map (fun kv => (kv.1,
    { kv.2 with reads := kv.2.reads + 16 * (kv.2.tiles.filter (fun t => keyRegion t.2 = r && p (t.2 % 2 ^ 50))).length })) } }

/-- Read every codeword of a region's tiles. -/
def readRegion (r : Nat) (s : State) : State := readTiles r (fun _ => true) s

/-! ### The map (R178, R179) -/

/-- Replay a map log. -/
def replayMap (m : FMap TileLoc) (l : List MapRec) : FMap TileLoc :=
  l.foldl (fun m r => match r with
    | .commit k loc => mapInsert m k loc
    | .free k => mapErase m k
    | .erase _ | .retire _ => m) m

/-- The map as mounting finds it: the newest checkpoint, or the older one with the log that follows both; with neither, what
the tags say, which is every committed tile (R179). -/
def mountedMap (newestOk olderOk : Bool) (s : State) : FMap TileLoc :=
  match s.deep.ckpts with
  | a :: l => if newestOk then replayMap a.map a.log
    else match l with
      | b :: _ => if olderOk then replayMap b.map (b.log ++ a.log) else s.deep.map
      | [] => s.deep.map
  | [] => s.deep.map

/-! ### Retirement and failed dies (R185, R186) -/

/-- Retirements of a die in the last hour (R186). -/
def hourRetired (s : State) (die : Nat) : Nat :=
  (s.deep.retirements.filter (fun r => r.1 = die && s.clk.ltc - r.2 < 3600 * ticksS)).length

/-- A tile on a failed die whose stripe has lost two dies: nothing can rebuild it (R186). -/
def hopeless (s : State) (key : Nat) : Bool :=
  match mapFind s.deep.map key with
  | none => false
  | some l => s.deep.failedDies.getLsbD (blockGet s l.block).die
      && 2 ≤ ((mapGet {} s.deep.laid l.stripe).dies.filter (fun d => s.deep.failedDies.getLsbD d)).length

/-- The tiles of every stripe that touches a die move into stripes of free blocks on the other dies of its group (R186). -/
def moveStripes (die : Nat) (s : State) : State :=
  let keys := (s.deep.laid.filter (fun kv => kv.2.dies.contains die)).flatMap (·.2.keys)
  keys.foldl (fun s k => if queued s k then s else queueWrite (dieGroup die) { key := k, cause := .die } s) s

/-- A die fails: it is marked, and every stripe that touches it moves into stripes on the other dies (R186). -/
def failDie (die : Nat) (s : State) : State :=
  if s.deep.failedDies.getLsbD die then s else
    let s := raise (srcDtDie + die) 0 (hourRetired s die)
      { s with deep := { s.deep with failedDies := s.deep.failedDies ||| BitVec.ofNat 32 (2 ^ die) } }
    moveStripes die ((s.deep.blocks.filter (fun kv => kv.2.die = die)).foldl (fun s kv => moveBlock kv.1 .die 0 s) s)

/-- Retire a block: its tiles move, a spare block takes its place (R185). -/
def retireBlock (b : Nat) (s : State) : State :=
  let x := blockGet s b
  if x.retired then s else
    let s := mapLog (.retire b) (blockMod b (fun y => { y with retired := true }) s)
    let s := dcUp (dcDie x.die 0) 1 (moveBlock b .retire 0 s)
    let s := joinSpare x.die x.slc { s with deep := { s.deep with
      retirements := (s.deep.retirements.filter (fun r => s.clk.ltc - r.2 < 3600 * ticksS)) ++ [(x.die, s.clk.ltc)] } }
    if 64 < hourRetired s x.die then failDie x.die s else s

/-- After a mount the moves that a restart cut off are taken up again: of retired blocks, of failed dies (R185, R186). -/
def resumeBlocks (s : State) : State :=
  (maskList s.deep.failedDies.toNat 32).foldl (fun s d => moveStripes d s) <| s.deep.blocks.foldl (fun s kv =>
    if kv.2.tiles.isEmpty then s
    else if kv.2.retired then moveBlock kv.1 .retire 0 s
    else if s.deep.failedDies.getLsbD kv.2.die then moveBlock kv.1 .die 0 s
    else s) s

/-! ### Case temperature (R183) -/

/-- DT_TEMP when a stack's case passes 70 °C (R183). -/
def caseTemp (stack : Nat) (t : Int) (s : State) : State :=
  let hot := decide (1120 < t)
  let was := s.deep.hot.getLsbD stack
  let m := BitVec.ofNat 2 (2 ^ stack)
  let s := { s with deep := { s.deep with hot := if hot then s.deep.hot ||| m else s.deep.hot &&& ~~~m } }
  if hot && !was then raise (srcDtTemp + stack) 0 (unsgn 48 t) s else s

end Sys2Proof.Machine
end

