-- ==== Sys2Proof/Machine/Ops.lean ====
section
/-!
DEFINITION. Operations every family shares: host memory and interrupts, completion
entries, the journal and the outcome ledger, messages to Zilet peers, intake, and the start and the
end of a command (spec/12_host_command_interface.md, spec/13_mirror_pair_consistency.md,
spec/14_fault_collection.md).
-/

namespace Sys2Proof.Machine

/-! ### Host memory, counters, interrupts (R333, R341) -/

/-- The link of port `p` is up. -/
def linkUp (s : State) (p : Nat) : Bool := bitOf s.host.up.toNat p

/-- Host memory as port `p` sees it. -/
def hostMem (s : State) (p : Nat) : Mem := if p = 0 then s.host.memA else s.host.memB

def hostRead (s : State) (p a n : Nat) : Bytes := memRead (hostMem s p) a n

/-- The device writes host memory as a bus master (R333). -/
def hostWrite (p a : Nat) (bs : Bytes) (s : State) : State :=
  if p = 0 then { s with host := { s.host with memA := memWrite s.host.memA a bs } }
  else { s with host := { s.host with memB := memWrite s.host.memB a bs } }

/-- Add 1 to a host-port counter (T12.18, set 0x0B; 48 bits are stated for link counters only, so these
keep counting). Indices: 0 DB_IGNORED, 1 INTAKE_REFUSED, 2 INTAKE_WAIT, 3 ACCEPTED, 4 DONE_POSTED,
5 DMA_ERROR, 6 CQ_FULL_STALL. -/
def bumpHost (p i : Nat) (s : State) : State :=
  { s with host := { s.host with counters := mapMod 0 s.host.counters (8 * p + i) (· + 1) } }

/-- Send MSI-X vector `v` of port `p` (R341): a masked vector sets its PBA bit; a port whose link is
down sends nothing. -/
def signal (p v : Nat) (s : State) : State :=
  if !linkUp s p then s else
    let e := mapGet {} s.host.msix (64 * p + v)
    if e.masked then
      { s with host := { s.host with pba := s.host.pba ||| BitVec.ofNat 128 (2 ^ (64 * p + v)) } }
    else hostWrite p e.addr.toNat (natLe 4 e.data.toNat) s

/-- Vector 0 on both ports. -/
def signalBoth (s : State) : State := signal 1 0 (signal 0 0 s)

/-! ### Queues and completion entries (R337 to R344) -/

def homeOf (q : Nat) : Nat := q / 256

def qGet (s : State) (q : Nat) : Queue := mapGet {} s.host.queues q

def qSet (q : Nat) (x : Queue) (s : State) : State :=
  { s with host := { s.host with queues := mapSet {} s.host.queues q x } }

/-- Port a queue is bound to (R337). -/
def qPort (q : Nat) (x : Queue) : Nat := if x.away then 1 - homeOf q else homeOf q

/-- ACCEPT and DONE as TYPE (T12.7). -/
def tAcceptEntry : Nat := 1

def tDoneEntry : Nat := 2

/-- A completion entry of 32 bytes with PHASE 0 (T12.7). -/
def entryBytes (seq status sqHead queue typ : Nat) (intake : Bool) (result : Bytes) : Bytes :=
  natLe 8 seq ++ natLe 2 status ++ natLe 2 sqHead ++ natLe 2 queue
    ++ natLe 2 (typ * 2 + if intake then 8 else 0) ++ byteSlice result 0 16

/-- The entry with PHASE set as the queue's pass has it (R339). -/
def withPhase (ph : Bool) (e : Bytes) : Bytes :=
  if ph then listSet e 14 (e.getD 14 0 ||| 1#8) else e

/-- The completion ring has no empty slot left between the tail and the driver's head (R340). -/
def cqFull (x : Queue) : Bool := (x.cqTail + 1) % 2 ^ x.cqLog2 = x.cqHead

/-- An entry is a DONE. -/
def isDone (e : Bytes) : Bool := bitsOf (fieldBytes e 14 2) 2 1 = tDoneEntry

/-- Write held entries while the ring has room; the second result says that one of them interrupts. -/
def postLoop (q p : Nat) : List (Bytes × Bool) → Queue → State → State × Queue × Bool
  | [], x, s => (s, { x with held := [] }, false)
  | (e, irq) :: l, x, s =>
    if cqFull x then (bumpHost p 6 s, { x with held := (e, irq) :: l }, false)
    else
      let s := hostWrite p (x.cqBase + 32 * x.cqTail) (withPhase x.phase e) s
      let s := if isDone e then bumpHost p 4 s else s
      let t := (x.cqTail + 1) % 2 ^ x.cqLog2
      let x := { x with cqTail := t, phase := if t = 0 then !x.phase else x.phase }
      let r := postLoop q p l x s
      (r.1, r.2.1, r.2.2 || irq)

/-- Post what a queue holds: only while it is enabled, its port's link is up and the device is not in
safe state (R339, R360, R361); the interrupt follows the entries (R341). -/
def postHeld (q : Nat) (s : State) : State :=
  let x := qGet s q
  let p := qPort q x
  if x.enabled && linkUp s p && !s.dev.safe && !x.held.isEmpty then
    let r := postLoop q p x.held x s
    let s := qSet q r.2.1 r.1
    if r.2.2 && x.vector ≠ 0 then signal p x.vector s else s
  else s

/-- Post one entry, after those the queue already holds. -/
def post (q : Nat) (e : Bytes) (irq : Bool) (s : State) : State :=
  let x := qGet s q
  postHeld q (qSet q { x with held := x.held ++ [(e, irq)] } s)

/-! ### Status codes (T12.19) -/

def stSuccess : Nat := 0x0000
def stBusy : Nat := 0x0001
def stOpcode : Nat := 0x0002
def stParam : Nat := 0x0003
def stResource : Nat := 0x0004
def stQuota : Nat := 0x0005
def stDuplicate : Nat := 0x0006
def stOrder : Nat := 0x0007
def stCtxReset : Nat := 0x0008
def stUnavailable : Nat := 0x0009
def stPeerLost : Nat := 0x000A
def stNumeric : Nat := 0x000B
def stAuth : Nat := 0x000C
def stRetired : Nat := 0x000D
def stNotReady : Nat := 0x000E
def stTableMiss : Nat := 0x000F

/-! ### Messages to peers (R283 to R286) -/

def peerGet (s : State) (d : Nat) : Peer := mapGet {} s.zl.peers d

def peerSet (d : Nat) (x : Peer) (s : State) : State :=
  { s with zl := { s.zl with peers := mapSet {} s.zl.peers d x } }

/-- A message's bytes: its 64-byte header and its data (R288). -/
def msgBytes (m : OutMsg) : Bytes :=
  (if m.head.isEmpty then byteSlice (Config.messageHeader m.mtype [m.group, m.run, m.cmd]) 0 64 else m.head) ++ m.body

/-- Packets of a message, of at most 4,288 bytes (R271, R288). -/
def msgPackets (m : OutMsg) : Nat := (64 + m.body.length + 4287) / 4288

/-- A packet header (T10.3) with the given HOPS and PCRC. -/
def packetHeader (p : Packet) (hops pcrc : Nat) : Bytes :=
  natLe 32 (fieldAt p.dst 12 244 + fieldAt p.src 12 232 + fieldAt hops 4 228 + fieldAt p.vc 2 226 + fieldAt p.stream 2 224
    + fieldAt p.mtype 8 216 + fieldAt p.flits 5 211 + fieldAt p.bytes 13 198 + fieldAt p.cls 6 192
    + fieldAt p.srcBoot 16 176 + fieldAt p.dstBoot 16 160 + fieldAt p.mseq 32 128 + fieldAt p.pkt 8 120
    + (if p.last then 2 ^ 119 else 0) + fieldAt p.target 32 64 + fieldAt p.ackinfo 32 32 + fieldAt pcrc 32 0)

/-- PCRC: CRC-32C over the header, with PCRC and HOPS taken as 0, and the packet's data (T10.3). -/
def packetCrc (p : Packet) : Nat := crc32c (packetHeader p 0 0 ++ p.data)

/-- The payloads of a packet's flits: 240 bytes each, the header first (R271). -/
def packetFlits (p : Packet) : List Bytes :=
  let bs := packetHeader p p.hops p.pcrc ++ p.data
  (List.range p.flits).map (fun k => byteSlice bs (240 * k) 240)

/-- Complete a packet's lengths and PCRC. -/
def sealPacket (p : Packet) : Packet :=
  let p := { p with bytes := p.data.length, flits := (32 + p.data.length + 239) / 240 }
  { p with pcrc := packetCrc p }

/-- Put one of this device's own packets before its ports (R280). -/
def queuePacket (p : Packet) (part : Nat) (s : State) : State :=
  let p := sealPacket p
  { s with zl := { s.zl with waiting := s.zl.waiting ++ [{ pkt := p, flits := packetFlits p, part := part, since := s.clk.ltc }] } }

/-- The packets of a message to peer `d` (R271, R283): TILE_DATA on VC 1, everything else on VC 0 (T10.4). -/
def queueMsg (d : Nat) (m : OutMsg) (s : State) : State :=
  let bs := msgBytes m
  let n := msgPackets m
  let x := mapGet {} s.ctxs m.ctx
  (List.range n).foldl (fun s k =>
    queuePacket { dst := d, src := s.dev.zlId.getD 0, vc := if m.mtype = 0x03 then 1 else 0, stream := m.stream,
                  mtype := m.mtype, cls := if m.ctx = 0 then 61 else x.cls, srcBoot := s.dev.bootId.toNat,
                  dstBoot := if m.mtype = 0x30 then 0 else (peerGet s d).boot, mseq := m.mseq, pkt := k,
                  last := decide (k + 1 = n), target := m.group, data := (bs.drop (4288 * k)).take 4288 } x.part s) s

/-- Counters of a peer (T10.11): 0 PCRC_ERROR, 1 DUPLICATE, 2 STALE, 3 REFUSED, then MSG_TX, MSG_RX and
RESENT of streams 0 to 2 at 4 + 3 × stream. -/
def zcPeer (d i : Nat) : Nat := 65536 + 16 * d + i

/-- Counters of a port (T10.11): 0 FLITS_TX, 1 FLITS_RX, 2 FEC_CORRECTED, 3 FEC_UNCORRECTED, 4 CRC_ERROR,
5 NAK_SENT, 6 REPLAYED, 7 RECOVERIES, 8 DOWN_EVENTS, 9 to 12 CREDIT_STALL by VC, 13 TRANSIT_FLITS. -/
def zcPort (p i : Nat) : Nat := 16 * p + i

/-- Device counters (T10.11): 0 ROUTE_LOOP, 1 NO_ROUTE, 2 ABORTED. -/
def zcDev (i : Nat) : Nat := 1024 + i

/-- Add to a Zilet counter of 48 bits that saturates (R301). -/
def zlBump (k n : Nat) (s : State) : State :=
  { s with zl := { s.zl with counters := mapMod 0 s.zl.counters k (satAdd 48 · n) } }

/-- A stream makes progress, or starts to wait for it (R286). -/
def Peer.progressed (x : Peer) (stream t : Nat) : Peer := { x with progress := mapSet 0 x.progress stream t }

/-- Move messages into flight while the session is open and their stream holds at most 4,096 packets unacknowledged
(R284); the rest collects in the backlog, and a message there holds back only later ones of its stream. -/
def launchFrom (d : Nat) : List OutMsg → Peer → State → State
  | [], x, s => peerSet d x s
  | m :: l, x, s =>
    let inFlight := (x.out.filter (fun o => o.stream = m.stream)).foldl (fun a o => a + msgPackets o) 0
    if x.isOpen && (inFlight + msgPackets m ≤ 4096) && !x.backlog.any (fun o => o.stream = m.stream) then
      let n := mapGet 0 x.tx m.stream
      let m := { m with mseq := n, sentAt := s.clk.ltc }
      let y := if inFlight = 0 then x.progressed m.stream s.clk.ltc else x
      launchFrom d l { y with tx := mapSet 0 x.tx m.stream (n + 1), out := x.out ++ [m] }
        (zlBump (zcPeer d (4 + 3 * m.stream)) 1 (queueMsg d m s))
    else launchFrom d l { x with backlog := x.backlog ++ [m] } s

/-- Give a peer's messages a start from an empty backlog. -/
def launchMsgs (d : Nat) (l : List OutMsg) (x : Peer) (s : State) : State := launchFrom d l { x with backlog := [] } s

/-- Without a session to `d`, a SESSION_OPEN goes first (R283); a device with no id sends no packets (R276). -/
def openSession (d : Nat) (s : State) : State :=
  let x := peerGet s d
  if s.dev.zlId.isNone || x.isOpen || x.out.any (fun o => o.mtype = 0x30) then s
  else peerSet d { x.progressed 0 s.clk.ltc with out := x.out ++ [{ mtype := 0x30, sentAt := s.clk.ltc }] }
    (zlBump (zcPeer d 4) 1 (queueMsg d { mtype := 0x30 } s))

/-- Send a message to a peer (R283, R284). -/
def sendMsg (d : Nat) (m : OutMsg) (s : State) : State :=
  let s := openSession d s
  let x := peerGet s d
  launchMsgs d (x.backlog ++ [m]) x s

/-! ### The journal and the outcome ledger (R371 to R375) -/

def slotKey (q seq : Nat) : Nat := 4096 * q + seq % 4096

/-- The slot that holds a command's outcome, if it holds that command (R372). -/
def slotOf (s : State) (q seq : Nat) : Option Slot :=
  match mapFind s.jr.ledger (slotKey q seq) with
  | some x => if x.seq = seq then some x else none
  | none => none

def setSlot (q seq : Nat) (x : Slot) (s : State) : State :=
  { s with jr := { s.jr with ledger := mapInsert s.jr.ledger (slotKey q seq) x } }

/-- Bytes a command record takes in the ring (R371). -/
def recLen (c : Cmd) : Nat := (64 + c.params.length + 63) / 64 * 64

/-- Bytes of the ring in use. -/
def ringUsed (s : State) : Nat := (s.jr.ring.filter (fun c => !c.quiet)).foldl (fun a c => a + recLen c) 0

/-- The record of a command (T13.4) with its CHECK. -/
def recordBytes (c : Cmd) : Bytes :=
  let hdr (chk : Nat) : Bytes :=
    natLe 4 chk ++ List.replicate 24 0 ++ natLe 8 c.tAccept ++ natLe 4 c.params.length
      ++ natLe 8 (fieldAt c.flags 4 16 + fieldAt c.port 1 20 + fieldAt c.tries 2 21
          + (if c.guarded then 2 ^ 23 else 0) + fieldAt c.ctx 8 24 + fieldAt c.opcode 16 32 + fieldAt c.queue 16 48)
      ++ natLe 8 c.seq ++ natLe 8 c.jidx
  hdr (crc32c (hdr 0 ++ c.params)) ++ c.params

/-- An outcome ledger slot as bytes (T13.5). -/
def slotBytes (x : Slot) : Bytes :=
  natLe 16 ((if x.applied then 2 else 1) * 2 ^ 126) ++ natLe 8 x.seq ++ natLe 8 x.jidx ++ byteSlice x.done 0 32

def ringFind (s : State) (jidx : Nat) : Option Cmd := s.jr.ring.find? (fun c => c.jidx = jidx)

/-- Change the record of one command. -/
def ringMod (jidx : Nat) (f : Cmd → Cmd) (s : State) : State :=
  { s with jr := { s.jr with ring := s.jr.ring.map (fun c => if c.jidx = jidx then f c else c) } }

/-- A SET_PARAM of JOURNAL_FLUSH that took effect. -/
def Cmd.setsFlush (c : Cmd) : Bool :=
  c.opcode = 0x102 && c.p 0 4 = 0x30 && c.done.any (fun e => fieldBytes e 8 2 = 0)

/-- The flush region forgets the journal once JOURNAL_FLUSH is over and no command accepted under it is left (R362, R363;
log 33). -/
def flushEnd (s : State) : State := if s.jr.flushing || s.jr.ring.any (·.flush) then s else { s with flushed := none }

/-- The record of an outcome is held and freed: a setting of JOURNAL_FLUSH is in force for the intake that follows its DONE
(R363). -/
def freeRecord (c : Cmd) (s : State) : State :=
  flushEnd { s with jr := { s.jr with ring := s.jr.ring.filter (fun d => d.jidx ≠ c.jidx)
                                      flushing := if c.setsFlush then decide (c.p 8 8 = 1) else s.jr.flushing } }

/-- The DONE of an activation with WHEN 1 has posted: its chip reset starts (R439). -/
def resetNow (j : Nat) (s : State) : State :=
  if s.trust.resetAfter = some j then
    { s with trust := { s.trust with resetAfter := none }, fc := { s.fc with rstChip := true, rstRods := [], rstParts := [] } }
  else s

/-- A record is held as T13.7 requires. Of an acceptance: ACCEPT posts with the journal index (R344,
R347). Of an outcome: the DONE entry posts and the record is freed (R373, R375). -/
def recordHeld (r : HoldRec) (s : State) : State :=
  match ringFind s r.jidx with
  | none => s
  | some c =>
    if r.applied then
      match c.done with
      | some e => resetNow r.jidx (post c.queue e true (freeRecord c s))
      | none => freeRecord c s
    else
      let s := ringMod r.jidx (fun c => { c with accepted := true }) s
      post c.queue (entryBytes c.seq stSuccess c.sqHead c.queue tAcceptEntry false (natLe 8 c.jidx))
        (bitOf c.flags 2) s

/-- Commit-guarded control commands (T13.3). -/
def control (op : Nat) : Bool :=
  [0x102, 0x104, 0x105, 0x200, 0x201, 0x202, 0x203, 0x204, 0x300, 0x301, 0x304, 0x305, 0x501, 0x502, 0x504,
   0x505, 0x704, 0x705, 0x801, 0x900].contains op

/-- Bytes that a record adds to the open journal stripe: a command record with its ledger slot, or a slot with the
state record of a control command (R376). -/
def stripeLen (s : State) (r : HoldRec) : Nat :=
  let c := (ringFind s r.jidx).getD {}
  if r.applied then 64 + (if control c.opcode then (Config.stateRecord r.jidx).length else 0) else 64 + recLen c

/-- The settings of T16.4 that a chip reset keeps, put back over those of a profile (R437); links and routes follow apart. -/
def takeSettings (c : Control) (s : State) : State :=
  { s with
    dev := { s.dev with powerLimit := c.powerLimit, journalFlush := c.journalFlush, scratch := c.scratch, wvLog2 := c.wvLog2, wvThresh := c.wvThresh }
    fc := { s.fc with sev := c.sev, window := c.window, escN := c.escN, escWindow := c.escWindow }
    parts := c.parts
    arbiters := c.arbiters
    stash := none }

/-- The state whose settings are the kept ones throughout: what they were where a start-up between steps 6 and 8 is cut off. -/
def unstash (s : State) : State :=
  match s.stash with
  | none => s
  | some c =>
    let s := takeSettings c s
    { s with
      dev := { s.dev with zlId := c.zlId, portEnable := c.portEnable, mirrorPorts := c.mirrorPorts }
      zl := { s.zl with peers := c.routes.map (fun kv => (kv.1, { route := kv.2 })) } }

/-- The control state with the journal and the ledger (T13.6), as the state stands. An object whose OBJ_REGISTER has not committed
is no part of it (R369). -/
def stateNow (s : State) : Control :=
  { powerLimit := s.dev.powerLimit, zlId := s.dev.zlId, portEnable := s.dev.portEnable, mirrorPorts := s.dev.mirrorPorts
    journalFlush := s.dev.journalFlush, scratch := s.dev.scratch, wvLog2 := s.dev.wvLog2, wvThresh := s.dev.wvThresh
    sev := s.fc.sev, window := s.fc.window, escN := s.fc.escN, escWindow := s.fc.escWindow, history := s.fc.history
    queues := s.host.queues, ring := s.jr.ring, next := s.jr.next, ledger := s.jr.ledger, parts := s.parts
    ctxs := s.ctxs, arbiters := s.arbiters
    objects := s.objects.filter (fun kv => !s.deep.jobs.any (fun j => j.fresh && j.object = kv.1))
    routes := (s.zl.peers.map (fun kv => (kv.1, kv.2.route))).filter (fun kv => kv.2 ≠ 0#64)
    groups := s.groups, pair := s.jr.pair, partner := s.jr.partner, serial := s.trust.serial }

/-- The control state that the device keeps. -/
def snapshot (s : State) : Control := stateNow (unstash s)

/-- Program a stripe of the journal flush region with `n` bytes; the region's 57,344 tiles are used in turn (T7.2, R376). -/
def flushStripe (n : Nat) (s : State) : State :=
  let i := s.deep.journalAt
  writeRegion 2 i (min 7 (max 1 ((n + 65535) / 65536))) { s with deep := { s.deep with journalAt := (i + 7) % 57344 } }

/-- A journal stripe is programmed: its records are held, and the region holds what they say (R376). -/
def commitJournal (s : State) : State :=
  let now := s.jr.stripe
  let s := flushStripe (now.foldl (fun n r => n + stripeLen s r) 0) s
  let s := { s with jr := { s.jr with waiting := s.jr.waiting.filter (fun r => !now.contains r), stripe := [] } }
  let s := now.foldl (fun s r => recordHeld r s) s
  if s.flushed.isSome then { s with flushed := some (snapshot s) } else s

/-- The partner's copy of this device's records is being kept (R375, R377). -/
def mirroring (s : State) : Bool := s.jr.pair = .bound || s.jr.copySent

/-- Send a record to the partner, with its state record where it is a control command's outcome (R369, R375). -/
def mirrorRecord (r : HoldRec) (control : Bool) (s : State) : State :=
  let c := (ringFind s r.jidx).getD {}
  let s := if control then sendMsg s.jr.partner { mtype := 0x21, cmd := r.jidx, run := 1, body := Config.stateRecord r.jidx } s else s
  let body := if r.applied then (match slotOf s c.queue c.seq with | some x => slotBytes x | none => []) else recordBytes c
  sendMsg s.jr.partner { mtype := 0x20, cmd := r.jidx, run := if r.applied then 1 else 0, body := body } s

/-- Make a record held under the configuration in force at its command's intake (R363, T13.7):
standalone at once; with JOURNAL_FLUSH when its stripe commits, which a full one does at once; in a bound pair when
the partner has it. `control` says that a state record goes with it (R369). -/
def holdRecord (r : HoldRec) (control : Bool) (s : State) : State :=
  let c := (ringFind s r.jidx).getD {}
  let s := if s.jr.pair = .lost then { s with jr := { s.jr with unmirrored := s.jr.unmirrored + 1 } } else s
  let s := if mirroring s then mirrorRecord r control s else s
  if c.mirror && s.jr.pair = .bound then { s with jr := { s.jr with waiting := s.jr.waiting ++ [r] } }
  else if c.flush then
    let s := { s with jr := { s.jr with waiting := s.jr.waiting ++ [r], stripe := s.jr.stripe ++ [r]
                                        stripeAt := if s.jr.stripe.isEmpty then s.clk.ltc else s.jr.stripeAt } }
    if 458752 ≤ s.jr.stripe.foldl (fun n r => n + stripeLen s r) 0 && flashRuns s then commitJournal s else s
  else recordHeld r s

/-- Last accepted sequence number of a queue (R372). -/
def lastAccepted (s : State) (q : Nat) : Nat := (qGet s q).e - 1

/-- Last applied (R372): every command up to it is applied. -/
def lastApplied (s : State) (q : Nat) : Nat :=
  (s.jr.ring.filter (fun c => c.queue = q && c.done.isNone && !c.quiet)).foldl
    (fun a c => min a (c.seq - 1)) (lastAccepted s q)

/-! ### Classes of commands (R348, R349, T13.3) -/

/-- Opcodes of Tables 12.8 to 12.14. -/
def opcodes : List Nat :=
  [0x100, 0x101, 0x102, 0x103, 0x104, 0x105, 0x200, 0x201, 0x202, 0x203, 0x204, 0x300, 0x301, 0x302, 0x303,
   0x304, 0x305, 0x400, 0x401, 0x500, 0x501, 0x502, 0x503, 0x504, 0x505, 0x600, 0x601, 0x602, 0x603, 0x604,
   0x605, 0x606, 0x607, 0x608, 0x700, 0x701, 0x702, 0x703, 0x704, 0x705, 0x800, 0x801, 0x802, 0x803, 0x900,
   0x901, 0x902]

/-- Admin-only opcodes (R349). -/
def adminOnly : List Nat :=
  [0x102, 0x104, 0x105, 0x200, 0x201, 0x203, 0x204, 0x305, 0x501, 0x700, 0x701, 0x704, 0x705, 0x800, 0x801, 0x900]

/-- Commands that run in Zenith one at a time in order of acceptance (R348). -/
def serial (op : Nat) : Bool :=
  op / 256 = 1 || op / 256 = 2 || op / 256 = 8 || op = 0x900

/-- COLL_RUN of kind GRAD (T11.3: KIND in bits [479:476]). -/
def isGradRun (op : Nat) (params : Bytes) : Bool := op = 0x503 && bitsOf (fieldBytes params 59 1) 7 4 = 4

/-- Commit-guarded (T13.3): control, training, a GRAD run, and a launch while the context's step is open. -/
def guarded (op : Nat) (params : Bytes) (stepOpen : Bool) : Bool :=
  control op || (0x600 ≤ op && op ≤ 0x605) || op = 0x607 || isGradRun op params
    || ((op = 0x400 || op = 0x401) && stepOpen)

def ctxGet (s : State) (c : Nat) : Ctx := mapGet {} s.ctxs c

def ctxSet (c : Nat) (x : Ctx) (s : State) : State := { s with ctxs := mapInsert s.ctxs c x }

/-- Change a context that exists. -/
def ctxMod (c : Nat) (f : Ctx → Ctx) (s : State) : State :=
  match mapFind s.ctxs c with
  | some x => ctxSet c (f x) s
  | none => s

def ctxExists (s : State) (c : Nat) : Bool := (mapFind s.ctxs c).isSome

/-! ### Intake (R340, R343, R345, R346, R373) -/

/-- Commands a retired device lets pass (R345). -/
def retiredPass (s : State) (op : Nat) (params : Bytes) : Bool :=
  [0x100, 0x101, 0x702, 0x703].contains op
    || (op = 0x705 && fieldBytes params 0 1 = 1 && s.trust.cycled)

/-- A DMA read of host memory got no completion. -/
def unread (s : State) (p a n : Nat) : Bool := s.host.deaf.any (fun q => q.1 = p && a ≤ q.2 && q.2 < a + n)

/-- The parameters of a submission entry, or none where PWC is above 14, or an extended block is misaligned, of bad length or
unreadable (R345). -/
def entryParams (s : State) (p : Nat) (e : Bytes) : Option Bytes :=
  let h := fieldBytes e 0 4
  let pwc := bitsOf h 31 24
  if 14 < pwc then none
  else if bitOf h 16 then
    let a := fieldBytes e 16 8
    let n := fieldBytes e 24 4
    if a % 64 ≠ 0 || n % 8 ≠ 0 || n < 8 || 81920 < n || unread s p a n then none
    else some (hostRead s p a n)
  else some (byteSlice e 16 (8 * pwc))

/-- Bytes past the parameters of an entry are not zero, or EXT comes with a PWC (R343). -/
def strayBytes (e : Bytes) : Bool :=
  let h := fieldBytes e 0 4
  let pwc := bitsOf h 31 24
  if bitOf h 16 then pwc ≠ 0 || !allZero (byteSlice e 28 100) else !allZero (byteSlice e (16 + 8 * pwc) (112 - 8 * pwc))

/-- Refuse an entry at intake: one DONE with INTAKE set; the number is not consumed (R345). -/
def intakeRefuse (q : Nat) (e : Bytes) (head status : Nat) (result : Bytes) (s : State) : State :=
  let p := qPort q (qGet s q)
  post q (entryBytes (fieldBytes e 8 8) status head q tDoneEntry true result) true (bumpHost p 1 s)

/-- The ring of 64 MiB has no room for a record with `len` bytes of parameters (R371, R373). -/
def ringFull (s : State) (len : Nat) : Bool := decide (67108864 < ringUsed s + (64 + len + 63) / 64 * 64)

/-- The slot of a queue's next number still holds an ACCEPTED command (R373). -/
def slotTaken (s : State) (q : Nat) : Bool :=
  match mapFind s.jr.ledger (slotKey q (qGet s q).e) with | some x => !x.applied | none => false

/-- Intake waits, and fetches nothing from any queue (R373). -/
def intakeWaits (s : State) : Bool := ringFull s s.host.need || s.host.queues.any (fun kv => slotTaken s kv.1)

/-- Each such wait is counted once, at the port where an entry met it. -/
def intakeWait (p need : Nat) (s : State) : State :=
  let s := if s.host.waiting then s else bumpHost p 2 s
  { s with host := { s.host with stalled := true, waiting := true, need := need } }

/-- The step of the command's context is open, as T13.3 needs it. -/
def stepOpenOf (s : State) (c : Nat) : Bool := (ctxGet s c).stepOpen

/-- What intake does with one fetched entry (R345, R346); `none` when it must wait (R373). -/
def intakeEntry (q : Nat) (e : Bytes) (head : Nat) (s : State) : Option State :=
  let x := qGet s q
  let p := qPort q x
  let h := fieldBytes e 0 4
  let op := h % 65536
  let ctx := fieldBytes e 4 2
  let seq := fieldBytes e 8 8
  let prm := entryParams s p e
  if !s.dev.ready then some (intakeRefuse q e head stNotReady [] s)
  else if s.dev.retired && !retiredPass s op (prm.getD []) then some (intakeRefuse q e head stRetired [] s)
  else if fieldBytes e 6 2 ≠ q || bitsOf h 23 20 ≠ 0 || 256 ≤ ctx || prm.isNone then
    some (intakeRefuse q e head stParam [] s)
  else if !opcodes.contains op || (adminOnly.contains op && q ≠ 0 && q ≠ 256) then
    some (intakeRefuse q e head stOpcode [] s)
  else if seq = x.e then
    let params := prm.getD []
    if ringFull s params.length || slotTaken s q then none else
      let g := guarded op params (stepOpenOf s ctx)
      let c : Cmd := { jidx := s.jr.next, seq := seq, queue := q, opcode := op, ctx := ctx, guarded := g,
                       port := p, flags := bitsOf h 19 16, tAccept := s.clk.ltc, params := params, sqHead := head, stray := strayBytes e,
                       mirror := decide (s.jr.pair = .bound), flush := s.jr.flushing }
      let s := bumpHost p 3 (qSet q { x with e := x.e + 1 } s)
      let s := { s with jr := { s.jr with ring := s.jr.ring ++ [c], next := s.jr.next + 1 } }
      let s := setSlot q seq { jidx := c.jidx, seq := seq } s
      some (holdRecord { jidx := c.jidx, applied := false } false s)
  else if 1 ≤ seq && seq < x.e && x.e ≤ seq + 4096 then
    match slotOf s q seq with
    | none => some (intakeRefuse q e head stOrder (natLe 8 x.e) s)
    | some t =>
      let s := post q (entryBytes seq stDuplicate head q tAcceptEntry false (natLe 8 t.jidx)) (bitOf h 18) s
      some (if t.applied && (ringFind s t.jidx).isNone then post q t.done true s else s)
  else some (intakeRefuse q e head stOrder (natLe 8 x.e) s)

/-- Fetch pending entries of a queue in ring order, at most `n` (R340). While PD_ON stalls they stay in the ring (R32,
R40). -/
def fetchLoop (q : Nat) : Nat → State → State
  | 0, s => s
  | n + 1, s =>
    let x := qGet s q
    let p := qPort q x
    if !x.enabled || !linkUp s p || s.dev.safe || x.sqHead = x.sqTail then s
    else if !zenithRuns s then { s with host := { s.host with stalled := true } }
    else if cqFull x || !x.held.isEmpty then { s with host := { s.host with stalled := true } }
    else if intakeWaits s then intakeWait p s.host.need s
    else
      let s := { s with host := { s.host with waiting := false, need := 0 } }
      let e := hostRead s p (x.sqBase + 128 * x.sqHead) 128
      let head := (x.sqHead + 1) % 2 ^ x.sqLog2
      match intakeEntry q e head (qSet q { x with sqHead := head } s) with
      | some t => fetchLoop q n t
      | none => intakeWait p ((entryParams s p e).getD []).length s

/-- Fetch everything a queue has pending. -/
def fetchQueue (q : Nat) (s : State) : State := fetchLoop q 65536 s

/-- Where intake had to wait, it goes on with every queue once a record is freed or a ring has room. -/
def resumeIntake (s : State) : State :=
  if s.host.stalled && zenithRuns s then
    let s := { s with host := { s.host with stalled := false } }
    (s.host.queues.map (·.1)).foldl (fun s q => fetchQueue q s) s
  else s

/-- The waiting records that `p` names are held, in journal order. -/
def holdWhere (p : HoldRec → Bool) (s : State) : State :=
  let now := s.jr.waiting.filter p
  let s := { s with jr := { s.jr with waiting := s.jr.waiting.filter (fun r => !p r),
                                      stripe := s.jr.stripe.filter (fun r => !p r) } }
  resumeIntake (now.foldl (fun s r => recordHeld r s) s)

/-! ### Starting and ending a command (R348, R350, R354) -/

/-- An earlier command of the queue has its DONE held in the queue, not posted (R339). -/
def doneHeld (x : Queue) (seq : Nat) : Bool :=
  x.held.any (fun e => isDone e.1 && fieldBytes e.1 14 2 / 8 % 2 = 0 && decide (fieldBytes e.1 0 8 < seq))

/-- Commands that reach context memory: objects and tiers, launches, COLL_RUN, training. -/
def usesMemory (op : Nat) : Bool := op / 256 = 3 || op / 256 = 4 || op = 0x503 || op / 256 = 6

/-- Every earlier command of the queue has started; with FENCE, has posted DONE (R348). A serial command
waits for the serial commands accepted before it, but not for a PAIR_BIND that waits (R377). A
commit-guarded command waits for its ACCEPT (R368). Nothing starts in safe state (R397), before READY,
or for a context whose partition is under reset (R412; CTX_CREATE names no context yet, R24), or while PD_ON stalls
(R458), or before the DONE of an earlier SNAPSHOT of its context, but for a CTX_RESET or CTX_DESTROY (R254, log 82). A command
that reaches memory waits while the core there stalls (R40; log 86). A replay starts its control commands first, in
journal order, and these wait for no other (R383). -/
def mayStart (s : State) (c : Cmd) : Bool :=
  let now (d : Cmd) : Bool := d.done.isSome || d.waitFrom.isSome
  let firsts := s.jr.first.contains c.jidx
  s.dev.ready && !s.dev.safe && zenithRuns s && (c.accepted || !c.guarded)
    && !s.fc.rstChip && (c.ctx = 0 || c.opcode = 0x200 || !s.fc.rstParts.contains (ctxGet s c.ctx).part) && !s.jr.due.contains c.jidx
    && (!usesMemory c.opcode || (hbmRuns s && coreRuns s))
    && (firsts || (s.jr.ring.all (fun d => d.queue ≠ c.queue || c.seq ≤ d.seq
          || (if bitOf c.flags 1 then false else d.started || d.waitFrom.isSome))
          && !(bitOf c.flags 1 && doneHeld (qGet s c.queue) c.seq)))
    && s.jr.ring.all (fun d => !s.jr.first.contains d.jidx || d.jidx = c.jidx || now d || (firsts && c.jidx < d.jidx))
    && (firsts || c.ctx = 0 || c.opcode = 0x201 || c.opcode = 0x202
          || s.jr.ring.all (fun d => d.opcode ≠ 0x604 || d.ctx ≠ c.ctx || c.jidx ≤ d.jidx || d.done.isSome || d.quiet))
    && (!serial c.opcode || s.jr.ring.all (fun d => !serial d.opcode || c.jidx ≤ d.jidx || now d
          || (firsts && !s.jr.first.contains d.jidx)))

/-- The command of queue `q` with number `seq` and opcode `op`, accepted by intake and ready to start. -/
def startable (s : State) (q seq op : Nat) : Option Cmd :=
  match s.jr.ring.find? (fun c => c.queue = q && c.seq = seq && c.opcode = op && !c.started && c.done.isNone) with
  | some c => if mayStart s c then some c else none
  | none => none

/-- End a command with its status and its result bytes: the ledger slot becomes APPLIED with the DONE
entry (R372), which posts once the record is held (R375). A launch that runs again has posted its DONE
already (R370). -/
def finish (c : Cmd) (status : Nat) (result : Bytes) (s : State) : State :=
  if c.quiet then { s with jr := { s.jr with ring := s.jr.ring.filter (fun d => d.jidx ≠ c.jidx) } }
  else
    let e := entryBytes c.seq status c.sqHead c.queue tDoneEntry false result
    let s := setSlot c.queue c.seq { applied := true, jidx := c.jidx, seq := c.seq, done := e } s
    let s := ringMod c.jidx (fun d => { d with started := true, waitFrom := none, done := some e }) s
    resumeIntake (holdRecord { jidx := c.jidx, applied := true } (control c.opcode) s)

/-- End a command without effect. -/
def refuse (c : Cmd) (status : Nat) (s : State) : State := finish c status [] s

/-- Mark a command started whose DONE comes later. -/
def begun (c : Cmd) (s : State) : State := ringMod c.jidx (fun d => { d with started := true }) s

/-- End the command whose journal index is `j`, if it is still open. -/
def finishJ (j status : Nat) (result : Bytes) (s : State) : State :=
  match ringFind s j with
  | some c => if c.done.isNone then finish c status result s else s
  | none => s

/-- The command says that its parameters stand in an extended block (R342). -/
def Cmd.ext (c : Cmd) : Bool := bitOf c.flags 0

/-- Bytes 24 to 31 of a launch element: PER_ROD, and nothing else (T12.11). -/
def elemZeros (c : Cmd) (b : Nat) : Bool := bitsOf (c.p (b + 24) 1) 7 1 = 0 && allZero (c.bytes (b + 25) 7)

/-- Parameter rules of a row beyond the bytes it names: EXT where its row asks for it (R343), and zeros in the reserved
bits of its elements and past the last of them (R8). -/
def Cmd.layoutOk (c : Cmd) : Bool :=
  let past (n : Nat) : Bool := allZero (c.params.drop n)
  let n := c.p 2 2
  if c.opcode = 0x304 then c.ext && past (16 + 16 * n)
  else if c.opcode = 0x400 then elemZeros c 0
  else if c.opcode = 0x401 then
    c.ext && (List.range (c.p 0 2)).all (fun i => elemZeros c (32 + 32 * i)) && past (32 + 32 * c.p 0 2)
  else if c.opcode = 0x501 then (n ≤ 12 || c.ext) && past (16 + 8 * n)
  else if c.opcode = 0x502 then c.p 0 1 ≠ 0 || c.ext
  else if c.opcode = 0x600 then !c.bit 0 0 || c.ext
  else true

/-- The command reads or writes host memory on the port it came by: pages over 16 bytes of GET_INFO, a queue's GET_PARAM, a COPY with
a host side, PEER_DISCOVER, an EXPORT_SHARD to the host, a digest list, READ_COUNTERS, FAULT_READ, FW_STAGE, ATTEST, CERT_READ and the
RESUME_POINT of all queues (T12.8 to T12.14, T12.17). -/
def Cmd.needsHost (c : Cmd) : Bool :=
  let o := c.opcode
  (o = 0x101 && [1, 4, 5, 6].contains (c.p 0 2)) || (o = 0x103 && c.p 0 4 = 1) || (o = 0x303 && c.p 24 1 % 4 ≠ 0)
    || (o = 0x606 && c.p 0 1 = 0) || (o = 0x608 && c.bit 0 0) || (o = 0x902 && c.p 0 2 = 0xFFFF)
    || [0x500, 0x702, 0x703, 0x800, 0x802, 0x803].contains o

/-- Run a host command: where `(q, seq)` names an accepted command with the opcode that may start, check
its context and its parameters' layout (R8, R343, R350), then run `body`; otherwise nothing happens. A
command that acts on no context carries CONTEXT 0. A lost host comes before any refusal (R354, R360). -/
def runCmd (s : State) (q seq op : Nat) (onCtx : Bool) (named : List (Nat × Nat))
    (body : Cmd → State → State) : State :=
  match startable s q seq op with
  | none => s
  | some c =>
    if c.needsHost && !linkUp s c.port then refuse c stPeerLost s
    else if c.stray || !c.rest0 named || !c.layoutOk || (if onCtx then !ctxExists s c.ctx else c.ctx ≠ 0) then refuse c stParam s
    else body c s

/-- As `runCmd`, for a row that is one sub-operation of its opcode: `pick` says whether the command is
this row's. -/
def runSub (s : State) (q seq op : Nat) (pick : Cmd → Bool) (onCtx : Bool) (named : List (Nat × Nat))
    (body : Cmd → State → State) : State :=
  match startable s q seq op with
  | none => s
  | some c => if pick c then runCmd s q seq op onCtx named body else s

/-- A command that needs host memory on a port whose link is lost completes with PEER_LOST (R360). -/
def withHost (c : Cmd) (s : State) (k : State → State) : State :=
  if linkUp s c.port then k s else refuse c stPeerLost s

/-! ### Values the spec leaves open -/

/-- The next value the spec leaves open, and the state with the counter advanced (log 1). -/
def drawFree (s : State) : Nat × State := (Config.freeValue s.free, { s with free := s.free + 1 })

end Sys2Proof.Machine
end

