-- ==== Sys2Proof/Machine/Units.lean ====
section
/-!
DEFINITION. What the units of a rod share: access to the rod store, element formats and conversions
(spec/05_numerics.md R113 to R126), numeric events and their records (R127 to R133), flights of
descriptors (R74 to R77) and halts (R112).
-/

namespace Sys2Proof.Machine

/-! ### Rods, strata, weathervanes -/

def rodGet (s : State) (n : Nat) : Rod := mapGet {} s.rods n

def rodSet (n : Nat) (x : Rod) (s : State) : State := { s with rods := mapSet {} s.rods n x }

def rodMod (n : Nat) (f : Rod → Rod) (s : State) : State := rodSet n (f (rodGet s n)) s

/-- Change the program a rod runs. -/
def runMod (n : Nat) (f : Run → Run) (s : State) : State :=
  rodMod n (fun x => { x with run := x.run.map f }) s

def stratumGet (s : State) (k : Nat) : Stratum := mapGet {} s.strata k

def stratumMod (k : Nat) (f : Stratum → Stratum) (s : State) : State :=
  { s with strata := mapMod {} s.strata k f }

def wvGet (s : State) (f : Nat) : Weathervane := mapGet {} s.wvs f

def wvMod (f : Nat) (g : Weathervane → Weathervane) (s : State) : State :=
  { s with wvs := mapMod {} s.wvs f g }

/-- Partition that owns a rod (R15). -/
def rodPart (s : State) (n : Nat) : Nat := mapGet 0 s.parts.rod n

/-! ### The rod store -/

/-- Bytes of a rod store: addresses below 0x30_0000 (R80). -/
def rsSize : Nat := 0x300000

/-- Device physical address of byte 0 of rod `n`'s store (T6.1). -/
def rsBase (n : Nat) : Nat := 0x8100000000 + n * 0x400000

/-- A rod after a clear: counters of T5.5, the drain count and the corrected errors stay (R121, R135). -/
def Rod.cleared (x : Rod) : Rod := { num := x.num, drains := x.drains, corr := x.corr, ticks := x.ticks }

/-- The beam port whose request waits at a crossing. -/
def waitsFor : Instr → Option Nat
  | .hbmRead req .. => some req
  | .hbmWrite req .. => some req
  | .csRequest req .. => some req
  | .rsWindowAccess req .. => some req
  | _ => none

/-- Rod `n` waits for no page any more. -/
def unwaitRod (n : Nat) (s : State) : State :=
  { s with deep := { s.deep with moves := s.deep.moves.map (fun m => { m with rods := m.rods.filter (· ≠ n) }) } }

/-- Clear a rod and its store; launches of other programs stay queued, and its requests that wait at a crossing go
(R40). -/
def wipeRod (n : Nat) (queue : List Launch) (s : State) : State :=
  unwaitRod n <| rodSet n { (rodGet s n).cleared with queue := queue }
    { s with mem := memZero s.mem (rsBase n) rsSize, crossing := s.crossing.filter (fun i => waitsFor i ≠ some n) }

/-- Programs on a rod: the one that runs and those queued for it (R73). -/
def onRod (s : State) (n : Nat) : List Launch :=
  let x := rodGet s n
  (match x.run with | some r => [r.l] | none => []) ++ x.queue
    ++ ((stratumGet s (rodPart s n)).more.filter (fun q => q.1 = n)).map (·.2)

/-- Bit of the domain of a rod's group in `Supply.domains` (T17.4). -/
def groupBit (n : Nat) : Nat := 2 + n / 4

/-- No program is on the rod, running or waiting. -/
def rodFree (s : State) (n : Nat) : Bool := (onRod s n).isEmpty

/-- Rod groups that R454 has switched off: all four rods in P0 and no program on them, and for a G0 no rod of the
frame outside P0 or with a program. -/
def groupIdle (s : State) (g : Nat) : Bool :=
  (List.range 4).all (fun i => rodPart s (4 * g + i) = 0 && rodFree s (4 * g + i))
    && (g % 4 ≠ 0 || (List.range 16).all (fun i => rodPart s (4 * g + i) = 0 && rodFree s (4 * g + i)))

/-- Zenith switches off the rod groups that R454 names. What their rods hold stays for a later program of the same
context in P0 (R69, R165). Log 57. -/
def groupsOff (s : State) : State :=
  { s with sup := { s.sup with
      domains := s.sup.domains &&& ~~~(BitVec.ofNat 30 (listMask (((List.range 16).filter (groupIdle s)).map (2 + ·)))) } }

/-- A rod's group, and the G0 of its frame, are on while it has a program (R454). -/
def groupsOn (n : Nat) (s : State) : State :=
  { s with sup := { s.sup with domains := s.sup.domains ||| BitVec.ofNat 30 (2 ^ groupBit n) ||| BitVec.ofNat 30 (2 ^ groupBit (n / 16 * 16)) } }

/-- Power up a rod group for a claim, if it is off: its rods are as after a clear, and the weathervane of a G0 starts with
its histograms at 0 (R454). -/
def powerGroup (g : Nat) (s : State) : State :=
  if s.sup.domains.getLsbD (2 + g) then s
  else
    let s := { s with sup := { s.sup with domains := s.sup.domains ||| BitVec.ofNat 30 (2 ^ (2 + g)) } }
    let s := (List.range 4).foldl (fun s i => wipeRod (4 * g + i) (rodGet s (4 * g + i)).queue s) s
    if g % 4 = 0 then { s with wvs := mapErase s.wvs (g / 4) } else s

/-- The groups that a claim of a rod needs on: its own and the G0 of its frame (R454). -/
def powerRod (n : Nat) (s : State) : State := powerGroup (n / 16 * 4) (powerGroup (n / 4) s)

def rsRead (s : State) (n a len : Nat) : Bytes := memRead s.mem (rsBase n + a) len

def rsWrite (n a : Nat) (bs : Bytes) (s : State) : State := { s with mem := memWrite s.mem (rsBase n + a) bs }

/-- A word of four bytes of the rod store. -/
def rsWord (s : State) (n a : Nat) : Nat := leNat (rsRead s n a 4)

/-- The range of `len` bytes from `a` lies inside the rod store. -/
def inRs (a len : Nat) : Bool := a + len ≤ rsSize

/-! ### Element formats (T4.3, T5.1) -/

/-- Bytes of an element: 0 FP16, 1 FP32, 2 FP16-B, 3 M8, 4 U8, 5 INT32, 6 INT16. -/
def fmtBytes (f : Nat) : Nat := if f = 1 || f = 5 then 4 else if f = 3 || f = 4 then 1 else 2

/-- Block-scaled formats. -/
def fmtBlock (f : Nat) : Bool := f = 2 || f = 3 || f = 4

/-- Integer formats. -/
def fmtInt (f : Nat) : Bool := f = 5 || f = 6

/-- Accepted conversion pairs (T5.3). -/
def pairOk (src dst : Nat) : Bool :=
  if 6 < src || 6 < dst then false
  else if fmtBlock src && fmtInt dst then false
  else if fmtInt src && fmtBlock dst then false
  else !((src = 3 && dst = 4) || (src = 4 && dst = 3))

/-- The conversion is narrowing (R116). -/
def narrowing (src dst : Nat) : Bool :=
  (src ≠ dst && (dst = 0 || fmtBlock dst)) || (src = 5 && dst = 1)

/-- The exact value of an element with its block scale; the flag says that a subnormal was flushed (R118). -/
def decElem (f : Nat) (w : Nat) (scale : Int) : Val × Bool :=
  if f = 0 then let r := flush16 (BitVec.ofNat 16 w); (dec16 r.1, r.2)
  else if f = 1 then let r := flush32 (BitVec.ofNat 32 w); (dec32 r.1, r.2)
  else if f = 2 then let r := flush16 (BitVec.ofNat 16 w); (vscale scale (dec16 r.1), r.2)
  else if f = 3 then (vscale scale (decM8 (BitVec.ofNat 8 w)), false)
  else if f = 4 then (vscale scale (decU8 (BitVec.ofNat 8 w)), false)
  else if f = 5 then (ofInt (sgn 32 w) 0 false, false)
  else (ofInt (sgn 16 w) 0 false, false)

/-- Encode a value in a format, a block format at scale `scale`, with draw `r` (R118, R122). -/
def encElem (f : Nat) (scale : Int) (r : Nat) (v : Val) : Conv :=
  if f = 0 then enc16 r v
  else if f = 1 then enc32 r v
  else if f = 2 then enc16 r (vscale (-scale) v)
  else if f = 3 then encNarrow nfM8 (some 7) false r (vscale (-scale) v)
  else if f = 4 then encNarrow nfU8 none false r (vscale (-scale) v)
  else if f = 5 then encInt 32 v
  else encInt 16 v

/-- The narrow format of a block-scaled target (R119). -/
def blockFmt (f : Nat) : NFmt := if f = 3 then nfM8 else if f = 4 then nfU8 else nf16

/-- The exact value as FP32 bits for a record's FIRST_VALUE (T5.10). -/
def recordValue (v : Val) : BitVec 32 :=
  let r := trunc32 v
  if r.ovf then inf32 (vsign v) else r.bits

/-! ### Events of one descriptor (R127, R133) -/

/-- What a descriptor's conversions have raised so far: counts for T5.5 by index, and events by kind. -/
structure Tally where
  inFlush : Nat := 0
  outFlush : Nat := 0
  range : Nat := 0
  nanZero : Nat := 0
  scaleUnder : Nat := 0
  scaleInvalid : Nat := 0
  indexRange : Nat := 0
  evs : List NumEv := []
deriving DecidableEq, Repr

/-- Record kinds (T5.11). -/
def kRange : Nat := 0x01
def kScaleOvf : Nat := 0x02
def kFp32Ovf : Nat := 0x03
def kNanZero : Nat := 0x04
def kScaleInvalid : Nat := 0x05
def kReplayRun : Nat := 0x06
def kDrift : Nat := 0x07

/-- Severity of a record kind (T5.11). -/
def kindSev (k : Nat) : Nat :=
  if k = kFp32Ovf then 3 else if k = kRange || k = kScaleOvf then 1 else if k = kReplayRun then 0 else 2

/-- One more event of a kind: the first keeps its index and value. -/
def addEv (k idx : Nat) (v : BitVec 32) : List NumEv → List NumEv
  | [] => [{ kind := k, count := 1, first := idx, value := v }]
  | e :: l => if e.kind = k then { e with count := satAdd 32 e.count 1 } :: l else e :: addEv k idx v l

/-- Note one event. -/
def Tally.ev (t : Tally) (k idx : Nat) (v : BitVec 32) : Tally := { t with evs := addEv k idx v t.evs }

/-- An FP32 result with the notes of its saturation and its flush (R49, R131). -/
def noteR32 (idx : Nat) (r : R32) (t : Tally) : BitVec 32 × Tally :=
  let t := if r.udf then { t with outFlush := t.outFlush + 1 } else t
  (r.bits, if r.ovf then t.ev kFp32Ovf idx (inf32 (r.bits.getLsbD 31)) else t)

/-- Note what converting element `idx` of exact value `v` raised. -/
def Tally.conv (t : Tally) (idx : Nat) (v : Val) (c : Conv) : Tally :=
  let t := if c.outFlush then { t with outFlush := t.outFlush + 1 } else t
  let t := if c.range then { t.ev kRange idx (recordValue v) with range := t.range + 1 } else t
  if c.nanZero then { t.ev kNanZero idx nan32 with nanZero := t.nanZero + 1 } else t

/-- Note a source element flushed on decode. -/
def Tally.fl (t : Tally) (b : Bool) : Tally := if b then { t with inFlush := t.inFlush + 1 } else t

/-- A scale byte read: its value, and the note of one outside −64 to 63 (R114). -/
def Tally.scale (t : Tally) (idx : Nat) (b : Byte) : Int × Tally :=
  let r := scaleOf b
  (r.1, if r.2 then { t.ev kScaleInvalid idx (ofInt32Trunc b.toInt) with scaleInvalid := t.scaleInvalid + 1 } else t)

/-- Convert a run of values: element `i` of the run is element `base + i` of the descriptor and takes draw
`d + i` when `draws` says the conversion is narrowing. A block target gives a scale byte for each 32
elements (R119). The results are the patterns, the scale bytes and the notes. -/
def convRun (f : Nat) (draws : Bool) (key : BitVec 64) (d base : Nat) (vs : List Val) (t : Tally) :
    List Nat × Bytes × Tally :=
  let scaleAt (i : Nat) : Int := blockScale (blockFmt f) ((vs.drop (i / 32 * 32)).take 32)
  let scales : List Int := if fmtBlock f then (List.range ((vs.length + 31) / 32)).map (fun b => scaleAt (32 * b)) else []
  let step (acc : Nat × List Nat × Tally) (v : Val) : Nat × List Nat × Tally :=
    let i := acc.1
    let r := if draws then draw key (d + i) else 65535
    let c := encElem f (scales.getD (i / 32) 0) r v
    (i + 1, c.bits :: acc.2.1, acc.2.2.conv (base + i) v c)
  let r := vs.foldl step (0, [], t)
  (r.2.1.reverse, scales.map (fun x => BitVec.ofInt 8 x), r.2.2)

/-- Key of a rod's stream (T5.6). -/
def rodKey (s : State) (n : Nat) (l : Launch) : BitVec 64 :=
  mix ((ctxGet s l.ctx).seed ^^^ BitVec.ofNat 64 (l.number * 256) ^^^ BitVec.ofNat 64 n)

/-! ### Numeric event records (R131 to R133) -/

/-- A numeric event record (T5.10). -/
def numRecord (s : State) (step layer tag ctx unit : Nat) (second : Bool) (e : NumEv) : BitVec 256 :=
  BitVec.ofNat 256 (fieldAt s.clk.ltc 64 192 + fieldAt step 32 160 + fieldAt e.count 32 128
    + fieldAt layer 16 112 + fieldAt tag 16 96 + fieldAt ctx 8 88 + fieldAt unit 8 80 + fieldAt e.kind 6 74
    + fieldAt (kindSev e.kind) 2 72 + (if second then 2 ^ 71 else 0) + (if e.marked then 2 ^ 70 else 0)
    + fieldAt e.first 32 32 + e.value.toNat)

/-- Write a record into a partition's log: a full ring of 16,384 overwrites its oldest (R132). -/
def logRecord (part : Nat) (r : BitVec 256) (s : State) : State :=
  stratumMod part (fun x =>
    let y := ringPush 16384 x.log r
    { x with log := y.1, lost := x.lost + y.2 }) s

/-- The context's step number, or 0xFFFF_FFFF outside a training step (T5.10). -/
def stepField (s : State) (ctx : Nat) : Nat := ((ctxGet s ctx).step).getD 0xFFFFFFFF

/-- Log the events of a unit's descriptor; a HIGH record also sends NUMERIC_SEVERE (R131). -/
def logEvents (part layer tag ctx unit : Nat) (second : Bool) (evs : List NumEv) (s : State) : State :=
  evs.foldl (fun s e =>
    let s := logRecord part (numRecord s (stepField s ctx) layer tag ctx unit second e) s
    if kindSev e.kind = 3 then raise (srcSevere + unit) 0 (fieldAt ctx 8 16 + tag % 65536) s else s) s

/-- Advance a rod's counters of T5.5 (48 bits, saturating). -/
def addNum (m : FMap Nat) (t : Tally) : FMap Nat :=
  let up (i n : Nat) (m : FMap Nat) : FMap Nat := if n = 0 then m else mapMod 0 m i (satAdd 48 · n)
  up 0 t.inFlush (up 1 t.outFlush (up 2 t.range (up 3 t.nanZero
    (up 4 t.scaleUnder (up 5 t.scaleInvalid (up 6 t.indexRange m))))))

/-! ### Descriptors -/

/-- Bits [hi:lo] of a descriptor. -/
def fld (w : BitVec 256) (hi lo : Nat) : Nat := bitsOf w.toNat hi lo

def opOf (w : BitVec 256) : Nat := fld w 7 0

def tagOf (w : BitVec 256) : Nat := fld w 31 16

/-- Units of T4.1: 0 MOVE, 1 INDEX, 2 ARRAY, 3 VECTOR, 4 the sequencer; a bank load goes to ARRAY. -/
def unitOf (w : BitVec 256) : Nat :=
  let o := opOf w
  if o = 0x01 then (if fld w 32 32 = 1 then 2 else 0)
  else if o = 0x03 || o = 0x04 || o = 0x05 then 0
  else if o = 0x02 || (0x08 ≤ o && o ≤ 0x0B) then 2
  else if o = 0x10 then 3
  else if 0x11 ≤ o && o ≤ 0x14 then 1
  else 4

def Run.unit (r : Run) (u : Nat) : List Flight :=
  if u = 0 then r.move else if u = 1 then r.index else if u = 2 then r.array else if u = 3 then r.vector else []

def Run.setUnit (r : Run) (u : Nat) (l : List Flight) : Run :=
  if u = 0 then { r with move := l } else if u = 1 then { r with index := l }
  else if u = 2 then { r with array := l } else if u = 3 then { r with vector := l } else r

/-- Every descriptor issued earlier to each unit the AFTER mask names has completed (R75). -/
def afterOk (r : Run) (f : Flight) : Bool :=
  (List.range 4).all (fun u => fld f.word (8 + u) (8 + u) = 0 || (r.unit u).all (fun g => f.n ≤ g.n))

/-- No unit has a descriptor in progress. -/
def Run.idle (r : Run) : Bool := r.move.isEmpty && r.index.isEmpty && r.array.isEmpty && r.vector.isEmpty

/-- Opcodes whose conversions may take draws (R124). -/
def mayDraw (w : BitVec 256) : Bool :=
  let o := opOf w
  (o = 0x01 && fld w 32 32 = 0) || o = 0x03 || o = 0x04 || o = 0x05 || o = 0x0A || o = 0x10 || o = 0x11

/-- The next descriptor of a unit may start now: the units start theirs in program order; MOVE has at
most four in progress and VECTOR and INDEX one (R74); the AFTER mask holds (R75); and a descriptor that
takes draws starts after those issued before it that do, so that the draws fall in issue order (R124). -/
def startOf (r : Run) (u : Nat) : Option Flight :=
  let l := r.unit u
  match l.find? (fun f => !f.performed) with
  | none => none
  | some f =>
    let going := (l.filter (·.performed)).length
    let room := if u = 0 then decide (going < 4) else if u = 2 then true else decide (going = 0)
    let order := !mayDraw f.word || (List.range 4).all (fun v => (r.unit v).all (fun g =>
      f.n ≤ g.n || g.performed || !mayDraw g.word))
    if room && afterOk r f && order then some f else none

/-- Mark a flight performed with the events it raised. -/
def performed (u : Nat) (f : Flight) (evs : List NumEv) (r : Run) : Run :=
  r.setUnit u ((r.unit u).map (fun g => if g.n = f.n then { g with performed := true, evs := evs } else g))

/-- Reasons of T4.17. -/
def hIllegal : Nat := 1
def hTranslation : Nat := 2
def hUnavailable : Nat := 3
def hOwnership : Nat := 4
def hReduce : Nat := 5
def hBracket : Nat := 6
def hRange : Nat := 7

/-- Halt the program of a rod (R112): nothing further is issued, descriptors not started and held
SIGNALs are discarded, and the halting descriptor ends unfinished; for four reasons a fault message of ROD_PROGRAM goes out
(R389). A descriptor that fails after the halt ends unfinished too. -/
def haltRod (n reason va : Nat) (w : BitVec 256) (s : State) : State :=
  match (rodGet s n).run with
  | none => s
  | some r =>
    if r.halt.isSome then
      runMod n (fun r => { r with move := r.move.filter (fun f => f.performed || f.va ≠ va) }) s
    else
      let keep := fun (l : List Flight) => l.filter (fun f => f.performed || (f.started && f.va ≠ va))
      let r := { r with halt := some (reason, va, w), buf := [], ctl := none, waiting := none, arrived := false
                        move := keep r.move, index := keep r.index, array := keep r.array,
                        vector := keep r.vector
                        bracket := r.bracket.map (fun b => { b with held := [] }) }
      let s := rodMod n (fun x => { x with run := some r }) s
      let k := if reason = hIllegal then some 1 else if reason = hTranslation then some 2
        else if reason = hUnavailable then some 3 else if reason = hRange then some 4 else none
      match k with
      | some k => raise (srcRodProgram + n) k va s
      | none => s

/-- The descriptor at which a rod's request fails: the first MOVE descriptor not performed, else the next fetch, whose word
the model takes as 0 (log 80). -/
def Run.site (r : Run) : Nat × BitVec 256 :=
  match r.move.find? (fun f => !f.performed) with
  | some f => (f.va, f.word)
  | none => (r.next, 0#256)

/-- A descriptor reads a word of the rod store that holds an error (R166): a corrected one is counted and the descriptor
goes on, an uncorrectable one halts the program. -/
def withUpset (n : Nat) (f : Flight) (e : Option Upset) (k : State → State) (s : State) : State :=
  match e with
  | none => k s
  | some u =>
    if u.fixed then k (rodMod n (fun x => { x with corr := x.corr + 1 }) s)
    else haltRod n hUnavailable f.va f.word (raise (srcRsUe + n) 0 u.addr s)

/-- A descriptor has started and waits for a page (R112, R153). -/
def startFlight (n u : Nat) (f : Flight) (s : State) : State :=
  runMod n (fun r => r.setUnit u ((r.unit u).map (fun g => if g.n = f.n then { g with started := true } else g))) s

/-- Run the next descriptor of opcode `op` of a unit of rod `n`, if it may start; `e` is an error of the rod store that it
reads. The body gets the program and the flight; nothing happens in safe state or a stall, or where there is none. Under a
halt only a descriptor that had started runs (R112). The move unit waits with the beam while HBM takes no request (R468). -/
def onUnit (s : State) (n u op : Nat) (e : Option Upset) (body : Run → Flight → State → State) : State :=
  if coreHalted s || (u = 0 && hbmHalted s) then s else
    match (rodGet s n).run with
    | none => s
    | some r =>
      match startOf r u with
      | some f => if opOf f.word = op && (r.halt.isNone || f.started) then withUpset n f e (body r f) s else s
      | none => s

/-- An event that marks a bracket (R127). -/
def NumEv.marks (e : NumEv) : Bool := e.kind = kRange || e.kind = kScaleOvf

/-- The record whose first event marked the bracket: that of the range event first in element order (R133). -/
def markFirst (l : List NumEv) : List NumEv :=
  match (l.filter NumEv.marks).map (·.first) with
  | [] => l
  | i :: is =>
    let m := is.foldl min i
    l.map (fun e => if e.marks && e.first = m then { e with marked := true } else e)

/-- A descriptor took effect: the rod's counters, the events for its record, and the mark of the bracket in which it was
issued when `marks` names events of an FP16 or FP16-B output (R103, R127). -/
def settle (n u : Nat) (f : Flight) (t : Tally) (marks : Bool) (draws : Nat) (s : State) : State :=
  rodMod n (fun x =>
    { x with
      num := addNum x.num t
      run := x.run.map (fun r =>
        let hit := marks && t.evs.any NumEv.marks
        let fresh := match r.bracket with
          | some b => hit && b.replay && !b.second && !b.marked && f.brk = some b.id
          | none => false
        let evs := if fresh then markFirst t.evs else t.evs
        let r := performed u f evs r
        { r with draws := r.draws + draws
                 bracket := r.bracket.map (fun b => if fresh then { b with marked := true } else b) }) }) s

/-! ### Replay pass (R128, R129) -/

/-- The program is in the replay pass of a bracket. -/
def Run.replaying (r : Run) : Bool := match r.bracket with | some b => b.second | none => false

/-- A start address lies inside a recorded widened range. -/
def Run.widened (r : Run) (a : Nat) : Bool := r.wide.any (fun w => w.1 ≤ a && a < w.2)

/-- The format with which an operand starting at `a` is read: FP16 and FP16-B inside a widened range read
FP32 (R128). -/
def Run.readFmt (r : Run) (a f : Nat) : Nat := if r.replaying && (f = 0 || f = 2) && r.widened a then 1 else f

/-- The format with which a result is written into the rod store in the replay pass (R128). -/
def Run.writeFmt (r : Run) (f : Nat) : Nat := if r.replaying && (f = 0 || f = 2) then 1 else f

/-- Record a widened output range; `none` when it would be the seventeenth (R129). A range recorded already takes no second
entry (DESIGN CHOICE, log 81). -/
def Run.widen (r : Run) (was a len : Nat) : Option Run :=
  if r.replaying && (was = 0 || was = 2) then
    if r.wide.contains (a, a + len) then some r
    else if 16 ≤ r.wide.length then none else some { r with wide := r.wide ++ [(a, a + len)] }
  else some r

end Sys2Proof.Machine
end

