-- ==== Sys2Proof/Machine/Access.lean ====
section
/-!
DEFINITION. Access to memory: the physical address map, interleaving, translation, the Common Store's
cache, bursts with their metadata (spec/06_near_memory.md R140 to R166), and reads and writes of context
memory in elements and rows.
-/

namespace Sys2Proof.Machine

/-! ### The physical address map (R140, R141, R145, R157) -/

def hbmTop : Nat := 0x8000000000

def scratchTop : Nat := 0x8014000000

def rsWindowBase : Nat := 0x8100000000

def rsWindowTop : Nat := 0x8110000000

/-- Channel of an HBM address. -/
def chanOf (pa : Nat) : Nat := pa / 2 ^ 31

/-- The address lies in the firmware area of its channel (R141). -/
def firmwareArea (pa : Nat) : Bool := pa < hbmTop && 0x7FC00000 ≤ pa % 2 ^ 31

def segPart (s : State) (g : Nat) : Nat := mapGet 0 s.parts.seg g

/-- The segment is in scratchpad mode. -/
def segScratch (s : State) (g : Nat) : Bool := s.dev.scratch.getLsbD g

/-- Slice port that serves a cached line or a scratchpad address (R157, R159). -/
def slicePort (seg pa : Nat) : Nat := 4 * (seg / 80) + pa / 128 % 4

/-- Channels of an interleave group of a partition. -/
def groupChans (s : State) (part g : Nat) : List Nat := mapGet [] s.parts.groups (32 * part + g)

/-- The groups a partition holds, by number. -/
def groupsOf (s : State) (part : Nat) : List (Nat × List Nat) :=
  (s.parts.groups.filter (fun kv => kv.1 / 32 = part)).map (fun kv => (kv.1 % 32, kv.2))

/-- Physical address of byte `o` of a page on a group (R145). -/
def hbmAddr (chans : List Nat) (choff rot o : Nat) : Nat :=
  let g := chans.length
  let stripe := o / 256
  let ch := chans.getD ((stripe + rot) % g) 0
  ch * 2 ^ 31 + choff * 32768 + stripe / g * 256 + o % 256

/-- Physical address of byte `o` of a scratchpad page (R157). -/
def scratchAddr (a b o : Nat) : Nat :=
  let stripe := o / 256
  0x8000000000 + (if stripe % 2 = 1 then b else a) * 0x100000 + stripe / 2 * 256 + o % 256

/-- Partition of a context. -/
def ctxPart (s : State) (c : Nat) : Nat := (ctxGet s c).part

/-- Physical address of byte `o` of an object's page; none while it lies in the user region. -/
def pageAddr (s : State) (ob : Object) (p : Page) (page o : Nat) : Option Nat :=
  match p.loc with
  | .hbm g ch => some (hbmAddr (groupChans s (ctxPart s ob.owner) g) ch ((ob.vpn + page) % 64) o)
  | .scratch a b => some (scratchAddr a b o)
  | .rod n h => some (rsWindowBase + n * 0x400000 + h * 0x200000 + o)
  | .deep => none

/-- Page table entry of a page (T6.3). The stratum controller keeps one for each mapped page; the model
computes it from the object. -/
def pageEntry (ob : Object) (p : Page) (obj page : Nat) : BitVec 64 :=
  let kind := match p.loc with | .hbm _ _ => 0 | .scratch _ _ => 1 | .rod _ _ => 2 | .deep => 3
  let cache := match p.loc with | .hbm _ _ => ob.cache | _ => 2
  let place := match p.loc with
    | .hbm g ch => fieldAt g 5 53 + fieldAt (ob.vpn + page) 6 45 + fieldAt ch 16 29
    | .scratch a b => fieldAt a 9 36 + fieldAt b 9 27
    | .rod n h => fieldAt n 6 39 + fieldAt h 1 38
    | .deep => fieldAt obj 20 25 + fieldAt page 25 0
  BitVec.ofNat 64 (2 ^ 63 + fieldAt kind 2 61 + (if ob.writable then 2 ^ 60 else 0) + fieldAt cache 2 58 + place)

/-! ### Objects and translation (R152, R153, R189) -/

def objGet (s : State) (n : Nat) : Object := mapGet {} s.objects n

def objSet (n : Nat) (x : Object) (s : State) : State := { s with objects := mapSet {} s.objects n x }

def objMod (n : Nat) (f : Object → Object) (s : State) : State := objSet n (f (objGet s n)) s

def objExists (s : State) (n : Nat) : Bool := (mapFind s.objects n).isSome

def pageGet (s : State) (o p : Nat) : Page := mapGet {} (objGet s o).pages p

/-- Change one page of an object. -/
def pageMod (o p : Nat) (f : Page → Page) (s : State) : State :=
  objMod o (fun x => { x with pages := mapInsert x.pages p (f (mapGet {} x.pages p)) }) s

/-- The object and page a context's address falls in. -/
def objAt (s : State) (c va : Nat) : Option (Nat × Nat) :=
  s.objects.findSome? (fun (n, o) =>
    match o.maps.find? (fun m => m.1 = c && m.2 ≤ va && va < m.2 + o.count * pageBytes) with
    | some m => some (n, (va - m.2) / pageBytes)
    | none => none)

/-- The entry that translates an address of a context (R152): V = 0 where nothing is mapped or the page's entry is not written
yet (R155). -/
def entryOf (s : State) (c va : Nat) : BitVec 64 :=
  match objAt s c va with
  | none => 0#64
  | some (n, pg) => match mapFind (objGet s n).pages pg with
    | some p => pageEntry (objGet s n) p n pg
    | none => 0#64

/-- A page that a request can use: in HBM, Common Store scratch or a rod store, and not being moved out. -/
def Page.resident (p : Page) : Bool := p.loc ≠ .deep && p.leaving.isNone

/-- A request that an owner's check or address decode refuses: the message's source and kind, what follows the beam port in
its address, and the reason with which a rod halts (R25, R140). -/
structure Bar where
  src : Nat
  kind : Nat
  pa : Option Nat := none
  reason : Nat
deriving DecidableEq, Repr

/-- Address decode refuses an address (R140). -/
def decodeBar (pa : Nat) : Bar := { src := srcDecode, kind := 7, pa := some (pa % 2 ^ 40), reason := hTranslation }

/-- An owner's check refuses a request (R25). -/
def ownerBar (src : Nat) : Bar := { src := src, kind := 6, reason := hOwnership }

/-- What refuses a request of partition `part` to an address, if anything does: the map of T6.1, and the check of the channel,
the slice port or the window (R25, R140, R141, R157, R164). An exempt request passes every owner's check. -/
def barOf (s : State) (part : Nat) (exempt : Bool) (pa : Nat) : Option Bar :=
  if pa < hbmTop then
    if !exempt && (mapGet 0 s.parts.chan (chanOf pa) ≠ part || firmwareArea pa) then some (ownerBar (srcHbmAccess + chanOf pa)) else none
  else if pa < scratchTop then
    let g := (pa - hbmTop) / 0x100000
    if !segScratch s g then some (decodeBar pa)
    else if !exempt && segPart s g ≠ part then some (ownerBar (srcCsAccess + slicePort g pa)) else none
  else if pa < rsWindowBase || rsWindowTop ≤ pa || rsSize ≤ (pa - rsWindowBase) % 0x400000 then some (decodeBar pa)
  else
    let n := (pa - rsWindowBase) / 0x400000
    if !exempt && rodPart s n ≠ part then some (ownerBar (srcRsAccess + n)) else none

/-- The message of a refusal, for the beam port `req` that asked. -/
def raiseBar (b : Bar) (req : Nat) (s : State) : State :=
  raise b.src b.kind (match b.pa with | some pa => fieldAt req 8 40 + pa | none => req) s

/-- What translating one address gives: its physical address, the object and page, and CACHE; no mapping (or
no leave to write); a page that is not resident; or an address that refuses the context's partition. -/
inductive Xlat where
  | ok (pa obj page cache : Nat)
  | unmapped
  | deep (obj page : Nat)
  | barred (b : Bar)
deriving DecidableEq, Repr

/-- Translate an address of a context (R152, R153). A page whose entry is not written yet is not mapped (R155). -/
def translate (s : State) (c va : Nat) (write : Bool) : Xlat :=
  match objAt s c va with
  | none => .unmapped
  | some (n, pg) =>
    let ob := objGet s n
    match mapFind ob.pages pg with
    | none => .unmapped
    | some p =>
      if write && !ob.writable then .unmapped
      else if !p.resident then .deep n pg
      else match pageAddr s ob p pg (va % pageBytes) with
        | some pa => match barOf s (ctxPart s c) false pa with
          | some b => .barred b
          | none => .ok pa n pg (match p.loc with | .hbm _ _ => ob.cache | _ => 2)
        | none => .deep n pg

/-- The address translates into the window of a rod store (R164). -/
def inRsWindow (s : State) (c va : Nat) : Bool :=
  match translate s c va true with
  | .ok pa _ _ _ => rsWindowBase ≤ pa
  | _ => false

/-- The pages that `n` bytes from `va` touch are all mapped (and writable): `none`, or the first page that is
not resident. Without objects nothing is mapped. -/
def firstAbsent (s : State) (c va n : Nat) (write : Bool) : Option (Nat × Nat) :=
  if s.objects.isEmpty then none else
  (List.range ((va % pageBytes + n + pageBytes - 1) / pageBytes)).findSome? (fun i =>
    match translate s c (if i = 0 then va else (va / pageBytes + i) * pageBytes) write with
    | .deep o p => some (o, p)
    | _ => none)

/-- What refuses the context's partition one of `n` bytes from `va`, if anything does (R25, R140): a page lies in stripes of 256
bytes (R145, R157), each in one channel or segment. -/
def firstBar (s : State) (c va n : Nat) (write : Bool) : Option Bar :=
  if s.objects.isEmpty then none else
  (List.range ((va % 256 + n + 255) / 256)).findSome? (fun i =>
    match translate s c (if i = 0 then va else (va / 256 + i) * 256) write with
    | .barred b => some b
    | _ => none)

/-- A range that a command of an engine or a bridge reads or writes: address, bytes, written. -/
abbrev Span := Nat × Nat × Bool

/-- What keeps a command from ranges: an owner's check or the address decode refuses one, or a page is not resident. -/
inductive Hitch where
  | barred (b : Bar)
  | absent (a : Nat × Nat)
deriving DecidableEq, Repr

/-- What keeps a command of a context from its ranges, if anything does. -/
def hitch (s : State) (c : Nat) (rs : List Span) : Option Hitch :=
  match rs.findSome? (fun r => firstBar s c r.1 r.2.1 r.2.2) with
  | some b => some (.barred b)
  | none => (rs.findSome? (fun r => firstAbsent s c r.1 r.2.1 r.2.2)).map .absent

/-! ### Cells and metadata (R146, R147, R150) -/

/-- STEP_TAG of a burst's metadata. -/
def mdTag (m : BitVec 4) : Nat := bitsOf m.toNat 3 2

def mdPoison (m : BitVec 4) : Bool := m.getLsbD 1

def mdVer (m : BitVec 4) : Bool := m.getLsbD 0

def mdOf (tag : Nat) (poison ver : Bool) : BitVec 4 :=
  BitVec.ofNat 4 (fieldAt tag 2 2 + (if poison then 2 else 0) + (if ver then 1 else 0))

/-- A burst as its controller holds it. -/
def burstGet (s : State) (pa : Nat) : Bytes × BitVec 4 :=
  (memRead s.mem (pa / 64 * 64) 64, mapGet 0#4 s.near.md (pa / 64))

/-- The 32 side-band bits of a burst (T6.2): the controller code over its data and metadata, and the metadata. The model
holds the data that the code protects; an error in them comes with the row that reads (log 11). -/
def sideBand (s : State) (pa : Nat) : BitVec 32 :=
  Config.checkCode (burstGet s pa).1 (burstGet s pa).2 ++ (burstGet s pa).2

/-- Store a burst with its metadata. A rod store holds no metadata (R164). -/
def burstSet (pa : Nat) (bs : Bytes) (m : BitVec 4) (s : State) : State :=
  { s with
    mem := memWrite s.mem (pa / 64 * 64) bs
    near := if rsWindowBase ≤ pa then s.near
      else { s.near with md := mapSet 0#4 s.near.md (pa / 64) m } }

/-- The bytes of a burst with `bs` written from offset `o`. -/
def mergeBytes (old : Bytes) (o : Nat) (bs : Bytes) : Bytes := old.take o ++ bs ++ old.drop (o + bs.length)

/-- Metadata after a write of `n` bytes of a burst: POISON stays on a partial write (R147, R150). -/
def mdAfter (old : BitVec 4) (n tag : Nat) (ver : Bool) : BitVec 4 := mdOf tag (n ≠ 64 && mdPoison old) ver

/-! ### The cache (R156 to R163) -/

/-- A partition's cache-mode segments in ascending order (R159). -/
def cacheSegs (s : State) (part : Nat) : List Nat :=
  (List.range 320).filter (fun g => segPart s g = part && !segScratch s g)

/-- Key of the one set a line can lie in: 512 × segment + set (R159). -/
def setKeyOf (segs : List Nat) (pa : Nat) : Nat :=
  let line := pa / 128
  let h := line * 0x9E3779B97F4A7C15 % 2 ^ 64 / 2 ^ 40
  512 * segs.getD (h % segs.length) 0 + line % 512

/-- Node of the pseudo-LRU tree at each level on the way to a way (log 21). -/
def plruPath (way : Nat) : List (Nat × Nat) :=
  let b (i : Nat) := way / 2 ^ (3 - i) % 2
  [(0, b 0), (1 + b 0, b 1), (3 + 2 * b 0 + b 1, b 2), (7 + 4 * b 0 + 2 * b 1 + b 2, b 3)]

/-- Mark a way as used: each node on its path points away from it. -/
def plruTouch (t : BitVec 15) (way : Nat) : BitVec 15 :=
  (plruPath way).foldl (fun t nb => let m := BitVec.ofNat 15 (2 ^ nb.1)
    if nb.2 = 1 then t &&& ~~~m else t ||| m) t

/-- The way the tree points at. -/
def plruVictim (t : BitVec 15) : Nat :=
  let b (i : Nat) : Nat := if t.getLsbD i then 1 else 0
  let b0 := b 0
  let b1 := b (1 + b0)
  let b2 := b (3 + 2 * b0 + b1)
  8 * b0 + 4 * b1 + 2 * b2 + b (7 + 4 * b0 + 2 * b1 + b2)

def cacheSet (s : State) (k : Nat) : CacheSet := mapGet {} s.near.sets k

def cacheSetPut (k : Nat) (x : CacheSet) (s : State) : State :=
  { s with near := { s.near with sets := mapSet {} s.near.sets k x } }

/-- The way that holds the line of an address. -/
def lineFind (x : CacheSet) (pa : Nat) : Option (Nat × Line) := x.ways.find? (fun kv => kv.2.addr = pa / 128 * 128)

/-- Write a line's bytes and metadata back to HBM. -/
def lineBack (l : Line) (s : State) : State :=
  if l.dirty then
    burstSet (l.addr + 64) (l.data.drop 64) (l.md.getD 1 0) (burstSet l.addr (l.data.take 64) (l.md.getD 0 0) s)
  else s

/-- Bring the line of an address into its set (R160): an empty way, else the way the tree points at, whose
line is written back if dirty (R163). -/
def lineFill (k pa : Nat) (s : State) : State × Nat :=
  let x := cacheSet s k
  let way := ((List.range 16).find? (fun w => (mapFind x.ways w).isNone)).getD (plruVictim x.tree)
  let s := match mapFind x.ways way with | some l => lineBack l s | none => s
  let a := burstGet s (pa / 128 * 128)
  let b := burstGet s (pa / 128 * 128 + 64)
  let l : Line := ⟨pa / 128 * 128, false, a.1 ++ b.1, [a.2, b.2]⟩
  (cacheSetPut k { x with ways := mapInsert x.ways way l } s, way)

/-- The half of a line that a burst is. -/
def half (pa : Nat) : Nat := pa / 64 % 2

def Line.burst (l : Line) (pa : Nat) : Bytes × BitVec 4 :=
  ((l.data.drop (64 * half pa)).take 64, l.md.getD (half pa) 0)

/-- Read one burst as a requester of partition `part` sees it through a page of attribute `cache` (T6.4). -/
def burstRead (part cache pa : Nat) (s : State) : (Bytes × BitVec 4) × State :=
  if hbmTop ≤ pa || cache = 2 then (burstGet s pa, s) else
    let segs := cacheSegs s part
    if segs.isEmpty then (burstGet s pa, s) else
      let k := setKeyOf segs pa
      match lineFind (cacheSet s k) pa with
      | some (w, l) =>
        let x := cacheSet s k
        (l.burst pa, cacheSetPut k { x with tree := plruTouch x.tree w } s)
      | none =>
        if cache = 1 then (burstGet s pa, s)
        else
          let r := lineFill k pa s
          let x := cacheSet r.1 k
          (burstGet s pa, cacheSetPut k { x with tree := plruTouch x.tree r.2 } r.1)

/-- Write bytes of one burst from offset `o` (T6.4, R147, R150). -/
def burstWrite (part cache pa o : Nat) (bs : Bytes) (tag : Nat) (ver : Bool) (s : State) : State :=
  let direct : State → State := fun s =>
    let old := burstGet s pa
    burstSet pa (mergeBytes old.1 o bs) (mdAfter old.2 bs.length tag ver) s
  if hbmTop ≤ pa || cache = 2 then direct s else
    let segs := cacheSegs s part
    if segs.isEmpty then direct s else
      let k := setKeyOf segs pa
      let into (w : Nat) (s : State) : State :=
        let x := cacheSet s k
        match mapFind x.ways w with
        | none => s
        | some l =>
          let old := l.burst pa
          let l := { l with
            dirty := true
            data := mergeBytes l.data (64 * half pa + o) bs
            md := listSet l.md (half pa) (mdAfter old.2 bs.length tag ver) }
          cacheSetPut k { ways := mapInsert x.ways w l, tree := plruTouch x.tree w } s
      match lineFind (cacheSet s k) pa with
      | some (w, _) => into w s
      | none => if cache = 1 then direct s else
          let r := lineFill k pa s
          into r.2 r.1

/-- Write back and drop the lines of a partition's sets that `p` names (R158, R160). -/
def cacheFlush (segs : List Nat) (p : Line → Bool) (s : State) : State :=
  (s.near.sets.filter (fun kv => segs.contains (kv.1 / 512))).foldl (fun s kv =>
    let gone := kv.2.ways.filter (fun w => p w.2)
    let s := gone.foldl (fun s w => lineBack w.2 s) s
    cacheSetPut kv.1 { kv.2 with ways := kv.2.ways.filter (fun w => !p w.2) } s) s

/-! ### Reads and writes of context memory -/

/-- How an access ended. -/
inductive Acc where
  | ok
  | unmapped
  | absent (obj page : Nat)
  | poison
  | refused (b : Bar)
deriving DecidableEq, Repr

/-- The pieces of `[a, a + n)` that lie in one burst each. -/
def pieces (a n : Nat) : List (Nat × Nat) :=
  (List.range ((a % 64 + n + 63) / 64)).map (fun i =>
    let lo := max a ((a / 64 + i) * 64)
    (lo, min (a + n) ((a / 64 + i + 1) * 64) - lo))

/-- A read of context memory: how it ended, the bytes so far, and the metadata of each burst touched. -/
structure Got where
  acc : Acc := .ok
  bytes : Bytes := []
  md : List (BitVec 4) := []
deriving DecidableEq, Repr

/-- Read `n` bytes at `va` of a context. A poisoned burst delivers nothing (R82, R149). -/
def readVa (c va n : Nat) (s : State) : Got × State :=
  (pieces va n).foldl (fun (r : Got × State) pc =>
    if r.1.acc ≠ .ok then r
    else match translate r.2 c pc.1 false with
      | .unmapped => ({ r.1 with acc := .unmapped }, r.2)
      | .deep o p => ({ r.1 with acc := .absent o p }, r.2)
      | .barred b => ({ r.1 with acc := .refused b }, r.2)
      | .ok pa _ _ cache =>
        let y := burstRead (ctxPart r.2 c) cache pa r.2
        if mdPoison y.1.2 then ({ r.1 with acc := .poison }, y.2)
        else ({ r.1 with bytes := r.1.bytes ++ (y.1.1.drop (pa % 64)).take pc.2, md := r.1.md ++ [y.1.2] }, y.2))
    ({}, s)

/-- As `readVa`, but poisoned bursts are read with their data, for those that carry the bits (R147). -/
def readRaw (c va n : Nat) (s : State) : Got × State :=
  (pieces va n).foldl (fun (r : Got × State) pc =>
    if r.1.acc ≠ .ok then r
    else match translate r.2 c pc.1 false with
      | .unmapped => ({ r.1 with acc := .unmapped }, r.2)
      | .deep o p => ({ r.1 with acc := .absent o p }, r.2)
      | .barred b => ({ r.1 with acc := .refused b }, r.2)
      | .ok pa _ _ cache =>
        let y := burstRead (ctxPart r.2 c) cache pa r.2
        ({ r.1 with bytes := r.1.bytes ++ (y.1.1.drop (pa % 64)).take pc.2, md := r.1.md ++ [y.1.2] }, y.2))
    ({}, s)

/-- Bytes at which object `o`, page `p` stands in the user region: the key of its first byte (log 12). -/
def flashKey (o p : Nat) : Nat := (o * 2 ^ 25 + p) * pageBytes

/-- Key of a tile in the map. -/
def tileKey (o p t : Nat) : Nat := (o * 2 ^ 25 + p) * 32 + t

/-- Release the user-region copy of a page: its tiles are free for garbage collection (R190, R196). -/
def dropFlash (o p : Nat) (s : State) : State :=
  let k := flashKey o p
  let s := (List.range 32).foldl (fun s t =>
    if (mapFind s.deep.map (tileKey o p t)).isSome then dropTile (tileKey o p t) (mapLog (.free (tileKey o p t)) s) else s)
    (unqueue (fun t => t.key / 32 = o * 2 ^ 25 + p) s)
  let s := { s with deep := { s.deep with
    flash := memZero s.deep.flash k pageBytes
    fmeta := s.deep.fmeta.filter (fun kv => kv.1 < k / 64 || (k + pageBytes) / 64 ≤ kv.1) } }
  pageMod o p (fun x => { x with flash := false, flashPool := false, bad := 0#32 }) s

/-- A page was written: a clean copy in the user region is released (R190). -/
def pageWritten (o p : Nat) (s : State) : State :=
  let x := pageGet s o p
  if x.flash && x.loc ≠ .deep then dropFlash o p s else s

/-- Write bytes at `va` of a context, with a step tag and tile-version bit. -/
def writeVa (c va : Nat) (bs : Bytes) (tag : Nat) (ver : Bool) (s : State) : Acc × State :=
  let r := (pieces va bs.length).foldl (fun (r : Acc × Bytes × State) pc =>
    if r.1 ≠ .ok then r
    else match translate r.2.2 c pc.1 true with
      | .unmapped => (.unmapped, r.2)
      | .deep o p => (.absent o p, r.2)
      | .barred b => (.refused b, r.2)
      | .ok pa o p cache =>
        let s := burstWrite (ctxPart r.2.2 c) cache pa (pa % 64) (r.2.1.take pc.2) tag ver r.2.2
        (.ok, r.2.1.drop pc.2, pageWritten o p s)) (.ok, bs, s)
  (r.1, r.2.2)

/-- Set all four metadata bits of the bursts of `[va, va + 64 × length)`, for movements that carry them (R147). -/
def setMd (c va : Nat) (mds : List (BitVec 4)) (s : State) : State :=
  (mds.foldl (fun (r : Nat × State) m =>
    (r.1 + 1, match translate r.2 c (va + 64 * r.1) true with
      | .ok pa _ _ cache =>
        let segs := cacheSegs r.2 (ctxPart r.2 c)
        let k := setKeyOf segs pa
        if hbmTop ≤ pa || cache = 2 || segs.isEmpty then burstSet pa (burstGet r.2 pa).1 m r.2
        else match lineFind (cacheSet r.2 k) pa with
          | some (w, l) =>
            let x := cacheSet r.2 k
            cacheSetPut k { x with ways := mapInsert x.ways w { l with dirty := true, md := listSet l.md (half pa) m } } r.2
          | none => burstSet pa (burstGet r.2 pa).1 m r.2
      | _ => r.2)) (0, s)).2

/-! ### Objects read and written by their bytes (engines, peers) -/

/-- The object a context maps, and the address at which it maps it. -/
def objBase (s : State) (c o : Nat) : Option Nat :=
  ((objGet s o).maps.find? (fun m => m.1 = c)).map (·.2)

/-- Fields of a job definition (T12.16). -/
def jobField (j : Bytes) (lo n : Nat) : Nat := fieldBytes j lo n

def jobW (j : Bytes) : Nat := jobField j 48 4
def jobM (j : Bytes) : Nat := jobField j 52 4
def jobSel (j : Bytes) : Nat := jobField j 56 4
def jobG (j : Bytes) : Nat := jobField j 60 4
def jobShard (j : Bytes) : Nat := jobField j 22 2
def jobS (j : Bytes) : Nat := jobField j 20 2
def jobReplica (j : Bytes) : Nat := jobField j 24 1
def jobRs (j : Bytes) : Nat := jobField j 25 1
def jobFirst (j : Bytes) : Nat := jobField j 32 8
def jobBlocks (j : Bytes) : Nat := jobField j 40 8
def jobGroup (j : Bytes) : Nat := jobField j 16 4
def jobSeed (j : Bytes) : BitVec 64 := BitVec.ofNat 64 (jobField j 8 8)

/-- The context's G, while a job definition stands (R234). -/
def gOf (s : State) (c : Nat) : Option Nat :=
  let t := (ctxGet s c).train
  if t.job.isEmpty then none else some (jobG t.job)

/-- The address lies in the context's G. -/
def inG (s : State) (c va : Nat) : Bool :=
  match gOf s c, objAt s c va with
  | some g, some (o, _) => o = g
  | _, _ => false

/-- Some of the `n` bytes from `va` lie in the context's G (R234). -/
def touchesG (s : State) (c va n : Nat) : Bool :=
  match gOf s c with
  | none => false
  | some g => match objBase s c g with
    | some b => va < b + (objGet s g).count * pageBytes && b < va + n
    | none => false

/-! ### Requests by physical address (R25, R140, R148 to R151, R160, R163, R164, R166) -/

/-- The beam port of Zenith, which no ownership check stops (R25). -/
def zenithPort : Nat := 78

/-- The traffic is Zenith's, or a stratum controller's maintenance or self-test (R25). -/
def exempt (req : Nat) (t : Traffic) : Bool := req = zenithPort || t = .maint || t = .selftest

/-- A refused request (R25, R140): the message, and a rod that asked halts at the descriptor that issued the request. -/
def refuseReq (b : Bar) (req : Nat) (s : State) : State :=
  let s := raiseBar b req s
  if req < 64 then
    match (rodGet s req).run with
    | some r => haltRod req b.reason r.site.1 r.site.2 s
    | none => s
  else s

/-- Serve a request to an address unless something refuses it. -/
def unlessBarred (req part : Nat) (t : Traffic) (pa : Nat) (s : State) (k : State → State) : State :=
  match barOf s part (exempt req t) pa with
  | some b => refuseReq b req s
  | none => k s

/-- Deliver what a single request returned. -/
def deliver (bs : Bytes) (m : List (BitVec 4)) (s : State) : State :=
  { s with near := { s.near with answer := bs, answerMd := m } }

/-- Hours of the local time counter. -/
def hourNow (s : State) : Nat := s.clk.ltc / 360000000000

/-- An hour of a channel is over: HBM_CE_RATE where its corrections passed 1,000, and the count starts again (R148). -/
def rateCheck (ch : Nat) (s : State) : State :=
  if mapGet 0 s.near.ceHour ch = hourNow s then s
  else
    let n := mapGet 0 s.near.corrHour ch
    let s : State := { s with near := { s.near with corrHour := mapSet 0 s.near.corrHour ch 0, ceHour := mapSet 0 s.near.ceHour ch (hourNow s) } }
    if 1000 < n then raise (srcHbmRate + ch) 0 n s else s

/-- A corrected error: the channel's counters; the burst goes back as it reads (R148). -/
def corrected (ch : Nat) (s : State) : State :=
  let s := rateCheck ch s
  { s with near := { s.near with corr := mapMod 0 s.near.corr ch (fun n => (n + 1) % 2 ^ 32)
                                 corrHour := mapMod 0 s.near.corrHour ch (· + 1) } }

/-- An uncorrectable read: the burst is written back poisoned with its data as read (R149). -/
def poisonBurst (pa kind : Nat) (s : State) : State :=
  let b := burstGet s pa
  raise (srcHbmUe + chanOf pa) kind pa (burstSet pa b.1 (b.2 ||| 2#4) s)

/-- One read of a burst as its error correction finds it. -/
def correctRead (pa : Nat) (e : Ecc) (s : State) : State :=
  match e with
  | .clean => s
  | .corrected => corrected (chanOf pa) s
  | .codeUe => poisonBurst pa 0x0C s
  | .stackUe => poisonBurst pa 0x0D s

/-- A physical address lies in a frame. -/
def inFrame (s : State) (part : Nat) (l : Loc) (pa : Nat) : Bool :=
  match l with
  | .hbm g o =>
    let ch := groupChans s part g
    pa < hbmTop && ch.contains (chanOf pa) && o * 32768 ≤ pa % 2 ^ 31 && pa % 2 ^ 31 < o * 32768 + pageBytes / ch.length
  | .scratch a b => hbmTop ≤ pa && pa < scratchTop && ((pa - hbmTop) / 0x100000 = a || (pa - hbmTop) / 0x100000 = b)
  | .rod n h => rsWindowBase + n * 0x400000 + h * 0x200000 ≤ pa && pa < rsWindowBase + n * 0x400000 + h * 0x200000 + pageBytes
  | .deep => false

/-- The page whose frame in HBM or Common Store scratch holds an address, if one does. -/
def pageHolding (s : State) (pa : Nat) : Option (Nat × Nat) :=
  if rsWindowBase ≤ pa then none else
    s.objects.findSome? (fun (n, o) => o.pages.findSome? (fun (p, x) =>
      if inFrame s (ctxPart s o.owner) x.loc pa then some (n, p) else none))

/-- A write of a burst by its address releases the clean copy of the page it lies in (R190). -/
def wroteAt (pa : Nat) (s : State) : State :=
  match pageHolding s pa with
  | some a => pageWritten a.1 a.2 s
  | none => s

/-- HBM_READ (R140, R141, R148, R149): a burst as its controller holds it. -/
def execHbmRead (req : Nat) (t : Traffic) (part : Fin 8) (pa : Nat) (ecc : Ecc) (s : State) : Host.Outcome State Fault Refusal :=
  .next (if s.dev.safe then s else across (hbmRuns s) (.hbmRead req t part pa ecc) s (fun s =>
    unlessBarred req part t pa s (fun s =>
      let s := if pa < hbmTop then correctRead pa ecc s else s
      let b := burstGet s pa
      deliver b.1 [if rsWindowBase ≤ pa then 0#4 else b.2] s)))

/-- HBM_WRITE (R147, R150, R190): a whole burst, or a partial one from the address on. -/
def execHbmWrite (req : Nat) (t : Traffic) (part : Fin 8) (pa : Nat) (data : Bytes) (tag : BitVec 2) (ver : Bool) (s : State) :
    Host.Outcome State Fault Refusal :=
  .next (if s.dev.safe then s else across (hbmRuns s) (.hbmWrite req t part pa data tag ver) s (fun s =>
    unlessBarred req part t pa s (fun s =>
      let d := data.take (64 - pa % 64)
      let old := burstGet s pa
      wroteAt pa (burstSet pa (mergeBytes old.1 (pa % 64) d) (mdAfter old.2 d.length tag.toNat ver) s))))

/-- PATROL_SCRUB (R151). -/
def execPatrolScrub (ch : Fin 256) (burst : Nat) (ecc : Ecc) (s : State) : Host.Outcome State Fault Refusal :=
  .next (if hbmHalted s then s else correctRead (ch * 2 ^ 31 + burst % 2 ^ 25 * 64) ecc s)

/-- HBM_CE_RATE (R148): the hourly check of one channel. -/
def execHbmCeRate (ch : Fin 256) (s : State) : Host.Outcome State Fault Refusal := .next (if s.dev.safe then s else rateCheck ch s)

/-- PHY_CALIBRATION (R171): the channel goes offline for 1 µs or less; requests wait and none is lost. -/
def execPhyCalibration (ch : Fin 256) (s : State) : Host.Outcome State Fault Refusal :=
  .next (if hbmHalted s then s
    else { s with near := { s.near with calibrated := mapSet 0 s.near.calibrated ch s.clk.ltc } })

/-- A Common Store error found on an access: corrected and counted by slice, or the half is poisoned (R163). -/
def csEcc (slice pa : Nat) (e : Ecc) (s : State) : State :=
  match e with
  | .clean => s
  | .corrected => { s with near := { s.near with csCorr := mapMod 0 s.near.csCorr slice (· + 1) } }
  | _ => raise (srcCsUe + slice) 0 pa s

/-- An uncorrectable error of a Common Store access sets POISON of the half before the request is served (R163). -/
def csPoison (part pa : Nat) (s : State) : State :=
  let segs := cacheSegs s part
  if hbmTop ≤ pa then burstSet pa (burstGet s pa).1 ((burstGet s pa).2 ||| 2#4) s
  else match lineFind (cacheSet s (setKeyOf segs pa)) pa with
    | some (w, l) =>
      let x := cacheSet s (setKeyOf segs pa)
      let l' : Line := { l with md := listSet l.md (half pa) (l.md.getD (half pa) 0 ||| 2#4) }
      cacheSetPut (setKeyOf segs pa) { x with ways := mapInsert x.ways w l' } s
    | none => s

/-- Segment whose slice serves an address: the scratch segment, or the one that may hold the line (R157, R159). -/
def servingSeg (s : State) (part pa : Nat) : Nat :=
  if hbmTop ≤ pa then (pa - hbmTop) / 0x100000 else setKeyOf (cacheSegs s part) pa / 512

/-- Serve a request at its slice (R160, R163). -/
def csServe (part o p cache va pa : Nat) (write : Option Bytes) (length : Nat) (ecc : Ecc) (s : State) : State :=
  let s := csEcc (servingSeg s part pa / 80) pa ecc s
  let s := if ecc = .codeUe || ecc = .stackUe then csPoison part pa s else s
  match write with
  | some bs => pageWritten o p (burstWrite part cache pa (va % 64) (bs.take (64 - va % 64)) 0 false s)
  | none =>
    let y := burstRead part cache pa s
    deliver (if mdPoison y.1.2 then [] else (y.1.1.drop (va % 64)).take length) [y.1.2] y.2

/-- CS_REQUEST (R157, R160, R163): one access of a context to a cached or scratchpad page, inside a burst. An access that
the Common Store does not serve, to a page it does not cache, is no request of this row. -/
def execCsRequest (req : Nat) (t : Traffic) (ctx : Fin 256) (va : Nat) (write : Option Bytes) (length : Nat) (ecc : Ecc) (s : State) :
    Host.Outcome State Fault Refusal :=
  .next (if s.dev.safe then s else across (coreRuns s) (.csRequest req t ctx va write length ecc) s (fun s =>
    let part := ctxPart s ctx
    match translate s ctx va write.isSome with
    | .ok pa o p cache =>
      if rsWindowBase ≤ pa || (pa < hbmTop && (cache = 2 || (cacheSegs s part).isEmpty)) then s
      else csServe part o p cache va pa write length ecc s
    | .barred b => if exempt req t then s else refuseReq b req s
    | .unmapped =>
      if req < 64 then
        (match (rodGet s req).run with | some r => haltRod req hTranslation r.site.1 r.site.2 s | none => s)
      else s
    | .deep _ _ => s))

/-- The error correction of a rod store finds an uncorrectable error: the program halts with DATA_UNAVAILABLE at its next
descriptor (log 80), and the requester receives poisoned data (R166). -/
def rsWindowBad (n a : Nat) (s : State) : State :=
  let s := raise (srcRsUe + n) 0 a s
  deliver [] [2#4] (match (rodGet s n).run with | some r => haltRod n hUnavailable r.site.1 r.site.2 s | none => s)

/-- Serve an access to a rod store through its window; a corrected error is counted (R166). -/
def rsWindowServe (n a len : Nat) (write : Option Bytes) (fixed : Bool) (s : State) : State :=
  let s := if fixed then rodMod n (fun x => { x with corr := x.corr + 1 }) s else s
  match write with
  | some bs => rsWrite n a (bs.take (rsSize - a)) s
  | none => deliver (rsRead s n a len) [0#4] s

/-- RS_WINDOW_ACCESS (R140, R164, R166): an access to a rod store through its window. An address outside the rod store is
refused as the map of T6.1 says; one in another range is no request of a window. -/
def execRsWindowAccess (req : Nat) (t : Traffic) (part : Fin 8) (pa : Nat) (write : Option Bytes) (length : Nat) (ecc : Ecc)
    (s : State) : Host.Outcome State Fault Refusal :=
  .next (if s.dev.safe then s else across (coreRuns s) (.rsWindowAccess req t part pa write length ecc) s (fun s =>
    unlessBarred req part t pa s (fun s =>
      if pa < rsWindowBase then s
      else
        let n := (pa - rsWindowBase) / 0x400000
        let a := (pa - rsWindowBase) % 0x400000
        if ecc = .codeUe || ecc = .stackUe then rsWindowBad n a s
        else rsWindowServe n a (min length (rsSize - a)) write (ecc = .corrected) s)))

end Sys2Proof.Machine
end

