-- ==== Sys2Proof/Machine/Array.lean ====
section
/-!
DEFINITION. The array of a rod: MMA, LOADW, SWAP, DRAIN, MMV and the bank load
(spec/03_rod_array.md; spec/04_tile_programs.md R85 to R92; spec/05_numerics.md R126, R134, R135).
-/

namespace Sys2Proof.Machine

/-! ### Banks -/

/-- Active and shadow bank (R50). -/
def Rod.active (x : Rod) : Bank := if x.act1 then x.bank1 else x.bank0

def Rod.shadow (x : Rod) : Bank := if x.act1 then x.bank0 else x.bank1

def Rod.setActive (x : Rod) (b : Bank) : Rod := if x.act1 then { x with bank1 := b } else { x with bank0 := b }

def Rod.setShadow (x : Rod) (b : Bank) : Rod := if x.act1 then { x with bank0 := b } else { x with bank1 := b }

/-- The bank clear of R69 and R70: both banks +0.0 with nothing recorded, bank 0 active. -/
def Rod.clearBanks (x : Rod) : Rod := { x with bank0 := {}, bank1 := {}, act1 := false }

/-- Bank element (i, j); in FP32 service cell (i, j) is element (2i, 2j) (R60). -/
def cellKey (fp32 : Bool) (i j : Nat) : Nat := if fp32 then 32 * i + 2 * j else 16 * i + j

def Bank.cell (b : Bank) (fp32 : Bool) (i j : Nat) : BitVec 32 := mapGet 0#32 b.acc (cellKey fp32 i j)

/-- A bank's contents from a function of (i, j). -/
def tileOf (f : Nat → Nat → BitVec 32) : FMap (BitVec 32) :=
  ((List.range 1024).map (fun k => (k, f (k / 16) (k % 16)))).filter (fun kv => kv.2 ≠ 0#32)

/-- A vector of sums from a function. -/
def sumsOf (n : Nat) (f : Nat → BitVec 32) : FMap (BitVec 32) :=
  ((List.range n).map (fun k => (k, f k))).filter (fun kv => kv.2 ≠ 0#32)

/-- FP32 sum by round to nearest even, in ascending order (R134; the order is the model's, log 19). -/
def rneSum (l : List (BitVec 32)) : BitVec 32 := l.foldl addRne 0#32

/-! ### The operand feed (R49, R56, R58, R62) -/

/-- An operand as it stands in the rod store, flushed (R49); the flag says it was subnormal. -/
def feedElem (s : State) (n f a : Nat) : Val × Bool := decElem (if f = 2 then 0 else f) (leNat (rsRead s n a (fmtBytes f))) 0

/-- Align a block element by 2^d: FP16 to FP16, truncated, with saturation and flush noted (R58, R123). -/
def alignElem (idx : Nat) (d : Int) (v : Val) (t : Tally) : Val × Tally :=
  if d = 0 then (v, t) else
    let x := vscale d v
    let c := enc16 65535 x
    (dec16 (BitVec.ofNat 16 c.bits), t.conv idx x c)

/-- One beat's column or row: elements with the scale each has, and the recorded scales they are aligned to. -/
def alignList (base : Nat) (l : List (Val × Int × Int)) (t : Tally) : List Val × Tally :=
  let r := l.foldl (fun (acc : Nat × List Val × Tally) e =>
    let y := alignElem (base + acc.1) (e.2.1 - e.2.2) e.1 acc.2.2
    (acc.1 + 1, y.1 :: acc.2.1, y.2)) (0, [], t)
  (r.2.1.reverse, r.2.2)

/-- One accumulation (R49, R60): the sum, and the bank's overflow and the flushes so far. -/
def accumulate (fp32 : Bool) (acc : BitVec 32 × Bool × Nat) (ab : Val × Val) : BitVec 32 × Bool × Nat :=
  let p := vmul ab.1 ab.2
  let q := trunc32 p
  let prod := if fp32 then dec32 q.bits else p
  let r := trunc32 (vadd (dec32 acc.1) prod)
  (r.bits, acc.2.1 || r.ovf || (fp32 && q.ovf),
    acc.2.2 + (if r.udf then 1 else 0) + (if fp32 && q.udf then 1 else 0))

/-- The beats of a run over one bank: A columns and B rows as they leave the feed (R48, R60). -/
def runBeats (fp32 : Bool) (beats : List (List Val × List Val)) (b : Bank) : Bank × Nat :=
  let nr := if fp32 then 32 else 64
  let nc := if fp32 then 8 else 16
  let cells := (List.range nr).flatMap (fun i => (List.range nc).map (fun j =>
    (cellKey fp32 i j, beats.foldl (fun acc x => accumulate fp32 acc (x.1.getD i (.zero false), x.2.getD j (.zero false)))
      (b.cell fp32 i j, false, 0))))
  let acc := cells.foldl (fun m c => mapSet 0#32 m c.1 c.2.1) b.acc
  ({ b with acc := acc, ovf := b.ovf || cells.any (fun c => c.2.2.1) }, cells.foldl (fun n c => n + c.2.2.2) 0)

/-- The weathervane follows the beats of a run (R134): row and column sums by round to nearest even. -/
def followBeats (fp32 : Bool) (beats : List (List Val × List Val)) (w : WvRef) : WvRef :=
  let nr := if fp32 then 32 else 64
  let nc := if fp32 then 8 else 16
  beats.foldl (fun w x =>
    let a (i : Nat) : BitVec 32 := rne32 (x.1.getD i (.zero false))
    let b (j : Nat) : BitVec 32 := rne32 (x.2.getD j (.zero false))
    let sb := rneSum ((List.range nc).map b)
    let s0 := rneSum ((List.range (nr / 2)).map a)
    let s1 := rneSum ((List.range (nr / 2)).map (fun i => a (i + nr / 2)))
    { w with
      rows := sumsOf nr (fun i => addRne (mapGet 0#32 w.rows i) (mulRne (a i) sb))
      col0 := sumsOf nc (fun j => addRne (mapGet 0#32 w.col0 j) (mulRne s0 (b j)))
      col1 := sumsOf nc (fun j => addRne (mapGet 0#32 w.col1 j) (mulRne s1 (b j))) }) w

/-- A run may not enter the bank: another service is recorded (R61), or a ROWBCAST named the other (R88). -/
def wrongService (b : Bank) (fp32 : Bool) : Bool := b.mode = some (!fp32) || b.bcast = some (!fp32)

/-- Events whose element order the spec does not give take a free FIRST_INDEX (log 1). -/
def openFirst (s : State) (t : Tally) : Tally × State :=
  if t.evs.isEmpty then (t, s)
  else
    let d := drawFree s
    ({ t with evs := t.evs.map (fun e => { e with first := d.1 % 2 ^ 32 }) }, d.2)

/-- Put the beats of a run into the active bank of rod `n`: mode, scales and extent recorded, the
weathervane following, counters advanced. -/
def runInto (n : Nat) (f : Flight) (fp32 : Bool) (rows cols : Nat) (sc : Option Int × Option Int × Option Int)
    (beats : List (List Val × List Val)) (t : Tally) (s : State) : State :=
  let x := rodGet s n
  let b := x.active
  let r := runBeats fp32 beats b
  let o := openFirst s { t with outFlush := t.outFlush + r.2 }
  let b' := { r.1 with
    mode := some fp32, rows := rows, cols := cols, bcast := none
    sA0 := sc.1, sA1 := sc.2.1, sB := sc.2.2, ref := followBeats fp32 beats b.ref }
  settle n 2 f o.1 false 0 (rodMod n (fun x => x.setActive b') o.2)

/-! ### MMA (R87) -/

/-- Rod-store format of the 2-bit operand codes of MMA and LOADW: FP16, FP16-B, FP32. -/
def opFmt (c : Nat) : Nat := if c = 1 then 2 else if c = 2 then 1 else 0

/-- One beat of an MMA: the flushed and aligned A column and B row, the recorded scales, the notes. An all-FP16 beat has no
blocks and records no scales: those of the first FP16-B beat after it are the ones recorded (DESIGN CHOICE, log 81). -/
def mmaBeat (s : State) (n : Nat) (w : BitVec 256) (k : Nat) (sc : Option Int × Option Int × Option Int) (t : Tally) :
    (List Val × List Val) × (Option Int × Option Int × Option Int) × Tally :=
  let fa := opFmt (fld w 151 150)
  let fb := opFmt (fld w 149 148)
  let rows := fld w 163 157
  let cols := fld w 156 152
  let mixed := fa = 2 || fb = 2
  let el (f a : Nat) (t : Tally) : Val × Tally := let r := feedElem s n f a; (r.1, t.fl r.2)
  let col := (List.range rows).foldl (fun (acc : List Val × Tally) i =>
    let r := el fa (fld w 255 234 + k * 32 * fld w 233 218 + i * fmtBytes fa) acc.2
    (acc.1 ++ [r.1], r.2)) ([], t)
  let row := (List.range cols).foldl (fun (acc : List Val × Tally) j =>
    let r := el fb (fld w 217 196 + k * 32 * fld w 195 180 + j * fmtBytes fb) acc.2
    (acc.1 ++ [r.1], r.2)) ([], col.2)
  if !mixed then ((col.1, row.1), sc, row.2)
  else
    let rd (f a : Nat) (t : Tally) : Int × Tally := if f = 2 then t.scale k ((rsRead s n a 1).getD 0 0) else (0, t)
    let a0 := rd fa (fld w 147 126 + 2 * k) row.2
    let a1 := rd fa (fld w 147 126 + 2 * k + 1) a0.2
    let bb := if k % 2 = 0 || fb ≠ 2 then rd fb (fld w 125 104 + k / 2) a1.2
      else ((scaleOf ((rsRead s n (fld w 125 104 + k / 2) 1).getD 0 0)).1, a1.2)
    let r0 := sc.1.getD a0.1
    let r1 := sc.2.1.getD a1.1
    let rb := sc.2.2.getD bb.1
    let ca := alignList (64 * k) (col.1.zipIdx.map (fun v => (v.1, if v.2 < 32 then (a0.1, r0) else (a1.1, r1)))) bb.2
    let rb' := alignList (64 * k) (row.1.map (fun v => (v, bb.1, rb))) ca.2
    ((ca.1, rb'.1), (some r0, some r1, some rb), rb'.2)

/-- The beats of an MMA from beat `k`. -/
def mmaBeats (s : State) (n : Nat) (w : BitVec 256) : Nat → Nat → (Option Int × Option Int × Option Int) → Tally →
    List (List Val × List Val) × (Option Int × Option Int × Option Int) × Tally
  | 0, _, sc, t => ([], sc, t)
  | m + 1, k, sc, t =>
    let b := mmaBeat s n w k sc t
    let r := mmaBeats s n w m (k + 1) b.2.1 b.2.2
    (b.1 :: r.1, r.2)

/-- In the replay pass an operand or an output that starts inside a widened range halts (R128 item 4). -/
def replayBad (r : Run) (starts : List Nat) : Bool := r.replaying && starts.any r.widened

/-- Operand starts of an MMA: its panels and the scale arrays it reads (R76). -/
def mmaStarts (w : BitVec 256) : List Nat :=
  [fld w 255 234, fld w 217 196] ++ (if fld w 151 150 = 1 then [fld w 147 126] else [])
    ++ (if fld w 149 148 = 1 then [fld w 125 104] else [])

/-- The beats of an MMA with the scales of the active bank. -/
def mmaAll (s : State) (rod : Nat) (w : BitVec 256) : List (List Val × List Val) × (Option Int × Option Int × Option Int) × Tally :=
  let b := (rodGet s rod).active
  mmaBeats s rod w (fld w 179 164) 0 (b.sA0, b.sA1, b.sB) {}

/-- MMA (R87, R48, R58, R60 to R62). -/
def execMma (rod : Fin 64) (e : Option Upset) (s : State) : Host.Outcome State Fault Refusal :=
  .next (onUnit s rod 2 0x08 e (fun r f s =>
    let w := f.word
    if wrongService (rodGet s rod).active (fld w 12 12 = 1) then haltRod rod hIllegal f.va w s
    else if replayBad r (mmaStarts w) then haltRod rod hBracket f.va w s
    else
      let m := mmaAll s rod w
      runInto rod f (fld w 12 12 = 1) (fld w 163 157) (fld w 156 152) m.2.1 m.1 m.2.2 s))

/-! ### LOADW (R63, R64, R85, R86) -/

/-- A dimension of a window parameter block: EXT, kernel, stride, dilation, pad (R85). -/
structure Dim where
  ext : Nat
  ker : Nat
  str : Nat
  dil : Nat
  pad : Nat
deriving DecidableEq, Repr

def dimOf (v : Nat) : Dim := ⟨bitsOf v 15 0, bitsOf v 19 16 + 1, bitsOf v 22 20 + 1, bitsOf v 26 23 + 1, bitsOf v 30 27⟩

/-- The window parameter block, read when the LOADW starts (R85). -/
structure Window where
  d : Dim
  h : Dim
  w : Dim
  scaleBase : Nat
  fmt : Nat
  pd : Nat
  ph : Nat
  pw : Nat
  rowPitch : Nat
  planePitch : Nat
  chPitch : Nat
  base : Nat
deriving DecidableEq, Repr

def windowOf (v : Nat) : Window :=
  ⟨dimOf (bitsOf v 222 192), dimOf (bitsOf v 190 160), dimOf (bitsOf v 158 128), bitsOf v 126 105, bitsOf v 104 103,
    bitsOf v 102 100, bitsOf v 99 97, bitsOf v 96 94, bitsOf v 93 70, bitsOf v 69 46, bitsOf v 45 22, bitsOf v 21 0⟩

/-- Reserved bits 0 and every field within T3.4 and T4.6, the rod-store addresses below 0x30_0000 (R80). -/
def windowOk (v : Nat) (fp32 : Bool) : Bool :=
  let x := windowOf v
  bitsOf v 511 223 = 0 && bitsOf v 191 191 = 0 && bitsOf v 159 159 = 0 && bitsOf v 127 127 = 0
    && 1 ≤ x.d.ext && 1 ≤ x.h.ext && 1 ≤ x.w.ext
    && x.fmt ≤ 2 && decide (x.fmt = 2) = fp32
    && x.pd + x.ph + x.pw = (if fp32 then 5 else 6)
    && x.base % fmtBytes (opFmt x.fmt) = 0 && x.base < rsSize && (x.fmt ≠ 1 || x.scaleBase < rsSize)

/-- K of a LOADW: channels times kernel positions (R86). -/
def loadwK (x : Window) (count : Nat) : Nat := count * x.d.ker * x.h.ker * x.w.ker

/-- Element offset of tile row `i` at step `k`, or none for padding (R63). -/
def windowElem (x : Window) (w : BitVec 256) (i k : Nat) : Option Nat :=
  let pw := 2 ^ x.pw
  let ph := 2 ^ x.ph
  let od := fld w 163 148 + i / (pw * ph)
  let oh := fld w 179 164 + i / pw % ph
  let ow := fld w 195 180 + i % pw
  let kw := k % x.w.ker
  let kh := k / x.w.ker % x.h.ker
  let kd := k / (x.w.ker * x.h.ker) % x.d.ker
  let c := fld w 147 132 + k / (x.w.ker * x.h.ker * x.d.ker)
  let at_ (o kk : Nat) (q : Dim) : Int := (o * q.str + kk * q.dil : Nat) - (q.pad : Int)
  let a := at_ od kd x.d
  let b := at_ oh kh x.h
  let e := at_ ow kw x.w
  if a < 0 ∨ b < 0 ∨ e < 0 ∨ (x.d.ext : Int) ≤ a ∨ (x.h.ext : Int) ≤ b ∨ (x.w.ext : Int) ≤ e then none
  else some (c * x.chPitch + a.toNat * x.planePitch + b.toNat * x.rowPitch + e.toNat)

/-- One beat of a LOADW. Each element read counts as a block with its own scale (R58); scales are recorded as in `mmaBeat`, and
a scale byte out of range is counted for each element that reads it, elements that share a block each for itself (DESIGN
CHOICE, log 81). -/
def loadwBeat (s : State) (n : Nat) (x : Window) (w : BitVec 256) (k : Nat)
    (sc : Option Int × Option Int × Option Int) (t : Tally) :
    (List Val × List Val) × (Option Int × Option Int × Option Int) × Tally :=
  let fa := opFmt x.fmt
  let fb := opFmt (fld w 103 102)
  let rows := fld w 115 109
  let cols := fld w 108 104
  let mixed := fa = 2 || fb = 2
  let col := (List.range rows).foldl (fun (acc : List (Val × Option Int) × Tally) i =>
    match windowElem x w i k with
    | none => (acc.1 ++ [(.zero false, none)], acc.2)
    | some e =>
      let r := feedElem s n fa (x.base + e * fmtBytes fa)
      let t := acc.2.fl r.2
      if fa = 2 then
        let q := t.scale (64 * k + i) ((rsRead s n (x.scaleBase + e / 32) 1).getD 0 0)
        (acc.1 ++ [(r.1, some q.1)], q.2)
      else (acc.1 ++ [(r.1, some 0)], t)) ([], t)
  let row := (List.range cols).foldl (fun (acc : List Val × Tally) j =>
    let r := feedElem s n fb (fld w 255 234 + k * 32 * fld w 233 218 + j * fmtBytes fb)
    (acc.1 ++ [r.1], acc.2.fl r.2)) ([], col.2)
  if !mixed then ((col.1.map (·.1), row.1), sc, row.2)
  else
    let half (h : Nat) : Int := (((col.1.drop (32 * h)).take 32).findSome? (·.2)).getD 0
    let q := fld w 101 80 + k / 2
    let bb := if fb = 2 then
        (if k % 2 = 0 then row.2.scale k ((rsRead s n q 1).getD 0 0) else ((scaleOf ((rsRead s n q 1).getD 0 0)).1, row.2))
      else (0, row.2)
    let r0 := sc.1.getD (half 0)
    let r1 := sc.2.1.getD (half 1)
    let rb := sc.2.2.getD bb.1
    let ca := alignList (64 * k) (col.1.zipIdx.map (fun v =>
      let rec_ := if v.2 < 32 then r0 else r1
      (v.1.1, v.1.2.getD rec_, rec_))) bb.2
    let cb := alignList (64 * k) (row.1.map (fun v => (v, bb.1, rb))) ca.2
    ((ca.1, cb.1), (some r0, some r1, some rb), cb.2)

/-- The beats of a LOADW from beat `k`. -/
def loadwBeats (s : State) (n : Nat) (x : Window) (w : BitVec 256) : Nat → Nat →
    (Option Int × Option Int × Option Int) → Tally →
    List (List Val × List Val) × (Option Int × Option Int × Option Int) × Tally
  | 0, _, sc, t => ([], sc, t)
  | m + 1, k, sc, t =>
    let b := loadwBeat s n x w k sc t
    let r := loadwBeats s n x w m (k + 1) b.2.1 b.2.2
    (b.1 :: r.1, r.2)

/-- The window parameter block of a LOADW. -/
def loadwBlock (s : State) (rod : Nat) (w : BitVec 256) : Nat := leNat (rsRead s rod (fld w 217 196) 64)

/-- An element that a LOADW reads, or its scale, lies outside the rod store: the pitches break T3.4. -/
def windowOut (x : Window) (w : BitVec 256) : Bool :=
  let es := fmtBytes (opFmt x.fmt)
  (List.range (loadwK x (fld w 131 116))).any (fun k => (List.range (fld w 115 109)).any (fun i =>
    match windowElem x w i k with
    | some e => !inRs (x.base + e * es) es || (x.fmt = 1 && !inRs (x.scaleBase + e / 32) 1)
    | none => false))

/-- A LOADW that may not run in the bank: its block lies outside T3.4, K is too large, or the service is wrong (R61, R64,
R85, R86). -/
def loadwBad (s : State) (rod : Nat) (w : BitVec 256) : Bool :=
  let v := loadwBlock s rod w
  !windowOk v (fld w 12 12 = 1) || decide (65535 < loadwK (windowOf v) (fld w 131 116)) || windowOut (windowOf v) w
    || wrongService (rodGet s rod).active (fld w 12 12 = 1)

/-- An address of the B operand of a LOADW reaches past the rod store (R80): K comes from the block, so the range is checked
as it runs. -/
def loadwRange (x : Window) (w : BitVec 256) : Bool :=
  let k := loadwK x (fld w 131 116)
  !inRs (fld w 255 234) ((k - 1) * 32 * fld w 233 218 + fld w 108 104 * fmtBytes (opFmt (fld w 103 102)))
    || (fld w 103 102 = 1 && !inRs (fld w 101 80) ((k + 1) / 2))

/-- Operand starts of a LOADW (R76). -/
def loadwStarts (x : Window) (w : BitVec 256) : List Nat :=
  [fld w 255 234, x.base, fld w 217 196] ++ (if fld w 103 102 = 1 then [fld w 101 80] else [])
    ++ (if x.fmt = 1 then [x.scaleBase] else [])

/-- The beats of a LOADW with the scales of the active bank. -/
def loadwAll (s : State) (rod : Nat) (w : BitVec 256) : List (List Val × List Val) × (Option Int × Option Int × Option Int) × Tally :=
  let x := windowOf (loadwBlock s rod w)
  let b := (rodGet s rod).active
  loadwBeats s rod x w (loadwK x (fld w 131 116)) 0 (b.sA0, b.sA1, b.sB) {}

/-- LOADW (R86). The window block is checked when it starts (R85); addresses that reach past the rod
store halt with RS_RANGE (R80). -/
def execLoadw (rod : Fin 64) (e : Option Upset) (s : State) : Host.Outcome State Fault Refusal :=
  .next (onUnit s rod 2 0x02 e (fun r f s =>
    let w := f.word
    let x := windowOf (loadwBlock s rod w)
    if loadwBad s rod w then haltRod rod hIllegal f.va w s
    else if replayBad r (loadwStarts x w) then haltRod rod hBracket f.va w s
    else if loadwRange x w then haltRod rod hRange f.va w s
    else
      let m := loadwAll s rod w
      runInto rod f (fld w 12 12 = 1) (fld w 115 109) (fld w 108 104) m.2.1 m.1 m.2.2 s))

/-! ### SWAP and the bank load (R51, R54, R88) -/

/-- The newly active bank after a SWAP with its preload (T3.1, R62, R134). A ROWBCAST with the FP32 bit puts +0.0 into the
elements other than (2i, 2j), of which Table 3.1 says nothing (DESIGN CHOICE, log 81). -/
def preload (code : Nat) (fp32 : Bool) (vec : List (BitVec 32)) (b : Bank) : Bank :=
  if code = 1 then { rows := if fp32 then 32 else 64, cols := if fp32 then 8 else 16, svc := fp32 }
  else if code = 2 then
    let nr := if fp32 then 32 else 64
    let nc := if fp32 then 8 else 16
    { acc := if fp32 then tileOf (fun i j => if i % 2 = 0 && j % 2 = 0 then vec.getD (j / 2) 0#32 else 0#32)
             else tileOf (fun _ j => vec.getD j 0#32)
      rows := nr, cols := nc, svc := fp32, bcast := some fp32
      ref := { rows := sumsOf nr (fun _ => rneSum vec)
               col0 := sumsOf nc (fun j => mulRne (vec.getD j 0#32) (if fp32 then 0x41800000#32 else 0x42000000#32))
               col1 := sumsOf nc (fun j => mulRne (vec.getD j 0#32) (if fp32 then 0x41800000#32 else 0x42000000#32)) } }
  else { b with svc := fp32 }

/-- The bank a SWAP makes active, with its preload from the rod store. -/
def swapBank (s : State) (rod : Nat) (w : BitVec 256) : Bank :=
  let fp32 := fld w 12 12 = 1
  let vec := (List.range (if fp32 then 8 else 16)).map (fun j => BitVec.ofNat 32 (rsWord s rod (fld w 255 234 + 4 * j)))
  preload (fld w 233 232) fp32 vec (rodGet s rod).shadow

/-- SWAP (R51, R88). -/
def execSwap (rod : Fin 64) (e : Option Upset) (s : State) : Host.Outcome State Fault Refusal :=
  .next (onUnit s rod 2 0x09 e (fun _ f s =>
    let x := rodGet s rod
    settle rod 2 f {} false 0 (rodSet rod ({ x with act1 := !x.act1 }.setActive (swapBank s rod f.word)) s)))

/-- What a bank load puts into the shadow bank: 64 rows of 16 FP32 values with their sums; and its notes. -/
def bankLoadOf (s : State) (rod : Nat) (w : BitVec 256) : Bank × Tally :=
  let raw (k : Nat) : Nat := rsWord s rod (fld w 229 208 + k / 16 * fld w 207 184 + k % 16 * 4)
  let vals := (List.range 1024).map (fun k => decElem 1 (raw k) 0)
  let t : Tally := { inFlush := (vals.filter (·.2)).length }
  let c := convRun 1 false 0#64 0 0 (vals.map (·.1)) t
  let at_ (i j : Nat) : BitVec 32 := BitVec.ofNat 32 (c.1.getD (16 * i + j) 0)
  let ref : WvRef :=
    { rows := sumsOf 64 (fun i => rneSum ((List.range 16).map (at_ i)))
      col0 := sumsOf 16 (fun j => rneSum ((List.range 32).map (fun i => at_ i j)))
      col1 := sumsOf 16 (fun j => rneSum ((List.range 32).map (fun i => at_ (i + 32) j))) }
  ({ acc := tileOf at_, mode := some false, ref := ref }, c.2.2)

/-- BANK_LOAD: a LOAD with TARGET 1 (R54, R81). -/
def execBankLoad (rod : Fin 64) (e : Option Upset) (s : State) : Host.Outcome State Fault Refusal :=
  .next (onUnit s rod 2 0x01 e (fun r f s =>
    if replayBad r [fld f.word 229 208] then haltRod rod hBracket f.va f.word s
    else
      let b := bankLoadOf s rod f.word
      settle rod 2 f b.2 false 0 (rodMod rod (fun x => x.setShadow b.1) s)))

/-! ### DRAIN (R90 to R92, R126, R134, R135) -/

/-- Block of keys of column `j` under a block-selective mask (R91). -/
def maskBlock (w : BitVec 256) (j : Nat) : Nat := (fld w 169 148 + j) / 2 ^ (fld w 144 141 + 6)

/-- Rod-store address of the bitmap byte of element (i, j) (R91). -/
def maskAddr (w : BitVec 256) (i j : Nat) : Nat :=
  let l := fld w 144 141 + 6
  let row := (fld w 191 170 + i) / 2 ^ l - fld w 191 170 / 2 ^ l
  fld w 140 119 + row * 32 * fld w 118 103 + maskBlock w j / 8

/-- Element (i, j) is masked (R91); the bitmap is read from the rod store. -/
def maskedAt (s : State) (n : Nat) (w : BitVec 256) (i j : Nat) : Bool :=
  (bitOf (fld w 147 146) 0 && fld w 191 170 + i < fld w 169 148 + j)
    || (bitOf (fld w 147 146) 1 && !bitOf ((rsRead s n (maskAddr w i j) 1).getD 0 0).toNat (maskBlock w j % 8))

/-- Steps 1 to 3 of R126 on one element: the value, whether it saturated (SCALE_OVERFLOW), and the notes. -/
def drainScale (idx : Nat) (e : Int) (v : BitVec 32) (t : Tally) : Val × Bool × Tally :=
  let y := vscale e (dec32 v)
  match y with
  | .fin neg m q =>
    if !magLe m q (2 ^ 24 - 1) 104 then
      (dec32 (max32 neg), true, { t.ev kScaleOvf idx (inf32 neg) with range := t.range + 1 })
    else if (trunc32 y).udf then (.zero neg, false, { t with scaleUnder := t.scaleUnder + 1 })
    else (y, false, t)
  | _ => (y, false, t)

/-- One element of a DRAIN. -/
structure DrainElem where
  i : Nat
  j : Nat
  /-- `none` is masked. -/
  val : Option Val
  sat : Bool
deriving DecidableEq, Repr

/-- The references of a sampled DRAIN: row sums then column sums, scaled as R134 states. -/
def wvReference (b : Bank) (fp32 : Bool) : List (BitVec 32) :=
  let nr := if fp32 then 32 else 64
  let nc := if fp32 then 8 else 16
  let e (h : Nat) : Int := ((if h = 0 then b.sA0 else b.sA1).getD 0) + b.sB.getD 0
  let sc (h : Nat) (v : BitVec 32) : BitVec 32 := rne32 (vscale (e h) (dec32 v))
  (List.range nr).map (fun i => sc (i / (nr / 2)) (mapGet 0#32 b.ref.rows i))
    ++ (List.range nc).map (fun j => addRne (sc 0 (mapGet 0#32 b.ref.col0 j)) (sc 1 (mapGet 0#32 b.ref.col1 j)))

/-- What a DRAIN puts into the weathervane's queue, or the count of its skip (R135). -/
def sampleDrain (n : Nat) (r : Run) (f : Flight) (b : Bank) (fp32 : Bool) (elems : List (Nat × Nat × BitVec 32))
    (s : State) : State :=
  let fr := n / 16
  let w := f.word
  let part := rodPart s n
  let wv := wvGet s fr
  if wv.queue.length ≥ 4 || fld w 147 146 ≠ 0 || !b.ref.followed then
    wvMod fr (fun x => { x with hist := mapMod 0 x.hist (32 * part + 24) (satAdd 32 · 1) }) s
  else
    let nr := if fp32 then 32 else 64
    let nc := if fp32 then 8 else 16
    let d := (List.range nr).map (fun i => rneSum ((elems.filter (fun e => e.1 = i)).map (·.2.2)))
      ++ (List.range nc).map (fun j => rneSum ((elems.filter (fun e => e.2.1 = j)).map (·.2.2)))
    let x : Sample := { rod := n, part := part, ctx := r.l.ctx, tag := tagOf w, step := f.step, layer := f.layer, second := f.second
                        d := d, r := wvReference b fp32 }
    wvMod fr (fun y => { y with queue := y.queue ++ [x] }) s

/-- The pattern a masked element is written as (R91). -/
def maskFill (fill : Bool) (f : Nat) : Nat := if fill then 0 else if f = 1 then 0xFF800000 else 0xFC00

/-- The overflow flag's record (R131): its first saturated element where one stands in the bank; otherwise
the value and index are open (log 1). -/
def overflowEv (s : State) (b : Bank) (fp32 : Bool) (rows cols : Nat) (t : Tally) : Tally × State :=
  if !b.ovf then (t, s) else
    let nc := if fp32 then 8 else 16
    let hit := ((List.range rows).flatMap (fun i => (List.range cols).map (fun j => (i * nc + j, b.cell fp32 i j)))).find?
      (fun e => e.2 = max32 true || e.2 = max32 false)
    match hit with
    | some e => (t.ev kFp32Ovf e.1 (inf32 (decide (e.2 = max32 true))), s)
    | none => let d := drawFree s; (t.ev kFp32Ovf (d.1 % 2 ^ 32) (inf32 (bitOf d.1 32)), d.2)

/-- The addends of a drain: a masked element has none (R90, R91). -/
def drainElems (s : State) (rod : Nat) (w : BitVec 256) (b : Bank) (fp32 : Bool) (rows cols : Nat) (t : Tally) :
    List DrainElem × Tally :=
  let nc := if fp32 then 8 else 16
  let e (i : Nat) : Int := (if i < 32 then b.sA0.getD 0 else b.sA1.getD 0) + b.sB.getD 0
  let ij := (List.range rows).flatMap (fun i => (List.range cols).map (fun j => (i, j)))
  let l := ij.foldl (fun (acc : List DrainElem × Tally) p =>
    if fld w 147 146 ≠ 0 && maskedAt s rod w p.1 p.2 then (⟨p.1, p.2, none, false⟩ :: acc.1, acc.2)
    else
      let y := drainScale (p.1 * nc + p.2) (e p.1) (b.cell fp32 p.1 p.2) acc.2
      (⟨p.1, p.2, some y.1, y.2.1⟩ :: acc.1, y.2.2)) ([], t)
  (l.1.reverse, l.2)

/-- Scales of FP16-B output: two for each column. -/
def drainScales (fm cols : Nat) (work : List DrainElem) : List Int :=
  let one (j h : Nat) : Int := blockScale nf16 ((work.filter (fun q => q.j = j && q.i / 32 = h)).filterMap (·.val))
  if fm = 2 then (List.range cols).flatMap (fun j => [one j 0, one j 1]) else []

/-- Scale of an element. -/
def scaleAt (scales : List Int) (q : DrainElem) : Int := scales.getD (2 * q.j + q.i / 32) 0

/-- The patterns written, with the number of draws taken. -/
def drainCodes (s : State) (rod : Nat) (r : Run) (w : BitVec 256) (fm nc : Nat) (scales : List Int) (work : List DrainElem)
    (t : Tally) : Nat × List (DrainElem × Nat) × Tally :=
  let narrow := fm ≠ 1
  let key := rodKey s rod r.l
  let done := work.foldl (fun (acc : Nat × List (DrainElem × Nat) × Tally) q =>
    let (k, l, t) := acc
    match q.val with
    | none => (k + 1, (q, maskFill (fld w 145 145 = 1) fm) :: l, t)
    | some v =>
      let c := encElem fm (scaleAt scales q) (if narrow then draw key (r.draws + k) else 65535) v
      let t := if q.sat then t else t.conv (q.i * nc + q.j) v c
      (k + 1, (q, c.bits) :: l, t)) (0, [], t)
  (done.1, done.2.1.reverse, done.2.2)

/-- Write the patterns and the scales to the rod store. -/
def drainStore (rod : Nat) (w : BitVec 256) (fm : Nat) (scales : List Int) (out : List (DrainElem × Nat)) (s : State) : State :=
  let es := fmtBytes fm
  let dst := fld w 255 234
  let pitch := 32 * fld w 233 218
  let s := out.foldl (fun s q =>
    rsWrite rod (if fld w 192 192 = 1 then dst + q.1.j * pitch + q.1.i * es else dst + q.1.i * pitch + q.1.j * es) (natLe es q.2) s) s
  if fm = 2 then rsWrite rod (fld w 214 193) (scales.map (fun v => BitVec.ofInt 8 v)) s else s

/-- Sample the drain where it is due or a CHECK marked it at issue, and count it (R106, R135). -/
def drainSample (rod : Nat) (r r' : Run) (f : Flight) (b : Bank) (fp32 : Bool) (elems : List (Nat × Nat × BitVec 32)) (s : State) :
    State :=
  let n' := (rodGet s rod).drains + 1
  let due := n' = 2 ^ mapGet 8 s.dev.wvLog2 (rodPart s rod)
  let s := if due || f.check then sampleDrain rod r f b fp32 elems s else s
  rodMod rod (fun x => { x with drains := if due then 0 else n', run := x.run.map (fun y => { y with wide := r'.wide }) }) s

/-- Extent of the shadow bank that a DRAIN writes. -/
def drainRows (b : Bank) : Nat := min b.rows (if b.mode.getD b.svc then 32 else 64)

def drainCols (b : Bank) : Nat := min b.cols (if b.mode.getD b.svc then 8 else 16)

/-- The DRAIN itself, once its fields are good. -/
def drainRun (rod : Nat) (r r' : Run) (f : Flight) (s : State) : State :=
  let w := f.word
  let b := (rodGet s rod).shadow
  let fp32 := b.mode.getD b.svc
  let fm := r.writeFmt (fld w 217 215)
  let o := overflowEv s b fp32 (drainRows b) (drainCols b) {}
  let work := drainElems o.2 rod w b fp32 (drainRows b) (drainCols b) o.1
  let scales := drainScales fm (drainCols b) work.1
  let codes := drainCodes o.2 rod r w fm (if fp32 then 8 else 16) scales work.1 work.2
  let elems := codes.2.1.map (fun q => (q.1.i, q.1.j, rne32 (decElem fm q.2 (scaleAt scales q.1)).1))
  settle rod 2 f codes.2.2 (fm = 0 || fm = 2) (if fm ≠ 1 then codes.1 else 0)
    (drainSample rod r r' f b fp32 elems (drainStore rod w fm scales codes.2.1 o.2))

/-- Bytes from the first output of a DRAIN to the last. -/
def drainLen (s : State) (rod : Nat) (r : Run) (w : BitVec 256) : Nat :=
  let b := (rodGet s rod).shadow
  (if fld w 192 192 = 1 then drainCols b - 1 else drainRows b - 1) * (32 * fld w 233 218)
    + (if fld w 192 192 = 1 then drainRows b else drainCols b) * fmtBytes (r.writeFmt (fld w 217 215))

/-- FP16-B output of an FP32 tile, or a mask that reaches past position 4,194,303 (R90, R91). -/
def drainBad (s : State) (rod : Nat) (w : BitVec 256) : Bool :=
  let b := (rodGet s rod).shadow
  (fld w 217 215 = 2 && b.mode.getD b.svc)
    || (fld w 147 146 ≠ 0 && (4194303 < fld w 191 170 + drainRows b - 1 || 4194303 < fld w 169 148 + drainCols b - 1))

/-- An output of a DRAIN, or a byte of the bitmap it reads, lies past the rod store (R80). -/
def drainRange (s : State) (rod : Nat) (r : Run) (w : BitVec 256) : Bool :=
  let b := (rodGet s rod).shadow
  !inRs (fld w 255 234) (drainLen s rod r w)
    || (bitOf (fld w 147 146) 1 && (List.range (drainRows b)).any (fun i => (List.range (drainCols b)).any (fun j =>
      !inRs (maskAddr w i j) 1)))
    || (r.writeFmt (fld w 217 215) = 2 && !inRs (fld w 214 193) (2 * drainCols (rodGet s rod).shadow))

/-- DRAIN (R90). -/
def execDrain (rod : Fin 64) (e : Option Upset) (s : State) : Host.Outcome State Fault Refusal :=
  .next (onUnit s rod 2 0x0A e (fun r f s =>
    let w := f.word
    if drainBad s rod w then haltRod rod hIllegal f.va w s
    else if drainRange s rod r w then haltRod rod hRange f.va w s
    else match r.widen (fld w 217 215) (fld w 255 234) (drainLen s rod r w) with
    | none => haltRod rod hBracket f.va w s
    | some r' => drainRun rod r r' f s))

/-! ### MMV (R67, R89) -/

/-- One row total of an MMV: sums of 16 products formed exactly, then one truncated addition each; with
FP16-B each 32-element block's sum is scaled first (R67, R89). -/
def mmvRow (s : State) (n : Nat) (w : BitVec 256) (m : Nat) (t : Tally) : BitVec 32 × Tally :=
  let k := fld w 157 142
  let sc (a : Nat) (idx : Nat) (t : Tally) : Int × Tally := t.scale idx ((rsRead s n a 1).getD 0 0)
  let blocks := (k + 31) / 32
  (List.range ((k + 15) / 16)).foldl (fun (acc : BitVec 32 × Tally) g =>
    let prods := (List.range (min 16 (k - 16 * g))).foldl (fun (p : Val × Tally) i =>
      let a := feedElem s n 0 (fld w 255 234 + m * 32 * fld w 233 218 + 2 * (16 * g + i))
      let b := feedElem s n 0 (fld w 217 196 + 2 * (16 * g + i))
      (vadd p.1 (vmul a.1 b.1), (p.2.fl a.2).fl (b.2 && m % 8 = 0))) (.zero false, acc.2)
    let q := if fld w 141 141 = 1 then
        let a := if g % 2 = 0 then sc (fld w 140 119 + m * blocks + g / 2) m prods.2
          else ((scaleOf ((rsRead s n (fld w 140 119 + m * blocks + g / 2) 1).getD 0 0)).1, prods.2)
        let b := if g % 2 = 0 && m % 8 = 0 then sc (fld w 118 97 + g / 2) m a.2
          else ((scaleOf ((rsRead s n (fld w 118 97 + g / 2) 1).getD 0 0)).1, a.2)
        (vscale (a.1 + b.1) prods.1, b.2)
      else prods
    let r := trunc32 (vadd (dec32 acc.1) q.1)
    let v := if r.ovf then q.2.ev kFp32Ovf m (inf32 (r.bits.getLsbD 31)) else q.2
    (r.bits, if r.udf then { v with outFlush := v.outFlush + 1 } else v)) (0#32, t)

/-- The values of an MMV, and what they raised. -/
def mmvAll (s : State) (rod : Nat) (w : BitVec 256) : List (BitVec 32) × Tally :=
  let y := (List.range (fld w 173 158)).foldl (fun (acc : List (BitVec 32) × Tally) m =>
    let q := mmvRow s rod w m acc.2
    (q.1 :: acc.1, q.2)) ([], {})
  (y.1.reverse, { y.2 with evs := y.2.evs.filter (fun e => e.kind ≠ kFp32Ovf) })

/-- Operand and output starts of an MMV (R76). -/
def mmvStarts (w : BitVec 256) : List Nat :=
  [fld w 255 234, fld w 217 196, fld w 195 174] ++ (if fld w 141 141 = 1 then [fld w 140 119, fld w 118 97] else [])

/-- MMV (R89). -/
def execMmv (rod : Fin 64) (e : Option Upset) (s : State) : Host.Outcome State Fault Refusal :=
  .next (onUnit s rod 2 0x0B e (fun r f s =>
    let w := f.word
    if replayBad r (mmvStarts w) then haltRod rod hBracket f.va w s
    else
      let y := mmvAll s rod w
      let o := openFirst s y.2
      settle rod 2 f o.1 false 0 (rsWrite rod (fld w 195 174) (y.1.flatMap (fun v => natLe 4 v.toNat)) o.2)))

end Sys2Proof.Machine
end

