-- ==== Sys2Proof/Machine/Flags.lean ====
section
/-!
DEFINITION. The status registers and the status pins, computed from the state (spec/12_host_command_interface.md R335,
R336, T12.3, T12.4; spec/14_fault_collection.md R405; spec/18_signals_electrical.md R472, T18.5).
-/

namespace Sys2Proof.Machine

/-! ### Status registers (R335, R336) -/

/-- Some queue whose home is port `a` is bound to the other port. -/
def anyAway (s : State) (a : Nat) : Bool := s.host.queues.any (fun kv => homeOf kv.1 = a && kv.2.away)

/-- ADMIN_CFG of a port (T12.4): VECTOR resets to 1. -/
def adminCfg (s : State) (p : Nat) : BitVec 32 := mapGet 0x00010000#32 s.host.acfg p

/-- DEV_STATUS as port `p` shows it (T12.3). -/
def devStatus (s : State) (p : Nat) : Nat :=
  let b (x : Bool) (i : Nat) : Nat := if x then 2 ^ i else 0
  fieldAt s.dev.stage 4 60 + b s.dev.ready 59 + b s.dev.safe 58 + b s.dev.retired 57
    + b (bitOf (adminCfg s p).toNat 31) 56 + b (linkUp s (1 - p)) 55
    + b (anyAway s (1 - p)) 54 + b (anyAway s p) 53
    + (match s.jr.pair with | .bound => 2 ^ 51 | .lost => 2 ^ 52 | _ => 0)
    + s.dev.bootId.toNat * 2 ^ 32 + p % 256

/-- Sources whose sticky bit is set. -/
def stickyList (s : State) : List Nat := (List.range 4096).filter (fun n => s.fc.sticky.getLsbD n)

/-- FAULT_SUMMARY (T12.4). -/
def faultSummary (s : State) : Nat :=
  let l := stickyList s
  (if s.dev.safe then 2 ^ 63 else 0) + (if s.fc.thermtrip then 2 ^ 62 else 0)
    + min l.length 65535 * 2 ^ 32 + l.foldl (fun a n => max a (sevOf s n)) 0

/-- TRAY_ALERT_N is driven low (R405). -/
def trayAlertLow (s : State) : Bool :=
  s.dev.safe || (stickyList s).any (fun n => sevOf s n = 1 || sevOf s n = 2)

/-- Levels of the four status outputs (T18.5): READY, and whether FAULT_N, THERMTRIP_N and TRAY_ALERT_N are driven low. An
output of a package that is off is not driven. -/
def outputs (s : State) : Bool × Bool × Bool × Bool :=
  if s.sup.domains.getLsbD 0 then (s.dev.ready, s.sup.faultNLow, s.sup.thermtripLow, trayAlertLow s)
  else (false, false, false, false)

end Sys2Proof.Machine
end

