-- ==== Sys2Proof/Machine/Manage.lean ====
section
/-!
DEFINITION. Management commands (spec/12_host_command_interface.md T12.8, R350 to R359): IDENTIFY,
GET_INFO, the settings of T12.20 that concern queues, faults, power, the journal and the
weathervanes, GET_PARAM and HOST_ADOPT.
-/

namespace Sys2Proof.Machine

/-- Parameter numbers of T12.20. -/
def paramNumbers : List Nat := [0x01, 0x10, 0x11, 0x20, 0x21, 0x22, 0x30, 0x40, 0x41, 0x42]

/-- A SET_PARAM row: the command is this row's when PARAM is its own, or is no setting at all, in which
case it completes with INVALID_PARAM (R355). `body` gets INDEX and VALUE. -/
def setParam (s : State) (q seq param : Nat) (body : Nat → Nat → Cmd → State → State) : State :=
  runSub s q seq 0x102 (fun c => c.p 0 4 = param || !paramNumbers.contains (c.p 0 4)) false
    [(0, 40)] (fun c s => if c.p 0 4 = param then body (c.p 4 4) (c.p 8 8) c s else refuse c stParam s)

/-- DONE of a SET_PARAM with the value it replaced (R355). -/
def setDone (c : Cmd) (old : Nat) (s : State) : State := finish c stSuccess (natLe 8 old) s

/-- IDENTIFY (T12.8). -/
def execIdentify (q : Fin 512) (seq : Nat) (s : State) : Host.Outcome State Fault Refusal :=
  .next (runCmd s q seq 0x100 false [] (fun c s =>
    finish c stSuccess (natLe 2 0x9600 ++ [0xB0#8, 0x01#8] ++ natLe 8 s.trust.serial.toNat
      ++ natLe 2 (s.dev.zlId.getD 0xFFFF) ++ natLe 1 c.port) s))

/-- The speed word (T2.3). -/
def speedWord (s : State) : Nat :=
  fieldAt s.clk.swVer 4 60 + fieldAt s.clk.beatNom 12 48 + fieldAt s.clk.beatHot 12 36
    + fieldAt s.clk.vslope 8 28 + fieldAt s.clk.beatLive 12 16 + fieldAt s.clk.liveRegion 4 12
    + (if s.clk.degraded then 1 else 0)

/-- Mask of the units below `n` that a map gives to partition `k`. -/
def ownMask (m : FMap Nat) (n k : Nat) : Nat :=
  listMask ((List.range n).filter (fun i => mapGet 0 m i = k))

/-- Context-usable HBM in bytes: 256 channels of 2 GiB less the 4 MiB firmware area of each (R10, R141). -/
def usableHbm : Nat := 256 * (2147483648 - 4194304)

/-- The bytes of a GET_INFO page (T12.17). Pages 0x0001, 0x0004 and 0x0006 hold what the table names; the
order of their fields is not in the spec (log 18). -/
def infoPage (s : State) (page : Nat) : Option Bytes :=
  if page = 1 then some (byteSlice (Config.pageLayout 1
    [64, 256, usableHbm, 320, 802816, 0xB0, (s.trust.booted.getD 0).val,
     leNat (mapGet [] s.trust.fw (s.trust.booted.getD 0).val), s.host.mmaOut.toNat, s.host.rodOut.toNat]) 0 256)
  else if page = 2 then some (natLe 8 (speedWord s))
  else if page = 3 then some (natLe 8 s.clk.ltc)
  else if page = 4 then some ((List.range 8).flatMap (fun k => byteSlice (Config.pageLayout 4
    ([ownMask s.parts.rod 64 k, ownMask s.parts.chan 256 k, ownMask s.parts.seg 320 k,
      listMask ((List.range 32).filter (fun p => mapFind s.parts.ded p = some k)),
      if s.parts.fast.getLsbD k then 1 else 0]
      ++ (List.range 32).map (fun g => listMask (mapGet [] s.parts.groups (32 * k + g))))) 0 128))
  else if page = 5 then some ((List.range 128).flatMap (fun n => natLe 2 (unsgn 16 (mapGet 0 s.clk.sensors n))))
  else if page = 6 then some ((List.range 512).flatMap (fun n =>
    let x := qGet s n
    byteSlice (Config.pageLayout 6 [homeOf n, qPort n x, if x.enabled then 1 else 0, x.e]) 0 8))
  else none

/-- GET_INFO (T12.8, R352). -/
def execGetInfo (q : Fin 512) (seq : Nat) (s : State) : Host.Outcome State Fault Refusal :=
  .next (runCmd s q seq 0x101 false [(0, 2), (8, 8)] (fun c s =>
    match infoPage s (c.p 0 2) with
    | none => refuse c stParam s
    | some b =>
      if b.length ≤ 16 then finish c stSuccess b s
      else finish c stSuccess (natLe 4 b.length) (hostWrite c.port (c.p 8 8) b s)))

/-- Enable a queue with a configuration (R339): heads and tails return to 0 and PHASE to 1. -/
def enableQueue (q vector sqLog2 cqLog2 sqBase cqBase : Nat) (s : State) : State :=
  postHeld q (qSet q { qGet s q with
    enabled := true, vector := vector, sqLog2 := sqLog2, cqLog2 := cqLog2, sqBase := sqBase,
    cqBase := cqBase, sqHead := 0, sqTail := 0, cqHead := 0, cqTail := 0, phase := true } s)

/-- Ring sizes and bases within R339. -/
def ringsOk (sqLog2 cqLog2 sqBase cqBase : Nat) : Bool :=
  4 ≤ sqLog2 && sqLog2 ≤ 16 && sqLog2 + 1 ≤ cqLog2 && cqLog2 ≤ 17 && sqBase % 4096 = 0 && cqBase % 4096 = 0

/-- SET_PARAM QUEUE (R338, R339, T12.5). -/
def execSetParamQueue (q : Fin 512) (seq : Nat) (s : State) : Host.Outcome State Fault Refusal :=
  .next (setParam s q seq 0x01 (fun i _ c s =>
    let v := c.p 16 8
    let on := bitOf v 31
    let x := qGet s i
    if 512 ≤ i || bitsOf v 63 32 ≠ 0 || bitsOf v 30 22 ≠ 0 || bitsOf v 15 13 ≠ 0 || bitsOf v 7 5 ≠ 0 then
      refuse c stParam s
    else if i % 256 = 0 && !x.away then refuse c stParam s
    else if qPort i x ≠ c.port then refuse c stBusy s
    else if x.enabled && on then refuse c stBusy s
    else if on && !ringsOk (bitsOf v 4 0) (bitsOf v 12 8) (c.p 24 8) (c.p 32 8) then refuse c stParam s
    else if on then
      setDone c 0 (enableQueue i (bitsOf v 21 16) (bitsOf v 4 0) (bitsOf v 12 8) (c.p 24 8) (c.p 32 8) s)
    else setDone c 0 (qSet i { x with enabled := false, vector := bitsOf v 21 16, sqLog2 := bitsOf v 4 0,
                                       cqLog2 := bitsOf v 12 8, sqBase := c.p 24 8, cqBase := c.p 32 8 } s)))

/-- A severity that a source may take (R392, R394, T14.4). -/
def sevAllowed (i v : Nat) : Bool :=
  i < 4096 && v ≤ 3 && sourceKnown i && !((i = srcThermtrip || i = srcFcParity) && v ≠ 3)
    && !((i = srcHeartbeat || i = srcFwFault || i = srcMsgParity) && v = 2)

/-- SET_PARAM FC_SEVERITY (R392, R394). -/
def execSetParamFcSeverity (q : Fin 512) (seq : Nat) (s : State) : Host.Outcome State Fault Refusal :=
  .next (setParam s q seq 0x10 (fun i v c s =>
    if !sevAllowed i v then refuse c stParam s
    else setDone c (sevOf s i) { s with fc := { s.fc with sev := mapInsert s.fc.sev i v } }))

/-- SET_PARAM POWER_LIMIT (T12.20, R455). -/
def execSetParamPowerLimit (q : Fin 512) (seq : Nat) (s : State) : Host.Outcome State Fault Refusal :=
  .next (setParam s q seq 0x11 (fun i v c s =>
    if i ≠ 0 || v < 1200 || 2100 < v then refuse c stParam s
    else setDone c s.dev.powerLimit { s with dev := { s.dev with powerLimit := v } }))

/-- SET_PARAM JOURNAL_FLUSH (R355, R363, R376): it is in force for the intake that follows its DONE. -/
def execSetParamJournalFlush (q : Fin 512) (seq : Nat) (s : State) : Host.Outcome State Fault Refusal :=
  .next (setParam s q seq 0x30 (fun i v c s =>
    if i ≠ 0 || 1 < v || (v = 1 && s.jr.pair = .bound) then refuse c stParam s
    else setDone c (if s.dev.journalFlush then 1 else 0)
      (let t := { s with dev := { s.dev with journalFlush := decide (v = 1) }
                         jr := { s.jr with lastCopy := if v = 1 then s.clk.ltc else s.jr.lastCopy } }
       if v = 1 then { t with flushed := some (t.flushed.getD (snapshot t)) } else t)))

/-- SET_PARAM WV_LOG2 (R138). -/
def execSetParamWvLog2 (q : Fin 512) (seq : Nat) (s : State) : Host.Outcome State Fault Refusal :=
  .next (setParam s q seq 0x41 (fun i v c s =>
    if 8 ≤ i || v < 4 || 16 < v then refuse c stParam s
    else setDone c (mapGet 8 s.dev.wvLog2 i) { s with dev := { s.dev with wvLog2 := mapSet 8 s.dev.wvLog2 i v } }))

/-- SET_PARAM WV_THRESH (R138). -/
def execSetParamWvThresh (q : Fin 512) (seq : Nat) (s : State) : Host.Outcome State Fault Refusal :=
  .next (setParam s q seq 0x42 (fun i v c s =>
    if 8 ≤ i || v < 1 || 24 < v then refuse c stParam s
    else setDone c (mapGet 6 s.dev.wvThresh i) { s with dev := { s.dev with wvThresh := mapSet 6 s.dev.wvThresh i v } }))

/-- A queue's configuration value (T12.5). -/
def queueValue (x : Queue) : Bytes :=
  natLe 8 (fieldAt x.sqLog2 5 0 + fieldAt x.cqLog2 5 8 + fieldAt x.vector 6 16 + (if x.enabled then 2 ^ 31 else 0))
    ++ natLe 8 x.sqBase ++ natLe 8 x.cqBase

/-- The value of a setting (T12.20), or none where PARAM or INDEX is out of range. -/
def settingValue (s : State) (param i : Nat) : Option Nat :=
  if param = 0x10 then (if i < 4096 then some (sevOf s i) else none)
  else if param = 0x11 then (if i = 0 then some s.dev.powerLimit else none)
  else if param = 0x20 then (if i = 0 then some (s.dev.zlId.getD 0xFFFF) else none)
  else if param = 0x21 then (if i = 0 then some s.dev.portEnable.toNat else none)
  else if param = 0x22 then (if i = 0 then some s.dev.mirrorPorts.toNat else none)
  else if param = 0x30 then (if i = 0 then some (if s.dev.journalFlush then 1 else 0) else none)
  else if param = 0x40 then (if i < 320 then some (if s.dev.scratch.getLsbD i then 1 else 0) else none)
  else if param = 0x41 then (if i < 8 then some (mapGet 8 s.dev.wvLog2 i) else none)
  else if param = 0x42 then (if i < 8 then some (mapGet 6 s.dev.wvThresh i) else none)
  else none

/-- GET_PARAM (T12.8, R350). -/
def execGetParam (q : Fin 512) (seq : Nat) (s : State) : Host.Outcome State Fault Refusal :=
  .next (runCmd s q seq 0x103 false [(0, 16)] (fun c s =>
    if c.p 0 4 = 0x01 then
      if 512 ≤ c.p 4 4 then refuse c stParam s
      else finish c stSuccess [] (hostWrite c.port (c.p 8 8) (queueValue (qGet s (c.p 4 4))) s)
    else match settingValue s (c.p 0 4) (c.p 4 4) with
      | some v => finish c stSuccess (natLe 8 v) s
      | none => refuse c stParam s))

/-- Bind queue `q` to the other port, disabled; everything else of it stays (R359). An admin queue that
moves loses the ENABLE of its BAR0 registers. -/
def moveQueue (q : Nat) (s : State) : State :=
  let x := qGet s q
  let s := qSet q { x with away := !x.away, enabled := false } s
  if q % 256 = 0 then
    { s with host := { s.host with acfg := mapMod 0x00010000#32 s.host.acfg (homeOf q) (· &&& 0x7FFFFFFF#32) } }
  else s

/-- HOST_ADOPT (R359). -/
def execHostAdopt (q : Fin 512) (seq : Nat) (s : State) : Host.Outcome State Fault Refusal :=
  .next (runCmd s q seq 0x105 false [(0, 3), (8, 64)] (fun c s =>
    let from_ := c.p 0 1
    let dst := c.p 1 1
    let mode := c.p 2 1
    if 1 < from_ || 1 < dst || from_ = dst || 1 < mode || qPort c.queue (qGet s c.queue) ≠ c.port then
      refuse c stParam s
    else
      let l := (List.range 512).filter (fun n => qPort n (qGet s n) = from_ && (mode = 0 || bitOf (c.p 8 64) n))
      let s := l.foldl (fun s n => moveQueue n s) s
      finish c stSuccess (natLe 2 l.length) (if l.isEmpty then s else signalBoth s)))

end Sys2Proof.Machine
end

