-- ==== Sys2Proof/Machine/Bar.lean ====
section
/-!
DEFINITION. BAR0 writes, doorbells and the links of the host ports (spec/12_host_command_interface.md
R333 to R341, R360, R361).
-/

namespace Sys2Proof.Machine

/-- Bits of ADMIN_CFG that a write sets: ENABLE, VECTOR, CQ_LOG2, SQ_LOG2 (T12.4, R8). -/
def adminCfgMask : BitVec 32 := 0x803F1F1F#32

/-- A write of ADMIN_CFG (R336, R338, R339). With ENABLE and rings within R339 the port's own admin
queue, bound to its home port, is enabled; otherwise ENABLE is left at 0 and the queue disabled. -/
def writeAdminCfg (p : Nat) (value : BitVec 32) (s : State) : State :=
  let v := value &&& adminCfgMask
  let n := v.toNat
  let q := 256 * p
  let x := qGet s q
  let sq := mapGet 0 s.host.asq p
  let cq := mapGet 0 s.host.acq p
  let on := bitOf n 31 && !x.away && ringsOk (bitsOf n 4 0) (bitsOf n 12 8) sq cq
  let v := if on then v else v &&& 0x7FFFFFFF#32
  let s := { s with host := { s.host with acfg := mapSet 0x00010000#32 s.host.acfg p v } }
  if on then
    if x.enabled then s else enableQueue q (bitsOf n 21 16) (bitsOf n 4 0) (bitsOf n 12 8) sq cq s
  else if x.away then s else qSet q { x with enabled := false } s

/-- The queue a doorbell slot of a port addresses (R337). -/
def doorbellQueue (p slot : Nat) : Nat := slot ^^^ (256 * p)

/-- A DB_SQ write (R337, R340): a new tail, and the fetch of what is pending. -/
def ringSq (p slot : Nat) (value : BitVec 32) (s : State) : State :=
  let q := doorbellQueue p slot
  let x := qGet s q
  let t := value.toNat % 65536
  if s.dev.safe then s
  else if !x.enabled || qPort q x ≠ p || 2 ^ x.sqLog2 ≤ t then bumpHost p 0 s
  else fetchQueue q (qSet q { x with sqTail := t } s)

/-- A DB_CQ write (R337, R340): a new head, the posting of what the queue holds, and the fetch that a
full ring had stopped. -/
def ringCq (p slot : Nat) (value : BitVec 32) (s : State) : State :=
  let q := doorbellQueue p slot
  let x := qGet s q
  let h := value.toNat % 131072
  if s.dev.safe then s
  else if !x.enabled || qPort q x ≠ p || 2 ^ x.cqLog2 ≤ h then bumpHost p 0 s
  else fetchQueue q (postHeld q (qSet q { x with cqHead := h } s))

/-- A write of one word of an MSI-X table entry (T12.2, as PCI Express): clearing the mask of a vector
whose PBA bit is set sends the message. -/
def writeMsix (p i word : Nat) (value : BitVec 32) (s : State) : State :=
  let k := 64 * p + i
  let e := mapGet {} s.host.msix k
  let e := if word = 0 then { e with addr := (e.addr &&& 0xFFFFFFFF00000000#64) ||| (value.zeroExtend 64 &&& 0xFFFFFFFC#64) }
    else if word = 1 then { e with addr := (e.addr &&& 0xFFFFFFFF#64) ||| (value.zeroExtend 64 <<< 32) }
    else if word = 2 then { e with data := value }
    else { e with masked := value.getLsbD 0 }
  let s := { s with host := { s.host with msix := mapSet {} s.host.msix k e } }
  if !e.masked && s.host.pba.getLsbD k then
    signal p i { s with host := { s.host with pba := s.host.pba &&& ~~~(BitVec.ofNat 128 (2 ^ k)) } }
  else s

/-- A 32-bit write to BAR0 (T12.2). Writes to read-only registers and reserved offsets are ignored
(R6, R334); the admin bases are fixed while ENABLE is 1 (R336). -/
def writeWord (p off : Nat) (v : BitVec 32) (s : State) : State :=
  let base (m : FMap Nat) (hi : Bool) : FMap Nat :=
    let o := mapGet 0 m p
    mapSet 0 m p (if hi then o % 2 ^ 32 + v.toNat * 2 ^ 32 else o / 2 ^ 32 * 2 ^ 32 + v.toNat)
  let fixed := bitOf (adminCfg s p).toNat 31
  if off = 0x20 || off = 0x24 then
    if fixed then s else { s with host := { s.host with asq := base s.host.asq (off = 0x24) } }
  else if off = 0x28 || off = 0x2C then
    if fixed then s else { s with host := { s.host with acq := base s.host.acq (off = 0x2C) } }
  else if off = 0x30 then writeAdminCfg p v s
  else if 0x2000 ≤ off && off < 0x2400 then writeMsix p ((off - 0x2000) / 16) (off / 4 % 4) v s
  else if 0x8000 ≤ off && off < 0x9000 then
    let slot := (off - 0x8000) / 8
    if off % 8 = 0 then ringSq p slot v s else ringCq p slot v s
  else s

/-! ### Reads of BAR0 (R6, R334, R401) -/

/-- A word of a fault window: 32 sticky bits, or 16 severities of two bits (T14.7, T14.8). -/
def stickyWord (s : State) (w : Nat) : BitVec 32 := s.fc.sticky.extractLsb' (32 * w) 32

def severityWord (s : State) (w : Nat) : BitVec 32 :=
  BitVec.ofNat 32 ((List.range 16).foldl (fun a k => a + sevOf s (16 * w + k) * 4 ^ k) 0)

/-- A word of an MSI-X table entry (T12.2, as PCI Express). -/
def msixWord (s : State) (p i word : Nat) : BitVec 32 :=
  let e := mapGet {} s.host.msix (64 * p + i)
  if word = 0 then e.addr.extractLsb' 0 32 else if word = 1 then e.addr.extractLsb' 32 32
  else if word = 2 then e.data else if e.masked then 1#32 else 0#32

/-- Word `hi` of a register of 64 bits. -/
def wordOf (v : Nat) (hi : Bool) : BitVec 32 := BitVec.ofNat 32 (if hi then v / 2 ^ 32 else v)

/-- What a 32-bit read of BAR0 returns on a port (T12.2): the current value of an RO or RW register, 0 for a WO
register and a reserved offset (R6, R334). DEV_STATUS, HEARTBEAT and FAULT_SUMMARY come from their shadows, which Zenith keeps up to date while PD_ON runs (R401). No
read changes anything, and no row of the table is a read. -/
def readWord (s : State) (p off : Nat) : BitVec 32 :=
  let hi := decide (off % 8 = 4)
  if off < 0x08 then wordOf (if zenithRuns s then devStatus s p else if p = 0 then s.host.shadow.1 else s.host.shadow.2.1) hi
  else if off < 0x10 then wordOf s.clk.shadow hi
  else if off < 0x18 then wordOf (if zenithRuns s then faultSummary s else s.host.shadow.2.2) hi
  else if 0x20 ≤ off && off < 0x28 then wordOf (mapGet 0 s.host.asq p) hi
  else if 0x28 ≤ off && off < 0x30 then wordOf (mapGet 0 s.host.acq p) hi
  else if off = 0x30 then adminCfg s p
  else if 0x2000 ≤ off && off < 0x2400 then msixWord s p ((off - 0x2000) / 16) (off / 4 % 4)
  else if 0x3000 ≤ off && off < 0x3008 then wordOf ((s.host.pba.extractLsb' (64 * p) 64).toNat) hi
  else if 0x4000 ≤ off && off < 0x4200 then stickyWord s ((off - 0x4000) / 4)
  else if 0x4200 ≤ off && off < 0x4600 then severityWord s ((off - 0x4200) / 4)
  else 0#32

/-- What a configuration read of 32 bits returns on a port: the identity and BAR0 of T12.1 where the PCI standard's header puts them,
the rest as its capabilities lay it out (log 87). Safe state, stages 0xE and 0xF and a retired device answer alike (R361, R430, R431). No
row of the table is a configuration request, and no read changes anything. -/
def configRead (s : State) (p off : Nat) : Option (BitVec 32) :=
  let c := mapGet {} s.host.cfg p
  if !s.sup.domains.getLsbD 29 || !bitOf s.sup.perst.toNat p || !linkUp s p || off % 4 ≠ 0 || 4096 ≤ off then none
  else if off = 0x00 then some (0x9600#16 ++ Config.vendorId)
  else if off = 0x08 then some 0x120000B0#32
  else if off = 0x10 then some (c.bar0.extractLsb' 0 32 &&& 0xFFFF0000#32 ||| 4#32)
  else if off = 0x14 then some (c.bar0.extractLsb' 32 32)
  else some (Config.configWord off [c.payload, c.readRequest, if c.d3hot then 1 else 0, if c.ecrc then 1 else 0, c.aer.toNat])

/-- Registers that answer in safe state and in stages 0xE and 0xF (R361, R431): DEV_STATUS, HEARTBEAT, FAULT_SUMMARY, the two fault windows. -/
def safeReadable (off : Nat) : Bool := decide (off < 0x18) || (decide (0x4000 ≤ off) && decide (off < 0x4600))

/-- A read of 32 or of 64 bits, naturally aligned (R334), from the first link training on (R333). -/
def registerRead (s : State) (p off : Nat) (wide : Bool) : Option (BitVec 64) :=
  if !bitOf s.host.trained.toNat p || !linkUp s p || off % (if wide then 8 else 4) ≠ 0 || 65536 ≤ off
      || ((s.dev.safe || 0xE ≤ s.dev.stage) && !safeReadable off) then none
  else some ((if wide then readWord s p (off + 4) else 0#32) ++ readWord s p off)

/-! ### Writes of BAR0 by row -/

/-- ADMIN_CFG_WRITE (R336). -/
def execAdminCfgWrite (hp : Fin 2) (value : BitVec 32) (s : State) : Host.Outcome State Fault Refusal :=
  .next (if linkUp s hp then across (zenithRuns s) (.adminCfgWrite hp value) s (writeAdminCfg hp value) else s)

/-- DB_SQ_WRITE (R340). -/
def execDbSqWrite (hp : Fin 2) (slot : Fin 512) (value : BitVec 32) (s : State) : Host.Outcome State Fault Refusal :=
  .next (if linkUp s hp then across (zenithRuns s) (.dbSqWrite hp slot value) s (ringSq hp slot value) else s)

/-- DB_CQ_WRITE (R340). -/
def execDbCqWrite (hp : Fin 2) (slot : Fin 512) (value : BitVec 32) (s : State) : Host.Outcome State Fault Refusal :=
  .next (if linkUp s hp then across (zenithRuns s) (.dbCqWrite hp slot value) s (ringCq hp slot value) else s)

/-- A naturally aligned write of 32 or 64 bits; a write of 64 bits sets the lower word first (R334). -/
def writeRegister (p offset : Nat) (wide : Bool) (value : BitVec 64) (s : State) : State :=
  if offset % (if wide then 8 else 4) ≠ 0 || 65536 ≤ offset then s
  else if wide then writeWord p (offset + 4) (value.extractLsb' 32 32) (writeWord p offset (value.extractLsb' 0 32) s)
  else writeWord p offset (value.extractLsb' 0 32) s

/-- REGISTER_WRITE (R334). -/
def execRegisterWrite (hp : Fin 2) (offset : Nat) (wide : Bool) (value : BitVec 64) (s : State) :
    Host.Outcome State Fault Refusal :=
  .next (if linkUp s hp then across (zenithRuns s) (.registerWrite hp offset wide value) s (writeRegister hp offset wide value) else s)

/-- HOST_LINK_UP (R333, R430): the port trains once PD_HP is powered; its PERST_N is then high. -/
def execHostLinkUp (hp : Fin 2) (s : State) : Host.Outcome State Fault Refusal :=
  .next (
    if s.sup.domains.getLsbD 29 then
      let b := BitVec.ofNat 2 (2 ^ hp.val)
      { s with sup := { s.sup with perst := s.sup.perst ||| b },
               host := { s.host with up := s.host.up ||| b, trained := s.host.trained ||| b } }
    else s)

/-- Every queue bound to a port is disabled (R360); completions stay held. -/
def disablePort (p : Nat) (s : State) : State :=
  let off (kv : Nat × Queue) : Nat × Queue :=
    if qPort kv.1 kv.2 = p then (kv.1, { kv.2 with enabled := false }) else kv
  let qs := (s.host.queues.map off).filter (fun kv => kv.2 ≠ ({} : Queue))
  { s with host := { s.host with queues := qs } }

/-- The PCI Express logic and the admin registers of a port return to their reset values (R336, R360). -/
def resetPort (p : Nat) (s : State) : State :=
  let s := disablePort p s
  let b := ~~~(BitVec.ofNat 2 (2 ^ p))
  { s with
    host := { s.host with
      up := s.host.up &&& b
      asq := mapErase s.host.asq p
      acq := mapErase s.host.acq p
      acfg := mapErase s.host.acfg p
      cfg := mapErase s.host.cfg p
      msix := mapFilter (fun k _ => k / 64 ≠ p) s.host.msix
      deaf := s.host.deaf.filter (fun q => q.1 ≠ p)
      pba := if p = 0 then s.host.pba &&& (~~~0xFFFFFFFFFFFFFFFF#128) else s.host.pba &&& 0xFFFFFFFFFFFFFFFF#128 }
    side := { s.side with spdm := mapErase s.side.spdm p } }

/-- HOST_PORT_RESET (R360, R483): PERST_N low or the loss of the link; HOST_LINK is raised when an up link
goes down (T14.3). -/
def execHostPortReset (hp : Fin 2) (perstLow : Bool) (s : State) : Host.Outcome State Fault Refusal :=
  .next (
    let s := if linkUp s hp then raise (srcHostLink + hp) 0x10 0 s else s
    let s := if perstLow then
        { s with sup := { s.sup with perst := s.sup.perst &&& ~~~(BitVec.ofNat 2 (2 ^ hp.val)) } } else s
    resetPort hp s)

/-- COMPLETION_TIME_OUT (T14.3, T14.4): a DMA read got no completion. An extended block with that address is not readable
until the port is reset (R345; DESIGN CHOICE, log 10). -/
def execCompletionTimeOut (hp : Fin 2) (address : BitVec 64) (s : State) : Host.Outcome State Fault Refusal :=
  .next (raise (srcHostDma + hp) 0x12 (address.toNat % 2 ^ 48)
    (bumpHost hp 5 { s with host := { s.host with deaf := (hp.val, address.toNat) :: s.host.deaf.filter (· ≠ (hp.val, address.toNat)) } }))

end Sys2Proof.Machine
end

