-- ==== Sys2Proof/Machine/Coding.lean ====
section
/-!
DEFINITION. Delta coding (spec/11_collectives_delta_coding.md R317 to R322): code tables, symbols, the coded block
and block records.
-/

namespace Sys2Proof.Machine

/-! ### Code tables (R320) -/

/-- Code length of a symbol: low nibble for even symbols. -/
def symLen (t : Bytes) (y : Nat) : Nat := (t.getD (y / 2) 0#8).toNat / (if y % 2 = 1 then 16 else 1) % 16

/-- A table is valid (R320). -/
def tableOk (t : Bytes) : Bool :=
  symLen t 30 = 0 && symLen t 31 = 0 && (List.range 30).any (fun y => symLen t y ≠ 0)
    && (List.range 30).foldl (fun a y => if symLen t y = 0 then a else a + 2 ^ (15 - symLen t y)) 0 ≤ 2 ^ 15

/-- One step of the canonical assignment for codes of one length. -/
def codesAt (t : Bytes) (len : Nat) (a : Nat × List (Nat × Nat × Nat)) : Nat × List (Nat × Nat × Nat) :=
  (List.range 30).foldl (fun a y => if symLen t y = len then (a.1 + 1, a.2 ++ [(y, len, a.1)]) else a) a

/-- The codes of a table: symbol, length, code (R320). -/
def codesOf (t : Bytes) : List (Nat × Nat × Nat) :=
  ((List.range 15).foldl (fun a k => let b := codesAt t (k + 1) a; (2 * b.1, b.2)) (0, [])).2

/-! ### Symbol values (R318, R319) -/

/-- FP16 patterns in numeric order (R318). -/
def ordW (p : Nat) : Nat := if 0x8000 ≤ p then 0xFFFF - p else p + 0x8000

def unordW (o : Nat) : Nat := if 0x8000 ≤ o then o - 0x8000 else 0xFFFF - o

/-- The zigzag difference of a raw word and its base word (R318). -/
def encW (x b : Nat) : Nat :=
  let d := sgn 16 (ordW x + 65536 - ordW b)
  if d < 0 then (-2 * d - 1).toNat else (2 * d).toNat

/-- Its inverse (R318). -/
def decW (z b : Nat) : Nat :=
  let d : Int := if z % 2 = 1 then -((z / 2 : Nat) : Int) - 1 else (z / 2 : Nat)
  unordW (unsgn 16 ((ordW b : Int) + d))

/-- The symbol of a value, with its extra bits: how many and their value (T11.6). -/
def symOf (z : Nat) : Nat × Nat × Nat :=
  if z < 16 then (z, 0, 0) else let k := Nat.log2 z - 4; (16 + k, k + 4, z - 2 ^ (k + 4))

/-- Extra bits of a symbol (T11.6). -/
def extraOf (y : Nat) : Nat := if y < 16 then 0 else if y < 28 then y - 12 else if y = 28 then 4 else 8

/-- Bits of a symbol: the code most significant bit first, the extra bits least significant first (R321). -/
def symBits (codes : List (Nat × Nat × Nat)) (y ex v : Nat) : Option (List Bool) :=
  (codes.find? (fun c => c.1 = y)).map (fun c =>
    (List.range c.2.1).map (fun i => bitOf c.2.2 (c.2.1 - 1 - i)) ++ (List.range ex).map (fun i => bitOf v i))

/-! ### The encoder (R321) -/

/-- Values with maximal runs of zeros gathered: value and count. -/
def gather0 : List Nat → List (Nat × Nat)
  | [] => []
  | z :: l =>
    match gather0 l with
    | (0, n) :: r => if z = 0 then (0, n + 1) :: r else (z, 1) :: (0, n) :: r
    | r => (z, 1) :: r

/-- Join optional bit runs. -/
def joinBits (l : List (Option (List Bool))) : Option (List Bool) :=
  l.foldr (fun b a => match b, a with | some x, some y => some (x ++ y) | _, _ => none) (some [])

/-- A maximal run of `n` zero values (R321); one or two words left over are coded singly. -/
def runBits (codes : List (Nat × Nat × Nat)) (n : Nat) : Option (List Bool) :=
  let one := symBits codes 0 0 0
  let singles := joinBits (List.replicate n one)
  if n < 3 then singles else
    let r := n % 274
    let whole := List.replicate (n / 274) (symBits codes 29 8 255)
    let rest := if 19 ≤ r then [symBits codes 29 8 (r - 19)] else if 3 ≤ r then [symBits codes 28 4 (r - 3)] else List.replicate r one
    match joinBits (whole ++ rest), singles with
    | some a, some b => if a.length < b.length then some a else some b
    | some a, none => some a
    | none, b => b

/-- The bit stream of a block's values. -/
def valueBits (t : Bytes) (zs : List Nat) : Option (List Bool) :=
  let codes := codesOf t
  joinBits ((gather0 zs).map (fun r =>
    if r.1 = 0 then runBits codes r.2 else let y := symOf r.1; symBits codes y.1 y.2.1 y.2.2))

/-- Bits packed from bit 0 of each byte upward; the last byte's high bits are 0 (R321). -/
def packBits (l : List Bool) : Bytes :=
  (List.range ((l.length + 7) / 8)).map (fun i =>
    BitVec.ofNat 8 ((List.range 8).foldl (fun a j => if l.getD (8 * i + j) false then a + 2 ^ j else a) 0))

/-- The words of a block, little-endian (R318). -/
def wordsOf (bs : Bytes) : List Nat := (List.range (bs.length / 2)).map (fun i => (bs.getD (2 * i) 0#8).toNat + 256 * (bs.getD (2 * i + 1) 0#8).toNat)

def bytesOf (ws : List Nat) : Bytes := ws.flatMap (fun w => natLe 2 w)

/-- The payload of a coded block; none where it must be sent stored (R321). -/
def encodeBlock (t raw base : Bytes) : Option Bytes :=
  let bw := wordsOf base
  let ws := wordsOf raw
  match valueBits t ((List.range ws.length).map (fun i => encW (ws.getD i 0) (bw.getD i 0))) with
  | some l => let p := packBits l; if p.length < raw.length then some p else none
  | none => none

/-! ### The decoder (R321, R322) -/

/-- The bits of a payload, bit 0 of byte 0 first. -/
def unpackBits (bs : Bytes) : List Bool := bs.flatMap (fun b => (List.range 8).map (fun i => b.getLsbD i))

/-- Read one code of at most 15 bits: its symbol and the bits after it. -/
def readCode (codes : List (Nat × Nat × Nat)) : Nat → Nat → Nat → List Bool → Option (Nat × List Bool)
  | 0, _, _, _ => none
  | _, _, _, [] => none
  | n + 1, len, code, b :: l =>
    let code := 2 * code + if b then 1 else 0
    match codes.find? (fun c => c.2.1 = len + 1 && c.2.2 = code) with
    | some c => some (c.1, l)
    | none => readCode codes n (len + 1) code l

/-- Decode exactly `need` values; the rest of the bits comes with them. -/
def readValues (codes : List (Nat × Nat × Nat)) : Nat → Nat → List Bool → Option (List Nat × List Bool)
  | _, 0, l => some ([], l)
  | 0, _, _ => none
  | fuel + 1, need, l =>
    match readCode codes 15 0 0 l with
    | none => none
    | some (y, l) =>
      let ex := extraOf y
      if l.length < ex then none
      else
        let v := (List.range ex).foldl (fun a i => if l.getD i false then a + 2 ^ i else a) 0
        let l := l.drop ex
        let out : List Nat := if y < 16 then [y] else if y < 28 then [2 ^ (y - 12) + v]
          else if y = 28 then List.replicate (3 + v) 0 else List.replicate (19 + v) 0
        if need < out.length then none
        else (readValues codes fuel (need - out.length) l).map (fun r => (out ++ r.1, r.2))

/-- The symbols the encoder emitted for a block of `words` words: padding bits follow the last one. -/
def symsOf (t payload : Bytes) (words : Nat) : List Nat :=
  let count (y : Nat) (l : List Bool) : Nat :=
    let v := (List.range (extraOf y)).foldl (fun a i => if l.getD i false then a + 2 ^ i else a) 0
    if y < 28 then 1 else if y = 28 then 3 + v else 19 + v
  let codes := codesOf t
  let rec go : Nat → Nat → List Bool → List Nat
    | 0, _, _ => []
    | fuel + 1, left, l =>
      if left = 0 then [] else
        match readCode codes 15 0 0 l with
        | none => []
        | some (y, l) => y :: go fuel (left - count y l) (l.drop (extraOf y))
  go words words (unpackBits payload)

/-- The raw block of a coded payload; none for reason LENGTH (R322). -/
def decodeBlock (t payload base : Bytes) (units : Nat) : Option Bytes :=
  let n := 16 * units
  match readValues (codesOf t) n n (unpackBits payload) with
  | some (zs, rest) =>
    if 8 ≤ rest.length || rest.any (fun b => b) then none
    else
      let bw := wordsOf base
      some (bytesOf ((List.range n).map (fun i => decW (zs.getD i 0) (bw.getD i 0))))
  | none => none

/-! ### Block records (R317, T11.5) -/

/-- A block record. -/
structure Rec where
  units : Nat
  coded : Bool
  gen : Nat
  base : Nat
  ver : Nat
  index : Nat
  ext : Bytes
  payload : Bytes
deriving DecidableEq, Repr

/-- The header with a given CHECK (T11.5). -/
def Rec.header (r : Rec) (chk : Nat) : Bytes :=
  natLe 16 (fieldAt r.units 8 120 + (if r.coded then 2 ^ 119 else 0) + fieldAt r.gen 2 117 + fieldAt r.base 8 108
    + fieldAt r.ver 16 92 + fieldAt r.payload.length 13 79 + fieldAt r.index 4 75 + chk % 2 ^ 32)

/-- CHECK: CRC-32C over the header, the extensions and the payload, with CHECK taken as 0. -/
def Rec.crc (r : Rec) : Nat := crc32c (r.header 0 ++ r.ext ++ r.payload)

/-- The record's bytes, padded to 16 (R317). -/
def Rec.bytes (r : Rec) : Bytes :=
  let bs := r.header r.crc ++ r.ext ++ r.payload
  byteSlice bs 0 ((bs.length + 15) / 16 * 16)

/-- A record read from its bytes, with extensions of `ext` bytes; and whether CHECK holds. -/
def parseRec (bs : Bytes) (ext : Nat) : Rec × Bool :=
  let h := fieldBytes bs 0 16
  let enc := bitsOf h 91 79
  let r : Rec :=
    { units := bitsOf h 127 120, coded := bitOf h 119, gen := bitsOf h 118 117, base := bitsOf h 115 108,
      ver := bitsOf h 107 92, index := bitsOf h 78 75, ext := byteSlice bs 16 ext, payload := byteSlice bs (16 + ext) enc }
  let z := byteSlice bs 0 16
  let z := (List.range 16).map (fun i => if i < 4 then 0#8 else z.getD i 0#8)
  (r, crc32c (z ++ r.ext ++ r.payload) = h % 2 ^ 32)

end Sys2Proof.Machine
end

