-- ==== Sys2Proof/Machine/Tier.lean ====
section
/-!
DEFINITION. Placement of pages in the three tiers (spec/07_deep_tier.md R189 to R201): room and eviction,
moves, the jobs of OBJ_REGISTER and OBJ_PLACE, prefetch schedules, and the programming of tiles (R173, R177).
-/

namespace Sys2Proof.Machine

/-! ### Capacities, use and charges (R141, R191, R193) -/

/-- Tier of a location: 0 HBM, 1 Common Store scratch, 2 the user region; a rod store is no tier. -/
def tierOf : Loc → Nat
  | .hbm _ _ => 0
  | .scratch _ _ => 1
  | .rod _ _ => 3
  | .deep => 2

/-- Capacity of a tier in pages, for a partition (R191). -/
def tierCap (s : State) (part t : Nat) : Nat :=
  if t = 0 then ((List.range 256).filter (fun c => mapGet 0 s.parts.chan c = part)).length * 1022
  else if t = 1 then ((List.range 320).filter (fun g => segPart s g = part && segScratch s g)).length / 2
  else 802816

/-- Every page with its object: object number, object, page number, page. -/
def allPages (s : State) : List (Nat × Object × Nat × Page) :=
  s.objects.flatMap (fun (n, o) => o.pages.map (fun (p, x) => (n, o, p, x)))

/-- What charges a tier: context, whether to the pool, for each page that lies there or is reserved a frame. In
the user region a page and a clean copy both count (log 26). -/
def charges (s : State) (t : Nat) : List (Nat × Bool) :=
  (allPages s).filterMap (fun (_, o, _, x) =>
    if t = 2 then (if !x.gone && (x.flash || x.loc = .deep || x.leaving.isSome) then some (o.owner, x.flashPool) else none)
    else if tierOf x.loc = t then some (o.owner, x.pool) else none)
  ++ (s.deep.moves.filterMap (fun m => match m.frame with
      | some l => if tierOf l = t then some (m.ctx, m.pool) else none
      | none => none))
  ++ (if t = 2 then s.deep.copies.flatMap (fun c => List.replicate c.pages (0, true)) else [])

/-- A charge lies in the scope of a tier: the partition for HBM and scratch, the device for the user region. -/
def inScope (s : State) (part t c : Nat) : Bool := t = 2 || ctxPart s c = part

def quotaOf (s : State) (c t : Nat) : Nat := mapGet 0 (ctxGet s c).quotas t

/-- Sum of the quotas in a tier. -/
def quotaSum (s : State) (part t : Nat) : Nat :=
  (s.ctxs.filter (fun kv => inScope s part t kv.1)).foldl (fun a kv => a + mapGet 0 kv.2.quotas t) 0

/-- Pages of a context counted against its quota in a tier. -/
def usedOf (s : State) (c t : Nat) : Nat := ((charges s t).filter (fun q => q.1 = c && !q.2)).length

def freePages (s : State) (part t : Nat) : Nat :=
  tierCap s part t - ((charges s t).filter (fun q => inScope s part t q.1)).length

def poolFree (s : State) (part t : Nat) : Nat :=
  tierCap s part t - quotaSum s part t - ((charges s t).filter (fun q => inScope s part t q.1 && q.2)).length

/-! ### Frames (R142, R145, R157) -/

/-- Locations in use: of pages and of reserved frames of a partition. -/
def locsOf (s : State) (part : Nat) : List Loc :=
  ((allPages s).filter (fun (_, o, _, _) => ctxPart s o.owner = part)).map (fun (_, _, _, x) => x.loc)
    ++ s.deep.moves.filterMap (fun m => if ctxPart s m.ctx = part then m.frame else none)

/-- Channel offsets in use on a group. -/
def offsOn (s : State) (part g : Nat) : List Nat :=
  (locsOf s part).filterMap (fun l => match l with | .hbm h o => if h = g then some o else none | _ => none)

/-- The lowest free frame of a group (log 26). -/
def groupFrame (s : State) (part g : Nat) : Option Loc :=
  let size := (groupChans s part g).length
  let used := offsOn s part g
  if size = 0 then none else
    match (List.range (min (used.length + 1) (1022 * size))).find? (fun k => !used.contains (k * (64 / size))) with
    | some k => some (.hbm g (k * (64 / size)))
    | none => none

/-- Pages of an object on a group, with the frames reserved for it there. -/
def sharesOn (s : State) (o g : Nat) : Nat :=
  let on (l : Loc) : Bool := match l with | .hbm h _ => h = g | _ => false
  ((objGet s o).pages.filter (fun kv => on kv.2.loc)).length
    + (s.deep.moves.filter (fun m => m.object = o && m.frame.any on)).length

/-- The group of a partition with a free frame on which the object's share, with one more page, stays least for the group's
size, the lowest number on ties (R196: dealt in proportion to group sizes). Log 26. -/
def bestGroup (s : State) (o part : Nat) : Option Loc :=
  let l := (groupsOf s part).filterMap (fun (g, chans) =>
    (groupFrame s part g).map (fun f => (f, sharesOn s o g + 1, chans.length)))
  (l.foldl (fun (b : Option (Loc × Nat × Nat)) x =>
    match b with
    | none => some x
    | some y => if x.2.1 * y.2.2 < y.2.1 * x.2.2 then some x else some y) none).map (·.1)

/-- The two lowest scratchpad segments of a partition that no page uses (log 26). -/
def scratchFrame (s : State) (part : Nat) : Option Loc :=
  let used := (locsOf s part).flatMap (fun l => match l with | .scratch a b => [a, b] | _ => [])
  match (List.range 320).filter (fun g => segPart s g = part && segScratch s g && !used.contains g) with
  | a :: b :: _ => some (.scratch a b)
  | _ => none

/-- A free frame of a tier, on a group where one is named. -/
def freeFrame (s : State) (o part t : Nat) (group : Option Nat) : Option Loc :=
  if t = 2 then some .deep
  else if t = 1 then scratchFrame s part
  else match group with
    | some g => groupFrame s part g
    | none => bestGroup s o part

/-! ### The contents of a frame -/

/-- Zero a frame and its metadata (R155). -/
def zeroFrame (part : Nat) (l : Loc) (s : State) : State :=
  { s with mem := s.mem.filter (fun kv => !inFrame s part l kv.1)
           near := { s.near with md := s.near.md.filter (fun kv => !inFrame s part l (64 * kv.1)) } }

/-- Write back and drop the cache lines of a page (R160). -/
def flushPage (part : Nat) (l : Loc) (s : State) : State :=
  cacheFlush (cacheSegs s part) (fun x => inFrame s part l x.addr) s

/-- Address of burst `i` of a page in a frame. -/
def frameAddr (s : State) (part rot : Nat) (l : Loc) (o : Nat) : Nat :=
  match l with
  | .hbm g ch => hbmAddr (groupChans s part g) ch rot o
  | .scratch a b => scratchAddr a b o
  | .rod n h => rsWindowBase + n * 0x400000 + h * 0x200000 + o
  | .deep => 0

/-- Copy `n` bursts from burst `i` of a page into the user-region copy. -/
def toFlash (part rot o p : Nat) (l : Loc) (i n : Nat) (s : State) : State :=
  (List.range n).foldl (fun s k =>
    let b := burstGet s (frameAddr s part rot l (64 * (i + k)))
    let key := flashKey o p + 64 * (i + k)
    { s with deep := { s.deep with flash := memWrite s.deep.flash key b.1, fmeta := mapSet 0#4 s.deep.fmeta (key / 64) b.2 } }) s

/-- Copy the user-region copy of a page into a frame. -/
def fromFlash (part rot o p : Nat) (l : Loc) (s : State) : State :=
  (List.range 32768).foldl (fun s k =>
    let key := flashKey o p + 64 * k
    burstSet (frameAddr s part rot l (64 * k)) (memRead s.deep.flash key 64) (mapGet 0#4 s.deep.fmeta (key / 64)) s)
    (zeroFrame part l s)

/-- Copy a page between two frames. -/
def frameCopy (part rot : Nat) (src dst : Loc) (s : State) : State :=
  (List.range 32768).foldl (fun s k =>
    let b := burstGet s (frameAddr s part rot src (64 * k))
    burstSet (frameAddr s part rot dst (64 * k)) b.1 b.2 s) (zeroFrame part dst s)

/-- Queue the 32 tiles of a page for the open stripes (log 26: tile t goes to group t mod 4); `urgent` where a demand fetch
requires the eviction (R199). -/
def queueTiles (o p : Nat) (urgent : Bool) (s : State) : State :=
  (List.range 32).foldl (fun s t =>
    queueWrite (t % 4) { key := tileKey o p t, ctx := (objGet s o).owner, urgent := urgent } s) s

/-! ### Eviction and room (R193 to R195) -/

/-- A prefetch schedule protects the page (R198). -/
def protectedPage (s : State) (o p : Nat) : Bool :=
  s.ctxs.any (fun kv => match kv.2.sched with
    | none => false
    | some h => h.live.any (fun i =>
        let e := (h.entries.getD i 0#128).toNat
        bitsOf e 99 80 = o && bitsOf e 79 55 ≤ p && p < bitsOf e 79 55 + bitsOf e 54 39))

/-- A page that eviction may pick (R194). -/
def evictable (s : State) (o : Object) (n p : Nat) (x : Page) : Bool :=
  !(o.pin && tierOf x.loc = o.home) && x.leaving.isNone && !protectedPage s n p
    && !s.deep.moves.any (fun m => m.object = n && m.page = p)

def nowStamp (s : State) : Nat := s.clk.ltc / ticksMs % 65536

def pageAge (s : State) (x : Page) : Nat := (nowStamp s + 65536 - x.stamp) % 65536

/-- Candidates in order: greatest age first, then lowest physical address (R194). -/
def byAge (s : State) (l : List (Nat × Object × Nat × Page)) : List (Nat × Object × Nat × Page) :=
  let key (q : Nat × Object × Nat × Page) : Nat :=
    (65535 - pageAge s q.2.2.2) * 2 ^ 40 + (pageAddr s q.2.1 q.2.2.2 q.2.2.1 0).getD 0
  l.foldr (fun q acc => acc.takeWhile (fun r => key r < key q) ++ q :: acc.dropWhile (fun r => key r < key q)) []

/-- What asking for room gives. -/
inductive Room where
  | frame (l : Loc) (pool : Bool)
  | wait
  | full
deriving DecidableEq, Repr

/-- Charge for a page of context `c` in the user region: quota, then pool; none when it is full or takes no
writes (R185, R194). -/
def deepCharge (s : State) (c : Nat) : Option Bool :=
  if s.deep.spare = 0 || freePages s 0 2 = 0 then none
  else if usedOf s c 2 < quotaOf s c 2 then some false
  else if poolFree s 0 2 = 0 then none else some true

/-- What trying to send a page out gives: it stays, for want of room; it is leaving; its frame is free now. -/
inductive Out where
  | stays
  | leaving
  | freed
deriving DecidableEq, Repr

/-- Send one HBM page out on behalf of context `c`: dropped where a clean copy stands, else its tiles are queued (R194); it stays
where the user region has no room. -/
def leaveHbm (c n p : Nat) (o : Object) (x : Page) (urgent : Bool) (s : State) : Out × State :=
  let part := ctxPart s o.owner
  if x.flash then (.freed, pageMod n p (fun y => { y with loc := .deep, pool := false, missed := false }) (flushPage part x.loc s))
  else match deepCharge s o.owner with
    | none => (.stays, s)
    | some pl => (.leaving, queueTiles n p urgent
        (pageMod n p (fun y => { y with leaving := some 0#32, leaver := c, flashPool := pl, missed := false }) (flushPage part x.loc s)))

/-- Evict one HBM page, and count it (R194, T7.9). -/
def evictHbm (urgent : Bool) (q : Nat × Object × Nat × Page) (s : State) : Out × State :=
  let r := leaveHbm q.2.1.owner q.1 q.2.2.1 q.2.1 q.2.2.2 urgent s
  (r.1, match r.1 with
    | .stays => r.2
    | .freed => dcUp (dcCtx q.2.1.owner 3) 1 r.2
    | .leaving => dcUp (dcCtx q.2.1.owner 4) 1 r.2)

/-- Evict the first candidate that can go. -/
def evictFirst (ev : Nat × Object × Nat × Page → State → Out × State) (s : State) :
    List (Nat × Object × Nat × Page) → Out × State
  | [] => (.stays, s)
  | q :: l =>
    let r := ev q s
    if r.1 = .stays then evictFirst ev s l else r

/-- A page lies on a group, where one is named. -/
def onGroupNo (group : Option Nat) (x : Page) : Bool :=
  match group, x.loc with
  | some g, .hbm h _ => g = h
  | _, _ => true

/-- The pages of a tier that a context's request may evict, oldest first: of the pool, then, for a demand without
quota, its own (R193, R194). -/
def victims (c t : Nat) (group : Option Nat) (demand : Bool) (s : State) : List (Nat × Object × Nat × Page) :=
  let inT := (allPages s).filter (fun (_, o, _, x) => tierOf x.loc = t && ctxPart s o.owner = ctxPart s c)
  let cand (p : Nat × Object × Nat × Page → Bool) :=
    byAge s (inT.filter (fun q => p q && onGroupNo group q.2.2.2 && evictable s q.2.1 q.1 q.2.2.1 q.2.2.2))
  cand (fun q => q.2.2.2.pool)
    ++ if demand && !(usedOf s c t < quotaOf s c t) then cand (fun q => q.2.1.owner = c) else []

/-- A page on the way out of the tier will free a frame. -/
def roomComing (c t : Nat) (group : Option Nat) (s : State) : Bool :=
  (allPages s).any (fun (_, o, _, x) =>
    tierOf x.loc = t && ctxPart s o.owner = ctxPart s c && x.leaving.isSome && onGroupNo group x)

/-- A free frame of the tier that the context may take, by quota or pool. -/
def roomNow (o c t : Nat) (group : Option Nat) (quota : Bool) (s : State) : Option Loc :=
  let part := ctxPart s c
  if (if quota then 0 < freePages s part t else 0 < poolFree s part t) then freeFrame s o part t group else none

/-- Find room for a page of object `o` and context `c` in a near tier, evicting by `ev` where need be. -/
def roomBy (ev : Nat × Object × Nat × Page → State → Out × State) (o c t : Nat) (group : Option Nat) (demand : Bool)
    (s : State) : Room × State :=
  let quota : Bool := usedOf s c t < quotaOf s c t
  match roomNow o c t group quota s with
  | some f => (.frame f (!quota), s)
  | none =>
    if roomComing c t group s then (.wait, s) else
      let r := evictFirst ev s (victims c t group demand s)
      match r.1 with
      | .stays => (.full, r.2)
      | .leaving => (.wait, r.2)
      | .freed =>
        match roomNow o c t group quota r.2 with
        | some f => (.frame f (!quota), r.2)
        | none => (.full, r.2)

/-- Evict one scratch page: it moves to HBM, where room is found for it under R193 in its turn; it stays where there is none
(R194). -/
def evictScratch (urgent : Bool) (q : Nat × Object × Nat × Page) (s : State) : Out × State :=
  let c := q.2.1.owner
  let r := roomBy (evictHbm urgent) q.1 c 0 none false s
  match r.1 with
  | .frame f pl => (.freed, dcUp (dcCtx c 4) 1 (pageMod q.1 q.2.2.1 (fun y => { y with loc := f, pool := pl })
      (frameCopy (ctxPart r.2 c) ((q.2.1.vpn + q.2.2.1) % 64) q.2.2.2.loc f r.2)))
  | .wait => (.leaving, r.2)
  | .full => (.stays, r.2)

/-- Evict one page of a near tier. -/
def evictOne (urgent : Bool) (q : Nat × Object × Nat × Page) (s : State) : Out × State :=
  match q.2.2.2.loc with
  | .hbm _ _ => evictHbm urgent q s
  | .scratch _ _ => evictScratch urgent q s
  | .rod _ _ => (.stays, s)
  | .deep => (.stays, s)

/-- Find room for a page of object `o` and context `c` in a tier (R193). -/
def findRoom (o c t : Nat) (group : Option Nat) (demand : Bool) (s : State) : Room × State :=
  if t = 2 then (match deepCharge s c with | some pl => (.frame .deep pl, s) | none => (.full, s))
  else roomBy (evictOne demand) o c t group demand s

/-! ### Moves (R195, R196, R199, R200) -/

def moveMod (o p : Nat) (f : Move → Move) (s : State) : State :=
  { s with deep := { s.deep with moves := s.deep.moves.map (fun m => if m.object = o && m.page = p then f m else m) } }

def moveDrop (o p : Nat) (s : State) : State :=
  { s with deep := { s.deep with moves := s.deep.moves.filter (fun m => !(m.object = o && m.page = p)) } }

/-- Causes for which a move is asked: demand first (R199). -/
def Move.cause (m : Move) : Nat := m.asks.foldl (fun a q => min a q.2) 3

/-- A context asks for the page of a move at time `now`, and a rod waits for it. A demand that joins is the first to wait for
room (R193), and the tile that it touched is read first (R196). -/
def Move.add (m : Move) (c cause : Nat) (rod tile : Option Nat) (now : Nat) : Move :=
  { m with since := if cause = 0 && !m.asks.any (fun q => q.2 = 0) then now else m.since
           first := m.first.or tile
           asks := if m.asks.contains (c, cause) then m.asks else m.asks ++ [(c, cause)]
           rods := m.rods ++ (match rod with | some n => if m.rods.contains n then [] else [n] | none => []) }

/-- Priority of R199. -/
def movesInOrder (s : State) : List Move :=
  (List.range 3).flatMap (fun k => s.deep.moves.filter (fun m => m.cause = k))

/-- Put a page of a near tier into another near frame, now. -/
def movePage (o p : Nat) (src l : Loc) (pl : Bool) (s : State) : State :=
  let ob := objGet s o
  let part := ctxPart s ob.owner
  pageMod o p (fun y => { y with loc := l, pool := pl })
    (frameCopy part ((ob.vpn + p) % 64) src l (flushPage part src s))

/-- Give a frame to one move. A page that stands in another near tier moves at once. -/
def giveFrame (s : State) (m : Move) : State :=
  let x := pageGet s m.object m.page
  let owner := (objGet s m.object).owner
  if m.frame.isSome || x.leaving.isSome || !(s.deep.moves.any (fun n => n.object = m.object && n.page = m.page)) then s
  else if tierOf x.loc = m.dest then moveDrop m.object m.page s
  else
    let r := findRoom m.object owner m.dest none (decide (m.cause = 0)) s
    match r.1 with
    | .frame l pl =>
      if x.loc = .deep then moveMod m.object m.page (fun m => { m with frame := some l, pool := pl, ctx := owner }) r.2
      else moveDrop m.object m.page (movePage m.object m.page x.loc l pl r.2)
    | _ => r.2

/-- Give frames to the moves that have none, in priority order. -/
def giveFrames (s : State) : State := (movesInOrder s).foldl giveFrame s

/-- End a job. -/
def jobEnd (j : PlaceJob) (status : Nat) (result : Bytes) (s : State) : State :=
  finishJ j.cmd status result { s with deep := { s.deep with jobs := s.deep.jobs.filter (fun k => k.cmd ≠ j.cmd) } }

/-! ### Uncorrectable tiles (R202, R203) -/

/-- The descriptor at which a rod waits: its first MOVE descriptor not performed, else the next fetch. -/
def haltWaiting (n : Nat) (s : State) : State :=
  match (rodGet s n).run with
  | none => s
  | some r =>
    match r.move.find? (fun f => !f.performed) with
    | some f => haltRod n hUnavailable f.va f.word s
    | none => let d := drawFree s; haltRod n hUnavailable r.next (BitVec.ofNat 256 d.1) d.2

/-- A tile that is being fetched again. -/
def Refetch.isOf (r : Refetch) (o p t : Nat) : Bool := r.object = o && r.page = p && r.tile = t

/-- Poisoned tiles of a page that nothing recovers any more: no source is left, and none is to be asked (R203). -/
def lostTiles (s : State) (o p : Nat) : List Nat :=
  let x := pageGet s o p
  (maskList x.bad.toNat 32).filter (fun t =>
    !x.unasked.getLsbD t && !s.deep.refetch.any (fun r => r.isOf o p t) && !queued s (tileKey o p t))

/-- No source of some poisoned tile of a page is left (R203). -/
def pageGivenUp (o p : Nat) (s : State) : Bool := !(lostTiles s o p).isEmpty

/-- No source delivered a tile: it stays poisoned, its block retires, and everything that waits for its page ends (R185,
R202 step 4). -/
def tileLost (o p t : Nat) (s : State) : State :=
  let s := { s with deep := { s.deep with refetch := s.deep.refetch.filter (fun r => !r.isOf o p t) } }
  let s := match mapFind s.deep.map (tileKey o p t) with | some l => retireBlock l.block s | none => s
  let m := s.deep.moves.filter (fun m => m.object = o && m.page = p)
  let s := moveDrop o p s
  let s := (m.flatMap (·.rods)).foldl (fun s n => haltWaiting n s) s
  let js := s.deep.jobs.filter (fun j => !j.fresh && j.object = o && j.next = p + 1)
  js.foldl (fun s j => jobEnd j stUnavailable (natLe 4 (j.moved - 1)) s) s

/-- A source delivered the tile: it waits to be written to a new location; with its commit the old block retires and the
tile is good (R202 step 3). A page without flash is charged for it again. -/
def tileDelivered (o p t : Nat) (bs : Bytes) (m : List (BitVec 4)) (s : State) : State :=
  let s := { s with deep := { s.deep with refetch := s.deep.refetch.filter (fun r => !r.isOf o p t) } }
  queueWrite (t % 4) { key := tileKey o p t, ctx := (objGet s o).owner, urgent := true
                       data := some (byteSlice bs 0 tileBytes, (List.range 1024).map (fun i => m.getD i 0#4))
                       old := (mapFind s.deep.map (tileKey o p t)).map (·.block) } s

/-- Ask the sources of a tile in order: a host answers at once, a peer by TILE_DATA; a source that is none or
cannot be reached fails (R202 steps 2 and 4). -/
def askFrom (o p t : Nat) : List (Nat × Source) → State → State
  | [], s => tileLost o p t s
  | (n, src) :: l, s =>
    let ob := objGet s o
    let off := p * pageBytes + t * tileBytes
    if src.kind = 2 && linkUp s src.port then tileDelivered o p t (hostRead s src.port (src.addr + off) tileBytes) [] s
    else if src.kind = 1 && s.dev.zlId.isSome then
      let r : Refetch := { object := o, page := p, tile := t, source := n, since := s.clk.ltc }
      let rest := s.deep.refetch.filter (fun r => !r.isOf o p t)
      let s := { s with deep := { s.deep with refetch := rest ++ [r] } }
      sendMsg src.device { stream := 2, mtype := 0x02, ctx := ob.owner, group := Config.sourceGroup src.device src.object,
                           run := tileKey o p t } s
    else askFrom o p t l s

/-- Ask from source 1 on, or source 2 alone. -/
def askSource (o p t n : Nat) (s : State) : State :=
  let ob := objGet s o
  askFrom o p t (if n = 1 then [(1, ob.src1), (2, ob.src2)] else [(2, ob.src2)]) s

/-- A read finds a tile uncorrectable (R202): it is marked poisoned and reported, and its sources are asked. One that is
poisoned already is not asked for again (R203). -/
def tileUncorrectable (o p t : Nat) (s : State) : State :=
  if (pageGet s o p).bad.getLsbD t then s
  else
    let s := pageMod o p (fun x => { x with bad := x.bad ||| BitVec.ofNat 32 (2 ^ t) }) s
    askSource o p t 1 (raise srcDtUe 0 (fieldAt o 20 25 + p % 2 ^ 25) s)

/-- Ask for the poisoned tiles of a page whose sources have not been asked yet. -/
def askBad (o p : Nat) (s : State) : State :=
  let l := maskList (pageGet s o p).unasked.toNat 32
  l.foldl (fun s t => askSource o p t 1 s) (pageMod o p (fun y => { y with unasked := 0#32 }) s)

/-- A demand for a page that a schedule has asked for, or a schedule entry for one that a demand fetches: the scheduled page
comes late (R200). -/
def noteLate (m : Move) (c cause : Nat) (s : State) : State :=
  let demand := m.asks.any (fun q => q.2 = 0)
  if cause = 0 && !demand then (m.asks.filter (fun q => q.2 = 1)).foldl (fun s q => dcUp (dcCtx q.1 2) 1 s) s
  else if cause = 1 && demand then dcUp (dcCtx c 2) 1 s
  else s

/-- Ask for a page in a tier: a new move, or another request for one under way (R196, R200). A page with a tile given up is
not asked for. -/
def askMove (o p dest cause c : Nat) (rod tile : Option Nat) (s : State) : State :=
  match s.deep.moves.find? (fun m => m.object = o && m.page = p) with
  | some m => moveMod o p (fun m => m.add c cause rod tile s.clk.ltc) (noteLate m c cause s)
  | none =>
    if pageGivenUp o p s then s
    else
      let m : Move := { object := o, page := p, dest := dest, ctx := c, asks := [(c, cause)], since := s.clk.ltc, rods := rod.toList, first := tile }
      askBad o p { s with deep := { s.deep with moves := s.deep.moves ++ [m] } }

/-! ### Jobs of OBJ_REGISTER and OBJ_PLACE (R189, R196) -/

/-- Status of a placement that found no room: the user region without spare blocks takes no writes (R185, R193). -/
def fullStatus (s : State) (t : Nat) : Nat := if t = 2 && s.deep.spare = 0 then stResource else stQuota

/-- Remove an object with its pages, their cache lines and whatever the store die holds of it. -/
def dropObject (o : Nat) (s : State) : State :=
  let ob := objGet s o
  let s := ob.pages.foldl (fun s kv => dropFlash o kv.1 (flushPage (ctxPart s ob.owner) kv.2.loc s)) s
  { s with
    objects := mapErase s.objects o
    deep := { s.deep with
      moves := s.deep.moves.filter (fun m => m.object ≠ o)
      refetch := s.deep.refetch.filter (fun m => m.object ≠ o) } }

/-- Change a job. -/
def jobMod (cmd : Nat) (f : PlaceJob → PlaceJob) (s : State) : State :=
  { s with deep := { s.deep with jobs := s.deep.jobs.map (fun k => if k.cmd = cmd then f k else k) } }

/-- A job has passed one page, having moved `n`. -/
def jobNext (cmd n : Nat) (s : State) : State := jobMod cmd (fun k => { k with next := k.next + 1, moved := k.moved + n }) s

/-- Place the next page of an object that is being registered; whether the job can go on. -/
def jobFresh (j : PlaceJob) (s : State) : Bool × State :=
  let r := findRoom j.object j.ctx j.dest none false s
  match r.1 with
  | .wait => (false, r.2)
  | .full => (false, jobEnd j (fullStatus r.2 j.dest) [] (dropObject j.object r.2))
  | .frame l pl =>
    let x : Page := { loc := l, flash := l = .deep, pool := pl && l ≠ .deep, flashPool := pl && l = .deep, stamp := nowStamp r.2 }
    (true, jobNext j.cmd 0 (pageMod j.object j.next (fun _ => x) (zeroFrame (ctxPart r.2 j.ctx) l r.2)))

/-- Send a scratch page to the user region on behalf of context `c`. -/
def scratchOut (c o p : Nat) (owner : Nat) (s : State) : Out × State :=
  match deepCharge s owner with
  | some pl => (.leaving, queueTiles o p false (pageMod o p (fun y => { y with leaving := some 0#32, leaver := c, flashPool := pl }) s))
  | none => (.stays, s)

/-- Move the next page of a job to the user region; whether the job can go on. -/
def jobDeep (j : PlaceJob) (s : State) : Bool × State :=
  let ob := objGet s j.object
  let x := pageGet s j.object j.next
  let r := if !(ob.pin && tierOf x.loc = ob.home) && tierOf x.loc = 1 then scratchOut j.ctx j.object j.next ob.owner s
    else leaveHbm j.ctx j.object j.next ob x false s
  match r.1 with
  | .stays => (false, jobEnd j (fullStatus r.2 2) (natLe 4 j.moved) r.2)
  | .freed => (true, jobNext j.cmd 1 r.2)
  | .leaving => (false, jobNext j.cmd 1 r.2)

/-- Move the next page of a job into a near tier; whether the job can go on. -/
def jobNear (j : PlaceJob) (s : State) : Bool × State :=
  let owner := (objGet s j.object).owner
  let x := pageGet s j.object j.next
  if x.loc = .deep && pageGivenUp j.object j.next s then (false, jobEnd j stUnavailable (natLe 4 j.moved) s) else
  let r := findRoom j.object owner j.dest j.group false s
  match r.1 with
  | .wait => (false, r.2)
  | .full => (false, jobEnd j (fullStatus r.2 j.dest) (natLe 4 j.moved) r.2)
  | .frame l pl =>
    if x.loc = .deep then
      (false, moveMod j.object j.next (fun m => { m with frame := some l, pool := pl, ctx := owner })
        (askMove j.object j.next j.dest 2 j.ctx none none (jobNext j.cmd 1 r.2)))
    else (true, jobNext j.cmd 1 (movePage j.object j.next x.loc l pl r.2))

/-- The page stands where the job would put it. -/
def jobThere (j : PlaceJob) (x : Page) : Bool :=
  match x.loc, j.group with
  | .hbm g _, some h => j.dest = 0 && g = h
  | l, _ => tierOf l = j.dest

/-- Carry one job on by a page; whether it can go on. -/
def jobStep (cmd : Nat) (s : State) : Bool × State :=
  match s.deep.jobs.find? (fun j => j.cmd = cmd) with
  | none => (false, s)
  | some j =>
    let x := pageGet s j.object j.next
    if j.stop ≤ j.next then (false, jobEnd j stSuccess (natLe 4 (if j.fresh then j.object else j.moved)) s)
    else if j.fresh then jobFresh j s
    else if x.leaving.isSome || s.deep.moves.any (fun m => m.object = j.object && m.page = j.next) then (false, s)
    else if jobThere j x then (true, jobNext cmd 0 s)
    else if j.dest = 2 then jobDeep j s
    else jobNear j s

/-- Carry one job on: place its pages in ascending order until one must wait. -/
def runJob (cmd : Nat) : Nat → State → State
  | 0, s => s
  | fuel + 1, s =>
    let r := jobStep cmd s
    if r.1 then runJob cmd fuel r.2 else r.2

/-- A page of the object that the job moved last is still under way: the job waits for it. -/
def jobBlocked (s : State) (j : PlaceJob) : Bool :=
  !j.fresh && 0 < j.next && (let x := pageGet s j.object (j.next - 1)
    x.leaving.isSome || s.deep.moves.any (fun m => m.object = j.object && m.page + 1 = j.next))

/-- Let the tier engine go on: frames for the moves that wait, then the jobs in order of acceptance. -/
def pump (s : State) : State :=
  let s := giveFrames s
  s.deep.jobs.foldl (fun s j =>
    match s.deep.jobs.find? (fun k => k.cmd = j.cmd) with
    | some k => if jobBlocked s k then s else runJob j.cmd (k.stop - k.next + 1) s
    | none => s) s

/-- All 32 tiles of a page that leaves are committed: the user region becomes its authoritative location. -/
def leaveDone (o p : Nat) (s : State) : State :=
  let x := pageGet s o p
  if x.leaving = some 0xFFFFFFFF#32 then
    pump (pageMod o p (fun y => { y with loc := .deep, pool := false, flash := true, leaving := none }) s)
  else s

/-! ### Prefetch schedules (R197, R198) -/

/-- Fields of a schedule entry (T7.8): LAYER_ID, SEQ, OBJECT, FIRST_PAGE, PAGES, TARGET, AFTER_USE. -/
def entF (e : BitVec 128) (hi lo : Nat) : Nat := bitsOf e.toNat hi lo

/-- Pages of an entry that exist. -/
def entPages (s : State) (e : BitVec 128) : List Nat :=
  let o := objGet s (entF e 99 80)
  (List.range (entF e 54 39)).filterMap (fun i => let p := entF e 79 55 + i; if p < o.count then some p else none)

/-- AFTER_USE of an entry that the cursor has passed: keep, set to oldest, or evict at once. -/
def afterUse (e : BitVec 128) (s : State) : State :=
  let o := entF e 99 80
  let act := entF e 36 35
  (entPages s e).foldl (fun s p =>
    if act = 1 then pageMod o p (fun x => { x with stamp := (nowStamp s + 1) % 65536 }) s
    else if act = 2 then
      let x := pageGet s o p
      if x.loc ≠ .deep && evictable s (objGet s o) o p x then (evictOne false (o, objGet s o, p, x) s).2 else s
    else s) s

/-- Change a context's schedule. -/
def schedMod (c : Nat) (f : Schedule → Schedule) (s : State) : State :=
  ctxMod c (fun x => { x with sched := x.sched.map f }) s

/-- Issue one page of an entry. One that a miss has brought to its tier already comes late (R200). -/
def schedPage (c o p dest : Nat) (s : State) : State :=
  let x := pageGet s o p
  if tierOf x.loc ≠ dest then askMove o p dest 1 c none none s
  else if x.missed then dcUp (dcCtx c 2) 1 (pageMod o p (fun y => { y with missed := false }) s)
  else s

/-- Misses of an earlier pass over a schedule do not count in the one that begins (R200). -/
def schedClear (c : Nat) (s : State) : State :=
  match (ctxGet s c).sched with
  | none => s
  | some h => h.entries.foldl (fun s e => (entPages s e).foldl (fun s p =>
      if (pageGet s (entF e 99 80) p).missed then pageMod (entF e 99 80) p (fun y => { y with missed := false }) s else s) s) s

/-- Issue the entries within the lead, release those the cursor has passed (R198). -/
def schedRun (c : Nat) (s : State) : State :=
  match (ctxGet s c).sched with
  | none => s
  | some h =>
    let seq (i : Nat) : Int := (entF (h.entries.getD i 0#128) 111 100 : Nat)
    let gone := h.live.filter (fun i => decide (seq i < h.cursor))
    let s := schedMod c (fun h => { h with live := h.live.filter (fun i => !gone.contains i) }) s
    let s := gone.foldl (fun s i => afterUse (h.entries.getD i 0#128) s) s
    let now := (List.range h.entries.length).filter (fun i => decide (seq i ≤ h.cursor + h.d) && !h.issued.contains i)
    let s := schedMod c (fun h => { h with live := h.live ++ now, issued := h.issued ++ now }) s
    let s := now.foldl (fun s i =>
      let e := h.entries.getD i 0#128
      (entPages s e).foldl (fun s p => schedPage c (entF e 99 80) p (entF e 38 37) (dcUp (dcCtx c 1) 1 s)) s) s
    pump s

/-- STEP_BEGIN sets the cursor to −1; a schedule that waits takes over (R197, R198). -/
def schedStep (c : Nat) (s : State) : State :=
  let s := match (ctxGet s c).sched with
    | some h => h.live.foldl (fun s i => afterUse (h.entries.getD i 0#128) s) (schedMod c (fun h => { h with live := [] }) s)
    | none => s
  let s := ctxMod c (fun x => { x with sched := (match x.nextSched with | some h => some h | none => x.sched), nextSched := none }) s
  schedRun c (schedMod c (fun h => { h with cursor := -1, issued := [] }) (schedClear c s))

/-- LAYER_BEGIN moves the cursor to the smallest SEQ that matches within the lead, or wraps (R198). -/
def cursorMove (c id : Nat) (s : State) : State :=
  match (ctxGet s c).sched with
  | none => s
  | some h =>
    let seqs := (h.entries.filter (fun e => entF e 127 112 = id)).map (fun e => entF e 111 100)
    let last := h.entries.foldl (fun m e => max m (entF e 111 100)) 0
    match (seqs.filter (fun (j : Nat) => decide (h.cursor < (j : Int)) && decide ((j : Int) ≤ h.cursor + h.d + 1))).min? with
    | some j => schedRun c (schedMod c (fun h => { h with cursor := (j : Int) }) s)
    | none =>
      if h.cursor = (last : Int) && seqs.contains 0 then
        let s := h.live.foldl (fun s i => afterUse (h.entries.getD i 0#128) s) (schedMod c (fun h => { h with live := [], issued := [] }) s)
        schedRun c (schedMod c (fun h => { h with cursor := 0 }) (schedClear c s))
      else s

end Sys2Proof.Machine
end

