-- ==== Sys2Proof/Machine/Flash.lean ====
section
/-!
DEFINITION. The store die's translation layer and tier engine (spec/07_deep_tier.md R176 to R186, R192,
R193, R196, R200 to R203): commits, checkpoints, refresh, failures, uncorrectable tiles, and the requests
that move pages.
-/

namespace Sys2Proof.Machine

/-! ### Commits (R173, R177) -/

/-- The object page and tile of a key of the user region. -/
def keyTile (k : Nat) : Nat × Nat × Nat := (k / 2 ^ 30, k / 32 % 2 ^ 25, k % 32)

/-- The bytes of a tile that is about to be programmed: those it carries, those of the near frame that its page leaves, or
those of its old location. -/
def stageTile (t : TileWrite) (s : State) : State :=
  let k := keyTile t.key
  if keyRegion t.key ≠ 5 then s
  else match t.data with
    | some d => { s with deep := { s.deep with
        flash := memWrite s.deep.flash (t.key * tileBytes) d.1
        fmeta := (List.range 1024).foldl (fun f i => mapSet 0#4 f (t.key * 1024 + i) (d.2.getD i 0#4)) s.deep.fmeta } }
    | none =>
      let x := pageGet s k.1 k.2.1
      let ob := objGet s k.1
      if t.cause = .request && x.leaving.isSome then
        toFlash (ctxPart s ob.owner) ((ob.vpn + k.2.1) % 64) k.1 k.2.1 x.loc (1024 * k.2.2) 1024 s
      else s

/-- A COPY whose last waiting tile is committed is done. -/
def copyDone (cmd : Nat) (s : State) : State :=
  if s.deep.stripes.any (fun kv => kv.2.any (fun t => t.cmd = some cmd)) then s
  else match ringFind s cmd with
    | some c => finish c stSuccess (natLe 8 (c.p 16 8)) s
    | none => s

/-- What follows a commit (R177, R202, R203): a tile written anew is good, the block that it leaves for good retires, and the
COPY that wrote it goes on; a page that leaves has one tile more in the user region. -/
def tileCommitted (t : TileWrite) (s : State) : State :=
  let k := keyTile t.key
  let one := BitVec.ofNat 32 (2 ^ k.2.2)
  if keyRegion t.key ≠ 5 || t.cause ≠ .request then s
  else if t.data.isSome then
    let x := pageGet s k.1 k.2.1
    let pl := if x.gone then (deepCharge s (objGet s k.1).owner).getD true else x.flashPool
    let s := pageMod k.1 k.2.1 (fun x => { x with bad := x.bad &&& ~~~one, unasked := x.unasked &&& ~~~one, gone := false
                                                  flash := true, flashPool := pl }) s
    let s := match t.old with | some b => retireBlock b s | none => s
    pump (match t.cmd with | some j => copyDone j s | none => s)
  else
    match (pageGet s k.1 k.2.1).leaving with
    | some m => leaveDone k.1 k.2.1 (pageMod k.1 k.2.1 (fun y => { y with leaving := some (m ||| one) }) s)
    | none => s

/-- The tiles that the next stripe of a group takes: a stripe lies in one region. -/
def nextStripe (s : State) (g : Nat) : List TileWrite :=
  match mapGet [] s.deep.stripes g with
  | [] => []
  | t :: l => ((t :: l).filter (fun u => keyRegion u.key = keyRegion t.key)).take (stripeTiles s g)

/-- A tile that should move cannot be read or rebuilt (R186). -/
def tileHopeless (t : TileWrite) (s : State) : State :=
  let k := keyTile t.key
  if keyRegion t.key = 5 then tileUncorrectable k.1 k.2.1 k.2.2 s else s

/-- Program the next stripe of a group, with its parity and the map log records of its tiles (R173, R177). -/
def commitStripe (g : Nat) (s : State) : State :=
  let all := nextStripe s g
  let slc := keySlc (all.headD { key := 0 }).key
  let s := { s with deep := { s.deep with
    stripes := mapSet [] s.deep.stripes g ((mapGet [] s.deep.stripes g).filter (fun t => !all.contains t)) } }
  let lost := all.filter (fun t => t.cause ≠ .request && hopeless s t.key)
  let now := all.filter (fun t => !lost.contains t)
  let s := now.foldl (fun s t => stageTile t s) (lost.foldl (fun s t => tileHopeless t s) s)
  now.foldl (fun s t => tileCommitted t s) (programStripe g slc now s)

/-- A program of the group's next stripe failed, or an erase that it needed, on one of the dies of its data tiles, which the row
leaves open (log 1): the block is retired, and the tiles stay to be written (R185). -/
def programFailed (g : Nat) (s : State) : State :=
  let t := (nextStripe s g).headD { key := 0 }
  match dataDies s g with
  | [] => s
  | d :: l =>
    let f := drawFree s
    let r := openBlock ((d :: l).getD (f.1 % (l.length + 1)) d) (keySlc t.key) t.ctx f.2
    retireBlock r.1 r.2

/-- The group can program the stripe it has open. -/
def stripeReady (s : State) (g : Nat) : Bool :=
  flashRuns s && !(nextStripe s g).isEmpty && stripeRoom s g (keySlc ((nextStripe s g).headD { key := 0 }).key)

/-- TILE_COMMIT (R177): a full stripe of a group is programmed with its parity and its map log record. -/
def execTileCommit (group : Fin 4) (programOk : Bool) (s : State) : Host.Outcome State Fault Refusal :=
  .next (if !stripeReady s group || (nextStripe s group).length < stripeTiles s group then s
    else if programOk then commitStripe group s else programFailed group s)

/-- STRIPE_CLOSE_TIMEOUT (R177): 1 ms after its last tile an open stripe is closed with padding tiles. -/
def execStripeCloseTimeout (group : Fin 4) (s : State) : Host.Outcome State Fault Refusal :=
  .next (if !stripeReady s group || s.clk.ltc - mapGet 0 s.deep.lastTile group < ticksMs then s
    else commitStripe group s)

/-- MAP_CHECKPOINT (R178): every 60 s or after 64 GiB of committed writes, the map goes into the map region, 196 MiB of
entries; the two most recent checkpoints are kept. -/
def execMapCheckpoint (s : State) : Host.Outcome State Fault Refusal :=
  .next (if !flashRuns s || (s.clk.ltc - s.deep.ckptAt < 60 * ticksS && s.deep.ckptTiles < 1048576) then s
    else
      let s := writeRegion 1 (3136 * (s.deep.ckptAt / (60 * ticksS) % 2)) 3136 s
      { s with deep := { s.deep with ckptAt := s.clk.ltc, ckptTiles := 0, ckpts := { map := s.deep.map } :: s.deep.ckpts.take 1 } })

/-- MOUNT (R179): the newest readable checkpoint with its log, or a rebuild from the tags. Tiles that had not
committed are discarded; each page stays at its previous location. It reads the flash, and waits for TIMEREF (R207). -/
def mount (newestOk olderOk : Bool) (s : State) : State :=
  if s.deep.mounted || !s.sup.domains.getLsbD 28 || !s.sup.timeref then s else
    let s := { s with
      deep := { s.deep with mounted := true, stripes := [], ckptAt := s.clk.ltc, map := mountedMap newestOk olderOk s }
      objects := s.objects.map (fun kv => (kv.1, { kv.2 with pages := kv.2.pages.map (fun p => (p.1, { p.2 with leaving := none })) })) }
    let s := if newestOk || olderOk then readRegion 1 s else readRegion 5 (readRegion 1 s)
    let s := resumeBlocks s
    if newestOk || olderOk then s else raise srcDtRebuild 0 0 s

def execMountTier (newestOk olderOk : Bool) (s : State) : Host.Outcome State Fault Refusal :=
  .next (if s.dev.safe then s else mount newestOk olderOk s)

/-! ### Wear, disturb, retention, scan (R180 to R184, R186) -/

/-- STATIC_WEAR_LEVEL (R180): when erase counts of a mode differ by more than 150, the least-erased block's
tiles move. -/
def execStaticWearLevel (slc : Bool) (s : State) : Host.Outcome State Fault Refusal :=
  let l := s.deep.blocks.filter (fun kv => kv.2.slc = slc && !kv.2.retired)
  .next (if !flashRuns s then s else
    match l with
    | [] => s
    | a :: r =>
      let lo := r.foldl (fun b kv => if kv.2.erases < b.2.erases then kv else b) a
      let hi := r.foldl (fun b kv => max b kv.2.erases) a.2.erases
      if 150 < hi - lo.2.erases && !lo.2.tiles.isEmpty then moveBlock lo.1 .wear 0 s else s)

/-- Reads after which a block's tiles move (R181). -/
def disturbLimit (slc : Bool) : Nat := if slc then 1000000 else 100000

/-- READ_DISTURB_REFRESH (R181). -/
def execReadDisturbRefresh (block : Nat) (s : State) : Host.Outcome State Fault Refusal :=
  .next (match mapFind s.deep.blocks block with
    | some x => if flashRuns s && !x.retired && disturbLimit x.slc ≤ x.reads then moveBlock block .disturb 0 s else s
    | none => s)

/-- Retention weight of a case temperature in 0.0625 °C units (T7.4). -/
def retentionWeight (t : Int) : Nat :=
  if t ≤ 640 then 1 else if t ≤ 768 then 2 else if t ≤ 896 then 4 else if t ≤ 1024 then 8 else if t ≤ 1152 then 16 else 32

/-- Retention age at which a block is refreshed, in sixtieths of a weighted hour (R182). -/
def ageLimit (slc : Bool) : Nat := 60 * if slc then 17280 else 2160

/-- A SNAPSHOT is writing the slot in which the tiles of a block lie (R182). -/
def slotBusy (s : State) (x : Block) : Bool :=
  s.jr.ring.any (fun d => d.opcode = 0x604 && d.started && d.done.isNone) && x.tiles.any (fun t => keyRegion t.2 = 3 + nextSlot s)

/-- RETENTION_TICK (R182, R183): once a minute, with the case temperatures of the two stacks. -/
def execRetentionTick (case0 case1 : Int) (s : State) : Host.Outcome State Fault Refusal :=
  .next (if !s.deep.mounted || s.dev.safe || s.clk.ltc - s.deep.agedAt < 60 * ticksS then s else
    let s := caseTemp 1 case1 (caseTemp 0 case0 s)
    let s := { s with deep := { s.deep with agedAt := s.clk.ltc, blocks := s.deep.blocks.map (fun kv =>
      (kv.1, if kv.2.tiles.isEmpty then kv.2
             else { kv.2 with age := kv.2.age + retentionWeight (if kv.2.die < 16 then case0 else case1) })) } }
    if !flashRuns s then s else
      s.deep.blocks.foldl (fun s kv =>
        if !kv.2.tiles.isEmpty && !kv.2.retired && ageLimit kv.2.slc ≤ kv.2.age && !slotBusy s kv.2 then moveBlock kv.1 .retention 0 s
        else s) s)

/-- Reads that a codeword takes of its own block (R176, R181): one, with the 8 retries where every one fails; how many of them a
read that succeeds on a retry takes is open (log 1). -/
def wordReads (o : CwOutcome) (s : State) : Nat × State :=
  match o with
  | .clean | .weak => (1, s)
  | .retry => let d := drawFree s; (2 + d.1 % 8, d.2)
  | .rebuild | .uncorrectable => (9, s)

/-- What a codeword's outcome adds to the counters of its die (R208). -/
def countOutcome (die : Nat) (o : CwOutcome) (s : State) : State :=
  match o with
  | .clean | .weak => s
  | .retry => dcUp (dcDie die 1) 1 s
  | .rebuild => dcUp (dcDie die 2) 1 (dcUp (dcDie die 1) 1 s)
  | .uncorrectable => dcUp (dcDie die 3) 1 (dcUp (dcDie die 2) 1 (dcUp (dcDie die 1) 1 s))

/-- A read of a codeword of tile `key` with its outcome: the reads of its block and of those that a rebuild reads, the counters
of its die, and the refresh that it calls for (R176, R181, R184). On a failed die every codeword is rebuilt from parity
(R186). -/
def noteRead (b key : Nat) (o : CwOutcome) (s : State) : State :=
  let die := (blockGet s b).die
  let dead := s.deep.failedDies.getLsbD die
  let n := if dead then (0, s) else wordReads o s
  let s := blockMod b (fun x => { x with reads := x.reads + n.1 }) n.2
  let s := if dead || o = .rebuild || o = .uncorrectable then stripeReads key 1 s else s
  if dead then dcUp (dcDie die 2) 1 (if o = .uncorrectable then dcUp (dcDie die 3) 1 s else s)
  else
    let s := countOutcome die o s
    if o = .clean || o = .uncorrectable then s else moveBlock b .scan 0 s

/-- Wordlines of a block that are programmed (R172). -/
def wordlines (x : Block) : Nat := if x.slc then x.used else (x.used + 2) / 3

/-- The committed tile on wordline `i` of a block that a scan reads: the first of them. -/
def scanTile (x : Block) (i : Nat) : Option Nat :=
  (if x.slc then [i] else [3 * i, 3 * i + 1, 3 * i + 2]).findSome? (fun j => mapFind x.tiles j)

/-- Scan a block: one codeword of each of its wordlines; those that `l` does not give read clean (R184). A block that held an
uncorrectable tile of another region than the user region retires (R185). -/
def scanBlock (b : Nat) (l : List CwOutcome) (s : State) : State :=
  let x := blockGet s b
  if x.tiles.isEmpty then s
  else
    let n := wordlines x
    let s := blockMod b (fun y => { y with reads := y.reads + (n - min n l.length) }) s
    ((l.take n).foldl (fun (r : Nat × State) o =>
      (r.1 + 1, match scanTile x r.1 with
        | some k =>
          let s := noteRead b k o r.2
          if o ≠ .uncorrectable then s
          else if keyRegion k = 5 then tileUncorrectable (keyTile k).1 (keyTile k).2.1 (keyTile k).2.2 s
          else retireBlock b s
        | none => r.2)) (0, s)).2

/-- READ_SCAN (R184): every 24 hours, one codeword of every wordline of every block that holds committed data; `outcomes`
gives, by block and in the order of its wordlines, those that need not be clean. -/
def execReadScan (outcomes : List (Nat × CwOutcome)) (s : State) : Host.Outcome State Fault Refusal :=
  .next (if !flashRuns s || s.clk.ltc - s.deep.scanAt < 24 * 3600 * ticksS then s else
    let s := { s with deep := { s.deep with scanAt := s.clk.ltc } }
    pump (s.deep.blocks.foldl (fun s kv =>
      scanBlock kv.1 ((outcomes.filter (fun o => o.1 = kv.1)).map (·.2)) s) s))

/-- DIE_FAILURE (R186). -/
def execDieFailure (die : Fin 32) (s : State) : Host.Outcome State Fault Refusal :=
  .next (if !s.deep.mounted || s.dev.safe then s else failDie die s)

/-! ### Reads of tiles (R176, R202, R203) -/

/-- A demand for a page has another tile read first (R196). -/
def otherFirst (m : Move) (t : Nat) : Bool :=
  match m.first with
  | some f => f ≠ t && (List.range 16).any (fun i => !m.got.getLsbD (16 * f + i))
  | none => false

/-- CODEWORD_READ (R176, R196, R202): the codeword is one of those a move of its page reads; those of the tile that a demand
touched come first. -/
def execCodewordRead (object page : Nat) (tile : Fin 32) (word : Fin 16) (outcome : CwOutcome) (s : State) :
    Host.Outcome State Fault Refusal :=
  .next (if !flashRuns s then s else
    match mapFind s.deep.map (tileKey object page tile) with
    | none => s
    | some l =>
      if s.deep.moves.any (fun m => m.object = object && m.page = page && otherFirst m tile) then s else
      let o := if hopeless s (tileKey object page tile) then .uncorrectable else outcome
      let s := noteRead l.block (tileKey object page tile) o s
      let s := moveMod object page (fun m => { m with got := m.got ||| BitVec.ofNat 512 (2 ^ (16 * tile.val + word.val)) }) s
      if o = .uncorrectable then pump (tileUncorrectable object page tile s) else s)

/-- SOURCE_TIMEOUT (R202): the 100 ms of one source have passed. -/
def execSourceTimeout (object page : Nat) (tile : Fin 32) (s : State) : Host.Outcome State Fault Refusal :=
  .next (match s.deep.refetch.find? (fun r => r.isOf object page tile) with
    | some r =>
      if s.dev.safe || s.clk.ltc - r.since < 100 * ticksMs then s
      else pump (if r.source = 1 then askSource object page tile 2 s else tileLost object page tile s)
    | none => s)

/-! ### Requests of the tier engine (R192, R193, R196, R200, R201) -/

/-- Count the reads of a page's codewords that no CODEWORD_READ has counted (R181, R186). -/
def countReads (o p : Nat) (got : BitVec 512) (s : State) : State :=
  (List.range 32).foldl (fun s t =>
    match mapFind s.deep.map (tileKey o p t) with
    | none => s
    | some l =>
      let n := ((List.range 16).filter (fun i => !got.getLsbD (16 * t + i))).length
      let die := (blockGet s l.block).die
      let s := blockMod l.block (fun x => { x with reads := x.reads + n }) s
      if s.deep.failedDies.getLsbD die then stripeReads (tileKey o p t) n (dcUp (dcDie die 2) n s) else s) s

/-- A page arrives in a frame: its entry changes once, and what was waiting goes on. -/
def pageArrives (m : Move) (l : Loc) (s : State) : State :=
  let ob := objGet s m.object
  let s := countReads m.object m.page m.got s
  let s := fromFlash (ctxPart s ob.owner) ((ob.vpn + m.page) % 64) m.object m.page l s
  let missed := m.asks.any (fun q => q.2 = 0) && !m.asks.any (fun q => q.2 = 1)
  let s := pageMod m.object m.page (fun y => { y with loc := l, pool := m.pool, stamp := nowStamp s, missed := missed }) s
  pump (moveDrop m.object m.page s)

/-- PAGE_ARRIVAL (R196): all 32 tiles of a page have arrived in its frame. The store die starts no transfer while the fabric
stalls (R32, R40). A tile that nothing can read or rebuild is
uncorrectable (R186, R202); a page whose tiles wait to be written anew has not arrived. -/
def execPageArrival (object page : Nat) (s : State) : Host.Outcome State Fault Refusal :=
  .next (if !flashRuns s || !hbmRuns s then s else
    match s.deep.moves.find? (fun m => m.object = object && m.page = page) with
    | none => s
    | some m =>
      match m.frame with
      | none => s
      | some l =>
        let x := pageGet s object page
        let dead := (List.range 32).filter (fun t => hopeless s (tileKey object page t))
        if x.loc ≠ .deep || x.bad ≠ 0#32
            || s.deep.stripes.any (fun kv => kv.2.any (fun t => t.data.isSome && t.key / 32 = object * 2 ^ 25 + page)) then s
        else if !dead.isEmpty then pump (dead.foldl (fun s t => tileUncorrectable object page t s) s)
        else pageArrives m l s)

/-- The tier in which a demand fetch puts a page: its object's home tier; HBM for HOME DEEP (log 26). -/
def fetchTier (ob : Object) : Nat := if ob.home = 1 then 1 else 0

/-- Fetch a page that an access found absent (R200, R203). -/
def demandPage (c o p : Nat) (rod : Option Nat) (s : State) (tile : Option Nat := none) : State :=
  if pageGivenUp o p s then
    match rod with | some n => haltWaiting n s | none => s
  else
    let s := if s.deep.moves.any (fun m => m.object = o && m.page = p && m.cause = 0) then s else dcUp (dcCtx c 0) 1 s
    pump (askMove o p (fetchTier (objGet s o)) 0 c rod tile s)

/-- A command needs a page that is not resident: it waits for the fetch, or ends where no source is left (R200,
R202 step 4, R203). -/
def needPage (c : Cmd) (a : Nat × Nat) (s : State) : State :=
  if pageGivenUp a.1 a.2 s then refuse c stUnavailable s else demandPage c.ctx a.1 a.2 none s

/-- A request of a command is refused (R25): the message names the beam port of the store-die bridge on the command's side (log
20), and the command completes with INVALID_PARAM. -/
def refuseBar (c : Cmd) (b : Bar) (s : State) : State := refuse c stParam (raiseBar b (76 + c.port % 2) s)

/-- Do `k` where nothing keeps the command from its ranges. -/
def unhitched (c : Cmd) (rs : List Span) (s : State) (k : State → State) : State :=
  match hitch s c.ctx rs with
  | some (.barred b) => refuseBar c b s
  | some (.absent a) => needPage c a s
  | none => k s

/-- A page that RESTORE or FILL_FROM_PEER places again (R203): its tiles are good, and the bursts of the lost ones
carry POISON until they are written (log 75). -/
def revivePage (o p : Nat) (s : State) : State :=
  let x := pageGet s o p
  let k := flashKey o p / 64
  let lost := (maskList x.bad.toNat 32).flatMap (fun t => (List.range 1024).map (1024 * t + ·))
  pageMod o p (fun y => { y with bad := 0#32, unasked := 0#32, gone := false })
    { s with deep := { s.deep with fmeta := lost.foldl (fun f i => mapMod 0#4 f (k + i) (· ||| 2#4)) s.deep.fmeta } }

/-- TIER_MISS (R153, R196, R200). -/
def execTierMiss (ctx : Fin 256) (va : Nat) (rod : Option (Fin 64)) (s : State) : Host.Outcome State Fault Refusal :=
  .next (if s.dev.safe then s else
    match translate s ctx va false with
    | .deep o p => demandPage ctx o p (rod.map (·.val)) s (some (va % pageBytes / tileBytes))
    | _ => s)

/-- HINT_SERVICE (R201): the oldest hint of a partition. -/
def execHintService (part : Fin 8) (s : State) : Host.Outcome State Fault Refusal :=
  .next (if s.dev.safe then s else
    match (stratumGet s part).hints with
    | [] => s
    | h :: l =>
      let s := stratumMod part (fun y => { y with hints := l }) s
      let first := h.2.1 / pageBytes
      let last := (h.2.1 + h.2.2.1 * tileBytes - 1) / pageBytes
      let targets := (List.range (last + 1 - first)).map (fun i => objAt s h.1 ((first + i) * pageBytes))
      if targets.any (·.isNone) then stratumMod part (fun y => { y with dropped := satAdd 48 y.dropped 1 }) s
      else
        pump ((targets.filterMap id).foldl (fun s t =>
          if h.2.2.2 = 2 then pageMod t.1 t.2 (fun x => { x with stamp := (nowStamp s + 1) % 65536 }) s
          else if tierOf (pageGet s t.1 t.2).loc = h.2.2.2 then s
          else askMove t.1 t.2 h.2.2.2 2 h.1 none none s) s))

/-- TIER_STARVATION (R193): a demand fetch of the context has waited 1 s for room. -/
def execTierStarvation (ctx : Fin 256) (s : State) : Host.Outcome State Fault Refusal :=
  .next (match s.deep.moves.find? (fun m => m.asks.contains (ctx.val, 0) && !m.starved && ticksS ≤ s.clk.ltc - m.since
      && (m.frame.isNone || !s.sup.timeref)) with
    | some m =>
      if s.dev.safe then s else
        raise (srcStratum + ctxPart s ctx) 9 ctx (moveMod m.object m.page (fun m => { m with starved := true }) s)
    | none => s)

/-- USE_REPORT (R192): translations used in the last millisecond, as context and address. -/
def execUseReport (used : List (Nat × Nat)) (s : State) : Host.Outcome State Fault Refusal :=
  .next (if s.dev.safe then s else
    used.foldl (fun s u => match objAt s u.1 u.2 with
      | some (o, p) => pageMod o p (fun x => { x with stamp := nowStamp s }) s
      | none => s) s)

end Sys2Proof.Machine
end

