-- ==== Sys2Proof/Machine/Objects.lean ====
section
/-!
DEFINITION. Commands on objects and tiers (spec/12_host_command_interface.md T12.10;
spec/07_deep_tier.md R189, R191, R196, R197; spec/06_near_memory.md R147, R149, R153).
-/

namespace Sys2Proof.Machine

/-- A source field (T12.15); none where a reserved bit is set or the kind is not one of the three. -/
def sourceOf (c : Cmd) (lo : Nat) : Option Source :=
  let v := c.p lo 16
  let k := bitsOf v 7 0
  if 2 < k || bitsOf v 19 16 ≠ 0 || 1 < bitsOf v 15 8 then none
  else some { kind := k, port := bitsOf v 15 8, device := bitsOf v 31 20, object := bitsOf v 63 32, addr := bitsOf v 127 64 }

/-- The range of pages is free in the context's space. -/
def rangeFree (s : State) (c va n : Nat) : Bool :=
  s.objects.all (fun kv => kv.2.maps.all (fun m => m.1 ≠ c || m.2 + kv.2.count * pageBytes ≤ va || va + n * pageBytes ≤ m.2))

/-- The lowest free object number (log 26). -/
def freeNumber (s : State) : Nat :=
  ((List.range (s.objects.length + 1)).find? (fun n => !objExists s n)).getD 0

/-- OBJ_REGISTER of an existing SHARED object: another mapping of it (R145, R189). -/
def mapShared (c : Cmd) (o : Nat) (s : State) : State :=
  let ob := objGet s o
  if !objExists s o || !ob.shared || ctxPart s ob.owner ≠ ctxPart s c.ctx || (objBase s c.ctx o).isSome
      || c.p 8 4 ≠ ob.count || !rangeFree s c.ctx (c.p 0 8) ob.count then refuse c stParam s
  else finish c stSuccess (natLe 4 o) (objSet o { ob with maps := ob.maps ++ [(c.ctx, c.p 0 8)] } s)

/-- The deep tier forgets what it still holds for an object number of an earlier power cycle. -/
def purge (o : Nat) (s : State) : State :=
  let s := ((s.deep.map.map (·.1)).filter (fun k => k / 2 ^ 30 = o)).foldl (fun s k => dropTile k (mapLog (.free k) s)) s
  { s with deep := { s.deep with
    poisoned := s.deep.poisoned.filter (fun k => k / 2 ^ 30 ≠ o)
    flash := s.deep.flash.filter (fun kv => kv.1 / 2 ^ 46 ≠ o)
    fmeta := s.deep.fmeta.filter (fun kv => kv.1 / 2 ^ 40 ≠ o) } }

/-- OBJ_REGISTER of a new object: every page is placed in the home tier before DONE (R189). -/
def registerNew (c : Cmd) (s : State) : State :=
  match sourceOf c 32, sourceOf c 48 with
  | some a, some b =>
    let n := c.p 8 4
    if 1048576 ≤ freeNumber s then refuse c stResource s
    else
      let o := freeNumber s
      let ob : Object :=
        { owner := c.ctx, home := c.p 12 1, pin := c.bit 13 0, shared := c.bit 13 1, writable := c.bit 13 2,
          cache := bitsOf (c.p 13 1) 4 3, src1 := a, src2 := b, count := n, vpn := c.p 0 8 / pageBytes,
          maps := [(c.ctx, c.p 0 8)] }
      let s := objSet o ob (begun c (purge o s))
      let j : PlaceJob := { cmd := c.jidx, ctx := c.ctx, object := o, dest := ob.home, next := 0, stop := n, fresh := true }
      pump { s with deep := { s.deep with jobs := s.deep.jobs ++ [j] } }
  | _, _ => refuse c stParam s

/-- OBJ_REGISTER (R189). -/
def execObjRegister (q : Fin 512) (seq : Nat) (s : State) : Host.Outcome State Fault Refusal :=
  .next (runCmd s q seq 0x300 true [(0, 8), (8, 4), (12, 1), (13, 1), (16, 4), (32, 16), (48, 16)] (fun c s =>
    let va := c.p 0 8
    let n := c.p 8 4
    if va % pageBytes ≠ 0 || n = 0 || 2 ^ 48 < va + n * pageBytes || 2 < c.p 12 1 || bitsOf (c.p 13 1) 4 3 = 3
        || bitsOf (c.p 13 1) 7 5 ≠ 0 then refuse c stParam s
    else if c.p 16 4 ≠ 0xFFFFFFFF then mapShared c (c.p 16 4) s
    else if !rangeFree s c.ctx va n then refuse c stParam s
    else registerNew c s))

/-- End one context's mapping of an object: for the owner the object goes; a sharer's mapping alone (R196). -/
def releaseFrom (c o : Nat) (s : State) : State :=
  let ob := objGet s o
  if ob.owner = c then
    let s := ob.pages.foldl (fun s kv => flushPage (ctxPart s c) kv.2.loc s) s
    pump (dropObject o s)
  else objSet o { ob with maps := ob.maps.filter (fun m => m.1 ≠ c) } s

/-- OBJ_RELEASE (R196). -/
def execObjRelease (q : Fin 512) (seq : Nat) (s : State) : Host.Outcome State Fault Refusal :=
  .next (runCmd s q seq 0x301 true [(0, 4)] (fun c s =>
    if (objBase s c.ctx (c.p 0 4)).isNone then refuse c stParam s
    else finish c stSuccess [] (releaseFrom c.ctx (c.p 0 4) s)))

/-- OBJ_PLACE (R193, R196). -/
def execObjPlace (q : Fin 512) (seq : Nat) (s : State) : Host.Outcome State Fault Refusal :=
  .next (runCmd s q seq 0x302 true [(0, 4), (4, 1), (5, 1), (6, 1), (8, 4), (12, 4)] (fun c s =>
    let o := c.p 0 4
    let ob := objGet s o
    let byGroup := c.p 5 1 = 0 && c.p 4 1 = 0
    if (objBase s c.ctx o).isNone || 2 < c.p 4 1 || 1 < c.p 5 1 || ob.count < c.p 8 4 + c.p 12 4
        || (byGroup && (32 ≤ c.p 6 1 || (groupChans s (ctxPart s ob.owner) (c.p 6 1)).isEmpty)) then refuse c stParam s
    else
      let j : PlaceJob := { cmd := c.jidx, ctx := c.ctx, object := o, dest := c.p 4 1,
                            group := if byGroup then some (c.p 6 1) else none, next := c.p 8 4, stop := c.p 8 4 + c.p 12 4 }
      let s := begun c s
      pump { s with deep := { s.deep with jobs := s.deep.jobs ++ [j] } }))

/-- QUOTA_SET (R191). -/
def execQuotaSet (q : Fin 512) (seq : Nat) (s : State) : Host.Outcome State Fault Refusal :=
  .next (runCmd s q seq 0x305 true [(0, 1), (4, 4)] (fun c s =>
    let t := c.p 0 1
    let n := c.p 4 4
    let old := quotaOf s c.ctx t
    if 2 < t then refuse c stParam s
    else if n < usedOf s c.ctx t then refuse c stBusy s
    else if tierCap s (ctxPart s c.ctx) t < quotaSum s (ctxPart s c.ctx) t - old + n then refuse c stResource s
    else finish c stSuccess (natLe 4 old) (ctxMod c.ctx (fun x => { x with quotas := mapSet 0 x.quotas t n }) s)))

/-- Entries of a PREFETCH_SCHEDULE. -/
def schedEntries (c : Cmd) : List (BitVec 128) :=
  (List.range (c.p 2 2)).map (fun i => BitVec.ofNat 128 (c.p (16 + 16 * i) 16))

/-- An entry's own fields are legal (T7.8). -/
def entryOk (e : BitVec 128) : Bool := 1 ≤ entF e 54 39 && entF e 38 37 ≤ 1 && entF e 36 35 ≤ 2 && entF e 34 0 = 0

/-- SEQ starts at 0 (R197). -/
def seqStarts (l : List (BitVec 128)) : Bool := l.head?.all (fun e => entF e 111 100 = 0)

/-- SEQ does not decrease, and one SEQ carries one LAYER_ID (R197). -/
def seqOk : List (BitVec 128) → Bool
  | a :: b :: l => (entF a 111 100 < entF b 111 100 || (entF a 111 100 = entF b 111 100 && entF a 127 112 = entF b 127 112))
      && seqOk (b :: l)
  | _ => true

/-- PREFETCH_SCHEDULE (R197). -/
def execPrefetchSchedule (q : Fin 512) (seq : Nat) (s : State) : Host.Outcome State Fault Refusal :=
  .next (runCmd s q seq 0x304 true [(0, 1), (2, 2), (16, 65536)] (fun c s =>
    let l := schedEntries c
    if 15 < c.p 0 1 || 4096 < c.p 2 2 || !l.all entryOk || !seqStarts l || !seqOk l then refuse c stParam s
    else
      let h : Schedule := { d := c.p 0 1, entries := l }
      let s := ctxMod c.ctx (fun x => { x with nextSched := some h }) s
      finish c stSuccess [] (if (ctxGet s c.ctx).stepOpen then s else schedStep c.ctx s)))

/-! ### COPY (R147, R149, R153) -/

/-- Every 64-byte burst of a device range is mapped (and writable). -/
def rangeMapped (s : State) (c va n : Nat) (write : Bool) : Bool :=
  va + n ≤ 2 ^ 48 && (List.range ((va % pageBytes + n + pageBytes - 1) / pageBytes)).all (fun i =>
    translate s c (if i = 0 then va else (va / pageBytes + i) * pageBytes) write ≠ .unmapped)

/-- Write anew a user-region page that a copy covers whole (T7.2): its 32 tiles wait for their commit, which clears what
was poisoned (R177, R203). The page stays in the user region. -/
def copyWhole (c : Cmd) (o p off : Nat) (data : Bytes) (m : List (BitVec 4)) (s : State) : State :=
  let s := { s with deep := { s.deep with refetch := s.deep.refetch.filter (fun r => !(r.object = o && r.page = p)) } }
  (List.range 32).foldl (fun s t => queueWrite (t % 4)
    { key := tileKey o p t, ctx := c.ctx, cmd := some c.jidx
      data := some (byteSlice data (off + tileBytes * t) tileBytes,
                    (List.range 1024).map (fun i => m.getD (off / 64 + 1024 * t + i) 0#4)) } s) s

/-- What a COPY reads: bytes and metadata, or nothing where a poisoned burst would leave the device (R149). -/
def copyRead (c : Cmd) (s : State) : Option (Bytes × List (BitVec 4)) × State :=
  let n := c.p 16 8
  if c.bit 24 0 then (some (hostRead s c.port (c.p 0 8) n, []), s)
  else
    let r := readRaw c.ctx (c.p 0 8) n s
    if c.bit 24 1 && r.1.md.any mdPoison then (none, r.2) else (some (r.1.bytes, r.1.md), r.2)

/-- Write what a COPY read, page by page. -/
def copyWrite (c : Cmd) (data : Bytes) (m : List (BitVec 4)) (s : State) : State :=
  let n := c.p 16 8
  let dst := c.p 8 8
  if c.bit 24 1 then hostWrite c.port dst data s
  else
    (List.range ((dst % pageBytes + n + pageBytes - 1) / pageBytes)).foldl (fun s i =>
      let va := if i = 0 then dst else (dst / pageBytes + i) * pageBytes
      let len := min (dst + n) ((va / pageBytes + 1) * pageBytes) - va
      match translate s c.ctx va true with
      | .deep o p => copyWhole c o p (va - dst) data m s
      | _ =>
        let s := (writeVa c.ctx va ((data.drop (va - dst)).take len) 0 false s).2
        if c.bit 24 0 then s else setMd c.ctx va ((m.drop ((va - dst) / 64)).take (len / 64)) s) s

/-- The user-region pages of the destination. -/
def copyDeep (s : State) (c : Cmd) : List (Nat × Nat) :=
  if c.bit 24 1 then [] else
    (List.range ((c.p 8 8 % pageBytes + c.p 16 8 + pageBytes - 1) / pageBytes)).filterMap (fun i =>
      match translate s c.ctx (if i = 0 then c.p 8 8 else (c.p 8 8 / pageBytes + i) * pageBytes) true with
      | .deep o p => some (o, p)
      | _ => none)

/-- The user region takes no writes (R185), or has no room for a page that holds no flash. -/
def copyFull (s : State) (c : Cmd) : Bool :=
  (copyDeep s c).any (fun q => s.deep.spare = 0 || ((pageGet s q.1 q.2).gone && (deepCharge s (objGet s q.1).owner).isNone))

/-- A page of the destination that is absent and not covered whole, or any absent page of the source. -/
def copyNeeds (s : State) (c : Cmd) : Option (Nat × Nat) :=
  let n := c.p 16 8
  let dst := c.p 8 8
  let src := if c.bit 24 0 then none else firstAbsent s c.ctx (c.p 0 8) n false
  match src with
  | some x => some x
  | none =>
    if c.bit 24 1 then none else
      (List.range ((dst % pageBytes + n + pageBytes - 1) / pageBytes)).findSome? (fun i =>
        let va := if i = 0 then dst else (dst / pageBytes + i) * pageBytes
        match translate s c.ctx va true with
        | .deep o p =>
          if va % pageBytes = 0 && va + pageBytes ≤ dst + n && (pageGet s o p).leaving.isNone && flashRuns s then none else some (o, p)
        | _ => none)

/-- The device ranges that a COPY reads and writes. -/
def copySpans (c : Cmd) : List Span :=
  (if c.bit 24 0 then [] else [(c.p 0 8, c.p 16 8, false)]) ++ (if c.bit 24 1 then [] else [(c.p 8 8, c.p 16 8, true)])

/-- An owner's check refuses a COPY one of its bursts (R25). -/
def copyBar (s : State) (c : Cmd) : Option Bar := (copySpans c).findSome? (fun r => firstBar s c.ctx r.1 r.2.1 r.2.2)

/-- COPY (R25, R147, R149, R153). A page in the user region that it reads, or does not cover whole, is fetched first; the command
then waits for it. Pages of the user region that it writes are committed tile by tile before its DONE (R177). -/
def execCopyBytes (q : Fin 512) (seq : Nat) (s : State) : Host.Outcome State Fault Refusal :=
  .next (runCmd s q seq 0x303 true [(0, 8), (8, 8), (16, 8), (24, 1)] (fun c s =>
    let n := c.p 16 8
    let sh := c.bit 24 0
    let dh := c.bit 24 1
    if (sh && dh) || bitsOf (c.p 24 1) 7 2 ≠ 0 || n % 64 ≠ 0 || c.p 0 8 % 64 ≠ 0 || c.p 8 8 % 64 ≠ 0
        || (!sh && !rangeMapped s c.ctx (c.p 0 8) n false) || (!dh && !rangeMapped s c.ctx (c.p 8 8) n true) then
      refuse c stParam s
    else match copyBar s c, copyNeeds s c with
      | some b, _ => refuseBar c b s
      | none, some a => needPage c a s
      | none, none =>
        let r := copyRead c s
        match r.1 with
        | none => refuse c stUnavailable r.2
        | some d =>
          if copyFull s c then refuse c (fullStatus s 2) s else copyDone c.jidx (copyWrite c d.1 d.2 (begun c r.2))))

end Sys2Proof.Machine
end

