-- ==== Sys2Proof/Machine/Tally.lean ====
section
/-!
DEFINITION. Tally arbiters (spec/08_tallies.md R209 to R226): budgets and modes, the granting of counted
slots, SET_TALLY and tally starvation.
-/

namespace Sys2Proof.Machine

/-- Instances of an arbiter kind (T8.1): HBM channels, slice ports, beam ports, Zilet ports, flash channels,
host-port DMA. -/
def arbInstances (kind : Nat) : Nat := [256, 16, 79, 32, 16, 2].getD kind 0

/-- Budgets of a kind that the configuration image does not name (T8.4). -/
def defaultBudgets (kind : Nat) : FMap Nat :=
  if kind = 3 then [(0, 3727), (60, 82), (61, 164), (62, 82), (63, 41)]
  else [(0, 3809), (61, 164), (62, 82), (63, 41)]

/-- An arbiter at a chip reset or power cycle that the image does not name (R223). -/
def arbDefault (kind : Nat) : Arbiter := { table := defaultBudgets kind, budget := defaultBudgets kind }

def arbGet (s : State) (kind inst : Nat) : Arbiter := (mapFind s.arbiters (256 * kind + inst)).getD (arbDefault kind)

def arbSet (kind inst : Nat) (x : Arbiter) (s : State) : State :=
  { s with arbiters := mapInsert s.arbiters (256 * kind + inst) x }

/-- Counts kept by an arbiter (R226). -/
def arbUp (i : Nat) (x : Arbiter) : Arbiter := { x with counters := mapMod 0 x.counters i (satAdd 48 · 1) }

/-- A new epoch: nothing carries over (R209), and what the table holds comes into force (R222). -/
def newEpoch (x : Arbiter) : Arbiter :=
  arbUp 129 { x with used := [], slots := 0, budget := x.table, borrow := x.tableBorrow }

/-- Class of a context's traffic. Context 0 is mapped to no class: its work is Zenith's (log 78). -/
def ctxClass (s : State) (c : Nat) : Nat := if c = 0 then 61 else (ctxGet s c).cls

/-- Class of the flash work on a tile that waits to be programmed (R187): that of the context that writes it, or whose write
made garbage collection necessary; the maintenance class for refresh, wear moves, retirement and what else the translation
layer does. -/
def tileClass (s : State) (key : Nat) : Nat :=
  match (s.deep.stripes.flatMap (·.2)).find? (fun t => t.key = key) with
  | some t => (match t.cause with
      | .request | .gc => ctxClass s t.ctx
      | .retention | .disturb | .scan | .wear | .retire | .die | .map => 62)
  | none => 62

/-- Class that traffic is charged to (T8.2). -/
def classOf (s : State) : Traffic → Nat
  | .context c => ctxClass s c
  | .transit => 60
  | .control => 61
  | .maint => 62
  | .selftest => 63
  | .tile key => tileClass s key

/-- Grant units of a request (T8.1): bursts, accesses, flits of the beam and of the link, codewords, write payloads; a read
request of a host port is one. -/
def grantUnits (kind : Nat) (r : Request) : Nat :=
  let u := [64, 128, 64, 240, 4096, 512].getD kind 64
  if kind = 5 && r.read then 1 else max 1 ((r.bytes + u - 1) / u)

/-- A request as it joins an arbiter's queue. -/
def arrive (s : State) (kind : Nat) (r : Request) : Waiter :=
  { source := r.source, cls := classOf s r.traffic, units := grantUnits kind r, since := s.clk.ltc }

/-- The heads of the queues: the oldest request of each source, oldest first (R214). -/
def headsOf (l : List Waiter) : List Waiter :=
  l.foldl (fun acc h => if acc.any (fun g => g.source = h.source) then acc else acc ++ [h]) []

/-- Grant one unit to a request; one that has all its units leaves the queue (R211). -/
def grantTo (h : Waiter) : List Waiter → List Waiter
  | [] => []
  | w :: l => if w = h then (if w.units ≤ 1 then l else { w with units := w.units - 1 } :: l) else w :: grantTo h l

/-- The classes in rotation, from the first one after the pointer (R215). -/
def rotation (ptr : Nat) : List Nat := (List.range 64).map (fun i => (ptr + 1 + i) % 64)

/-- The class a counted slot goes to, and whether it borrows (R215, R216); none when the slot lapses. -/
def slotClass (x : Arbiter) (waiting : List Nat) : Option (Nat × Bool) :=
  match (rotation x.ptr).find? (fun c => waiting.contains c && mapGet 0 x.used c < mapGet 0 x.budget c) with
  | some c => some (c, false)
  | none =>
    if x.borrow then
      ((rotation x.ptr).find? (fun c => waiting.contains c && c ≠ 62 && c ≠ 63)).map (fun c => (c, true))
    else none

/-- One counted slot (R209, R215): a grant to the oldest head request of the chosen class, or a lapse; the 4,096th
ends the epoch. -/
def countSlot (x : Arbiter) : Arbiter :=
  let heads : List Waiter := headsOf x.queue
  let y := match slotClass x (heads.map (fun (h : Waiter) => h.cls)) with
    | some (c, b) =>
      let q := match heads.find? (fun (h : Waiter) => h.cls = c) with | some h => grantTo h x.queue | none => x.queue
      let y := arbUp c { x with queue := q, used := mapMod 0 x.used c (· + 1), ptr := c }
      if b then arbUp (64 + c) y else y
    | none => arbUp 128 x
  let y := { y with slots := y.slots + 1 }
  if 4096 ≤ y.slots then newEpoch y else y

/-- An arbiter at which no request waits starts a new epoch at once where its table holds something new (R222). -/
def settleArb (x : Arbiter) : Arbiter :=
  if x.queue.isEmpty && !(x.table = x.budget && x.tableBorrow = x.borrow) then newEpoch x else x

/-- Flash work on a tile that the map holds is for the NAND channel of its die (R172). -/
def atChannel (s : State) (kind inst : Nat) (r : Request) : Bool :=
  match r.traffic with
  | .tile key => kind ≠ 4 || (match mapFind s.deep.map key with
      | some t => decide (dieChannel (blockGet s t.block).die = inst)
      | none => true)
  | _ => true

/-- The resource behind an arbiter accepts requests: HBM, what runs on the core rail, the flash with its time reference (R32, R40,
R207). -/
def slotRuns (s : State) (kind : Nat) : Bool :=
  if kind = 0 then hbmRuns s else if kind = 1 || kind = 2 then coreRuns s else if kind = 4 then flashRuns s else true

/-- An arbiter with the requests that have come to it. -/
def arbJoined (s : State) (kind inst : Nat) (arrivals : List Request) : Arbiter :=
  let x := settleArb (arbGet s kind inst)
  { x with queue := x.queue ++ (arrivals.filter (atChannel s kind inst)).map (arrive s kind) }

/-- COUNTED_SLOT (R214, R215): `arrivals` have come since the last slot. With no request waiting there is no slot, and none counts
while the resource accepts nothing; the requests wait (R218). -/
def execCountedSlot (kind : Fin 6) (inst : Nat) (arrivals : List Request) (s : State) : Host.Outcome State Fault Refusal :=
  .next (
    if arbInstances kind ≤ inst || s.dev.safe then s
    else
      let x := arbJoined s kind inst arrivals
      if x.queue.isEmpty then s
      else arbSet kind inst (if slotRuns s kind then settleArb (countSlot x) else x) s)

/-- A head request of a class that has waited 1 s and is not reported yet (R218). -/
def starvedHead (s : State) (kind inst cls : Nat) : Option Waiter :=
  (headsOf (arbGet s kind inst).queue).find? (fun h => h.cls = cls && !h.starved && h.since + 100000000 ≤ s.clk.ltc)

/-- Mark the first request equal to `h` as reported. -/
def markStarved (h : Waiter) : List Waiter → List Waiter
  | [] => []
  | w :: l => if w = h then { w with starved := true } :: l else w :: markStarved h l

/-- Report a request of an arbiter as starved (R218): it goes on waiting. -/
def noteStarved (kind inst : Nat) (h : Waiter) (s : State) : State :=
  let x := arbGet s kind inst
  raise (srcTally + kind) 0x08 (fieldAt kind 4 36 + fieldAt inst 8 28 + fieldAt h.cls 4 24 + fieldAt h.cls 6 18)
    (arbSet kind inst (arbUp 130 { x with queue := markStarved h x.queue }) s)

/-- TALLY_STARVATION (R218, T14.3). -/
def execTallyStarvation (kind : Fin 6) (inst : Nat) (cls : Fin 64) (s : State) : Host.Outcome State Fault Refusal :=
  .next (
    if arbInstances kind ≤ inst || s.dev.safe then s
    else match starvedHead s kind inst cls with
      | some h => noteStarved kind inst h s
      | none => s)

/-- An arbiter of a domain that was switched off and on: its table again, from its first slot, with counters at 0 (R225,
R226). -/
def Arbiter.reload (x : Arbiter) : Arbiter := { table := x.table, budget := x.table, tableBorrow := x.tableBorrow, borrow := x.tableBorrow }

/-! ### SET_TALLY (R219 to R222) -/

/-- Partition a tally class is bound to (R213): that of the contexts mapped to it. Context 0 takes no class. -/
def classPart (s : State) (cls : Nat) : Option Nat :=
  (s.ctxs.find? (fun kv => kv.1 ≠ 0 && kv.2.cls = cls)).map (fun kv => kv.2.part)

/-- The arbiter serves a unit that another partition than `part` owns, or a port dedicated to another (R213, R220). -/
def foreignArb (s : State) (part kind inst : Nat) : Bool :=
  (kind = 0 && mapGet 0 s.parts.chan inst ≠ part)
    || (kind = 2 && inst < 64 && mapGet 0 s.parts.rod inst ≠ part)
    || (kind = 3 && (match mapFind s.parts.ded inst with | some k => k ≠ part | none => false))

def budgetSum (x : Arbiter) : Nat := x.table.foldl (fun a kv => a + kv.2) 0

/-- Fields of T8.3 in the 16 parameter bytes. -/
structure TallyCmd where
  op : Nat
  kind : Nat
  first : Nat
  count : Nat
  cls : Nat
  budget : Nat
  mode : Nat
  rest : Nat
deriving DecidableEq, Repr

def tallyCmd (c : Cmd) : TallyCmd :=
  let v := c.p 0 16
  ⟨bitsOf v 127 120, bitsOf v 119 116, bitsOf v 115 108, bitsOf v 107 99, bitsOf v 98 93, bitsOf v 92 80, bitsOf v 79 79, bitsOf v 78 0⟩

/-- A field of the range lies outside its limits (R219, R220). -/
def tallyRangeBad (t : TallyCmd) : Bool :=
  5 < t.kind || t.count = 0 || 256 < t.count || arbInstances t.kind < t.first + t.count || t.rest ≠ 0

/-- End a SET_TALLY: the new table at every named arbiter, and the least room left (R219). -/
def tallyDone (c : Cmd) (t : TallyCmd) (f : Arbiter → Arbiter) (s : State) : State :=
  let l := (List.range t.count).map (fun i => t.first + i)
  let room := l.foldl (fun a i => min a (4096 - budgetSum (f (arbGet s t.kind i)))) 4096
  finish c stSuccess (natLe 2 room) (l.foldl (fun s i => arbSet t.kind i (settleArb (f (arbGet s t.kind i))) s) s)

/-- SET_TALLY with OP BUDGET (R219 to R222). -/
def execSetTallyBudget (q : Fin 512) (seq : Nat) (s : State) : Host.Outcome State Fault Refusal :=
  .next (runSub s q seq 0x104 (fun c => (tallyCmd c).op ≠ 1) false [(0, 16)] (fun c s =>
    let t := tallyCmd c
    let l := (List.range t.count).map (fun i => t.first + i)
    let f (x : Arbiter) : Arbiter := { x with table := mapSet 0 x.table t.cls t.budget }
    let floor := (t.cls = 61 || t.cls = 62) && t.budget < 41
    let owned := match classPart s t.cls with
      | some k => t.budget ≠ 0 && l.any (fun i => foreignArb s k t.kind i)
      | none => false
    if t.op ≠ 0 || tallyRangeBad t || 4096 < t.budget || t.mode ≠ 0 || (t.cls = 60 && t.kind ≠ 3) || floor || owned then
      refuse c stParam s
    else if l.any (fun i => 4096 < budgetSum (f (arbGet s t.kind i))
        && budgetSum (arbGet s t.kind i) < budgetSum (f (arbGet s t.kind i))) then refuse c stResource s
    else tallyDone c t f s))

/-- SET_TALLY with OP MODE (R219 to R222). -/
def execSetTallyMode (q : Fin 512) (seq : Nat) (s : State) : Host.Outcome State Fault Refusal :=
  .next (runSub s q seq 0x104 (fun c => (tallyCmd c).op = 1) false [(0, 16)] (fun c s =>
    let t := tallyCmd c
    if tallyRangeBad t || t.cls ≠ 0 || t.budget ≠ 0 then refuse c stParam s
    else tallyDone c t (fun x => { x with tableBorrow := decide (t.mode = 1) }) s))

end Sys2Proof.Machine
end

