-- ==== Sys2Proof/Machine/Links.lean ====
section
/-!
DEFINITION. What the Zilet link's rows share (spec/10_zilet_links.md): ports, flits sent, automatic routes,
sessions and their end, the loss of a partner (spec/13_mirror_pair_consistency.md R380), and the receipt of a
message (R285).
-/

namespace Sys2Proof.Machine

/-! ### Ports (R265, R266, R291, R292) -/

def portGet (s : State) (p : Nat) : Port := mapGet {} s.zl.ports p

def portMod (p : Nat) (f : Port → Port) (s : State) : State :=
  { s with zl := { s.zl with ports := mapMod {} s.zl.ports p f } }

/-- The port is UP or UP_X4. -/
def Port.live (x : Port) : Bool := x.st = .up || x.st = .upX4

def mirrorPort (s : State) (p : Nat) : Bool := s.dev.mirrorPorts.getLsbD p

/-- Code of a state in the order of T10.1. -/
def PortState.code : PortState → Nat
  | .disabled => 0
  | .down => 1
  | .training => 2
  | .up => 3
  | .upX4 => 4
  | .recovery => 5
  | .isolated => 6
  | .safe => 7

/-- The HELLO payload this device sends on a port (T10.7). -/
def helloWord (s : State) (p : Nat) : BitVec 128 :=
  let paired := (s.jr.pair = .bound || s.jr.pair = .binding) && mirrorPort s p
  BitVec.ofNat 128 (fieldAt s.trust.serial.toNat 64 64 + fieldAt (s.dev.zlId.getD 0) 12 52
    + (if s.dev.zlId.isSome then 2 ^ 51 else 0) + fieldAt p 5 46 + fieldAt s.dev.bootId.toNat 16 30
    + (if paired then 2 ^ 29 + fieldAt s.jr.partner 12 17 else 0))

/-- Neighbour's SERIAL, DEV_ID with ID_VALID, PAIR with PARTNER, of a HELLO. -/
def hSerial (h : BitVec 128) : Nat := bitsOf h.toNat 127 64

def hId (h : BitVec 128) : Option Nat := if h.getLsbD 51 then some (bitsOf h.toNat 63 52) else none

def hPair (h : BitVec 128) : Option Nat := if h.getLsbD 29 then some (bitsOf h.toNat 28 17) else none

/-- The neighbour a port's last HELLO names. -/
def neighbour (s : State) (p : Nat) : Option Nat := (portGet s p).hello.bind hId

/-- A PEER_DISCOVER port record (T10.8). -/
def portRecord (s : State) (p : Nat) : BitVec 128 :=
  let x := portGet s p
  let h := (x.hello.getD 0#128).toNat
  let ded := mapFind s.parts.ded p
  BitVec.ofNat 128 (fieldAt (bitsOf h 127 64) 64 64 + fieldAt (bitsOf h 63 52) 12 52 + fieldAt (bitsOf h 51 51) 1 51
    + fieldAt (bitsOf h 50 46) 5 46 + fieldAt x.st.code 3 43
    + fieldAt (if x.st = .up then 8 else if x.st = .upX4 then 4 else 0) 5 38
    + (if mirrorPort s p then 2 ^ 37 else 0) + (if ded.isSome then 2 ^ 36 else 0) + fieldAt (ded.getD 0) 3 33
    + fieldAt (bitsOf h 45 30) 16 17)

/-- The 32 records (R292). -/
def portRecords (s : State) : Bytes := (List.range 32).flatMap (fun p => natLe 16 (portRecord s p).toNat)

/-- Ports in UP or UP_X4. -/
def liveMask (s : State) : Nat := listMask ((List.range 32).filter (fun p => (portGet s p).live))

/-! ### Routes (R277, R278) -/

def routeV (e : BitVec 64) : Bool := e.getLsbD 63

def routeAuto (e : BitVec 64) : Bool := e.getLsbD 62

/-- The automatic entry for a neighbour (R278). -/
def autoEntry (s : State) (d : Nat) : BitVec 64 :=
  let l := (List.range 32).filter (fun p => (portGet s p).live && neighbour s p = some d)
  match l with
  | [] => 0#64
  | p :: _ => BitVec.ofNat 64 (2 ^ 63 + 2 ^ 62 + fieldAt p 5 57 + 2 ^ 56 + listMask l)

/-- Keep the automatic entries with the ports (R278). -/
def autoRoutes (s : State) : State :=
  let ids := (List.range 32).filterMap (neighbour s) ++ (s.zl.peers.filter (fun kv => routeAuto kv.2.route)).map (·.1)
  ids.foldl (fun s d =>
    let x := peerGet s d
    if s.dev.zlId = some d || (routeV x.route && !routeAuto x.route) then s
    else peerSet d { x with route := autoEntry s d } s) s

/-! ### Flits sent (R267, R268, R272) -/

/-- Credits of a VC that the next header returns: at most 15 (T10.2). -/
def Port.crReturn (x : Port) (v : Nat) : Nat := min 15 (mapGet 0 x.freed v)

/-- A flit with the answer and the credits that wait: FTYPE 0 IDLE, 1 DATA, 2 ABORT, 3 CONTROL (R267, T10.2). -/
def Port.flit (x : Port) (ftype vc : Nat) (first : Bool) (payload : Bytes) : Bytes :=
  let h := natLe 12 (fieldAt x.txSeq 12 84 + fieldAt x.reply.2 12 72 + fieldAt x.reply.1 2 70 + fieldAt ftype 4 66
    + fieldAt vc 2 64 + fieldAt (x.crReturn 3) 4 60 + fieldAt (x.crReturn 2) 4 56 + fieldAt (x.crReturn 1) 4 52
    + fieldAt (x.crReturn 0) 4 48 + (if first then 2 ^ 47 else 0))
  let bs := h ++ byteSlice payload 0 240
  bs ++ natLe 4 (crc32c bs)

/-- The answer and the credits have gone out with a flit. -/
def Port.answered (x : Port) : Port :=
  { x with reply := (0, 0), freed := (List.range 4).foldl (fun m v => mapSet 0 m v (mapGet 0 x.freed v - x.crReturn v)) x.freed }

/-- A flit that advances no FSEQ, and is not kept for replay: IDLE, or CONTROL with a payload (T10.2, R270, R291). -/
def sendPlain (p ftype : Nat) (payload : Bytes) (s : State) : State :=
  portMod p (fun x => { x.answered with sent := x.flit ftype 0 false payload
                                        sinceIdle := if ftype = 0 then 0 else x.sinceIdle + 1 }) s

/-- Where no DATA flit is ready an IDLE flit is sent (R270); it carries the answer and the credits that wait. -/
def answerNow (p : Nat) (s : State) : State :=
  let x := portGet s p
  if !x.live then s else
    let n := (List.range 4).foldl (fun a v => max a ((mapGet 0 x.freed v + 14) / 15)) (if x.reply.1 = 0 then 0 else 1)
    (List.range n).foldl (fun s _ => sendPlain p 0 [] s) s

/-- Send this device's HELLO in a CONTROL flit; a port that recovers sends it afterwards (R291). -/
def sendHello (p : Nat) (s : State) : State :=
  if (portGet s p).st = .recovery then portMod p (fun x => { x with helloDue := true }) s
  else sendPlain p 3 (natLe 16 (helloWord s p).toNat) (portMod p (fun x => { x with helloDue := false }) s)

/-- Put flits with an FSEQ on the lanes: at least one flit in 4,096 is IDLE (R270). -/
def onLanes (p : Nat) (l : List (Nat × Bytes)) (s : State) : State :=
  l.foldl (fun s f =>
    let s := portMod p (fun x => { x with sent := f.2, sinceIdle := x.sinceIdle + 1 }) s
    if 4095 ≤ (portGet s p).sinceIdle then sendPlain p 0 [] s else s) s

/-- A port takes flits for its replay buffer: it carries flits, or recovers and sends them afterwards (R269). -/
def Port.takes (x : Port) : Bool := x.live || x.st = .recovery

/-- Send one flit with an FSEQ: 1 DATA, 2 ABORT. It stays in the replay buffer until an ACK covers it; at a port that
recovers, or while the core side stalls, it waits there. -/
def sendFlit (p ftype vc : Nat) (first : Bool) (payload : Bytes) (s : State) : State :=
  let x := portGet s p
  let f := (x.txSeq, x.flit ftype vc first payload)
  let s := portMod p (fun x =>
    { x.answered with txSeq := (x.txSeq + 1) % 4096, replay := x.replay ++ [f], used := mapMod 0 x.used vc (· + 1)
                      ackAt := if x.replay.isEmpty then s.clk.ltc else x.ackAt }) s
  let s := if ftype = 1 then zlBump (zcPort p 0) 1 s else s
  if x.live && !stalled s s.sup.fabMv && x.unsent = 0 then onLanes p [f] s
  else portMod p (fun x => { x with unsent := x.unsent + 1 }) s

/-- What waited to be sent first goes on the lanes. -/
def sendUnsent (p : Nat) (s : State) : State :=
  let x := portGet s p
  if x.live then onLanes p (x.replay.drop (x.replay.length - x.unsent)) (portMod p (fun x => { x with unsent := 0 }) s) else s

/-- Flits still to come of packets that are being forwarded to port `p` on a VC: their credits are reserved (R273). -/
def owedOn (s : State) (p vc : Nat) : Nat :=
  s.zl.ports.foldl (fun a kv => kv.2.thru.foldl (fun a t => if t.2.1 = p && t.2.2.1 = vc then a + t.2.2.2 else a) a) 0

/-- Credits left on a VC of a port (T10.4: 384 flits). -/
def creditsOf (s : State) (p vc : Nat) : Nat := 384 - mapGet 0 (portGet s p).used vc - owedOn s p vc

/-- Enter RECOVERY (R269); the automatic routes follow (R278). -/
def enterRecovery (p : Nat) (s : State) : State :=
  let x := portGet s p
  if x.live then
    autoRoutes <| zlBump (zcPort p 7) 1 (portMod p (fun x => { x with narrow := decide (x.st = .upX4), st := .recovery, since := s.clk.ltc }) s)
  else s

/-- The second of the local time counter. -/
def secondNow (s : State) : Nat := s.clk.ltc / 100000000

/-- A NAK asks for every flit from `fseq` on (R268); the sixteenth for one flit puts the port into RECOVERY (R269). -/
def goBack (p fseq : Nat) (s : State) : State :=
  let x := portGet s p
  if !x.live then s else
    let again := (x.replay.take (x.replay.length - x.unsent)).dropWhile (fun f => f.1 ≠ fseq)
    let run := if x.nakSeq = fseq && 0 < x.nakRun then x.nakRun + 1 else 1
    let s := portMod p (fun x =>
      { x with nakSeq := fseq, nakRun := run, nakAt := secondNow s
               nakSecond := if x.nakAt = secondNow s then x.nakSecond + 1 else 1 }) s
    let s := zlBump (zcPort p 6) again.length (onLanes p again s)
    if 16 ≤ run then enterRecovery p s else s

/-- An ACK covers every flit that was sent up to `fseq` (R268). -/
def ackFlits (p fseq : Nat) (s : State) : State :=
  portMod p (fun x =>
    if (x.replay.take (x.replay.length - x.unsent)).any (fun f => f.1 = fseq) then
      { x with ackAt := s.clk.ltc, replay := (x.replay.dropWhile (fun f => f.1 ≠ fseq)).drop 1, nakRun := 0 }
    else x) s

/-! ### Messages of groups (T11.2, T11.4) -/

/-- A message that this device builds has no arrival. -/
def noHdr : MsgHdr := ⟨0, 0, 0, 0, 0⟩

/-- COLL_STEP header (T11.4). -/
def collHead (kind : Nat) (m : CollMsg) : Bytes :=
  natLe 64 (fieldAt m.group 32 480 + fieldAt m.view 32 448 + fieldAt m.run 16 432 + fieldAt kind 4 428
    + fieldAt m.member 12 416 + fieldAt m.unit 32 384 + fieldAt m.records.length 5 379 + (if m.dropped then 2 ^ 378 else 0)
    + (if m.poisoned then 2 ^ 377 else 0) + fieldAt m.gen 2 375 + fieldAt m.ackCode 2 373 + fieldAt m.digest.toNat 64 309
    + fieldAt m.count 16 293 + fieldAt m.mask 16 277 + fieldAt m.reasons 32 245)

/-- KIND of a COLL_STEP message that was sent. -/
def collKind (m : OutMsg) : Nat := fieldBytes m.head 53 1 / 16

/-- MEMBER header (T11.2). -/
def memHead (kind : Nat) (m : MemMsg) : Bytes :=
  natLe 64 (fieldAt m.group 32 480 + fieldAt m.view 32 448 + fieldAt kind 4 444 + fieldAt m.member 12 432
    + fieldAt m.device 12 420 + fieldAt m.newState 2 418 + fieldAt m.step 32 386 + fieldAt m.digest.toNat 64 322
    + (if m.mismatch then 2 ^ 321 else 0))

def groupGet (s : State) (g : Nat) : Option Group := mapFind s.groups g

def groupSet (g : Nat) (x : Group) (s : State) : State := { s with groups := mapInsert s.groups g x }

/-- Change a group this device holds. -/
def groupMod (g : Nat) (f : Group → Group) (s : State) : State :=
  match groupGet s g with
  | some x => groupSet g (f x) s
  | none => s

/-- Device of a member. -/
def Group.dev (x : Group) (i : Nat) : Nat := (x.members.getD i (0, 2)).1

/-- State of a member: 0 LIVE, 1 JOINING, 2 EXCLUDED. -/
def Group.stateOf (x : Group) (i : Nat) : Nat := (x.members.getD i (0, 2)).2

/-- LIVE members, ascending. -/
def Group.liveList (x : Group) : List Nat := (List.range x.members.length).filter (fun i => x.stateOf i = 0)

/-- The table of a generation that this member sends with: the one being loaded takes its place with each member that has it
(R327, R328). -/
def Group.tableOf (x : Group) (gen : Nat) : Bytes :=
  match x.load with
  | some l => if l.gen = gen then l.table else mapGet [] x.tables gen
  | none => mapGet [] x.tables gen

/-- Member index of a device. -/
def Group.indexOf (x : Group) (d : Nat) : Option Nat := (List.range x.members.length).find? (fun i => x.dev i = d && x.stateOf i ≠ 2)

/-- Send a COLL_STEP message to a member. -/
def sendColl (x : Group) (i cmd kind : Nat) (m : CollMsg) (s : State) : State :=
  sendMsg (x.dev i) { stream := 1, mtype := 0x10, ctx := x.ctx, cmd := cmd, group := m.group, run := m.run,
                      head := collHead kind m, body := m.records.flatten } s

/-- A COLL_STEP message of this member without records. -/
def collMsg (g : Nat) (x : Group) (run : Nat) : CollMsg :=
  { hdr := noHdr, group := g, view := x.view, run := run % 65536, member := x.own, unit := 0, dropped := false,
    poisoned := false, gen := 0, ackCode := 0, count := 0, mask := 0, reasons := 0, digest := 0#64, records := [] }

/-- Send TABLE_LOAD of a generation to a member (R328 step 3): the table as 16 data bytes. -/
def sendTable (g : Nat) (x : Group) (i gen : Nat) (table : Bytes) (s : State) : State :=
  sendColl x i 0 5 { collMsg g x x.nextRun with gen := gen, records := [table] } s

/-- Add to a group's counter (T11.7; 48 bits, saturating). -/
def collUp (g i n : Nat) (s : State) : State := groupMod g (fun x => { x with counters := mapMod 0 x.counters i (satAdd 48 · n) }) s

/-! ### Block records in messages (R288, R316, R330, T11.4) -/

/-- Records in messages of at most 16 records and 65,536 bytes. -/
def packRecs (l : List Rec) : List (List Rec) :=
  (l.foldl (fun (a : List (List Rec)) r =>
    match a with
    | [] => [[r]]
    | p :: q => if p.length < 16 && (p.foldl (fun n t => n + t.bytes.length) 0) + r.bytes.length ≤ 65536 then (p ++ [r]) :: q else [r] :: a)
    []).reverse

/-- A stored record (T11.5). -/
def plainRec (b : Nat × Bytes × Bytes) : Rec :=
  { units := b.2.1.length / 32, coded := false, gen := 0, base := 0, ver := 0, index := b.1, ext := b.2.2, payload := b.2.1 }

/-- Records that a COLL_STEP message carries (T11.4). -/
def OutMsg.records (m : OutMsg) : Nat := bitsOf (fieldBytes m.head 0 64) 383 379

/-- A message with its coded records stored instead, in as many messages as they take (R330). -/
def OutMsg.stored (m : OutMsg) : List OutMsg :=
  if m.gens.isEmpty then [m] else
    (packRecs (m.plain.map plainRec)).map (fun p =>
      let h := fieldBytes m.head 0 64
      { m with head := natLe 64 (h - fieldAt m.records 5 379 + fieldAt p.length 5 379)
               body := p.flatMap Rec.bytes, gens := [], plain := [] })

/-- Count the blocks of a message that is sent again by their mode (R331). -/
def countResent (m : OutMsg) (s : State) : State :=
  if m.mtype = 0x10 && 1 ≤ collKind m && collKind m ≤ 3 then
    collUp m.group 2 m.gens.length (collUp m.group 3 (m.records - m.gens.length) s)
  else s

/-! ### Runs that end early (R311, R313, R315) -/

/-- KIND, FMT and the other fields of a collective descriptor (T11.3). -/
def cdF (d : Bytes) (hi lo : Nat) : Nat := bitsOf (leNat (byteSlice d 0 64)) hi lo

def CollRun.kind (r : CollRun) : Nat := cdF r.desc 479 476

/-- Bytes whose contents the spec calls undefined: free values (log 1). -/
def undefBytes (c va n : Nat) (s : State) : State :=
  let bs : Bytes := (List.range n).map (fun i => BitVec.ofNat 8 (Config.freeValue (s.free + i) % 256))
  (writeVa c va bs 0 false { s with free := s.free + n }).2

/-- End a run without its result: DST and ACC are undefined (R315, R386). -/
def endRunLost (g status : Nat) (s : State) : State :=
  match groupGet s g with
  | none => s
  | some x =>
    match x.run with
    | none => s
    | some r =>
      let n := cdF r.desc 256 217
      let s := groupSet g { x with run := none } s
      let s := if r.kind = 4 then s else undefBytes x.ctx (cdF r.desc 400 353) (if r.kind = 2 then n * r.live.length else n) s
      let s := if (r.kind = 0 || r.kind = 1) && cdF r.desc 472 470 = 0 then undefBytes x.ctx (cdF r.desc 352 305) (2 * n) s else s
      finishJ r.cmd status [] s

/-! ### Sessions (R283, R286, R330) -/

/-- A message completes with PEER_LOST. -/
def msgLost (d : Nat) (m : OutMsg) (s : State) : State :=
  if m.dead then s
  else if m.mtype = 0x10 then
    match groupGet s m.group with
    | none => s
    | some x =>
      let k := collKind m
      if k = 5 || k = 6 || k = 7 then s
      else match x.run with
        | some r =>
          if r.run % 65536 ≠ m.run then s
          else if r.kind = 4 then
            if (x.indexOf d).any (fun i => x.stateOf i = 0) then
              m.stored.foldl (fun s o => sendMsg d { o with mseq := 0, resends := 0 } (countResent o s)) s
            else s
          else endRunLost m.group stPeerLost s
        | none => s
  else if m.mtype = 0x02 then
    let t := m.run % 32
    let p := m.run / 32 % 2 ^ 25
    let o := m.run / 2 ^ 30
    match s.deep.refetch.find? (fun r => r.object = o && r.page = p && r.tile = t) with
    | some r => pump (if r.source = 1 then askSource o p t 2 s else tileLost o p t s)
    | none => s
  else if m.mtype = 0x34 then finishJ m.cmd stPeerLost [] s
  else s

/-- The code tables of streams to and from a device go with its session (R330); a load in progress starts again
at that member. -/
def tablesLost (d : Nat) (s : State) : State :=
  s.groups.foldl (fun s kv =>
    let g := kv.1
    match groupGet s g with
    | none => s
    | some x => ((List.range x.members.length).filter (fun i => x.dev i = d)).foldl (fun s i =>
        let s := groupMod g (fun y => { y with
          atPeer := mapErase y.atPeer i, slots := mapFilter (fun k _ => k / 4 ≠ i) y.slots
          load := y.load.map (fun l => { l with left := l.left.map (fun q => if q.1 = i then (i, 2) else q) }) }) s
        match x.load with
        | some l => if l.left.any (fun q => q.1 = i) then sendTable g x i l.gen l.table s else s
        | none => s) s) s

/-- A HELLO after a change of the device id or of the pair binding: at a port that carries flits, that trains and has sent its
first, or that is isolated and carries only CONTROL flits (R291, R294). -/
def helloAgain (p : Nat) (s : State) : State :=
  let x := portGet s p
  if x.takes || x.st = .isolated || (x.st = .training && x.pending.isSome) then sendHello p s else s

/-- Every port of the mirror set sends a HELLO (R291). -/
def mirrorHello (s : State) : State := (List.range 32).foldl (fun s p => if mirrorPort s p then helloAgain p s else s) s

/-- A bound device loses its partner (R380): commands that wait for the mirror are held under standalone rules. -/
def partnerLost (s : State) : State :=
  if s.jr.pair ≠ .bound then s else
    let s := raise srcPairLost 0 s.jr.partner s
    let s := { s with jr := { s.jr with pair := .lost, unmirrored := s.jr.waiting.length } }
    mirrorHello (holdWhere (fun _ => true) s)

/-- End the session with a peer: its messages in flight complete with PEER_LOST. Where none was open, the
messages that waited for it complete too. -/
def endSession (d : Nat) (s : State) : State :=
  let x := peerGet s d
  let gone := if x.isOpen then x.out else x.out ++ x.backlog
  let s := peerSet d { x with isOpen := false, boot := 0, tx := [], rx := [], out := [], heldPkts := [], progress := []
                              backlog := if x.isOpen then x.backlog.flatMap OutMsg.stored else [] } s
  let s := { s with zl := { s.zl with waiting := s.zl.waiting.filter (fun w => w.from_.isSome || w.pkt.dst ≠ d)
                                      later := s.zl.later.filter (fun e => e.1.src ≠ d) } }
  -- A copy on its way to a partner is sent anew.
  let s := if d = s.jr.partner then { s with jr := { s.jr with copySent := false } } else s
  gone.foldl (fun s m => msgLost d m s) (tablesLost d s)

/-- A peer restarted (R283): the session ends and a new one is opened for what waits. -/
def peerRestart (d : Nat) (s : State) : State :=
  let s := raise srcZlRestart 0 d (endSession d s)
  let s := if d = s.jr.partner then partnerLost s else s
  if (peerGet s d).backlog.isEmpty then s else openSession d s

/-- A session to `d` is open with the peer's boot id: what waits is sent, and the current code tables are
installed again (R283, R330). -/
def sessionUp (d boot : Nat) (s : State) : State :=
  let x := peerGet s d
  let x := { x with isOpen := true, boot := boot, tx := [], rx := [], out := x.out.filter (fun m => m.mtype ≠ 0x30), heldPkts := [] }
  let s := launchMsgs d x.backlog x s
  s.groups.foldl (fun s kv =>
    match groupGet s kv.1 with
    | none => s
    | some y =>
      match y.current, y.indexOf d with
      | some gen, some i =>
        if (mapGet [] y.atPeer i).contains gen || i = y.own || y.stateOf i ≠ 0 || y.stateOf y.own ≠ 0 then s
        else sendTable kv.1 y i gen (mapGet [] y.tables gen) s
      | _, _ => s) s

/-! ### A port leaves UP (R269, R275, R278, R298) -/

/-- Complete the packets that were being forwarded from a port with ABORT flits (R275). -/
def abortThru (p : Nat) (s : State) : State :=
  (portGet s p).thru.foldl (fun s kv =>
    (List.range kv.2.2.2).foldl (fun s _ => if (portGet s kv.2.1).takes then sendFlit kv.2.1 2 kv.2.2.1 false [] s else s) s) s

/-- What follows of packets that were being forwarded to port `q` has nowhere to go. -/
def swallowThru (q : Nat) (s : State) : State :=
  { s with zl := { s.zl with ports := s.zl.ports.map (fun kv =>
    (kv.1, { kv.2 with thru := kv.2.thru.map (fun t => if t.2.1 = q then (t.1, 32, t.2.2) else t) })) } }

/-- Take a port out of service into a state: its replay buffer and every packet partly received go. -/
def portLeave (p : Nat) (st : PortState) (s : State) : State :=
  let s := swallowThru p (abortThru p s)
  let s := portMod p (fun x => { x with
    st := st, upper := false, narrow := false, pending := none, txSeq := 0, rxSeq := 0, replay := [], unsent := 0, sent := []
    sinceIdle := 0, nakSent := false, nakRun := 0, reply := (0, 0), used := [], freed := [], stuck := [], part := [], thru := []
    helloDue := false }) s
  { s with zl := { s.zl with waiting := s.zl.waiting.filter (fun w => !((w.from_.map (·.1)) = some p && w.flits.length < w.pkt.flits)) } }

/-- ZL_MIRROR_LOST once every mirror port of a bound pair is down (R298), and with it the partner (R380). -/
def mirrorCheck (s : State) : State :=
  let any := (List.range 32).any (fun p => mirrorPort s p && ((portGet s p).live || (portGet s p).st = .recovery))
  if any then { s with zl := { s.zl with mirrorLost := false } }
  else if s.jr.pair = .bound && !s.zl.mirrorLost then
    partnerLost (raise srcZlMirror 0 s.jr.partner { s with zl := { s.zl with mirrorLost := true } })
  else s

/-- A port goes DOWN with a cause: 0 loss of signal, 1 recovery failed, 2 PEER_SAFE (T10.12). -/
def portDown (p cause : Nat) (s : State) : State :=
  let was := portGet s p
  let s := zlBump (zcPort p 8) 1 (portLeave p .down s)
  let s := if was.live || was.st = .recovery then raise (srcZlDown + p) 0 cause s else s
  mirrorCheck (autoRoutes s)

/-- Every Zilet port is DISABLED: all sessions end (R357). -/
def sessionsIfNone (s : State) : State :=
  if (List.range 32).all (fun p => (portGet s p).st = .disabled) then
    (s.zl.peers.filter (fun kv => kv.2.isOpen)).foldl (fun s kv => endSession kv.1 s) s
  else s

/-! ### Receipt of messages (R283, R285, R288, R290) -/

/-- Send a packet that belongs to no stream: ACK or STALE on VC 1, charged to CONTROL (T10.6). -/
def sendNotice (d mtype stream mseq boot : Nat) (refused : Bool) (s : State) : State :=
  queuePacket { dst := d, src := s.dev.zlId.getD 0, vc := 1, stream := stream, mtype := mtype, cls := 61,
                srcBoot := s.dev.bootId.toNat, dstBoot := boot, ackinfo := mseq, last := true,
                data := byteSlice (Config.messageHeader mtype [stream, mseq, if refused then 1 else 0]) 0 64 } 0 s

/-- A packet has arrived on a port that carries packets, at a device with an id (R265, R276). -/
def arrived (h : MsgHdr) (s : State) : Bool := (portGet s h.port).live && s.dev.zlId.isSome && h.port < 32 && h.src < 4096

/-- A packet that names another boot id than this device's is discarded, counted and answered with STALE (R283). -/
def staleIn (h : MsgHdr) (s : State) : State :=
  sendNotice h.src 0x33 0 h.mseq h.srcBoot false (zlBump (zcPeer h.src 2) 1 s)

/-- A held message is the one of a number in a stream from a peer. -/
def heldIs (d stream n : Nat) (e : MsgHdr × Nat × Instr) : Bool := e.1.src = d && e.2.1 = stream && e.1.mseq = n

/-- Hold no longer the message of a number in a stream from a peer. -/
def unholdMsg (d stream n : Nat) (s : State) : State :=
  { s with zl := { s.zl with later := s.zl.later.filter (fun e => !heldIs d stream n e) } }

/-- A message stays with its row until it can be delivered (R285). -/
def keepMsg (row : Instr) (h : MsgHdr) (stream : Nat) (s : State) : State :=
  let s := unholdMsg h.src stream h.mseq s
  { s with zl := { s.zl with later := s.zl.later ++ [(h, stream, row)] } }

/-- A message above the next due is held; one held already is discarded and counted (R285). -/
def holdMsg (row : Instr) (h : MsgHdr) (stream : Nat) (s : State) : State :=
  if s.zl.later.any (heldIs h.src stream h.mseq) then zlBump (zcPeer h.src 1) 1 s else keepMsg row h stream s

/-- A message has been delivered: the next number is due, it is counted and acknowledged (R285). -/
def ackNow (d stream n boot : Nat) (refused : Bool) (s : State) : State :=
  let s := unholdMsg d stream n s
  let y := peerGet s d
  let s := peerSet d { y with rx := mapSet 0 y.rx stream (n + 1)
                              heldPkts := y.heldPkts.filter (fun k => !(k.1 = stream && k.2.1 = n)) } s
  let s := zlBump (zcPeer d (5 + 3 * stream)) 1 s
  let s := if refused then zlBump (zcPeer d 3) 1 s else s
  sendNotice d 0x32 stream n boot refused s

/-- The receipt of a message (R285), which `row` brings: while PD_FAB stalls the core takes none, and it stays in the link die
(R32, R40). It is delivered in MSEQ order within an open session, and then acknowledged; `act` is its effect, and says whether it
is refused, or that the message must wait for a page. A message already delivered is discarded, counted and acknowledged again;
one that comes before its turn is held until then. -/
def receive (row : Instr) (h : MsgHdr) (stream : Nat) (act : State → State × Option Bool) (s : State) : State :=
  if !arrived h s then s
  else if h.dstBoot ≠ s.dev.bootId.toNat then staleIn h s
  else if stalled s s.sup.fabMv then keepMsg row h stream s
  else
    let x := peerGet s h.src
    if x.isOpen && x.boot ≠ h.srcBoot then peerRestart h.src s
    else if !x.isOpen then s
    else
      let n := mapGet 0 x.rx stream
      if h.mseq < n then sendNotice h.src 0x32 stream (n - 1) x.boot false (zlBump (zcPeer h.src 1) 1 s)
      else if n < h.mseq then holdMsg row h stream s
      else
        let r := act s
        match r.2 with
        | none => keepMsg row h stream r.1
        | some refused => ackNow h.src stream n x.boot refused r.1

/-- A message of the pair: from the bound partner and on a mirror port only; otherwise discarded, counted and
reported (R290). -/
def receivePair (row : Instr) (h : MsgHdr) (stream : Nat) (act : State → State × Option Bool) (s : State) : State :=
  if !arrived h s then s
  else if (s.jr.pair = .bound || s.jr.pair = .binding) && h.src = s.jr.partner && mirrorPort s h.port then
    receive row h stream act s
  else raise (srcZlRefused + h.port) 0 h.src (zlBump (zcPeer h.src 3) 1 s)

end Sys2Proof.Machine
end

