-- ==== Sys2Proof/Machine/Move.lean ====
section
/-!
DEFINITION. The MOVE unit: LOAD, GATHER, STORE and SCATTER (spec/04_tile_programs.md R81 to R84), with
the conversions of spec/05_numerics.md, widened rows (R128, R130) and landings into G (R234).
-/

namespace Sys2Proof.Machine

/-- Bytes of a row of `n` elements in memory, scales included, without the padding (R115). -/
def rowBytes (f n : Nat) : Nat := n * fmtBytes f + if fmtBlock f then (n + 31) / 32 else 0

/-- Bytes a row of `n` elements occupies in memory, padding included (R115). -/
def rowStored (f n : Nat) : Nat := if fmtBlock f then (rowBytes f n + 31) / 32 * 32 else rowBytes f n

/-- The elements of a row held as bytes, scales after them (R115), decoded; the tally notes flushes and scales. -/
def decRow (f n base : Nat) (bs : Bytes) (t : Tally) : List Val × Tally :=
  let es := fmtBytes f
  let sc := if fmtBlock f then (List.range ((n + 31) / 32)).foldl (fun (acc : List Int × Tally) b =>
      let r := acc.2.scale (base + 32 * b) (bs.getD (n * es + b) 0)
      (acc.1 ++ [r.1], r.2)) ([], t) else ([], t)
  let r := (List.range n).foldl (fun (acc : List Val × Tally) i =>
    let d := decElem f (fieldBytes bs (i * es) es) (sc.1.getD (i / 32) 0)
    (d.1 :: acc.1, acc.2.fl d.2)) ([], sc.2)
  (r.1.reverse, r.2)

/-- A row of the rod store: elements at `a`, scales at `sa`. -/
def rsRow (s : State) (n f a sa cnt : Nat) : Bytes :=
  rsRead s n a (cnt * fmtBytes f) ++ if fmtBlock f then rsRead s n sa ((cnt + 31) / 32) else []

/-- What a MOVE descriptor has done so far. -/
structure MoveAcc where
  tally : Tally := {}
  draws : Nat := 0
  halt : Option Nat := none
  /-- A row met a page that is not resident: the descriptor waits, and runs as a whole later. -/
  wait : Bool := false
  s : State
deriving DecidableEq, Repr

/-- The format in which LOAD or GATHER reads a row: FP16 and FP16-B rows whose first burst carries tile-version 1 read FP32
(R130). -/
def rowFmt (s : State) (c va f : Nat) : Nat :=
  if (f = 0 || f = 2) && (match (readRaw c va 1 s).1.md with | m :: _ => mdVer m | [] => false) then 1 else f

/-- No further row is done. -/
def MoveAcc.stopped (m : MoveAcc) : Bool := m.halt.isSome || m.wait

/-- The first page that is not resident of a row that LOAD or GATHER reads. -/
def rowAbsent (s : State) (c va f n : Nat) : Option (Nat × Nat) :=
  firstAbsent s c va (rowBytes (rowFmt s c va f) n) false

/-- The reason with which a rod halts on an access that failed, and the refusing port's message (R25, R82, R140, R153). -/
def accHalt (rod : Nat) (a : Acc) (s : State) : Nat × State :=
  match a with
  | .poison => (hUnavailable, s)
  | .refused b => (b.reason, raiseBar b rod s)
  | _ => (hTranslation, s)

/-- Read one memory row for LOAD or GATHER: its format with the values, or the halt reason. -/
def loadRow (rod c va f n base : Nat) (t : Tally) (s : State) : (Nat ⊕ (Nat × List Val × Tally)) × State :=
  let f := rowFmt s c va f
  let r := readVa c va (rowBytes f n) s
  match r.1.acc with
  | .ok => let d := decRow f n base r.1.bytes t; (.inr (f, d.1, d.2), r.2)
  | a => let h := accHalt rod a r.2; (.inl h.1, h.2)

/-- Convert values and write them as a rod-store row. -/
def putRsRow (n : Nat) (key : BitVec 64) (d0 src f a sa base : Nat) (vs : List Val) (m : MoveAcc) : MoveAcc :=
  let dr := narrowing src f
  let y := convRun f dr key (d0 + m.draws) base vs m.tally
  let s := rsWrite n a (y.1.flatMap (natLe (fmtBytes f))) m.s
  { tally := y.2.2, draws := m.draws + (if dr then vs.length else 0)
    s := if fmtBlock f then rsWrite n sa y.2.1 s else s }

/-- After a write of context memory: on, or the halt. -/
def afterWrite (rod : Nat) (t : Tally) (draws : Nat) (w : Acc × State) : MoveAcc :=
  if w.1 = .ok then { tally := t, draws := draws, s := w.2 }
  else let h := accHalt rod w.1 w.2; { tally := t, draws := draws, halt := some h.1, s := h.2 }

/-- Write values as a memory row of format `f`: elements, scales, zero padding (R115). A page that is not resident makes the
descriptor wait (R153); a widened row cannot go to a rod-store window (R164). -/
def putMemRow (rod c va : Nat) (key : BitVec 64) (d0 src f base : Nat) (ver : Bool) (vs : List Val) (m : MoveAcc) : MoveAcc :=
  if (firstAbsent m.s c va (rowStored f vs.length) true).isSome then { m with wait := true }
  else if ver && inRsWindow m.s c va then { m with halt := some hBracket }
  else
    let dr := narrowing src f
    let y := convRun f dr key (d0 + m.draws) base vs m.tally
    let bs := y.1.flatMap (natLe (fmtBytes f)) ++ y.2.1
    afterWrite rod y.2.2 (m.draws + (if dr then vs.length else 0))
      (writeVa c va (bs ++ List.replicate (rowStored f vs.length - bs.length) 0#8) 0 ver m.s)

/-- A MOVE descriptor ends in state `s`: it waits for a page, with nothing done; it halts, and what its rows have raised so far
is dropped with it (log 81); or its effect is settled. -/
def endMove (rod : Nat) (f : Flight) (marks : Bool) (s : State) (m : MoveAcc) : State :=
  match m.halt with
  | some h => haltRod rod h f.va f.word m.s
  | none => if m.wait then startFlight rod 0 f s else settle rod 0 f m.tally marks m.draws m.s

/-- One row of LOAD or GATHER: read as `mf` at `va`, convert to `rf` and write at `a`, scales at `sa`. A page that is not
resident makes the descriptor wait (R153). -/
def moveIn (rod : Nat) (r : Run) (va mf rf a sa n base : Nat) (m : MoveAcc) : MoveAcc :=
  if (rowAbsent m.s r.l.ctx va mf n).isSome then { m with wait := true }
  else
    let y := loadRow rod r.l.ctx va mf n base m.tally m.s
    match y.1 with
    | .inl h => { m with halt := some h, s := y.2 }
    | .inr (f', vs, t) => putRsRow rod (rodKey y.2 rod r.l) r.draws f' rf a sa base vs { m with tally := t, s := y.2 }

/-- Row `i` of a LOAD (R81). -/
def loadTileRow (rod : Nat) (r : Run) (w : BitVec 256) (m : MoveAcc) (i : Nat) : MoveAcc :=
  let n := fld w 129 114
  if m.stopped then m
  else moveIn rod r (fld w 255 208 + i * fld w 207 184) (fld w 113 111) (fld w 110 108)
    (fld w 183 162 + i * 32 * fld w 161 146) (fld w 107 86 + i * (n / 32)) n (i * n) m

/-- LOAD (R81, R82, R130). -/
def execLoadTile (rod : Fin 64) (e : Option Upset) (s : State) : Host.Outcome State Fault Refusal :=
  .next (onUnit s rod 0 0x01 e (fun r f s =>
    let w := f.word
    let rows := fld w 145 130
    if replayBad r ([fld w 183 162] ++ (if fmtBlock (fld w 110 108) then [fld w 107 86] else [])) then haltRod rod hBracket f.va w s
    else endMove rod f false s ((List.range rows).foldl (loadTileRow rod r w) { s := s })))

/-- Count of a GATHER or SCATTER (R83). -/
def idxCount (s : State) (rod : Nat) (w : BitVec 256) : Nat :=
  let cnt := fld w 133 114
  if fld w 32 32 = 1 then min cnt (sgn 32 (rsWord s rod (fld w 155 134 - 4))).toNat else cnt

/-- Index `e` of the index array. -/
def idxAt (s : State) (rod : Nat) (w : BitVec 256) (e : Nat) : Int :=
  if fld w 57 57 = 1 then sgn 16 (leNat (rsRead s rod (fld w 155 134 + 2 * e) 2))
  else sgn 32 (rsWord s rod (fld w 155 134 + 4 * e))

/-- The rod-store addresses of element `e` lie in the store: its index, its row and its scales (R83). -/
def idxRangeOk (w : BitVec 256) (f e : Nat) : Bool :=
  let n := fld w 113 102
  inRs (fld w 155 134 + (if fld w 57 57 = 1 then 2 else 4) * e) (if fld w 57 57 = 1 then 2 else 4)
    && inRs (fld w 101 80 + e * 32 * fld w 79 64) (n * fmtBytes f)
    && (!fmtBlock f || inRs (fld w 54 33 + e * (n / 32)) (n / 32))

/-- Memory address of the row an index names. -/
def idxRow (w : BitVec 256) (x : Int) : Nat := fld w 255 208 + x.toNat * 32 * fld w 207 188

/-- An index that names a row: neither padding nor at or above ROW_LIMIT. -/
def idxLive (w : BitVec 256) (x : Int) : Bool := 0 ≤ x && x.toNat < fld w 187 156

/-- Index `e` of a GATHER (R83): padding is passed by, an index at or above ROW_LIMIT counted. -/
def gatherRow (rod : Nat) (r : Run) (w : BitVec 256) (m : MoveAcc) (e : Nat) : MoveAcc :=
  let n := fld w 113 102
  let rf := fld w 60 58
  if m.stopped then m
  else if !idxRangeOk w rf e then { m with halt := some hRange }
  else
    let x := idxAt m.s rod w e
    if x < 0 then m
    else if !idxLive w x then { m with tally := { m.tally with indexRange := m.tally.indexRange + 1 } }
    else moveIn rod r (idxRow w x) (fld w 63 61) rf (fld w 101 80 + e * 32 * fld w 79 64)
      (fld w 54 33 + e * (n / 32)) n (e * n) m

/-- GATHER (R82, R83): the rows in order, each address checked as it is formed. -/
def execGather (rod : Fin 64) (e : Option Upset) (s : State) : Host.Outcome State Fault Refusal :=
  .next (onUnit s rod 0 0x03 e (fun r f s =>
    let w := f.word
    let cnt := idxCount s rod w
    if replayBad r ([fld w 101 80, fld w 155 134] ++ (if fmtBlock (fld w 60 58) then [fld w 54 33] else [])) then
      haltRod rod hBracket f.va w s
    else endMove rod f false s ((List.range cnt).foldl (gatherRow rod r w) { s := s })))

/-! ### STORE and landings (R81, R234) -/

/-- Slices in which a partition owns segments, ascending (R234, R309). -/
def engineSlices (s : State) (part : Nat) : List Nat :=
  (List.range 4).filter (fun k => (List.range 80).any (fun i => segPart s (80 * k + i) = part))

/-- The engine at position `b` modulo their number; slice 0 where the partition owns no segment (log 22). -/
def engineOf (s : State) (part b : Nat) : Nat :=
  let l := engineSlices s part
  l.getD (b % l.length) 0

/-- A STORE whose target lies in G meets R234: every row lies in the row of a block of the shard. -/
def landingOk (s : State) (c : Nat) (w : BitVec 256) : Bool :=
  match gOf s c with
  | none => false
  | some g =>
    match objBase s c g with
    | none => false
    | some b =>
      let off := (fld w 255 208 - b) % 4224
      let last := (fld w 255 208 - b + (fld w 145 130 - 1) * fld w 207 184) / 4224
      (ctxGet s c).stepOpen && fld w 113 111 = 2 && b ≤ fld w 255 208 && off % 64 = 0 && off < 4096
        && fld w 129 114 % 32 = 0 && off / 2 + fld w 129 114 ≤ 2048 && fld w 207 184 % 4224 = 0
        && last < jobBlocks (ctxGet s c).train.job

/-- Queue the landing of row `i` of a STORE into G. -/
def queueLanding (rod : Nat) (r : Run) (f : Flight) (b0 : Nat) (acc : Tally × State) (i : Nat) : Tally × State :=
  let w := f.word
  let c := r.l.ctx
  let n := fld w 129 114
  let rf := r.readFmt (fld w 183 162) (fld w 110 108)
  let d := decRow rf n (i * n) (rsRow acc.2 rod rf (fld w 183 162 + i * 32 * fld w 161 146) (fld w 107 86 + i * (n / 32)) n) acc.1
  let off := fld w 255 208 + i * fld w 207 184 - b0
  let block := jobFirst (ctxGet acc.2 c).train.job + off / 4224
  let e : Landing := { ctx := c, block := block, first := off % 4224 / 2, vals := d.1.map (fun v => (trunc32 v).bits),
                       rod := rod, desc := f.n, lastOf := i + 1 = fld w 145 130 }
  let k := engineOf acc.2 (ctxPart acc.2 c) block
  (d.2, { acc.2 with landings := mapMod [] acc.2.landings k (· ++ [e]) })

/-- The command of a program has landed something. -/
def markLanded (cmd : Nat) (s : State) : State :=
  match mapFind s.launches cmd with
  | some l => { s with launches := mapInsert s.launches cmd { l with landed := true } }
  | none => s

/-- Queue the landings of a STORE, one for each row; the rod sends the decoded values and takes no draw. -/
def queueLandings (rod : Nat) (r : Run) (f : Flight) (s : State) : State :=
  let rows := fld f.word 145 130
  let b0 := ((gOf s r.l.ctx).bind (objBase s r.l.ctx)).getD 0
  let y := (List.range rows).foldl (queueLanding rod r f b0) ({}, s)
  runMod rod (fun q => { q with move := q.move.map (fun g => if g.n = f.n then { g with wait := rows } else g) })
    (markLanded r.l.cmd (settle rod 0 f y.1 false 0 y.2))

/-- Row `i` of a STORE to memory (R81, R128). -/
def storeTileRow (rod : Nat) (r : Run) (w : BitVec 256) (m : MoveAcc) (i : Nat) : MoveAcc :=
  let rs := fld w 183 162
  let n := fld w 129 114
  let rf := r.readFmt rs (fld w 110 108)
  let was := fld w 113 111
  let mf := r.writeFmt was
  if m.stopped then m else
    let d := decRow rf n (i * n) (rsRow m.s rod rf (rs + i * 32 * fld w 161 146) (fld w 107 86 + i * (n / 32)) n) m.tally
    putMemRow rod r.l.ctx (fld w 255 208 + i * fld w 207 184) (rodKey m.s rod r.l) r.draws rf mf (i * n) (mf ≠ was) d.1
      { m with tally := d.2 }

/-- STORE (R81, R82, R128, R234). -/
def execStoreTile (rod : Fin 64) (e : Option Upset) (s : State) : Host.Outcome State Fault Refusal :=
  .next (onUnit s rod 0 0x04 e (fun r f s =>
    let w := f.word
    let c := r.l.ctx
    let rows := fld w 145 130
    let row (i : Nat) : Nat := fld w 255 208 + i * fld w 207 184
    let mf := r.writeFmt (fld w 113 111)
    let len := rowStored mf (fld w 129 114)
    if (List.range rows).any (fun i => touchesG s c (row i) len) then
      if (match r.bracket with | some b => b.replay | none => false) then haltRod rod hBracket f.va w s
      else if !landingOk s c w then haltRod rod hIllegal f.va w s
      else if (List.range rows).any (fun i => (firstAbsent s c (row i) len true).isSome) then startFlight rod 0 f s
      else queueLandings rod r f s
    else endMove rod f (mf = 0 || mf = 2) s ((List.range rows).foldl (storeTileRow rod r w) { s := s })))

/-! ### SCATTER (R83, R84) -/

/-- One element of SCATTER with ADD, MIN or MAX at the memory side: stored bits, incoming value; the new bits
with what the conversion raised, the exact value that was converted, and whether an FP32 sum saturated. `r` is the draw of an
FP16 result. A stored subnormal that is flushed here counts in no IN_FLUSH: T5.5 keeps that counter per rod and update engine
(DESIGN CHOICE, log 81). -/
def atomicElem (sop f r : Nat) (old : Nat) (v : Val) : Conv × Val × Bool :=
  if f = 5 then
    let c := encInt 32 v
    let i := sgn 32 c.bits
    let o := sgn 32 old
    let x := if sop = 1 then o + i else if sop = 2 then min o i else max o i
    ({ c with bits := unsgn 32 x }, v, false)
  else
    let o := (trunc32 (decElem f old 0).1).bits
    let i := (trunc32 v).bits
    if sop = 1 then
      let y := add32 o i
      if f = 1 then (⟨y.bits.toNat, false, y.udf, false⟩, vadd (dec32 o) (dec32 i), y.ovf)
      else (enc16 r (dec32 y.bits), dec32 y.bits, false)
    else
      let y := maxMin32 (sop = 3) o i
      if f = 1 then (⟨y.toNat, false, false, false⟩, dec32 y, false) else (enc16 r (dec32 y), dec32 y, false)

/-- Element `p.1` of a row of SCATTER with ADD, MIN or MAX: read, combine, write (R84). A record's FIRST_VALUE is the exact
value that saturated (T5.10). -/
def atomicOne (rod c va sop f src base d0 : Nat) (key : BitVec 64) (m : MoveAcc) (p : Nat × Val) : MoveAcc :=
  let dr := f = 0 && (sop = 1 || src ≠ 0)
  let es := fmtBytes f
  let i := p.1
  if m.stopped then m else
    let g := readRaw c (va + i * es) es m.s
    if g.1.acc ≠ .ok then let h := accHalt rod g.1.acc g.2; { m with halt := some h.1, s := h.2 } else
      let q := atomicElem sop f (if dr then draw key (d0 + m.draws) else 65535) (leNat g.1.bytes) p.2
      let t := m.tally.conv (base + i) q.2.1 q.1
      let t := if q.2.2 then t.ev kFp32Ovf (base + i) (inf32 (vsign q.2.1)) else t
      afterWrite rod t (m.draws + (if dr then 1 else 0)) (writeVa c (va + i * es) (natLe es q.1.bits) 0 false g.2)

/-- One row of SCATTER with ADD, MIN or MAX, element by element in index order. -/
def atomicRow (rod c va sop f src base d0 : Nat) (key : BitVec 64) (vs : List Val) (m : MoveAcc) : MoveAcc :=
  ((List.range vs.length).zip vs).foldl (atomicOne rod c va sop f src base d0 key) m

/-- Index `e` of a SCATTER (R83, R84): no row of it may touch G (R234), and a page that is not resident makes it wait. -/
def scatterRow (rod : Nat) (r : Run) (w : BitVec 256) (m : MoveAcc) (e : Nat) : MoveAcc :=
  let n := fld w 113 102
  let rf := r.readFmt (fld w 101 80) (fld w 60 58)
  let was := fld w 63 61
  let sop := fld w 56 55
  let len := rowStored (if sop = 0 then r.writeFmt was else was) n
  if m.stopped then m
  else if !idxRangeOk w rf e then { m with halt := some hRange }
  else
    let x := idxAt m.s rod w e
    if x < 0 then m
    else if !idxLive w x then { m with tally := { m.tally with indexRange := m.tally.indexRange + 1 } }
    else if touchesG m.s r.l.ctx (idxRow w x) len then { m with halt := some hIllegal }
    else if (firstAbsent m.s r.l.ctx (idxRow w x) len true).isSome then { m with wait := true }
    else
      let d := decRow rf n (e * n) (rsRow m.s rod rf (fld w 101 80 + e * 32 * fld w 79 64) (fld w 54 33 + e * (n / 32)) n) m.tally
      if sop = 0 then
        putMemRow rod r.l.ctx (idxRow w x) (rodKey m.s rod r.l) r.draws rf (r.writeFmt was) (e * n) (r.writeFmt was ≠ was) d.1
          { m with tally := d.2 }
      else atomicRow rod r.l.ctx (idxRow w x) sop was rf (e * n) r.draws (rodKey m.s rod r.l) d.1 { m with tally := d.2 }

/-- SCATTER (R82 to R84, R128, R131). -/
def execScatter (rod : Fin 64) (e : Option Upset) (s : State) : Host.Outcome State Fault Refusal :=
  .next (onUnit s rod 0 0x05 e (fun r f s =>
    let w := f.word
    let was := fld w 63 61
    let mf := if fld w 56 55 = 0 then r.writeFmt was else was
    let cnt := idxCount s rod w
    endMove rod f (mf = 0 || mf = 2) s ((List.range cnt).foldl (scatterRow rod r w) { s := s })))

end Sys2Proof.Machine
end

