-- ==== Sys2Proof/Machine/Blocks.lean ====
section
/-!
DEFINITION. A training job's blocks in memory (spec/09_training_steps.md R227 to R245, R249): the state objects,
reduction-buffer trailers, landings, the update of one block and digests.
-/

namespace Sys2Proof.Machine

/-! ### The job and its objects (R227 to R231, T9.1) -/

/-- A context's job with the addresses of its state objects. -/
structure Job where
  ctx : Nat
  job : Bytes
  part : Nat
  w : Nat
  m : Nat
  sel : Nat
  g : Nat
deriving DecidableEq, Repr

/-- The job of a definition in a context. -/
def jobIn (s : State) (c : Nat) (j : Bytes) : Job :=
  let base (o : Nat) : Nat := (objBase s c o).getD 0
  { ctx := c, job := j, part := ctxPart s c, w := base (jobW j), m := base (jobM j), sel := base (jobSel j), g := base (jobG j) }

def jobOf (s : State) (c : Nat) : Job := jobIn s c (ctxGet s c).train.job

def Job.first (x : Job) : Nat := jobFirst x.job

def Job.n (x : Job) : Nat := jobBlocks x.job

/-- Lanes of 256 blocks (R231). -/
def Job.lanes (x : Job) : Nat := (x.n + 255) / 256

def Job.wAt (x : Job) (j : Nat) : Nat := x.w + 4096 * j

def Job.gAt (x : Job) (j : Nat) : Nat := x.g + 4224 * j

/-- Slot of a bank of block `j` (R231). -/
def slotNo (j : Nat) (bank : Bool) : Nat := 257 * (j / 256) + j % 256 + if bank then 1 else 0

def Job.slotAt (x : Job) (j : Nat) (bank : Bool) : Nat := x.m + 4224 * slotNo j bank

/-- The shard's state: weights, slots and selectors (R228). -/
def Job.core (x : Job) : List Span :=
  [(x.w, 4096 * x.n, true), (x.m, 4224 * (x.n + x.lanes), true), (x.sel, (x.n + 7) / 8, true)]

/-- The reduction buffer. -/
def Job.buffer (x : Job) : List Span := [(x.g, 4224 * x.n, true)]

/-- The tensor table (T12.16). -/
def Job.table (x : Job) : List Span := [(jobField x.job 64 8, Config.tensorBytes.val * jobField x.job 76 4, false)]

/-- Do `k`, which places the shard again, once its state and the reduction buffer are resident; a lost page is taken anew
(R203). -/
def Job.placing (x : Job) (c : Cmd) (s : State) (k : State → State) : State :=
  match hitch s x.ctx (x.core ++ x.buffer) with
  | some (.barred b) => refuseBar c b s
  | some (.absent a) => demandPage x.ctx a.1 a.2 none (if pageGivenUp a.1 a.2 s then revivePage a.1 a.2 s else s)
  | none => k s

/-- Bytes an engine reads (log 28), and whether one of their bursts is poisoned. -/
def peekVa (s : State) (c va n : Nat) : Bytes × Bool :=
  let g := (readRaw c va n s).1
  (byteSlice g.bytes 0 n, decide (g.acc ≠ .ok) || g.md.any mdPoison)

/-- The engine that serves a block (R234). -/
def Job.engine (s : State) (x : Job) (b : Nat) : Nat := engineOf s x.part b

/-- Selector of block `j`. -/
def Job.selOf (s : State) (x : Job) (j : Nat) : Bool :=
  ((peekVa s x.ctx (x.sel + j / 8) 1).1.getD 0 0#8).getLsbD (j % 8)

/-- Flip the selector of block `j`; its burst carries tag 0 (R242). -/
def Job.flip (x : Job) (j : Nat) (s : State) : State :=
  let b := (peekVa s x.ctx (x.sel + j / 8) 1).1.getD 0 0#8
  (writeVa x.ctx (x.sel + j / 8) [b ^^^ BitVec.ofNat 8 (2 ^ (j % 8))] 0 false s).2

/-- The training key of a block (T5.6). -/
def Job.key (x : Job) (step b : Nat) : BitVec 64 :=
  mix (mix (jobSeed x.job ^^^ BitVec.ofNat 64 step) ^^^ BitVec.ofNat 64 b)

/-! ### Trailers (R236, T9.4) -/

/-- A reduction-buffer trailer. States: 0 LOCAL, 1 SENT, 2 REDUCING, 3 FINAL, 4 UPDATED, 5 LOST. -/
structure Trailer where
  step : Nat := 0
  st : Nat := 0
  count : Nat := 0
  clamped : Nat := 0
  nanZero : Nat := 0
  sumsq : BitVec 32 := 0#32
  digest : BitVec 64 := 0#64
deriving DecidableEq, Repr

def readTrailer (bs : Bytes) : Trailer :=
  let v := leNat (byteSlice bs 0 64)
  { step := bitsOf v 511 480, st := bitsOf v 479 476, count := bitsOf v 475 460, clamped := bitsOf v 459 444,
    nanZero := bitsOf v 443 428, sumsq := BitVec.ofNat 32 (bitsOf v 427 396), digest := BitVec.ofNat 64 (bitsOf v 395 332) }

def Trailer.bytes (t : Trailer) : Bytes :=
  natLe 64 (fieldAt t.step 32 480 + fieldAt t.st 4 476 + fieldAt t.count 16 460 + fieldAt t.clamped 16 444
    + fieldAt t.nanZero 16 428 + t.sumsq.toNat * 2 ^ 396 + t.digest.toNat * 2 ^ 332)

def Job.trailer (s : State) (x : Job) (j : Nat) : Trailer := readTrailer (peekVa s x.ctx (x.gAt j + 4160) 64).1

def Job.setTrailer (x : Job) (j : Nat) (t : Trailer) (s : State) : State :=
  (writeVa x.ctx (x.gAt j + 4160) t.bytes 0 false s).2

/-- Elements and scales of a reduction-buffer block, and whether it is poisoned. -/
def Job.row (s : State) (x : Job) (j : Nat) : Bytes × Bool := peekVa s x.ctx (x.gAt j) 4160

def Job.setRow (x : Job) (j : Nat) (row : Bytes) (s : State) : State := (writeVa x.ctx (x.gAt j) row 0 false s).2

/-- A STEP that no open step equals (R256, R370). -/
def noStep (version : Nat) : Nat := if version = 0xFFFFFFFF then 0xFFFFFFFE else 0xFFFFFFFF

/-- Invalidate the STEP of every trailer that `p` names. -/
def Job.dropSteps (x : Job) (p : Trailer → Bool) (version : Nat) (s : State) : State :=
  (List.range x.n).foldl (fun s j =>
    let t := x.trailer s j
    if p t then x.setTrailer j { t with step := noStep version } s else s) s

/-! ### Counters (R121, R133, R262) -/

/-- Add to a training counter (T9.7). -/
def trainUp (c i n : Nat) (s : State) : State :=
  ctxMod c (fun x => { x with train := { x.train with counters := mapMod 0 x.train.counters i (satAdd 48 · n) } }) s

/-- What an update engine's conversions raised: its counters (T5.5) and its records (R133). -/
def engineNote (c slice tag : Nat) (t : Tally) (s : State) : State :=
  let up (i n : Nat) (m : FMap Nat) : FMap Nat := if n = 0 then m else mapMod 0 m (8 * slice + i) (satAdd 48 · n)
  let s := { s with engineNum := up 0 t.inFlush (up 1 t.outFlush (up 2 t.range (up 3 t.nanZero
    (up 4 t.scaleUnder (up 5 t.scaleInvalid s.engineNum))))) }
  logEvents (ctxPart s c) 0xFFFF (tag % 65536) c (64 + slice) false t.evs s

/-! ### Rows (R115) -/

/-- A row of a block format decoded to FP32. -/
def rowVals (f n : Nat) (bs : Bytes) (t : Tally) : List (BitVec 32) × Tally :=
  let d := decRow f n 0 bs t
  (d.1.map (fun v => (trunc32 v).bits), d.2)

/-- FP32 values encoded as a row, element `i` with draw `d + i` of `key`. -/
def rowEnc (f : Nat) (key : BitVec 64) (d : Nat) (vs : List (BitVec 32)) (t : Tally) : Bytes × Tally :=
  let r := convRun f true key d 0 (vs.map dec32) t
  (r.1.flatMap (fun w => natLe (fmtBytes f) w) ++ r.2.1, r.2.2)

/-! ### Landings (R235, R237) -/

/-- CLAMP_BOUND (T12.16): 0 selects 65,504. -/
def clampBound (j : Bytes) : BitVec 32 :=
  let v := jobField j 72 4
  BitVec.ofNat 32 (if v = 0 then 0x477FE000 else v)

/-- Clamp a value (R235): the value, whether it was clamped, whether it was a NaN. -/
def clampVal (bound v : BitVec 32) : BitVec 32 × Bool × Bool :=
  let mag := v.toNat % 2 ^ 31
  if 0x7F800000 < mag then (0#32, false, true)
  else if bound.toNat < mag then (BitVec.ofNat 32 (v.toNat / 2 ^ 31 * 2 ^ 31 + bound.toNat), true, false)
  else (v, false, false)

/-- A row being landed into: its bytes, trailer and what conversions raised. -/
structure LandAcc where
  row : Bytes
  t : Trailer
  tally : Tally := {}
  /-- Values clamped and NaNs set to 0 by this landing, which the trailer's 16-bit counts may not show (R262). -/
  clamps : Nat := 0
  nans : Nat := 0
deriving DecidableEq, Repr

/-- Note a clamp in the trailer. -/
def Trailer.note (r : BitVec 32 × Bool × Bool) (t : Trailer) : Trailer :=
  { t with clamped := if r.2.1 then satAdd 16 t.clamped 1 else t.clamped, nanZero := if r.2.2 then satAdd 16 t.nanZero 1 else t.nanZero }

/-- Land one value on a stored one: both clamps are noted (R235). -/
def landElem (bound : BitVec 32) (first : Nat) (r : List (BitVec 32) × LandAcc) (p : BitVec 32 × BitVec 32) :
    List (BitVec 32) × LandAcc :=
  let one (b : Bool) : Nat := if b then 1 else 0
  let x := clampVal bound p.2
  let sum := noteR32 (first + r.1.length) (add32 p.1 x.1) r.2.tally
  let y := clampVal bound sum.1
  (y.1 :: r.1, { r.2 with t := (r.2.t.note x).note y, tally := sum.2
                          clamps := r.2.clamps + one x.2.1 + one y.2.1, nans := r.2.nans + one x.2.2 + one y.2.2 })

/-- Land values at elements `first`, `first + 1`, … of a row (R235): clamp, add, clamp, and encode again each group
of 32 that was touched. -/
def landVals (bound : BitVec 32) (key : BitVec 64) (first : Nat) (vals : List (BitVec 32)) (a : LandAcc) : LandAcc :=
  let lo := first / 32 * 32
  let n := (first + vals.length + 31) / 32 * 32 - lo
  let part := byteSlice a.row (2 * lo) (2 * n) ++ byteSlice a.row (4096 + lo / 32) (n / 32)
  let d := rowVals 2 n part a.tally
  let k := first - lo
  let sums := ((d.1.drop k).zip vals).foldl (landElem bound first) ([], { a with tally := d.2 })
  let new := d.1.take k ++ sums.1.reverse ++ d.1.drop (k + vals.length)
  let e := rowEnc 2 key lo new sums.2.tally
  { sums.2 with row := mergeBytes (mergeBytes a.row (2 * lo) (e.1.take (2 * n))) (4096 + lo / 32) (e.1.drop (2 * n)), tally := e.2 }

/-- A row of zeros with a fresh trailer of a step. -/
def freshRow (step : Nat) : LandAcc := { row := List.replicate 4160 0#8, t := { step := step } }

/-- Write back a row and trailer, and count what was clamped and set to 0 (R235, R262). -/
def Job.putLand (x : Job) (j : Nat) (a : LandAcc) (s : State) : State :=
  let b := x.first + j
  let s := x.setTrailer j a.t (x.setRow j a.row s)
  let s := trainUp x.ctx 0 a.clamps (trainUp x.ctx 1 a.nans s)
  engineNote x.ctx (x.engine s b) b a.tally s

/-- One landing of a STORE (R235, R237). Into a poisoned block it changes nothing. -/
def landOne (e : Landing) (s : State) : State :=
  let t := (ctxGet s e.ctx).train
  let x := jobOf s e.ctx
  let j := e.block - x.first
  if t.st ≠ .opened || e.block < x.first || x.n ≤ j then s
  else
    let tr := x.trailer s j
    let key := x.key t.step e.block
    let bound := clampBound x.job
    if tr.step ≠ t.step then x.putLand j (landVals bound key e.first e.vals (freshRow t.step)) s
    else if tr.st ≠ 0 then
      let s := trainUp e.ctx 2 1 s
      if t.late.contains e.block then s
      else
        ctxMod e.ctx (fun y => { y with train := { y.train with late := y.train.late ++ [e.block] } })
          (raise (srcStratum + x.part) 0x0B e.block s)
    else
      let r := x.row s j
      if r.2 then s else x.putLand j (landVals bound key e.first e.vals { row := r.1, t := tr }) s

/-- The acknowledgement of a landing releases its STORE once all its rows are acknowledged (R234). -/
def ackLanding (e : Landing) (s : State) : State :=
  runMod e.rod (fun q => { q with move := q.move.map (fun f => if f.n = e.desc then { f with wait := f.wait - 1 } else f) }) s

/-- LANDING (R235, R237): the engine of a slice takes its oldest landing; into a lost page it changes nothing (log 75). -/
def execLanding (slice : Fin 4) (s : State) : Host.Outcome State Fault Refusal :=
  .next (if coreHalted s then s else
    match mapGet [] s.landings slice with
    | [] => s
    | e :: rest =>
      let x := jobOf s e.ctx
      match firstAbsent s e.ctx (x.gAt (e.block - x.first)) 4224 true with
      | some a =>
        if pageGivenUp a.1 a.2 s then ackLanding e { s with landings := mapSet [] s.landings slice rest }
        else demandPage e.ctx a.1 a.2 none s
      | none => ackLanding e (landOne e { s with landings := mapSet [] s.landings slice rest }))

/-! ### Digests (R249) -/

/-- 8-byte words of a run of bytes. -/
def words64 (bs : Bytes) : List (BitVec 64) :=
  (List.range (bs.length / 8)).map (fun i => BitVec.ofNat 64 (leNat ((bs.drop (8 * i)).take 8)))

/-- Block digest of R249. -/
def blockDigest (b v : Nat) (w slot : Bytes) : BitVec 64 :=
  (words64 w ++ words64 slot).foldl (fun d x => mix (d ^^^ x)) (mix (BitVec.ofNat 64 (v * 2 ^ 32 + b % 2 ^ 32)))

/-- A block as memory holds it: weight block and current slot, whether either is poisoned. -/
def Job.block (s : State) (x : Job) (j : Nat) : Bytes × Bytes × Bool :=
  let w := peekVa s x.ctx (x.wAt j) 4096
  let m := peekVa s x.ctx (x.slotAt j (x.selOf s j)) 4224
  (w.1, m.1, w.2 || m.2)

/-- Block digests formed from memory, in block order. -/
def Job.digests (s : State) (x : Job) (version : Nat) : List (BitVec 64) :=
  (List.range x.n).map (fun j => let b := x.block s j; blockDigest (x.first + j) version b.1 b.2.1)

/-- Shard digest: XOR over the blocks. -/
def xorAll (l : List (BitVec 64)) : BitVec 64 := l.foldl (· ^^^ ·) 0#64

/-! ### The update of a block (R240 to R245) -/

/-- Parameters of UPDATE_RUN, the clip factor and the bias corrections. -/
structure Upd where
  lr : BitVec 32
  beta1 : BitVec 32
  beta2 : BitVec 32
  eps : BitVec 32
  wd : BitVec 32
  c : BitVec 32
  bc1 : BitVec 32
  bc2 : BitVec 32
deriving DecidableEq, Repr

def one32 : BitVec 32 := 0x3F800000#32

/-- `a × b` and `a + b` truncated (R93), at element `e`; saturation and flushes are noted (R121, R131). -/
def mulT (e : Nat) (a b : BitVec 32) (t : Tally) : BitVec 32 × Tally := noteR32 e (mul32 a b) t

def addT (e : Nat) (a b : BitVec 32) (t : Tally) : BitVec 32 × Tally := noteR32 e (add32 a b) t

/-- `b × old + (1 − b) × x`. -/
def blend (e : Nat) (b old x : BitVec 32) (t : Tally) : BitVec 32 × Tally :=
  let p := mulT e b old t
  let q := mulT e (add32 one32 (neg32 b)).bits x p.2
  addT e p.1 q.1 q.2

/-- New moments of element `e` from its old ones and its gradient (R240). -/
def momentElem (u : Upd) (e : Nat) (m1 m2 g : BitVec 32) (t : Tally) : BitVec 32 × BitVec 32 × Tally :=
  let gc := mulT e g u.c t
  let m := blend e u.beta1 m1 gc.1 gc.2
  let gg := mulT e gc.1 gc.1 m.2
  let v := blend e u.beta2 m2 gg.1 gg.2
  (m.1, v.1, v.2)

/-- New weight of element `e` from its stored new moments (R240). -/
def weightElem (u : Upd) (e : Nat) (w m1 m2 : BitVec 32) (t : Tally) : BitVec 32 × Tally :=
  let mh := mulT e m1 u.bc1 t
  let vh := mulT e m2 u.bc2 mh.2
  let den := addT e (sqrt240 vh.1) u.eps vh.2
  let rc := noteR32 e (vecFn 0x0E den.1) den.2
  let q := mulT e mh.1 rc.1 rc.2
  let wd := mulT e u.wd w q.2
  let sum := addT e q.1 wd.1 wd.2
  let d := mulT e u.lr sum.1 sum.2
  addT e w (neg32 d.1) d.2

/-- The new moments of a block (R240): the alternate slot's bytes. -/
def newMoments (u : Upd) (key : BitVec 64) (g cur : Bytes) (t : Tally) : Bytes × Tally :=
  let gv := rowVals 2 2048 g t
  let m1 := rowVals 3 2048 (byteSlice cur 0 2112) gv.2
  let m2 := rowVals 4 2048 (byteSlice cur 2112 2112) m1.2
  let r := ((m1.1.zip m2.1).zip gv.1).foldl (fun (a : List (BitVec 32) × List (BitVec 32) × Tally) p =>
    let y := momentElem u a.1.length p.1.1 p.1.2 p.2 a.2.2
    (y.1 :: a.1, y.2.1 :: a.2.1, y.2.2)) ([], [], m2.2)
  let em := rowEnc 3 key 2048 r.1.reverse r.2.2
  let ev := rowEnc 4 key 4096 r.2.1.reverse em.2
  (em.1 ++ ev.1, ev.2)

/-- The new weight block from the stored new moments (R240). -/
def newWeights (u : Upd) (key : BitVec 64) (w alt : Bytes) (t : Tally) : Bytes × Tally :=
  let m1 := rowVals 3 2048 (byteSlice alt 0 2112) t
  let m2 := rowVals 4 2048 (byteSlice alt 2112 2112) m1.2
  let wv := rowVals 0 2048 w m2.2
  let r := (wv.1.zip (m1.1.zip m2.1)).foldl (fun (a : List (BitVec 32) × Tally) p =>
    let y := weightElem u a.1.length p.1 p.2.1 p.2.2 a.2
    (y.1 :: a.1, y.2)) ([], wv.2)
  rowEnc 0 key 0 r.1.reverse r.2

/-- Metadata of `n` bursts from `va`. -/
def burstMds (s : State) (c va n : Nat) : List (BitVec 4) := (readRaw c va (64 * n) s).1.md

/-- Count a block lost and mark it (R245). -/
def Job.lose (x : Job) (j : Nat) (t : Trailer) (s : State) : State :=
  trainUp x.ctx 4 1 (x.setTrailer j { t with st := 5 } s)

/-- Flip the block and finish its trailer (R242 steps 3 and 4). -/
def Job.updated (x : Job) (j n : Nat) (w alt : Bytes) (s : State) : State :=
  let s := x.flip j s
  x.setTrailer j { x.trailer s j with digest := blockDigest (x.first + j) (n + 1) w alt, st := 4 } s

/-- Update block `j` of step `n`, or resume it (R242, R244, R245); the second result says that it was updated.
`again` is the block's FINAL data from another replica, asked for where G is poisoned. -/
def Job.update (x : Job) (u : Upd) (phase : Bool) (n j : Nat) (again : Option Bytes) (s : State) : State × Bool :=
  let b := x.first + j
  let key := x.key n b
  let slice := x.engine s b
  let tag := (n + 1) % 4
  let t := x.trailer s j
  if x.selOf s j ≠ phase || t.st = 5 then (s, false)
  else
    let w := peekVa s x.ctx (x.wAt j) 4096
    let altVa := x.slotAt j (!phase)
    let alt := peekVa s x.ctx altVa 4224
    if !alt.2 && (burstMds s x.ctx altVa 66).all (fun m => mdTag m = tag) then
      if w.2 then (x.lose j t s, false) else
        let tags := burstMds s x.ctx (x.wAt j) 64
        let y := newWeights u key w.1 alt.1 {}
        let fixed := (List.range 64).flatMap (fun k =>
          if mdTag (tags.getD k 0#4) = tag then byteSlice w.1 (64 * k) 64 else byteSlice y.1 (64 * k) 64)
        let s := (writeVa x.ctx (x.wAt j) fixed tag false s).2
        (x.updated j n fixed alt.1 (engineNote x.ctx slice b y.2 s), true)
    else
      let cur := peekVa s x.ctx (x.slotAt j phase) 4224
      let g := x.row s j
      if w.2 || cur.2 || (g.2 && again.isNone) then (x.lose j t s, false)
      else
        let s := if g.2 then x.setRow j (byteSlice (again.getD []) 0 4160) s else s
        let row := if g.2 then byteSlice (again.getD []) 0 4160 else g.1
        let m := newMoments u key row cur.1 {}
        let s := (writeVa x.ctx altVa m.1 tag false s).2
        let y := newWeights u key w.1 m.1 m.2
        let s := (writeVa x.ctx (x.wAt j) y.1 tag false s).2
        (x.updated j n y.1 m.1 (engineNote x.ctx slice b y.2 s), true)

/-- Blocks of a shard in the order of R242: lane by lane, descending where the selectors are 0. -/
def Job.order (x : Job) (phase : Bool) : List Nat :=
  (List.range x.lanes).flatMap (fun l =>
    let bs := (List.range (min 256 (x.n - 256 * l))).map (fun i => 256 * l + i)
    if phase then bs else bs.reverse)

/-! ### The clip factor (R239) -/

/-- The FP64 sum of the shard sums in ascending shard order. -/
def normTotal (norms : FMap (BitVec 64)) (count : Nat) : BitVec 64 :=
  (List.range count).foldl (fun a i => rne64 (vadd (dec64 a) (dec64 (mapGet 0#64 norms i)))) 0#64

/-- min(1, CLIP ÷ √total) rounded to the nearest FP32 value; `free` where the total is no real number. -/
def clipFactor (clip : BitVec 32) (total : BitVec 64) (free : Nat) : BitVec 32 :=
  match dec32 clip, dec64 total with
  | .zero _, _ => one32
  | .fin _ _ _, .zero _ => one32
  | .fin _ _ _, .inf false => 0#32
  | .fin _ m1 e1, .fin false m2 e2 =>
    let ex := 2 * e1 - e2
    let k : Nat := 200 + 2 * Nat.log2 (m2 + 1)
    let k := if (ex - k) % 2 = 0 then k else k + 1
    let q := m1 * m1 * 2 ^ k / m2
    let r := isqrt q
    let exact := r * r * m2 = m1 * m1 * 2 ^ k
    let c := rne32 (.fin false (2 * r + if exact then 0 else 1) ((ex - k) / 2 - 1))
    if one32.toNat < c.toNat then one32 else c
  | _, _ => BitVec.ofNat 32 free

end Sys2Proof.Machine
end

