-- ==== Sys2Proof/Machine/Vector.lean ====
section
/-!
DEFINITION. The vector unit: VEC (spec/04_tile_programs.md R93, R94).
-/

namespace Sys2Proof.Machine

/-- Operations that use operand a, and operand b (T4.12). -/
def vecUsesA (op : Nat) : Bool := op ≠ 0x12 && op ≠ 0x13

def vecUsesB (op : Nat) : Bool := [0x01, 0x02, 0x03, 0x04, 0x07, 0x08].contains op

/-- FMT_D and the formats of every operand used are integer formats (R93). -/
def vecInts (op fa fb fd : Nat) : Bool :=
  fmtInt fd && (!vecUsesA op || fmtInt fa) && (!vecUsesB op || fmtInt fb)

/-- Operations accepted when every format is an integer format (R93). -/
def vecIntOps : List Nat := [0x00, 0x01, 0x02, 0x07, 0x08, 0x12, 0x13]

/-- An operand decoded to FP32 for computation (R93, R116): integers by truncation, subnormals flushed and
counted, NaN canonical. -/
def toFp (f w : Nat) (t : Tally) : BitVec 32 × Tally :=
  let r := decElem f w 0
  ((trunc32 r.1).bits, t.fl r.2)

/-- The FP32 result of an operation on FP32 operands (T4.12). -/
def vecFloat (op idx : Nat) (a b imm : BitVec 32) (t : Tally) : BitVec 32 × Tally :=
  if op = 0x00 then (a, t)
  else if op = 0x01 then noteR32 idx (add32 a b) t
  else if op = 0x02 then noteR32 idx (add32 a (neg32 b)) t
  else if op = 0x03 then noteR32 idx (mul32 a b) t
  else if op = 0x04 then
    let p := noteR32 idx (mul32 a imm) t
    noteR32 idx (add32 p.1 b) p.2
  else if op = 0x05 then noteR32 idx (mul32 a imm) t
  else if op = 0x06 then noteR32 idx (add32 a imm) t
  else if op = 0x07 then (maxMin32 true a b, t)
  else if op = 0x08 then (maxMin32 false a b, t)
  else if op = 0x09 then (a &&& 0x7FFFFFFF#32, t)
  else if op = 0x0A then (neg32 a, t)
  else if op = 0x0B then (maxMin32 true a 0#32, t)
  else if op = 0x14 then noteR32 idx (mul32 a a) t
  else noteR32 idx (vecFn op a) t

/-- The 32-bit integer result of an operation (R93): arithmetic modulo 2^32. -/
def vecInt (op : Nat) (a b : Int) : Int :=
  let r := if op = 0x01 then a + b else if op = 0x02 then a - b
    else if op = 0x07 then max a b else if op = 0x08 then min a b else a
  sgn 32 (unsgn 32 r)

/-- Element `e` of a VEC: its pattern in format `fd`, whether it took a draw, and the notes. A FILL in a replay pass writes
its 32-bit IMM as the widened element, whatever FMT_D is (DESIGN CHOICE, log 81). -/
def vecElem (s : State) (n : Nat) (w : BitVec 256) (fa fb fd : Nat) (key : BitVec 64) (d e : Nat) (t : Tally) :
    Nat × Tally :=
  let op := fld w 159 154
  let ra := leNat (rsRead s n (fld w 255 234 + e * fmtBytes fa) (fmtBytes fa))
  let rb := leNat (rsRead s n (fld w 233 212 + e * fmtBytes fb) (fmtBytes fb))
  if op = 0x12 then (fld w 153 122 % 2 ^ (8 * fmtBytes fd), t)
  else if vecInts op fa fb fd then
    let r := if op = 0x13 then sgn 32 (fld w 121 100 + e)
      else vecInt op (sgn (8 * fmtBytes fa) ra) (sgn (8 * fmtBytes fb) rb)
    let v := ofInt r 0 false
    let c := encElem fd 0 65535 v
    (c.bits, t.conv e v c)
  else
    let a := if vecUsesA op then toFp fa ra t else (0#32, t)
    let b := if vecUsesB op then toFp fb rb a.2 else (0#32, a.2)
    let r := if op = 0x13 then (ofInt32Trunc (fld w 121 100 + e), b.2)
      else vecFloat op e a.1 b.1 (BitVec.ofNat 32 (fld w 153 122)) b.2
    let v := dec32 r.1
    let c := encElem fd 0 (if fd = 0 then draw key (d + e) else 65535) v
    (c.bits, r.2.conv e v c)

/-- The format VEC writes (R128), and its output in bytes. -/
def vecFd (r : Run) (w : BitVec 256) : Nat := r.writeFmt (fld w 162 160)

def vecLen (r : Run) (w : BitVec 256) : Nat := fld w 189 169 * fmtBytes (vecFd r w)

/-- The patterns of every element, and what they raised. -/
def vecAll (s : State) (rod : Nat) (r : Run) (w : BitVec 256) : List Nat × Tally :=
  let y := (List.range (fld w 189 169)).foldl (fun (acc : List Nat × Tally) e =>
    let q := vecElem s rod w (r.readFmt (fld w 255 234) (fld w 168 166)) (r.readFmt (fld w 233 212) (fld w 165 163)) (vecFd r w)
      (rodKey s rod r.l) r.draws e acc.2
    (q.1 :: acc.1, q.2)) ([], {})
  (y.1.reverse, y.2)

/-- VEC (R93, R94, R128). -/
def execVec (rod : Fin 64) (e : Option Upset) (s : State) : Host.Outcome State Fault Refusal :=
  .next (onUnit s rod 3 0x10 e (fun r f s =>
    let w := f.word
    let fd := vecFd r w
    let dst := fld w 211 190
    if !inRs dst (vecLen r w) then haltRod rod hRange f.va w s
    else match r.widen (fld w 162 160) dst (vecLen r w) with
    | none => haltRod rod hBracket f.va w s
    | some r' =>
      let y := vecAll s rod r w
      settle rod 3 f y.2 (fd = 0) (if fd = 0 && fld w 159 154 ≠ 0x12 then fld w 189 169 else 0)
        (runMod rod (fun x => { x with wide := r'.wide }) (rsWrite rod dst (y.1.flatMap (natLe (fmtBytes fd))) s))))

end Sys2Proof.Machine
end

