-- ==== Sys2Proof/Machine/Index.lean ====
section
/-!
DEFINITION. The index engine: REDUCE, SORT, SETINS and SETPROBE (spec/04_tile_programs.md R95 to R101).
-/

namespace Sys2Proof.Machine

/-! ### REDUCE (R95, R96) -/

/-- Runs of equal consecutive segment ids: each id with its elements. -/
def segRuns : List (Int × Nat) → List (Int × List Nat)
  | [] => []
  | (k, e) :: l =>
    match segRuns l with
    | (j, es) :: rest => if j = k then (k, e :: es) :: rest else (k, [e]) :: (j, es) :: rest
    | [] => [(k, [e])]

/-- An FP32 value of a REDUCE input element. -/
def redIn (s : State) (n f a : Nat) (t : Tally) : BitVec 32 × Tally :=
  toFp f (leNat (rsRead s n a (fmtBytes f))) t

/-- Combine two FP32 partial results under ROP: 0 SUM, 1 MEAN, 2 MAX, 3 MIN, 4 SUMSQ. -/
def redCombine (rop idx : Nat) (a b : BitVec 32) (t : Tally) : BitVec 32 × Tally :=
  if rop = 2 then (maxMin32 true a b, t) else if rop = 3 then (maxMin32 false a b, t)
  else noteR32 idx (add32 a b) t

/-- Combine two integers (INT32 input and output: SUM wraps, MAX, MIN; R96). -/
def redInt (rop : Nat) (a b : Int) : Int :=
  if rop = 2 then max a b else if rop = 3 then min a b else sgn 32 (unsgn 32 (a + b))

/-- An INT32 element. -/
def redIntIn (s : State) (n a : Nat) : Int := sgn 32 (rsWord s n a)

/-- The FP32 reduction of column `c` of one run. -/
def redColumn (s : State) (n : Nat) (w : BitVec 256) (fi : Nat) (idx : Nat) (rows : List Nat) (c : Nat) (t : Tally) :
    BitVec 32 × Tally :=
  let rop := fld w 83 81
  let at_ (r : Nat) : Nat := fld w 255 234 + r * 32 * fld w 233 222 + c * fmtBytes fi
  let one (r : Nat) (t : Tally) : BitVec 32 × Tally :=
    let v := redIn s n fi (at_ r) t
    if rop = 4 then noteR32 idx (mul32 v.1 v.1) v.2 else v
  let y := match rows with
    | [] => (0#32, t)
    | r :: l => l.foldl (fun acc q => let v := one q acc.2; redCombine rop idx acc.1 v.1 v.2) (one r t)
  if rop = 1 then noteR32 idx (mul32 y.1 (recipNat32 rows.length)) y.2 else y

/-- The identity written by INIT (R96). -/
def redIdentity (rop fo : Nat) : Nat :=
  if fo = 5 then (if rop = 2 then 0x80000000 else if rop = 3 then 0x7FFFFFFF else 0)
  else if rop = 2 then (if fo = 1 then 0xFF800000 else 0xFC00)
  else if rop = 3 then (if fo = 1 then 0x7F800000 else 0x7C00) else 0

/-- What a REDUCE carries from row to row: the state, rows written so far, draws, output elements, notes. -/
structure RedAcc where
  s : State
  rows : List Nat := []
  draws : Nat := 0
  t : Tally := {}
  /-- A failure: reason. -/
  bad : Option Nat := none
deriving DecidableEq, Repr

/-- The value of column `c` of one run of INT32 into INT32, combined with what stands at its place when `comb` (R96). -/
def redIntOut (s : State) (n : Nat) (w : BitVec 256) (ad : Nat) (elems : List Nat) (comb : Bool) (c : Nat) : Int :=
  let rop := fld w 83 81
  let vals := elems.map (fun r => redIntIn s n (fld w 255 234 + r * 32 * fld w 233 222 + c * 4))
  let v := match vals with | [] => 0 | x :: l => l.foldl (redInt rop) x
  if comb then redInt rop (sgn 32 (leNat (rsRead s n ad 4))) v else v

/-- The FP32 value of column `c` of one run, combined with what stands at its place when `comb` (R95, R96), read in the format
in which it is written; so in a replay pass as FP32, recorded as widened or not (DESIGN CHOICE, log 81). -/
def redFpOut (s : State) (n : Nat) (w : BitVec 256) (fi fo ad idx : Nat) (elems : List Nat) (comb : Bool) (c : Nat)
    (t : Tally) : BitVec 32 × Tally :=
  let y := redColumn s n w fi idx elems c t
  if comb then
    let o := toFp fo (leNat (rsRead s n ad (fmtBytes fo))) y.2
    redCombine (fld w 83 81) idx o.1 y.1 o.2
  else y

/-- Write column `c` of one run into its output row. -/
def redCell (n : Nat) (w : BitVec 256) (fi fo : Nat) (key : BitVec 64) (d0 : Nat) (row : Nat) (elems : List Nat)
    (comb : Bool) (a : RedAcc) (c : Nat) : RedAcc :=
  let ad := fld w 199 178 + row * 32 * fld w 177 166 + c * fmtBytes fo
  if fi = 5 && fo = 5 then
    ⟨rsWrite n ad (natLe 4 (unsgn 32 (redIntOut a.s n w ad elems comb c))) a.s, a.rows, a.draws + 1, a.t, a.bad⟩
  else
    let y := redFpOut a.s n w fi fo ad a.draws elems comb c a.t
    let cv := encElem fo 0 (if fo = 0 then draw key (d0 + a.draws) else 65535) (dec32 y.1)
    ⟨rsWrite n ad (natLe (fmtBytes fo) cv.bits) a.s, a.rows, a.draws + 1, y.2.conv a.draws (dec32 y.1) cv, a.bad⟩

/-- Write one run into its output row, combined with what stands there when `comb` (R95, R96). -/
def redWrite (n : Nat) (w : BitVec 256) (fi fo : Nat) (key : BitVec 64) (d0 : Nat) (row : Nat) (elems : List Nat)
    (comb : Bool) (a : RedAcc) : RedAcc :=
  (List.range (fld w 93 84)).foldl (redCell n w fi fo key d0 row elems comb) a

/-- The format REDUCE reads its input with, and the format it writes (R128). -/
def redInFmt (r : Run) (w : BitVec 256) : Nat := r.readFmt (fld w 255 234) (fld w 80 78)

def redOutFmt (r : Run) (w : BitVec 256) : Nat := r.writeFmt (fld w 77 75)

/-- Segment ids by element. -/
def redIds (s : State) (rod : Nat) (w : BitVec 256) : List Int :=
  (List.range (fld w 133 114)).map (fun e => sgn 32 (rsWord s rod (fld w 221 200 + 4 * e)))

/-- The input row of an element. -/
def redRowOf (s : State) (rod : Nat) (w : BitVec 256) (e : Nat) : Int :=
  if fld w 52 52 = 1 then sgn 32 (rsWord s rod (fld w 74 53 + 4 * e)) else (e : Int)

/-- The segment has an output row. -/
def redInside (w : BitVec 256) (k : Int) : Bool := sgn 32 (fld w 165 134) ≤ k && k < sgn 32 (fld w 165 134) + fld w 113 94

/-- Elements whose segment has an output row. -/
def redUsed (s : State) (rod : Nat) (w : BitVec 256) : List Nat :=
  (List.range (fld w 133 114)).filter (fun e => redInside w ((redIds s rod w).getD e 0))

/-- Bytes from the first output row to the last. -/
def redLen (r : Run) (w : BitVec 256) : Nat := (fld w 113 94 - 1) * 32 * fld w 177 166 + fld w 93 84 * fmtBytes (redOutFmt r w)

/-- An input row lies outside the rod store (R80). -/
def redRowBad (s : State) (rod : Nat) (r : Run) (w : BitVec 256) (e : Nat) : Bool :=
  redRowOf s rod w e < 0
    || !inRs (fld w 255 234 + (redRowOf s rod w e).toNat * 32 * fld w 233 222) (fld w 93 84 * fmtBytes (redInFmt r w))

/-- One run of equal segment ids: a second run of one segment under MEAN fails (R95), and so does a row of it outside the rod
store (R80). -/
def redRun (s : State) (rod : Nat) (r : Run) (w : BitVec 256) (a : RedAcc) (q : Int × List Nat) : RedAcc :=
  match a.bad with
  | some _ => a
  | none =>
    let row := (q.1 - sgn 32 (fld w 165 134)).toNat
    let again := a.rows.contains row
    if fld w 83 81 = 1 && again then { a with bad := some hReduce }
    else if q.2.any (redRowBad a.s rod r w) then { a with bad := some hRange }
    else
      let a' := redWrite rod w (redInFmt r w) (redOutFmt r w) (rodKey s rod r.l) r.draws row
        (q.2.map (fun e => (redRowOf s rod w e).toNat)) (again || fld w 50 50 = 1) a
      { a' with rows := row :: a'.rows }

/-- Every run in order. -/
def redAll (s : State) (rod : Nat) (r : Run) (w : BitVec 256) : RedAcc :=
  ((segRuns ((redIds s rod w).zipIdx)).filter (fun q => redInside w q.1)).foldl (redRun s rod r w) { s := s }

/-- INIT: the identity in every output row that no run wrote (R96). It takes no draws (DESIGN CHOICE, log 81). -/
def redInit (rod : Nat) (r : Run) (w : BitVec 256) (rows : List Nat) (s : State) : State :=
  if fld w 51 51 = 1 then
    ((List.range (fld w 113 94)).filter (fun k => !rows.contains k)).foldl (fun s k =>
      rsWrite rod (fld w 199 178 + k * 32 * fld w 177 166)
        ((List.range (fld w 93 84)).flatMap (fun _ => natLe (fmtBytes (redOutFmt r w)) (redIdentity (fld w 83 81) (redOutFmt r w)))) s) s
  else s

/-- REDUCE (R95, R96). Addresses formed from IDX are checked as they are formed (R80). Where it halts part of the way the rows
written stay, and the counts, events and draws of its runs are dropped (DESIGN CHOICE, log 81). -/
def execReduce (rod : Fin 64) (e : Option Upset) (s : State) : Host.Outcome State Fault Refusal :=
  .next (onUnit s rod 1 0x11 e (fun r f s =>
    let w := f.word
    let fo := redOutFmt r w
    if !inRs (fld w 199 178) (redLen r w) then haltRod rod hRange f.va w s
    else match r.widen (fld w 77 75) (fld w 199 178) (redLen r w) with
    | none => haltRod rod hBracket f.va w s
    | some r' =>
      let acc := redAll s rod r w
      match acc.bad with
      | some h => haltRod rod h f.va w acc.s
      | none =>
        settle rod 1 f { acc.t with indexRange := fld w 133 114 - (redUsed s rod w).length } (fo = 0)
          (if fo = 0 then acc.draws else 0)
          (runMod rod (fun x => { x with wide := r'.wide }) (redInit rod r w acc.rows acc.s))))

/-! ### SORT (R97, R98) -/

/-- Bytes of a key: INT32, INT16, FP16, FP32. -/
def keyBytes (k : Nat) : Nat := if k = 1 || k = 2 then 2 else 4

/-- A key flushed (R98), and whether it was subnormal. -/
def keyFlush (k w : Nat) : Nat × Bool :=
  if k = 2 then let r := flush16 (BitVec.ofNat 16 w); (r.1.toNat, r.2)
  else if k = 3 then let r := flush32 (BitVec.ofNat 32 w); (r.1.toNat, r.2)
  else (w, false)

/-- Rank of a key in ascending order (R98): −∞, negative, −0, +0, positive, +∞, NaN. -/
def keyRank (k w : Nat) : Int :=
  if k = 0 then sgn 32 w else if k = 1 then sgn 16 w
  else
    let bits := if k = 2 then 16 else 32
    let nan := if k = 2 then dec16 (BitVec.ofNat 16 w) = .nan else dec32 (BitVec.ofNat 32 w) = .nan
    let mag : Int := (w % 2 ^ (bits - 1) : Nat)
    if nan then 2 ^ 40 else if bitOf w (bits - 1) then -mag - 1 else mag

/-- Insert behind every element that does not come after: stable order. -/
def insertKey (desc : Bool) (x : Int × Nat × Nat) : List (Int × Nat × Nat) → List (Int × Nat × Nat)
  | [] => [x]
  | y :: l => if (if desc then y.1 < x.1 else x.1 < y.1) then x :: y :: l else y :: insertKey desc x l

/-- Stable sort of (rank, key, payload). -/
def sortStable (desc : Bool) (l : List (Int × Nat × Nat)) : List (Int × Nat × Nat) :=
  l.foldl (fun acc x => insertKey desc x acc) []

/-- Stable merge of two runs, ties from A (R97, R98). -/
def mergeRuns (desc : Bool) : Nat → List (Int × Nat × Nat) → List (Int × Nat × Nat) → List (Int × Nat × Nat)
  | 0, a, b => a ++ b
  | _, [], b => b
  | _, a, [] => a
  | n + 1, x :: a, y :: b =>
    if (if desc then x.1 < y.1 else y.1 < x.1) then y :: mergeRuns desc n (x :: a) b
    else x :: mergeRuns desc n a (y :: b)

/-- Keys and payloads of a run as (rank, key, payload), and the keys flushed. -/
def sortIn (s : State) (n : Nat) (w : BitVec 256) (key pay count : Nat) : List (Int × Nat × Nat) × Nat :=
  let k := fld w 83 82
  let l := (List.range count).map (fun e =>
    let r := keyFlush k (leNat (rsRead s n (key + e * keyBytes k) (keyBytes k)))
    ((keyRank k r.1, r.1, if fld w 80 80 = 1 then rsWord s n (pay + 4 * e) else 0), r.2))
  (l.map (·.1), (l.filter (·.2)).length)

/-- The sorted or merged keys and payloads, and the keys flushed. -/
def sortOut (s : State) (rod : Nat) (w : BitVec 256) : List (Int × Nat × Nat) × Nat :=
  let desc := fld w 81 81 = 1
  let a := sortIn s rod w (fld w 255 234) (fld w 233 212) (fld w 123 104)
  let b := sortIn s rod w (fld w 211 190) (fld w 189 168) (fld w 103 84)
  if fld w 79 79 = 1 then (mergeRuns desc (a.1.length + b.1.length) a.1 b.1, a.2 + b.2)
  else ((List.range ((a.1.length + 63) / 64)).flatMap (fun g => sortStable desc ((a.1.drop (64 * g)).take 64)), a.2)

/-- Operand and output starts of a SORT: those of the runs it has, with the payloads where there are any (R128). -/
def sortStarts (w : BitVec 256) : List Nat :=
  let pay := fld w 80 80 = 1
  [fld w 255 234, fld w 167 146] ++ (if pay then [fld w 233 212, fld w 145 124] else [])
    ++ (if fld w 79 79 = 1 then [fld w 211 190] ++ (if pay then [fld w 189 168] else []) else [])

/-- SORT (R97, R98). The inputs are read whole before the outputs are written (log 81). -/
def execSortKeys (rod : Fin 64) (e : Option Upset) (s : State) : Host.Outcome State Fault Refusal :=
  .next (onUnit s rod 1 0x12 e (fun r f s =>
    let w := f.word
    if replayBad r (sortStarts w) then haltRod rod hBracket f.va w s
    else
      let out := sortOut s rod w
      let s := rsWrite rod (fld w 167 146) (out.1.flatMap (fun x => natLe (keyBytes (fld w 83 82)) x.2.1)) s
      let s := if fld w 80 80 = 1 then rsWrite rod (fld w 145 124) (out.1.flatMap (fun x => natLe 4 x.2.2)) s else s
      settle rod 1 f { inFlush := out.2 } false 0 s))

/-! ### Hash sets (R99 to R101) -/

/-- Home bucket of a key (R99). -/
def homeBucket (n key : Nat) : Nat := key * 0x9E3779B1 % 2 ^ 32 / 2 ^ (32 - n)

/-- Search bucket by bucket, slot by slot: the first slot that holds the key or is empty. -/
def probe (s : State) (rod table n key : Nat) : Nat → Nat → Option (Nat × Bool)
  | 0, _ => none
  | m + 1, b =>
    let base := table + 64 + 64 * b
    match (List.range 8).find? (fun t =>
      rsWord s rod (base + 8 * t) = key || rsWord s rod (base + 8 * t) = 0xFFFFFFFF) with
    | some t => some (base + 8 * t, decide (rsWord s rod (base + 8 * t) = key))
    | none => probe s rod table n key m ((b + 1) % 2 ^ n)

/-- A SETINS keeps a counted key list: KL_EN with VMODE 1, as T4.15 has it. -/
def keyList (w : BitVec 256) : Bool := fld w 94 94 = 1 && fld w 95 95 = 1

/-- The word at KEYLIST is kept equal to COUNTER (R100). -/
def keepCount (rod : Nat) (w : BitVec 256) (s : State) : State :=
  if keyList w then rsWrite rod (fld w 145 124) (natLe 4 (rsWord s rod (fld w 255 234))) s else s

/-- One key of SETINS or SETPROBE: the result, the status and the state after it (R100). A key-list address
outside the rod store is reported by the last component. -/
def setKey (ins : Bool) (rod : Nat) (w : BitVec 256) (e : Nat) (s : State) : State × Bool :=
  let n := fld w 103 100 + 4
  let table := fld w 255 234
  let list := ins && keyList w
  let key := rsWord s rod (fld w 233 212 + 4 * e)
  let vmode := fld w 95 95
  let counter := rsWord s rod table
  let put (res st : Nat) (s : State) : State :=
    rsWrite rod (fld w 167 146 + e) (natLe 1 st) (rsWrite rod (fld w 189 168 + 4 * e) (natLe 4 res) s)
  if key = 0xFFFFFFFF then (put 0xFFFFFFFF 3 s, false)
  else match probe s rod table n key (fld w 99 96 + 1) (homeBucket n key) with
  | some (a, true) => (put (rsWord s rod (a + 4)) 1 s, false)
  | some (a, false) =>
    if !ins then (put 0xFFFFFFFF 4 s, false)
    else if vmode = 1 && counter = 0xFFFFFFFF then (put 0xFFFFFFFF 2 s, false)
    else
      let v := if vmode = 1 then counter else rsWord s rod (fld w 211 190 + 4 * e)
      if list && !inRs (fld w 145 124) (8 + 4 * v) then (s, true)
      else
        let s := rsWrite rod a (natLe 4 key ++ natLe 4 v) s
        let s := rsWrite rod (table + 4) (natLe 4 ((rsWord s rod (table + 4) + 1) % 2 ^ 32)) s
        let s := if vmode = 1 then rsWrite rod table (natLe 4 (counter + 1)) s else s
        let s := if list then rsWrite rod (fld w 145 124 + 4 + 4 * v) (natLe 4 key) s else s
        (put v 0 s, false)
  | none => (put 0xFFFFFFFF (if ins then 2 else 4) s, false)

/-- The keys in input order, from `e`; the second result says that a key-list address failed. -/
def setKeys (ins : Bool) (rod : Nat) (w : BitVec 256) : Nat → Nat → State → State × Bool
  | 0, _, s => (s, false)
  | m + 1, e, s =>
    let r := setKey ins rod w e s
    if r.2 then r else setKeys ins rod w m (e + 1) (if ins then keepCount rod w r.1 else r.1)

/-- SETINS (R99 to R101). -/
def execSetins (rod : Fin 64) (e : Option Upset) (s : State) : Host.Outcome State Fault Refusal :=
  .next (onUnit s rod 1 0x13 e (fun _ f s =>
    let r := setKeys true rod f.word (fld f.word 123 104) 0 s
    if r.2 then haltRod rod hRange f.va f.word r.1 else settle rod 1 f {} false 0 r.1))

/-- SETPROBE (R99 to R101). -/
def execSetprobe (rod : Fin 64) (e : Option Upset) (s : State) : Host.Outcome State Fault Refusal :=
  .next (onUnit s rod 1 0x14 e (fun r f s =>
    let w := f.word
    if replayBad r [fld w 255 234, fld w 233 212, fld w 189 168, fld w 167 146] then haltRod rod hBracket f.va w s
    else settle rod 1 f {} false 0 (setKeys false rod w (fld w 123 104) 0 s).1))

end Sys2Proof.Machine
end

