-- ==== Sys2Proof/Machine/Check.lean ====
section
/-!
DEFINITION. The checks of a descriptor at issue (spec/04_tile_programs.md R78 to R104, R8): reserved bits,
values, alignment and every range the descriptor alone determines.
-/

namespace Sys2Proof.Machine

/-- Bits [hi:lo] of the descriptor are 0. -/
def z (w : BitVec 256) (hi lo : Nat) : Bool := fld w hi lo = 0

/-- A rod-store address field holds an address of the store (R80). -/
def rsa (w : BitVec 256) (hi lo : Nat) : Bool := fld w hi lo < rsSize

/-- Rows of `n` bytes at a 32-byte pitch stay inside the rod store. -/
def rowsIn (a pitch rows n : Nat) : Bool := inRs a ((rows - 1) * 32 * pitch + n)

/-- Bytes of a rod-store scale array of `n` elements. -/
def scaleIn (f a n : Nat) : Bool := !fmtBlock f || inRs a (n / 32)

/-- LOAD and STORE (T4.6, R81). An address field that the descriptor does not use (RS_SCALE here; A_SCALE, B_SCALE, KEY_B,
PAY_A below) is not held to the rod store (DESIGN CHOICE, log 80). -/
def okLoadStore (w : BitVec 256) (load : Bool) : Bool :=
  let rows := fld w 145 130
  let n := fld w 129 114
  let mf := fld w 113 111
  let rf := fld w 110 108
  z w 85 33 && (load || z w 32 32) && 1 ≤ rows && 1 ≤ n
    && (if load then pairOk mf rf else pairOk rf mf)
    && (!(fmtBlock mf || fmtBlock rf) || n % 32 = 0)
    && fld w 183 162 % 32 = 0
    && fld w 255 208 % (if fmtBlock mf then 32 else fmtBytes mf) = 0
    && rowsIn (fld w 183 162) (fld w 161 146) rows (n * fmtBytes rf)
    && scaleIn rf (fld w 107 86) (rows * n)

/-- The bank load's conditions (R81). -/
def okBankLoad (w : BitVec 256) : Bool :=
  z w 85 33 && fld w 145 130 = 64 && fld w 129 114 = 16 && fld w 113 111 = 1 && fld w 110 108 = 1
    && fld w 207 184 % 32 = 0 && z w 183 162 && z w 161 146 && z w 107 86 && z w 255 230
    && fld w 229 208 % 32 = 0 && inRs (fld w 229 208) (63 * fld w 207 184 + 64)

def okGatherScatter (w : BitVec 256) (gather : Bool) : Bool :=
  let cnt := fld w 133 114
  let n := fld w 113 102
  let mf := fld w 63 61
  let rf := fld w 60 58
  let isz := if fld w 57 57 = 1 then 2 else 4
  let idx := fld w 155 134
  1 ≤ cnt && 1 ≤ n && (if gather then pairOk mf rf && z w 56 55 else pairOk rf mf)
    && (gather || z w 56 55 || mf = 0 || mf = 1 || mf = 5)
    && (!(fmtBlock mf || fmtBlock rf) || n % 32 = 0)
    && fld w 255 208 % 32 = 0 && idx % isz = 0 && fld w 101 80 % 32 = 0
    && rsa w 155 134 && rsa w 101 80 && (!fmtBlock rf || rsa w 54 33)
    && (if fld w 32 32 = 1 then 4 ≤ idx
        else inRs idx (isz * cnt) && rowsIn (fld w 101 80) (fld w 79 64) cnt (n * fmtBytes rf)
          && scaleIn rf (fld w 54 33) (cnt * n))

/-- Operand format codes agree with the FP32 bit (R86, R87): 0b10 exactly where it is set; 0b11 is unlisted. -/
def okOpFmt (fp32 : Bool) (c : Nat) : Bool := if fp32 then c = 2 else c = 0 || c = 1

def okCounts (fp32 : Bool) (rows cols : Nat) : Bool :=
  1 ≤ rows && rows ≤ (if fp32 then 32 else 64) && 1 ≤ cols && cols ≤ (if fp32 then 8 else 16)

def okLoadw (w : BitVec 256) : Bool :=
  let fp32 := fld w 12 12 = 1
  z w 79 32 && fld w 255 234 % 32 = 0 && rsa w 255 234 && fld w 217 196 % 64 = 0 && inRs (fld w 217 196) 64
    && 1 ≤ fld w 131 116 && okCounts fp32 (fld w 115 109) (fld w 108 104) && okOpFmt fp32 (fld w 103 102)
    && (fld w 103 102 ≠ 1 || rsa w 101 80)

/-- MMA (T4.10); unused address fields as in `okLoadStore` (log 80). -/
def okMma (w : BitVec 256) : Bool :=
  let fp32 := fld w 12 12 = 1
  let k := fld w 179 164
  let es := if fp32 then 4 else 2
  z w 103 32 && fld w 255 234 % 32 = 0 && fld w 217 196 % 32 = 0 && 1 ≤ k
    && okCounts fp32 (fld w 163 157) (fld w 156 152) && okOpFmt fp32 (fld w 151 150) && okOpFmt fp32 (fld w 149 148)
    && rowsIn (fld w 255 234) (fld w 233 218) k (fld w 163 157 * es)
    && rowsIn (fld w 217 196) (fld w 195 180) k (fld w 156 152 * es)
    && (fld w 151 150 ≠ 1 || inRs (fld w 147 126) (2 * k)) && (fld w 149 148 ≠ 1 || inRs (fld w 125 104) ((k + 1) / 2))

def okSwap (w : BitVec 256) : Bool :=
  z w 231 32 && fld w 233 232 ≠ 3 && fld w 255 234 % 32 = 0 && rsa w 255 234
    && (fld w 233 232 ≠ 2 || inRs (fld w 255 234) (if fld w 12 12 = 1 then 32 else 64))

def okDrain (w : BitVec 256) : Bool :=
  let m := fld w 147 146
  z w 102 32 && fld w 255 234 % 32 = 0 && rsa w 255 234 && fld w 217 215 ≤ 2
    && (fld w 217 215 ≠ 2 || (fld w 192 192 = 1 && rsa w 214 193)) && fld w 144 141 ≤ 10
    && (m ≠ 0 || (z w 191 170 && z w 169 148 && z w 145 145 && z w 144 141 && z w 140 119 && z w 118 103))
    && (m ≠ 1 || (z w 144 141 && z w 140 119 && z w 118 103)) && (m < 2 || rsa w 140 119)

def okMmv (w : BitVec 256) : Bool :=
  let m := fld w 173 158
  let k := fld w 157 142
  z w 96 32 && fld w 255 234 % 32 = 0 && fld w 217 196 % 32 = 0 && fld w 195 174 % 32 = 0 && 1 ≤ m && 1 ≤ k
    && rowsIn (fld w 255 234) (fld w 233 218) m (2 * k) && inRs (fld w 217 196) (2 * k) && inRs (fld w 195 174) (4 * m)
    && (fld w 141 141 = 0 || (inRs (fld w 140 119) (m * ((k + 31) / 32)) && inRs (fld w 118 97) ((k + 31) / 32)))

/-- Formats VEC accepts (R93). -/
def vecFmt (f : Nat) : Bool := f = 0 || f = 1 || f = 5 || f = 6

/-- Operation codes of T4.12. -/
def vecOp (op : Nat) : Bool := op ≤ 0x14

/-- Operations that read operand a: all but FILL and POS; operand b: ADD, SUB, MUL, AXPY, MAX, MIN. -/
def usesA (op : Nat) : Bool := op ≠ 0x12 && op ≠ 0x13

def usesB (op : Nat) : Bool := op = 1 || op = 2 || op = 3 || op = 4 || op = 7 || op = 8

def okVec (w : BitVec 256) : Bool :=
  let op := fld w 159 154
  let n := fld w 189 169
  let fa := fld w 168 166
  let fb := fld w 165 163
  let fd := fld w 162 160
  let ok (a f : Nat) : Bool := vecFmt f && a % fmtBytes f = 0 && inRs a (n * fmtBytes f)
  let ints := fmtInt fd && (!usesA op || fmtInt fa) && (!usesB op || fmtInt fb)
  z w 99 32 && vecOp op && 1 ≤ n && n ≤ 1572864
    && ok (fld w 211 190) fd && (!usesA op || ok (fld w 255 234) fa)
    && (if usesB op then ok (fld w 233 212) fb else z w 233 212 && z w 165 163)
    && (!ints || [0x00, 0x01, 0x02, 0x07, 0x08, 0x12, 0x13].contains op)

def okReduce (w : BitVec 256) : Bool :=
  let n := fld w 133 114
  let rows := fld w 113 94
  let f := fld w 93 84
  let rop := fld w 83 81
  let fi := fld w 80 78
  let fo := fld w 77 75
  let fmt (x : Nat) : Bool := x = 0 || x = 1 || x = 5
  z w 49 32 && rop ≤ 4 && fmt fi && fmt fo && 1 ≤ n && 1 ≤ rows && 1 ≤ f
    && fld w 255 234 % 32 = 0 && fld w 199 178 % 32 = 0 && fld w 221 200 % 4 = 0 && rsa w 255 234
    && inRs (fld w 221 200) (4 * n)
    && (if fld w 52 52 = 1 then fld w 74 53 % 4 = 0 && inRs (fld w 74 53) (4 * n)
        else rowsIn (fld w 255 234) (fld w 233 222) n (f * fmtBytes fi))
    && rowsIn (fld w 199 178) (fld w 177 166) rows (f * fmtBytes fo)
    && (fo ≠ 5 || rop = 0 || rop = 2 || rop = 3) && !(rop = 1 && fld w 50 50 = 1)

/-- SORT (T4.15, R97); unused address fields as in `okLoadStore` (log 80). -/
def okSort (w : BitVec 256) : Bool :=
  let ks := if fld w 83 82 = 1 || fld w 83 82 = 2 then 2 else 4
  let na := fld w 123 104
  let nb := fld w 103 84
  let merge := fld w 79 79 = 1
  let pay := fld w 80 80 = 1
  let ok (a es n : Nat) : Bool := a % es = 0 && inRs a (es * n)
  z w 78 32 && 1 ≤ na && (if merge then 1 ≤ nb else nb = 0)
    && ok (fld w 255 234) ks na && (!merge || ok (fld w 211 190) ks nb) && ok (fld w 167 146) ks (na + nb)
    && (!pay || (ok (fld w 233 212) 4 na && (!merge || ok (fld w 189 168) 4 nb) && ok (fld w 145 124) 4 (na + nb)))

/-- SETINS and SETPROBE (T4.15). VMODE and KL_EN, which the table describes for SETINS (KL_EN with VMODE 1), are accepted and
do nothing elsewhere (DESIGN CHOICE, log 81). -/
def okSet (w : BitVec 256) (ins : Bool) : Bool :=
  let n := fld w 123 104
  let ok (a es : Nat) : Bool := a % es = 0 && inRs a (es * n)
  z w 93 32 && fld w 255 234 % 64 = 0 && fld w 103 100 ≤ 11 && 1 ≤ n
    && inRs (fld w 255 234) (64 + 64 * 2 ^ (fld w 103 100 + 4))
    && ok (fld w 233 212) 4 && ok (fld w 189 168) 4 && ok (fld w 167 146) 1
    && (!ins || fld w 95 95 = 1 || ok (fld w 211 190) 4)
    && (!ins || !keyList w || (fld w 145 124 % 4 = 0 && inRs (fld w 145 124) 4))

def okControl (s : State) (rod : Nat) (w : BitVec 256) : Bool :=
  let part := rodPart s rod
  match opOf w with
  | 0x18 => z w 238 32
  | 0x19 => z w 239 32
  | 0x1A => z w 255 32
  | 0x20 => z w 218 32
  | 0x21 => z w 229 32 && 1 ≤ fld w 245 230 && rodPart s (fld w 255 250) = part
  | 0x22 => z w 187 32 && bitOf (fld w 255 192) rod && (maskList (fld w 255 192) 64).all (fun n => rodPart s n = part)
  | 0x23 => z w 172 32 && fld w 255 208 % 65536 = 0 && 1 ≤ fld w 207 176 && fld w 175 173 ≤ 2
  | 0x24 => z w 252 32 && fld w 255 253 ≤ 4
  | 0x3F => z w 255 32
  | _ => false

/-- The form of a descriptor is legal (R78 to R80); a rod withdrawn from MMA service refuses its array
opcodes but MMV (R426). -/
def descOk (s : State) (rod : Nat) (w : BitVec 256) : Bool :=
  let op := opOf w
  let banked := op = 0x02 || op = 0x08 || op = 0x09 || op = 0x0A || (op = 0x01 && fld w 32 32 = 1)
  z w 15 13 && (z w 12 12 || op = 0x02 || op = 0x08 || op = 0x09)
    && !(banked && s.host.mmaOut.getLsbD rod)
    && match op with
      | 0x01 => if fld w 32 32 = 1 then okBankLoad w else okLoadStore w true
      | 0x02 => okLoadw w
      | 0x03 => okGatherScatter w true
      | 0x04 => okLoadStore w false
      | 0x05 => okGatherScatter w false
      | 0x08 => okMma w
      | 0x09 => okSwap w
      | 0x0A => okDrain w
      | 0x0B => okMmv w
      | 0x10 => okVec w
      | 0x11 => okReduce w
      | 0x12 => okSort w
      | 0x13 => okSet w true
      | 0x14 => okSet w false
      | _ => okControl s rod w

/-- A descriptor that the bracket rules halt (R103, R104). -/
def bracketBad (r : Run) (w : BitVec 256) : Bool :=
  let op := opOf w
  match r.bracket with
  | none => op = 0x19
  | some b => op = 0x18 || op = 0x3F || (op = 0x19 && fld w 255 240 ≠ b.layer)
      || (b.replay && (op = 0x22 || op = 0x13 || (op = 0x05 && fld w 56 55 = 1)))

/-- A VEC or REDUCE whose widened output reaches past the rod store (R129). -/
def widenOut (r : Run) (w : BitVec 256) : Bool :=
  (opOf w = 0x10 && vecFd r w ≠ fld w 162 160 && !inRs (fld w 211 190) (vecLen r w))
    || (opOf w = 0x11 && redOutFmt r w ≠ fld w 77 75 && !inRs (fld w 199 178) (redLen r w))

/-- Why a descriptor halts the program at issue, if it does. -/
def issueHalt (s : State) (rod : Nat) (r : Run) (w : BitVec 256) : Option Nat :=
  if !descOk s rod w then some hIllegal
  else if bracketBad r w then some hBracket
  else if widenOut r w then some hRange
  else none

end Sys2Proof.Machine
end

