-- ==== Sys2Proof/Machine/Seq.lean ====
section
/-!
DEFINITION. The rod sequencer and its stratum controller (spec/04_tile_programs.md R71 to R77, R102 to
R112), launches (spec/12_host_command_interface.md R351) and the weathervane's comparison
(spec/05_numerics.md R136, R137).
-/

namespace Sys2Proof.Machine

/-! ### Launches (R71, R73, R351) -/

/-- One element of a launch: PROGRAM, rod mask, RECORD_VA, PER_ROD (T12.11). -/
structure Elem where
  program : Nat
  mask : Nat
  record : Nat
  perRod : Bool
deriving DecidableEq, Repr

/-- Element `i` of a LAUNCH or LAUNCH_CHAIN. -/
def elemOf (c : Cmd) (i : Nat) : Elem :=
  let b := if c.opcode = 0x401 then 32 + 32 * i else 0
  ⟨c.p b 8, c.p (b + 8) 8, c.p (b + 16) 8, c.bit (b + 24) 0⟩

/-- Elements of the command. -/
def elemCount (c : Cmd) : Nat := if c.opcode = 0x401 then c.p 0 2 else 1

/-- Program address for each rod of an element, in rod order; none where the table of addresses or an
address is not one a program can stand at. -/
def elemPrograms (s : State) (ctx : Nat) (e : Elem) : Option (List (Nat × Nat)) :=
  let l := (maskList e.mask 64).map (fun n =>
    (n, if e.perRod then
          (let g := (readVa ctx (e.program + 8 * n) 8 s).1
           if g.acc = .ok then leNat g.bytes else 1)
        else e.program))
  if l.all (fun q => q.2 % 32 = 0 && q.2 < 2 ^ 48) then some l else none

/-- Hand a program to a rod, whose group is then on (R454): to its sequencer while that holds fewer than 8, else to the stratum
controller's list (R73). -/
def handOut (n : Nat) (l : Launch) (s : State) : State :=
  let s := groupsOn n s
  let x := rodGet s n
  let k := rodPart s n
  if x.queue.length + (if x.run.isSome then 1 else 0) < 8 && !(stratumGet s k).more.any (fun q => q.1 = n) then
    rodSet n { x with queue := x.queue ++ [l] } s
  else stratumMod k (fun y => { y with more := y.more ++ [(n, l)] }) s

/-- Move further launches of a rod from the stratum controller into its sequencer. -/
def refill (n : Nat) (s : State) : State :=
  let k := rodPart s n
  match (stratumGet s k).more.find? (fun q => q.1 = n) with
  | some q =>
    let x := rodGet s n
    if x.queue.length + (if x.run.isSome then 1 else 0) < 8 then
      rodSet n { x with queue := x.queue ++ [q.2] }
        (stratumMod k (fun y => { y with more := listEraseFirst (fun p => decide (p = q)) y.more }) s)
    else s
  | none => s

/-- A burst of an element's table of addresses is poisoned. -/
def tablePoisoned (s : State) (ctx : Nat) (e : Elem) : Bool :=
  e.perRod && (maskList e.mask 64).any (fun n => (readVa ctx (e.program + 8 * n) 8 s).1.acc = .poison)

/-- The first page under an element's table of addresses that is not resident. -/
def tableAbsent (s : State) (c : Cmd) (i : Nat) : Option (Nat × Nat) :=
  let e := elemOf c i
  if e.perRod then firstAbsent s c.ctx e.program 512 false else none

/-- A launch waits for the page of a table of addresses, or ends where that is lost (R200, R203). -/
def waitTable (c : Cmd) (a : Nat × Nat) (s : State) : State :=
  if pageGivenUp a.1 a.2 s then refuse c stUnavailable { s with launches := mapErase s.launches c.jidx }
  else demandPage c.ctx a.1 a.2 none s

/-- RODS of an element that the context's partition does not own, or that are out of service (R14, R351, R426). -/
def elemBad (s : State) (c : Cmd) (i : Nat) : Bool :=
  (maskList (elemOf c i).mask 64).any (fun r => rodPart s r ≠ ctxPart s c.ctx || s.host.rodOut.getLsbD r)

/-- Start one element of a launch: its number, and a program for each rod. A rod that has gone to another partition since the
chain started ends it (R14; log 80). -/
def startElem (c : Cmd) (i : Nat) (s : State) : State :=
  let e := elemOf c i
  if elemBad s c i then finishJ c.jidx stParam [] { s with launches := mapErase s.launches c.jidx }
  else match elemPrograms s c.ctx e with
  | none => finishJ c.jidx (if tablePoisoned s c.ctx e then stUnavailable else stParam) [] { s with launches := mapErase s.launches c.jidx }
  | some l =>
    let num := (ctxGet s c.ctx).launches
    let s := ctxMod c.ctx (fun x => { x with launches := x.launches + 1 }) s
    let old := mapGet { ctx := c.ctx } s.launches c.jidx
    let s := { s with launches := mapInsert s.launches c.jidx { old with elem := i, left := l.map (·.1), ends := [] } }
    l.foldl (fun s q => handOut q.1 { ctx := c.ctx, va := q.2, number := num, cmd := c.jidx, elem := i } s) s

/-- Start an element once its table of addresses is resident. -/
def nextElem (c : Cmd) (i : Nat) (s : State) : State :=
  match tableAbsent s c i with
  | some a => waitTable c a s
  | none => startElem c i s

/-- The lowest rod of an element that logged a HIGH record (R131). -/
def highEnd (ends : List (Nat × BitVec 128 × Bool)) : Option (BitVec 128) :=
  (List.range 64).findSome? (fun n => (ends.find? (fun e => e.1 = n && e.2.2)).map (·.2.1))

/-- Status and result of a launch from the ends of its last element, and the record of an earlier element's program that logged a
HIGH record (R351). Of several elements with one, the first decides (DESIGN CHOICE, log 80). -/
def elemStatus (high : Option (BitVec 128)) (ends : List (Nat × BitVec 128 × Bool)) : Nat × Bytes :=
  let reason (r : BitVec 128) : Nat := bitsOf r.toNat 127 120
  let asc := (List.range 64).filterMap (fun n => ends.find? (fun e => e.1 = n))
  match asc.find? (fun e => reason e.2.1 ≠ 0) with
  | some e => (if reason e.2.1 = hUnavailable then stUnavailable else stParam, natLe 16 e.2.1.toNat)
  | none =>
    match high.or (highEnd ends) with
    | some e => (stNumeric, natLe 16 e.toNat)
    | none => (stSuccess, match asc with | e :: _ => natLe 16 e.2.1.toNat | [] => [])

/-- A rod's program has ended: when it was the last of its element, the records are written and the chain
goes on, or the command ends (R351). -/
def elemEnd (j n : Nat) (rec_ : BitVec 128) (high : Bool) (s : State) : State :=
  match mapFind s.launches j, ringFind s j with
  | some x, some c =>
    let x := { x with left := x.left.filter (· ≠ n), ends := x.ends ++ [(n, rec_, high)] }
    let s := { s with launches := mapInsert s.launches j x }
    if !x.left.isEmpty then s else
      let e := elemOf c x.elem
      let s := if e.record = 0 then s else
        ((maskList e.mask 64).foldl (fun (r : Nat × State) m =>
          let b := ((x.ends.find? (fun q => q.1 = m)).map (·.2.1)).getD 0#128
          (r.1 + 1, (writeVa x.ctx (e.record + 16 * r.1) (natLe 16 b.toNat) 0 false r.2).2)) (0, s)).2
      let st := elemStatus x.high x.ends
      let halted := x.ends.any (fun q => bitsOf q.2.1.toNat 127 120 ≠ 0)
      if halted || elemCount c ≤ x.elem + 1 then
        finish c st.1 st.2 { s with launches := mapErase s.launches j }
      else nextElem c (x.elem + 1)
        { s with launches := mapInsert s.launches j { x with high := x.high.or (highEnd x.ends) } }
  | _, _ => s

/-- Checks of a launch: COUNT, RODS of the context's partition that are in service, a program for each (R351, R426). -/
def launchBad (s : State) (c : Cmd) : Bool :=
  let n := elemCount c
  n = 0 || 256 < n || (List.range n).any (fun i => (elemOf c i).mask = 0 || elemBad s c i)

/-- The first page under the tables of addresses of a launch that is not resident. -/
def launchAbsent (s : State) (c : Cmd) : Option (Nat × Nat) := (List.range (elemCount c)).findSome? (tableAbsent s c)

/-- A chain whose next element waits for the page of its table of addresses, and that element. -/
def chainWaits (s : State) (q seq : Nat) : Option (Cmd × Nat) :=
  match s.jr.ring.find? (fun c => c.queue = q && c.seq = seq && c.opcode = 0x401 && c.started && c.done.isNone) with
  | some c =>
    match mapFind s.launches c.jidx with
    | some x => if x.left.isEmpty then some (c, x.elem + 1) else none
    | none => none
  | none => none

/-- A launch of an open step is kept for R370. -/
def noteLaunch (c : Cmd) (s : State) : State :=
  ctxMod c.ctx (fun x => if x.stepOpen && !c.quiet && !x.train.launches.any (fun d => d.jidx = c.jidx) then
    { x with train := { x.train with launches := x.train.launches ++ [c] } } else x) s

def launchBody (c : Cmd) (s : State) : State :=
  if launchBad s c then refuse c stParam s
  else match launchAbsent s c with
    | some a => waitTable c a s
    | none => startElem c 0 (begun c (noteLaunch c s))

/-- LAUNCH (R351). -/
def execLaunch (q : Fin 512) (seq : Nat) (s : State) : Host.Outcome State Fault Refusal :=
  .next (runCmd s q seq 0x400 true [(0, 24), (24, 1)] launchBody)

/-- LAUNCH_CHAIN (R351). -/
def execLaunchChain (q : Fin 512) (seq : Nat) (s : State) : Host.Outcome State Fault Refusal :=
  .next (match startable s q seq 0x401, chainWaits s q seq with
    | none, some r => nextElem r.1 r.2 s
    | _, _ => runCmd s q seq 0x401 true [(0, 2), (32, 8192)] launchBody)

/-! ### Starting a program (R69, R73, R107, R165) -/

/-- Apply the pending signals of a context for a rod that starts one of its programs (R107). -/
def applySignals (n ctx : Nat) (s : State) : State :=
  let k := rodPart s n
  let mine := (stratumGet s k).signals.filter (fun q => q.1 = ctx && q.2.1 = n)
  let s := stratumMod k (fun y => { y with signals := y.signals.filter (fun q => !(q.1 = ctx && q.2.1 = n)) }) s
  rodMod n (fun x => { x with ctrs := mine.foldl (fun m q => mapMod 0 m q.2.2.1 (satAdd 32 · q.2.2.2.1)) x.ctrs }) s

/-- PROGRAM_START (R69, R73, R165). A program starts in phase 0, and the phase it names ends with it (DESIGN CHOICE,
log 80). -/
def execProgramStart (rod : Fin 64) (s : State) : Host.Outcome State Fault Refusal :=
  let x := rodGet s rod
  .next (if coreHalted s || x.run.isSome then s else
    match x.queue with
    | [] => s
    | l :: rest =>
      let s := groupsOn rod s
      let other := decide (x.last ≠ some l.ctx)
      let y : Rod := if other then { x.clearBanks with ctrs := [] } else x
      let s := if other then { s with mem := memZero s.mem (rsBase rod) rsSize } else s
      let s := rodSet rod { y with queue := rest, last := some l.ctx,
                                   run := some { l := l, next := l.va } } s
      applySignals rod l.ctx (refill rod s))

/-! ### Fetch, issue, completion (R71, R72, R74 to R80, R133) -/

/-- DESC_FETCH (R71). Nothing is fetched beyond an END that the buffer or the sequencer holds (log 80). -/
def execDescFetch (rod : Fin 64) (s : State) : Host.Outcome State Fault Refusal :=
  .next (if coreHalted s || hbmHalted s then s else
    match (rodGet s rod).run with
    | none => s
    | some r =>
      if r.halt.isSome || 128 ≤ r.buf.length || r.buf.any (fun d => opOf d.2 = 0x3F) || r.ctl.any (fun f => opOf f.word = 0x3F) then s
      else if (firstAbsent s r.l.ctx r.next 32 false).isSome then s
      else
        let g := readVa r.l.ctx r.next 32 s
        match g.1.acc with
        | .ok => runMod rod (fun x => { x with buf := x.buf ++ [(r.next, BitVec.ofNat 256 (leNat g.1.bytes))], next := r.next + 32 }) g.2
        | e =>
          let d := drawFree g.2
          let h := accHalt rod e d.2
          haltRod rod h.1 r.next (BitVec.ofNat 256 d.1) h.2)

/-- DESC_ISSUE (R74, R78 to R80). -/
def execDescIssue (rod : Fin 64) (s : State) : Host.Outcome State Fault Refusal :=
  .next (if coreHalted s then s else
    match (rodGet s rod).run with
    | none => s
    | some r =>
      if r.halt.isSome || r.ctl.isSome then s else
        match r.buf with
        | [] => s
        | (va, w) :: rest =>
          match issueHalt s rod r w with
          | some h => haltRod rod h va w s
          | none =>
            let mark := r.check && opOf w = 0x0A
            let f : Flight := { n := r.issued, va := va, word := w, layer := (r.bracket.map (·.layer)).getD 0xFFFF,
                                second := r.replaying, brk := r.bracket.map (·.id), step := stepField s r.l.ctx, check := mark }
            let u := unitOf w
            let r := { r with buf := rest, issued := r.issued + 1, check := r.check && !mark }
            runMod rod (fun _ => if u = 4 then { r with ctl := some f } else r.setUnit u (r.unit u ++ [f])) s)

/-- DESC_COMPLETE (R77, R133): a performed descriptor of a unit completes, and its events are logged. Of the descriptors of
the MOVE unit, which may complete in any order (R74), it is the oldest that waits for no landing (DESIGN CHOICE, log 80). -/
def execDescComplete (rod : Fin 64) (unit : Fin 4) (s : State) : Host.Outcome State Fault Refusal :=
  .next (if coreHalted s then s else
    match (rodGet s rod).run with
    | none => s
    | some r =>
      match (r.unit unit).find? (fun f => f.performed && f.wait = 0) with
      | none => s
      | some f =>
        let s := runMod rod (fun x =>
          { x.setUnit unit ((x.unit unit).filter (fun g => g.n ≠ f.n)) with
            events := satAdd 32 x.events f.evs.length
            high := x.high || f.evs.any (fun e => kindSev e.kind = 3) }) s
        logEvents (rodPart s rod) f.layer (tagOf f.word) r.l.ctx rod f.second f.evs s)

/-! ### Control descriptors (R102 to R112) -/

/-- Run the control descriptor the sequencer holds, if it has the opcode and its AFTER mask holds. -/
def onCtl (s : State) (n op : Nat) (body : Run → Flight → State → State) : State :=
  if coreHalted s then s else
    match (rodGet s n).run with
    | none => s
    | some r =>
      match r.ctl with
      | some f => if r.halt.isNone && opOf f.word = op && afterOk r f then body r f s else s
      | none => s

/-- The control descriptor has completed. -/
def ctlDone (n : Nat) (f : Run → Run) (s : State) : State :=
  runMod n (fun r => { f r with ctl := none, waiting := none, timedOut := false, arrived := false }) s

/-- LAYER_BEGIN (R103); the tier engine's cursor follows it (R198). -/
def execLayerBegin (rod : Fin 64) (s : State) : Host.Outcome State Fault Refusal :=
  .next (onCtl s rod 0x18 (fun r f s =>
    let id := fld f.word 255 240
    let s := ctlDone rod (fun r =>
      { r with bracket := some { layer := id, id := f.n, replay := fld f.word 239 239 = 1, back := f.va + 32 } }) s
    cursorMove r.l.ctx id s))

/-- Deliver one signal to a rod of the partition: its counter, or the pending table; it is not sent while the
table of 64 is full (R107). -/
def sendSignal (l : Launch) (rod ctr inc : Nat) (s : State) : Bool × State :=
  let x := rodGet s rod
  if x.last = some l.ctx then (true, rodSet rod { x with ctrs := mapMod 0 x.ctrs ctr (satAdd 32 · inc) } s)
  else
    let k := rodPart s rod
    if 64 ≤ (stratumGet s k).signals.length then (false, s)
    else (true, stratumMod k (fun y => { y with signals := y.signals ++ [(l.ctx, rod, ctr, inc, l.cmd)] }) s)

/-- Send held signals in order; those the full table stops stay held. -/
def sendHeld (from_ : Launch) : List (Nat × Nat × Nat) → State → List (Nat × Nat × Nat) × State
  | [], s => ([], s)
  | h :: l, s =>
    let r := sendSignal from_ h.1 h.2.1 h.2.2 s
    if r.1 then sendHeld from_ l r.2 else (h :: l, s)

/-- LAYER_END (R103, R104, R127): a rewind for the replay pass, or the close of the bracket. A replay pass counts in REPLAYS
when it has run to its LAYER_END (DESIGN CHOICE, log 80). -/
def execLayerEnd (rod : Fin 64) (s : State) : Host.Outcome State Fault Refusal :=
  .next (onCtl s rod 0x19 (fun r f s =>
    match r.bracket with
    | none => s
    | some b =>
      if b.replay && !r.idle then s
      else if b.replay && b.marked && !b.second then
        let d := drawFree s
        let e : NumEv := { kind := kReplayRun, count := 1, first := d.1 % 2 ^ 32, value := BitVec.ofNat 32 (Config.freeValue (d.2.free)) }
        let s := { d.2 with free := d.2.free + 1 }
        let s := ctlDone rod (fun r => { r with bracket := some { b with second := true, held := [] }, buf := [], next := b.back,
                                                events := satAdd 32 r.events 1 }) s
        logEvents (rodPart s rod) b.layer (tagOf f.word) r.l.ctx rod false [e] s
      else
        let h := sendHeld r.l b.held s
        if h.1.isEmpty then
          ctlDone rod (fun r => { r with bracket := none, wide := [],
                                         replays := if b.second then satAdd 16 r.replays 1 else r.replays }) h.2
        else runMod rod (fun r => { r with bracket := some { b with held := h.1 } }) h.2))

/-- CHECK (R106). -/
def execCheckNext (rod : Fin 64) (s : State) : Host.Outcome State Fault Refusal :=
  .next (onCtl s rod 0x1A (fun _ _ s => ctlDone rod (fun r => { r with check := true }) s))

/-- WAIT (R104, R107, R110). Its second runs from its first attempt that the counter does not satisfy, not while it
waits for its AFTER mask (DESIGN CHOICE, log 80). -/
def execWaitCtr (rod : Fin 64) (s : State) : Host.Outcome State Fault Refusal :=
  .next (onCtl s rod 0x20 (fun r f s =>
    let k := fld f.word 255 252
    let thr := fld f.word 251 220
    let v := mapGet 0 (rodGet s rod).ctrs k
    if r.replaying then ctlDone rod id s
    else if thr ≤ v then
      let s := ctlDone rod id s
      if fld f.word 219 219 = 1 then rodMod rod (fun x => { x with ctrs := mapSet 0 x.ctrs k (v - thr) }) s else s
    else if r.waiting.isSome then s
    else runMod rod (fun r => { r with waiting := some s.clk.ltc }) s))

/-- Send a signal and complete, or wait for room in the table. -/
def signalNow (rod : Nat) (r : Run) (h : Nat × Nat × Nat) (s : State) : State :=
  let y := sendSignal r.l h.1 h.2.1 h.2.2 s
  if y.1 then ctlDone rod id y.2 else s

/-- SIGNAL (R104, R107, R108). -/
def execSignalCtr (rod : Fin 64) (s : State) : Host.Outcome State Fault Refusal :=
  .next (onCtl s rod 0x21 (fun r f s =>
    let h := (fld f.word 255 250, fld f.word 249 246, fld f.word 245 230)
    match r.bracket with
    | some b =>
      if b.replay then ctlDone rod (fun r => { r with bracket := some { b with held := b.held ++ [h] } }) s
      else signalNow rod r h s
    | none => signalNow rod r h s))

/-- Put an arrival into the first use that does not hold the rod yet; none where its RODS differ (R109). -/
def arriveUse (rod : Nat) (rods : BitVec 64) : List Use → Option (List Use)
  | [] => some [⟨rods, [rod]⟩]
  | u :: l =>
    if u.arrived.contains rod then (arriveUse rod rods l).map (u :: ·)
    else if u.rods = rods then some ({ u with arrived := u.arrived ++ [rod] } :: l) else none

/-- A program has arrived at the barrier of a key: its context and BAR_ID. -/
def Run.atBarrier (x : Run) (key : Nat) : Bool :=
  x.arrived && x.ctl.any (fun f => opOf f.word = 0x22 && 16 * x.l.ctx + fld f.word 191 188 = key)

/-- A rod's barrier is complete, unless it has also arrived in a later use, or the program that arrived has ended. -/
def releaseRod (key : Nat) (later : List Use) (s : State) (r : Nat) : State :=
  if later.any (fun v => v.arrived.contains r) then s
  else match (rodGet s r).run with
    | some x => if x.atBarrier key then ctlDone r id s else s
    | none => s

/-- Complete the oldest uses in which every rod has arrived; a rod whose wait counts toward a later use
goes on waiting. -/
def closeUses (part key : Nat) : Nat → State → State
  | 0, s => s
  | n + 1, s =>
    match mapGet [] (stratumGet s part).uses key with
    | [] => s
    | u :: l =>
      if (maskList u.rods.toNat 64).all u.arrived.contains then
        closeUses part key n
          (u.arrived.foldl (releaseRod key l) (stratumMod part (fun y => { y with uses := mapSet [] y.uses key l }) s))
      else s

/-- BARRIER (R109). Its second (R110) runs from its arrival (DESIGN CHOICE, log 80). -/
def execRodBarrier (rod : Fin 64) (s : State) : Host.Outcome State Fault Refusal :=
  .next (onCtl s rod 0x22 (fun r f s =>
    if !r.idle || r.arrived then s else
      let part := rodPart s rod
      let key := 16 * r.l.ctx + fld f.word 191 188
      match arriveUse rod (BitVec.ofNat 64 (fld f.word 255 192)) (mapGet [] (stratumGet s part).uses key) with
      | none => haltRod rod hIllegal f.va f.word s
      | some l =>
        let s := stratumMod part (fun y => { y with uses := mapSet [] y.uses key l }) s
        let s := runMod rod (fun r => { r with arrived := true, waiting := some s.clk.ltc }) s
        closeUses part key l.length s))

/-- SYNC_TIMEOUT (R110). -/
def execSyncTimeout (rod : Fin 64) (s : State) : Host.Outcome State Fault Refusal :=
  .next (if coreHalted s then s else
    match (rodGet s rod).run with
    | some r =>
      match r.waiting, r.ctl with
      | some t, some f =>
        if ticksS ≤ s.clk.ltc - t && !r.timedOut then
          raise (srcRodProgram + rod) 5 f.va (runMod rod (fun r => { r with timedOut := true }) s)
        else s
      | _, _ => s
    | none => s)

/-- TIER_HINT (R111, R201). -/
def execTierHint (rod : Fin 64) (s : State) : Host.Outcome State Fault Refusal :=
  .next (onCtl s rod 0x23 (fun r f s =>
    let s := ctlDone rod id s
    stratumMod (rodPart s rod) (fun y =>
      if 64 ≤ y.hints.length then { y with dropped := satAdd 48 y.dropped 1 }
      else { y with hints := y.hints ++ [(r.l.ctx, fld f.word 255 208, fld f.word 207 176, fld f.word 175 173)] }) s))

/-- PHASE (R111): from here on the rod's time is charged to it. -/
def execSetPhase (rod : Fin 64) (s : State) : Host.Outcome State Fault Refusal :=
  .next (onCtl s rod 0x24 (fun _ f s =>
    ctlDone rod (fun r => { r with phase := fld f.word 255 253 }) s))

/-- The end record of a program (T4.17). -/
def endRecord (reason va : Nat) (w : BitVec 256) (r : Run) : BitVec 128 :=
  BitVec.ofNat 128 (fieldAt reason 8 120 + fieldAt (opOf w) 8 112 + fieldAt (tagOf w) 16 96 + fieldAt va 48 48
    + fieldAt r.replays 16 32 + r.events % 2 ^ 32)

/-- End the program of a rod. -/
def endRun (n reason va : Nat) (w : BitVec 256) (r : Run) (s : State) : State :=
  let s := unwaitRod n (rodMod n (fun x => { x with run := none }) s)
  groupsOff (elemEnd r.l.cmd n (endRecord reason va w r) r.high (refill n s))

/-- END (R112): once every unit has completed. A halted program ends here too, once the descriptors it had
started have completed (log 23). -/
def execEndProgram (rod : Fin 64) (s : State) : Host.Outcome State Fault Refusal :=
  .next (if coreHalted s then s else
    match (rodGet s rod).run with
    | none => s
    | some r =>
      if !r.idle then s else
        match r.halt, r.ctl with
        | some h, _ => endRun rod h.1 h.2.1 h.2.2 r s
        | none, some f => if opOf f.word = 0x3F && afterOk r f then endRun rod 0 f.va f.word r s else s
        | none, none => s)

/-! ### The weathervane's comparison (R136, R137) -/

/-- A finite FP32 value in units of 2^(−149). -/
def units149 (w : BitVec 32) : Option Int :=
  match dec32 w with
  | .zero _ => some 0
  | .fin n m e => some ((if n then -1 else 1) * ((m : Int) * 2 ^ (e + 149).toNat))
  | _ => none

/-- Squares of ‖D − R‖ and ‖R‖, or none where a value is not finite. -/
def wvNorms (d r : List (BitVec 32)) : Option (Nat × Nat) :=
  (d.zip r).foldl (fun acc p => match acc, units149 p.1, units149 p.2 with
    | some a, some x, some y => some (a.1 + ((x - y) * (x - y)).toNat, a.2 + (y * y).toNat)
    | _, _, _ => none) (some (0, 0))

/-- ρ is at least 2^(−k). -/
def ratioGe (n : Nat × Nat) (k : Nat) : Bool := n.1 ≠ 0 && n.2 ≤ n.1 * 2 ^ (2 * k)

/-- Bin of T5.12. -/
def wvBin (o : Option (Nat × Nat)) : Nat :=
  match o with
  | none => 22
  | some n => if ratioGe n 4 then 21
    else match (List.range 20).find? (fun i => ratioGe n (5 + i)) with
      | some i => 20 - i
      | none => 0

/-- ρ as FP32, rounded to nearest even (log 19). -/
def wvRatio (o : Option (Nat × Nat)) : BitVec 32 :=
  match o with
  | none => nan32
  | some n => if n.1 = 0 then 0#32 else if n.2 = 0 then inf32 false else
      let q := n.1 * 2 ^ 240 / n.2
      let m := isqrt q
      let exact := m * m = q && n.1 * 2 ^ 240 % n.2 = 0
      rne32 (.fin false (2 * m + if exact then 0 else 1) (-121))

/-- WV_COMPARE (R136, R137). -/
def execWvCompare (frame : Fin 4) (s : State) : Host.Outcome State Fault Refusal :=
  .next (if coreHalted s then s else
    match (wvGet s frame).queue with
    | [] => s
    | x :: l =>
      let o := wvNorms x.d x.r
      let b := wvBin o
      let up (i : Nat) (h : FMap Nat) : FMap Nat := mapMod 0 h (32 * x.part + i) (satAdd 32 · 1)
      let s := wvMod frame (fun y => { y with queue := l, hist := up 23 (up b y.hist) }) s
      let t := mapGet 6 s.dev.wvThresh x.part
      let over_ := match o with | none => true | some n => n.2 = 0 && n.1 ≠ 0 || ratioGe n t
      if over_ then
        let e : NumEv := { kind := kDrift, count := 1, first := 0, value := wvRatio o }
        let s := logRecord x.part (numRecord s x.step x.layer x.tag x.ctx (68 + frame) x.second e) s
        raise (srcDrift + x.rod) 0 (fieldAt x.ctx 8 16 + x.tag % 65536) s
      else s)

end Sys2Proof.Machine
end

