-- ==== Sys2Proof/Machine/Mirror.lean ====
section
/-!
DEFINITION. How two devices of a pair find each other and send their copies (spec/13_mirror_pair_consistency.md
R377, R378, R381; spec/10_zilet_links.md R290, R291, R296). Which messages carry a bind is not in the spec: log 33.
-/

namespace Sys2Proof.Machine

/-- Send a STATE message that marks a point of the exchange. -/
def sendMark (d role : Nat) (s : State) : State :=
  sendMsg d { mtype := 0x21, cmd := if role = 4 then s.jr.next - 1 else 0, run := if role = 4 then 2 else 3, body := Config.stateMark role } s

/-- This device's full copy: its journal ring, its ledger and its control state (R377). -/
def sendFull (d : Nat) (s : State) : State :=
  let s := sendMark d 3 { s with jr := { s.jr with copySent := true } }
  let s := sendMsg d { mtype := 0x21, run := 3, body := Config.stateRecord 0 } s
  let s := (s.jr.ring.filter (fun c => c.done.isNone && !c.quiet)).foldl (fun s c => sendMsg d { mtype := 0x20, run := 3, body := recordBytes c } s) s
  let s := (s.jr.ledger.filter (fun kv => kv.2.applied)).foldl (fun s kv => sendMsg d { mtype := 0x20, run := 3, body := slotBytes kv.2 } s) s
  sendMark d 4 s

/-- The copy held for a lost partner, sent back to it (R378). -/
def sendBack (d : Nat) (s : State) : State :=
  let s := sendMark d 1 s
  let s := s.jr.heldState.foldl (fun s b => sendMsg d { mtype := 0x21, run := 3, body := b } s) s
  let s := s.jr.heldJournal.foldl (fun s b => sendMsg d { mtype := 0x20, run := 3, body := b } s) s
  sendMark d 2 s

/-- A neighbour's HELLO on a mirror port names this device as its partner: it is the partner that this device binds
with (R377), or the one it has lost, back with a new boot id (R378); any other arrival at a partner-lost device is
refused. -/
def helloPair (p : Nat) (s : State) : State :=
  match (portGet s p).hello with
  | none => s
  | some h =>
    match hId h, hPair h with
    | some d, some me =>
      if !mirrorPort s p || !(portGet s p).live || s.dev.zlId ≠ some me || s.jr.copySent then s
      else if s.jr.pair = .binding && d = s.jr.partner then sendFull d s
      else if s.jr.pair = .lost then
        (if d ≠ s.jr.partner then sendMark d 5 s
         else if bitsOf h.toNat 45 30 ≠ s.jr.partnerBoot then sendFull d (sendBack d s) else s)
      else s
    | _, _ => s

/-- The pair is bound from here on (R377, R378). -/
def becomeBound (s : State) : State :=
  mirrorHello { s with
    jr := { s.jr with pair := .bound, partnerBoot := (peerGet s s.jr.partner).boot, bindCmd := none, wasLost := false, copySent := false
                      unmirrored := 0, taking := false, taken := false, ownJournal := [], ownState := [] }
    zl := { s.zl with mirrorLost := false } }

/-- This device's full copy, with the journal up to index `last`, has been delivered: PAIR_BIND posts its DONE (R377); a survivor is bound again (R378). -/
def copyDelivered (d last : Nat) (s : State) : State :=
  if d ≠ s.jr.partner || !s.jr.copySent then s else
  let s := { s with jr := { s.jr with lastMirrored := max s.jr.lastMirrored last } }
  if s.jr.pair = .binding then
    (match s.jr.bindCmd with
     | some j => finishJ j stSuccess [] (becomeBound s)
     | none => becomeBound s)
  else if s.jr.pair = .lost then becomeBound s
  else s

end Sys2Proof.Machine
end

