-- ==== Sys2Proof/Machine/Runs.lean ====
section
/-!
DEFINITION. Collective runs (spec/11_collectives_delta_coding.md R308 to R326): chunks, block records sent and
received, reductions, the gradient reduction of spec/09_training_steps.md R238, R239 and the end of a run.
-/

namespace Sys2Proof.Machine

/-! ### Groups and counters (R302, R331) -/

/-- The list digest of R302. -/
def listDigest (g : Nat) (x : Group) : BitVec 64 :=
  x.members.foldl (fun d m => mix (d ^^^ BitVec.ofNat 64 (m.1 % 4096 + m.2 * 4096))) (mix (BitVec.ofNat 64 g))

/-- Change the run in progress. -/
def runSet (g : Nat) (f : CollRun → CollRun) (s : State) : State := groupMod g (fun x => { x with run := x.run.map f }) s

/-! ### Ranges, chunks and owners (R309, R311, R312) -/

def CollRun.rop (r : CollRun) : Nat := cdF r.desc 475 473
def CollRun.fmt (r : CollRun) : Nat := cdF r.desc 472 470
def CollRun.root (r : CollRun) : Nat := cdF r.desc 469 458
def CollRun.src (r : CollRun) : Nat := cdF r.desc 448 401
def CollRun.dst (r : CollRun) : Nat := cdF r.desc 400 353
def CollRun.acc (r : CollRun) : Nat := cdF r.desc 352 305
def CollRun.bytes (r : CollRun) : Nat := cdF r.desc 256 217

/-- Reductions: ALLREDUCE and REDUCE_SCATTER. -/
def CollRun.reduces (r : CollRun) : Bool := r.kind = 0 || r.kind = 1

/-- Chunks of the range (R309). -/
def CollRun.chunks (r : CollRun) : Nat := (r.bytes + 65535) / 65536

def CollRun.chunkLen (r : CollRun) (u : Nat) : Nat := min 65536 (r.bytes - 65536 * u)

/-- Position of a member among the LIVE members. -/
def CollRun.pos (r : CollRun) (i : Nat) : Nat := r.live.findIdx (· = i)

/-- Owner of a chunk (R309). -/
def CollRun.owner (r : CollRun) (u : Nat) : Nat := r.live.getD (u % r.live.length) 0

/-- Where a member's chunk is written at DST: the segment of its position for ALLGATHER (R312). -/
def CollRun.place (r : CollRun) (i u : Nat) : Nat := r.dst + 65536 * u + if r.kind = 2 then r.bytes * r.pos i else 0

/-- Key of a chunk that this member writes. -/
def unitKey (u i : Nat) : Nat := 4096 * u + i

/-- Blocks of a chunk: index and length (R309). -/
def blocksOf (n : Nat) : List (Nat × Nat) := (List.range ((n + 4095) / 4096)).map (fun k => (k, min 4096 (n - 4096 * k)))

/-- The engine at which a member works on a chunk (R309). -/
def chunkEngine (s : State) (x : Group) (u : Nat) : Nat := engineOf s (ctxPart s x.ctx) u

/-! ### Sending block records (R317, R321, R323, R325 to R328) -/

/-- The generation to code with for a peer (R328). -/
def genFor (x : Group) (i : Nat) : Option Nat :=
  let l := (mapGet [] x.atPeer i).filter (fun k => !x.load.any (fun d => d.gen = k && d.left.any (fun q => q.1 = i)))
  match x.current with
  | some k => if l.contains k then some k else l.getLast?
  | none => l.getLast?

/-- Where the base words of a range of a run lie: of the `n` bytes from block `idx` of a unit; none outside the base object (R318:
for GRAD by the job-wide block number, for SHADOW bases too; log 64). -/
def baseAt (s : State) (x : Group) (r : CollRun) (b : Base) (unit idx n : Nat) : Option Nat :=
  let o := if r.kind = 4 then 4096 * (unit + idx) else cdF r.desc 304 257 + 65536 * unit + 4096 * idx
  if (objGet s b.object).count * pageBytes < o + n then none else (objBase s x.ctx b.object).map (· + o)

/-- Version and bytes of the base of a block (R318, R325, R326). -/
def baseFor (s : State) (x : Group) (r : CollRun) (id unit idx n : Nat) : Option (Nat × Bytes) :=
  if id = 0xFF then some (0, List.replicate n 0#8)
  else match mapFind x.bases id with
    | none => none
    | some b =>
      if !b.isSet then none else
        match baseAt s x r b unit idx n with
        | none => none
        | some va => let y := peekVa s x.ctx va n; if y.2 then none else some (b.ver, y.1)

/-- The part of its base that a run codes against (R318). -/
def runBase (s : State) (x : Group) (r : CollRun) : List Span :=
  match mapFind x.bases (cdF r.desc 456 449) with
  | none => []
  | some b =>
    let j := (ctxGet s x.ctx).train.job
    let n := if r.kind = 4 then 4096 * jobBlocks j else r.bytes
    if cdF r.desc 457 457 = 0 || !b.isSet then []
    else match baseAt s x r b (if r.kind = 4 then jobFirst j else 0) 0 n with
      | none => []
      | some va => [(va, n, false)]

/-- One block as a record for a peer: coded where the run, the tables and the base allow it and it is shorter. -/
def blockRec (s : State) (x : Group) (r : CollRun) (i unit : Nat) (stored : Bool) (b : Nat × Bytes × Bytes) : Rec :=
  let raw := b.2.1
  let id := cdF r.desc 456 449
  let plain := plainRec b
  if stored || cdF r.desc 457 457 = 0 then plain
  else match genFor x i, baseFor s x r id unit b.1 raw.length with
    | some k, some (ver, bs) =>
      match encodeBlock (x.tableOf k) raw bs with
      | some p => { plain with coded := true, gen := k, base := id, ver := ver, payload := p }
      | none => plain
    | _, _ => plain

/-- Send consecutive blocks of a unit to a member, in as few messages as they fit in; `shape` sets the message's other fields. The
unit of a GRAD message is the block of its first record (T11.4); a resend keeps the unit that was asked for (R322). -/
def sendRecs (g i : Nat) (r : CollRun) (kind unit : Nat) (shape : CollMsg → CollMsg) (blocks : List (Nat × Bytes × Bytes))
    (stored : Bool) (s : State) : State :=
  match groupGet s g with
  | none => s
  | some x =>
    let recs := blocks.map (blockRec s x r i unit stored)
    let packs := if recs.isEmpty then [[]] else packRecs recs
    let s := packs.foldl (fun s p =>
      let k := if r.kind = 4 && !stored then (p.head?.map (·.index)).getD 0 else 0
      let raw (t : Rec) : Bytes := ((blocks.find? (fun b => b.1 = t.index)).map (·.2.1)).getD []
      let m := shape { collMsg g x r.run with
        unit := unit + k, records := p.map (fun t => { t with index := t.index - k : Rec }.bytes) }
      sendMsg (x.dev i) { stream := 1, mtype := 0x10, ctx := x.ctx, cmd := r.cmd, group := g, run := r.run % 65536,
                          head := collHead kind m, body := m.records.flatten,
                          gens := (p.filter (·.coded)).map (·.gen)
                          plain := if p.any (·.coded) then p.map (fun t => (t.index - k, raw t, t.ext)) else [] } s) s
    let wire := recs.foldl (fun n t => n + t.bytes.length) 0
    let s := collUp g 0 (blocks.foldl (fun n b => n + b.2.1.length) 0) (collUp g 1 wire s)
    let s := collUp g 2 (recs.filter (·.coded)).length (collUp g 3 (recs.filter (fun t => !t.coded)).length s)
    let s := recs.foldl (fun s t =>
      if t.coded then (symsOf (x.tableOf t.gen) t.payload (16 * t.units)).foldl (fun s y => collUp g (16 + y) 1 s) s
      else s) s
    runSet g (fun q => if q.run = r.run then { q with wire := q.wire + wire } else q) s

/-! ### Receiving block records (R322) -/

/-- One record taken: its index and either its raw block and extensions, or the reason it is refused: 0 TABLE_MISS,
1 BASE_MISS, 2 CHECK, 3 LENGTH. -/
def takeRec (s : State) (x : Group) (r : CollRun) (i unit ext : Nat) (bs : Bytes) : Nat × (Nat ⊕ (Bytes × Bytes)) :=
  let p := parseRec bs ext
  let t := p.1
  (t.index,
    if !p.2 then .inl 2
    else if !t.coded then (if t.payload.length = 32 * t.units then .inr (t.payload, t.ext) else .inl 3)
    else match mapFind x.slots (4 * i + t.gen) with
      | none => .inl 0
      | some table =>
        match baseFor s x r t.base unit t.index (32 * t.units) with
        | none => .inl 1
        | some (ver, base) =>
          if ver ≠ t.ver then .inl 1
          else match decodeBlock table t.payload base t.units with
            | some raw => .inr (raw, t.ext)
            | none => .inl 3)

/-- Count the refusals and ask the sender for those blocks (R322). -/
def askResend (g i unit : Nat) (bad : List (Nat × Nat)) (s : State) : State :=
  match groupGet s g with
  | none => s
  | some x =>
    if bad.isEmpty then s else
      let s := bad.foldl (fun s b => collUp g (4 + b.2) 1 s) s
      let s := runSet g (fun r => if bad.any (fun b => b.2 < 2) then { r with missed := true } else r) s
      let run := (x.run.map (·.run)).getD 0
      sendColl x i 0 4 { collMsg g x run with unit := unit, mask := listMask (bad.map (·.1))
                                              reasons := bad.foldl (fun a b => a + b.2 * 4 ^ b.1) 0 } s

/-! ### The end of a run (R313, R314) -/

/-- Members that this member must send data to (R311, R312, R238). -/
def CollRun.sendsTo (r : CollRun) (own i : Nat) : Bool :=
  i ≠ own && (if r.reduces then (List.range r.chunks).any (fun u => r.owner u = i)
    else if r.kind = 2 then true else decide (r.root = own))

/-- Every byte that the member must write has been written. -/
def CollRun.allWritten (r : CollRun) (own : Nat) : Bool :=
  (List.range r.chunks).all (fun u =>
    if r.kind = 0 then r.written.contains (unitKey u 0)
    else if r.kind = 1 then r.owner u ≠ own || r.written.contains (unitKey u 0)
    else if r.kind = 2 then r.live.all (fun i => r.written.contains (unitKey u i))
    else r.written.contains (unitKey u 0))

/-- Some message of the run is not delivered yet. -/
def runInFlight (s : State) (g : Nat) (r : CollRun) : Bool :=
  s.zl.peers.any (fun kv => (kv.2.out ++ kv.2.backlog).any (fun m =>
    !m.dead && m.mtype = 0x10 && m.group = g && m.run = r.run % 65536 && (let k := collKind m; k < 4 || k = 8)))

/-- Blocks of the job's shard that are FINAL, or further, in the open step. -/
def gradFinal (s : State) (c : Nat) : Bool :=
  let x := jobOf s c
  let n := (ctxGet s c).train.step
  (List.range x.n).all (fun j => let t := x.trailer s j; t.step = n && 3 ≤ t.st)

/-- The run is complete on this member. -/
def runComplete (s : State) (g : Nat) (x : Group) (r : CollRun) : Bool :=
  !runInFlight s g r
    && (if r.kind = 4 then (ctxGet s x.ctx).train.gradDone && gradFinal s x.ctx
        else r.allWritten x.own && r.live.all (fun i => !r.sendsTo x.own i || r.ready.contains i))

/-- Complete the run if nothing is left to do (R313, R238). -/
def runCheck (g : Nat) (s : State) : State :=
  match groupGet s g with
  | none => s
  | some x =>
    match x.run with
    | none => s
    | some r =>
      if !runComplete s g x r then s else
        let s := groupSet g { x with run := none, doneRun := some r, older := x.doneRun.toList ++ x.older } s
        let st := if !r.poisoned.isEmpty then stUnavailable else if r.missed then stTableMiss else stSuccess
        finishJ r.cmd st (natLe 4 r.run ++ natLe 4 r.view ++ natLe 8 r.wire) s

/-- End a run without its result: what it has written stays. -/
def endRunPlain (g status : Nat) (s : State) : State :=
  match groupGet s g with
  | none => s
  | some x =>
    match x.run with
    | none => s
    | some r => finishJ r.cmd status [] (groupSet g { x with run := none } s)

/-! ### Reductions (R310, R311, R314) -/

/-- Elements of a chunk as numbers. -/
def chunkVals (es : Nat) (bs : Bytes) : List Nat := (List.range (bs.length / es)).map (fun i => leNat ((bs.drop (i * es)).take es))

/-- One reduction step of ROP on FP32 or INT32 patterns, of element `e` (R311, R93), with what it raises (R121): a subnormal of the
owner's own source is flushed at its first landing, and no result is one. -/
def reduceOp (int : Bool) (rop e a b : Nat) (t : Tally) : Nat × Tally :=
  if int then
    (if rop = 0 then (a + b) % 2 ^ 32
     else if rop = 2 then unsgn 32 (max (sgn 32 a) (sgn 32 b)) else unsgn 32 (min (sgn 32 a) (sgn 32 b)), t)
  else
    let x := BitVec.ofNat 32 a
    let y := BitVec.ofNat 32 b
    let t := (t.fl (flush32 x).2).fl (flush32 y).2
    if rop < 2 then
      let r := addT e x y t
      (r.1.toNat, r.2)
    else ((maxMin32 (rop = 2) x y).toNat, t)

/-- Reduce two rows of patterns. -/
def reduceRow (int : Bool) (rop : Nat) (old new : List Nat) (t : Tally) : List Nat × Tally :=
  let r := (old.zip new).foldl (fun (a : List Nat × Tally) p =>
    let y := reduceOp int rop a.1.length p.1 p.2 a.2
    (y.1 :: a.1, y.2)) ([], t)
  (r.1.reverse, r.2)

/-- FP32 values times a factor. -/
def scaleRow (f : BitVec 32) (l : List (BitVec 32)) (t : Tally) : List (BitVec 32) × Tally :=
  let r := l.foldl (fun (a : List (BitVec 32) × Tally) v =>
    let y := mulT a.1.length v f (a.2.fl (flush32 v).2)
    (y.1 :: a.1, y.2)) ([], t)
  (r.1.reverse, r.2)

/-- FP16 bytes decoded to FP32 bytes. -/
def widen16 (bs : Bytes) : Bytes × Tally :=
  let d := decRow 0 (bs.length / 2) 0 bs {}
  (d.1.flatMap (fun v => natLe 4 (trunc32 v).bits.toNat), d.2)

/-- Where a chunk accumulates: ACC for FP16, else DST; with the scale of its offsets. -/
def CollRun.accAt (r : CollRun) (u off : Nat) : Nat :=
  if r.fmt = 0 then r.acc + 2 * (65536 * u + off) else r.dst + 65536 * u + off

/-- Write poison over a chunk's place in DST (R314). -/
def poisonChunk (c va n : Nat) (s : State) : State := setMd c va (List.replicate ((n + 63) / 64) (mdOf 0 true false)) s

/-- Finish a chunk whose count has reached L (R311, R314). -/
def finishChunk (g u : Nat) (s : State) : State :=
  match groupGet s g with
  | none => s
  | some x =>
    match x.run with
    | none => s
    | some r =>
      let n := r.chunkLen u
      let count := mapGet 0 r.counts u
      let bad := r.poisoned.contains u
      let slice := chunkEngine s x u
      let s :=
        if bad then poisonChunk x.ctx (r.place x.own u) n s
        else
          let es := if r.fmt = 0 then 2 else 4
          let va := r.accAt u 0
          let vs := chunkVals 4 (peekVa s x.ctx va (n / es * 4)).1
          let sc := scaleRow (recipNat32 count) (vs.map (BitVec.ofNat 32)) {}
          let vs := if r.rop = 1 then sc.1.map (·.toNat) else vs
          let s := if r.rop = 1 then engineNote x.ctx slice u sc.2 s else s
          let s := if r.rop = 1 then (writeVa x.ctx va (vs.flatMap (natLe 4)) 0 false s).2 else s
          if r.fmt ≠ 0 then s
          else
            let c := (ringFind s r.cmd).getD {}
            let key := mix ((ctxGet s x.ctx).seed ^^^ BitVec.ofNat 64 (c.seq * 256) ^^^ BitVec.ofNat 64 (64 + slice))
            let e := rowEnc 0 key (65536 * u / 2) (vs.map (BitVec.ofNat 32)) {}
            engineNote x.ctx slice u e.2 (writeVa x.ctx (r.place x.own u) e.1 0 false s).2
      let s := runSet g (fun q => { q with written := q.written ++ [unitKey u 0] }) s
      if r.kind ≠ 0 then s
      else
        let data := (peekVa s x.ctx (r.place x.own u) n).1
        let blocks := (blocksOf n).map (fun b => (b.1, byteSlice data (4096 * b.1) b.2, ([] : Bytes)))
        (r.live.filter (· ≠ x.own)).foldl (fun s i =>
          sendRecs g i r 2 u (fun m => { m with count := count, poisoned := bad }) (if bad then [] else blocks) false s) s

/-- Count a contributor of a chunk; the last one finishes it. -/
def countChunk (g u i : Nat) (bad : Bool) (s : State) : State :=
  let s := runSet g (fun r => { r with counts := mapMod 0 r.counts u (· + 1), landed := mapMod [] r.landed u (· ++ [i])
                                       poisoned := if bad && !r.poisoned.contains u then r.poisoned ++ [u] else r.poisoned }) s
  match (groupGet s g).bind (·.run) with
  | some r => if mapGet 0 r.counts u = r.live.length then finishChunk g u s else s
  | none => s

/-- Write the starting content of an owned chunk (R310). -/
def startChunk (g u : Nat) (s : State) : State :=
  match groupGet s g with
  | none => s
  | some x =>
    match x.run with
    | none => s
    | some r =>
      let y := peekVa s x.ctx (r.src + 65536 * u) (r.chunkLen u)
      let s :=
        if y.2 then s
        else if r.fmt = 0 then
          let w := widen16 y.1
          engineNote x.ctx (chunkEngine s x u) u w.2 (writeVa x.ctx (r.accAt u 0) w.1 0 false s).2
        else (writeVa x.ctx (r.accAt u 0) y.1 0 false s).2
      countChunk g u x.own y.2 s

/-- Land one block of a contribution (R311). -/
def landBlock (x : Group) (r : CollRun) (u idx : Nat) (raw : Bytes) (s : State) : State :=
  let w := if r.fmt = 0 then widen16 raw else (raw, {})
  let va := r.accAt u (4096 * idx)
  let old := chunkVals 4 (peekVa s x.ctx va w.1.length).1
  let new := reduceRow (decide (r.fmt = 5)) r.rop old (chunkVals 4 w.1) w.2
  engineNote x.ctx (chunkEngine s x u) u new.2 (writeVa x.ctx va (new.1.flatMap (natLe 4)) 0 false s).2

/-- Send this member's own data of a chunk to a member: CONTRIB or DATA (R311, R312, R314). -/
def sendChunk (g i : Nat) (x : Group) (r : CollRun) (kind u : Nat) (s : State) : State :=
  let n := r.chunkLen u
  let y := peekVa s x.ctx (r.src + 65536 * u) n
  let blocks := (blocksOf n).map (fun b => (b.1, byteSlice y.1 (4096 * b.1) b.2, ([] : Bytes)))
  sendRecs g i r kind u (fun m => { m with poisoned := y.2 }) (if y.2 then [] else blocks) false s

/-- Write this member's own segment at DST (R312). -/
def copyOwn (g u : Nat) (s : State) : State :=
  match groupGet s g with
  | none => s
  | some x =>
    match x.run with
    | none => s
    | some r =>
      let n := r.chunkLen u
      let y := peekVa s x.ctx (r.src + 65536 * u) n
      let va := r.place x.own u
      let s := if y.2 then poisonChunk x.ctx va n s else (writeVa x.ctx va y.1 0 false s).2
      let k := if r.kind = 2 then unitKey u x.own else unitKey u 0
      runSet g (fun q => { q with written := q.written ++ [k], poisoned := if y.2 then q.poisoned ++ [u] else q.poisoned }) s

/-! ### The gradient reduction (R229, R238, R239, R247, R316) -/

/-- Member that holds a replica of the shard. -/
def repMember (x : Group) (j : Bytes) (r : Nat) : Nat :=
  if r = jobReplica j then x.own else Config.replicaMember (jobField j 0 4) (jobShard j) r

/-- Live replicas of the member's shard, ascending. -/
def liveReps (x : Group) (j : Bytes) : List Nat := (List.range (jobRs j)).filter (fun r => x.stateOf (repMember x j r) = 0)

/-- Members that hold the live replicas. -/
def liveRepMembers (x : Group) (j : Bytes) : List Nat := (liveReps x j).map (repMember x j)

/-- Member that owns a block (R229). -/
def ownerOf (x : Group) (j : Bytes) (b : Nat) : Option Nat :=
  let n := max 1 (jobRs j)
  (((List.range n).map (fun k => (b + k) % n)).find? (fun r => (liveReps x j).contains r)).map (repMember x j)

/-- A block of this member as a record of a CONTRIB (kind 1) or, with its trailer, of a FINAL (kind 2), under index `k` (R317). -/
def gradBlock (s : State) (y : Job) (kind k j : Nat) : Nat × Bytes × Bytes :=
  let row := (y.row s j).1
  (k, byteSlice row 0 4096, byteSlice row 4096 64 ++ if kind = 2 then (y.trailer s j).bytes else [])

/-- Blocks to send, by kind, block and whether the local sum is poisoned, cut into runs that one unit covers: consecutive blocks of
one kind; a block that is dropped stands alone. -/
def joinOwed (l : List (Nat × Nat × Bool)) : List (List (Nat × Nat × Bool)) :=
  l.foldr (fun e a =>
    match a with
    | (f :: p) :: q => if e.1 = f.1 && e.2.1 + 1 = f.2.1 && !e.2.2 && !f.2.2 then (e :: f :: p) :: q else [e] :: a
    | _ => [e] :: a) []

/-- Send blocks to a member, ascending: of kind 1 this member's local sums for their owner, of kind 2 FINAL data (R238, R316). -/
def sendOwed (g i : Nat) (r : CollRun) (y : Job) (l : List (Nat × Nat)) (s : State) : State :=
  let l := l.map (fun e => (e.1, e.2, decide (e.1 = 1) && (y.row s e.2).2))
  let s := (joinOwed l).foldl (fun s p =>
    match p with
    | [] => s
    | e :: _ =>
      if e.2.2 then sendRecs g i r 1 (y.first + e.2.1) (fun m => { m with dropped := true }) [] false s
      else sendRecs g i r e.1 (y.first + e.2.1) id (p.map (fun f => gradBlock s y f.1 (f.2.1 - e.2.1) f.2.1)) false s) s
  l.foldl (fun s e =>
    let t := y.trailer s e.2.1
    if e.1 = 1 && t.st = 0 then y.setTrailer e.2.1 { t with st := 1 } s else s) s

/-- Send the shard sum to a member (R239). -/
def sendNorm (g i : Nat) (x : Group) (r : CollRun) (s : State) : State :=
  let t := (ctxGet s x.ctx).train
  let k := jobShard t.job
  sendColl x i r.cmd 8 { collMsg g x r.run with unit := k, digest := mapGet 0#64 t.norms k } s

/-- Once every block of the shard is FINAL: form the shard sum and send it (R239). -/
def gradEnd (g : Nat) (s : State) : State :=
  match groupGet s g with
  | none => s
  | some x =>
    let t := (ctxGet s x.ctx).train
    match x.run with
    | none => s
    | some r =>
      if t.gradDone || !gradFinal s x.ctx then s else
        let y := jobOf s x.ctx
        let sum := (List.range y.n).foldl (fun a j => rne64 (vadd (dec64 a) (dec32 (y.trailer s j).sumsq))) 0#64
        let k := jobShard t.job
        let s := ctxMod x.ctx (fun c => { c with train := { c.train with
          gradDone := true, norms := if (mapFind c.train.norms k).isSome then c.train.norms else mapInsert c.train.norms k sum } }) s
        (r.ready.filter (fun i => x.stateOf i = 0)).foldl (fun s i => sendNorm g i x r s) s

/-- Members recorded as landed into a block. -/
def landedAt (s : State) (g b : Nat) : List Nat := (((groupGet s g).bind (·.run)).map (fun r => mapGet [] r.landed b)).getD []

/-- Finish a block once every live replica has landed (R238); `tellFinals` sends it. Without a contributor the factor 1 ÷ COUNT is
no number the spec states. -/
def gradCheck (g j : Nat) (s : State) : State :=
  match groupGet s g with
  | none => s
  | some x =>
    match x.run with
    | none => s
    | some _ =>
      let tr := (ctxGet s x.ctx).train
      let y := jobOf s x.ctx
      let b := y.first + j
      let t := y.trailer s j
      let reps := liveRepMembers x tr.job
      if t.step ≠ tr.step || t.st ≠ 2 || !(reps.all (landedAt s g b).contains) then s
      else
        let f := if t.count = 0 then drawFree s else ((recipNat32 t.count).toNat, s)
        let s := f.2
        let d := rowVals 2 2048 (y.row s j).1 {}
        let sc := scaleRow (BitVec.ofNat 32 f.1) d.1 d.2
        let e := rowEnc 2 (y.key tr.step b) 0 sc.1 sc.2
        let sq := (rowVals 2 2048 e.1 {}).1.foldl (fun (a : BitVec 32 × Tally × Nat) v =>
          let p := mulT a.2.2 v v a.2.1
          let q := addT a.2.2 a.1 p.1 p.2
          (q.1, q.2, a.2.2 + 1)) (0#32, e.2, 0)
        let s := y.setTrailer j { t with st := 3, sumsq := sq.1 } (y.setRow j e.1 s)
        let s := engineNote x.ctx (y.engine s b) b sq.2.1 s
        if t.count < jobRs tr.job then trainUp x.ctx 3 1 s else s

/-- Blocks of the shard that are FINAL, or further, in the open step. -/
def finalsNow (s : State) (c : Nat) : List Nat :=
  let x := jobOf s c
  let n := (ctxGet s c).train.step
  (List.range x.n).filter (fun j => let t := x.trailer s j; t.step = n && 3 ≤ t.st)

/-- Send the blocks of this member that have become FINAL to every other replica that is ready for them, but not back to `skip`
(R238, R247). -/
def tellFinals (g : Nat) (was : List Nat) (skip : Option Nat) (s : State) : State :=
  match groupGet s g with
  | none => s
  | some x =>
    match x.run with
    | none => s
    | some r =>
      let tr := (ctxGet s x.ctx).train
      let y := jobOf s x.ctx
      let fresh := (finalsNow s x.ctx).filter (fun j => !was.contains j && ownerOf x tr.job (y.first + j) = some x.own)
      ((liveRepMembers x tr.job).filter (fun i => i ≠ x.own && skip ≠ some i && r.ready.contains i)).foldl
        (fun s i => sendOwed g i r y (fresh.map (fun j => (2, j))) s) s

/-- Take up a block this member owns: its own local sum counts 1, or 0 where it is poisoned or where the reduction
of it was cut off (R238, R316, R370). -/
def gradOwn (g j : Nat) (cut : Bool) (s : State) : State :=
  match groupGet s g with
  | none => s
  | some x =>
    let tr := (ctxGet s x.ctx).train
    let y := jobOf s x.ctx
    let t := y.trailer s j
    let row := y.row s j
    let s :=
      if t.step ≠ tr.step then y.setTrailer j { step := tr.step, st := 2, count := 1 } (y.setRow j (freshRow tr.step).row s)
      else if row.2 || (cut && t.st = 2) then
        y.setTrailer j { t with st := 2, count := 0 } (y.setRow j (freshRow tr.step).row s)
      else y.setTrailer j { t with st := 2, count := 1 } s
    gradCheck g j (runSet g (fun r => { r with landed := mapInsert r.landed (y.first + j) [x.own] }) s)

/-- A block that this member does not own and that no landing touched in the step holds zeros. -/
def gradFresh (y : Job) (step j : Nat) (s : State) : State :=
  if (y.trailer s j).step = step then s else y.setTrailer j { step := step } (y.setRow j (freshRow step).row s)

/-- Prepare every block at the start of a GRAD run. -/
def gradStart (g : Nat) (s : State) : State :=
  match groupGet s g with
  | none => s
  | some x =>
    let tr := (ctxGet s x.ctx).train
    let y := jobOf s x.ctx
    let s := (List.range y.n).foldl (fun s j =>
      let t := y.trailer s j
      if t.step = tr.step && 3 ≤ t.st then s
      else if ownerOf x tr.job (y.first + j) = some x.own then gradOwn g j true s
      else gradFresh y tr.step j s) s
    gradEnd g s

/-- What a member is owed once its READY has arrived: this member's sums of the blocks it owns, the FINAL blocks this
member owns, and the shard sum. -/
def gradReady (g i : Nat) (s : State) : State :=
  match groupGet s g with
  | none => s
  | some x =>
    match x.run with
    | none => s
    | some r =>
      let tr := (ctxGet s x.ctx).train
      let y := jobOf s x.ctx
      let fin := finalsNow s x.ctx
      let owed := (List.range y.n).filterMap (fun j =>
        let o := ownerOf x tr.job (y.first + j)
        if o = some i then some (if fin.contains j then 2 else 1, j)
        else if o = some x.own && fin.contains j then some (2, j)
        else none)
      let s := if (liveRepMembers x tr.job).contains i then sendOwed g i r y owed s else s
      if tr.gradDone then sendNorm g i x r s else s

/-- What this member gives replica `i` of the blocks that the excluded member owned (R247): FINAL data of those that it owns now,
and FINAL data or its kept local sums of those that `i` owns now. -/
def owedAfter (x : Group) (gone : Nat) (tr : Train) (y : Job) (fin : List Nat) (i : Nat) : List (Nat × Nat) :=
  let was : Group := { x with members := listSet x.members gone (x.dev gone, 0) }
  (List.range y.n).filterMap (fun j =>
    let b := y.first + j
    let o := ownerOf x tr.job b
    if ownerOf was tr.job b ≠ some gone then none
    else if o = some x.own then (if fin.contains j then some (2, j) else none)
    else if o = some i then some (if fin.contains j then 2 else 1, j)
    else none)

/-- The live replicas' members that have said READY for a run. -/
def readyReps (x : Group) (tr : Train) (r : CollRun) : List Nat :=
  (liveRepMembers x tr.job).filter (fun i => i ≠ x.own && r.ready.contains i)

/-- Where this member's gradient run of the open step has completed, it still gives the other replicas its FINAL data (R247). -/
def gradGive (g gone : Nat) (x : Group) (s : State) : State :=
  let tr := (ctxGet s x.ctx).train
  let y := jobOf s x.ctx
  match x.doneRun with
  | some r =>
    if r.kind ≠ 4 || tr.st ≠ .opened || !tr.gradDone then s
    else (readyReps x tr r).foldl (fun s i => sendOwed g i r y (owedAfter x gone tr y (finalsNow s x.ctx) i) s) s
  | none => s

/-- Ownership after an exclusion (R247): each live replica gives the new owner of a block the excluded member owned
its FINAL data, or its kept local sum; a new owner takes the block up again. -/
def gradChange (g gone : Nat) (s : State) : State :=
  match groupGet s g with
  | none => s
  | some x =>
    match x.run with
    | none => gradGive g gone x s
    | some r =>
      if r.kind ≠ 4 then s else
        let tr := (ctxGet s x.ctx).train
        let y := jobOf s x.ctx
        let was : Group := { x with members := listSet x.members gone (x.dev gone, 0) }
        let fin := finalsNow s x.ctx
        let s := (List.range y.n).foldl (fun s j =>
          let b := y.first + j
          if ownerOf was tr.job b ≠ some gone then gradCheck g j s
          else if ownerOf x tr.job b = some x.own && !fin.contains j then gradOwn g j false s
          else s) s
        let s := (readyReps x tr r).foldl (fun s i => sendOwed g i r y (owedAfter x gone tr y fin i) s) (tellFinals g fin none s)
        gradEnd g s

/-! ### Starting a run (R308, R310) -/

/-- What a member is owed of a run other than GRAD once its READY has arrived: this member's data, and the chunks it has
finished (R311, R312). A member that runs the command again says READY again (log 32). -/
def dataFor (g i : Nat) (s : State) : State :=
  match groupGet s g with
  | none => s
  | some x =>
    match x.run with
    | none => s
    | some r =>
      (List.range r.chunks).foldl (fun s u =>
        if r.reduces then
          (if r.owner u = i then sendChunk g i x r 1 u s
           else if r.kind = 0 && r.owner u = x.own && r.written.contains (unitKey u 0) then
            let n := r.chunkLen u
            let bad := r.poisoned.contains u
            let data := (peekVa s x.ctx (r.place x.own u) n).1
            let blocks := (blocksOf n).map (fun b => (b.1, byteSlice data (4096 * b.1) b.2, ([] : Bytes)))
            sendRecs g i r 2 u (fun m => { m with count := mapGet 0 r.counts u, poisoned := bad }) (if bad then [] else blocks) false s
           else s)
        else if r.kind = 2 || r.root = x.own then sendChunk g i x r 3 u s
        else s) s

/-- A member's READY for the run in progress: a digest that differs ends the run; otherwise data may go to it. -/
def onReady (g i : Nat) (digest : BitVec 64) (s : State) : State :=
  match groupGet s g with
  | none => s
  | some x =>
    match x.run with
    | none => s
    | some r =>
      if digest ≠ listDigest g x then endRunPlain g stParam s
      else
        let again := r.ready.contains i
        let s := runSet g (fun q => if again then q else { q with ready := q.ready ++ [i] }) s
        let s := if r.kind = 4 then gradReady g i s else dataFor g i s
        runCheck g s

/-- Start the run that a group holds: its starting content, READY to every other LIVE member, and the READYs that came
before it. -/
def runStart (g : Nat) (s : State) : State :=
  match groupGet s g with
  | none => s
  | some x =>
    match x.run with
    | none => s
    | some r =>
      let s :=
        if r.kind = 4 then gradStart g s
        else (List.range r.chunks).foldl (fun s u =>
          if r.reduces then (if r.owner u = x.own then startChunk g u s else s)
          else if r.kind = 2 || r.root = x.own then copyOwn g u s else s) s
      let s := (r.live.filter (· ≠ x.own)).foldl (fun s i =>
        sendColl x i r.cmd 0 { collMsg g x r.run with digest := listDigest g x } s) s
      let early := x.early.filter (fun e => e.1 = r.run % 65536)
      let s := groupMod g (fun y => { y with early := y.early.filter (fun e => e.1 ≠ r.run % 65536) }) s
      runCheck g (early.foldl (fun s e => onReady g e.2.1 e.2.2 s) s)

/-! ### Messages of a run (R302, R310 to R316, R322) -/

/-- How a COLL_STEP message stands: refused, discarded, or of member `i` for the group. -/
def collFrom (s : State) (m : CollMsg) : Option Group :=
  match groupGet s m.group with
  | some x => if ctxExists s x.ctx then some x else none
  | none => none

/-- Only LIVE members send and take COLL_STEP messages (T11.1): any other is discarded. -/
def collStale (x : Group) (m : CollMsg) : Bool := x.stateOf m.member ≠ 0 || x.stateOf x.own ≠ 0 || x.dev m.member ≠ m.hdr.src

/-- Discard a COLL_STEP message; one of an EXCLUDED member is counted (R331). -/
def dropStale (x : Group) (m : CollMsg) (s : State) : State :=
  if x.stateOf m.member = 2 && x.stateOf x.own = 0 && x.dev m.member = m.hdr.src then collUp m.group 8 1 s else s

/-- A message for a run that is not in progress is discarded, and counted where that run was abandoned (R315, R331). -/
def noteStale (m : CollMsg) (x : Group) (s : State) : State := if x.gone.contains m.run then collUp m.group 8 1 s else s

/-- Receive a message for the run it names: `k` gets the group and the run. -/
def collIn (row : Instr) (m : CollMsg) (k : Group → CollRun → State → State × Option Bool) (s : State) : State :=
  receive row m.hdr 1 (fun s =>
    match collFrom s m with
    | none => (s, some true)
    | some x =>
      if collStale x m then (dropStale x m s, some false)
      else match x.run with
        | some r => if r.run % 65536 = m.run then k x r s else (noteStale m x s, some false)
        | none => (noteStale m x s, some false)) s

/-- Do `k` once ranges are resident; until then the message waits (R153). On a page of `must` that is lost do `lost` (R203, log
75); a lost page of `may` reads as poisoned. -/
def whenHere (c : Nat) (must may : List Span) (lost : State → State × Option Bool) (s : State)
    (k : State → State × Option Bool) : State × Option Bool :=
  match must.findSome? (fun r => firstAbsent s c r.1 r.2.1 r.2.2) with
  | some a => if pageGivenUp a.1 a.2 s then lost s else (demandPage c a.1 a.2 none s, none)
  | none =>
    match may.findSome? (fun r => (firstAbsent s c r.1 r.2.1 r.2.2).filter (fun a => !pageGivenUp a.1 a.2 s)) with
    | some a => (demandPage c a.1 a.2 none s, none)
    | none => k s

/-- The ranges a run reads and writes on this member. -/
def runRanges (x : Group) (r : CollRun) : List Span :=
  let n := r.bytes
  (if r.kind = 3 && r.root ≠ x.own then [] else [(r.src, n, false)])
    ++ [(r.dst, if r.kind = 2 then n * r.live.length else n, true)]
    ++ (if r.reduces && r.fmt = 0 then [(r.acc, 2 * n, true)] else [])

/-- What a member's run needs resident to go on: its ranges, or the reduction buffer, and the base it codes against. -/
def runNeeds (s : State) (x : Group) (r : CollRun) : List Span :=
  (if r.kind = 4 then (jobOf s x.ctx).buffer else runRanges x r) ++ runBase s x r

/-- The base words that the coded records of a message are decoded with (R322). -/
def recBases (s : State) (x : Group) (r : CollRun) (m : CollMsg) (ext : Nat) : List Span :=
  m.records.filterMap (fun bs =>
    let t := (parseRec bs ext).1
    match mapFind x.bases t.base with
    | some b => if t.coded && b.isSet then (baseAt s x r b m.unit t.index (32 * t.units)).map (fun va => (va, 32 * t.units, false)) else none
    | none => none)

/-- Take the records of a message in turn: `put` applies one. -/
def takeAll (x : Group) (r : CollRun) (m : CollMsg) (ext : Nat) (put : Nat → Bytes → Bytes → State → State) (s : State) : State :=
  let y := m.records.foldl (fun (a : List (Nat × Nat) × State) bs =>
    let t := takeRec a.2 x r m.member m.unit ext bs
    match t.2 with
    | .inl reason => (a.1 ++ [(t.1, reason)], a.2)
    | .inr d => (a.1, put t.1 d.1 d.2 a.2)) ([], s)
  askResend m.group m.member m.unit y.1 y.2

/-- The blocks of a unit applied so far from a member. -/
def appliedMask (s : State) (g k : Nat) : Nat := (((groupGet s g).bind (·.run)).map (fun r => mapGet 0 r.applied k)).getD 0

/-- Note a block as applied. -/
def markApplied (g k idx : Nat) (s : State) : State :=
  runSet g (fun r => { r with applied := mapMod 0 r.applied k (fun v => if bitOf v idx then v else v + 2 ^ idx) }) s

/-- CONTRIB of a reduction at a chunk's owner. -/
def contribChunk (m : CollMsg) (x : Group) (r : CollRun) (s : State) : State × Option Bool :=
  let g := m.group
  let u := m.unit
  let n := r.chunkLen u
  if !r.reduces || r.chunks ≤ u || r.owner u ≠ x.own || !r.live.contains m.member || (mapGet [] r.landed u).contains m.member then (s, some false)
  else
    whenHere x.ctx [(r.accAt u 0, if r.fmt = 0 then 2 * n else n, true), (r.place x.own u, n, true)] (runBase s x r ++ recBases s x r m 0)
        (fun s => (runCheck g (countChunk g u m.member true s), some false)) s (fun s =>
      if m.poisoned then (runCheck g (countChunk g u m.member true s), some false) else
      let k := unitKey u m.member
      let s := takeAll x r m 0 (fun idx raw _ s =>
        if bitOf (appliedMask s g k) idx then s else markApplied g k idx (landBlock x r u idx raw s)) s
      let s := if appliedMask s g k = 2 ^ (blocksOf n).length - 1 then countChunk g u m.member false s else s
      (runCheck g s, some false))

/-- FINAL or DATA: write blocks at their place in DST (R311, R312, R314). -/
def putChunk (m : CollMsg) (x : Group) (r : CollRun) (s : State) : State × Option Bool :=
  let g := m.group
  let u := m.unit
  let n := r.chunkLen u
  let va := r.place m.member u
  let w := if r.kind = 2 then unitKey u m.member else unitKey u 0
  if r.chunks ≤ u || r.written.contains w then (s, some false)
  else
    whenHere x.ctx [(va, n, true)] (recBases s x r m 0) (fun s =>
        (runCheck g (runSet g (fun q => { q with written := q.written ++ [w], poisoned := q.poisoned ++ [u] }) s), some false)) s
      (fun s =>
      if m.poisoned then
        (runCheck g (runSet g (fun q => { q with written := q.written ++ [w], poisoned := q.poisoned ++ [u] })
          (poisonChunk x.ctx va n s)), some false)
      else
        let k := unitKey u m.member
        let s := takeAll x r m 0 (fun idx raw _ s =>
          markApplied g k idx (writeVa x.ctx (va + 4096 * idx) raw 0 false s).2) s
        let s := if appliedMask s g k = 2 ^ (blocksOf n).length - 1 then
            runSet g (fun q => { q with written := q.written ++ [w] }) s else s
        (runCheck g s, some false))

/-- Land a replica's local sum into a block this member owns (R235, R238). -/
def landGrad (y : Job) (j step : Nat) (raw ext : Bytes) (s : State) : State :=
  let t := y.trailer s j
  let vals := rowVals 2 2048 (raw ++ ext) {}
  let a := landVals (clampBound y.job) (y.key step (y.first + j)) 0 vals.1 { row := (y.row s j).1, t := t, tally := vals.2 }
  y.putLand j { a with t := { a.t with count := satAdd 16 a.t.count 1 } } s

/-- A replica's contribution to block `b`: its record, or none where it is dropped (R238, R316, R370). -/
def gradIn (m : CollMsg) (x : Group) (r : CollRun) (b : Nat) (rec_ : Option (Bytes × Bytes)) (s : State) : State :=
  let g := m.group
  let tr := (ctxGet s x.ctx).train
  let y := jobOf s x.ctx
  let j := b - y.first
  let t := y.trailer s j
  if b < y.first || y.n ≤ j || ownerOf x tr.job b ≠ some x.own || !(liveRepMembers x tr.job).contains m.member then s
  else if (landedAt s g b).contains m.member then zlBump (zcPeer m.hdr.src 1) 1 s
  else if t.step = tr.step && 3 ≤ t.st then sendOwed g m.member r y [(2, j)] s
  else
    let s := match rec_ with
      | some d => landGrad y j tr.step d.1 d.2 s
      | none => s
    gradCheck g j (runSet g (fun q => { q with landed := mapMod [] q.landed b (· ++ [m.member]) }) s)

/-- The reduction-buffer blocks that a GRAD message names. -/
def gradRange (y : Job) (m : CollMsg) : List Span := [(y.gAt (m.unit - y.first), 4224 * max 1 m.records.length, true)]

/-- CONTRIB of a GRAD run. -/
def contribGrad (m : CollMsg) (x : Group) (r : CollRun) (s : State) : State × Option Bool :=
  whenHere x.ctx (gradRange (jobOf s x.ctx) m) (runNeeds s x r ++ recBases s x r m 64) (fun s => (s, some true)) s (fun s =>
    let was := finalsNow s x.ctx
    let s := if m.dropped then gradIn m x r m.unit none s
      else takeAll x r m 64 (fun idx raw ext s => gradIn m x r (m.unit + idx) (some (raw, ext)) s) s
    (runCheck m.group (gradEnd m.group (tellFinals m.group was none s)), some false))

/-- FINAL data of a block overwrite it (R238). -/
def finalIn (x : Group) (b : Nat) (raw ext : Bytes) (s : State) : State :=
  let tr := (ctxGet s x.ctx).train
  let y := jobOf s x.ctx
  let j := b - y.first
  let t := y.trailer s j
  if b < y.first || y.n ≤ j || (t.step = tr.step && 3 ≤ t.st) then s
  else y.setTrailer j (readTrailer (byteSlice ext 64 64)) (y.setRow j (raw ++ byteSlice ext 0 64) s)

/-- FINAL of a GRAD run: an owner passes the data on (R247). -/
def finalGrad (m : CollMsg) (x : Group) (r : CollRun) (s : State) : State × Option Bool :=
  whenHere x.ctx (gradRange (jobOf s x.ctx) m) (runNeeds s x r ++ recBases s x r m 128) (fun s => (s, some true)) s (fun s =>
    let was := finalsNow s x.ctx
    let s := takeAll x r m 128 (fun idx raw ext s => finalIn x (m.unit + idx) raw ext s) s
    (runCheck m.group (gradEnd m.group (tellFinals m.group was (some m.member) s)), some false))

/-- Send the named blocks of a unit again, stored (R322). -/
def resendBlocks (m : CollMsg) (x : Group) (r : CollRun) (s : State) : State :=
  let g := m.group
  let i := m.member
  let u := m.unit
  let idxs := maskList m.mask 16
  if r.kind = 4 then
    let y := jobOf s x.ctx
    idxs.foldl (fun s k =>
      let j := u + k - y.first
      let row := (y.row s j).1
      let t := y.trailer s j
      if ownerOf x y.job (u + k) = some i && t.st < 3 then
        sendRecs g i r 1 u id [(k, byteSlice row 0 4096, byteSlice row 4096 64)] true s
      else sendRecs g i r 2 u id [(k, byteSlice row 0 4096, byteSlice row 4096 64 ++ t.bytes)] true s) s
  else
    let mine := r.reduces && r.owner u = x.own
    let kind := if !r.reduces then 3 else if mine then 2 else 1
    let va := if mine then r.place x.own u else r.src + 65536 * u
    let bs := ((blocksOf (r.chunkLen u)).filter (fun b => idxs.contains b.1)).map (fun b =>
      (b.1, (peekVa s x.ctx (va + 4096 * b.1) b.2).1, ([] : Bytes)))
    sendRecs g i r kind u (fun q => { q with count := if mine then mapGet 0 r.counts u else 0 }) bs true s

end Sys2Proof.Machine
end

