-- ==== Sys2Proof/Machine/Groups.lean ====
section
/-!
DEFINITION. Collective groups (spec/11_collectives_delta_coding.md R302 to R331): COLL_GROUP, COLL_RUN, code tables,
bases, membership changes and the messages of a group; and what a change of membership does to a training job
(spec/09_training_steps.md R247, R258).
-/

namespace Sys2Proof.Machine

/-! ### Lead and barrier (R303, R306) -/

/-- The leader: the lowest-indexed LIVE member. -/
def Group.leader (x : Group) : Option Nat := x.liveList.head?

/-- Send a MEMBER message to a device. -/
def sendMem (x : Group) (g dev kind : Nat) (m : MemMsg) (s : State) : State :=
  sendMsg dev { mtype := 0x11, ctx := x.ctx, group := g, head := memHead kind m } s

/-- A MEMBER message of this member about a member. -/
def memMsg (g : Nat) (x : Group) (member dev ns : Nat) : MemMsg :=
  { hdr := noHdr, group := g, view := x.view, member := member, device := dev, newState := ns, step := 0,
    digest := listDigest g x, mismatch := false }

/-- Send RELEASE once every LIVE member of the view has arrived (R306, R246). -/
def barrierTest (g : Nat) (s : State) : State :=
  match groupGet s g with
  | none => s
  | some x =>
    let live := x.liveList
    if x.leader ≠ some x.own || !(live.all (fun i => (mapFind x.arrivals i).isSome)) || live.isEmpty then s
    else
      let steps := live.map (fun i => mapGet 0 x.arrivals i)
      let step := steps.headD 0
      let bad := steps.any (· ≠ step)
      let s := groupSet g { x with arrivals := [], released := some (step, bad) } s
      (live.filter (· ≠ x.own)).foldl (fun s i =>
        sendMem x g (x.dev i) 6 { memMsg g x i 0 0 with step := step, mismatch := bad } s) s

/-- Arrive at the barrier: with the leader, or by message (R306). -/
def barrierArrive (g step : Nat) (s : State) : State :=
  match groupGet s g with
  | none => s
  | some x =>
    match x.leader with
    | none => s
    | some l =>
      if l = x.own then barrierTest g (groupSet g { x with arrivals := mapInsert x.arrivals x.own step } s)
      else sendMem x g (x.dev l) 5 { memMsg g x x.own 0 0 with step := step } s

/-! ### The job when membership changes (R229, R247, R258) -/

/-- Shard of a member of the job's group. -/
def memberShard (x : Group) (j : Bytes) (i : Nat) : Nat :=
  if (List.range (jobRs j)).any (fun r => repMember x j r = i) then jobShard j else Config.shardOf (jobField j 0 4) i

/-- Every shard is whole (R229): each of its replicas is a LIVE member that holds its committed state. Each member holds
one shard, and the replicas of this member's own are known by index. -/
def allWhole (x : Group) (t : Train) : Bool :=
  x.members.all (fun m => m.2 = 0) && (liveReps x t.job).length = jobRs t.job && t.hollow.isEmpty

/-- Add a phase-timing record (R248, T9.5): 64 are kept. The barrier wait ends at the release. -/
def phaseRecord (c members resolved outcome : Nat) (w : Commit) (s : State) : State :=
  ctxMod c (fun x =>
    let t := x.train
    let p (k : Nat) : Nat := mapGet 0 t.phases k
    let r := BitVec.ofNat 512 (fieldAt t.tBegin 64 448 + fieldAt s.clk.ltc 64 384 + fieldAt t.step 32 352 + fieldAt (p 1) 40 312
      + fieldAt (p 2) 40 272 + fieldAt (p 3) 40 232 + fieldAt (p 4) 40 192 + fieldAt (p 5) 40 152
      + fieldAt (w.released.getD s.clk.ltc - w.since) 40 112 + fieldAt members 16 96 + fieldAt (min resolved 65535) 16 80 + fieldAt outcome 8 72)
    { x with train := { t with ring := (ringPush 64 t.ring r).1 } }) s

/-- The context enters BROKEN (R247, R250, R251, R259): a commit that waits and a gradient run end with `status`; `resolved`
blocks had been resolved before (R248). -/
def breakAfter (c status resolved : Nat) (s : State) : State :=
  let t := (ctxGet s c).train
  let g := jobGroup t.job
  let s := match t.commit with
    | some w =>
      let n := ((groupGet s g).map (fun x => x.liveList.length)).getD 0
      finishJ w.cmd status [] (phaseRecord c n resolved 2 w s)
    | none => s
  let s := match (groupGet s g).bind (·.run) with
    | some r => if r.kind = 4 then endRunPlain g stPeerLost s else s
    | none => s
  ctxMod c (fun x => { x with train := { x.train with st := .broken, commit := none } }) s

def breakJob (c status : Nat) (s : State) : State := breakAfter c status 0 s

/-- Note whether a member that becomes LIVE holds its shard's committed state: one that was JOINING has been filled, one that
was EXCLUDED has not (R229, R258). -/
def noteHollow (member was ns : Nat) (l : List Nat) : List Nat :=
  let rest := l.filter (· ≠ member)
  if ns = 0 && was = 2 then rest ++ [member] else rest

/-- What a change of a member's state does to the job of the group's context; `was` is the state it leaves. -/
def jobChange (g member was ns : Nat) (s : State) : State :=
  match groupGet s g with
  | none => s
  | some x =>
    let t := (ctxGet s x.ctx).train
    let hollow := noteHollow member was ns t.hollow
    let s := if jobGroup t.job ≠ g then s else ctxMod x.ctx (fun y => { y with train := { y.train with hollow := hollow } }) s
    if t.st = .none || t.st = .broken || jobGroup t.job ≠ g then s
    else if ns = 2 && member = x.own then
      let s := match t.commit with
        | some w => finishJ w.cmd stPeerLost [] (ctxMod x.ctx (fun y => { y with train := { y.train with commit := none } }) s)
        | none => s
      match x.run with
      | some r => if r.kind = 4 then endRunPlain g stPeerLost s else s
      | none => s
    else if ns = 2 then
      let k := memberShard x t.job member
      if !(x.liveList.any (fun i => memberShard x t.job i = k)) then breakJob x.ctx stPeerLost s
      else
        let s := gradChange g member s
        if t.st = .idle then ctxMod x.ctx (fun y => { y with train := { y.train with st := .repair } }) (runCheck g s)
        else runCheck g s
    else if t.st = .repair && allWhole x { t with hollow := hollow } then ctxMod x.ctx (fun y => { y with train := { y.train with st := .idle } }) s
    else s

/-! ### Code tables (R327 to R330) -/

/-- A message that names a generation waits for its acknowledgement at a peer. -/
def genInUse (s : State) (g : Nat) (x : Group) (i gen : Nat) : Bool :=
  let p := peerGet s (x.dev i)
  (p.out ++ p.backlog).any (fun m => m.mtype = 0x10 && m.group = g && m.gens.contains gen)

/-- End a load once every LIVE member has the table, which this member sends with from then on (R328, R369). -/
def loadEnd (g : Nat) (s : State) : State :=
  match groupGet s g with
  | none => s
  | some x =>
    match x.load with
    | some l =>
      if l.left.isEmpty then
        finishJ l.cmd stSuccess [] (groupSet g { x with load := none, current := some l.gen, tables := mapInsert x.tables l.gen l.table } s)
      else s
    | none => s

/-- Step 2 of R328 for each member whose messages of the old generation are all acknowledged. -/
def loadStep (g : Nat) (s : State) : State :=
  match groupGet s g with
  | none => s
  | some x =>
    match x.load with
    | none => s
    | some l =>
      let s := l.left.foldl (fun s q =>
        if q.2 ≠ 0 || genInUse s g x q.1 l.gen then s
        else
          let s := groupMod g (fun y => { y with
            atPeer := mapMod [] y.atPeer q.1 (fun k => k.filter (· ≠ l.gen))
            load := y.load.map (fun d => { d with left := mapInsert d.left q.1 1 }) }) s
          sendColl x q.1 0 6 { collMsg g x x.nextRun with gen := l.gen } s) s
      loadEnd g s

/-- CODE_TABLE_LOAD (R320, R328). -/
def execCodeTableLoad (q : Fin 512) (seq : Nat) (s : State) : Host.Outcome State Fault Refusal :=
  .next (runCmd s q seq 0x504 true [(0, 5), (16, 16)] (fun c s =>
    let g := c.p 0 4
    let gen := c.p 4 1
    let table := c.bytes 16 16
    match groupGet s g with
    | none => refuse c stParam s
    | some x =>
      if x.ctx ≠ c.ctx then refuse c stParam s
      else if x.liveList.isEmpty || x.stateOf x.own = 2 then refuse c stPeerLost s
      else if 4 ≤ gen || !tableOk table || x.current = some gen || x.stateOf x.own ≠ 0 then refuse c stParam s
      else if x.load.isSome then refuse c stNotReady s
      else
        let left : FMap Nat := (x.liveList.filter (· ≠ x.own)).map (fun i => (i, 0))
        loadStep g (groupSet g { x with load := some ⟨c.jidx, gen, table, left⟩ } (begun c s))))

/-- Receive a message about code tables from a LIVE member. -/
def tableIn (row : Instr) (m : CollMsg) (k : Group → State → State) (s : State) : State :=
  receive row m.hdr 1 (fun s =>
    match collFrom s m with
    | none => (s, some true)
    | some x => if collStale x m then (dropStale x m s, some false) else (k x s, some false)) s

/-- TABLE_RETIRE (R329). -/
def execTableRetire (m : CollMsg) (s : State) : Host.Outcome State Fault Refusal :=
  .next (tableIn (.tableRetire m) m (fun x s =>
    sendColl x m.member 0 7 { collMsg m.group x x.nextRun with gen := m.gen, ackCode := 1 }
      (groupSet m.group { x with slots := mapErase x.slots (4 * m.member + m.gen % 4) } s)) s)

/-- TABLE_LOAD (R329). -/
def execTableLoad (m : CollMsg) (s : State) : Host.Outcome State Fault Refusal :=
  .next (tableIn (.tableLoad m) m (fun x s =>
    let k := 4 * m.member + m.gen % 4
    let taken := (mapFind x.slots k).isSome
    let s := if taken then s else groupSet m.group { x with slots := mapInsert x.slots k (byteSlice m.records.flatten 0 16) } s
    sendColl x m.member 0 7 { collMsg m.group x x.nextRun with gen := m.gen, ackCode := if taken then 2 else 0 } s) s)

/-- TABLE_ACK (R328, R329). -/
def execTableAck (m : CollMsg) (s : State) : Host.Outcome State Fault Refusal :=
  .next (tableIn (.tableAck m) m (fun x s =>
    let g := m.group
    let i := m.member
    let inLoad := x.load.any (fun l => l.gen = m.gen)
    let stage (v : Nat) (y : Group) : Group := if inLoad then { y with load := y.load.map (fun l =>
      { l with left := if l.left.any (fun q => q.1 = i) then mapInsert l.left i v else l.left }) } else y
    if m.ackCode = 1 then sendTable g x i m.gen (x.tableOf m.gen) (groupSet g (stage 2 x) s)
    else if m.ackCode = 0 then
      let y := { x with atPeer := mapMod [] x.atPeer i (fun k => k.filter (· ≠ m.gen) ++ [m.gen]) }
      loadEnd g (groupSet g (if inLoad then { y with load := y.load.map (fun l => { l with left := mapErase l.left i }) } else y) s)
    else if inLoad then loadStep g (groupSet g (stage 0 x) s)
    else sendColl x i 0 6 { collMsg g x x.nextRun with gen := m.gen } s) s)

/-! ### Changes of view (R303 to R305, R315) -/

/-- End the commands that wait for a change (R304). -/
def endAsking (g member ns : Nat) (s : State) : State :=
  match groupGet s g with
  | none => s
  | some x =>
    let mine := x.asking.filter (fun a => a.2.1 = member && a.2.2 = ns)
    let s := groupSet g { x with asking := x.asking.filter (fun a => !(a.2.1 = member && a.2.2 = ns)) } s
    mine.foldl (fun s a => finishJ a.1 stSuccess (natLe 4 x.view) s) s

/-- In a group with no LIVE member left the commands that wait for a change complete with PEER_LOST (R304). -/
def endAll (g : Nat) (s : State) : State :=
  match groupGet s g with
  | none => s
  | some x =>
    if !x.liveList.isEmpty then s
    else x.asking.foldl (fun s a => finishJ a.1 stPeerLost [] s) (groupSet g { x with asking := [] } s)

/-- Abandon a run (R315): messages of it that wait are not sent, and those that arrive are discarded. -/
def abandonRun (g : Nat) (r : CollRun) (s : State) : State :=
  let s := endRunLost g stPeerLost (collUp g 9 1 s)
  let s := { s with zl := { s.zl with peers := s.zl.peers.map (fun kv => (kv.1, { kv.2 with
    backlog := kv.2.backlog.filter (fun m => !(m.mtype = 0x10 && m.group = g && m.run = r.run % 65536 && decide (collKind m < 5))) })) } }
  groupMod g (fun y => { y with gone := insertAsc (r.run % 65536) y.gone }) s

/-- The members that a load in progress waits for after a change: one that becomes LIVE is given the table too, and one that is
excluded is waited for no more (R328). -/
def loadLeft (x : Group) (l : Load) (member ns : Nat) : FMap Nat :=
  if ns = 0 then (if x.stateOf member = 0 || member = x.own then l.left else mapInsert l.left member 0) else mapErase l.left member

/-- Apply a change of view on this member (R303, R247, R315). The streams of a member index that goes to another device start
anew (R327). -/
def applyChange (g view member dev ns : Nat) (s : State) : State :=
  match groupGet s g with
  | none => s
  | some x =>
    let old := x.leader
    let s := match x.run with
      | some r => if r.kind = 4 then s else abandonRun g r s
      | none => s
    let other := x.dev member ≠ dev
    let s := groupMod g (fun y => { y with
      members := listSet y.members member (dev, ns), view := view, lastChange := some (member, dev, ns)
      arrivals := if ns = 2 then mapErase y.arrivals member else y.arrivals
      atPeer := if other then mapErase y.atPeer member else y.atPeer
      slots := if other then mapFilter (fun k _ => k / 4 ≠ member) y.slots else y.slots
      load := y.load.map (fun l => { l with left := loadLeft x l member ns }) }) s
    let s := endAll g (endAsking g member ns (jobChange g member (x.stateOf member) ns (loadStep g s)))
    match groupGet s g with
    | none => s
    | some y =>
      let t := (ctxGet s y.ctx).train
      let s := if y.leader ≠ old && t.commit.isSome && jobGroup t.job = g && y.stateOf y.own = 0 then barrierArrive g t.step s else s
      barrierTest g s

/-- The leader makes a change: it sends it to every LIVE and JOINING member and applies it (R303). -/
def makeChange (g member dev ns : Nat) (s : State) : State :=
  match groupGet s g with
  | none => s
  | some x =>
    let after : Group := { x with members := listSet x.members member (dev, ns), view := x.view + 1 }
    let dests := (List.range x.members.length).filter (fun i => i ≠ x.own && (x.stateOf i ≠ 2 || (i = member && ns ≠ 2)))
    let s := dests.foldl (fun s i => sendMem after g (after.dev i) 2 (memMsg g after member dev ns) s) s
    applyChange g (x.view + 1) member dev ns s

/-- A request at the leader: one that would not alter the view is discarded (R304). -/
def leaderDo (g : Nat) (q : Nat × Nat × Nat) (s : State) : State :=
  match groupGet s g with
  | none => s
  | some x =>
    let ns := q.1
    let i := q.2.1
    if x.members.length ≤ i then s
    else if ns = 2 then (if x.stateOf i = 2 then s else makeChange g i (x.dev i) 2 s)
    else if x.stateOf i = ns && x.dev i = q.2.2 then s
    else makeChange g i q.2.2 ns s

/-- The requests that wait, in order of arrival. -/
def serveRequests (g : Nat) (s : State) : State :=
  match groupGet s g with
  | none => s
  | some x =>
    if x.takeover.isSome then s
    else x.requests.foldl (fun s q => leaderDo g q s) (groupSet g { x with requests := [] } s)

/-- A take-over ends once every member has answered: the highest view's change goes to every member that lacks it,
then the requests are served (R305). -/
def takeoverEnd (g : Nat) (s : State) : State :=
  match groupGet s g with
  | none => s
  | some x =>
    match x.takeover with
    | none => s
    | some t =>
      if !t.left.isEmpty then s else
        let s := groupSet g { x with takeover := none } s
        let s := match t.change with
          | some (member, dev, ns) =>
            let after : Group := { x with members := listSet x.members member (dev, ns), view := t.best }
            let s := t.views.foldl (fun s v =>
              if v.2 < t.best then sendMem after g (x.dev v.1) 2 (memMsg g after member dev ns) s else s) s
            if x.view < t.best then applyChange g t.best member dev ns s else s
          | none => s
        serveRequests g s

/-- Take over the lead from a member that is to be excluded (R305): that one is asked too, but not waited for (log 64). -/
def takeover (g gone : Nat) (s : State) : State :=
  match groupGet s g with
  | none => s
  | some x =>
    let ask := (List.range x.members.length).filter (fun i => i ≠ x.own && x.stateOf i ≠ 2)
    let s := groupSet g { x with takeover := some { left := ask.filter (· ≠ gone), best := x.view, change := x.lastChange } } s
    takeoverEnd g (ask.foldl (fun s i => sendMem x g (x.dev i) 3 (memMsg g x i 0 0) s) s)

/-- Take a request at this member, as leader or as the member that takes the lead over (R304, R305). -/
def takeRequest (g : Nat) (q : Nat × Nat × Nat) (s : State) : State :=
  match groupGet s g with
  | none => s
  | some x =>
    match x.takeover with
    | some t =>
      takeoverEnd g (groupSet g { x with requests := x.requests ++ [q], takeover := some { t with left := if q.1 = 2 then t.left.filter (· ≠ q.2.1) else t.left } } s)
    | none =>
      let s := groupSet g { x with requests := x.requests ++ [q] } s
      if x.leader = some x.own then serveRequests g s
      else if q.1 = 2 && x.leader = some q.2.1 && (x.liveList.filter (· ≠ q.2.1)).head? = some x.own then takeover g q.2.1 s
      else s

/-- Send a request where it goes: to the leader, or past a leader that is to be excluded (R304, R305). -/
def askChange (g jidx ns member dev : Nat) (s : State) : State :=
  match groupGet s g with
  | none => s
  | some x =>
    let live := x.liveList
    let dest := if ns = 2 then ((live.filter (· ≠ member)).head?).or live.head? else live.head?
    match dest with
    | none => finishJ jidx stPeerLost [] s
    | some d =>
      let s := groupSet g { x with asking := x.asking ++ [(jidx, member, ns)] } s
      if d = x.own then
        (if x.leader = some x.own then leaderDo g (ns, member, dev) s else takeRequest g (ns, member, dev) s)
      else sendMem x g (x.dev d) (if ns = 2 then 0 else 1) (memMsg g x member dev ns) s

/-- What a change of view reads: the reduction buffer of a gradient run that goes on, or has ended in the open step, and its base
(R247, R316). -/
def changeNeeds (s : State) (x : Group) : List Span :=
  match x.run.or x.doneRun with
  | some r => if r.kind = 4 && (ctxGet s x.ctx).train.st = .opened then runNeeds s x r else []
  | none => []

/-- EXCLUDE_MEMBER (R247, R304, R305). -/
def execExcludeMember (q : Fin 512) (seq : Nat) (s : State) : Host.Outcome State Fault Refusal :=
  .next (runCmd s q seq 0x603 true [(0, 6)] (fun c s =>
    let g := c.p 0 4
    let i := c.p 4 2
    let st := (ctxGet s c.ctx).train.st
    if st = .broken then refuse c stPeerLost s
    else match groupGet s g with
      | none => refuse c stParam s
      | some x =>
        if x.ctx ≠ c.ctx then refuse c stParam s
        else if x.liveList.isEmpty || x.stateOf x.own = 2 then refuse c stPeerLost s
        else if st = .none || x.members.length ≤ i then refuse c stParam s
        else if x.stateOf i = 2 then finish c stSuccess (natLe 4 x.view) s
        else unhitched c (changeNeeds s x) s (fun s => askChange g c.jidx 2 i (x.dev i) (begun c s))))

/-- Do `k`, which may change the view, once what it needs is resident. -/
def whenChange (x : Group) (s : State) (k : State → State) : State × Option Bool :=
  whenHere x.ctx [] (changeNeeds s x) (fun s => (s, some true)) s (fun s => (k s, some false))

/-- Receive a MEMBER message for a group of this device. -/
def memIn (row : Instr) (m : MemMsg) (k : Group → State → State × Option Bool) (s : State) : State :=
  receive row m.hdr 0 (fun s =>
    match groupGet s m.group with
    | some x => if ctxExists s x.ctx then (if x.stateOf x.own = 2 then (s, some false) else k x s) else (s, some true)
    | none => (s, some true)) s

/-- EXCLUDE_REQ (R304, R305). -/
def execExcludeReq (m : MemMsg) (s : State) : Host.Outcome State Fault Refusal :=
  .next (memIn (.excludeReq m) m (fun x s => whenChange x s (takeRequest m.group (2, m.member, x.dev m.member))) s)

/-- ADMIT_REQ (R304). -/
def execAdmitReq (m : MemMsg) (s : State) : Host.Outcome State Fault Refusal :=
  .next (memIn (.admitReq m) m (fun x s => whenChange x s (takeRequest m.group (m.newState % 2, m.member, m.device))) s)

/-- A member that a change has made the leader serves the requests that came before it (R304). -/
def leadNow (g : Nat) (s : State) : State :=
  match groupGet s g with
  | some x => if x.leader = some x.own && !x.requests.isEmpty then serveRequests g s else s
  | none => s

/-- CHANGE (R303): strictly in view order. A member that has applied no change yet takes the one that admits it. -/
def execViewChange (m : MemMsg) (s : State) : Host.Outcome State Fault Refusal :=
  .next (receive (.viewChange m) m.hdr 0 (fun s =>
    match groupGet s m.group with
    | none => (s, some true)
    | some x =>
      let mine := m.member = x.own && x.lastChange.isNone
      if m.view ≤ x.view && !(mine && x.view = 0 && m.view ≠ 0) then (s, some false)
      else if m.view = x.view + 1 || mine then whenChange x s (fun s => leadNow m.group (applyChange m.group m.view m.member m.device (m.newState % 3) s))
      else (s, none)) s)

/-- VIEW_QUERY (R305): answered with the highest view applied and its change. -/
def execViewQuery (m : MemMsg) (s : State) : Host.Outcome State Fault Refusal :=
  .next (memIn (.viewQuery m) m (fun x s =>
    let c := x.lastChange.getD (x.own, x.dev x.own, x.stateOf x.own)
    (sendMem x m.group m.hdr.src 4 (memMsg m.group x c.1 c.2.1 c.2.2) s, some false)) s)

/-- VIEW_REPLY (R305). -/
def execViewReply (m : MemMsg) (s : State) : Host.Outcome State Fault Refusal :=
  .next (memIn (.viewReply m) m (fun x s =>
    match x.takeover, x.indexOf m.hdr.src with
    | some t, some i => whenChange x s (fun s =>
      let t := { t with left := t.left.filter (· ≠ i), views := mapInsert t.views i m.view }
      let t := if t.best < m.view then { t with best := m.view, change := some (m.member, m.device, m.newState) } else t
      takeoverEnd m.group (groupSet m.group { x with takeover := some t } s))
    | _, _ => (s, some false)) s)

/-- ARRIVE (R306): an arrival of a member that is not LIVE does not count. -/
def execArrive (m : MemMsg) (s : State) : Host.Outcome State Fault Refusal :=
  .next (memIn (.arrive m) m (fun x s =>
    if x.stateOf m.member = 0 && x.dev m.member = m.hdr.src then
      (barrierTest m.group (groupSet m.group { x with arrivals := mapInsert x.arrivals m.member m.step } s), some false)
    else (s, some false)) s)

/-! ### COLL_GROUP (R302, R304, R307) -/

/-- The row of an OP of COLL_GROUP; an unknown OP belongs to the first row. -/
def groupOp (k : Nat) (c : Cmd) : Bool := c.p 0 1 = k || (k = 0 && 4 < c.p 0 1)

/-- COLL_GROUP CREATE (R302). -/
def execCollGroupCreate (q : Fin 512) (seq : Nat) (s : State) : Host.Outcome State Fault Refusal :=
  .next (runSub s q seq 0x502 (groupOp 0) true [(0, 1), (4, 8), (64, 8192)] (fun c s =>
    let g := c.p 4 4
    let n := c.p 8 2
    let own := c.p 10 2
    let e (i : Nat) : Nat := c.p (64 + 2 * i) 2
    if c.p 0 1 ≠ 0 || n = 0 || 4096 < n || n ≤ own || c.params.length < 64 + 2 * n
        || (List.range n).any (fun i => 8192 ≤ e i) || !allZero (c.params.drop (64 + 2 * n)) || (groupGet s g).isSome then
      refuse c stParam s
    else if 64 ≤ s.groups.length || 16 ≤ (s.groups.filter (fun kv => kv.2.ctx = c.ctx)).length then refuse c stResource s
    else
      let x : Group := { ctx := c.ctx, own := own, members := (List.range n).map (fun i => (e i % 4096, e i / 4096)) }
      finish c stSuccess (natLe 8 (listDigest g x).toNat) (groupSet g x s)))

/-- A command on a group that the context holds. -/
def onGroup (c : Cmd) (s : State) (k : Group → State → State) : State :=
  match groupGet s (c.p 4 4) with
  | some x => if x.ctx = c.ctx then k x s else refuse c stParam s
  | none => refuse c stParam s

/-- COLL_GROUP ADMIT (R304). -/
def execCollGroupAdmit (q : Fin 512) (seq : Nat) (s : State) : Host.Outcome State Fault Refusal :=
  .next (runSub s q seq 0x502 (groupOp 1) true [(0, 1), (4, 9)] (fun c s => onGroup c s (fun x s =>
    let i := c.p 8 2
    let dev := c.p 10 2
    if x.liveList.isEmpty || x.stateOf x.own = 2 then refuse c stPeerLost s
    else if x.members.length ≤ i || x.stateOf i ≠ 2 || 4096 ≤ dev || 1 < c.p 12 1 then refuse c stParam s
    else unhitched c (changeNeeds s x) s (fun s => askChange (c.p 4 4) c.jidx (c.p 12 1) i dev (begun c s)))))

/-- COLL_GROUP BIND (R307). -/
def execCollGroupBind (q : Fin 512) (seq : Nat) (s : State) : Host.Outcome State Fault Refusal :=
  .next (runSub s q seq 0x502 (groupOp 2) true [(0, 1), (4, 8)] (fun c s => onGroup c s (fun x s =>
    if x.liveList.isEmpty then refuse c stPeerLost s
    else if (objBase s c.ctx (c.p 8 4)).isNone then refuse c stParam s
    else finish c stSuccess [] (groupSet (c.p 4 4) { x with bound := insertAsc (c.p 8 4) x.bound } s))))

/-- COLL_GROUP UNBIND (R307). -/
def execCollGroupUnbind (q : Fin 512) (seq : Nat) (s : State) : Host.Outcome State Fault Refusal :=
  .next (runSub s q seq 0x502 (groupOp 3) true [(0, 1), (4, 8)] (fun c s => onGroup c s (fun x s =>
    if x.liveList.isEmpty then refuse c stPeerLost s
    else if !x.bound.contains (c.p 8 4) then refuse c stParam s
    else finish c stSuccess [] (groupSet (c.p 4 4) { x with bound := x.bound.filter (· ≠ c.p 8 4) } s))))

/-- The commands that a group still serves end with PEER_LOST as it goes: its run, a table load, the changes asked for, and a commit
that waits at its barrier (R348 leaves the status to the resource, and no rule names one: DESIGN CHOICE, log 64). -/
def endGroup (g : Nat) (x : Group) (s : State) : State :=
  let s := endRunLost g stPeerLost s
  let s := match x.load with
    | some l => finishJ l.cmd stPeerLost [] s
    | none => s
  let s := x.asking.foldl (fun s a => finishJ a.1 stPeerLost [] s) s
  let t := (ctxGet s x.ctx).train
  let s := match t.commit with
    | some w =>
      if jobGroup t.job = g then
        finishJ w.cmd stPeerLost [] (ctxMod x.ctx (fun y => { y with train := { y.train with commit := none } }) s)
      else s
    | none => s
  { s with groups := mapErase s.groups g }

/-- COLL_GROUP DESTROY (R307, R304): the group ends on this member. -/
def execCollGroupDestroy (q : Fin 512) (seq : Nat) (s : State) : Host.Outcome State Fault Refusal :=
  .next (runSub s q seq 0x502 (groupOp 4) true [(0, 1), (4, 4)] (fun c s => onGroup c s (fun x s =>
    finish c (if x.liveList.isEmpty then stPeerLost else stSuccess) [] (endGroup (c.p 4 4) x s))))

/-! ### BASE_SET (R325) -/

/-- BASE_SET (R325, R326): a SHADOW base is unset until the device writes it at a commit. -/
def execBaseSet (q : Fin 512) (seq : Nat) (s : State) : Host.Outcome State Fault Refusal :=
  .next (runCmd s q seq 0x505 true [(0, 12)] (fun c s =>
    let g := c.p 0 4
    let id := c.p 4 1
    let kind := c.p 5 1
    let o := c.p 8 4
    match groupGet s g with
    | none => refuse c stParam s
    | some x =>
      let t := (ctxGet s c.ctx).train
      let shadowBad := t.st = .none || jobGroup t.job ≠ g || (objGet s o).count * pageBytes < 4096 * jobBlocks t.job
      if x.ctx ≠ c.ctx then refuse c stParam s
      else if x.liveList.isEmpty then refuse c stPeerLost s
      else if id = 0xFF || 2 < kind || (kind ≠ 0 && (objBase s c.ctx o).isNone) || (kind = 2 && shadowBad) then refuse c stParam s
      else if x.run.any (fun r => cdF r.desc 456 449 = id) then refuse c stBusy s
      else
        let b : FMap Base := if kind = 0 then mapErase x.bases id
          else mapInsert x.bases id { shadow := decide (kind = 2), object := o, ver := c.p 6 2, isSet := decide (kind = 1) }
        finish c stSuccess [] (groupSet g { x with bases := b } s)))

/-! ### COLL_RUN (R308 to R316) -/

/-- Hold a run in the group under the next run number and start it. -/
def beginRun (c : Cmd) (g : Nat) (x : Group) (s : State) : State :=
  let r : CollRun := { run := x.nextRun, cmd := c.jidx, view := x.view, desc := c.bytes 0 64, live := x.liveList, since := s.clk.ltc }
  runStart g (groupSet g { x with run := some r, nextRun := x.nextRun + 1, gone := x.gone.filter (· ≠ r.run % 65536) } (begun c s))

/-- The descriptor is one its kind accepts (T11.3, R308, R312). -/
def descOk' (x : Group) (r : CollRun) : Bool :=
  cdF r.desc 216 0 = 0 && cdF r.desc 304 257 % 32 = 0 && r.bytes % 32 = 0
    && (if r.reduces then r.rop ≤ 3 && (r.fmt = 0 || r.fmt = 1 || r.fmt = 5) && !(r.rop = 1 && r.fmt = 5)
        else r.rop = 0 && r.fmt ≠ 7)
    && (if r.kind = 3 then r.root < x.members.length && x.stateOf r.root = 0 else r.root = 0)
    && (decide (r.acc = 0) || (r.reduces && r.fmt = 0))

/-- COLL_RUN of a kind other than GRAD (R308 to R315). Replayed, it starts its run again under the number it had (R384, R386). -/
def execCollRun (q : Fin 512) (seq : Nat) (s : State) : Host.Outcome State Fault Refusal :=
  .next (runSub s q seq 0x503 (fun c => c.p 59 1 / 16 ≠ 4) true [(0, 64)] (fun c s =>
    let g := c.p 60 4
    match groupGet s g with
    | none => refuse c stParam s
    | some x =>
      let r : CollRun := { run := 0, cmd := c.jidx, view := x.view, desc := c.bytes 0 64, live := x.liveList }
      let rs := runRanges x r
      if x.ctx ≠ c.ctx then refuse c stParam s
      else if x.liveList.isEmpty || x.stateOf x.own = 2 then refuse c stPeerLost s
      else if 4 < r.kind || x.stateOf x.own ≠ 0 || !descOk' x r || rs.any (fun t => !rangeMapped s c.ctx t.1 t.2.1 t.2.2) then refuse c stParam s
      else if x.run.any (fun y => y.cmd ≠ c.jidx) then s
      else unhitched c rs s (fun s =>
        match x.run with
        | none => beginRun c g x s
        | some y => runStart g (groupSet g { x with run := some { y with
            counts := [], written := [], poisoned := [], applied := [], landed := [], missed := false } } (begun c s)))))

/-- Status of a training command that the context's state does not accept (T9.3). -/
def trainRefusal (st : TrainSt) : Nat :=
  match st with
  | .none => stParam
  | .idle => stNotReady
  | .opened => stNotReady
  | .repair => stPeerLost
  | .broken => stPeerLost

/-- COLL_RUN of kind GRAD (R233, R238, R316, R370): run again after a reset, it keeps its run and its number. -/
def execCollRunGrad (q : Fin 512) (seq : Nat) (s : State) : Host.Outcome State Fault Refusal :=
  .next (runSub s q seq 0x503 (fun c => c.p 59 1 / 16 = 4) true [(0, 64)] (fun c s =>
    let t := (ctxGet s c.ctx).train
    let g := c.p 60 4
    match groupGet s g with
    | none => refuse c (if t.st = .opened then stParam else trainRefusal t.st) s
    | some x =>
        let d := c.bytes 0 64
        if x.ctx = c.ctx && (x.liveList.isEmpty || x.stateOf x.own = 2) then refuse c stPeerLost s
        else if t.st ≠ .opened then refuse c (trainRefusal t.st) s
        else if x.ctx ≠ c.ctx || jobGroup t.job ≠ g || cdF d 475 473 ≠ 0 || cdF d 472 470 ≠ 2 || cdF d 469 458 ≠ 0 || cdF d 448 0 ≠ 0 then
          refuse c stParam s
        else unhitched c (jobOf s c.ctx).buffer s (fun s =>
          match x.run with
          | none => beginRun c g x s
          | some r =>
            if r.kind = 4 && r.cmd = c.jidx then
              r.ready.foldl (fun s i => gradReady g i s) (runStart g (groupSet g { x with run := some { r with applied := [] } } (begun c s)))
            else s)))

/-! ### Messages of runs (R310 to R316, R322, R239) -/

/-- Answer a READY for a run that has completed here with what the member still needs (R310, R384): that run stands in for the one in
progress meanwhile. -/
def readyDone (g : Nat) (x : Group) (d : CollRun) (m : CollMsg) (s : State) : State :=
  if m.digest ≠ listDigest g x || (d.kind = 4 && (ctxGet s x.ctx).train.st ≠ .opened) then s
  else
    let s := groupSet g { x with run := some d } s
    let s := if d.kind = 4 then gradReady g m.member s else dataFor g m.member s
    groupMod g (fun y => { y with run := x.run }) s

/-- A run of this group that has completed here, by its number. -/
def doneOf (x : Group) (run : Nat) : Option CollRun := (x.doneRun.toList ++ x.older).find? (fun r => r.run % 65536 = run)

/-- A run number lies before the next one of the group. -/
def runPast (x : Group) (run : Nat) : Bool :=
  let k := (x.nextRun + 65536 - run) % 65536
  k ≤ 32768 && k ≠ 0

/-- READY (R310): for a run not started here it waits; one for an abandoned run is discarded (R315); for one that has completed
here the member gets what it still needs. -/
def execCollReady (m : CollMsg) (s : State) : Host.Outcome State Fault Refusal :=
  .next (receive (.collReady m) m.hdr 1 (fun s =>
    match collFrom s m with
    | none => (s, some true)
    | some x =>
      let g := m.group
      let now (r : CollRun) (k : State → State) : State × Option Bool :=
        whenHere x.ctx [] (runNeeds s x r) (fun s => (s, some true)) s (fun s => (k s, some false))
      if collStale x m then (dropStale x m s, some false)
      else match x.run.filter (fun r => r.run % 65536 = m.run) with
        | some r => now r (onReady g m.member m.digest)
        | none =>
          if x.gone.contains m.run then (noteStale m x s, some false)
          else match doneOf x m.run with
            | some d => now d (readyDone g x d m)
            | none =>
              if runPast x m.run then (s, some false)
              else (groupSet g { x with early := x.early ++ [(m.run, m.member, m.digest)] } s, some false)) s)

/-- CONTRIB (R311, R316). -/
def execContrib (m : CollMsg) (s : State) : Host.Outcome State Fault Refusal :=
  .next (collIn (.contrib m) m (fun x r s => if r.kind = 4 then contribGrad m x r s else contribChunk m x r s) s)

/-- FINAL (R311, R238). -/
def execCollFinal (m : CollMsg) (s : State) : Host.Outcome State Fault Refusal :=
  .next (collIn (.collFinal m) m (fun x r s => if r.kind = 4 then finalGrad m x r s else if r.kind = 0 then putChunk m x r s else (s, some false)) s)

/-- DATA (R312). -/
def execCollData (m : CollMsg) (s : State) : Host.Outcome State Fault Refusal :=
  .next (collIn (.collData m) m (fun x r s =>
    if r.kind = 2 || (r.kind = 3 && m.member = r.root) then putChunk m x r s else (s, some false)) s)

/-- RESEND_REQ (R322), also for a run that has completed here. -/
def execResendReq (m : CollMsg) (s : State) : Host.Outcome State Fault Refusal :=
  .next (receive (.resendReq m) m.hdr 1 (fun s =>
    match collFrom s m with
    | none => (s, some true)
    | some x =>
      let g := m.group
      let hit (r : CollRun) : Bool := r.run % 65536 = m.run
      if collStale x m then (dropStale x m s, some false)
      else match (x.run.filter hit).or (doneOf x m.run) with
        | some r => whenHere x.ctx [] (runNeeds s x r) (fun s => (s, some true)) s (fun s =>
            let miss := (List.range 16).any (fun k => bitOf m.mask k && m.reasons / 4 ^ k % 4 < 2)
            let s := runSet g (fun q => if hit q && miss then { q with missed := true } else q) s
            (resendBlocks m x r s, some false))
        | none => (noteStale m x s, some false)) s)

/-- NORM (R239): the first value for each shard is kept. -/
def execNormSum (m : CollMsg) (s : State) : Host.Outcome State Fault Refusal :=
  .next (receive (.normSum m) m.hdr 1 (fun s =>
    match collFrom s m with
    | none => (s, some true)
    | some x =>
      if collStale x m then (dropStale x m s, some false)
      else
        let t := (ctxGet s x.ctx).train
        if t.st ≠ .opened || jobGroup t.job ≠ m.group || (mapFind t.norms m.unit).isSome then (s, some false)
        else (ctxMod x.ctx (fun y => { y with train := { y.train with norms := mapInsert y.train.norms m.unit m.digest } }) s, some false)) s)

/-! ### ACK (R284, R285, R289, R376) -/

/-- A message of ours has been delivered. -/
def msgAcked (d : Nat) (m : OutMsg) (refused : Bool) (s : State) : State :=
  if m.mtype = 0x20 then
    holdWhere (fun r => r.jidx = m.cmd && r.applied = decide (m.run = 1)) { s with jr := { s.jr with lastMirrored := max s.jr.lastMirrored m.cmd } }
  else if m.mtype = 0x21 && m.run = 2 then copyDelivered d m.cmd s
  else if m.dead then (if m.mtype = 0x10 then loadStep m.group s else s)
  else if m.mtype = 0x02 then
    let t := m.run % 32
    let p := m.run / 32 % 2 ^ 25
    let o := m.run / 2 ^ 30
    if refused then
      match s.deep.refetch.find? (fun r => r.object = o && r.page = p && r.tile = t) with
      | some r => pump (if r.source = 1 then askSource o p t 2 s else tileLost o p t s)
      | none => s
    else
      { s with deep := { s.deep with refetch := s.deep.refetch.map (fun r =>
        if r.object = o && r.page = p && r.tile = t then { r with asked := some m.mseq } else r) } }
  else if m.mtype = 0x10 then
    let k := collKind m
    if refused && (k < 4 || k = 8) then
      (match (groupGet s m.group).bind (·.run) with
       | some r => if r.run % 65536 ≠ m.run then s
         else if r.kind = 4 then (if k = 8 then runCheck m.group s else sendMsg d { m with mseq := 0, resends := 0 } (countResent m s))
         else endRunLost m.group stPeerLost s
       | none => s)
    else loadStep m.group (runCheck m.group s)
  else s

/-- ACK (R285): cumulative; its status is that of the last message it covers. -/
def execAck (h : MsgHdr) (stream : Fin 4) (mseq : Nat) (refused : Bool) (s : State) : Host.Outcome State Fault Refusal :=
  .next (
    let x := peerGet s h.src
    if !arrived h s || h.dstBoot ≠ s.dev.bootId.toNat || !x.isOpen || x.boot ≠ h.srcBoot then s
    else
      let covered (m : OutMsg) : Bool := m.mtype ≠ 0x30 && m.stream = stream.val && m.mseq ≤ mseq
      let got := x.out.filter covered
      let y := if got.isEmpty then x else x.progressed stream s.clk.ltc
      let x := { y with out := x.out.filter (fun m => !covered m) }
      let s := launchMsgs h.src x.backlog x s
      got.foldl (fun s m => msgAcked h.src m (refused && m.mseq = mseq) s) s)

end Sys2Proof.Machine
end

