-- ==== Sys2Proof/Machine/Training.lean ====
section
/-!
DEFINITION. Training steps (spec/09_training_steps.md R227 to R262): opening a step, the update, commit and replica
agreement, snapshots, restore, fill and export.
-/

namespace Sys2Proof.Machine

/-- Change the training state of a context. -/
def trainMod (c : Nat) (f : Train → Train) (s : State) : State := ctxMod c (fun x => { x with train := f x.train }) s

/-- Do `k` where the context's training state is one of `ok`; otherwise the command completes as T9.3 states. -/
def inState (c : Cmd) (ok : List TrainSt) (s : State) (k : State → State) : State :=
  let st := (ctxGet s c.ctx).train.st
  if ok.contains st then k s else refuse c (trainRefusal st) s

/-- The group of the job that the context holds is lost to it: this member is excluded, the group has no LIVE member, or it has ended
(R247, R304, R307). -/
def jobGroupLost (s : State) (c : Nat) : Bool :=
  let t := (ctxGet s c).train
  t.st ≠ .none && match groupGet s (jobGroup t.job) with
    | some x => x.liveList.isEmpty || x.stateOf x.own = 2
    | none => true

/-- Do `k` where the job's group is not lost and the context's state is one of `ok`: PEER_LOST comes before any refusal (R354,
T9.3). -/
def inJob (c : Cmd) (ok : List TrainSt) (s : State) (k : State → State) : State :=
  if jobGroupLost s c.ctx then refuse c stPeerLost s else inState c ok s k

/-! ### STEP_BEGIN (R227, R232, R234) -/

/-- The definition is one a context may hold (T12.16, R227, R229, R230). -/
def jobOk (s : State) (c : Nat) (j : Bytes) : Bool :=
  let tensors := jobField j 76 4
  let clamp := jobField j 72 4
  let n := jobBlocks j
  let lanes := (n + 255) / 256
  let room (o need : Nat) : Bool := (objBase s c o).isSome && need ≤ (objGet s o).count * pageBytes
  jobField j 4 4 = 0 && jobField j 26 6 = 0 && 1 ≤ tensors && tensors ≤ 65536
    && 1 ≤ jobRs j && jobRs j ≤ 16 && jobReplica j < jobRs j && 1 ≤ jobS j && jobS j ≤ 256 && jobShard j < jobS j && 1 ≤ n
    && (clamp = 0 || (0x38800000 ≤ clamp && clamp ≤ 0x4B800000))
    && room (jobW j) (4096 * n) && room (jobM j) (4224 * (n + lanes)) && room (jobSel j) ((n + 7) / 8) && room (jobG j) (4224 * n)

/-- Open the step of the job's version; the schedule's cursor goes before its first entry (R198). -/
def openStep (c : Nat) (s : State) : State :=
  schedStep c (trainMod c (fun t => { t with
    st := .opened, step := t.version, tBegin := s.clk.ltc, norms := [], gradDone := false, updated := false, clip := none
    phases := [], commit := none, late := [], launches := [] }) s)

/-- STEP_BEGIN (R227, R232, R233). -/
def execStepBegin (q : Fin 512) (seq : Nat) (s : State) : Host.Outcome State Fault Refusal :=
  .next (runCmd s q seq 0x600 true [(0, 1), (4, 4), (64, 80)] (fun c s =>
    let t := (ctxGet s c.ctx).train
    let new := c.bit 0 0
    let j := c.bytes 64 80
    if t.st = .none then
      match groupGet s (jobGroup j) with
      | none => refuse c stParam s
      | some x =>
        if !new || x.ctx ≠ c.ctx then refuse c stParam s
        else if x.liveList.isEmpty || x.stateOf x.own = 2 then refuse c stPeerLost s
        else if bitsOf (c.p 0 1) 7 1 ≠ 0 || c.p 4 4 ≠ 0 || !jobOk s c.ctx j then refuse c stParam s
        else finish c stSuccess (natLe 4 0) (openStep c.ctx (trainMod c.ctx (fun _ => { ring := t.ring, counters := t.counters, job := j }) s))
    else inJob c [.idle] s (fun s =>
      if bitsOf (c.p 0 1) 7 1 ≠ 0 || c.p 4 4 ≠ t.version || (new && j ≠ t.job) || (!new && !allZero j) then refuse c stParam s
      else finish c stSuccess (natLe 4 t.version) (openStep c.ctx s))))

/-! ### UPDATE_RUN (R239 to R245) -/

/-- A finite FP32 value of 0 or more. -/
def nonNeg32 (v : Nat) : Bool :=
  match dec32 (BitVec.ofNat 32 v) with
  | .zero _ => true
  | .fin n _ _ => !n
  | _ => false

/-- The parameters lie in the ranges of R241. -/
def updateOk (c : Cmd) : Bool :=
  let f (i : Nat) : Nat := c.p (4 * i) 4
  [0, 1, 2, 3, 4, 5].all (fun i => nonNeg32 (f i)) && (f 1 % 2 ^ 31 < 0x3F800000) && (f 2 % 2 ^ 31 < 0x3F800000)
    && 0x00800000 ≤ f 3 % 2 ^ 31 && bitsOf (c.p 24 1) 7 1 = 0

/-- The global norm is known (R239). -/
def normKnown (t : Train) : Bool := t.gradDone && (List.range (jobS t.job)).all (fun k => (mapFind t.norms k).isSome)

/-- Parameter `i` of an UPDATE_RUN, as FP32 (T12.16). -/
def updArg (c : Cmd) (i : Nat) : BitVec 32 := BitVec.ofNat 32 (c.p (4 * i) 4)

/-- The coefficients of the update of step `n`, with the clip factor and the bias corrections where they are asked for (R240,
R241). -/
def updOf (c : Cmd) (n : Nat) (clip : BitVec 32) : Upd :=
  let bc (b : BitVec 32) : BitVec 32 := if c.bit 24 0 then biasCorrection b n else one32
  ⟨updArg c 0, updArg c 1, updArg c 2, updArg c 3, updArg c 4, clip, bc (updArg c 1), bc (updArg c 2)⟩

/-- Update the blocks in the order of R242; and how many were updated. -/
def Job.updateAll (x : Job) (u : Upd) (phase : Bool) (n : Nat) (refetch : List (Nat × Bytes)) (s : State) : State × Nat :=
  (x.order phase).foldl (fun (a : State × Nat) j =>
    let y := x.update u phase n j ((refetch.find? (fun e => e.1 = x.first + j)).map (·.2)) a.1
    (y.1, if y.2 then a.2 + 1 else a.2)) (s, 0)

/-- UPDATE_RUN (R233, R240 to R245): `refetch` holds FINAL data of blocks whose G is poisoned, from other replicas. -/
def execUpdateRun (q : Fin 512) (seq : Nat) (refetch : List (Nat × Bytes)) (s : State) : Host.Outcome State Fault Refusal :=
  .next (runCmd s q seq 0x602 true [(0, 25)] (fun c s => inJob c [.opened] s (fun s =>
    let t := (ctxGet s c.ctx).train
    if !updateOk c then refuse c stParam s
    else if !normKnown t then s
    else unhitched c ((jobOf s c.ctx).core ++ (jobOf s c.ctx).buffer) s (fun s =>
      let x := jobOf s c.ctx
      let d := drawFree s
      let cf := clipFactor (updArg c 5) (normTotal t.norms (jobS t.job)) d.1
      let r := x.updateAll (updOf c t.step cf) t.selPhase t.step refetch d.2
      let s := trainMod c.ctx (fun t => { t with updated := true, clip := some cf }) r.1
      finish c stSuccess (natLe 8 r.2 ++ natLe 4 cf.toNat) s))))

/-! ### Commit (R246, R249 to R252, R326) -/

/-- STEP_COMMIT arrives at the step barrier and waits there (R246). -/
def execStepCommit (q : Fin 512) (seq : Nat) (s : State) : Host.Outcome State Fault Refusal :=
  .next (runCmd s q seq 0x601 true [(4, 4)] (fun c s =>
    let t := (ctxGet s c.ctx).train
    match t.last with
    | some l =>
      if 0 < c.tries && t.st ≠ .opened && l.1 = c.p 4 4 then finish c stSuccess l.2 s else body c s
    | none => body c s))
where
  body (c : Cmd) (s : State) : State := inJob c [.opened] s (fun s =>
    let t := (ctxGet s c.ctx).train
    if c.p 4 4 ≠ t.step || t.commit.isSome then refuse c stParam s
    else if !t.updated then s
    else
      barrierArrive (jobGroup t.job) t.step
        (trainMod c.ctx (fun t => { t with commit := some { cmd := c.jidx, since := s.clk.ltc } }) (begun c s)))

/-- BARRIER_STALL (R246). -/
def execBarrierStall (ctx : Fin 256) (s : State) : Host.Outcome State Fault Refusal :=
  .next (if s.dev.safe then s else
    match (ctxGet s ctx).train.commit with
    | some w =>
      if w.stalled || s.clk.ltc - w.since < 6000000000 then s
      else trainMod ctx (fun t => { t with commit := some { w with stalled := true } })
        (raise (srcStratum + ctxPart s ctx) 0x0A ctx s)
    | none => s)

/-- One replica's view of a block: replica index, digest, re-read digest, lost, data. -/
structure Copy where
  replica : Nat
  digest : BitVec 64
  reread : BitVec 64
  lost : Bool
  data : Option (Bytes × Bytes)
deriving DecidableEq, Repr

/-- What to do with a block (R250, R251). -/
inductive Resolve where
  | agreed
  | rewrite (w slot : Bytes) (digest : BitVec 64)
  | reread
  | broken
deriving DecidableEq, Repr

/-- Resolve one block between this replica and the other live ones (R250, R251). -/
def resolve (own : Copy) (others : List Copy) : Resolve :=
  let all := own :: others
  let held := all.filter (fun k => !k.lost)
  let take (from_ : List Copy) : Resolve :=
    match from_.filter (fun k => k.replica ≠ own.replica) with
    | [] => .broken
    | l => match (l.foldl (fun (a : Option Copy) k => match a with
        | some b => if k.replica < b.replica then some k else a
        | none => some k) none).bind (fun k => k.data.map (fun d => (d, k.digest))) with
      | some d => .rewrite d.1.1 d.1.2 d.2
      | none => .broken
  if held.isEmpty then .broken
  else if held.all (fun k => k.digest = (held.headD own).digest) then (if own.lost then take held else .agreed)
  else if all.length < 3 then
    (match others with
     | [o] => if own.reread = o.reread then .reread else .broken
     | _ => .broken)
  else
    match held.find? (fun k => all.length < 2 * (held.filter (fun q => q.digest = k.digest)).length) with
    | some k =>
      let major := held.filter (fun q => q.digest = k.digest)
      if !own.lost && own.digest = k.digest then .agreed else take major
    | none => .broken

/-- Copies of block `j` at the other live replicas. -/
def copiesOf (j : Nat) (peers : List PeerDigests) : List Copy :=
  peers.map (fun p => ⟨p.replica, p.digests.getD j 0#64, p.reread.getD j 0#64, p.lost.contains j, (p.data.find? (fun d => d.1 = j)).map (·.2)⟩)

/-- Rewrite a block, weight and current slot, from another replica; the digest of the trailer is that of the block read
again (R250). -/
def rewriteBlock (x : Job) (phase : Bool) (n j : Nat) (w slot : Bytes) (s : State) : State :=
  let tag := (n + 1) % 4
  let s := (writeVa x.ctx (x.slotAt j (!phase)) (byteSlice slot 0 4224) tag false s).2
  let s := (writeVa x.ctx (x.wAt j) (byteSlice w 0 4096) tag false s).2
  let s := if x.selOf s j = phase then x.flip j s else s
  let b := x.block s j
  trainUp x.ctx 5 1 (x.setTrailer j { x.trailer s j with digest := blockDigest (x.first + j) (n + 1) b.1 b.2.1, st := 4 } s)

/-- The pages of the SHADOW bases that a commit writes (R326). -/
def shadowSpans (s : State) (y : Group) (x : Job) : List Span :=
  y.bases.filterMap (fun kv =>
    if !kv.2.shadow then none else
      (objBase s x.ctx kv.2.object).map (fun va =>
        (va + 4096 * x.first, min (4096 * x.n) ((objGet s kv.2.object).count * pageBytes - 4096 * x.first), true)))

/-- Copy the FINAL elements of the shard into its SHADOW bases (R326), each block where its words are read again (R318, log 64). -/
def writeShadows (g : Nat) (x : Job) (version : Nat) (s : State) : State :=
  match groupGet s g with
  | none => s
  | some y =>
    y.bases.foldl (fun s kv =>
      if !kv.2.shadow then s else
        match objBase s x.ctx kv.2.object with
        | none => s
        | some va =>
          let room (j : Nat) : Bool := 4096 * (x.first + j + 1) ≤ (objGet s kv.2.object).count * pageBytes
          let s := ((List.range x.n).filter room).foldl (fun s j =>
            (writeVa x.ctx (va + 4096 * (x.first + j)) (byteSlice (x.row s j).1 0 4096) 0 false s).2) s
          groupMod g (fun z => { z with bases := mapInsert z.bases kv.1 { kv.2 with ver := version % 65536, isSet := true } }) s) s

/-- The commit (R252): the version, SEL_PHASE, the record and DONE; with `resolved` blocks resolved. -/
def commitStep (g c resolved : Nat) (w : Commit) (s : State) : State :=
  match groupGet s g with
  | none => s
  | some y =>
    let t := (ctxGet s c).train
    let x := jobOf s c
    let n := t.step + 1
    let s := writeShadows g x n s
    let sum := xorAll ((List.range x.n).map (fun j => (x.trailer s j).digest))
    let live := y.liveList.length
    let result := natLe 4 n ++ natLe 2 live ++ natLe 2 (min resolved 65535) ++ natLe 8 sum.toNat
    let s := phaseRecord c live resolved (if resolved = 0 then 0 else 1) w s
    let s := trainMod c (fun t => { t with
      st := if allWhole y t then .idle else .repair, version := n, selPhase := !t.selPhase, commit := none, last := some (t.step, result)
      launches := [], late := [] }) s
    finishJ w.cmd stSuccess result s

/-- Resolve every block of the shard; how many needed it, and whether one cannot be resolved (R250, R251). A rewritten block
that does not read back as its source has it is not resolved (DESIGN CHOICE, log 83). -/
def resolveAll (c : Nat) (x : Job) (t : Train) (own : Nat) (others : List PeerDigests) (s : State) : State × Nat × Bool :=
  (List.range x.n).foldl (fun (a : State × Nat × Bool) j =>
    if a.2.2 then a else
      let tr := x.trailer a.1 j
      let b := x.block a.1 j
      let me : Copy := ⟨own, tr.digest, blockDigest (x.first + j) (t.step + 1) b.1 b.2.1, decide (tr.st = 5), none⟩
      match resolve me (copiesOf j others) with
      | .agreed => a
      | .rewrite d e dg =>
        let s := rewriteBlock x t.selPhase t.step j d e a.1
        (s, a.2.1 + 1, decide ((x.trailer s j).digest ≠ dg))
      | .reread =>
        let d := drawFree a.1
        let s := logEvents x.part 0xFFFF ((x.first + j) % 65536) c (64 + x.engine d.2 (x.first + j)) false
          [{ kind := d.1 % 64, count := 1, first := 0, value := 0#32 }] d.2
        (trainUp c 6 1 s, a.2.1 + 1, false)
      | .broken => (a.1, a.2.1, true)) (s, 0, false)

/-- The release of the barrier on this member (R246, R250 to R252): it commits once every shard is resolved, and breaks where
one cannot be. -/
def releaseStep (g : Nat) (mismatch : Bool) (peers : List PeerDigests) (shards : List ShardSt) (s : State) : State :=
  match groupGet s g with
  | none => s
  | some y =>
    let c := y.ctx
    let t := (ctxGet s c).train
    match t.commit with
    | none => s
    | some w =>
      if jobGroup t.job ≠ g then s
      else
      let w : Commit := { w with released := some (w.released.getD s.clk.ltc) }
      let s := trainMod c (fun t => { t with commit := some w }) s
      if mismatch then breakJob c stParam s
      else if shards.contains .broken then breakJob c stPeerLost s
      else if shards.contains .pending then s
      else
        let x := jobOf s c
        match hitch s c (x.core ++ x.buffer ++ shadowSpans s y x) with
        | some (.barred b) => breakJob c stParam (raiseBar b 76 s)
        | some (.absent a) => if pageGivenUp a.1 a.2 s then breakJob c stUnavailable s else demandPage c a.1 a.2 none s
        | none =>
          let own := jobReplica t.job
          let others := peers.filter (fun p => p.replica ≠ own && (liveReps y t.job).contains p.replica)
          let r := resolveAll c x t own others s
          if r.2.2 then breakAfter c stPeerLost r.2.1 r.1 else commitStep g c r.2.1 w r.1

/-- RELEASE (R246, R306): from the leader, or this member's own where it leads. `peers` is what the other replicas of the
shard report, `shards` what is known of the other shards (R250, R252). -/
def execBarrierRelease (m : MemMsg) (peers : List PeerDigests) (shards : List ShardSt) (s : State) : Host.Outcome State Fault Refusal :=
  .next (
    match groupGet s m.group with
    | some x =>
      match x.released with
      | some r =>
        if m.hdr.src = x.dev x.own then
          let s' := releaseStep m.group r.2 peers shards s
          if ((ctxGet s' x.ctx).train.commit).isSome then s' else groupMod m.group (fun y => { y with released := none }) s'
        else recv s
      | none => recv s
    | none => recv s)
where
  recv (s : State) : State := memIn (.barrierRelease m peers shards) m (fun x s =>
    if (ctxGet s x.ctx).train.commit.isNone then (s, some false)
    else
      let s' := releaseStep m.group m.mismatch peers shards s
      (s', if ((ctxGet s' x.ctx).train.commit).isSome then none else some false)) s

/-! ### DIGEST_COMPARE (R249) -/

/-- DIGEST_COMPARE (R232, R249). -/
def execDigestCompare (q : Fin 512) (seq : Nat) (peers : List PeerDigests) (s : State) : Host.Outcome State Fault Refusal :=
  .next (runCmd s q seq 0x608 true [(0, 1), (8, 8)] (fun c s => inJob c [.idle] s (fun s =>
    let t := (ctxGet s c.ctx).train
    let x := jobOf s c.ctx
    if bitsOf (c.p 0 1) 7 1 ≠ 0 then refuse c stParam s
    else unhitched c x.core s (fun s =>
      let ds := x.digests s t.version
      let bad := (List.range x.n).any (fun j => (x.block s j).2.2)
      let others := peers.filter (fun p => p.replica ≠ jobReplica t.job)
      let differ := ((List.range x.n).filter (fun j => others.any (fun p => p.digests.getD j 0#64 ≠ ds.getD j 0#64))).length
      let s := if c.bit 0 0 then hostWrite c.port (c.p 8 8) (ds.flatMap (fun d => natLe 8 d.toNat)) s else s
      finish c (if bad then stUnavailable else stSuccess) (natLe 8 (xorAll ds).toNat ++ natLe 4 t.version ++ natLe 4 differ) s))))

/-! ### Snapshots (R253 to R257) -/

/-- Bytes of a snapshot of `n` blocks (R254). -/
def snapBytes (n : Nat) : Nat := n * (4096 + 4224) + 65536

/-- The most a snapshot slot holds: 280 GiB (T7.2 of spec/07_deep_tier.md). -/
def snapMax : Nat := 280 * 2 ^ 30

/-- The shard as memory holds it (R253, R147). -/
def Job.shard (s : State) (x : Job) (t : Train) : ShardData :=
  let js := List.range x.n
  { jobId := jobField x.job 0 4, jobDef := x.job, version := t.version, selPhase := t.selPhase
    digest := xorAll (x.digests s t.version)
    weights := (peekVa s x.ctx x.w (4096 * x.n)).1
    slots := js.flatMap (fun j => (x.block s j).2.1)
    wmd := burstMds s x.ctx x.w (64 * x.n)
    smd := js.flatMap (fun j => burstMds s x.ctx (x.slotAt j (x.selOf s j)) 66)
    tensors := (peekVa s x.ctx (jobField x.job 64 8) (Config.tensorBytes.val * jobField x.job 76 4)).1
    length := snapBytes x.n }

/-- The 64 KiB snapshot record (R253). -/
def snapRecordOf (d : ShardData) : Bytes :=
  byteSlice (Config.snapRecord d.jobDef d.version d.tensors d.digest d.length) 0 65536

/-- Tiles of 64 KiB that `n` bytes fill. -/
def tilesOf (n : Nat) : Nat := (n + tileBytes - 1) / tileBytes

/-- Hold a snapshot of `n` bytes in the slot that is not the good one, which becomes good (R254, R255): the slot's blocks of
the older snapshot are free, and its tiles are programmed anew (T7.2). -/
def keepSnap (slot n : Nat) (snap : Snap) (s : State) : State :=
  let s := writeRegion (3 + slot) 0 (tilesOf n) (freeRegion (3 + slot) (fun _ => true) s)
  { s with deep := { s.deep with slots := mapInsert s.deep.slots slot snap, good := some slot } }

/-- Send the copy of a snapshot to the partner, where it is asked for and the pair is bound: in messages of at most 65,536 data
bytes (R288), which the header numbers (log 27). -/
def sendSnap (c : Cmd) (d : ShardData) (s : State) : State :=
  if c.bit 0 0 && s.jr.pair = .bound then
    let bs := d.weights ++ d.slots ++ snapRecordOf d
    (List.range ((bs.length + 65535) / 65536)).foldl (fun s i =>
      sendMsg s.jr.partner { stream := 2, mtype := 0x22, ctx := c.ctx, cmd := c.jidx, run := i, body := (bs.drop (65536 * i)).take 65536 } s) s
  else s

/-- Take a snapshot of a resident shard. -/
def takeSnapshot (c : Cmd) (x : Job) (s : State) : State :=
  let t := (ctxGet s c.ctx).train
  let n := snapBytes x.n
  if (List.range x.n).any (fun j => (x.block s j).2.2) then refuse c stUnavailable s
  else
    let d := x.shard s t
    sendSnap c d (finish c stSuccess (natLe 4 (nextSlot s) ++ natLe 4 t.version ++ natLe 8 n)
      (keepSnap (nextSlot s) n { shard := d, pages := (n + pageBytes - 1) / pageBytes } s))

/-- SNAPSHOT (R232, R253 to R255). -/
def execSnapshot (q : Fin 512) (seq : Nat) (s : State) : Host.Outcome State Fault Refusal :=
  .next (runCmd s q seq 0x604 true [(0, 1)] (fun c s => inJob c [.idle] s (fun s =>
    let x := jobOf s c.ctx
    if bitsOf (c.p 0 1) 7 1 ≠ 0 then refuse c stParam s
    else if snapMax < snapBytes x.n then refuse c stResource s
    else if !flashRuns s then s
    else unhitched c (x.core ++ x.table) s (takeSnapshot c x))))

/-- SNAP_COPY (R255), the last message of a copy: kept in the user region under context 0, the two most recent for each job. While
the flash has no time reference it waits (R207). -/
def execSnapCopy (h : MsgHdr) (copy : SnapCopy) (s : State) : Host.Outcome State Fault Refusal :=
  .next (receivePair (.snapCopy h copy) h 2 (fun s => if !flashRuns s then (s, none) else (
    let same (k : Snap) : Bool := k.shard.jobId = copy.shard.jobId
    if poolFree s 0 2 < copy.pages || s.deep.spare = 0 then trainUp 0 7 1 s
    else
      let n := 32 * copy.pages
      let i := s.deep.copyAt
      let s := writeRegion 6 i n { s with deep := { s.deep with copyAt := i + n, copies := s.deep.copies ++
        [{ shard := copy.shard, pages := copy.pages, first := i }] } }
      if 2 < (s.deep.copies.filter same).length then
        (match s.deep.copies.find? same with
         | some k => freeRegion 6 (fun t => k.first ≤ t && t < k.first + 32 * k.pages)
             { s with deep := { s.deep with copies := listEraseFirst same s.deep.copies } }
         | none => s)
      else s, some false)) s)

/-- The data's block digests, formed from the data. -/
def shardDigest (d : ShardData) (first n : Nat) : BitVec 64 :=
  xorAll ((List.range n).map (fun j => blockDigest (first + j) d.version (byteSlice d.weights (4096 * j) 4096) (byteSlice d.slots (4224 * j) 4224)))

/-- Write block `j` of a shard into W and M, its current slot in the bank that `phase` names. -/
def Job.loadBlock (x : Job) (d : ShardData) (phase : Bool) (j : Nat) (s : State) : State :=
  let i := j - d.start
  let s := (writeVa x.ctx (x.wAt j) (byteSlice d.weights (4096 * i) 4096) 0 false s).2
  let s := setMd x.ctx (x.wAt j) ((d.wmd.drop (64 * i)).take 64) s
  let va := x.slotAt j phase
  setMd x.ctx va ((d.smd.drop (66 * i)).take 66) (writeVa x.ctx va (byteSlice d.slots (4224 * i) 4224) 0 false s).2

/-- With the blocks in place: every selector equal to `phase`, and nothing held of the reduction buffer or of SHADOW bases
(R256, R258, R326). -/
def Job.loaded (x : Job) (version : Nat) (phase : Bool) (s : State) : State :=
  let n := (x.n + 7) / 8
  let s := (writeVa x.ctx x.sel (List.replicate n (if phase then 0xFF#8 else 0#8)) 0 false s).2
  let s := x.dropSteps (fun _ => true) version s
  groupMod (jobGroup x.job) (fun y => { y with bases := y.bases.map (fun kv => (kv.1, if kv.2.shadow then { kv.2 with isSet := false } else kv.2)) }) s

/-- Write a whole shard into the state objects. -/
def Job.load (x : Job) (d : ShardData) (phase : Bool) (s : State) : State :=
  x.loaded d.version phase ((List.range x.n).foldl (fun s j => x.loadBlock d phase j s) s)

/-- The definition a shard's data give this context: its own where it already has that job (R227, R256). -/
def takeJob (t : Train) (d : ShardData) : Bytes :=
  if !t.job.isEmpty && jobField t.job 0 4 = d.jobId then t.job else d.jobDef

/-- Training state after a shard of a job is in place: REPAIR while a shard is not whole. -/
def wholeState (s : State) (job : Bytes) : TrainSt :=
  match groupGet s (jobGroup job) with
  | some y => if allWhole y { job := job } then .idle else .repair
  | none => .idle

/-- This member is excluded from the job that its context holds (R247). -/
def outcast (s : State) (c : Nat) : Bool :=
  let t := (ctxGet s c).train
  t.st ≠ .none && (groupGet s (jobGroup t.job)).any (fun x => x.stateOf x.own = 2)

/-- RESTORE has begun: while it waits for a page, a safe state or a reset leaves its context in BROKEN (R257). -/
def noteRestore (c : Nat) (s : State) : State := trainMod c (fun t => { t with restoring := true }) s

/-- RESTORE writes the shard and sets the version (R256). -/
def restoreShard (c : Cmd) (job : Bytes) (d : ShardData) (s : State) : State :=
  let t := (ctxGet s c.ctx).train
  let s := (jobIn s c.ctx job).load d false s
  finish c stSuccess (natLe 4 d.version)
    (trainMod c.ctx (fun _ => { ring := t.ring, job := job, version := d.version, st := wholeState s job }) s)

/-- What the source of a RESTORE delivers: a slot of this device, or what the partner or the other replica sent. -/
def restoreFrom (c : Cmd) (peer : Option ShardData) (s : State) : Option ShardData :=
  if c.p 0 1 = 0 then (mapFind s.deep.slots (c.p 1 1)).map (·.shard) else peer

/-- RESTORE (R247, R256, R257, R370): `peer` is what the partner or the other replica delivered. -/
def execRestoreShard (q : Fin 512) (seq : Nat) (peer : Option ShardData) (s : State) : Host.Outcome State Fault Refusal :=
  .next (runCmd s q seq 0x605 true [(0, 12)] (fun c s => if outcast s c.ctx then refuse c stPeerLost s else
    inState c [.none, .idle, .repair, .broken] s (fun s =>
    let t := (ctxGet s c.ctx).train
    let kind := c.p 0 1
    if 0 < c.tries && t.st = .broken then refuse c stPeerLost s
    else if 2 < kind || 1 < c.p 1 1 || 4096 ≤ c.p 2 2 then refuse c stParam s
    else if kind = 0 && !flashRuns s then s
    else
      match restoreFrom c peer s with
      | none => refuse c (if kind = 0 then stParam else stPeerLost) s
      | some d =>
        let job := takeJob t d
        let x := jobIn s c.ctx job
        if d.jobId ≠ c.p 4 4 || (c.p 8 4 ≠ 0xFFFFFFFF && d.version ≠ c.p 8 4) || !jobOk s c.ctx job then refuse c stParam s
        else if shardDigest d x.first x.n ≠ d.digest then refuse c stUnavailable s
        else x.placing c (noteRestore c.ctx (if kind = 0 then readRegion (3 + c.p 1 1) s else s)) (restoreShard c job d))))

/-! ### Fill (R258, R259) -/

/-- The definition of a target of a fill: the source's, with the replica index that this member holds. -/
def fillJob (x : Group) (d : ShardData) : Bytes :=
  let j := d.jobDef
  match (List.range (jobRs j)).find? (fun r => Config.replicaMember (jobField j 0 4) (jobShard j) r = x.own) with
  | some r => listSet j 24 (BitVec.ofNat 8 r)
  | none => j

/-- The operands of a fill are not allowed (R258). A named source must be LIVE as the fill begins; later the fill goes on from
another (R259). -/
def fillBad (c : Cmd) (y : Group) (started : Bool) : Bool :=
  let src := c.p 4 2
  y.ctx ≠ c.ctx || y.stateOf y.own ≠ 1 || bitsOf (c.p 8 1) 7 1 ≠ 0
    || (!started && src ≠ 0xFFFF && (y.members.length ≤ src || y.stateOf src ≠ 0))

/-- A replica of the fill's shard other than this member is LIVE and has not been given up (R259). -/
def fillSource (y : Group) (t : Train) (job : Bytes) (r : Nat) : Bool :=
  r ≠ jobReplica job && y.stateOf (Config.replicaMember (jobField job 0 4) (jobShard job) r) = 0 && !t.fillGone.contains r

/-- Data of replica `r` continue the fill: it is the source that was named, or no replica of a lower index can be one (R258,
R259). -/
def fillTakes (c : Cmd) (y : Group) (t : Train) (job : Bytes) (r : Nat) : Bool :=
  let src := c.p 4 2
  !t.fillGone.contains r
    && ((src ≠ 0xFFFF && Config.replicaMember (jobField job 0 4) (jobShard job) r = src)
      || ((src = 0xFFFF || y.stateOf src ≠ 0 || !t.fillGone.isEmpty) && (List.range r).all (fun k => !fillSource y t job k)))

/-- The replica that a fill takes its data from: the one that was named, or the lowest live one (R258, R259). -/
def fillFrom (c : Cmd) (y : Group) (t : Train) : Option Nat :=
  let n := jobRs t.job
  ((List.range n).find? (fun r => fillSource y t t.job r && fillTakes c y t t.job r))

/-- Keep the source's snapshot with the shard, where it is asked for. -/
def fillSnap (c : Cmd) (snap : Option SnapCopy) (s : State) : State :=
  match snap with
  | some k => if c.bit 8 0 then keepSnap (nextSlot s) (k.pages * pageBytes) { shard := k.shard, pages := k.pages } s else s
  | none => s

/-- Blocks that a fill has verified already: those of a fill of the same job at the same version (R258, R259). -/
def fillKnown (t : Train) (d : ShardData) (job : Bytes) : Nat :=
  if t.job = job && t.version = d.version then t.verified else 0

/-- The blocks from `j` on that a source delivered and that agree with its digests (R258). -/
def fillGood (x : Job) (d : ShardData) (j : Nat) : List Nat :=
  ((List.range (min x.n (d.start + d.blocks.length) - j)).map (j + ·)).takeWhile (fun k =>
    let i := k - d.start
    blockDigest (x.first + k) d.version (byteSlice d.weights (4096 * i) 4096) (byteSlice d.slots (4224 * i) 4224) = d.blocks.getD i 0#64)

/-- The fill of a command is over. -/
def fillEnds (c : Cmd) (s : State) : State := trainMod c.ctx (fun t => { t with filling := none, fillGone := [] }) s

/-- The fill is complete: the snapshot follows where it is asked for, and the leader is asked to take this member in as LIVE
(R258). -/
def fillDone (c : Cmd) (y : Group) (x : Job) (d : ShardData) (snap : Option SnapCopy) (s : State) : State :=
  let s := trainMod c.ctx (fun t => { t with st := .repair }) (x.loaded d.version d.selPhase (fillEnds c s))
  askChange (c.p 0 4) 0 0 y.own (y.dev y.own) (finish c stSuccess (natLe 8 x.n) (fillSnap c snap s))

/-- Load the blocks that the source sent, from the first that is not verified: each is checked against the source's digest,
and their number is kept. A source that stops early leaves the fill to the next one; a block that differs ends it (R258,
R259). -/
def fillLoad (c : Cmd) (y : Group) (d : ShardData) (job : Bytes) (snap : Option SnapCopy) (s : State) : State :=
  let x := jobIn s c.ctx job
  let k := fillKnown (ctxGet s c.ctx).train d job
  let good := if d.start ≤ k then fillGood x d k else []
  let s := good.foldl (fun s j => x.loadBlock d d.selPhase j s) s
  let s := trainMod c.ctx (fun t => { ring := t.ring, counters := t.counters, st := t.st, job := job, version := d.version
                                      selPhase := d.selPhase, verified := k + good.length, filling := some c.jidx
                                      fillGone := t.fillGone }) s
  if k + good.length = x.n then fillDone c y x d snap s
  else if k + good.length < d.start + d.blocks.length then refuse c stUnavailable (fillEnds c s)
  else s

/-- An earlier fill of the same shard is in progress: this one waits (R258). -/
def fillWaits (s : State) (c : Cmd) : Bool :=
  s.jr.ring.any (fun d => d.opcode = 0x607 && d.jidx < c.jidx && d.done.isNone && d.p 0 4 = c.p 0 4 && d.p 6 2 = c.p 6 2)

/-- The source of a fill is lost or excluded before its shard is whole (R259): another live replica takes its place, or the fill
ends and the context is BROKEN. The replicas are known once the first data have come. -/
def fillLost (c : Cmd) (y : Group) (s : State) : State :=
  let t := (ctxGet s c.ctx).train
  let begun := t.filling = some c.jidx
  let u : Train := { t with fillGone := t.fillGone ++ (fillFrom c y t).toList }
  if begun && (fillFrom c y u).isSome then trainMod c.ctx (fun _ => u) s
  else finish c stPeerLost [] (trainMod c.ctx (fun t => { t with st := .broken, filling := none, fillGone := [] }) s)

/-- A fill of an allowed member. -/
def fillBody (c : Cmd) (y : Group) (peer : Option ShardData) (snap : Option SnapCopy) (s : State) : State :=
  let t := (ctxGet s c.ctx).train
  if fillBad c y (t.filling = some c.jidx) then refuse c stParam s
  else if fillWaits s c || (c.bit 8 0 && !flashRuns s) then s
  else match peer with
    | none => fillLost c y s
    | some d =>
      let job := fillJob y d
      if jobGroup job ≠ c.p 0 4 || jobShard job ≠ c.p 6 2 || !jobOk s c.ctx job then refuse c stParam s
      else if !fillTakes c y t job (jobReplica d.jobDef) then s
      else (jobIn s c.ctx job).placing c s (fillLoad c y d job snap)

/-- FILL_FROM_PEER (R232, R258, R259): `peer` is what a source of the shard delivers, `snap` its last good snapshot. A source
may deliver a part of the shard; the row comes again with what the next one delivers. -/
def execFillFromPeer (q : Fin 512) (seq : Nat) (peer : Option ShardData) (snap : Option SnapCopy) (s : State) :
    Host.Outcome State Fault Refusal :=
  .next (runCmd s q seq 0x607 true [(0, 9)] (fun c s =>
    let y := groupGet s (c.p 0 4)
    if y.any (fun x => x.ctx = c.ctx && (x.liveList.isEmpty || x.stateOf x.own = 2)) then refuse c stPeerLost s
    else if (ctxGet s c.ctx).train.st = .idle then refuse c stParam s
    else inState c [.none, .repair] s (fun s =>
      match y with
      | none => refuse c stParam s
      | some y => fillBody c y peer snap s)))

/-! ### Export (R260, R261) -/

/-- Zero padding up to a multiple of 32 bytes. -/
def pad32 (bs : Bytes) : Bytes := byteSlice bs 0 ((bs.length + 31) / 32 * 32)

/-- Coordinates of element `e` of a tensor, dimension 0 first; unused dimensions are 0. -/
def coords (shape : List Nat) (e : Nat) : List Nat :=
  (List.range 4).map (fun k =>
    if shape.length ≤ k then 0 else
      let inner := (shape.drop (k + 1)).foldl (· * ·) 1
      e / inner % max 1 (shape.getD k 1))

/-- One export record (T9.6). -/
def exportRecord (x : Job) (version part : Nat) (t : Tensor) (e0 count : Nat) (els scales : Bytes) : Bytes :=
  let pay := pad32 els ++ pad32 scales
  let dig := (words64 pay).foldl (fun d w => mix (d ^^^ w)) (mix (BitVec.ofNat 64 t.id))
  let four (l : List Nat) (d : Nat) (lo : Nat) : Nat := (List.range 4).foldl (fun a k => a + fieldAt (l.getD k d) 32 (lo + 32 * (3 - k))) 0
  natLe 128 (fieldAt (128 + pay.length) 64 960 + fieldAt (jobField x.job 0 4) 32 928 + fieldAt version 32 896 + fieldAt t.id 32 864
    + fieldAt part 4 860 + fieldAt (if part = 0 then 0 else part + 2) 3 857 + fieldAt t.rank 3 854 + four t.shape 1 704
    + four (coords t.shape e0) 0 576 + fieldAt count 32 544 + fieldAt scales.length 32 512 + dig.toNat * 2 ^ 448) ++ pay

/-- The records of one tensor: the run of its elements that lies in the shard, part by part; and whether a burst of
it is poisoned (R260). -/
def tensorRecords (s : State) (x : Job) (version : Nat) (t : Tensor) : List Bytes × Bool :=
  let total := t.shape.foldl (· * ·) 1
  let blocks := (total + 2047) / 2048
  let b0 := max t.first x.first
  let b1 := min (t.first + blocks) (x.first + x.n)
  if b1 ≤ b0 then ([], false)
  else
    let e0 := (b0 - t.first) * 2048
    let count := min total ((b1 - t.first) * 2048) - e0
    let js := (List.range (b1 - b0)).map (fun i => b0 - x.first + i)
    let bs := js.map (fun j => x.block s j)
    let sc := (count + 31) / 32
    let part (k : Nat) : Bytes :=
      if k = 0 then exportRecord x version 0 t e0 count ((bs.flatMap (fun b => b.1)).take (2 * count)) []
      else
        let o := if k = 1 then 0 else 2112
        exportRecord x version k t e0 count ((bs.flatMap (fun b => byteSlice b.2.1 o 2048)).take count)
          ((bs.flatMap (fun b => byteSlice b.2.1 (o + 2048) 64)).take sc)
    ([part 0, part 1, part 2], bs.any (fun b => b.2.2))

/-- Where an export goes. -/
structure Export where
  /-- To an object of the context, else to the host. -/
  inner : Bool
  cap : Nat
  /-- The object number, or the host address. -/
  o : Nat
  va : Option Nat
  table : Nat
  size : Nat
deriving DecidableEq, Repr

/-- The destination and the tensor table of an EXPORT_SHARD. -/
def exportOf (s : State) (c : Cmd) : Export :=
  let t := (ctxGet s c.ctx).train
  { inner := c.p 0 1 = 1, cap := c.p 16 8, o := c.p 8 8
    va := if c.p 0 1 = 1 then objBase s c.ctx (c.p 8 8) else none
    table := jobField t.job 64 8, size := Config.tensorBytes.val * jobField t.job 76 4 }

/-- The operands of an export are not allowed (R260). -/
def exportBad (s : State) (c : Cmd) (e : Export) : Bool :=
  1 < c.p 0 1
    || (e.inner && (e.va.isNone || !(objGet s e.o).writable || (objGet s e.o).count * pageBytes < e.cap))
    || !rangeMapped s c.ctx e.table e.size false

/-- The records of every tensor of the table, and whether a burst of one is poisoned. -/
def exportRecords (s : State) (c : Cmd) (x : Job) (e : Export) : List Bytes × Bool :=
  let t := (ctxGet s c.ctx).train
  let bs := (peekVa s c.ctx e.table e.size).1
  let ts := (List.range (jobField t.job 76 4)).map (fun i => Config.tensorEntry (byteSlice bs (Config.tensorBytes.val * i) Config.tensorBytes.val))
  let rs := ts.map (tensorRecords s x t.version)
  (rs.flatMap (·.1), rs.any (·.2))

/-- The records that the capacity holds, their bytes, and whether some did not fit (R260). -/
def exportFit (cap : Nat) (recs : List Bytes) : List Bytes × Nat × Bool :=
  recs.foldl (fun (a : List Bytes × Nat × Bool) r =>
    if a.2.2 || cap < a.2.1 + r.length then (a.1, a.2.1, true) else (a.1 ++ [r], a.2.1 + r.length, false)) ([], 0, false)

/-- Write the records of a resident shard to their destination. -/
def exportBody (c : Cmd) (x : Job) (e : Export) (s : State) : State :=
  let r := exportRecords s c x e
  let fit := exportFit e.cap r.1
  let out := fit.1.flatten
  if r.2 then refuse c stUnavailable s
  else finish c (if fit.2.2 then stResource else stSuccess) (natLe 8 out.length ++ natLe 4 fit.1.length)
    (if e.inner then (writeVa c.ctx (e.va.getD 0) out 0 false s).2 else hostWrite c.port e.o out s)

/-- The ranges of an export: the committed state, the tensor table and the destination (R260). -/
def exportSpans (c : Cmd) (x : Job) (e : Export) : List Span :=
  x.core ++ x.table ++ (if e.inner then [(e.va.getD 0, c.p 16 8, true)] else [])

/-- EXPORT_SHARD (R232, R260, R261). -/
def execExportShard (q : Fin 512) (seq : Nat) (s : State) : Host.Outcome State Fault Refusal :=
  .next (runCmd s q seq 0x606 true [(0, 1), (8, 16)] (fun c s => inJob c [.idle, .repair] s (fun s =>
    let x := jobOf s c.ctx
    let e := exportOf s c
    if exportBad s c e then refuse c stParam s
    else unhitched c (exportSpans c x e) s (exportBody c x e))))

end Sys2Proof.Machine
end

