-- ==== Sys2Proof/Machine/Resets.lean ====
section
/-!
DEFINITION. The safe state (spec/14_fault_collection.md R395 to R397), the reset units and what each removes
(spec/15_hang_reset_recovery.md R409 to R413, R420), and what happens to accepted commands
(spec/13_mirror_pair_consistency.md R370, R383 to R386).
-/

namespace Sys2Proof.Machine

/-! ### Tier moves (R204, R205) -/

/-- The requests of the contexts that `p` names leave a move; one that no other context asks for goes (R203, R205). -/
def leaveMoves (p : Nat → Bool) (s : State) : State :=
  let mine (n : Nat) : Bool := match (rodGet s n).run with | some r => p r.l.ctx | none => true
  { s with deep := { s.deep with moves := (s.deep.moves.map (fun m =>
    { m with asks := m.asks.filter (fun q => !p q.1), rods := m.rods.filter (fun n => !mine n) })).filter (fun m => !m.asks.isEmpty) } }

/-- Cancel the moves, placements and hints that have not committed of the contexts that `p` names: each page stays at
its authoritative location, and an object that was being registered goes (R189). -/
def cancelMoves (p : Nat → Bool) (s : State) : State :=
  let going := (allPages s).filter (fun q => p q.2.2.2.leaver && q.2.2.2.leaving.isSome)
  let fresh := (s.deep.jobs.filter (fun j => p j.ctx && j.fresh)).map (·.object)
  let s := unqueue (fun t => t.cmd.isSome && p t.ctx) (leaveMoves p s)
  let s := { s with
    deep := { s.deep with jobs := s.deep.jobs.filter (fun j => !p j.ctx) }
    strata := s.strata.map (fun kv => (kv.1, { kv.2 with hints := kv.2.hints.filter (fun h => !p h.1) })) }
  let s := going.foldl (fun s q => pageMod q.1 q.2.2.1 (fun x => { x with leaving := none }) (dropFlash q.1 q.2.2.1 s)) s
  fresh.foldl (fun s o => dropObject o s) s

/-! ### Programs on the rods (R70, R107, R165, R410, R411) -/

/-- Remove the programs that `p` names from every rod and stratum controller; the rod of one that runs is cleared if
`clear` says so, and otherwise keeps its banks and store as at a halt. Arrivals of a stopped program at a barrier go
with it. -/
def dropPrograms (p : Launch → Bool) (clear : Bool) (s : State) : State :=
  let hit := (List.range 64).filter (fun n => (onRod s n).any p)
  let s := { s with strata := s.strata.map (fun kv => (kv.1, { kv.2 with
    more := kv.2.more.filter (fun q => !p q.2)
    uses := (kv.2.uses.map (fun u => (u.1, (u.2.map (fun v => { v with arrived := v.arrived.filter (fun r =>
      match (rodGet s r).run with | some x => !p x.l | none => true) })).filter (fun v => !v.arrived.isEmpty)))).filter
        (fun u => !u.2.isEmpty) })) }
  groupsOff (hit.foldl (fun s n =>
    let x := rodGet s n
    let q := x.queue.filter (fun l => !p l)
    refill n (match x.run with
      | some r => if p r.l then (if clear then wipeRod n q s else unwaitRod n (rodSet n { x with queue := q, run := none } s))
          else rodSet n { x with queue := q } s
      | none => rodSet n { x with queue := q } s)) s)

/-- Landings of a context that wait at the engines are abandoned (R29, R410). -/
def dropLandings (p : Nat → Bool) (s : State) : State :=
  { s with landings := (s.landings.map (fun kv => (kv.1, kv.2.filter (fun e => !p e.ctx)))).filter (fun kv => !kv.2.isEmpty) }

/-- Stop one launch on all its rods (T13.9). -/
def stopLaunch (j : Nat) (s : State) : State :=
  dropPrograms (fun l => l.cmd = j) false { s with launches := mapErase s.launches j }

/-! ### Trailers after a reset (R370) -/

/-- Invalidate the STEP of block `j` where it is LOCAL of the open step `n`, in HBM. -/
def dropNear (x : Job) (n version j : Nat) (s : State) : State :=
  let y := x.trailer s j
  if y.st = 0 && y.step = n then x.setTrailer j { y with step := noStep version } s else s

/-- The same for a trailer `y` at byte `a` of the user region. -/
def dropDeep (a n version : Nat) (y : Trailer) (s : State) : State :=
  if y.st = 0 && y.step = n then
    { s with deep := { s.deep with flash := memWrite s.deep.flash a ({ y with step := noStep version } : Trailer).bytes } }
  else s

/-- Invalidate one trailer where its page stands, which `at_` names. -/
def dropTrailer (x : Job) (t : Train) (j : Nat) (at_ : Option (Nat × Nat)) (s : State) : State :=
  match at_ with
  | none => s
  | some a =>
    if (pageGet s a.1 a.2).loc ≠ .deep then dropNear x t.step t.version j s
    else
      let b := flashKey a.1 a.2 + (x.gAt j + 4160) % pageBytes
      dropDeep b t.step t.version (readTrailer (memRead s.deep.flash b 64)) s

/-- Invalidate the STEP of every LOCAL trailer of the open step, in HBM or, where its page has gone there, in the user
region. -/
def dropTrailers (c : Nat) (s : State) : State :=
  let t := (ctxGet s c).train
  let x := jobOf s c
  if t.st ≠ .opened then s else
    (List.range x.n).foldl (fun s j => dropTrailer x t j (objAt s c (x.gAt j + 4160)) s) s

/-! ### The context reset (R410) -/

/-- Messages of a context that wait are discarded, and the completions of those in flight (R287). -/
def dropMsgs (c : Nat) (s : State) : State :=
  { s with zl := { s.zl with peers := s.zl.peers.map (fun kv => (kv.1, { kv.2 with
    backlog := kv.2.backlog.filter (fun m => m.ctx ≠ c)
    out := kv.2.out.map (fun m => if m.ctx = c then { m with dead := true } else m) })) } }

/-- Complete every open command that `p` names with CONTEXT_RESET; the number of them counts those that post a DONE. -/
def endCommands (p : Cmd → Bool) (s : State) : Nat × State :=
  let l := s.jr.ring.filter (fun d => d.done.isNone && p d)
  ((l.filter (fun d => !d.quiet)).length,
   l.foldl (fun s d => refuse d stCtxReset { s with launches := mapErase s.launches d.jidx }) s)

/-- A RESTORE that has begun is cut off: its context is in BROKEN, and the command has been tried once more (R257, R370). -/
def cutRestores (p : Cmd → Bool) (s : State) : State :=
  (s.jr.ring.filter (fun d => d.opcode = 0x605 && d.done.isNone && p d)).foldl (fun s d =>
    if (ctxGet s d.ctx).train.restoring then
      trainMod d.ctx (fun t => { t with st := .broken, restoring := false }) (ringMod d.jidx (fun e => { e with tries := e.tries + 1 }) s)
    else s) s

/-- Everything of a context on the units. -/
def stopContext (c : Nat) (s : State) : State :=
  let s := dropTrailers c (dropLandings (· = c) s)
  let s : State := dropPrograms (fun l => l.ctx = c) true s
  let s : State := { s with strata := s.strata.map (fun kv => (kv.1, { kv.2 with
    signals := kv.2.signals.filter (fun q => q.1 ≠ c)
    uses := kv.2.uses.filter (fun u => u.1 / 16 ≠ c) })) }
  let s := cancelMoves (· = c) s
  let s := dropMsgs c s
  let s := { s with groups := s.groups.map (fun kv => if kv.2.ctx ≠ c then kv else
    (kv.1, { kv.2 with run := none, load := none, slots := [], atPeer := [], asking := [] })) }
  ctxMod c (fun x => { x with train := { x.train with commit := none, launches := [] } }) s

/-- A context reset, ending every command of the context but the one that asks for it (R410, T13.9). CTX_CREATE
names a context that it makes, and is no command of it (log 34). -/
def contextReset (c : Nat) (but : Option Nat) (s : State) : Nat × State :=
  endCommands (fun d => d.ctx = c && d.opcode ≠ 0x200 && some d.jidx ≠ but) (stopContext c (cutRestores (fun d => d.ctx = c) s))

/-! ### Interrupted commands (R370, R385, R386) -/

/-- Take back what a command that waits on something has asked for. -/
def unwait (d : Cmd) (s : State) : State :=
  let fresh := (s.deep.jobs.filter (fun j => j.cmd = d.jidx && j.fresh)).map (·.object)
  let s := unqueue (fun t => t.cmd = some d.jidx) (fresh.foldl (fun s o => dropObject o s) s)
  let s := { s with
    launches := mapErase s.launches d.jidx
    deep := { s.deep with jobs := s.deep.jobs.filter (fun j => j.cmd ≠ d.jidx) }
    groups := s.groups.map (fun kv => (kv.1, { kv.2 with
      asking := kv.2.asking.filter (fun a => a.1 ≠ d.jidx), load := kv.2.load.filter (fun l => l.cmd ≠ d.jidx) })) }
  let s := if d.opcode = 0x601 then ctxMod d.ctx (fun x => { x with train := { x.train with commit := none } }) s else s
  if s.jr.bindCmd = some d.jidx then
    { s with jr := { s.jr with pair := if s.jr.wasLost then .lost else .unbound, bindCmd := none, copySent := false
                               partner := if s.jr.wasLost then s.jr.partner else 0, taking := false, taken := false, ownJournal := [], ownState := [] } }
  else s

/-- A recovery reset interrupts a command's run (R385): it waits for its replay, or after a third attempt ends. -/
def interruptOne (d : Cmd) (s : State) : State :=
  if d.tries < 2 then
    let s := ringMod d.jidx (fun e => { e with started := false, waitFrom := none, tries := e.tries + 1 }) (unwait d s)
    let s := ctxMod d.ctx (fun x => { x with train := { x.train with launches := x.train.launches.map (fun e =>
      if e.jidx = d.jidx % 2 ^ 64 then { e with tries := d.tries + 1 } else e) } }) s
    { s with jr := { s.jr with due := insertAsc d.jidx s.jr.due } }
  else if d.ctx ≠ 0 then (contextReset d.ctx none s).2
  else finish d stNotReady [] (unwait d s)

/-- Interrupt every started command that `p` names, in journal order. -/
def interrupt (p : Cmd → Bool) (s : State) : State :=
  let s := cutRestores p s
  (s.jr.ring.filter (fun d => d.started && d.done.isNone && p d)).foldl (fun s d =>
    match ringFind s d.jidx with
    | some e => if e.started && e.done.isNone then interruptOne e s else s
    | none => s) s

/-- Commands that have not started wait for the replay too. -/
def makeDue (p : Cmd → Bool) (s : State) : State :=
  { s with jr := { s.jr with due := (s.jr.ring.filter (fun d => d.done.isNone && p d)).foldl (fun l d => insertAsc d.jidx l) s.jr.due } }

/-- The member's GRAD COLL_RUN of the open step has started (R370). -/
def gradStarted (s : State) (c : Nat) : Bool :=
  let t := (ctxGet s c).train
  t.gradDone || ((groupGet s (jobGroup t.job)).bind (·.run)).any (fun r => r.kind = 4)

/-- One of the launches has landed in the open step of a context before the reduction. -/
def landingCut (s : State) (c : Nat) (js : List Nat) : Bool :=
  (ctxGet s c).stepOpen && !gradStarted s c && js.any (fun j => (mapFind s.launches j).any (·.landed))

/-- Journal indices of a context's launches that have started and not ended. -/
def runningLaunches (s : State) (c : Nat) : List Nat :=
  (s.jr.ring.filter (fun d => d.started && d.done.isNone && d.ctx = c && (d.opcode = 0x400 || d.opcode = 0x401))).map (·.jidx)

/-- Number in the ring of a launch that runs again without a DONE. -/
def quietIdx (j : Nat) : Nat := 2 ^ 64 + j

/-- The launches of the open step that have completed stand ready to run again (R370). -/
def addQuiet (c : Nat) (s : State) : State :=
  let l := ((ctxGet s c).train.launches).filter (fun d =>
    !s.jr.ring.any (fun e => (e.jidx = d.jidx && e.done.isNone) || e.jidx = quietIdx d.jidx))
  let l := l.map (fun d => { d with jidx := quietIdx d.jidx, quiet := true, accepted := true, started := false, done := none, waitFrom := none })
  { s with jr := { s.jr with ring := s.jr.ring ++ l, due := l.foldl (fun a d => insertAsc d.jidx a) s.jr.due } }

/-- A reset has interrupted a landing launch before the reduction: every launch of the step runs again (R370). -/
def rerunStep (c : Nat) (s : State) : State :=
  let js := runningLaunches s c
  let s := js.foldl (fun s j => stopLaunch j s) (dropLandings (· = c) (dropTrailers c s))
  addQuiet c (interrupt (fun d => js.contains d.jidx) s)

/-! ### The engine reset (R411) -/

/-- Launches with a program on a rod, and those whose pending signals for it are discarded. -/
def launchesOn (s : State) (n : Nat) : List Nat :=
  let sent := ((stratumGet s (rodPart s n)).signals.filter (fun q => q.2.1 = n)).map (·.2.2.2.2)
  (((onRod s n).map (·.cmd)) ++ sent).foldl (fun l j => insertAsc j l) []

/-- The engine reset of a rod (R411, T13.9). -/
def engineReset (n : Nat) (s : State) : State :=
  let js := launchesOn s n
  let ctxs := ((s.jr.ring.filter (fun d => js.contains d.jidx)).map (·.ctx)).foldl (fun l c => insertAsc c l) []
  let cut := ctxs.filter (fun c => landingCut s c js)
  let s := js.foldl (fun s j => stopLaunch j s) s
  let s := stratumMod (rodPart s n) (fun y => { y with signals := y.signals.filter (fun q => q.2.1 ≠ n)
                                                       more := y.more.filter (fun q => q.1 ≠ n) }) s
  let s := wipeRod n [] s
  let s := interrupt (fun d => js.contains d.jidx) s
  let s := cut.foldl (fun s c => rerunStep c s) s
  { s with fc := { s.fc with rstRods := s.fc.rstRods.filter (· ≠ n) } }

/-! ### Lost data (R364, R365) -/

/-- A page whose contents are lost: its clean copy, or a deep-tier page with every tile poisoned, which occupies no
flash and is charged to no quota. -/
def Page.lost (x : Page) : Page :=
  if x.flash then { x with loc := .deep, pool := false, leaving := none, missed := false }
  else { x with loc := .deep, pool := false, flashPool := false, bad := 0xFFFFFFFF#32, unasked := 0xFFFFFFFF#32, gone := true, leaving := none, missed := false }

/-- Lose the pages whose location `p` names, with the bytes of their frames. -/
def losePages (p : Loc → Bool) (s : State) : State :=
  let l := (allPages s).filter (fun q => p q.2.2.2.loc)
  l.foldl (fun s q => pageMod q.1 q.2.2.1 Page.lost
    (zeroFrame (ctxPart s q.2.1.owner) q.2.2.2.loc (if q.2.2.2.flash then s else dropFlash q.1 q.2.2.1 s))) s

/-- A location lies in a Common Store slice. -/
def Loc.inSlice (l : Nat → Bool) : Loc → Bool
  | .scratch a b => l (a / 80) || l (b / 80)
  | _ => false

/-- The scratch bytes of a slice go with its power. -/
def clearSlice (n : Nat) (s : State) : State :=
  let lo := hbmTop + n * 80 * 1048576
  { s with mem := memZero s.mem lo (80 * 1048576)
           near := { s.near with md := s.near.md.filter (fun kv => kv.1 < lo / 64 || (lo + 80 * 1048576) / 64 ≤ kv.1) } }

/-! ### The partition reset (R26 to R29, R412) -/

/-- Domains exclusive to a partition (R26, T1.4), by the bits of `Supply.domains`: rod groups (a G0 with all 16 rods of
its frame), slices, HBM sides; the others never are. -/
def exclusive (s : State) (k d : Nat) : Bool :=
  if 2 ≤ d && d < 18 then
    (if (d - 2) % 4 = 0 then (List.range 16).all (fun i => rodPart s (4 * (d - 2) + i) = k)
     else (List.range 4).all (fun i => rodPart s (4 * (d - 2) + i) = k))
  else if 18 ≤ d && d < 22 then (List.range 80).all (fun i => segPart s (80 * (d - 18) + i) = k)
  else if d = 22 then (List.range 64).all (fun c => mapGet 0 s.parts.chan c = k)
  else if d = 23 then (List.range 64).all (fun c => mapGet 0 s.parts.chan (64 + c) = k)
  else if d = 24 then (List.range 64).all (fun c => mapGet 0 s.parts.chan (128 + c) = k)
  else d = 25 && (List.range 64).all (fun c => mapGet 0 s.parts.chan (192 + c) = k)

/-- Common Store domains exclusive to a partition. -/
def ownSlices (s : State) (k : Nat) : List Nat := (List.range 4).filter (fun n => exclusive s k (18 + n))

/-- Rod groups exclusive to a partition. -/
def ownGroups (s : State) (k : Nat) : List Nat := (List.range 16).filter (fun g => exclusive s k (2 + g))

/-- Stacks whose 32 channels all belong to a partition (R28). -/
def ownStacks (s : State) (k : Nat) : List Nat :=
  (List.range 8).filter (fun n => (List.range 32).all (fun c => mapGet 0 s.parts.chan (32 * n + c) = k))

/-- Contexts of a partition; context 0, which carries the commands that act on no context, is not among them. -/
def ctxsOf (s : State) (k : Nat) : List Nat := (s.ctxs.filter (fun kv => kv.1 ≠ 0 && kv.2.part = k)).map (·.1)

/-- A slice's domain comes back: the arbiters of its four slice ports take their tables again and start from their
first slot, with counters at 0 (R225, R226). -/
def reloadSlice (n : Nat) (s : State) : State :=
  (List.range 4).foldl (fun s i => arbSet 1 (4 * n + i) (arbGet s 1 (4 * n + i)).reload s) s

/-- A rod group's domain comes back: the arbiters of its rods' beam ports, and in a G0 that of the frame's weathervane
(T1.3, R225, R226). -/
def reloadGroup (g : Nat) (s : State) : State :=
  ((List.range 4).map (4 * g + ·) ++ (if g % 4 = 0 then [64 + g / 4] else [])).foldl (fun s i =>
    arbSet 2 i (arbGet s 2 i).reload s) s

/-- The PHYs of a list of stacks train (R28). -/
def trainPhys (l : List Nat) (s : State) : State :=
  { s with near := { s.near with phy := l.foldl (fun m n => mapInsert m n s.clk.ltc) s.near.phy } }

/-- Controllers of a list of channels initialise them anew (R28, R412). -/
def reinitChans (l : List Nat) (s : State) : State :=
  { s with near := { s.near with reinit := l.foldl (fun m n => mapInsert m n s.clk.ltc) s.near.reinit } }

/-- Step 4 of T15.2 at the stacks of a partition: fast-recovery initialises the partition's channels at their controllers;
otherwise the PHYs of its own stacks train, and its channels on other stacks are initialised (R28, R412). -/
def resetChannels (k : Nat) (fast : Bool) (s : State) : State :=
  let mine := (List.range 256).filter (fun c => mapGet 0 s.parts.chan c = k)
  if fast then reinitChans mine s
  else
    let own := ownStacks s k
    reinitChans (mine.filter (fun c => !own.contains (c / 32))) (trainPhys own s)

/-- A dedicated port retrains (R28): it enters DOWN, which DOWN_EVENTS counts (R301). None of the causes of ZL_PORT_DOWN is a
retraining, and no message goes out (DESIGN CHOICE, log 79). -/
def retrain (p : Nat) (s : State) : State :=
  if (portGet s p).st = .disabled then s else mirrorCheck (autoRoutes (zlBump (zcPort p 8) 1 (portLeave p .down s)))

/-- What a partition reset does to the hardware (R412 steps 2 to 5). -/
def partitionHardware (k : Nat) (s : State) : State :=
  let ctxs := ctxsOf s k
  let mine (c : Nat) : Bool := ctxs.contains c
  let s := (ctxs.filter (· ≠ 0)).foldl (fun s c => dropMsgs c s) (dropPrograms (fun l => mine l.ctx) false (dropLandings mine s))
  let s := ((List.range 64).filter (fun n => rodPart s n = k)).foldl (fun s n => wipeRod n [] s) s
  let s := cancelMoves mine s
  let s := { s with
    strata := mapMod {} s.strata k (fun y => { y with more := [], signals := [], uses := [], hints := [] })
    wvs := (s.wvs.map (fun kv => (kv.1, { kv.2 with queue := kv.2.queue.filter (fun x => x.part ≠ k) }))).filter (fun kv => kv.2 ≠ ({} : Weathervane)) }
  let s := if s.dev.safe then s else cacheFlush (cacheSegs s k) (fun _ => true) s
  if s.parts.fast.getLsbD k then resetChannels k true s
  else
    let s := (ownGroups s k).foldl (fun s g => reloadGroup g s) (resetChannels k false s)
    let own := ownSlices s k
    let s := own.foldl (fun s n => reloadSlice n (clearSlice n s)) (losePages (Loc.inSlice own.contains) s)
    ((List.range 32).filter (fun p => mapFind s.parts.ded p = some k)).foldl (fun s p => retrain p s) s

/-- A CTX_RESET or PART_RESET whose target a larger reset has reset completes without acting (R366, R415). A
PART_RESET's duration is then no value the spec states. -/
def absorbed (ctxs parts : Nat → Bool) (s : State) : State :=
  (s.jr.ring.filter (fun d => d.done.isNone && ((d.opcode = 0x202 && ctxs d.ctx) || (d.opcode = 0x204 && parts (d.p 0 1))))).foldl
    (fun s d =>
      if d.opcode = 0x202 then finish d stSuccess (natLe 4 0) s
      else let r := drawFree s; finish d stSuccess (natLe 8 r.1) r.2) s

/-- The partition reset: `but` is the PART_RESET that asks for it (R412, R415, T13.9). -/
def partitionReset (k : Nat) (but : Option Nat) (s : State) : State :=
  let ctxs := ctxsOf s k
  let cut := ctxs.filter (fun c => landingCut s c (runningLaunches s c))
  let s := cut.foldl (fun s c => dropTrailers c s) s
  let s := partitionHardware k s
  let mine (d : Cmd) : Bool := ctxs.contains d.ctx && d.opcode ≠ 0x200 && some d.jidx ≠ but
  let s := makeDue mine (interrupt mine s)
  let s := cut.foldl (fun s c => addQuiet c s) s
  let s := { s with fc := { s.fc with
    rstParts := s.fc.rstParts.filter (· ≠ k), rstRods := s.fc.rstRods.filter (fun n => rodPart s n ≠ k) } }
  absorbed ctxs.contains (fun p => p = k && but.isNone) s

/-! ### The safe state (R395 to R397, T14.6) -/

/-- Enter the safe state. `note` is the sideband message SAFE (T16.7). -/
def enterSafe (s : State) : State :=
  if s.dev.safe then s else
    let s := cutRestores (fun _ => true) (cancelMoves (fun _ => true) s)
    let s := (List.range 32).foldl (fun s p =>
      if (portGet s p).st = .disabled then s
      else portMod p (fun x => { x with orderedSet := some s.clk.ltc }) (portLeave p .safe s)) s
    let s := autoRoutes s
    signalBoth { s with
      dev := { s.dev with safe := true, ready := false }
      sup := { s.sup with faultNLow := true }
      side := { s.side with sent := s.side.sent ++ [0x81] }
      fc := { s.fc with rstRods := [], rstParts := [], rstChip := false } }

/-! ### Retirement (R419, R420) -/

/-- The device retires. -/
def retire (s : State) : State :=
  let s : State := dropPrograms (fun _ => true) true (dropLandings (fun _ => true) s)
  let s := (List.range 64).foldl (fun s n => wipeRod n [] s) s
  let s := cancelMoves (fun _ => true) s
  let s : State := { s with
    strata := s.strata.map (fun kv => (kv.1, { kv.2 with more := [], signals := [], uses := [], hints := [] }))
    wvs := (s.wvs.map (fun kv => (kv.1, { kv.2 with queue := [] }))).filter (fun kv => kv.2 ≠ ({} : Weathervane)) }
  let s := (s.jr.ring.filter (fun d => d.done.isNone)).foldl (fun s d =>
    refuse d (if d.ctx ≠ 0 then stCtxReset else stNotReady) (unwait d s)) s
  let s : State := { s with groups := s.groups.map (fun kv => (kv.1, { kv.2 with run := none, load := none, asking := [] })) }
  let s : State := s.ctxs.foldl (fun s kv => ctxMod kv.1 (fun x => { x with train := { x.train with commit := none, launches := [] } }) s) s
  let s := (List.range 32).foldl (fun s p => portLeave p .disabled s) { s with dev := { s.dev with portEnable := 0#32 } }
  let s := mirrorCheck (sessionsIfNone (autoRoutes s))
  { s with
    dev := { s.dev with retired := true }
    trust := { s.trust with retired := true, cycled := false }
    fc := { s.fc with rstRods := [], rstParts := [], rstChip := false } }

/-! ### The chip reset (R365, R403, R413) -/

/-- Poison the HBM bursts that dirty lines cover: they are discarded (R365). -/
def poisonDirty (s : State) : State :=
  s.near.sets.foldl (fun s kv => kv.2.ways.foldl (fun s w =>
    if w.2.dirty then
      [w.2.addr, w.2.addr + 64].foldl (fun s a => { s with near := { s.near with md := mapMod 0#4 s.near.md (a / 64) (· ||| 2#4) } }) s
    else s) s) s

/-- The tags of the slices `l` cannot be read: every burst of every HBM page that may be cached is poisoned, in each
partition that holds cache-mode segments there (R365). -/
def poisonUnread (l : List Nat) (s : State) : State :=
  let hit (k : Nat) : Bool := (cacheSegs s k).any (fun i => l.contains (i / 80))
  ((allPages s).filter (fun q => q.2.1.cache ≠ 2 && (match q.2.2.2.loc with | .hbm _ _ => true | _ => false) && hit (ctxPart s q.2.1.owner))).foldl (fun s q =>
    match objBase s q.2.1.owner q.1 with
    | some b => setMd q.2.1.owner (b + q.2.2.1 * pageBytes) (List.replicate 32768 (mdOf 0 true false)) s
    | none => s) s

/-- Device memory that a chip reset keeps: HBM. -/
def keepHbm (s : State) : State :=
  { s with mem := s.mem.filter (fun kv => kv.1 < hbmTop)
           near := { s.near with md := s.near.md.filter (fun kv => 64 * kv.1 < hbmTop) } }

/-- A context between starts: nothing of it runs. -/
def Ctx.still (x : Ctx) : Ctx :=
  { x with sched := x.sched.map (fun h => { h with cursor := -1, live := [], issued := [] }), train := { x.train with commit := none, counters := [] } }

/-- A group between starts: no code table lies at a receiver (R330), nothing waits for a change. -/
def Group.still (x : Group) : Group := { x with slots := [], atPeer := [], load := none, asking := [], takeover := none, early := [], counters := [] }

/-- Start-up begins at a step with the stage that shows it (T16.1). -/
def stageOf (step : Nat) : Nat := if step ≤ 1 then 0 else if step ≤ 4 then 1 else step - 3

/-- The store die restarts (R179, R208): what had not committed goes; the map, the blocks and the snapshots stay. -/
def Deep.restart (d : Deep) : Deep :=
  { d with mounted := false, moves := [], jobs := [], refetch := [], stripes := [], lastTile := [], counters := [], ckptAt := 0
           scanAt := 0, agedAt := 0, blocks := d.blocks.map (fun kv => (kv.1, { kv.2 with moving := false }))
           retirements := [], hot := 0#2 }

/-- Poisoned tiles whose recovery a restart cuts off are to be asked for again (R202, R205). -/
def cutRecovery (s : State) : State :=
  let again (k : Nat) (s : State) : State :=
    pageMod (k / 2 ^ 30) (k / 32 % 2 ^ 25) (fun x => { x with unasked := x.unasked ||| (x.bad &&& BitVec.ofNat 32 (2 ^ (k % 32))) }) s
  let s := s.deep.refetch.foldl (fun s r => again (tileKey r.object r.page r.tile) s) s
  (s.deep.stripes.flatMap (·.2)).foldl (fun s t => if t.data.isSome && t.cmd.isNone then again t.key s else s) s

/-- A Zilet port and the peer table at a start: every enabled port trains, every session is over, and routes that
ROUTE_SET wrote stay (R278, R283, T13.6). -/
def linksStart (s : State) : State :=
  let ports : FMap Port := ((List.range 32).filter (fun p => s.dev.portEnable.getLsbD p)).map (fun p => (p, { st := .down }))
  let peers : FMap Peer := (s.zl.peers.map (fun kv =>
    (kv.1, ({ route := if routeV kv.2.route && !routeAuto kv.2.route then kv.2.route else 0#64 } : Peer)))).filter
      (fun kv => kv.2 ≠ ({} : Peer))
  { s with zl := { ports := ports, peers := peers } }

/-- Everything of the core that a chip reset and a power cycle both remove. -/
def coreStart (s : State) : State :=
  let s := cutRecovery s
  let objects := s.objects.map (fun kv => (kv.1, { kv.2 with pages := kv.2.pages.map (fun p => (p.1, { p.2 with leaving := none })) }))
  linksStart { s with
    rods := [], wvs := [], launches := [], engineNum := [], landings := [], near := { md := s.near.md }
    strata := (s.strata.map (fun kv => (kv.1, { log := kv.2.log, lost := kv.2.lost, logChan := kv.2.logChan }))).filter
      (fun kv => kv.2 ≠ ({} : Stratum))
    objects := objects
    deep := s.deep.restart
    groups := s.groups.map (fun kv => (kv.1, kv.2.still))
    ctxs := s.ctxs.map (fun kv => (kv.1, kv.2.still))
    clk := { sensors := s.clk.sensors, swVer := s.clk.swVer, beatNom := s.clk.beatNom, beatHot := s.clk.beatHot, vslope := s.clk.vslope }
    crossing := []
    side := { s.side with spdm := [] } }

/-- Domains a chip reset leaves on: PD_ON and the HBM side domains (R413). -/
def keptDomains : BitVec 30 := 0x03C00001#30

/-- Registers as a chip reset leaves them at tick `now`; start-up goes on at step 4 (R413, R432). -/
def chipRegs (now : Nat) (s : State) : State :=
  { s with
    arbiters := s.arbiters.map (fun kv => (kv.1, kv.2.reload))
    fc := { s.fc with
      prior := s.fc.sticky, sticky := 0#4096, net := [], service := false, rstRods := [], rstParts := [], rstChip := false
      transit := []
      cycleAt := 0
      history := s.fc.history.map (fun r => { r with time := r.time - now }) }
    dev := { s.dev with safe := false, ready := false, stage := 1, bootStep := 4, cold := false, bootId := 0#16 }
    sup := { s.sup with domains := s.sup.domains &&& keptDomains, window := [], sinceLower := 100, coreMv := 750, fabMv := 750
                        duty := 8, unheard := false, thermal := false }
    host := { s.host with stalled := false, waiting := false, need := 0, counters := [] }
    trust := { s.trust with booted := none, measures := [], resetAfter := none, lastRefill := 0 }
    jr := { s.jr with ring := s.jr.ring.map (fun d => { d with waitFrom := none }), lastCopy := 0, stripeAt := 0 } }

/-- The chip reset (R413, R432): start-up goes on at step 4. `unread` are the slices whose tags cannot be read. -/
def chipReset (unread : List Nat) (s : State) : State :=
  let s := unstash s
  let wasSafe := s.dev.safe
  -- R365: a safe state halted the slices with their dirty lines in place.
  let s := if wasSafe then poisonUnread unread (poisonDirty s) else cacheFlush (List.range 320) (fun _ => true) s
  let cut := ((s.ctxs.map (·.1)).filter (fun c => landingCut s c (runningLaunches s c)))
  let s := cut.foldl (fun s c => dropTrailers c s) s
  let s := cancelMoves (fun _ => true) s
  -- R386: a run other than GRAD has lost its sessions.
  let s := s.groups.foldl (fun s kv => if kv.2.run.any (fun r => r.kind ≠ 4) then endRunLost kv.1 stPeerLost s else s) s
  let s := resetPort 1 (resetPort 0 s)
  let s := makeDue (fun _ => true) (interrupt (fun _ => true) s)
  let s := cut.foldl (fun s c => addQuiet c s) s
  let s := absorbed (fun _ => true) (fun _ => true) s
  let s := keepHbm (losePages (Loc.inSlice (fun _ => true)) s)
  mirrorCheck (noteTimeref (chipRegs s.clk.ltc (coreStart s)))

/-! ### Replay (R383) -/

/-- REPLAY: the commands that waited for it may start, control commands first. -/
def replay (s : State) : State :=
  if s.jr.due.isEmpty || !s.dev.ready || s.dev.safe || s.fc.rstChip then s
  else
    let ctl := (s.jr.ring.filter (fun d => s.jr.due.contains d.jidx && control d.opcode && d.done.isNone)).map (·.jidx)
    { s with jr := { s.jr with due := [], first := ctl } }

/-- ENGINE_RESET (R411): decided by escalation. -/
def execEngineReset (rod : Fin 64) (s : State) : Host.Outcome State Fault Refusal :=
  .next (if s.fc.rstRods.contains rod && zenithRuns s && !s.dev.safe then engineReset rod s else s)

/-- PARTITION_RESET (R412): decided by escalation. -/
def execPartitionReset (part : Fin 8) (s : State) : Host.Outcome State Fault Refusal :=
  .next (if s.fc.rstParts.contains part && zenithRuns s && !s.dev.safe then partitionReset part none s else s)

/-- CHIP_RESET (R413): decided by escalation, the watchdog, FW_ACTIVATE or the sideband. The power-off sequence comes
before it (R483), and a thermal trip or a test ends only with a power cycle (R465, R478). -/
def execChipReset (unread : BitVec 4) (s : State) : Host.Outcome State Fault Refusal :=
  .next (
    if s.fc.rstChip && zenithRuns s && s.sup.power = .on && s.sup.pwrEn && s.dev.bootStep ≠ 2 && !s.sup.thermtripLow && !s.trust.testHold then
      chipReset (maskList unread.toNat 4) s
    else s)

/-- REPLAY (R383). -/
def execReplay (s : State) : Host.Outcome State Fault Refusal := .next (if zenithRuns s then replay s else s)

end Sys2Proof.Machine
end

