-- ==== Sys2Proof/Machine/Contexts.lean ====
section
/-!
DEFINITION. Contexts, partitions and segment modes by command (spec/01_structure.md R15 to R24;
spec/06_near_memory.md R142 to R144, R156, R158; spec/08_tallies.md R213, R224; spec/12_host_command_interface.md
T12.9, T12.20).
-/

namespace Sys2Proof.Machine

/-! ### Membership (R15, R16) -/

/-- Units below `n` that a map gives to partition `k`, ascending. -/
def unitsOf (m : FMap Nat) (n k : Nat) : List Nat := (List.range n).filter (fun i => mapGet 0 m i = k)

/-- Partition `k` is defined: P0 always, another while it holds units (R16). -/
def partDefined (s : State) (k : Nat) : Bool :=
  k = 0 || (k < 8 && (s.parts.rod.any (fun kv => kv.2 = k) || s.parts.chan.any (fun kv => kv.2 = k)
    || s.parts.seg.any (fun kv => kv.2 = k)))

/-- A channel with a page of a context placed on it, or a frame kept for one (R18). -/
def chanUsed (s : State) (ch : Nat) : Bool :=
  let k := mapGet 0 s.parts.chan ch
  (locsOf s k).any (fun l => match l with | .hbm g _ => (groupChans s k g).contains ch | _ => false)

/-- A segment with a page placed on it (R18, R157). -/
def segUsed (s : State) (g : Nat) : Bool :=
  (locsOf s (segPart s g)).any (fun l => match l with | .scratch a b => a = g || b = g | _ => false)

/-! ### Interleave groups (R142 to R144) -/

/-- Sizes of the groups that `n` channels are cut into: 64 as often as it goes, then one each of 32 to 1. -/
def groupSizes (n : Nat) : List Nat :=
  List.replicate (n / 64) 64 ++ [32, 16, 8, 4, 2, 1].filter (fun z => n % 64 / z % 2 = 1)

/-- Cut ascending channels into groups from the front. -/
def cutGroups (l : List Nat) : List (List Nat) :=
  ((groupSizes l.length).foldl (fun (r : List (List Nat) × List Nat) z => (r.1 ++ [r.2.take z], r.2.drop z)) ([], l)).1

/-- Numbers not in use in a partition's table, ascending. -/
def freeGroups (p : Parts) (k : Nat) : List Nat :=
  (List.range 32).filter (fun g => (mapFind p.groups (32 * k + g)).isNone)

/-- Append groups to a partition's table, numbered upward from the first free number; the second result holds the
numbers. -/
def addGroups (k : Nat) (l : List (List Nat)) (p : Parts) : Parts × List Nat :=
  let nums := (freeGroups p k).take l.length
  ({ p with groups := (nums.zip l).foldl (fun m q => mapInsert m (32 * k + q.1) q.2) p.groups }, nums)

/-- Groups of a partition's table, in the order of their numbers. -/
def tableOf (p : Parts) (k : Nat) : List (Nat × List Nat) :=
  (List.range 32).filterMap (fun g => (mapFind p.groups (32 * k + g)).map (fun l => (g, l)))

/-- Take channels out of P0's groups: the groups that lose channels are dissolved together, and what each keeps is cut
anew, in the order of their numbers (R144). -/
def takeFromP0 (chans : List Nat) (p : Parts) : Parts :=
  let hit := (tableOf p 0).filter (fun q => q.2.any chans.contains)
  (addGroups 0 (hit.flatMap (fun q => cutGroups (q.2.filter (fun c => !chans.contains c))))
    { p with groups := hit.foldl (fun m q => mapErase m q.1) p.groups }).1

/-- Groups P0 needs after a claim (R144). -/
def p0Groups (chans : List Nat) (p : Parts) : Nat :=
  (tableOf p 0).foldl (fun n q => if q.2.any chans.contains then n + (groupSizes (q.2.filter (fun c => !chans.contains c)).length).length else n + 1) 0

/-! ### PART_CONFIG (R15 to R22) -/

/-- What a PART_CONFIG names (T12.9). -/
structure PartCmd where
  part : Nat
  flags : Nat
  rods : List Nat
  chans : List Nat
  segs : List Nat
  ports : List Nat
deriving DecidableEq, Repr

def partCmd (c : Cmd) : PartCmd :=
  ⟨c.p 1 1, c.p 2 1, maskList (c.p 8 8) 64, maskList (c.p 16 32) 256, maskList (c.p 48 40) 320, maskList (c.p 88 4) 32⟩

/-- Named units that are not idle (R18). -/
def unitsBusy (s : State) (t : PartCmd) : Bool :=
  t.rods.any (fun n => !rodFree s n) || t.chans.any (chanUsed s) || t.segs.any (segUsed s)

/-- Named units outside partition `k` (R17). -/
def unitsOutside (s : State) (t : PartCmd) (k : Nat) : Bool :=
  t.rods.any (fun n => rodPart s n ≠ k) || t.chans.any (fun n => mapGet 0 s.parts.chan n ≠ k) || t.segs.any (fun g => segPart s g ≠ k)

/-- Give the named units to partition `k`. -/
def giveUnits (t : PartCmd) (k : Nat) (p : Parts) : Parts :=
  { p with
    rod := t.rods.foldl (fun m n => mapSet 0 m n k) p.rod
    chan := t.chans.foldl (fun m n => mapSet 0 m n k) p.chan
    seg := t.segs.foldl (fun m n => mapSet 0 m n k) p.seg }

/-- Numbers of rods, channels and segments a partition holds. -/
def holdings (p : Parts) (k : Nat) : Nat × Nat × Nat :=
  ((unitsOf p.rod 64 k).length, (unitsOf p.chan 256 k).length, (unitsOf p.seg 320 k).length)

/-- The partition holds some units but lacks one of the three kinds (R16). -/
def lacking (h : Nat × Nat × Nat) : Bool := h ≠ (0, 0, 0) && (h.1 = 0 || h.2.1 = 0 || h.2.2 = 0)

/-- Where cache-mode segments change hands, the caches of both partitions are rebuilt (R158). -/
def rebuildCaches (t : PartCmd) (k : Nat) (s : State) : State :=
  if t.segs.any (fun g => !segScratch s g) then
    cacheFlush (cacheSegs s 0 ++ cacheSegs s k) (fun _ => true) s
  else s

/-- A PART_CONFIG row: any code that is no operation completes with INVALID_PARAM (R350), and none is carried out
while a partition reset is in progress (R22). -/
def partConfig (s : State) (q seq op : Nat) (body : PartCmd → Cmd → State → State) : State :=
  runSub s q seq 0x203 (fun c => c.p 0 1 = op || 2 < c.p 0 1) false [(0, 3), (8, 84)] (fun c s =>
    if c.p 0 1 ≠ op then refuse c stParam s
    else if !s.fc.rstParts.isEmpty then refuse c stNotReady s
    else body (partCmd c) c s)

/-- The claim itself (R15, R20, R121, R132, R142, R144, R454): the state after it and the numbers of the new groups. -/
def claimTake (t : PartCmd) (s : State) : State × List Nat :=
  let k := t.part
  let wasDefined := partDefined s k
  let s := rebuildCaches t k s
  let p := giveUnits t k (takeFromP0 t.chans s.parts)
  let r := addGroups k (cutGroups t.chans) p
  let p := { r.1 with ded := t.ports.foldl (fun m n => mapInsert m n k) r.1.ded }
  let s := { s with parts := p }
  let s := t.rods.foldl (fun s n => rodMod n (fun x => { x with num := [] }) (powerRod n s)) s
  let s := if !wasDefined && partDefined s k then
      stratumMod k (fun y => { y with log := [], lost := 0, logChan := t.chans.headD 0 }) s else s
  (s, r.2)

/-- The status a claim completes with (R16 to R20, R142 to R144). -/
def claimCheck (t : PartCmd) (s : State) : Nat :=
  let k := t.part
  let h := holdings (giveUnits t k s.parts) k
  if k = 0 || 7 < k || t.flags ≠ 0 || t.ports.any (mirrorPort s) then stParam
  else if unitsOutside s t 0 || t.ports.any (fun n => (mapFind s.parts.ded n).isSome) || unitsBusy s t then stBusy
  else if lacking h || (h = (0, 0, 0) && !t.ports.isEmpty) then stParam
  else if (tableOf s.parts 0).any (fun g => g.2.any t.chans.contains && !g.2.all t.chans.contains && g.2.any (chanUsed s)) then stBusy
  else if 32 < (tableOf s.parts k).length + (groupSizes t.chans.length).length || 32 < p0Groups t.chans s.parts then stResource
  else stSuccess

/-- PART_CONFIG CLAIM (R16 to R20, R142 to R144). -/
def execPartConfigClaim (q : Fin 512) (seq : Nat) (s : State) : Host.Outcome State Fault Refusal :=
  .next (partConfig s q seq 0 (fun t c s =>
    let st := claimCheck t s
    if st ≠ stSuccess then refuse c st s
    else
      let r := claimTake t s
      finish c stSuccess (natLe 4 (listMask r.2)) (groupsOff r.1)))

/-- Classes bound to the releasing partition lose their budgets at the arbiters of the units it releases (R224). -/
def zeroBudgets (k : Nat) (t : PartCmd) (s : State) : State :=
  let mine (cls : Nat) : Bool := classPart s cls = some k
  let cut (x : Arbiter) : Arbiter := { x with table := x.table.filter (fun kv => 60 ≤ kv.1 || !mine kv.1) }
  let each (kind : Nat) (l : List Nat) (s : State) : State := l.foldl (fun s i => arbSet kind i (cut (arbGet s kind i)) s) s
  each 3 t.ports (each 2 t.rods (each 0 t.chans s))

/-- The release itself (R17, R20, R132, R144, R224, R454). -/
def releaseUnits (t : PartCmd) (c : Cmd) (s : State) : State :=
  let k := t.part
  let s := rebuildCaches t k s
  let last := holdings (giveUnits t 0 s.parts) k = (0, 0, 0)
  let ports := if last then (List.range 32).filter (fun n => mapFind s.parts.ded n = some k) else t.ports
  let s := zeroBudgets k { t with ports := ports } s
  let p := giveUnits t 0 s.parts
  let p := { p with
    groups := p.groups.filter (fun kv => kv.1 / 32 ≠ k || !kv.2.any t.chans.contains)
    ded := ports.foldl (fun m n => mapErase m n) p.ded
    fast := if last then p.fast &&& ~~~(BitVec.ofNat 8 (2 ^ k)) else p.fast }
  let s := { s with parts := (addGroups 0 (cutGroups t.chans) p).1 }
  let s := if last then { s with strata := mapErase s.strata k } else s
  finish c stSuccess [] (groupsOff (pump s))

/-- The status a release completes with (R16 to R20, R24, R143, R144). -/
def releaseCheck (t : PartCmd) (s : State) : Nat :=
  let k := t.part
  let h := holdings (giveUnits t 0 s.parts) k
  if k = 0 || 7 < k || t.flags ≠ 0 || t.ports.any (mirrorPort s) then stParam
  else if unitsOutside s t k || t.ports.any (fun n => mapFind s.parts.ded n ≠ some k) || unitsBusy s t then stBusy
  else if lacking h || (tableOf s.parts k).any (fun g => g.2.any t.chans.contains && !g.2.all t.chans.contains) then stParam
  else if partDefined s k && h = (0, 0, 0) && s.ctxs.any (fun kv => kv.2.part = k) then stBusy
  else if 32 < (tableOf s.parts 0).length + (groupSizes t.chans.length).length then stResource
  else stSuccess

/-- PART_CONFIG RELEASE (R16 to R20, R24, R143, R144). -/
def execPartConfigRelease (q : Fin 512) (seq : Nat) (s : State) : Host.Outcome State Fault Refusal :=
  .next (partConfig s q seq 1 (fun t c s =>
    let st := releaseCheck t s
    if st ≠ stSuccess then refuse c st s else releaseUnits t c s))

/-- PART_CONFIG SET_FLAGS (R21). -/
def execPartConfigSetFlags (q : Fin 512) (seq : Nat) (s : State) : Host.Outcome State Fault Refusal :=
  .next (partConfig s q seq 2 (fun t c s =>
    let k := t.part
    let on := t.flags = 1
    let bit := BitVec.ofNat 8 (2 ^ k)
    if 7 < k || 1 < t.flags || !t.rods.isEmpty || !t.chans.isEmpty || !t.segs.isEmpty || !t.ports.isEmpty
        || (on && !partDefined s k) then refuse c stParam s
    else if on && 2 ≤ ((List.range 8).filter (fun j => j ≠ k && s.parts.fast.getLsbD j)).length then refuse c stResource s
    else finish c stSuccess [] { s with parts := { s.parts with
      fast := if on then s.parts.fast ||| bit else s.parts.fast &&& ~~~bit } }))

/-- Put a segment into scratchpad mode (`on`) or cache mode: the caches of its partition are rebuilt, and a segment
that becomes scratchpad is zeroed with its metadata (R156, R158). -/
def segMode (i : Nat) (on : Bool) (s : State) : State :=
  let s := cacheFlush (cacheSegs s (segPart s i)) (fun _ => true) s
  let lo := hbmTop + i * 1048576
  let bit := BitVec.ofNat 320 (2 ^ i)
  { s with
    mem := if on then memZero s.mem lo 1048576 else s.mem
    near := if on then { s.near with md := s.near.md.filter (fun kv => 64 * kv.1 < lo || lo + 1048576 ≤ 64 * kv.1) } else s.near
    dev := { s.dev with scratch := if on then s.dev.scratch ||| bit else s.dev.scratch &&& ~~~bit } }

/-- SET_PARAM CS_SEG_MODE (R156, R158). -/
def execSetParamCsSegMode (q : Fin 512) (seq : Nat) (s : State) : Host.Outcome State Fault Refusal :=
  .next (setParam s q seq 0x40 (fun i v c s =>
    let old := if segScratch s i then 1 else 0
    if 320 ≤ i || 1 < v then refuse c stParam s
    else if v = 0 && segUsed s i then refuse c stBusy s
    else if v = old then setDone c old s
    else setDone c old (pump (segMode i (v = 1) s))))

/-! ### Contexts (R23, R24, R213, R410) -/

/-- Binding the class to the partition would put a budget where it may not be (R213, R220). -/
def classForeign (s : State) (cls part : Nat) : Bool :=
  [0, 2, 3].any (fun kind => (List.range (arbInstances kind)).any (fun i =>
    mapGet 0 (arbGet s kind i).table cls ≠ 0 && foreignArb s part kind i))

/-- CTX_CREATE (R23, R24, R124, R213). Its CONTEXT names a context that does not exist yet. -/
def execCtxCreate (q : Fin 512) (seq : Nat) (s : State) : Host.Outcome State Fault Refusal :=
  .next (match startable s q seq 0x200 with
    | none => s
    | some c =>
      let k := c.p 0 1
      let cls := c.p 1 1
      if !c.rest0 [(0, 2), (8, 8)] || c.ctx = 0 then refuse c stParam s
      else if ctxExists s c.ctx then refuse c stBusy s
      else if !partDefined s k then refuse c stParam s
      else if s.fc.rstParts.contains k then refuse c stNotReady s
      else if 59 < cls || (match classPart s cls with | some j => j ≠ k | none => classForeign s cls k) then refuse c stParam s
      else
        let r := if c.p 8 8 = 0 then drawFree s else (c.p 8 8, s)
        finish c stSuccess [] (ctxSet c.ctx { part := k, cls := cls, seed := BitVec.ofNat 64 r.1 } r.2))

/-- Everything a destroyed context held (T12.9). A context made later under its number is another one, so no rod
keeps banks or a store for it (R69). -/
def dropContext (c : Nat) (s : State) : State :=
  let s := ((s.objects.filter (fun kv => kv.2.owner = c || kv.2.maps.any (fun m => m.1 = c))).map (·.1)).foldl (fun s o => releaseFrom c o s) s
  { s with
    groups := s.groups.filter (fun kv => kv.2.ctx ≠ c)
    rods := (s.rods.map (fun kv => if kv.2.last = some c then (kv.1, { kv.2 with last := none }) else kv)).filter (fun kv => kv.2 ≠ ({} : Rod))
    ctxs := mapErase s.ctxs c }

/-- CTX_DESTROY (R23, R410). -/
def execCtxDestroy (q : Fin 512) (seq : Nat) (s : State) : Host.Outcome State Fault Refusal :=
  .next (runCmd s q seq 0x201 true [] (fun c s =>
    if c.ctx = 0 then refuse c stParam s
    else
      let r := contextReset c.ctx (some c.jidx) s
      finish c stSuccess (natLe 4 r.1) (dropContext c.ctx r.2)))

/-- CTX_RESET (R410). -/
def execCtxReset (q : Fin 512) (seq : Nat) (s : State) : Host.Outcome State Fault Refusal :=
  .next (runCmd s q seq 0x202 true [] (fun c s =>
    if c.ctx = 0 then refuse c stParam s
    else
      let r := contextReset c.ctx (some c.jidx) s
      finish c stSuccess (natLe 4 r.1) r.2))

/-- PART_RESET (R412). A reset of the same partition that is decided already carries it out (R415). `ticks` is the
duration it measures. -/
def execPartReset (q : Fin 512) (seq ticks : Nat) (s : State) : Host.Outcome State Fault Refusal :=
  .next (runCmd s q seq 0x204 false [(0, 1)] (fun c s =>
    let k := c.p 0 1
    if !partDefined s k then refuse c stParam s
    else if s.fc.rstParts.contains k then begun c s
    else finish c stSuccess (natLe 8 ticks) (partitionReset k (some c.jidx) s)))

end Sys2Proof.Machine
end

