-- ==== Sys2Proof/Machine/Faults.lean ====
section
/-!
DEFINITION. The fault collector (spec/14_fault_collection.md R387 to R405), the heartbeat and the watchdog, and
escalation (spec/15_hang_reset_recovery.md R406 to R421), and the monitors of speed, temperature differences and
TIMEREF (spec/02_timing_without_clock.md R38 to R46).
-/

namespace Sys2Proof.Machine

/-! ### Kinds (R389) -/

/-- Kinds T14.3 lists for a source. -/
def kindsOf (n : Nat) : List Nat :=
  if 0x010 ≤ n && n ≤ 0x017 then [0x09, 0x0A, 0x0B]
  else if (0x030 ≤ n && n ≤ 0x03F) || (0x1C0 ≤ n && n ≤ 0x1FF) || (0x500 ≤ n && n ≤ 0x5FF) then [0x06]
  else if n = 0x040 then [0x07]
  else if 0x100 ≤ n && n ≤ 0x13F then [0x01, 0x02, 0x03, 0x04, 0x05]
  else if 0x300 ≤ n && n ≤ 0x3FF then [0x0C, 0x0D]
  else if 0x600 ≤ n && n ≤ 0x605 then [0x08]
  else if n = 0x900 || n = 0x901 then [0x10, 0x11]
  else if n = 0x902 || n = 0x903 then [0x12, 0x13]
  else if n = 0xA80 || n = 0xA81 then [0x0E, 0x0F]
  else [0x00]

/-- KIND as it is handled. -/
def kindTaken (n k : Nat) : Nat := if (kindsOf n).contains k then k else 0

/-! ### Containment targets (R393) -/

/-- A unit to reset, with the rod that the message names. -/
structure Target where
  rung : Rung
  unit : Nat
  rod : Option Nat
deriving DecidableEq, Repr

/-- Rod that a source's instance names: ROD_PROGRAM, RS_UE, NUMERIC_DRIFT, RS_ACCESS, NUMERIC_SEVERE of a rod. -/
def rodNamed (n : Nat) : Option Nat := if 0x100 ≤ n && n < 0x240 then some (n % 64) else none

/-- The page at a physical address: the context that owns it. -/
def pageOwner (s : State) (pa : Nat) : Option Nat :=
  ((allPages s).find? (fun q => inFrame s (ctxPart s q.2.1.owner) q.2.2.2.loc pa)).map (fun q => q.2.1.owner)

/-- A source whose ADDRESS is a physical address: HBM_UE and CS_UE. -/
def namesPage (n : Nat) : Bool := (0x300 ≤ n && n < 0x400) || (0x020 ≤ n && n ≤ 0x023)

/-- The context a message identifies: named in ADDRESS, running on the rod, or owner of the page. -/
def ctxNamed (s : State) (n k a : Nat) : Option Nat :=
  if (0x180 ≤ n && n < 0x1C0) || (0x200 ≤ n && n < 0x248) then some (bitsOf a 23 16)
  else if 0x010 ≤ n && n ≤ 0x017 then (if k = 0x09 || k = 0x0A then some (a % 256) else none)
  else match rodNamed n with
    | some r => ((rodGet s r).run).map (fun x => x.l.ctx)
    | none => if namesPage n then pageOwner s a else none

/-- The partition a message identifies, by its instance or by the unit concerned. -/
def partNamed (s : State) (n a : Nat) : Option Nat :=
  if 0x010 ≤ n && n ≤ 0x017 then some (n - 0x010)
  else if 0x020 ≤ n && n ≤ 0x023 then
    (if hbmTop ≤ a && a < scratchTop then some (segPart s ((a - hbmTop) / 1048576))
     else if firmwareArea a then none
     else if a < hbmTop then some (mapGet 0 s.parts.chan (chanOf a)) else none)
  else if 0x300 ≤ n && n < 0x400 then (if firmwareArea a then none else some (mapGet 0 s.parts.chan (n - 0x300)))
  else if 0x400 ≤ n && n < 0x600 then some (mapGet 0 s.parts.chan (n % 256))
  else if 0x600 ≤ n && n ≤ 0x605 then
    (let i := bitsOf a 35 28
     if n = 0x600 then some (mapGet 0 s.parts.chan i)
     else if n = 0x602 then (if i < 64 then some (rodPart s i) else none)
     else if n = 0x603 then mapFind s.parts.ded i else none)
  else if n = 0x040 then (let r := bitsOf a 47 40; if r < 64 then some (rodPart s r) else none)
  else if 0x800 ≤ n && n < 0x8A0 then mapFind s.parts.ded (n % 32)
  else none

/-- The page or the context that a message names no longer exists (R393). -/
def targetGone (s : State) (n k a : Nat) : Bool :=
  match ctxNamed s n k a with
  | some c => !ctxExists s c
  | none => namesPage n

/-- The containment target (R393): the device where the page or context named no longer exists. Context 0, which lies in no one
partition, is passed over for the next unit that the message identifies; with none left the target is the device (log 35). -/
def targetOf (s : State) (n k a : Nat) : Target :=
  let rod := rodNamed n
  if targetGone s n k a then ⟨.chip, 0, rod⟩ else
  match ctxNamed s n k a with
  | some c =>
    if c ≠ 0 then ⟨.context, c, rod⟩
    else match rod, partNamed s n a with
      | some r, _ => ⟨.engine, r, rod⟩
      | none, some p => ⟨.partition, p, none⟩
      | none, none => ⟨.chip, 0, none⟩
  | none => match rod, partNamed s n a with
    | some r, _ => ⟨.engine, r, rod⟩
    | none, some p => ⟨.partition, p, none⟩
    | none, none => ⟨.chip, 0, none⟩

/-- The target lies inside a unit whose reset is decided and not finished (R415). -/
def covered (s : State) (t : Target) : Bool :=
  s.fc.rstChip || match t.rung with
    | .context => s.fc.rstParts.contains (ctxPart s t.unit)
    | .engine => s.fc.rstRods.contains t.unit || s.fc.rstParts.contains (rodPart s t.unit)
    | .partition => s.fc.rstParts.contains t.unit
    | _ => false

/-! ### Escalation (R414, R418, R419) -/

/-- A reset of the history lies within the last WINDOW. -/
def inWindow (s : State) (r : ResetRec) : Bool := decide ((s.clk.ltc : Int) - r.time ≤ ((s.fc.escWindow * ticksS : Nat) : Int))

/-- h(u, k) of R418. -/
def hits (s : State) (t : Target) : Nat :=
  (s.fc.history.filter (fun r => r.unit = t.unit && r.rung = t.rung && inWindow s r)).length

/-- The container of a unit, one rung up, or two where no rod is named (R418). -/
def container (s : State) (t : Target) : Target :=
  match t.rung with
  | .context => match t.rod with
    | some r => ⟨.engine, r, t.rod⟩
    | none => ⟨.partition, ctxPart s t.unit, none⟩
  | .engine => ⟨.partition, rodPart s t.unit, t.rod⟩
  | .partition => ⟨.chip, 0, t.rod⟩
  | .chip => ⟨.powerCycle, 0, t.rod⟩
  | .powerCycle => t

/-- The climb of R418: at most four rungs. -/
def climb (s : State) : Nat → Target → Target
  | 0, t => t
  | n + 1, t => if t.rung ≠ .powerCycle && s.fc.escN ≤ hits s t + 1 then climb s n (container s t) else t

/-- Resets counted in window mode (R419). -/
def counted (s : State) : Nat := (s.fc.history.filter (inWindow s)).length

def noteReset (t : Target) (s : State) : State :=
  { s with fc := { s.fc with history := s.fc.history ++ [{ unit := t.unit, rung := t.rung, time := s.clk.ltc }] } }

/-- Carry a reset out, or decide it for its row; a larger one takes in the smaller ones that wait (R412 to R415). -/
def doReset (t : Target) (s : State) : State :=
  let s := noteReset t s
  match t.rung with
  | .context => (contextReset t.unit none s).2
  | .engine => { s with fc := { s.fc with rstRods := insertAsc t.unit s.fc.rstRods } }
  | .partition => { s with fc := { s.fc with rstParts := insertAsc t.unit s.fc.rstParts
                                             rstRods := s.fc.rstRods.filter (fun n => rodPart s n ≠ t.unit) } }
  | .chip => { s with fc := { s.fc with rstChip := true, rstRods := [], rstParts := [] } }
  | .powerCycle =>
    let s := enterSafe s
    { s with fc := { s.fc with cycleReq := true, cycleAt := s.clk.ltc }, side := { s.side with sent := s.side.sent ++ [0x82] } }

/-- Firmware's answer to a CONTAIN message (R393, R415, R418, R419). A retired device resets nothing (log 35). -/
def contain (n k a : Nat) (s : State) : State :=
  let t := targetOf s n k a
  if s.dev.retired || covered s t then s
  else if s.fc.window then (if s.fc.escN ≤ counted s + 1 then retire s else doReset t s)
  else
    let u := climb s 4 t
    if covered s u then s else doReset u s

/-! ### The collector (R390 to R400) -/

def setSticky (n : Nat) (s : State) : State :=
  { s with fc := { s.fc with sticky := s.fc.sticky ||| BitVec.ofNat 4096 (2 ^ n) } }

/-- A fault record (R399): the ring keeps the newest 4,096. -/
def record (n k sev a : Nat) (s : State) : State :=
  let r := ringPush 4096 s.fc.ring { time := s.clk.ltc, source := n, kind := k, sev := sev, addr := a }
  { s with fc := { s.fc with ring := r.1, lost := satAdd 64 s.fc.lost r.2 } }

/-- Even parity over the 67 bits. -/
def parityOk (m : BitVec 67) : Bool := ones m.toNat 67 % 2 = 0

/-- What the collector does with a message of a known source (T14.5). -/
def takeMessage (n k a : Nat) (s : State) : State :=
  let sev := sevOf s n
  let s := setSticky n s
  let s := if n = srcThermtrip then { s with fc := { s.fc with thermtrip := true } } else s
  if s.dev.safe || sev = 0 then s
  else if sev = 3 then enterSafe s
  else
    let s := signalBoth s
    if !s.fc.service then s
    else
      let s := record n k sev a s
      if sev = 2 then contain n k a s else s

/-- The fault network, which lies with PD_FAB, and the collector in PD_ON run (R40, R390). -/
def networkRuns (s : State) : Bool := zenithRuns s && !stalled s s.sup.fabMv

/-- A message of source `n` can travel: rods, numeric units and the Common Store lie in the core region (R40, R390). -/
def messageRuns (s : State) (n : Nat) : Bool :=
  networkRuns s && (coreRuns s || !((0x100 ≤ n && n < 0x248) || (0x020 ≤ n && n < 0x040)))

/-- Messages enter the fault network where their regions run, and stop waiting (R390; at a tick: DESIGN CHOICE, log 86). -/
def enterNetwork (s : State) : State :=
  { s with fc := { s.fc with
      net := s.fc.net.filter (fun m => !messageRuns s (msgSource m))
      transit := s.fc.transit ++ s.fc.net.filter (fun m => messageRuns s (msgSource m)) } }

/-- A message is taken off the network, or from its block's entry, through which it passes at once. -/
def arriveNow (msg : BitVec 67) (s : State) : State :=
  if s.fc.transit.contains msg then { s with fc := { s.fc with transit := listEraseFirst (fun m => decide (m = msg)) s.fc.transit } }
  else { s with fc := { s.fc with net := listEraseFirst (fun m => decide (m = msg)) s.fc.net } }

/-- A message that cannot travel waits, on its way or at its block's entry, unless one of its source waits there already (R390). -/
def holdMessage (msg : BitVec 67) (s : State) : State :=
  if s.fc.transit.contains msg || s.fc.net.any (fun m => msgSource m = msgSource msg) then s
  else { s with fc := { s.fc with net := s.fc.net ++ [msg] } }

/-- FAULT_MESSAGE (R390 to R392): a message reaches the collector. Reserved sources are never raised (R388). A message that
fails the parity check is discarded, and MSG_PARITY is set in its place, with the reaction of its severity (T14.3, T14.5;
log 39). From or through a region that stalls it waits (R40). -/
def execFaultMessage (msg : BitVec 67) (s : State) : Host.Outcome State Fault Refusal :=
  .next (
    let n := msgSource msg
    let t := arriveNow msg s
    if !parityOk msg then (if networkRuns s then takeMessage srcMsgParity 0 0 t else holdMessage msg s)
    else if !sourceKnown n then s
    else if messageRuns s n then takeMessage n (kindTaken n (msgKind msg)) (msgAddr msg) t
    else holdMessage msg s)

/-- A record of the fault ring with a parity error is discarded, and counted as lost (R400). -/
def ringParity (i : Nat) (s : State) : State :=
  if i < s.fc.ring.length then
    { s with fc := { s.fc with ring := s.fc.ring.take i ++ s.fc.ring.drop (i + 1), lost := satAdd 64 s.fc.lost 1 } }
  else s

/-- FC_PARITY_ERROR (R400): in whatever collector register word it is; words from 65,536 on are the records of the fault
ring, oldest first (log 39). -/
def execFcParityError (word : Nat) (s : State) : Host.Outcome State Fault Refusal :=
  .next (if !zenithRuns s then s
    else if word < 65536 then enterSafe (setSticky srcFcParity s)
    else ringParity (word - 65536) s)

/-- THERMTRIP (R398, R465): the comparator of an armed sensor. While PD_ON stalls the safe state waits (R40). -/
def execThermtrip (sensor : Fin 128) (s : State) : Host.Outcome State Fault Refusal :=
  .next (
    if !s.sup.domains.getLsbD 0 || s.clk.failed.contains sensor then s
    else
      let s := { s with sup := { s.sup with thermtripLow := true } }
      across (zenithRuns s) (.thermtrip sensor) s (fun s => raise srcThermtrip 0 sensor (enterSafe s)))

/-! ### Commands on the collector (R403, R404, R417, R421) -/

/-- A fault record in 32 bytes (T14.9). -/
def FaultRec.bytes (r : FaultRec) : Bytes :=
  natLe 32 (fieldAt r.time 64 192 + fieldAt r.source 12 180 + fieldAt r.kind 6 174 + fieldAt r.sev 2 172 + fieldAt r.addr 48 124)

/-- FC_SEVERITY as bytes (T14.8): four sources in each. -/
def severityBytes (s : State) : Bytes :=
  (List.range 1024).map (fun i => BitVec.ofNat 8 (sevOf s (4 * i) + 4 * sevOf s (4 * i + 1) + 16 * sevOf s (4 * i + 2) + 64 * sevOf s (4 * i + 3)))

/-- The layout of T14.9. -/
def faultLayout (s : State) : Bytes :=
  natLe 512 s.fc.sticky.toNat ++ natLe 512 s.fc.prior.toNat ++ severityBytes s ++ natLe 8 s.fc.lost
    ++ natLe 8 s.fc.ring.length ++ s.fc.ring.flatMap FaultRec.bytes

/-- FAULT_READ (R404). -/
def execFaultRead (q : Fin 512) (seq : Nat) (s : State) : Host.Outcome State Fault Refusal :=
  .next (runCmd s q seq 0x703 false [(8, 8), (16, 4)] (fun c s =>
    finish c stSuccess (natLe 2 (stickyList s).length) (hostWrite c.port (c.p 8 8) ((faultLayout s).take (c.p 16 4)) s)))

/-- FAULT_CLEAR (R403): FC_PARITY's bit stays for a chip reset. -/
def execFaultClear (q : Fin 512) (seq : Nat) (s : State) : Host.Outcome State Fault Refusal :=
  .next (runCmd s q seq 0x704 false [(0, 2)] (fun c s =>
    let n := c.p 0 2
    if n ≠ 0xFFFF && !sourceKnown n then refuse c stParam s
    else
      let gone := (stickyList s).filter (fun m => m ≠ srcFcParity && (n = 0xFFFF || m = n))
      finish c stSuccess (natLe 2 gone.length)
        { s with fc := { s.fc with sticky := gone.foldl (fun b m => b &&& ~~~(BitVec.ofNat 4096 (2 ^ m))) s.fc.sticky } }))

/-- An ESCALATION_SET row: a code that is no operation completes with INVALID_PARAM (R350). -/
def escalation (s : State) (q seq op : Nat) (body : Cmd → State → State) : State :=
  runSub s q seq 0x705 (fun c => c.p 0 1 = op || 1 < c.p 0 1) false [(0, 8)] (fun c s =>
    if c.p 0 1 ≠ op then refuse c stParam s else body c s)

/-- ESCALATION_SET, OP SET (R417). -/
def execEscalationSet (q : Fin 512) (seq : Nat) (s : State) : Host.Outcome State Fault Refusal :=
  .next (escalation s q seq 0 (fun c s =>
    if 1 < c.p 1 1 || c.p 2 2 < 1 || 16 < c.p 2 2 || c.p 4 4 < 1 || 86400 < c.p 4 4 then refuse c stParam s
    else finish c stSuccess [] { s with fc := { s.fc with window := decide (c.p 1 1 = 1), escN := c.p 2 2, escWindow := c.p 4 4 } }))

/-- ESCALATION_SET, OP RETURN (R421). -/
def execEscalationReturn (q : Fin 512) (seq : Nat) (s : State) : Host.Outcome State Fault Refusal :=
  .next (escalation s q seq 1 (fun c s =>
    if !s.dev.retired || !s.trust.cycled then refuse c stParam s
    else finish c stSuccess [] { s with dev := { s.dev with retired := false }
                                        trust := { s.trust with retired := false, cycled := false }
                                        fc := { s.fc with history := [] } }))

/-! ### Heartbeat and watchdog (R401, R406 to R408, R414) -/

/-- HEARTBEAT_ADVANCE (R406): `cores` are the firmware cores that have completed their loop since the last advance. -/
def execHeartbeatAdvance (cores : BitVec 4) (s : State) : Host.Outcome State Fault Refusal :=
  .next (
    if cores = 0xF#4 && zenithRuns s && s.fc.service && s.clk.lastBeat + 100000 ≤ s.clk.ltc then
      let n := (s.clk.beat + 1) % 2 ^ 64
      { s with clk := { s.clk with beat := n, shadow := n, lastBeat := s.clk.ltc, beatRaised := false, armed := true } }
    else s)

/-- Ticks since the last advance. -/
def beatAge (s : State) : Nat := s.clk.ltc - s.clk.lastBeat

/-- The first stage of the watchdog raises its source once. -/
def raiseBeat (s : State) : State :=
  if s.clk.beatRaised then s
  else raise srcHeartbeat 0 s.clk.beat { s with clk := { s.clk with beatRaised := true } }

/-- The first stage of the watchdog (R407). -/
def beatCheck (s : State) : State :=
  if zenithRuns s && s.clk.armed && decide (1000000 ≤ beatAge s) then raiseBeat s else s

/-- HEARTBEAT_TIMEOUT (R407). -/
def execHeartbeatTimeout (s : State) : Host.Outcome State Fault Refusal := .next (beatCheck s)

/-- The second stage of the watchdog (R408, R419): disarmed from here to the first advance after the reset. -/
def watchdogCheck (s : State) : State :=
  if zenithRuns s && s.clk.armed && decide (101000000 ≤ beatAge s) && !s.dev.safe && !s.dev.retired then
    let s := raiseBeat s
    if s.fc.window && decide (s.fc.escN ≤ counted s + 1) then retire s
    else doReset ⟨.chip, 0, none⟩ { s with clk := { s.clk with armed := false } }
  else s

/-- WATCHDOG_CHIP_RESET (R408, R419). -/
def execWatchdogChipReset (s : State) : Host.Outcome State Fault Refusal := .next (watchdogCheck s)

/-- POWER_CYCLE_REPEAT (R414, T16.7): 1 s after the request was sent last, until PWR_EN falls. -/
def execPowerCycleRepeat (s : State) : Host.Outcome State Fault Refusal :=
  .next (
    if s.fc.cycleReq && s.sup.pwrEn && zenithRuns s && decide (s.fc.cycleAt + ticksS ≤ s.clk.ltc) then
      { s with fc := { s.fc with cycleAt := s.clk.ltc }, side := { s.side with sent := s.side.sent ++ [0x82] } }
    else s)

/-! ### Speed, temperature differences, TIMEREF (R38, R39, R41, R44, R46) -/

/-- Firmware runs and does maintenance. -/
def maintains (s : State) : Bool := zenithRuns s && s.fc.service && !s.dev.safe

/-- SPEED_MEASURE (R39): rates of the rod-group regions in MHz, by 4 × frame + group; a region without power has none. With every
group off there is none to hear from, and a lowering step waits no longer (R37, R455). -/
def execSpeedMeasure (mhz : List Nat) (s : State) : Host.Outcome State Fault Refusal :=
  .next (
    let l := (List.range 16).filter (fun g => s.sup.domains.getLsbD (2 + g) && g < mhz.length)
    if !maintains s then s else
      match l with
      | [] => if (List.range 16).any (fun g => s.sup.domains.getLsbD (2 + g)) then s else { s with sup := { s.sup with unheard := false } }
      | g :: rest =>
        let low := rest.foldl (fun b i => if mhz.getD i 0 < mhz.getD b 0 then i else b) g
        { s with clk := { s.clk with beatLive := mhz.getD low 0 % 4096, liveRegion := low }, sup := { s.sup with unheard := false } })

/-- Sensors of a domain by its index (R44, T17.7). -/
def regionSensors (d : Nat) : List Nat :=
  if d = 0 then [72, 73]
  else if d = 1 then [74, 75, 76, 77, 78, 79]
  else if d < 18 then (List.range 4).map (fun k => 4 * (d - 2) + k)
  else if d < 22 then [64 + 2 * (d - 18), 65 + 2 * (d - 18)]
  else []

/-- The highest reading of a region; a failed sensor's reading is that of the others (R463). None where all have failed. -/
def regionTemp (s : State) (d : Nat) : Option Int :=
  ((regionSensors d).filter (fun n => !s.clk.failed.contains n)).foldl (fun b n =>
    let t := mapGet 0 s.clk.sensors n
    match b with
    | none => some t
    | some u => some (if u < t then t else u)) none

/-- Pairs of domains adjacent for temperature (R41), the lower index first. -/
def tempPairs : List (Nat × Nat) :=
  ((List.range 22).flatMap (fun a => (List.range 22).map (fun b => (a, b)))).filter (fun q =>
    q.1 < q.2 && (q.1 = 1 || q.2 = 1 || (2 ≤ q.1 && (if q.1 < 18 then (q.1 - 2) / 4 else q.1 - 18)
      = (if q.2 < 18 then (q.2 - 2) / 4 else q.2 - 18))))

/-- Compare one pair: raise above 20 °C, re-arm below 17 °C. -/
def checkPair (s : State) (q : Nat × Nat) : State :=
  match regionTemp s q.1, regionTemp s q.2 with
  | some a, some b =>
    let d := (a - b).natAbs
    if s.clk.gradOff.contains q then
      (if d < 272 then { s with clk := { s.clk with gradOff := s.clk.gradOff.filter (· ≠ q) } } else s)
    else if 320 < d then raise srcGradient 0 (256 * q.1 + q.2) { s with clk := { s.clk with gradOff := s.clk.gradOff ++ [q] } }
    else s
  | _, _ => s

/-- THERMAL_GRADIENT_CHECK (R44). -/
def execThermalGradientCheck (s : State) : Host.Outcome State Fault Refusal :=
  .next (if maintains s then tempPairs.foldl checkPair s else s)

/-- TIMEREF_LOSS (R46, R207). -/
def execTimerefLoss (s : State) : Host.Outcome State Fault Refusal :=
  .next (
    if !s.sup.timeref then s else noteTimeref { s with sup := { s.sup with timeref := false } })

/-- TIMEREF_RETURN (R46, R207). -/
def execTimerefReturn (s : State) : Host.Outcome State Fault Refusal :=
  .next { s with sup := { s.sup with timeref := true }, clk := { s.clk with internal := false } }

end Sys2Proof.Machine
end

