-- ==== Sys2Proof/Machine/Pair.lean ====
section
/-!
DEFINITION. The mirror pair, the copies that its devices hold, restoration and the journal flush region
(spec/13_mirror_pair_consistency.md R371 to R383).
-/

namespace Sys2Proof.Machine

/-! ### Records as the partner holds them (T13.4, T13.5) -/

/-- The record is a ledger slot: its STATE is not 0 where a command record has reserved zeros. -/
def isSlot (b : Bytes) : Bool := fieldBytes b 15 1 / 64 ≠ 0

/-- Journal index of a record. -/
def recIdx (b : Bytes) : Nat := if isSlot b then fieldBytes b 24 8 else fieldBytes b 56 8

/-- The command of a journal record (T13.4). -/
def cmdOf (b : Bytes) : Cmd :=
  let f := fieldBytes b 42 1
  { jidx := fieldBytes b 56 8, seq := fieldBytes b 48 8, queue := fieldBytes b 46 2, opcode := fieldBytes b 44 2
    ctx := fieldBytes b 43 1, guarded := bitOf f 7, tries := bitsOf f 6 5, port := bitsOf f 4 4, flags := bitsOf f 3 0
    tAccept := fieldBytes b 28 8, params := byteSlice b 64 (fieldBytes b 36 4), accepted := true }

/-- An outcome as a ledger slot and its key (T13.5, T12.7). -/
def slotOfBytes (b : Bytes) : Nat × Slot :=
  let d := byteSlice b 32 32
  (slotKey (fieldBytes d 12 2) (fieldBytes b 16 8),
   { applied := decide (fieldBytes b 15 1 / 64 = 2), jidx := fieldBytes b 24 8, seq := fieldBytes b 16 8, done := d })

/-- A record enters a held copy: an outcome takes the place of its command's record and of the slot's older outcome. -/
def holdCopy (l : List Bytes) (b : Bytes) : List Bytes :=
  (l.filter (fun a => recIdx a ≠ recIdx b && !(isSlot a && isSlot b && (slotOfBytes a).1 = (slotOfBytes b).1))) ++ [b]

/-! ### Taking control state (T13.6, R376, R378, R383) -/

/-- A page of a restored object: it maps to its committed tiles in the device's own deep tier, else its contents are lost (R365,
R378). A tile that no stripe committed, or that the map marks, is poisoned, and its sources are to be asked. Placement is not
held (T13.6): the page counts against its owner's quota (DESIGN CHOICE, log 33). -/
def rebuildPage (s : State) (own : Bool) (o p : Nat) : Page :=
  let have_ (t : Nat) : Bool := (mapFind s.deep.map (tileKey o p t)).isSome
  if own && (List.range 32).any have_ then
    let bad := BitVec.ofNat 32 (listMask ((List.range 32).filter (fun t => !have_ t || s.deep.poisoned.contains (tileKey o p t))))
    { loc := .deep, flash := true, bad := bad, unasked := bad }
  else Page.lost {}

def rebuildObject (s : State) (own : Bool) (o : Nat) (x : Object) : Object :=
  { x with pages := (List.range x.count).map (fun p => (p, rebuildPage s own o p)) }

/-- An arbiter that starts from its table (R222, R225). -/
def Arbiter.fresh (x : Arbiter) : Arbiter :=
  { x with budget := x.table, borrow := x.tableBorrow, used := [], slots := 0, ptr := 0, counters := [] }

/-- A command record as it waits for its replay. The loss of power is taken to have interrupted its run (R385, R409): the
record does not say whether a run had begun (T13.4; DEDUCED, log 33). -/
def Cmd.waits (c : Cmd) (flush : Bool) : Cmd :=
  { c with started := false, accepted := true, waitFrom := none, done := none, mirror := false, flush := flush
           tries := min 3 (c.tries + 1) }

/-- The ledger with the slots of the commands of a ring, and each queue's next sequence number from it (R383). -/
def ledgerWith (ring : List Cmd) (l : FMap Slot) : FMap Slot :=
  ring.foldl (fun m c => mapInsert m (slotKey c.queue c.seq) { jidx := c.jidx, seq := c.seq }) l

def nextSeq (l : FMap Slot) (q : Nat) : Nat :=
  (l.filter (fun kv => kv.1 / 4096 = q)).foldl (fun n kv => max n (kv.2.seq + 1)) 1

/-- Take a journal and a ledger: every command that is not applied waits for its replay. -/
def takeJournal (ring : List Cmd) (ledger : FMap Slot) (next : Nat) (s : State) : State :=
  { s with jr := { s.jr with
      ring := ring, ledger := ledger, waiting := [], stripe := [], first := []
      next := ledger.foldl (fun n kv => max n (kv.2.jidx + 1)) next
      due := ring.foldl (fun l c => insertAsc c.jidx l) [] } }

/-- Units, contexts, objects, groups, budgets and the settings of ranks above 4 (R356). -/
def takeUnits (c : Control) (s : State) : State :=
  let s := cacheFlush (List.range 320) (fun _ => true) s
  let s := { s with
    dev := { s.dev with scratch := c.scratch, wvLog2 := c.wvLog2, wvThresh := c.wvThresh, kept := true }
    fc := { s.fc with history := c.history }
    parts := c.parts
    ctxs := c.ctxs.map (fun kv => (kv.1, kv.2.still))
    arbiters := c.arbiters.map (fun kv => (kv.1, kv.2.fresh))
    objects := c.objects.map (fun kv => (kv.1, rebuildObject s (c.serial = s.trust.serial) kv.1 kv.2))
    groups := c.groups.map (fun kv => (kv.1, { kv.2.still with run := none })) }
  let s := (List.range 7).foldl (fun s i =>
    let l := unitsOf s.parts.chan 256 (i + 1)
    if l.isEmpty then s else stratumMod (i + 1) (fun y => { y with logChan := l.headD 0 }) s) s
  groupsOff (((List.range 64).filter (fun n => rodPart s n ≠ 0)).foldl (fun s n => groupsOn n s) s)

/-- The sessions ended with the power: a COLL_RUN of a kind other than GRAD completes with PEER_LOST on its replay. Its record
holds no mark of a run that has begun (T13.4), so every such command is taken to be cut off (R384, R386; DEDUCED, log 33). -/
def endRuns (ring : List Cmd) (s : State) : State :=
  ring.foldl (fun s c => if c.opcode = 0x503 && c.p 59 1 / 16 ≠ 4 then finishJ c.jidx stPeerLost [] s else s) s

/-- A command whose third run the loss of power cut off is not replayed again (R385). -/
def endThird (ring : List Cmd) (s : State) : State :=
  (ring.filter (fun c => 2 < c.tries)).foldl (fun s c =>
    match ringFind s c.jidx with
    | none => s
    | some d => if d.done.isSome then s else if c.ctx ≠ 0 then (contextReset c.ctx none s).2 else finish d stNotReady [] s) s

/-- What a loss of power settles of the commands that a device takes back: runs that lost their sessions, third attempts, and
resets of a target that the power cycle has reset (R366, R385, R386). -/
def settleTaken (ring : List Cmd) (s : State) : State :=
  absorbed (fun _ => true) (fun _ => true) (endThird ring (endRuns ring s))

/-- What the flush region holds is taken back at a power cycle (R376). Only records that a stripe committed count:
a command whose ACCEPT or whose outcome had not committed is as it was before. -/
def takeFlushed (c : Control) (s : State) : State :=
  let ring := (c.ring.filter (fun d => d.accepted && !d.quiet)).map (fun d => d.waits d.flush)
  let ledger := ledgerWith ring (c.ledger.filter (fun kv => kv.2.applied && !c.ring.any (fun d => d.jidx = kv.2.jidx)))
  let s := takeJournal ring ledger c.next (takeUnits c s)
  let s := { s with
    dev := { s.dev with powerLimit := c.powerLimit, journalFlush := c.journalFlush }
    fc := { s.fc with sev := c.sev, window := c.window, escN := c.escN, escWindow := c.escWindow }
    jr := { s.jr with flushing := c.journalFlush, pair := if c.pair = .lost then .lost else .unbound, partner := if c.pair = .lost then c.partner else 0 }
    host := { s.host with queues := c.queues.map (fun kv => (kv.1, { kv.2 with
      enabled := false, e := nextSeq ledger kv.1, sqHead := 0, sqTail := 0, cqHead := 0, cqTail := 0, phase := true })) } }
  settleTaken ring (readRegion 2 s)

/-- A queue of a restored device (R378): its own configuration, disabled, bound to its held port, with the held
completions; an admin queue stays as it is and takes the held sequence state. -/
def heldQueue (s : State) (ledger : FMap Slot) (q : Nat) (h : Queue) : Queue :=
  let x := qGet s q
  if q % 256 = 0 then { x with e := nextSeq ledger q }
  else { x with enabled := false, away := h.away, e := nextSeq ledger q, held := h.held }

/-- Restoration from the copy that a survivor sent back (R378). The count of journal indices goes on after those of the copy
(R371). SQ_HEAD of a rebuilt record is no part of it: a free value. -/
def restoreOwn (s : State) : State :=
  let c := heldControl s.jr.ownState
  let cmds := (s.jr.ownJournal.filter (fun b => !isSlot b)).map cmdOf
  let ring := (List.range cmds.length).map (fun i =>
    { (cmds.getD i {}).waits false with sqHead := Config.freeValue (s.free + i) % 65536 })
  let ledger := ledgerWith ring ((s.jr.ownJournal.filter isSlot).foldl (fun m b => mapInsert m (slotOfBytes b).1 (slotOfBytes b).2) [])
  let s := { s with free := s.free + cmds.length }
  let s := takeJournal ring ledger 1 (takeUnits c s)
  let s := { s with
    ctxs := s.ctxs.map (fun kv => (kv.1, if kv.2.train.st = .none then kv.2 else { kv.2 with train := { kv.2.train with st := .repair } }))
    host := { s.host with queues := (List.range 512).foldl (fun m q =>
      mapSet {} m q (heldQueue s ledger q (mapGet {} c.queues q))) s.host.queues } }
  signalBoth (settleTaken ring s)

/-! ### PAIR_BIND, PAIR_STATUS, RESUME_POINT (R377, R379, R381, R382) -/

/-- The mirror ports lead to the device named (R296). -/
def mirrorLeads (s : State) (d : Nat) : Bool :=
  (List.range 32).all (fun p => !mirrorPort s p || ((portGet s p).live && neighbour s p = some d))

/-- The bind with device `d` waits for its partner. -/
def startBind (j d : Nat) (s : State) : State :=
  let s := ringMod j (fun e => { e with started := true, waitFrom := some s.clk.ltc }) s
  { s with jr := { s.jr with pair := .binding, partner := d, bindCmd := some j, wasLost := decide (s.jr.pair = .lost) } }

/-- Say on every mirror port that a bind waits (T10.13). -/
def askPair (s : State) : State := (List.range 32).foldl (fun s p => helloPair p s) (mirrorHello s)

/-- PAIR_BIND, OP BIND (R377). -/
def execPairBind (q : Fin 512) (seq : Nat) (s : State) : Host.Outcome State Fault Refusal :=
  .next (runSub s q seq 0x900 (fun c => c.p 0 1 ≠ 1) false [(0, 1), (2, 2)] (fun c s =>
    let d := c.p 2 2
    if c.p 0 1 ≠ 0 || s.dev.zlId.isNone || s.dev.zlId = some d || s.dev.journalFlush || !mirrorLeads s d then refuse c stParam s
    else if s.jr.pair = .binding || ((s.jr.pair = .bound || s.jr.pair = .lost) && s.jr.partner ≠ d) then refuse c stBusy s
    else if s.jr.pair = .bound then finish c stSuccess [] s
    else askPair (startBind c.jidx d s)))

/-- End the pair on this device: the copy it holds goes, and what waited for the mirror is held under standalone
rules (R379). -/
def unpair (s : State) : State :=
  let s := mirrorHello { s with jr := { s.jr with pair := .unbound, partner := 0, heldJournal := [], heldState := [], unmirrored := 0, copySent := false } }
  holdWhere (fun r => !s.jr.stripe.contains r) s

/-- A lost partner can be reached again: a mirror port that carries flits leads to it (R379, R381). -/
def partnerNear (s : State) : Bool :=
  (List.range 32).any (fun p => mirrorPort s p && (portGet s p).live && neighbour s p = some s.jr.partner)

/-- PAIR_BIND, OP UNBIND (R379). -/
def execPairUnbind (q : Fin 512) (seq : Nat) (s : State) : Host.Outcome State Fault Refusal :=
  .next (runSub s q seq 0x900 (fun c => c.p 0 1 = 1) false [(0, 1), (2, 2)] (fun c s =>
    if !(s.jr.pair = .bound || s.jr.pair = .lost) || c.p 2 2 ≠ s.jr.partner then refuse c stParam s
    else finish c stSuccess [] (unpair (if s.jr.pair = .bound || partnerNear s then sendMark s.jr.partner 6 s else s))))

/-- End a bind that waits. -/
def endBind (status : Nat) (s : State) : State :=
  match s.jr.bindCmd.bind (ringFind s) with
  | some d => mirrorHello (finish d status [] (unwait d s))
  | none => s

/-- PAIR_BIND_TIMEOUT (R377): no matching PAIR_BIND within 10 s. -/
def execPairBindTimeout (q : Fin 512) (seq : Nat) (s : State) : Host.Outcome State Fault Refusal :=
  .next (
    match s.jr.bindCmd.bind (ringFind s) with
    | some d =>
      if d.queue = q && d.seq = seq && !s.jr.copySent && !s.jr.taking && !s.jr.taken && zenithRuns s && !s.dev.safe
          && decide (d.waitFrom.getD 0 + 10 * ticksS ≤ s.clk.ltc) then endBind stNotReady s
      else s
    | none => s)

/-- PAIR_STATUS (T12.14, R380). -/
def execPairStatus (q : Fin 512) (seq : Nat) (s : State) : Host.Outcome State Fault Refusal :=
  .next (runCmd s q seq 0x901 false [] (fun c s =>
    let st := match s.jr.pair with | .unbound => 0 | .binding => 1 | .bound => 2 | .lost => 3
    let n := if s.jr.pair = .lost then s.jr.unmirrored else if s.jr.pair = .bound then s.jr.waiting.length else 0
    finish c stSuccess (natLe 1 st ++ natLe 1 0 ++ natLe 2 s.jr.partner ++ natLe 4 n ++ natLe 8 s.jr.lastMirrored) s))

/-- One queue's record of T13.8. -/
def resumeRecord (s : State) (q : Nat) : Bytes := natLe 8 (lastAccepted s q) ++ natLe 8 (lastApplied s q)

/-- RESUME_POINT (R382). -/
def execResumePoint (q : Fin 512) (seq : Nat) (s : State) : Host.Outcome State Fault Refusal :=
  .next (runCmd s q seq 0x902 false [(0, 2), (8, 8)] (fun c s =>
    let n := c.p 0 2
    if n < 512 then finish c stSuccess (resumeRecord s n) s
    else if n = 0xFFFF then
      finish c stSuccess [] (hostWrite c.port (c.p 8 8) ((List.range 512).flatMap (resumeRecord s)) s)
    else refuse c stParam s))

/-! ### What the partner sends (R290, R374, R377 to R379) -/

/-- JOURNAL (R290, R374): records for the copy held, or of this device's own past. -/
def execJournalMsg (h : MsgHdr) (records : List Bytes) (s : State) : Host.Outcome State Fault Refusal :=
  .next (receivePair (.journalMsg h records) h 0 (fun s =>
    (if s.jr.taking then { s with jr := { s.jr with ownJournal := records.foldl holdCopy s.jr.ownJournal } }
     else { s with jr := { s.jr with heldJournal := records.foldl holdCopy s.jr.heldJournal } }, some false)) s)

/-- The device may be restored: it holds no defined partition, no context and no accepted command but the PAIR_BIND (R378). -/
def mayRestore (s : State) : Bool :=
  (List.range 7).all (fun i => !partDefined s (i + 1)) && s.ctxs.all (fun kv => kv.1 = 0)
    && s.jr.ring.all (fun c => some c.jidx = s.jr.bindCmd || c.done.isSome)

/-- The survivor's copies are complete: PAIR_BIND posts its DONE, and the held state takes the place of this
device's own (R378). -/
def restored (s : State) : State :=
  let j := s.jr.ownJournal
  let t := s.jr.ownState
  let s := match s.jr.bindCmd with
    | some i => finishJ i stSuccess [] (becomeBound s)
    | none => becomeBound s
  let s := restoreOwn { s with jr := { s.jr with ownJournal := j, ownState := t } }
  { s with jr := { s.jr with ownJournal := [], ownState := [] } }

/-- What a STATE record does (R290, R374, R377 to R379). -/
def takeState (r : Bytes) (s : State) : State :=
  match Config.stateRole r with
  | 1 => if s.jr.pair = .binding then
      (if mayRestore s then { s with jr := { s.jr with taking := true, taken := false, ownJournal := [], ownState := [] } }
       else endBind stBusy s)
    else s
  | 2 => { s with jr := { s.jr with taking := false, taken := s.jr.taking } }
  | 3 => { s with jr := { s.jr with heldJournal := [], heldState := [] } }
  | 4 => if s.jr.taken && s.jr.pair = .binding then restored s else s
  | 5 => if s.jr.pair = .binding then endBind stBusy s else s
  | 6 => if s.jr.pair = .bound || s.jr.pair = .lost then unpair s else s
  | _ => if s.jr.taking then { s with jr := { s.jr with ownState := s.jr.ownState ++ [r] } }
    else { s with jr := { s.jr with heldState := s.jr.heldState ++ [r] } }

/-- STATE (R290, R374). A device that has lost its partner takes the word that the pair has ended from it (R379). -/
def execMirrorState (h : MsgHdr) (record : Bytes) (s : State) : Host.Outcome State Fault Refusal :=
  .next (if s.jr.pair = .lost && h.src = s.jr.partner && mirrorPort s h.port && Config.stateRole record = 6 then
      receive (.mirrorState h record) h 0 (fun s => (takeState record s, some false)) s
    else receivePair (.mirrorState h record) h 0 (fun s => (takeState record s, some false)) s)

/-! ### The journal flush region (R376) -/

/-- JOURNAL_STRIPE_TIMEOUT (R376): 100 ms after the open stripe's first record. -/
def execJournalStripeTimeout (s : State) : Host.Outcome State Fault Refusal :=
  .next (
    if !s.jr.stripe.isEmpty && flashRuns s && decide (s.jr.stripeAt + 100 * ticksMs ≤ s.clk.ltc) then resumeIntake (commitJournal s) else s)

/-- CONTROL_STATE_REWRITE (R376): the copy in the region is written again as it stands. -/
def execControlStateRewrite (s : State) : Host.Outcome State Fault Refusal :=
  .next (
    if s.dev.journalFlush && flashRuns s then
      flushStripe 458752 { s with flushed := some (s.flushed.getD (snapshot s)), jr := { s.jr with lastCopy := s.clk.ltc } }
    else s)

end Sys2Proof.Machine
end

