-- ==== Sys2Proof/Machine/Diag.lean ====
section
/-!
DEFINITION. Self-tests and calibrations (spec/15_hang_reset_recovery.md R422 to R427) and READ_COUNTERS
(spec/12_host_command_interface.md R353, T12.18).
-/

namespace Sys2Proof.Machine

/-! ### Units a test may take (R423) -/

/-- A context of the partition has an open step. -/
def partStep (s : State) (k : Nat) : Bool := s.ctxs.any (fun kv => kv.1 ≠ 0 && kv.2.part = k && kv.2.stepOpen)

/-- A rod is free for an intrusive test. -/
def rodTestFree (s : State) (n : Nat) : Bool := (onRod s n).all (fun l => l.ctx = 0) && !partStep s (rodPart s n)

/-- A Zilet port is free for a loopback. -/
def portTestFree (s : State) (p : Nat) : Bool :=
  ((portGet s p).st = .disabled || (portGet s p).st = .down) && !(mirrorPort s p && s.jr.pair = .bound)
    && (match mapFind s.parts.ded p with | some k => !partStep s k | none => true)

/-- Partitions with a rod in a frame. -/
def framePart (s : State) (f k : Nat) : Bool := (List.range 16).any (fun i => rodPart s (16 * f + i) = k)

/-- Units of a kind of test: 0 and 1 rods, 2 ports, 3 frames. -/
def testUnits (test : Nat) : Nat := if test < 2 then 64 else if test = 2 then 32 else 4

/-- The units named may be tested now (R423, R424). -/
def testReady (s : State) (test : Nat) (units : List Nat) : Bool :=
  if test < 2 then units.all (rodTestFree s)
  else if test = 2 then units.all (portTestFree s)
  else (List.range 8).all (fun k => !(units.any (fun f => framePart s f k) && partStep s k))

/-! ### What a test leaves (R135, R425, R426) -/

/-- A rod after an intrusive test: as after a program of context 0. -/
def testRod (n : Nat) (s : State) : State :=
  rodMod n (fun x => { x with bank0 := {}, bank1 := {}, act1 := false, last := some 0 })
    { s with mem := memZero s.mem (rsBase n) rsSize }

/-- Withdrawals after a test: a failing unit is withdrawn, one that passes is withdrawn no longer. -/
def withdraw {w : Nat} (units : List Nat) (failing : Nat) (m : BitVec w) : BitVec w :=
  units.foldl (fun m n => if bitOf failing n then m ||| BitVec.ofNat w (2 ^ n) else m &&& ~~~(BitVec.ofNat w (2 ^ n))) m

/-- A weathervane self-check: the reference sums of the frame's rods have not followed every beat (R135). -/
def checkFrame (f : Nat) (s : State) : State :=
  let off (b : Bank) : Bank := { b with ref := { b.ref with followed := false } }
  (List.range 16).foldl (fun s i => rodMod (16 * f + i) (fun x => { x with bank0 := off x.bank0, bank1 := off x.bank1 }) s) s

/-- Run a test on its units; `failing` is what it finds (R426). -/
def runTest (test : Nat) (units : List Nat) (failing : Nat) (s : State) : State :=
  if test = 0 then units.foldl (fun s n => testRod n s) { s with host := { s.host with mmaOut := withdraw units failing s.host.mmaOut } }
  else if test = 1 then units.foldl (fun s n => testRod n s) { s with host := { s.host with rodOut := withdraw units failing s.host.rodOut } }
  else if test = 2 then { s with host := { s.host with portOut := withdraw units failing s.host.portOut } }
  else units.foldl (fun s f => checkFrame f s) s

/-- Units a SELF_TEST names, and the mask of those that fail. -/
def testList (c : Cmd) : List Nat := maskList (c.p 8 8) (testUnits (c.p 0 1))

def testDone (c : Cmd) (failing : Nat) (s : State) : State :=
  let l := testList c
  finish c stSuccess (natLe 8 (listMask (l.filter (bitOf failing)))) (runTest (c.p 0 1) l failing s)

/-- Deferred commands that wait (R424). -/
def deferred (s : State) : List Cmd := s.jr.ring.filter (fun d => d.waitFrom.isSome && d.done.isNone && (d.opcode = 0x700 || d.opcode = 0x701))

/-- Let a command wait under DEFER; a seventeenth completes with NO_RESOURCE. -/
def deferCmd (c : Cmd) (s : State) : State :=
  if 16 ≤ (deferred s).length then refuse c stResource s
  else ringMod c.jidx (fun d => { d with waitFrom := some s.clk.ltc }) s

/-- A SELF_TEST row: an unknown TEST completes with INVALID_PARAM (R350). Without DEFER an intrusive test whose units
are not all free completes with BUSY_OWNED; one that runs alongside needs no free unit (R424). -/
def selfTest (s : State) (q seq test failing : Nat) : State :=
  runSub s q seq 0x700 (fun c => c.waitFrom.isNone && (c.p 0 1 = test || 3 < c.p 0 1)) false [(0, 1), (8, 8)] (fun c s =>
    if c.p 0 1 ≠ test || 2 ^ testUnits test ≤ c.p 8 8 then refuse c stParam s
    else
      let ready := testReady s test (testList c)
      let wait := bitOf c.flags 3
      if ready || (test = 3 && !wait) then testDone c failing s
      else if wait then deferCmd c s
      else refuse c stBusy s)

/-- SELF_TEST 0 (R422 to R426). -/
def execSelfTestArrayBist (q : Fin 512) (seq failing : Nat) (s : State) : Host.Outcome State Fault Refusal :=
  .next (selfTest s q seq 0 failing)

/-- SELF_TEST 1 (R422 to R426). -/
def execSelfTestRsMarch (q : Fin 512) (seq failing : Nat) (s : State) : Host.Outcome State Fault Refusal :=
  .next (selfTest s q seq 1 failing)

/-- SELF_TEST 2 (R422 to R426). -/
def execSelfTestLoopback (q : Fin 512) (seq failing : Nat) (s : State) : Host.Outcome State Fault Refusal :=
  .next (selfTest s q seq 2 failing)

/-- SELF_TEST 3 (R135, R422, R427). -/
def execSelfTestWvCheck (q : Fin 512) (seq failing : Nat) (s : State) : Host.Outcome State Fault Refusal :=
  .next (selfTest s q seq 3 failing)

/-- The deferred command a row names. -/
def waitingCmd (s : State) (q seq : Nat) : Option Cmd := (deferred s).find? (fun d => d.queue = q && d.seq = seq)

/-- DEFERRED_TEST_START (R424): every named unit is free at the same moment. -/
def execDeferredTestStart (q : Fin 512) (seq failing : Nat) (s : State) : Host.Outcome State Fault Refusal :=
  .next (match waitingCmd s q seq with
    | some c =>
      if c.opcode = 0x700 && testReady s (c.p 0 1) (testList c) && !s.dev.safe && zenithRuns s && !s.fc.rstChip then testDone c failing s else s
    | none => s)

/-- DEFER_TIMEOUT (R424): 3,600 s of waiting. -/
def execDeferTimeout (q : Fin 512) (seq : Nat) (s : State) : Host.Outcome State Fault Refusal :=
  .next (match waitingCmd s q seq with
    | some c => if !s.dev.safe && zenithRuns s && decide (c.waitFrom.getD 0 + 3600 * ticksS ≤ s.clk.ltc) then refuse c stBusy s else s
    | none => s)

/-! ### CALIBRATE (R39, R171, R422, R424, R462) -/

/-- Partitions that own a unit of a calibration: channels of a stack, or rods, segments or nothing of a region. -/
def calParts (s : State) (what u : Nat) : List Nat :=
  if what = 1 then (List.range 32).map (fun i => mapGet 0 s.parts.chan (32 * u + i))
  else if what = 2 then
    (if 2 ≤ u && u < 18 then (List.range 4).map (fun i => rodPart s (4 * (u - 2) + i))
     else if 18 ≤ u && u < 22 then (List.range 80).map (fun i => segPart s (80 * (u - 18) + i)) else [])
  else []

/-- A CALIBRATE row over `n` units: none for the thermal sensors, 8 stacks, or the 22 core regions of R44. With DEFER
it starts once no partition that owns a named unit has an open step (R424). -/
def calibrate (s : State) (q seq what n : Nat) (act : List Nat → State → State) : State :=
  runSub s q seq 0x701 (fun c => c.p 0 1 = what || 2 < c.p 0 1) false [(0, 1), (8, 8)] (fun c s =>
    let l := maskList (c.p 8 8) n
    if c.p 0 1 ≠ what || 2 ^ n ≤ c.p 8 8 then refuse c stParam s
    else if bitOf c.flags 3 && l.any (fun u => (calParts s what u).any (partStep s)) then
      (if c.waitFrom.isSome then s else deferCmd c s)
    else finish c stSuccess (natLe 8 (c.p 8 8)) (act l s))

/-- CALIBRATE 0 (R462): readings hold their last value meanwhile. -/
def execCalibrateThermal (q : Fin 512) (seq : Nat) (s : State) : Host.Outcome State Fault Refusal :=
  .next (calibrate s q seq 0 0 (fun _ s => s))

/-- CALIBRATE 1 (R171): each channel of each named stack. -/
def execCalibrateHbmPhy (q : Fin 512) (seq : Nat) (s : State) : Host.Outcome State Fault Refusal :=
  .next (calibrate s q seq 1 8 (fun l s =>
    l.foldl (fun s u => (List.range 32).foldl (fun s i =>
      { s with near := { s.near with calibrated := mapSet 0 s.near.calibrated (32 * u + i) s.clk.ltc } }) s) s))

/-- CALIBRATE 2 (R39): BEAT_LIVE keeps its last value meanwhile. -/
def execCalibrateSpeed (q : Fin 512) (seq : Nat) (s : State) : Host.Outcome State Fault Refusal :=
  .next (calibrate s q seq 2 22 (fun _ s => s))

/-! ### READ_COUNTERS (R353, T12.18) -/

/-- Groups of a context by slot (log 36). -/
def groupSlots (s : State) (c : Nat) : List (Nat × Group) := s.groups.filter (fun kv => kv.2.ctx = c)

/-- INSTANCE values of a set for a context. -/
def setInstances (s : State) (ctx set : Nat) : List Nat :=
  if set = 0x01 then List.range 68
  else if set = 0x02 then List.range 8
  else if set = 0x03 then List.range 32
  else if set = 0x04 then List.range 256
  else if set = 0x05 then (List.range 6).flatMap (fun k => (List.range (arbInstances k)).map (fun i => 256 * k + i))
  else if set = 0x06 then List.range 256
  else if set = 0x07 then List.range 4096
  else if set = 0x08 then List.range (min 16 (groupSlots s ctx).length)
  else if set = 0x09 then (if ctx = 0 then [0] else if (ctxGet s ctx).train.st = .none then [] else [jobShard (ctxGet s ctx).train.job])
  else if set = 0x0A then [0]
  else if set = 0x0B then [0, 1]
  else []

def readMap (m : FMap Nat) (l : List Nat) : List Nat := l.map (mapGet 0 m)

/-- Erase counts of a die's blocks in a mode: least, greatest, mean (T7.9). -/
def eraseCounts (s : State) (die : Nat) (slc : Bool) : List Nat :=
  let listed := (s.deep.blocks.filter (fun kv => kv.2.die = die && kv.2.slc = slc)).map (fun kv => kv.2.erases)
  let l := listed ++ List.replicate (untouched s die slc).length 0
  [l.foldl min (l.headD 0), l.foldl max 0, l.foldl (· + ·) 0 / l.length]

/-- The counters of T7.9 of a die, a context, a partition and the device that an INSTANCE names. -/
def deepCounters (s : State) (i : Nat) : List Nat :=
  (if i < 32 then readMap s.deep.counters ((List.range 4).map (dcDie i)) ++ eraseCounts s i false ++ eraseCounts s i true else [])
    ++ readMap s.deep.counters ((List.range 5).map (dcCtx i))
    ++ (if i < 8 then [(stratumGet s i).dropped] else [])
    ++ readMap s.deep.counters ((List.range 7).map dcDev) ++ [lifeUsed s false, lifeUsed s true]

/-- Values of one instance of a set, in the order of its table. -/
def setValues (s : State) (ctx set i : Nat) : List Nat :=
  if set = 0x01 then (if i < 64 then readMap (rodGet s i).num (List.range 7) else readMap s.engineNum ((List.range 6).map (fun j => 8 * (i - 64) + j)))
  else if set = 0x03 then readMap (wvGet s (i / 8)).hist ((List.range 25).map (fun j => 32 * (i % 8) + j))
  else if set = 0x04 then [mapGet 0 s.near.corr i]
  else if set = 0x05 then readMap (arbGet s (i / 256) (i % 256)).counters (List.range 131)
  else if set = 0x06 then deepCounters s i
  else if set = 0x07 then
    (if i < 32 then readMap s.zl.counters ((List.range 14).map (zcPort i)) else [])
      ++ readMap s.zl.counters ((List.range 13).map (zcPeer i)) ++ readMap s.zl.counters ((List.range 3).map zcDev)
  else if set = 0x08 then (match (groupSlots s ctx)[i]? with | some g => readMap g.2.counters (List.range 272) | none => [])
  else if set = 0x09 then readMap (ctxGet s ctx).train.counters (List.range 8)
  else if set = 0x0B then readMap s.host.counters ((List.range 7).map (fun j => 8 * i + j))
  else []

/-- Bytes of one instance: records of a log or a ring alone, as they are, oldest first (T12.18 names no set for LOG_LOST);
the layout of counters is not in the spec (log 18). -/
def setBytes (s : State) (ctx set i : Nat) : Bytes :=
  (if set = 0x02 then (stratumGet s i).log.flatMap (fun r => natLe 32 r.toNat)
   else if set = 0x0A then (ctxGet s ctx).train.ring.flatMap (fun r => natLe 64 r.toNat) else [])
    ++ (if set = 0x02 || set = 0x0A then [] else Config.pageLayout (256 + set) (setValues s ctx set i))

def eraseKeys (m : FMap Nat) (l : List Nat) : FMap Nat := l.foldl mapErase m

/-- CLEAR of one instance (R353): logs, rings and what survives a chip reset stay. -/
def setClear (ctx set i : Nat) (s : State) : State :=
  if set = 0x01 then
    (if i < 64 then rodMod i (fun x => { x with num := [] }) s
     else { s with engineNum := eraseKeys s.engineNum ((List.range 6).map (fun j => 8 * (i - 64) + j)) })
  else if set = 0x03 then wvMod (i / 8) (fun x => { x with hist := eraseKeys x.hist ((List.range 25).map (fun j => 32 * (i % 8) + j)) }) s
  else if set = 0x04 then { s with near := { s.near with corr := mapErase s.near.corr i } }
  else if set = 0x05 then arbSet (i / 256) (i % 256) { arbGet s (i / 256) (i % 256) with counters := [] } s
  else if set = 0x06 then
    let keys := (if i < 32 then (List.range 4).map (dcDie i) else []) ++ (List.range 5).map (dcCtx i) ++ (List.range 7).map dcDev
    let s := { s with deep := { s.deep with counters := eraseKeys s.deep.counters keys } }
    if i < 8 then stratumMod i (fun y => { y with dropped := 0 }) s else s
  else if set = 0x07 then
    let keys := (if i < 32 then (List.range 14).map (zcPort i) else []) ++ (List.range 13).map (zcPeer i) ++ (List.range 3).map zcDev
    { s with zl := { s.zl with counters := eraseKeys s.zl.counters keys } }
  else if set = 0x08 then
    (match (groupSlots s ctx)[i]? with
     | some g => groupMod g.1 (fun x => { x with counters := [] }) s
     | none => s)
  else if set = 0x09 then ctxMod ctx (fun x => { x with train := { x.train with counters := [] } }) s
  else if set = 0x0B then { s with host := { s.host with counters := eraseKeys s.host.counters ((List.range 7).map (fun j => 8 * i + j)) } }
  else s

/-- Sets that belong to a context. -/
def ctxSets : List Nat := [0x08, 0x09, 0x0A]

/-- READ_COUNTERS (R353). The sets of a context use the header's CONTEXT; the others carry CONTEXT 0 (R350). -/
def readCounters (c : Cmd) (s : State) : State :=
  let set := c.p 0 2
  let inst := c.p 2 2
  let all := setInstances s c.ctx set
  let l := if inst = 0xFFFF then all else all.filter (· = inst)
  if !linkUp s c.port then refuse c stPeerLost s
  else if !c.rest0 [(0, 5), (8, 8), (16, 4)] || 1 < c.p 4 1 || set = 0 || 0x0B < set || l.isEmpty
      || (if ctxSets.contains set then !ctxExists s c.ctx else c.ctx ≠ 0) then refuse c stParam s
  else
    let bs := (l.flatMap (setBytes s c.ctx set)).take (c.p 16 4)
    let t := hostWrite c.port (c.p 8 8) bs s
    let t := if c.bit 4 0 then l.foldl (fun s i => setClear c.ctx set i s) t else t
    finish c stSuccess (natLe 4 bs.length ++ natLe 4 0 ++ natLe 8 s.clk.ltc) t

def execReadCounters (q : Fin 512) (seq : Nat) (s : State) : Host.Outcome State Fault Refusal :=
  .next (match startable s q seq 0x702 with
    | none => s
    | some c => readCounters c s)

end Sys2Proof.Machine
end

