-- ==== Sys2Proof/Machine/Trust.lean ====
section
/-!
DEFINITION. Images and configuration profiles, staging and activation, attestation, SPDM, the sideband and the test
port (spec/16_startup_trust.md R433 to R446; spec/18_signals_electrical.md R475 to R478).
-/

namespace Sys2Proof.Machine

/-! ### Images (R433, T16.2) -/

def imgKind (b : Bytes) : Nat := fieldBytes b 4 2

def imgSvn (b : Bytes) : Nat := fieldBytes b 6 2

def imgLen (b : Bytes) : Nat := fieldBytes b 8 4

/-- FLAGS: bit 0 RAISE_SVN, bit 1 REVOKE. -/
def imgFlags (b : Bytes) : Nat := fieldBytes b 12 1

def imgKey (b : Bytes) : Nat := fieldBytes b 13 1

def imgRevoke (b : Bytes) : Nat := bitsOf (fieldBytes b 14 2) 3 0

def imgBody (b : Bytes) : Bytes := (b.drop 256).take (b.length - 2029 - 256)

/-- The two public keys, and the signatures of a trailer. -/
def imgEcKey (b : Bytes) : Bytes := byteSlice b (b.length - 2029) 97

def imgLmsKey (b : Bytes) : Bytes := byteSlice b (b.length - 1932) 60

def imgEcSig (b : Bytes) : Bytes := byteSlice b (b.length - 1872) 96

def imgLmsSig (b : Bytes) : Bytes := byteSlice b (b.length - 1776) 1776

/-- What both signatures cover. -/
def imgSigned (b : Bytes) : Bytes := b.take (b.length - 1872)

/-- Verification of an image of a kind (R433). -/
def imageOk (s : State) (kind : Nat) (b : Bytes) : Bool :=
  2285 ≤ b.length && fieldBytes b 0 4 = 0x4D4E3936 && imgKind b = kind && imgLen b = b.length
    && imgKey b < 4 && Config.sha384 (imgEcKey b ++ imgLmsKey b) = Config.romKeyDigest (imgKey b)
    && !bitOf s.trust.revoked.toNat (imgKey b)
    && Config.ecdsaVerify (imgEcKey b) (imgSigned b) (imgEcSig b)
    && Config.lmsVerify (imgLmsKey b) (imgSigned b) (imgLmsSig b)
    && mapGet 0 s.trust.minSvn kind ≤ imgSvn b

/-- SERIALS admits the device: all 0, or one of the 24 is its own (T16.2, R436). -/
def serialOk (s : State) (b : Bytes) : Bool :=
  allZero (byteSlice b 64 192) || (List.range 24).any (fun i => fieldBytes b (64 + 8 * i) 8 = s.trust.serial.toNat)

/-- The configuration image in use: the newest verified one of the two slots (R435, R436). -/
def configImage (s : State) : Option Bytes :=
  [s.trust.cfgNewest, 1 - s.trust.cfgNewest].findSome? (fun i =>
    let b := mapGet [] s.trust.cfg i
    if imageOk s 2 b && serialOk s b then some b else none)

/-- The number of the profile that the straps choose, and the profile (R436). -/
def profileNumber (s : State) (b : Bytes) : Nat :=
  let n := (Config.profilesOf b).length
  if n = 0 then 0 else s.sup.strap.toNat % n

def profileOf (s : State) (b : Bytes) : Option Profile := (Config.profilesOf b)[profileNumber s b]?

/-! ### Profiles (R436, T16.4) -/

/-- Apply items in turn while each is valid. -/
def applyAll {α : Type} (f : α → State → Option State) : List α → State → Option State
  | [], s => some s
  | x :: l, s => (f x s).bind (applyAll f l)

/-- An item that sets what it may set. -/
def item (ok : Bool) (s : State) : Option State := if ok then some s else none

/-- The state before any item: every default of T16.4, with P0's groups over all channels (R144). -/
def defaults (s : State) : State :=
  { sup := s.sup, trust := s.trust, clk := s.clk
    parts := (addGroups 0 (cutGroups (List.range 256)) {}).1 }

/-- Rank 2 (R356): severities, power limit, escalation. -/
def applyFaults (p : Profile) (s : State) : Option State :=
  (applyAll (fun (q : Nat × Nat) s => item (sevAllowed q.1 q.2) { s with fc := { s.fc with sev := mapInsert s.fc.sev q.1 q.2 } }) p.severities s).bind
    (fun s => item (1200 ≤ p.powerLimit && p.powerLimit ≤ 2100 && 1 ≤ p.escN && p.escN ≤ 16 && 1 ≤ p.escWindow && p.escWindow ≤ 86400)
      { s with dev := { s.dev with powerLimit := p.powerLimit }, fc := { s.fc with window := p.window, escN := p.escN, escWindow := p.escWindow } })

/-- A route entry as ROUTE_SET takes it (R277). -/
def routeOk (v : Nat) : Bool := v < 2 ^ 64 && !(bitOf v 63 && bitsOf v 31 0 = 0) && !bitOf v 62 && bitsOf v 55 32 = 0

/-- Rank 3: identity, links, routes. -/
def applyLinks (p : Profile) (s : State) : Option State :=
  let id := p.idBase.map (fun b => b + if s.sup.pairSel then 1 else 0)
  let n := (maskList p.mirrorPorts 32).length
  (item ((match p.idBase with | some b => b ≤ 4094 | none => true) && p.portEnable < 2 ^ 32 && p.mirrorPorts < 2 ^ 32 && 1 ≤ n && n ≤ 4)
    { s with dev := { s.dev with zlId := id, portEnable := BitVec.ofNat 32 p.portEnable, mirrorPorts := BitVec.ofNat 32 p.mirrorPorts } }).bind
    (applyAll (fun (q : Nat × Nat) s => item (q.1 < 4096 && routeOk q.2 && s.dev.zlId ≠ some q.1)
      (peerSet q.1 { peerGet s q.1 with route := if bitOf q.2 63 then BitVec.ofNat 64 q.2 else 0#64 } s)) p.routes)

/-- One partition's units and flag; P0 takes a flag only. -/
def applyPart (p : ProfilePart) (s : State) : Option State :=
  let t : PartCmd := ⟨p.part, 0, p.rods, p.chans, p.segs, p.ports⟩
  let none_ := p.rods.isEmpty && p.chans.isEmpty && p.segs.isEmpty && p.ports.isEmpty
  let inRange := p.rods.all (· < 64) && p.chans.all (· < 256) && p.segs.all (· < 320) && p.ports.all (· < 32)
  (if none_ then item (p.part < 8) s else item (inRange && decide (claimCheck t s = stSuccess)) (claimTake t s).1).bind (fun s =>
    if p.fast then
      item (partDefined s p.part && ((List.range 8).filter (fun j => j ≠ p.part && s.parts.fast.getLsbD j)).length < 2)
        { s with parts := { s.parts with fast := s.parts.fast ||| BitVec.ofNat 8 (2 ^ p.part) } }
    else some s)

/-- Every partition's groups, built at start-up (R144). -/
def startGroups (p : Parts) : Parts :=
  ([1, 2, 3, 4, 5, 6, 7, 0] : List Nat).foldl (fun p k => (addGroups k (cutGroups (unitsOf p.chan 256 k)) p).1) { p with groups := [] }

/-- Rank 5: partitions, segment modes, weathervane settings. -/
def applyUnits (p : Profile) (s : State) : Option State :=
  (applyAll applyPart p.parts s).bind (fun s =>
    item (p.scratch.all (· < 320) && p.wvLog2.all (fun q => q.1 < 8 && 4 ≤ q.2 && q.2 ≤ 16) && p.wvThresh.all (fun q => q.1 < 8 && 1 ≤ q.2 && q.2 ≤ 24))
      { s with
        parts := startGroups s.parts
        dev := { s.dev with
          scratch := BitVec.ofNat 320 (listMask p.scratch)
          wvLog2 := p.wvLog2.foldl (fun m q => mapSet 8 m q.1 q.2) []
          wvThresh := p.wvThresh.foldl (fun m q => mapSet 6 m q.1 q.2) [] } })

/-- Rank 6: budgets and modes of one kind; a class left out takes 0 (R210, R220, R223). -/
def applyTally (t : ProfileTally) (s : State) : Option State :=
  let x : Arbiter := 
    { table := t.budgets, tableBorrow := t.borrow.getD true, budget := t.budgets, borrow := t.borrow.getD true }
  item (t.kind < 6 && t.budgets.all (fun kv => kv.1 < 64 && kv.2 ≤ 4096 && (kv.1 ≠ 60 || t.kind = 3 || kv.2 = 0)) && budgetSum x ≤ 4096
      && 41 ≤ mapGet 0 t.budgets 61 && 41 ≤ mapGet 0 t.budgets 62)
    ((List.range (arbInstances t.kind)).foldl (fun s i => arbSet t.kind i x s) s)

/-- Validate a profile's items in ascending rank, each against the state that those of lower rank leave. -/
def applyProfile (p : Profile) (s : State) : Option State :=
  (applyFaults p s).bind (fun s => (applyLinks p s).bind (fun s =>
    (item (p.journalFlush ≤ 1) { s with dev := { s.dev with journalFlush := decide (p.journalFlush = 1) } }).bind (fun s =>
      (applyUnits p s).bind (applyAll applyTally p.tallies))))

/-- The starting state that a configuration image gives, if all of it is valid (R436). -/
def startingState (s : State) (b : Bytes) : Option State := (profileOf s b).bind (fun p => applyProfile p (defaults s))

/-! ### Staging and activation (R438, R439) -/

def stagingMax : Nat := 67108864

/-- Put bytes at an offset of the staging area: offset 0 begins a new image (R438). Its tiles are those of the boot region. -/
def stageBytes (off : Nat) (bs : Bytes) (last : Bool) (s : State) : State :=
  let s := writeRegion 0 (off / 65536) ((off % 65536 + bs.length + 65535) / 65536) s
  { s with trust := { s.trust with
      staging := memWrite (if off = 0 then [] else s.trust.staging) off bs
      staged := off + bs.length, stagedLast := last } }

/-- FW_STAGE (R438): the bytes go into the boot region (T7.2), which takes no program while TIMEREF is away (R207). -/
def execFwStage (q : Fin 512) (seq : Nat) (s : State) : Host.Outcome State Fault Refusal :=
  .next (runCmd s q seq 0x800 false [(0, 17)] (fun c s =>
    let off := c.p 0 4
    let n := c.p 4 4
    if 1048576 < n || bitsOf (c.p 16 1) 7 1 ≠ 0 then refuse c stParam s
    else if s.trust.actPending then refuse c stBusy s
    else if s.trust.staged < off then refuse c stParam s
    else if stagingMax < off + n then refuse c stResource s
    else if !s.sup.timeref then s
    else finish c stSuccess (natLe 4 (off + n)) (stageBytes off (hostRead s c.port (c.p 8 8) n) (c.bit 16 0) s)))

/-- The staged image. -/
def stagedImage (s : State) : Bytes := memRead s.trust.staging 0 s.trust.staged

/-- Write an image's tiles into slot `i` of the boot region: 0 and 1 hold firmware, 2 and 3 configurations (T7.2; log 24). -/
def writeSlot (i : Nat) (b : Bytes) (s : State) : State := writeRegion 0 (1024 * (i + 1)) ((b.length + 65535) / 65536) s

/-- Put a verified image into its slot (R439). -/
def activate (b : Bytes) (now : Bool) (s : State) : State :=
  if imgKind b = 1 then
    let i : Fin 2 := 1 - s.trust.booted.getD 0
    let s := writeSlot i.val b s
    { s with trust := { s.trust with fw := mapSet [] s.trust.fw i b, preferred := i, actPending := !now } }
  else
    let i := 1 - s.trust.cfgNewest
    let s := writeSlot (2 + i) b s
    { s with trust := { s.trust with cfg := mapSet [] s.trust.cfg i b, cfgNewest := i } }

/-- FW_ACTIVATE (R439). Only a firmware bundle starts a chip reset (log 37), once its DONE has posted. Without TIMEREF the store die neither reads the
staged image nor programs a slot, and the command waits (R207). -/
def execFwActivate (q : Fin 512) (seq : Nat) (s : State) : Host.Outcome State Fault Refusal :=
  .next (runCmd s q seq 0x801 false [(0, 1)] (fun c s =>
    let b := stagedImage s
    let now := decide (c.p 0 1 = 1)
    if 1 < c.p 0 1 || !s.trust.stagedLast then refuse c stParam s
    else if !s.sup.timeref then s
    else if imageOk s 1 b || (imageOk s 2 b && serialOk s b && (startingState s b).isSome) then
      let s := activate b now s
      finish c stSuccess [] (if now && imgKind b = 1 then { s with trust := { s.trust with resetAfter := some c.jidx } } else s)
    else finish c stAuth [] { s with trust := { s.trust with staging := [], staged := 0, stagedLast := false } }))

/-! ### Identity keys (R441 to R444) -/

def lmsLeaves : Nat := 1048576

/-- Advance the LMS leaf index before its signature is released, and report the leaves that remain (T16.3). -/
def useLeaf (s : State) : State :=
  let left := lmsLeaves - (s.trust.leaf + 1)
  let s := { s with trust := { s.trust with leaf := s.trust.leaf + 1 } }
  if left = 0 then raise srcRot 0 0x11 s else if left = 65535 then raise srcRot 0 0x10 s else s

/-- Take a token. From a full bucket the time to the next one counts from here (R444). -/
def useToken (s : State) : State :=
  { s with trust := { s.trust with tokens := s.trust.tokens - 1, lastRefill := if 8 ≤ s.trust.tokens then s.clk.ltc else s.trust.lastRefill } }

/-- TOKEN_REFILL (R444): one token, at most once in 1 s; seconds without the row are not made up for (DESIGN CHOICE, log 16). -/
def execTokenRefill (s : State) : Host.Outcome State Fault Refusal :=
  .next (
    if zenithRuns s && decide (s.trust.lastRefill + ticksS ≤ s.clk.ltc) then
      { s with trust := { s.trust with tokens := min 8 (s.trust.tokens + 1), lastRefill := s.clk.ltc } }
    else s)

/-- Measurements 1 to 12 (T16.5). -/
def measurements (s : State) : Bytes := (List.range 12).flatMap (fun i => byteSlice (mapGet [] s.trust.measures (i + 1)) 0 48)

/-- Bytes 0 to 695 of the report (T16.6); `s` is the state after the leaf was taken. -/
def attestBody (s : State) (nonce : Bytes) (alg leaf : Nat) : Bytes :=
  natLe 4 1 ++ natLe 4 2568 ++ natLe 8 s.trust.serial.toNat ++ byteSlice nonce 0 32 ++ natLe 8 s.clk.ltc ++ natLe 2 s.dev.bootId.toNat
    ++ natLe 1 alg ++ natLe 1 12 ++ natLe 4 (if bitOf alg 1 then leaf else 0xFFFFFFFF) ++ natLe 4 (lmsLeaves - s.trust.leaf)
    ++ natLe 4 0 ++ measurements s ++ List.replicate 48 0

/-- Count an ECDSA signature (log 16). -/
def signed (s : State) : State := { s with trust := { s.trust with signatures := s.trust.signatures + 1 } }

/-- Sign a report with the algorithms asked for and write it to the host; `s` is the state after the token and the
leaf `leaf` were taken. -/
def attestReply (c : Cmd) (leaf : Nat) (s : State) : State :=
  let alg := c.p 32 1
  let body := attestBody s (c.bytes 0 32) alg leaf
  let ec := if bitOf alg 0 then byteSlice (Config.ecdsaSign s.trust.signatures body) 0 96 else List.replicate 96 0
  let lms := if bitOf alg 1 then byteSlice (Config.lmsSign leaf body) 0 1776 else List.replicate 1776 0
  finish c stSuccess (natLe 4 2568) (hostWrite c.port (c.p 40 8) (body ++ ec ++ lms) (if bitOf alg 0 then signed s else s))

/-- ATTEST (R443, R444, T16.6). -/
def execAttest (q : Fin 512) (seq : Nat) (s : State) : Host.Outcome State Fault Refusal :=
  .next (runCmd s q seq 0x802 false [(0, 33), (40, 8), (48, 4)] (fun c s =>
    let alg := c.p 32 1
    if bitsOf alg 7 2 ≠ 0 || alg = 0 || c.p 48 4 < 2568 then refuse c stParam s
    else if s.trust.tokens = 0 || (bitOf alg 1 && lmsLeaves ≤ s.trust.leaf) then refuse c stResource s
    else attestReply c s.trust.leaf (useToken (if bitOf alg 1 then useLeaf s else s))))

/-- CERT_READ (R442). -/
def execCertRead (q : Fin 512) (seq : Nat) (s : State) : Host.Outcome State Fault Refusal :=
  .next (runCmd s q seq 0x803 false [(0, 1), (8, 8), (16, 4)] (fun c s =>
    if 1 < c.p 0 1 then refuse c stParam s
    else
      let b := (mapGet [] s.trust.certs (c.p 0 1)).take (c.p 16 4)
      finish c stSuccess (natLe 4 b.length) (hostWrite c.port (c.p 8 8) b s)))

/-! ### SPDM and DOE (R445, R446) -/

def answer (b : Bytes) (s : State) : State := { s with side := { s.side with answer := b } }

/-- An SPDM ERROR: 0 Busy, 1 UnsupportedRequest, 2 UnexpectedRequest, 3 InvalidRequest. Log 16. -/
def spdmError (k : Nat) (s : State) : State := answer (Config.standardReply (0x700 + k) []) s

/-- The sideband is served: from step 2 of start-up, while PWR_EN is high (R430, R476). -/
def sideServed (s : State) : Bool := zenithRuns s && decide (s.sup.power = .on) && s.sup.pwrEn

/-- A request reaches a responder: 0 and 1 the ports' mailboxes, 2 the sideband. -/
def boxReached (s : State) (box : Nat) : Bool :=
  if box < 2 then zenithRuns s && s.sup.domains.getLsbD 29 && linkUp s box else sideServed s

/-- The responder answers Busy (R445, R446). -/
def boxBusy (s : State) (box : Nat) : Bool :=
  s.dev.stage < 3 || s.dev.stage = 0xE || (box < 2 && (s.dev.safe || s.dev.stage = 0xF))

/-- A request to an SPDM responder. -/
def spdm (box : Nat) (k : Spdm → State → State) (s : State) : State :=
  if !boxReached s box then s else if boxBusy s box then spdmError 0 s else k (mapGet {} s.side.spdm box) s

def spdmSet (box : Nat) (x : Spdm) (s : State) : State := { s with side := { s.side with spdm := mapSet {} s.side.spdm box x } }

/-- A request that the negotiation must come before. -/
def negotiated (box : Nat) (k : Spdm → State → State) (s : State) : State :=
  spdm box (fun x s => if x.algs then k x s else spdmError 2 s) s

/-- The messages of one exchange as a transcript takes them: the request, and the answer (R445, log 16). -/
def exchange (code : Nat) (req reply : Bytes) : Bytes := Config.standardRequest code req ++ reply

/-- Answer a negotiation request; the exchange is part of every later signature. -/
def negotiate (box code : Nat) (req : Bytes) (x : Spdm) (s : State) : State :=
  let r := Config.standardReply (0x400 + code) []
  answer r (spdmSet box { x with vca := x.vca ++ exchange code req r } s)

/-- Answer a request for digests or a certificate; the exchange is part of the next CHALLENGE's signature. -/
def showCert (box code : Nat) (req reply : Bytes) (x : Spdm) (s : State) : State :=
  let r := Config.standardReply (0x400 + code) reply
  answer r (spdmSet box { x with certs := x.certs ++ exchange code req r, meas := [] } s)

/-- DOE_DISCOVERY (R445). -/
def execDoeDiscovery (box : Fin 3) (index : Nat) (s : State) : Host.Outcome State Fault Refusal :=
  .next (if box = 2 then s else spdm box (fun _ s => answer (Config.standardReply 0x600 [BitVec.ofNat 8 index]) s) s)

/-- GET_VERSION (R445): negotiation starts again. -/
def execGetVersion (box : Fin 3) (s : State) : Host.Outcome State Fault Refusal :=
  .next (spdm box (fun _ s => negotiate box 0x84 [] { version := true } s) s)

/-- GET_CAPABILITIES (R445). -/
def execGetCapabilities (box : Fin 3) (s : State) : Host.Outcome State Fault Refusal :=
  .next (spdm box (fun x s =>
    if x.version then negotiate box 0xE1 [] { x with caps := true, algs := false } s else spdmError 2 s) s)

/-- NEGOTIATE_ALGORITHMS (R445): P-384 and SHA-384 only. -/
def execNegotiateAlgorithms (box : Fin 3) (p384 sha384 : Bool) (s : State) : Host.Outcome State Fault Refusal :=
  .next (spdm box (fun x s =>
    if !x.caps then spdmError 2 s
    else if p384 && sha384 then negotiate box 0xE3 [] { x with algs := true } s
    else spdmError 3 s) s)

/-- GET_DIGESTS (R445). -/
def execGetDigests (box : Fin 3) (s : State) : Host.Outcome State Fault Refusal :=
  .next (negotiated box (fun x s => showCert box 0x81 [] (Config.sha384 (mapGet [] s.trust.certs 0)) x s) s)

/-- GET_CERTIFICATE (R445): slot 0. -/
def execGetCertificate (box : Fin 3) (slot offset length : Nat) (s : State) : Host.Outcome State Fault Refusal :=
  .next (negotiated box (fun x s =>
    let b := mapGet [] s.trust.certs 0
    if slot ≠ 0 || b.length ≤ offset then spdmError 3 s
    else showCert box 0x82 (natLe 1 slot ++ natLe 2 offset ++ natLe 2 length) ((b.drop offset).take length) x s) s)

/-- A signed response: one token, an ECDSA signature, and an HSS signature unless the leaves are exhausted, both over the hash of the
transcript `said` and this exchange (R444, R445). `after` is the responder's progress from here on. -/
def signedReply (box : Nat) (said req body : Bytes) (after : Spdm) (s : State) : State :=
  if s.trust.tokens = 0 then spdmError 0 s
  else
    let h := Config.sha384 (said ++ req ++ body)
    let leaf := s.trust.leaf
    let lms := decide (leaf < lmsLeaves)
    let s := useToken (if lms then useLeaf s else s)
    let hss := if lms then byteSlice (Config.lmsSign leaf h) 0 1776 else []
    answer (body ++ hss ++ byteSlice (Config.ecdsaSign s.trust.signatures h) 0 96) (signed (spdmSet box after s))

/-- CHALLENGE (R444, R445). -/
def execChallenge (box : Fin 3) (slot : Nat) (nonce : Bytes) (s : State) : Host.Outcome State Fault Refusal :=
  .next (negotiated box (fun x s =>
    if slot ≠ 0 then spdmError 3 s
    else signedReply box (x.vca ++ x.certs) (Config.standardRequest 0x83 (natLe 1 slot ++ nonce))
      (Config.standardReply 0x483 (nonce ++ Config.sha384 (mapGet [] s.trust.certs 0) ++ measurements s)) { x with certs := [], meas := [] } s) s)

/-- GET_MEASUREMENTS (R445): 0 asks for their number, 0xFF for all. -/
def execGetMeasurements (box : Fin 3) (index : Nat) (signed : Bool) (nonce : Bytes) (s : State) : Host.Outcome State Fault Refusal :=
  .next (negotiated box (fun x s =>
    if index ≠ 0xFF && 12 < index then spdmError 3 s
    else
      let data := if index = 0 then [12#8] else if index = 0xFF then measurements s else byteSlice (mapGet [] s.trust.measures index) 0 48
      let req := Config.standardRequest 0xE0 (BitVec.ofNat 8 index :: natLe 1 (if signed then 1 else 0) ++ nonce)
      let body := Config.standardReply 0x4E0 (BitVec.ofNat 8 index :: nonce ++ data)
      if signed then signedReply box (x.vca ++ x.meas) req body { x with meas := [] } s
      else answer body (spdmSet box { x with meas := x.meas ++ req ++ body } s)) s)

/-- UNSUPPORTED_REQUEST (R445). -/
def execUnsupportedRequest (box : Fin 3) (_code : Nat) (s : State) : Host.Outcome State Fault Refusal :=
  .next (spdm box (fun _ s => spdmError 1 s) s)

/-! ### The sideband (R446, T16.7, R475, R476) -/

/-- A status as an answer. -/
def answerStatus (st : Nat) (s : State) : State := answer (natLe 2 st) s

/-- GET_STATUS (T16.7). DEV_STATUS is as port A shows it (log 38). -/
def execSbGetStatus (s : State) : Host.Outcome State Fault Refusal :=
  .next (if sideServed s then answer (natLe 8 (devStatus s 0) ++ natLe 8 s.clk.beat ++ natLe 8 (faultSummary s)) s else s)

/-- FAULT_READ (T16.7). -/
def execSbFaultRead (offset : Nat) (s : State) : Host.Outcome State Fault Refusal :=
  .next (if sideServed s then answer (((faultLayout s).drop offset).take 256) s else s)

/-- RESET_CHIP (R416, T16.7). Asked for in step 2, it starts once that step has ended (log 47). -/
def execResetChip (s : State) : Host.Outcome State Fault Refusal :=
  .next (
    if sideServed s && !s.sup.thermtripLow && !s.trust.testHold then
      { s with fc := { s.fc with rstChip := true, rstRods := [], rstParts := [] } }
    else s)

/-- RECOVERY_WRITE (T16.7). -/
def execRecoveryWrite (offset : Nat) (data : Bytes) (s : State) : Host.Outcome State Fault Refusal :=
  .next (
    if !sideServed s then s
    else if s.dev.stage ≠ 0xE || 256 < data.length || stagingMax < offset + data.length then answerStatus stParam s
    else answerStatus stSuccess { s with trust := { s.trust with recovery := memWrite s.trust.recovery offset data } })

/-- The image in the recovery buffer, as long as its own LENGTH says. -/
def recoveryImage (s : State) : Bytes := memRead s.trust.recovery 0 (min stagingMax (leNat (memRead s.trust.recovery 8 4)))

/-- RECOVERY_COMMIT (T16.7). Without TIMEREF slot A takes no program (R207), and the request waits (log 43). -/
def execRecoveryCommit (s : State) : Host.Outcome State Fault Refusal :=
  .next (
    if !sideServed s then s
    else if s.dev.stage ≠ 0xE then answerStatus stParam s
    else if !s.sup.timeref then s
    else if imageOk s 1 (recoveryImage s) then
      let t := writeSlot 0 (recoveryImage s) s
      answerStatus stSuccess { t with
        trust := { t.trust with fw := mapSet [] t.trust.fw 0 (recoveryImage s), preferred := 0 }
        fc := { t.fc with rstChip := true } }
    else answerStatus stAuth s)

/-- Do `k` for a sideband message that is none of T16.7: in stage 0xE it is answered with INVALID_PARAM (R446). -/
def onSideband (s : State) (k : State → State) : State :=
  if !sideServed s then s else if s.dev.stage = 0xE then answerStatus stParam s else k s

/-- MCTP_CONTROL (R446): its answers are the standard's. -/
def execMctpControl (request : Bytes) (s : State) : Host.Outcome State Fault Refusal :=
  .next (onSideband s (answer (Config.standardReply 0x000 request)))

/-- PLDM_REQUEST (R446): a sensor's reading, or the package power and POWER_LIMIT. -/
def execPldmRequest (sensor : Option (Fin 128)) (request : Bytes) (s : State) : Host.Outcome State Fault Refusal :=
  .next (onSideband s (fun s =>
    answer (Config.standardReply 0x100 (request ++ (match sensor with
      | some n => natLe 1 n ++ natLe 2 (unsgn 16 (mapGet 0 s.clk.sensors n))
      | none => natLe 4 (s.sup.window.headD 0) ++ natLe 2 s.dev.powerLimit))) s))

/-- The static address (R475). -/
def staticAddress (s : State) : Nat := 0x58 + 2 * (s.sup.strap.toNat % 4) + if s.sup.pairSel then 1 else 0

/-- SETDASA (R475). -/
def execSetdasa (staticAddr dynAddr : Nat) (s : State) : Host.Outcome State Fault Refusal :=
  .next (
    if sideServed s && s.side.dynAddr.isNone && staticAddr = staticAddress s && dynAddr < 128 then
      { s with side := { s.side with dynAddr := some dynAddr } }
    else s)

/-- ENTDAA (R475). -/
def execEntdaa (dynAddr : Nat) (s : State) : Host.Outcome State Fault Refusal :=
  .next (if sideServed s && s.side.dynAddr.isNone && dynAddr < 128 then { s with side := { s.side with dynAddr := some dynAddr } } else s)

/-- SB_WRITE_RETRY (R476): up to 100 times for the message sent last, in I2C mode. -/
def execSbWriteRetry (s : State) : Host.Outcome State Fault Refusal :=
  .next (
    if sideServed s && s.side.dynAddr.isNone && !s.side.sent.isEmpty then
      let n := s.side.sent.length
      let k := match s.side.retry with | some (m, k) => if m = n then k else 0 | none => 0
      if k < 100 then { s with side := { s.side with retry := some (n, k + 1) } } else s
    else s)

/-! ### The test port (R477, R478) -/

/-- Load an instruction; the port works from step 2, its controller lying in PD_ON. -/
def loadTest (j : Jtag) (s : State) : State :=
  if zenithRuns s then { s with trust := { s.trust with jtag := j } } else s

/-- EXTEST, CLAMP or HIGHZ: start-up holds at step 2, or afterwards the safe state starts. -/
def enterTest (j : Jtag) (s : State) : State :=
  if !zenithRuns s then s
  else
    let s := { s with trust := { s.trust with jtag := j, testHold := true } }
    if s.dev.bootStep = 2 then s else enterSafe s

/-- EXTEST (R478). -/
def execExtest (s : State) : Host.Outcome State Fault Refusal := .next (enterTest .extest s)

/-- CLAMP (R478). -/
def execClamp (s : State) : Host.Outcome State Fault Refusal := .next (enterTest .clamp s)

/-- HIGHZ (R478). -/
def execHighz (s : State) : Host.Outcome State Fault Refusal := .next (enterTest .highz s)

/-- BYPASS (R478). -/
def execBypass (s : State) : Host.Outcome State Fault Refusal := .next (loadTest .bypass s)

/-- IDCODE (R477). -/
def execIdcode (s : State) : Host.Outcome State Fault Refusal :=
  .next (if zenithRuns s then answer (natLe 4 0x196009CF) (loadTest .idcode s) else s)

/-- SAMPLE_PRELOAD (R478). -/
def execSamplePreload (s : State) : Host.Outcome State Fault Refusal := .next (loadTest .sample s)

end Sys2Proof.Machine
end

