-- ==== Sys2Proof/Machine/Zilet.lean ====
section
/-!
DEFINITION. The Zilet link's rows (spec/10_zilet_links.md R263 to R298): training and recovery of ports, flits,
packets and their forwarding, sessions, tile messages, discovery, and the settings and routes of the link.
-/

namespace Sys2Proof.Machine

/-! ### Training (R265, R266, R291, R294) -/

/-- A link die's domain is on: PD_LW for ports 0 to 15, PD_LE for 16 to 31 (T17.4). -/
def linkDie (s : State) (p : Nat) : Bool := s.sup.domains.getLsbD (if p < 16 then 26 else 27)

/-- TRAINING_ATTEMPT (R265, R266): `lanes` says which lanes pass; attempts run 1 s apart. -/
def execTrainingAttempt (port : Fin 32) (lanes : BitVec 8) (s : State) : Host.Outcome State Fault Refusal :=
  .next (
    let x := portGet s port
    if x.st ≠ .down || s.dev.safe || !s.sup.zlRefclk || !linkDie s port || s.host.portOut.getLsbD port
        || x.tried.any (fun t => s.clk.ltc < t + 100000000) then s
    else
      let s := portMod port (fun x => { x with tried := some s.clk.ltc, since := s.clk.ltc }) s
      let fail := ~~~lanes
      let go (st : PortState) (up : Bool) : State :=
        sendHello port (portMod port (fun x => { x with st := .training, pending := some st, upper := up, failLanes := fail }) s)
      if fail = 0#8 then go .up false
      else if fail &&& 0x0F#8 = 0#8 then go .upX4 false
      else if fail &&& 0xF0#8 = 0#8 then go .upX4 true
      else zlBump (zcPort port 8) 1 s)

/-- TRAINING_TIMEOUT (R265): 600 ms without success. -/
def execTrainingTimeout (port : Fin 32) (s : State) : Host.Outcome State Fault Refusal :=
  .next (if (portGet s port).st = .training && decide ((portGet s port).since + 60000000 ≤ s.clk.ltc) then zlBump (zcPort port 8) 1 (portLeave port .down s) else s)

/-- A port has a neighbour that its HELLO has identified: it carries flits, recovers, or is isolated (R294). -/
def portKnows (s : State) (q : Nat) : Bool := (portGet s q).takes || (portGet s q).st = .isolated

/-- The id a HELLO shows conflicts: it is this device's own, or that of a neighbour on another port with another
SERIAL (R294). -/
def idConflict (s : State) (p : Nat) (h : BitVec 128) : Bool :=
  match hId h with
  | none => false
  | some d => s.dev.zlId = some d || (List.range 32).any (fun q => q ≠ p && portKnows s q && neighbour s q = some d
      && ((portGet s q).hello.map hSerial) ≠ some (hSerial h))

/-- HELLO (R291, R294, R278). -/
def execHello (port : Fin 32) (payload : BitVec 128) (s : State) : Host.Outcome State Fault Refusal :=
  .next (
    let x := portGet s port
    if !(x.live || x.st = .isolated || (x.st = .training && x.pending.isSome)) || s.dev.safe then s
    else
      let s := portMod port (fun x => { x with hello := some payload }) s
      if idConflict s port payload then
        if x.st = .isolated then s
        else mirrorCheck (autoRoutes (raise (srcZlConflict + port) 0 ((hId payload).getD 0) (portLeave port .isolated s)))
      else if x.st = .isolated then zlBump (zcPort port 8) 1 (portLeave port .down s)
      else
        let s := match x.pending with
          | some st =>
            let s := portMod port (fun x => { x with st := st, pending := none }) s
            if st = .upX4 then raise (srcZlDegraded + port) 0 x.failLanes.toNat s else s
          | none => s
        helloPair port (mirrorCheck (autoRoutes s)))

/-- RECOVERY_EXIT (R265, R269): replay goes on from the first unacknowledged flit, and what waited follows. -/
def execRecoveryExit (port : Fin 32) (s : State) : Host.Outcome State Fault Refusal :=
  .next (
    let x := portGet s port
    if x.st = .recovery then
      let s := zlBump (zcPort port 6) (x.replay.length - x.unsent) (onLanes port x.replay (autoRoutes
        (portMod port (fun x => { x with st := if x.narrow then .upX4 else .up, nakRun := 0, nakSent := false, unsent := 0, ackAt := s.clk.ltc }) s)))
      answerNow port (if x.helloDue then sendHello port s else s)
    else s)

/-- RECOVERY_TIMEOUT (R265, R269): 5 ms in RECOVERY. -/
def execRecoveryTimeout (port : Fin 32) (s : State) : Host.Outcome State Fault Refusal :=
  .next (if (portGet s port).st = .recovery && decide ((portGet s port).since + 500000 ≤ s.clk.ltc) then portDown port 1 s else s)

/-- LOSS_OF_SIGNAL (R269, R295). -/
def execLossOfSignal (port : Fin 32) (s : State) : Host.Outcome State Fault Refusal :=
  .next (
    let st := (portGet s port).st
    if st = .disabled || st = .down || st = .safe then s else portDown port 0 s)

/-- PEER_SAFE (R270). -/
def execPeerSafe (port : Fin 32) (s : State) : Host.Outcome State Fault Refusal :=
  .next (
    let st := (portGet s port).st
    if st = .disabled || st = .down || st = .safe then s else portDown port 2 s)

/-- ZL_REFCLK_LOSS (R468): every Zilet port goes DOWN, and the HBM PHYs stop. -/
def execZlRefclkLoss (s : State) : Host.Outcome State Fault Refusal :=
  .next ((List.range 32).foldl (fun s p =>
    let st := (portGet s p).st
    if st = .disabled || st = .down || st = .safe then s else portDown p 0 s)
    { s with sup := { s.sup with zlRefclk := false } })

/-! ### Link-level retry (R268, R269) -/

/-- NAK (R268, R269). -/
def execNak (port : Fin 32) (fseq : Nat) (s : State) : Host.Outcome State Fault Refusal := .next (goBack port (fseq % 4096) s)

/-- ACK_TIMEOUT (R269): 2 µs without an ACK while flits are outstanding. -/
def execAckTimeout (port : Fin 32) (s : State) : Host.Outcome State Fault Refusal :=
  .next (if (portGet s port).replay.isEmpty || decide (s.clk.ltc < (portGet s port).ackAt + 200) then s else enterRecovery port s)

/-- RETRY_RATE_CHECK (R269): the NAKs counted in one second. -/
def execRetryRateCheck (port : Fin 32) (s : State) : Host.Outcome State Fault Refusal :=
  .next (
    let n := (portGet s port).nakSecond
    let s := portMod port (fun x => { x with nakSecond := 0 }) s
    if 1000000 < n then raise (srcZlRetry + port) 0 n s else s)

/-! ### Flits and packets received (R268, R271, R273 to R275, R285) -/

/-- A packet header read from its 32 bytes (T10.3). -/
def parsePacket (bs : Bytes) : Packet :=
  let v := leNat (byteSlice bs 0 32)
  { dst := bitsOf v 255 244, src := bitsOf v 243 232, hops := bitsOf v 231 228, vc := bitsOf v 227 226,
    stream := bitsOf v 225 224, mtype := bitsOf v 223 216, flits := bitsOf v 215 211, bytes := bitsOf v 210 198,
    cls := bitsOf v 197 192, srcBoot := bitsOf v 191 176, dstBoot := bitsOf v 175 160, mseq := bitsOf v 159 128,
    pkt := bitsOf v 127 120, last := bitOf v 119, target := bitsOf v 95 64, ackinfo := bitsOf v 63 32, pcrc := bitsOf v 31 0 }

/-- Message types of T10.6. -/
def mtypes : List Nat := [0x01, 0x02, 0x03, 0x10, 0x11, 0x20, 0x21, 0x22, 0x30, 0x31, 0x32, 0x33, 0x34, 0x35]

/-- A packet for this device is complete: checked, and held until its message is delivered (R285, R288, R290). -/
def takePacket (port : Nat) (flits : List Bytes) (s : State) : State :=
  let p := parsePacket (flits.headD [])
  if s.dev.zlId ≠ some p.dst then s
  else if flits.any (·.isEmpty) then zlBump (zcDev 2) 1 s
  else
    let p := { p with data := byteSlice flits.flatten 32 p.bytes }
    let h : MsgHdr := ⟨port, p.src, p.srcBoot, p.dstBoot, p.mseq⟩
    let x := peerGet s p.src
    if packetCrc p ≠ p.pcrc then zlBump (zcPeer p.src 0) 1 s
    else if !mtypes.contains p.mtype then zlBump (zcPeer p.src 3) 1 s
    else if p.dstBoot ≠ s.dev.bootId.toNat && !(p.mtype = 0x30 && p.dstBoot = 0) then staleIn h s
    else if 0x30 ≤ p.mtype && p.mtype ≤ 0x33 then s
    else if p.mtype = 0x20 || p.mtype = 0x21 || p.mtype = 0x22 then
      if (s.jr.pair = .bound || s.jr.pair = .binding || (s.jr.pair = .lost && p.mtype = 0x21)) && p.src = s.jr.partner && mirrorPort s port then s
      else raise (srcZlRefused + port) 0 p.src (zlBump (zcPeer p.src 3) 1 s)
    else if p.mseq < mapGet 0 x.rx p.stream || x.heldPkts.contains (p.stream, p.mseq, p.pkt) then
      zlBump (zcPeer p.src 1) 1 s
    else peerSet p.src { x with heldPkts := x.heldPkts ++ [(p.stream, p.mseq, p.pkt)] } s

/-- Flits of a receive buffer are free (R272); while PD_FAB stalls nothing drains them, and their credits are withheld
(R32). -/
def freeFlit (p vc n : Nat) (s : State) : State :=
  portMod p (fun x => if stalled s s.sup.fabMv then { x with stuck := mapMod 0 x.stuck vc (· + n) }
    else { x with freed := mapMod 0 x.freed vc (· + n) }) s

/-- The core drains what waited for it at a port, and sends what waited for the port (R32, R40). -/
def drainPort (s : State) (p : Nat) : State :=
  let s := portMod p (fun x => { x with stuck := [], freed := (List.range 4).foldl (fun m v => mapMod 0 m v (· + mapGet 0 x.stuck v)) x.freed }) s
  answerNow p (sendUnsent p s)

/-- PD_FAB runs again. -/
def drainPorts (s : State) : State := if stalled s s.sup.fabMv then s else (s.zl.ports.map (·.1)).foldl drainPort s

/-- Collect a flit of a packet that this device keeps or swallows. -/
def collectFlit (p vc : Nat) (pay : Bytes) (s : State) : State :=
  let s := freeFlit p vc 1 s
  let l := mapGet [] (portGet s p).part vc ++ [pay]
  let n := max 1 (parsePacket (l.headD [])).flits
  if n ≤ l.length then takePacket p l (portMod p (fun x => { x with part := mapSet [] x.part vc [] }) s)
  else portMod p (fun x => { x with part := mapSet [] x.part vc l }) s

/-- A DATA or ABORT flit accepted on a VC; the payload of an ABORT is empty (R271, R273, R275). -/
def takeFlit (p vc : Nat) (first : Bool) (pay : Bytes) (s : State) : State :=
  let x := portGet s p
  match mapFind x.thru vc with
  | some (q, v, n) =>
    let s := freeFlit p vc 1 s
    let s := if (portGet s q).takes then
        zlBump (zcPort q 13) 1 (sendFlit q (if pay.isEmpty then 2 else 1) v false pay s) else s
    portMod p (fun x => { x with thru := if n ≤ 1 then mapErase x.thru vc else mapInsert x.thru vc (q, v, n - 1) }) s
  | none =>
    let open_ := s.zl.waiting.any (fun w => w.from_ = some (p, vc) && w.flits.length < w.pkt.flits)
    if open_ then
      { s with zl := { s.zl with waiting := s.zl.waiting.map (fun w =>
        if w.from_ = some (p, vc) && w.flits.length < w.pkt.flits then { w with flits := w.flits ++ [pay] } else w) } }
    else if (mapGet [] x.part vc).isEmpty && !first then s
    else if !(mapGet [] x.part vc).isEmpty then collectFlit p vc pay s
    else
      let k := parsePacket pay
      if s.dev.zlId = some k.dst || s.dev.zlId.isNone then collectFlit p vc pay s
      else if 15 ≤ k.hops then collectFlit p vc pay (zlBump (zcDev 0) 1 s)
      else { s with zl := { s.zl with waiting := s.zl.waiting ++ [{ pkt := k, flits := [pay], from_ := some (p, vc), since := s.clk.ltc }] } }

/-- Discard a flit and ask for the one expected (R268). -/
def badFlit (p : Nat) (s : State) : State :=
  zlBump (zcPort p 5) 1 (portMod p (fun x => { x with nakSent := true, reply := (2, x.rxSeq) }) s)

/-- What the header `h` of an accepted flit tells this side: an ACK or a NAK, and credits (R268, R272). -/
def flitNews (p h : Nat) (s : State) : State :=
  let a := bitsOf h 71 70
  let s := if a = 1 then ackFlits p (bitsOf h 83 72) s else if a = 2 then goBack p (bitsOf h 83 72) s else s
  portMod p (fun x => { x with used := (List.range 4).foldl (fun m v =>
    mapSet 0 m v (mapGet 0 x.used v - bitsOf h (51 + 4 * v) (48 + 4 * v))) x.used }) s

/-- A DATA or ABORT flit that carries the FSEQ expected is accepted. -/
def acceptFlit (p h : Nat) (flit : Bytes) (s : State) : State :=
  let ft := bitsOf h 69 66
  let s := flitNews p h s
  let s := portMod p (fun x => { x with rxSeq := (x.rxSeq + 1) % 4096, nakSent := false, reply := (1, bitsOf h 95 84) }) s
  let s := if ft = 1 then zlBump (zcPort p 1) 1 s else s
  takeFlit p (bitsOf h 65 64) (bitOf h 47) (if ft = 2 then [] else byteSlice flit 12 240) s

/-- A flit on a port that carries flits (R268): of IDLE and CONTROL flits the header is read (a HELLO is its own row);
after a NAK every DATA and ABORT flit but the one asked for is discarded. -/
def flitIn (p : Nat) (flit : Bytes) (s : State) : State :=
  if crc32c (byteSlice flit 0 252) ≠ fieldBytes flit 252 4 then badFlit p (zlBump (zcPort p 4) 1 s)
  else
    let h := fieldBytes flit 0 12
    if bitsOf h 69 66 ≠ 1 && bitsOf h 69 66 ≠ 2 then flitNews p h s
    else if bitsOf h 95 84 ≠ (portGet s p).rxSeq then (if (portGet s p).nakSent then s else badFlit p s)
    else acceptFlit p h flit s

/-- FLIT_RECEIVE (R267, R268, R272): `fec` counts the symbols that the FEC corrected; none, where a codeword is not
correctable. The answer and freed credits go back in the next flit, IDLE where no other is ready. -/
def execFlitReceive (port : Fin 32) (fec : Option Nat) (flit : Bytes) (s : State) : Host.Outcome State Fault Refusal :=
  .next (if !(portGet s port).live || s.dev.safe then s
    else answerNow port (match fec with
      | none => badFlit port (zlBump (zcPort port 3) 1 s)
      | some n => flitIn port flit (zlBump (zcPort port 2) n s)))

/-! ### Forwarding (R273, R274, R279, R280, R297) -/

/-- Partner whose traffic the mirror ports carry. -/
def mirrorPeer (s : State) : Option Nat := if s.jr.pair = .unbound then none else some s.jr.partner

/-- A port is usable for a packet (R279, R297). -/
def usablePort (s : State) (w : Waiting) (p : Nat) : Bool :=
  let k := w.pkt
  (portGet s p).live
    && (match mapFind s.parts.ded p with | none => true | some d => w.from_.isNone && d = w.part)
    && (if mirrorPort s p then w.from_.isNone && mirrorPeer s = some k.dst
        else !(k.mtype = 0x20 || k.mtype = 0x21 || k.mtype = 0x22))

/-- No packet is open on the VC of a port (R271), and it has credits and replay room for all flits of a packet (R272,
R273). -/
def portRoom (s : State) (w : Waiting) (vc p : Nat) : Bool :=
  owedOn s p vc = 0 && w.pkt.flits ≤ creditsOf s p vc
    && (portGet s p).replay.length + (List.range 4).foldl (fun a v => a + owedOn s p v) 0 + w.pkt.flits ≤ 512

/-- Candidate ports of a route. -/
def adaptPorts (s : State) (w : Waiting) : List Nat :=
  let e := (peerGet s w.pkt.dst).route
  if routeV e then (maskList (bitsOf e.toNat 31 0) 32).filter (usablePort s w) else []

/-- The escape port of a route, where it is valid and usable. -/
def escapePort (s : State) (w : Waiting) : Option Nat :=
  let e := (peerGet s w.pkt.dst).route
  let p := bitsOf e.toNat 61 57
  if routeV e && e.getLsbD 56 && usablePort s w p then some p else none

/-- The port a packet goes out on now: the most free credits among the candidates, ties in rotation; on VC 2
and 3 the escape port (R280). -/
def choosePort (s : State) (w : Waiting) : Option Nat :=
  let vc := w.pkt.vc
  if 2 ≤ vc then (escapePort s w).filter (portRoom s w vc)
  else
    let l := (adaptPorts s w).filter (portRoom s w vc)
    let best := l.foldl (fun a p => max a (creditsOf s p vc)) 0
    let top := l.filter (fun p => creditsOf s p vc = best)
    match top.find? (fun p => s.zl.turn ≤ p) with
    | some p => some p
    | none => top.head?

/-- The first flit with HOPS and VC as they now are (T10.3: byte 28). -/
def stampFlit (hops vc : Nat) (pay : Bytes) : Bytes :=
  if pay.isEmpty then pay
  else listSet pay 28 (BitVec.ofNat 8 (hops % 16 * 16 + vc % 4 * 4 + (pay.getD 28 0#8).toNat % 4))

/-- PCRC covers the header's VC (T10.3): a packet that moves to `vc` gets the PCRC of its new header. A CRC is linear, so
that of the two headers alone over the packet's length gives the change, and data damaged on the way stay so; log 84. -/
def recrc (k : Packet) (vc : Nat) : Nat :=
  let z : Bytes := List.replicate k.bytes 0#8
  k.pcrc ^^^ crc32c (packetHeader k 0 0 ++ z) ^^^ crc32c (packetHeader { k with vc := vc } 0 0 ++ z)

/-- A packet moves to the escape channel of its VC (R280). -/
def Waiting.escape (w : Waiting) : Waiting :=
  let vc := w.pkt.vc + 2
  let crc := recrc w.pkt vc
  { w with pkt := { w.pkt with vc := vc, pcrc := crc }
           flits := match w.flits with
             | f :: l => (natLe 4 crc ++ f.drop 4) :: l
             | [] => [] }

/-- The waiting packets without the one at `index`. -/
def dropWaiting (index : Nat) (s : State) : State :=
  { s with zl := { s.zl with waiting := s.zl.waiting.take index ++ s.zl.waiting.drop (index + 1) } }

/-- Send the flits of a packet that are here on port `p`; of one passing through, the rest follow as they arrive. -/
def forwardOn (p : Nat) (w : Waiting) (s : State) : State :=
  let vc := w.pkt.vc
  let s := (List.range w.flits.length).foldl (fun s i =>
    let pay := w.flits.getD i []
    sendFlit p (if pay.isEmpty then 2 else 1) vc (decide (i = 0)) (if i = 0 then stampFlit (w.pkt.hops + 1) vc pay else pay) s) s
  match w.from_ with
  | none => s
  | some (q, v) =>
    let s := zlBump (zcPort p 13) w.flits.length (freeFlit q v w.flits.length s)
    if w.flits.length < w.pkt.flits then
      portMod q (fun x => { x with thru := mapInsert x.thru v (p, vc, w.pkt.flits - w.flits.length) }) s
    else s

/-- Ports that a packet could go out on but for credits: the slot it takes there is lost (R301; log 84). -/
def creditStall (s : State) (w : Waiting) : State :=
  let l := if 2 ≤ w.pkt.vc then (escapePort s w).toList else adaptPorts s w
  (l.filter (fun p => owedOn s p w.pkt.vc = 0 && decide (creditsOf s p w.pkt.vc < w.pkt.flits))).foldl
    (fun s p => zlBump (zcPort p (9 + w.pkt.vc)) 1 s) s

/-- PACKET_FORWARD (R273, R280): not by a device with no id (R276), nor while PD_FAB stalls (R40). -/
def execPacketForward (index : Nat) (s : State) : Host.Outcome State Fault Refusal :=
  .next (if s.dev.safe || s.dev.zlId.isNone || stalled s s.sup.fabMv then s else
    match s.zl.waiting[index]? with
    | none => s
    | some w =>
      match choosePort s w with
      | none => creditStall s w
      | some p =>
        let s := dropWaiting index s
        let s := forwardOn p w { s with zl := { s.zl with turn := (p + 1) % 32 } }
        match w.from_ with
        | some (q, _) => answerNow q s
        | none => s)

/-- A packet without a route is discarded: its buffer is free, and what follows of it is swallowed (R274). -/
def discardPacket (w : Waiting) (s : State) : State :=
  match w.from_ with
  | some (q, v) =>
    let s := answerNow q (freeFlit q v w.flits.length s)
    if w.flits.length < w.pkt.flits then portMod q (fun x => { x with part := mapSet [] x.part v w.flits }) s else s
  | none => s

/-- NO_ROUTE (R274): 100 µs without a usable port. -/
def execNoRoute (index : Nat) (s : State) : Host.Outcome State Fault Refusal :=
  .next (
    match s.zl.waiting[index]? with
    | none => s
    | some w =>
      if w.since + 10000 ≤ s.clk.ltc && (2 ≤ w.pkt.vc || (adaptPorts s w).isEmpty) && (escapePort s w).isNone then
        discardPacket w (zlBump (zcDev 1) 1 (dropWaiting index s))
      else s)

/-- ESCAPE_TIMEOUT (R280): 1 µs without an adaptive port. -/
def execEscapeTimeout (index : Nat) (s : State) : Host.Outcome State Fault Refusal :=
  .next (
    match s.zl.waiting[index]? with
    | none => s
    | some w =>
      if w.since + 100 ≤ s.clk.ltc && w.pkt.vc < 2 && (choosePort s w).isNone && (escapePort s w).isSome then
        { s with zl := { s.zl with waiting := listSet s.zl.waiting index w.escape } }
      else s)

/-! ### Sessions (R283, R286) -/

/-- SESSION_OPEN (R283): answered with SESSION_ACCEPT, which carries this device's boot id. -/
def execSessionOpen (h : MsgHdr) (s : State) : Host.Outcome State Fault Refusal :=
  .next (
    if !arrived h s then s
    else if h.dstBoot ≠ 0 then staleIn h s
    else
      let x := peerGet s h.src
      let s := if x.isOpen && x.boot ≠ h.srcBoot then peerRestart h.src s else s
      let s := if (peerGet s h.src).isOpen then s else sessionUp h.src h.srcBoot s
      let s := zlBump (zcPeer h.src 4) 1 (zlBump (zcPeer h.src 5) 1 s)
      queuePacket { dst := h.src, src := s.dev.zlId.getD 0, vc := 0, mtype := 0x31, cls := 61, srcBoot := s.dev.bootId.toNat,
                    dstBoot := h.srcBoot, last := true, data := byteSlice (Config.messageHeader 0x31 []) 0 64 } 0 s)

/-- SESSION_ACCEPT (R283). -/
def execSessionAccept (h : MsgHdr) (s : State) : Host.Outcome State Fault Refusal :=
  .next (
    if !arrived h s then s
    else if h.dstBoot ≠ s.dev.bootId.toNat then staleIn h s
    else
      let s := zlBump (zcPeer h.src 5) 1 s
      let x := peerGet s h.src
      if x.isOpen then (if x.boot ≠ h.srcBoot then peerRestart h.src s else s)
      else if x.out.any (fun m => m.mtype = 0x30) then sessionUp h.src h.srcBoot s
      else s)

/-- STALE (R283): the boot id this device used is an old one. One that comes from the boot of the open session answers a
packet of an earlier session and says nothing of this one (log 66). -/
def execStale (h : MsgHdr) (s : State) : Host.Outcome State Fault Refusal :=
  .next (if arrived h s && h.dstBoot = s.dev.bootId.toNat && (peerGet s h.src).isOpen && (peerGet s h.src).boot ≠ h.srcBoot then peerRestart h.src s else s)

/-- The retransmission time-out of a message in ticks: 50 µs, doubled at each resend up to 1.6 ms (R286). -/
def OutMsg.timeout (m : OutMsg) : Nat := 5000 * 2 ^ min 5 m.resends

/-- RETRANSMIT_TIMEOUT (R286). -/
def execRetransmitTimeout (peer : Fin 4096) (stream : Fin 4) (mseq : Nat) (s : State) : Host.Outcome State Fault Refusal :=
  .next (if s.dev.safe then s else
    let x := peerGet s peer
    match x.out.find? (fun m => m.stream = stream.val && m.mseq = mseq) with
    | none => s
    | some m =>
      if s.clk.ltc < m.sentAt + m.timeout then s else
      let s := peerSet peer { x with out := x.out.map (fun o => if o = m then { o with resends := o.resends + 1, sentAt := s.clk.ltc } else o) } s
      queueMsg peer m (countResent m (zlBump (zcPeer peer (6 + 3 * stream)) 1 s)))

/-- A stream to a peer has made no progress for 100 ms; while no session is open, the SESSION_OPEN has not (R286). -/
def streamStuck (s : State) (x : Peer) (stream : Nat) : Bool :=
  decide (mapGet 0 x.progress (if x.isOpen then stream else 0) + 10000000 ≤ s.clk.ltc)

/-- STREAM_TIMEOUT (R286): 100 ms without progress. -/
def execStreamTimeout (peer : Fin 4096) (stream : Fin 4) (s : State) : Host.Outcome State Fault Refusal :=
  .next (if s.dev.safe then s else
    let x := peerGet s peer
    if streamStuck s x stream && (x.out.any (fun m => m.stream = stream.val) || (!x.isOpen && x.backlog.any (fun m => m.stream = stream.val))) then
      let s := raise srcZlUnreach 0 peer (endSession peer s)
      let s := if peer.val = s.jr.partner then partnerLost s else s
      if (peerGet s peer).backlog.isEmpty then s else openSession peer s
    else s)

/-! ### Tile messages (R147, R149, R289) -/

/-- The object a tile message names may be reached: bound to the group by a local context, in bounds, and writable
for a write. Gives the context and the address. -/
def tileTarget (s : State) (group object offset len : Nat) (write : Bool) : Option (Nat × Nat) :=
  match groupGet s group with
  | none => none
  | some x =>
    let ob := objGet s object
    if x.bound.contains object && offset % 64 = 0 && 0 < len && len ≤ 65536
        && offset + len ≤ ob.count * pageBytes && (!write || ob.writable) then
      (objBase s x.ctx object).map (fun b => (x.ctx, b + offset))
    else none

/-- The effect of a TILE_WRITE at its target: refused, as where its page is lost (log 75), waiting for a page, or
written with its metadata. -/
def tileWriteIn (data : Bytes) (md : List (BitVec 4)) (target : Option (Nat × Nat)) (s : State) : State × Option Bool :=
  match target with
  | none => (s, some true)
  | some t =>
    match firstAbsent s t.1 t.2 data.length true with
    | some a => if pageGivenUp a.1 a.2 s then (s, some true) else (demandPage t.1 a.1 a.2 none s, none)
    | none => (setMd t.1 t.2 md (writeVa t.1 t.2 data 0 false s).2, some false)

/-- TILE_WRITE (R147, R289). -/
def execTileWrite (h : MsgHdr) (group object offset : Nat) (data : Bytes) (md : List (BitVec 4)) (s : State) :
    Host.Outcome State Fault Refusal :=
  .next (receive (.tileWrite h group object offset data md) h 2 (fun s => tileWriteIn data md (tileTarget s group object offset data.length true) s) s)

/-- Answer a TILE_READ: with data and metadata bits, or with status UNAVAILABLE and no data; of the header's numbers the last is
the status, 1 for UNAVAILABLE (log 27). -/
def answerTile (h : MsgHdr) (group c : Nat) (got : Option (Bytes × List (BitVec 4))) (s : State) : State :=
  let body := match got with
    | some g => g.1 ++ (List.range ((g.2.length + 1) / 2)).map (fun i =>
        BitVec.ofNat 8 ((g.2.getD (2 * i) 0#4).toNat + 16 * (g.2.getD (2 * i + 1) 0#4).toNat))
    | none => []
  sendMsg h.src { stream := 2, mtype := 0x03, ctx := c, group := group, run := h.mseq, cmd := if got.isSome then 0 else 1, body := body } s

/-- The effect of a TILE_READ at its target: refused, answered, or waiting for a page. -/
def tileReadIn (h : MsgHdr) (group length : Nat) (target : Option (Nat × Nat)) (s : State) : State × Option Bool :=
  match target with
  | none => (s, some true)
  | some t =>
    match firstAbsent s t.1 t.2 length false with
    | some a =>
      if pageGivenUp a.1 a.2 s then (answerTile h group t.1 none s, some false)
      else (demandPage t.1 a.1 a.2 none s, none)
    | none =>
      let r := readRaw t.1 t.2 length s
      (answerTile h group t.1 (if r.1.md.any mdPoison then none else some (r.1.bytes, r.1.md)) r.2, some false)

/-- TILE_READ (R149, R289). -/
def execTileRead (h : MsgHdr) (group object offset length : Nat) (s : State) : Host.Outcome State Fault Refusal :=
  .next (receive (.tileRead h group object offset length) h 2 (fun s => tileReadIn h group length (tileTarget s group object offset length false) s) s)

/-- The refetch that a TILE_READ to a peer serves. -/
def refetchOf (s : State) (d request : Nat) : Option Refetch :=
  let dev (r : Refetch) : Nat := (if r.source = 1 then (objGet s r.object).src1 else (objGet s r.object).src2).device
  match (peerGet s d).out.find? (fun m => m.mtype = 0x02 && m.mseq = request) with
  | some m => s.deep.refetch.find? (fun r => tileKey r.object r.page r.tile = m.run && dev r = d)
  | none => s.deep.refetch.find? (fun r => r.asked = some request && dev r = d)

/-- TILE_DATA (R202, R289). -/
def execTileData (h : MsgHdr) (request : Nat) (available : Bool) (data : Bytes) (md : List (BitVec 4)) (s : State) :
    Host.Outcome State Fault Refusal :=
  .next (receive (.tileData h request available data md) h 2 (fun s =>
    match refetchOf s h.src request with
    | none => (s, some false)
    | some r =>
      (pump (if available then tileDelivered r.object r.page r.tile data md s
        else if r.source = 1 then askSource r.object r.page r.tile 2 s
        else tileLost r.object r.page r.tile s), some false)) s)

/-! ### Discovery (R292) -/

/-- REMOTE_QUERY (R292). -/
def execRemoteQuery (h : MsgHdr) (s : State) : Host.Outcome State Fault Refusal :=
  .next (receive (.remoteQuery h) h 0 (fun s => (sendMsg h.src { mtype := 0x35, body := portRecords s } s, some false)) s)

/-- REMOTE_REPLY (R292): the oldest PEER_DISCOVER that asked this device completes. -/
def execRemoteReply (h : MsgHdr) (records : Bytes) (s : State) : Host.Outcome State Fault Refusal :=
  .next (receive (.remoteReply h records) h 0 (fun s =>
    match s.jr.ring.find? (fun c => c.opcode = 0x500 && c.started && c.done.isNone && c.p 2 2 = h.src) with
    | none => (s, some false)
    | some c =>
      let mask := listMask ((List.range 32).filter (fun p =>
        let st := bitsOf (fieldBytes records (16 * p) 16) 45 43; st = 3 || st = 4))
      (withHost c s (fun s => finish c stSuccess (natLe 4 mask) (hostWrite c.port (c.p 8 8) (byteSlice records 0 512) s)), some false)) s)

/-- PEER_DISCOVER (R292). -/
def execPeerDiscover (q : Fin 512) (seq : Nat) (s : State) : Host.Outcome State Fault Refusal :=
  .next (runCmd s q seq 0x500 false [(0, 1), (2, 2), (8, 8)] (fun c s =>
    if bitsOf (c.p 0 1) 7 1 ≠ 0 || 4096 ≤ c.p 2 2 then refuse c stParam s
    else if c.bit 0 0 then sendMsg (c.p 2 2) { mtype := 0x34, cmd := c.jidx } (begun c s)
    else finish c stSuccess (natLe 4 (liveMask s)) (hostWrite c.port (c.p 8 8) (portRecords s) s)))

/-! ### Routes and settings (R265, R276, R277, R296, R357) -/

/-- ROUTE_SET (R277). -/
def execRouteSet (q : Fin 512) (seq : Nat) (s : State) : Host.Outcome State Fault Refusal :=
  .next (runCmd s q seq 0x501 false [(0, 4), (16, 32768)] (fun c s =>
    let first := c.p 0 2
    let n := c.p 2 2
    let e (i : Nat) : BitVec 64 := BitVec.ofNat 64 (c.p (16 + 8 * i) 8)
    let bad (v : BitVec 64) : Bool := (routeV v && bitsOf v.toNat 31 0 = 0) || routeAuto v || bitsOf v.toNat 55 32 ≠ 0
    if n = 0 || 4096 < first + n || c.params.length < 16 + 8 * n || (List.range n).any (fun i => bad (e i) || s.dev.zlId = some (first + i)) then
      refuse c stParam s
    else
      let s := (List.range n).foldl (fun s i =>
        peerSet (first + i) { peerGet s (first + i) with route := if routeV (e i) then e i else 0#64 } s) s
      finish c stSuccess [] (autoRoutes s)))

/-- A changed device id at one port: it sends HELLO again; one that was isolated for a conflict that is
gone trains anew (R276, R294). -/
def idAtPort (s : State) (p : Nat) : State :=
  let x := portGet s p
  if x.st = .isolated && !idConflict s p (x.hello.getD 0#128) then zlBump (zcPort p 8) 1 (portLeave p .down s)
  else helloAgain p s

/-- Give the device its id, or take it: then it sends no packets, and one that was passing through is completed with
ABORT flits (R275, R276; log 84). -/
def setZlId (v : Nat) (s : State) : State :=
  let s := if v = 0xFFFF then (List.range 32).foldl (fun s q => swallowThru q s) ((List.range 32).foldl (fun s p => abortThru p s) s) else s
  { s with dev := { s.dev with zlId := if v = 0xFFFF then none else some v } }

/-- SET_PARAM ZL_DEVICE_ID (R276, R291, R294). -/
def execSetParamZlDeviceId (q : Fin 512) (seq : Nat) (s : State) : Host.Outcome State Fault Refusal :=
  .next (setParam s q seq 0x20 (fun i v c s =>
    if i ≠ 0 || (4096 ≤ v && v ≠ 0xFFFF) then refuse c stParam s
    else if s.zl.peers.any (fun kv => kv.2.isOpen) then refuse c stBusy s
    else setDone c (s.dev.zlId.getD 0xFFFF) (autoRoutes ((List.range 32).foldl idAtPort (setZlId v s)))))

/-- Enable or disable one port (R265). -/
def enablePort (v : Nat) (s : State) (p : Nat) : State :=
  let st := (portGet s p).st
  if st = .safe then s
  else if bitOf v p then (if st = .disabled then zlBump (zcPort p 8) 1 (portLeave p .down s) else s)
  else if st = .disabled then s else portLeave p .disabled s

/-- Hold the enables; a port enabled anew is back in service (R426). -/
def setPortEnable (v : Nat) (s : State) : State :=
  { s with dev := { s.dev with portEnable := BitVec.ofNat 32 v },
           host := { s.host with portOut := s.host.portOut &&& ~~~(BitVec.ofNat 32 v &&& ~~~s.dev.portEnable) } }

/-- SET_PARAM ZL_PORT_ENABLE (R265, R357, R426). -/
def execSetParamZlPortEnable (q : Fin 512) (seq : Nat) (s : State) : Host.Outcome State Fault Refusal :=
  .next (setParam s q seq 0x21 (fun i v c s =>
    if i ≠ 0 || 2 ^ 32 ≤ v then refuse c stParam s
    else setDone c s.dev.portEnable.toNat
      (sessionsIfNone (mirrorCheck (autoRoutes ((List.range 32).foldl (enablePort v) (setPortEnable v s)))))))

/-- SET_PARAM ZL_MIRROR_PORTS (R296). -/
def execSetParamZlMirrorPorts (q : Fin 512) (seq : Nat) (s : State) : Host.Outcome State Fault Refusal :=
  .next (setParam s q seq 0x22 (fun i v c s =>
    let l := maskList v 32
    if i ≠ 0 || 2 ^ 32 ≤ v || l.isEmpty || 4 < l.length || l.any (fun p => (mapFind s.parts.ded p).isSome) then refuse c stParam s
    else if s.jr.pair = .bound then refuse c stBusy s
    else setDone c s.dev.mirrorPorts.toNat { s with dev := { s.dev with mirrorPorts := BitVec.ofNat 32 v } }))

end Sys2Proof.Machine
end

