-- ==== Sys2Proof/Machine/Boot.lean ====
section
/-!
DEFINITION. Start-up from the 6 V rail to READY (spec/16_startup_trust.md R428 to R440; spec/15_hang_reset_recovery.md
R420, R426; spec/10_zilet_links.md R283).
-/

namespace Sys2Proof.Machine

/-- Start-up stands at a step and can go on: nothing has stopped it. A chip reset asked for in step 2 leaves PD_ON, whose
self-test runs to its end (R432; log 47). -/
def booting (s : State) (step : Nat) : Bool :=
  s.dev.bootStep = step && sideServed s && !s.dev.safe && !s.trust.testHold && (!s.fc.rstChip || step = 2)

/-- Switch domains on. -/
def powerOn (m : BitVec 30) (s : State) : State := { s with sup := { s.sup with domains := s.sup.domains ||| m } }

/-- Go on with a step of T16.1. -/
def toStep (n : Nat) (s : State) : State := { s with dev := { s.dev with bootStep := n, stage := stageOf n } }

/-- Start-up ends in stage 0xE or 0xF (R431); no firmware runs there, and the fault service stops (R399). -/
def stopStart (stage : Nat) (s : State) : State :=
  { s with
    dev := { s.dev with stage := stage, bootStep := 0 }
    fc := { s.fc with service := false }
    sup := { s.sup with faultNLow := true }
    side := { s.side with sent := s.side.sent ++ [0x81] } }

/-- Step 1 begins. -/
def softStart (s : State) : State :=
  { s with sup := { s.sup with power := .softStart, riseWait := false }, dev := { s.dev with bootStep := 1, stage := 0, cold := true } }

/-- Conversion begins, or waits for 43 V (R480). -/
def startPower (s : State) : State :=
  if s.sup.vin52 < 43000 then { s with sup := { s.sup with power := .waitInput, riseWait := false } } else softStart s

/-- SOFT_START_DONE (T16.1, steps 1 and 2). -/
def execSoftStartDone (s : State) : Host.Outcome State Fault Refusal :=
  .next (
    if s.sup.power = .softStart then toStep 2 (powerOn 1#30 { s with sup := { s.sup with power := .on } })
    else s)

/-- ROT_SELF_TEST (R428, R431, R45, T16.1 steps 2 and 3): the straps are sampled, the counter starts from 0; with the test
passed PD_ST and PD_HP are powered. A self-test that fails after start-up raises ROT_FAULT with code 0x0020 (T16.3). -/
def execRotSelfTest (passed : Bool) (s : State) : Host.Outcome State Fault Refusal :=
  .next (
    if booting s 2 then
      let s := { s with
        sup := { s.sup with strap := s.sup.strapPins, pairSel := s.sup.pairPin }
        clk := { s.clk with ltc := 0, internal := false, degraded := false } }
      let s := noteTimeref s
      if passed then toStep 4 (powerOn 0x30000000#30 s) else stopStart 0xF s
    else if !passed && s.dev.bootStep = 10 && zenithRuns s then raise srcRot 0 0x20 s
    else s)

/-- A firmware slot holds an image that the boot ROM verifies as a bundle (R431, R433). -/
def slotOk (s : State) (i : Nat) : Bool := imageOk s 1 (mapGet [] s.trust.fw i)

/-- One more attempt; the second in a row prefers the other slot (R435). -/
def countAttempt (s : State) : State :=
  if s.trust.attempts + 1 = 2 then
    raise srcRot 0 0x5 { s with trust := { s.trust with preferred := 1 - s.trust.preferred, attempts := 0 } }
  else { s with trust := { s.trust with attempts := s.trust.attempts + 1 } }

/-- Note a refused slot (T16.3). -/
def slotRefused (i : Fin 2) (s : State) : State := raise srcRot 0 (i + 1) s

/-- The tiles of a slot's image are read from the boot region (T7.2, R181, log 24). -/
def readSlot (i : Nat) (s : State) : State := readTiles 0 (fun t => t / 1024 = i + 1) s

/-- Boot from the preferred slot, else from the other (R435); neither verified ends start-up in stage 0xE. -/
def chooseSlot (s : State) : State :=
  let a := s.trust.preferred
  let run (i : Fin 2) (s : State) : State := toStep 5 { s with trust := { s.trust with booted := some i } }
  let s := readSlot a s
  if slotOk s a then run a s
  else
    let s := readSlot (1 - a) (slotRefused a s)
    if slotOk s (1 - a) then run (1 - a) s else stopStart 0xE (slotRefused (1 - a) s)

/-- BOOT_ROM_LOAD (R431, R435, T16.1 step 4). Without TIMEREF the flash is not read (R207): the boot region cannot be. -/
def execBootRomLoad (s : State) : Host.Outcome State Fault Refusal :=
  .next (
    if booting s 4 then
      let s := powerOn 0x30000000#30 { s with trust := { s.trust with actPending := false } }
      if s.sup.timeref then chooseSlot (countAttempt s) else stopStart 0xE s
    else s)

/-- The image of the slot booted. -/
def bootedImage (s : State) : Bytes := mapGet [] s.trust.fw (s.trust.booted.getD 0).val

/-- The root of trust's policy as bytes (R434). -/
def policyBytes (s : State) : Bytes :=
  ([1, 2, 3].flatMap (fun k => natLe 2 (mapGet 0 s.trust.minSvn k))) ++ natLe 1 s.trust.revoked.toNat
    ++ natLe 1 s.trust.preferred.val ++ natLe 1 s.trust.attempts

/-- The test-port setting of the profile that verified, if any (T16.4). -/
def testSetting (s : State) : Bool := ((configImage s).bind (profileOf s)).any (·.testPortAll)

/-- Measurements 1 to 12 (R440, T16.5). -/
def measureAll (s : State) : FMap Bytes :=
  let b := bootedImage s
  let what (i : Nat) : Bytes :=
    if i = 1 then Config.measured 1 []
    else if i = 3 then Config.measured 3 (b ++ natLe 1 (s.trust.booted.getD 0).val)
    else if i < 8 then Config.measured i b
    else if i = 8 then (match configImage s with
      | some c => Config.measured 8 (c ++ natLe 1 (profileNumber s c))
      | none => List.replicate 48 0)
    else if i = 9 then s.trust.charRec
    else if i = 10 then Config.measured 10 (policyBytes s)
    else if i = 11 then natLe 1 (s.sup.strap.toNat + if s.sup.pairSel then 16 else 0)
    else natLe 1 (if testSetting s then 1 else 0)
  (List.range 12).map (fun i => (i + 1, Config.sha384 (what (i + 1))))

/-- A boot id from a random value: not 0, and not the previous one (R283). -/
def bootIdFrom (prev : BitVec 16) (r : Nat) : BitVec 16 :=
  let v := r % 65535 + 1
  BitVec.ofNat 16 (if v = prev.toNat then v % 65535 + 1 else v)

/-- The boot id is drawn and kept in the boot region. -/
def drawBootId (s : State) : State :=
  let r := drawFree s
  let v := bootIdFrom s.dev.prevBoot r.1
  { r.2 with dev := { r.2.dev with bootId := v, prevBoot := v } }

/-- The characterisation record gives the speed word; refused, SW_VER reads 0 (R38, T16.3). -/
def takeChar (s : State) : State :=
  if imageOk s 3 s.trust.charRec then
    let v := Config.charOf (imgBody s.trust.charRec)
    { s with clk := { s.clk with swVer := 1, beatNom := v.1 % 4096, beatHot := v.2.1 % 4096, vslope := v.2.2 % 256 } }
  else raise srcRot 0 0x4 { s with clk := { s.clk with swVer := 0 } }

/-- The components of the bundle that runs do not verify: its slot is refused, and the boot ROM goes on with the other slot where it has
not refused that one already; then start-up ends in stage 0xE (R431, R435; DEDUCED, log 46). -/
def componentsBad (s : State) : State :=
  let i := s.trust.booted.getD 0
  let s := slotRefused i s
  if i ≠ s.trust.preferred then stopStart 0xE s
  else
    let s := readSlot (1 - i) s
    if slotOk s (1 - i) then toStep 5 { s with trust := { s.trust with booted := some (1 - i) } } else stopStart 0xE (slotRefused (1 - i) s)

/-- FIRST_STAGE_START (T16.1 step 5, R408, R440): the heartbeat's first advance, the fault service, the verifications, the
measurements, the boot id; a retirement record keeps the device retired (R420). -/
def execFirstStageStart (s : State) : Host.Outcome State Fault Refusal :=
  .next (
    if booting s 5 then
      let n := (s.clk.beat + 1) % 2 ^ 64
      let s := { s with
        clk := { s.clk with beat := n, shadow := n, lastBeat := s.clk.ltc, beatRaised := false, armed := true }
        fc := { s.fc with service := true }
        dev := { s.dev with retired := s.trust.retired } }
      if !Config.componentsOk (imgBody (bootedImage s)) then componentsBad s
      else
        let s := if (configImage s).isNone then raise srcRot 0 0x3 s else s
        let s := takeChar s
        toStep 6 (drawBootId { s with trust := { s.trust with measures := measureAll s } })
    else s)

/-- What a starting state sets (T16.4). -/
def takeStart (t s : State) : State :=
  { s with
    dev := { s.dev with
      powerLimit := t.dev.powerLimit, zlId := t.dev.zlId, portEnable := t.dev.portEnable, mirrorPorts := t.dev.mirrorPorts
      journalFlush := t.dev.journalFlush, scratch := t.dev.scratch, wvLog2 := t.dev.wvLog2, wvThresh := t.dev.wvThresh }
    fc := { s.fc with sev := t.fc.sev, window := t.fc.window, escN := t.fc.escN, escWindow := t.fc.escWindow }
    parts := t.parts
    arbiters := t.arbiters
    strata := t.strata
    zl := t.zl }

/-- The configuration image is applied as a whole or not at all (R436). Control state that a chip reset keeps stands aside for it
until step 8 (R437); the partitions' logs are no setting, and stay where they are. -/
def applyImage (s : State) : State :=
  let t := (configImage s).bind (startingState s)
  let s := if (configImage s).isSome && t.isNone then raise srcRot 0 0x3 s else s
  let s := { s with trust := { s.trust with testAll := t.isSome && testSetting s } }
  let u := takeStart (t.getD (defaults s)) s
  if s.dev.kept then { u with strata := s.strata, stash := some (stateNow s) } else u

/-- A retired device keeps its Zilet ports DISABLED (R420). -/
def portsWanted (s : State) (v : BitVec 32) : BitVec 32 := if s.dev.retired then 0#32 else v

/-- The kept identity, links and routes take the place of the profile's where they hold a value: a device id that was set, and
every route entry that ROUTE_SET wrote (R437). -/
def takeLinks (c : Control) (s : State) : State :=
  let v := portsWanted s c.portEnable
  let s := (List.range 32).foldl (enablePort v.toNat) { s with dev := { s.dev with portEnable := v, mirrorPorts := c.mirrorPorts } }
  let s := c.routes.foldl (fun s kv => if routeV kv.2 && !routeAuto kv.2 then peerSet kv.1 { peerGet s kv.1 with route := kv.2 } s else s) s
  let s := match c.zlId with
    | some d => if s.dev.zlId = some d then s else (List.range 32).foldl idAtPort (setZlId d s)
    | none => s
  sessionsIfNone (mirrorCheck (autoRoutes s))

/-- At step 8 the kept control state replaces the starting state wherever it holds a value (R437): after a chip reset what stood
aside, after a power cycle what the journal flush region rebuilds. -/
def takeKept (s : State) : State :=
  match s.stash with
  | some c => takeLinks c (takeSettings c s)
  | none => match s.flushed with
    | some c => if s.dev.kept then s else takeLinks c (takeFlushed c s)
    | none => s

/-- CONFIG_IMAGE_APPLY (T16.1 step 6, R426, R436): then the core domains are powered, and those of step 7, with the
withdrawals that the self-test decides. A retired device keeps its Zilet ports DISABLED (R420). -/
def execConfigImageApply (mmaFailed rodFailed : BitVec 64) (s : State) : Host.Outcome State Fault Refusal :=
  .next (
    if booting s 6 then
      let s := applyImage s
      let s := { s with dev := { s.dev with portEnable := portsWanted s s.dev.portEnable } }
      let s := { s with host := { s.host with mmaOut := mmaFailed, rodOut := rodFailed } }
      toStep 7 (linksStart (powerOn 0x3FFFFFFF#30 s))
    else s)

/-- MEMORY_TRAINING (T16.1 step 7, R431): a stack that fails three times halts start-up; otherwise the stacks are trained
and the deep tier is mounted. The ports' own rows train them. -/
def execMemoryTraining (failedStack : Option (Fin 8)) (s : State) : Host.Outcome State Fault Refusal :=
  .next (
    if booting s 7 && s.sup.zlRefclk then
      match failedStack with
      | some n => stopStart 0xF (raise srcFwFault 0 (0x8100 + n) s)
      | none => if s.deep.mounted || s.sup.timeref then toStep 8 (mount true true s) else s
    else s)

/-- FIRMWARE_AREA_PREPARE (T16.1 step 8, R376, R437, T13.9): kept or rebuilt control state replaces the starting state. With JOURNAL_FLUSH the region is begun. -/
def execFirmwareAreaPrepare (s : State) : Host.Outcome State Fault Refusal :=
  .next (
    if booting s 8 then
      let had := s.dev.kept
      let s := takeKept s
      let s := { s with jr := { s.jr with flushing := if had then s.jr.flushing else s.dev.journalFlush, lastCopy := s.clk.ltc } }
      toStep 9 { s with flushed := if s.jr.flushing || s.jr.ring.any (·.flush) then some (s.flushed.getD (snapshot s)) else none }
    else s)

/-- Minimum SVNs once a bundle has reached READY: with RAISE_SVN those below its own become its own (R434). -/
def policySvn (b : Bytes) (m : FMap Nat) : FMap Nat :=
  if bitOf (imgFlags b) 0 then [1, 2, 3].foldl (fun m k => mapSet 0 m k (max (mapGet 0 m k) (imgSvn b))) m else m

/-- Revoked keys once a bundle has reached READY: with REVOKE those it names, but never its own key (R434). -/
def policyRevoked (b : Bytes) (r : BitVec 4) : BitVec 4 :=
  if bitOf (imgFlags b) 1 then r ||| (BitVec.ofNat 4 (imgRevoke b) &&& ~~~(BitVec.ofNat 4 (2 ^ imgKey b))) else r

/-- The bundle's policy, at the moment it reaches READY (R434); attempts count anew (R435). -/
def policyEffect (s : State) : State :=
  let b := bootedImage s
  { s with trust := { s.trust with
    minSvn := policySvn b s.trust.minSvn, revoked := policyRevoked b s.trust.revoked, attempts := 0 } }

/-- READY (T16.1 step 9, R405, R434, R435, R454). -/
def execReadyHigh (s : State) : Host.Outcome State Fault Refusal :=
  .next (
    if booting s 9 then
      let s := policyEffect s
      groupsOff { s with
        dev := { s.dev with ready := true, stage := 6, bootStep := 10, kept := true }
        sup := { s.sup with faultNLow := false }
        side := { s.side with sent := s.side.sent ++ [0x80] } }
    else s)

end Sys2Proof.Machine
end

