-- ==== Sys2Proof/Machine/Power.lean ====
section
/-!
DEFINITION. Power sequencing, loss and sag of VIN52, power limiting, the conversion dies and the thermal sensors
(spec/17_package_power_cooling.md R448 to R465; spec/18_signals_electrical.md R479 to R484; spec/07_deep_tier.md R206).
-/

namespace Sys2Proof.Machine

/-! ### Regions that run again (R40) -/

/-- What an outcome leaves: the state of a next, and nothing changed otherwise. -/
def orStay (s : State) : Host.Outcome State Fault Refusal → State
  | .next t => t
  | _ => s

/-- Give a request that waits at a crossing to the region again: it is served, or waits on (R40). -/
def retryCrossing (s : State) (i : Instr) : State :=
  match i with
  | .hbmRead req t part pa ecc => orStay s (execHbmRead req t part pa ecc s)
  | .hbmWrite req t part pa data tag ver => orStay s (execHbmWrite req t part pa data tag ver s)
  | .csRequest req t ctx va write length ecc => orStay s (execCsRequest req t ctx va write length ecc s)
  | .rsWindowAccess req t part pa write length ecc => orStay s (execRsWindowAccess req t part pa write length ecc s)
  | .adminCfgWrite hp value => orStay s (execAdminCfgWrite hp value s)
  | .dbSqWrite hp slot value => orStay s (execDbSqWrite hp slot value s)
  | .dbCqWrite hp slot value => orStay s (execDbCqWrite hp slot value s)
  | .registerWrite hp offset wide value => orStay s (execRegisterWrite hp offset wide value s)
  | .thermtrip sensor => orStay s (execThermtrip sensor s)
  | _ => s

/-- The requests that wait at crossings, oldest first. -/
def serveCrossings (s : State) : State := s.crossing.foldl retryCrossing { s with crossing := [] }

/-- A supply voltage has changed: requests that waited for a region are served where it runs, and where PD_ON had stalled and
runs again (`ran` says that it ran before) intake goes on and the watchdog, the heartbeat and TIMEREF are looked at. -/
def runAgain (ran : Bool) (s : State) : State :=
  let s := drainPorts (serveCrossings s)
  if !ran && zenithRuns s then resumeIntake (watchdogCheck (beatCheck (noteTimeref s))) else s

/-! ### Power sequencing (R479 to R484) -/

/-- Keys of the tiles that are marked poisoned in the map (R203). -/
def badTiles (s : State) : List Nat :=
  if s.deep.mounted then (allPages s).flatMap (fun q => (maskList q.2.2.2.bad.toNat 32).map (tileKey q.1 q.2.2.1)) else s.deep.poisoned

/-- What stays when every domain loses power: pins, host memory, the boot region, the root of trust's own array and what
the flash has committed (R206, R434, R438, R441, R376). -/
def powerLost (s : State) : State :=
  { sup := { pwrEn := s.sup.pwrEn, perst := s.sup.perst, strapPins := s.sup.strapPins, pairPin := s.sup.pairPin, vin52 := s.sup.vin52
             lowOver := s.sup.lowOver, riseWait := s.sup.riseWait, timeref := s.sup.timeref, zlRefclk := s.sup.zlRefclk }
    trust := { fw := s.trust.fw, cfg := s.trust.cfg, cfgNewest := s.trust.cfgNewest, charRec := s.trust.charRec, minSvn := s.trust.minSvn
               revoked := s.trust.revoked, preferred := s.trust.preferred, attempts := s.trust.attempts, staging := s.trust.staging
               staged := s.trust.staged, stagedLast := s.trust.stagedLast, leaf := s.trust.leaf, signatures := s.trust.signatures
               certs := s.trust.certs, serial := s.trust.serial, retired := s.trust.retired, cycled := s.trust.retired }
    dev := { prevBoot := s.dev.prevBoot }
    host := { memA := s.host.memA, memB := s.host.memB }
    deep := { s.deep.restart with poisoned := badTiles s }
    flushed := s.flushed
    free := s.free
    pending := s.pending }

/-- Every domain loses power while PWR_EN may still be high: then nothing starts until it falls and rises (R482). -/
def inputLost (s : State) : State :=
  let t := powerLost s
  { t with sup := { t.sup with power := if s.sup.pwrEn then .lost else .off, riseWait := false } }

/-- PWR_EN_RISE (R474, R480, R481): acted on at once, or once 100 ms have passed since it fell. -/
def execPwrEnRise (strap : BitVec 4) (pairSel : Bool) (s : State) : Host.Outcome State Fault Refusal :=
  .next (
    if s.sup.pwrEn then s
    else
      let s := { s with sup := { s.sup with pwrEn := true, strapPins := strap, pairPin := pairSel } }
      if s.sup.power = .off && s.sup.lowOver then startPower s
      else { s with sup := { s.sup with riseWait := true } })

/-- PWR_EN_FALL (R481, R483): the safe state starts and the conversion dies run for 4 ms more; a chip reset or a start-up
in progress is abandoned. The sideband is silent from here on (R476). -/
def execPwrEnFall (s : State) : Host.Outcome State Fault Refusal :=
  .next (
    if !s.sup.pwrEn then s
    else
      let t := if zenithRuns s then enterSafe s else s
      let powered := decide (s.sup.power = .on) || decide (s.sup.power = .softStart) || decide (s.sup.power = .holdOff)
      { t with
        sup := { t.sup with pwrEn := false, lowOver := false, riseWait := false, power := if powered then .holdOff else .off }
        side := { t.side with sent := s.side.sent }
        fc := { t.fc with rstChip := false }
        dev := { t.dev with bootStep := 0, ready := false } })

/-- CONVERSION_STOP (R481 steps 3 and 4): 4 ms after PWR_EN fell. -/
def execConversionStop (s : State) : Host.Outcome State Fault Refusal :=
  .next (if s.sup.power = .holdOff then powerLost s else s)

/-- PWR_EN_LOW_TIME_END (R481): 100 ms after PWR_EN fell. -/
def execPwrEnLowTimeEnd (s : State) : Host.Outcome State Fault Refusal :=
  .next (
    if s.sup.power = .off && !s.sup.lowOver then
      let s := { s with sup := { s.sup with lowOver := true } }
      if s.sup.riseWait && s.sup.pwrEn then startPower s else s
    else s)

/-- VIN52_LOSS (R206, R448, R482). Any level below the loss level has the same effect; log 3. -/
def execVin52Loss (s : State) : Host.Outcome State Fault Refusal :=
  .next (let t := inputLost s; { t with sup := { t.sup with vin52 := 0 } })

/-- The shadows of PD_HP keep what Zenith wrote last once PD_ON stalls: `s` is the state before the voltage fell (R401). -/
def keepShadow (s t : State) : State :=
  if zenithRuns s && !zenithRuns t then { t with host := { t.host with shadow := (devStatus s 0, devStatus s 1, faultSummary s) } } else t

/-- VIN52_SAG (R448, R458): regions run slower, leave their permitted range or stall; within a sag one may run again.
Nothing is reported. Below the loss level the package loses power (T17.3). -/
def execVin52Sag (mv : Nat) (s : State) : Host.Outcome State Fault Refusal :=
  .next (
    if mv < Config.inputLossMv.val then
      let t := inputLost s
      { t with sup := { t.sup with vin52 := mv } }
    else if mv < 40000 then runAgain (zenithRuns s) (keepShadow s { s with sup := { s.sup with vin52 := mv } })
    else s)

/-- VIN52_SAG_END (R407, R458): where PD_ON had stalled, the watchdog acts at once on the ticks counted meanwhile. -/
def execVin52SagEnd (mv : Nat) (s : State) : Host.Outcome State Fault Refusal :=
  .next (
    if s.sup.vin52 < 40000 && 40000 ≤ mv && mv ≤ 62000 then runAgain (zenithRuns s) { s with sup := { s.sup with vin52 := mv } }
    else s)

/-- VIN52_RISE (R480): conversion that waited begins at 43 V; within a sag a region may run again. Above 62 V the spec gives no
behaviour (T17.3). -/
def execVin52Rise (mv : Nat) (s : State) : Host.Outcome State Fault Refusal :=
  if 62000 < mv then .fault .absoluteMaximum
  else .next (
    if s.sup.vin52 < mv then
      let t := { s with sup := { s.sup with vin52 := mv } }
      if s.sup.power = .waitInput && 43000 ≤ mv then softStart t
      else if s.sup.vin52 < 40000 then runAgain (zenithRuns s) t else t
    else s)

/-! ### Conversion dies (R451) -/

/-- A conversion die is at work. -/
def converting (s : State) : Bool := decide (s.sup.power = .on) || decide (s.sup.power = .softStart) || decide (s.sup.power = .holdOff)

/-- CONV_OVERCURRENT (R451). -/
def execConvOvercurrent (die : Fin 2) (s : State) : Host.Outcome State Fault Refusal :=
  .next (if converting s && zenithRuns s then raise (srcConv + die) 0x0E 0 s else s)

/-- CONV_OVERTEMP (R451). -/
def execConvOvertemp (die : Fin 2) (s : State) : Host.Outcome State Fault Refusal :=
  .next (if converting s && zenithRuns s then raise (srcConv + die) 0x0F 0 s else s)

/-- CONV_SHUTDOWN (R451): the package needs both dies, so this is a loss of power. -/
def execConvShutdown (_die : Fin 2) (s : State) : Host.Outcome State Fault Refusal :=
  .next (if converting s then inputLost s else s)

/-! ### Power limiting (R455) -/

/-- The first lowering step that is possible; none once all are at their ends. -/
def lowerStep (u : Supply) : Supply :=
  if 660 ≤ u.coreMv && u.fabMv ≤ u.coreMv + 40 then { u with coreMv := u.coreMv - 10, sinceLower := 0, unheard := true }
  else if 710 ≤ u.fabMv && u.coreMv + 10 ≤ u.fabMv then { u with fabMv := u.fabMv - 10, sinceLower := 0, unheard := true }
  else if 2 ≤ u.duty then { u with duty := u.duty - 1, sinceLower := 0 }
  else u

/-- The raising step: the steps of lowering taken back in the reverse order. -/
def raiseStep (u : Supply) : Supply :=
  if u.duty < 8 then { u with duty := u.duty + 1 }
  else if u.fabMv < 750 && u.fabMv ≤ u.coreMv + 40 then { u with fabMv := u.fabMv + 10 }
  else if u.coreMv < 750 then { u with coreMv := u.coreMv + 10 }
  else u

/-- The mean over the last 100 ms is below 0.95 × POWER_LIMIT. -/
def roomToRaise (u : Supply) (limit : Nat) : Bool :=
  u.window.length = 100 && u.window.foldl (· + ·) 0 < 95 * limit * 1000

/-- Note one reading in milliwatts, the newest of the last 100. -/
def noteReading (mw : Nat) (u : Supply) : Supply :=
  { u with window := (mw :: u.window).take 100, sinceLower := min 100 (u.sinceLower + 1) }

/-- The answer to a reading: lower while it is above the limit or the package is too hot, raise once there has been
room for 100 ms. After a setpoint was lowered nothing changes before the speed monitors report (R37). -/
def limitStep (limit mw : Nat) (u : Supply) : Supply :=
  if u.unheard then u
  else if 1000 * limit < mw || u.thermal then lowerStep u
  else if roomToRaise u limit && u.sinceLower = 100 then raiseStep u
  else u

/-- Firmware's answer to a reading of the input power; within a sag a raised setpoint may let a region run again (R458). -/
def takeReading (mw : Nat) (s : State) : State :=
  let t := { s with sup := limitStep s.dev.powerLimit mw (noteReading mw s.sup) }
  if t.sup.fabMv = s.sup.fabMv && t.sup.coreMv = s.sup.coreMv then t else runAgain true t

/-- POWER_READING (R455). -/
def execPowerReading (milliwatts : Nat) (s : State) : Host.Outcome State Fault Refusal :=
  .next (if maintains s then takeReading milliwatts s else s)

/-! ### Sensors (R44, R170, R462 to R464) -/

/-- One sensor's reading. -/
def readSensor (r : SensorReading) (s : State) : State :=
  if 128 ≤ r.sensor || s.clk.failed.contains r.sensor then s
  else if r.valid then
    { s with clk := { s.clk with sensors := mapSet 0 s.clk.sensors r.sensor r.value, valid := insertAsc r.sensor s.clk.valid } }
  else
    let last := if s.clk.valid.contains r.sensor then unsgn 16 (mapGet 0 s.clk.sensors r.sensor) else 0x8000
    raise (srcSensor + r.sensor) 0 last { s with clk := { s.clk with failed := insertAsc r.sensor s.clk.failed } }

/-- Working sensors of a list that read above a temperature in 0.0625 °C. A failed sensor's reading is that of others
of its region, which are in the lists of R464. -/
def readsAbove (s : State) (l : List Nat) (t : Int) : Bool :=
  l.any (fun n => !s.clk.failed.contains n && decide (t < mapGet 0 s.clk.sensors n))

/-- The thermal condition: above 103 °C, until all are at 100 °C or below (R464). -/
def thermalNow (s : State) : Bool :=
  let l := List.range 104
  readsAbove s l 1648 || (s.sup.thermal && readsAbove s l 1600)

/-- Stacks above 85 °C (R170). -/
def hotNow (s : State) : BitVec 8 :=
  BitVec.ofNat 8 (listMask ((List.range 8).filter (fun n => readsAbove s [88 + 2 * n, 89 + 2 * n] 1360)))

/-- Case temperature of a NAND stack: the highest of its two working sensors, 118 and 119 or 120 and 121 (T17.7). -/
def caseReading (s : State) (stack : Nat) : Int :=
  ([118 + 2 * stack, 119 + 2 * stack].filter (fun n => !s.clk.failed.contains n && s.clk.valid.contains n)).foldl
    (fun t n => max t (mapGet 0 s.clk.sensors n)) (-32768)

/-- SENSOR_READ (R183, R462 to R464). -/
def execSensorRead (readings : List SensorReading) (s : State) : Host.Outcome State Fault Refusal :=
  .next (
    if zenithRuns s then
      let s := readings.foldl (fun s r => readSensor r s) s
      let s := [0, 1].foldl (fun s n => if readings.any (fun r => r.sensor / 2 = 59 + n) then caseTemp n (caseReading s n) s else s) s
      { s with sup := { s.sup with thermal := thermalNow s }, clk := { s.clk with hotStacks := hotNow s } }
    else s)

end Sys2Proof.Machine
end

