-- ==== Sys2Proof/Machine/Dispatch.lean ====
section
/-!
DEFINITION. One arm for each command: a direct call of its meaning.
-/

namespace Sys2Proof.Machine

def exec (i : Instr) (s : State) : Host.Outcome State Fault Refusal :=
  match i with
  | .identify q seq => Sys2Proof.Machine.execIdentify q seq s
  | .getInfo q seq => Sys2Proof.Machine.execGetInfo q seq s
  | .setParamQueue q seq => Sys2Proof.Machine.execSetParamQueue q seq s
  | .setParamFcSeverity q seq => Sys2Proof.Machine.execSetParamFcSeverity q seq s
  | .setParamPowerLimit q seq => Sys2Proof.Machine.execSetParamPowerLimit q seq s
  | .setParamZlDeviceId q seq => Sys2Proof.Machine.execSetParamZlDeviceId q seq s
  | .setParamZlPortEnable q seq => Sys2Proof.Machine.execSetParamZlPortEnable q seq s
  | .setParamZlMirrorPorts q seq => Sys2Proof.Machine.execSetParamZlMirrorPorts q seq s
  | .setParamJournalFlush q seq => Sys2Proof.Machine.execSetParamJournalFlush q seq s
  | .setParamCsSegMode q seq => Sys2Proof.Machine.execSetParamCsSegMode q seq s
  | .setParamWvLog2 q seq => Sys2Proof.Machine.execSetParamWvLog2 q seq s
  | .setParamWvThresh q seq => Sys2Proof.Machine.execSetParamWvThresh q seq s
  | .getParam q seq => Sys2Proof.Machine.execGetParam q seq s
  | .setTallyBudget q seq => Sys2Proof.Machine.execSetTallyBudget q seq s
  | .setTallyMode q seq => Sys2Proof.Machine.execSetTallyMode q seq s
  | .hostAdopt q seq => Sys2Proof.Machine.execHostAdopt q seq s
  | .ctxCreate q seq => Sys2Proof.Machine.execCtxCreate q seq s
  | .ctxDestroy q seq => Sys2Proof.Machine.execCtxDestroy q seq s
  | .ctxReset q seq => Sys2Proof.Machine.execCtxReset q seq s
  | .partConfigClaim q seq => Sys2Proof.Machine.execPartConfigClaim q seq s
  | .partConfigRelease q seq => Sys2Proof.Machine.execPartConfigRelease q seq s
  | .partConfigSetFlags q seq => Sys2Proof.Machine.execPartConfigSetFlags q seq s
  | .partReset q seq ticks => Sys2Proof.Machine.execPartReset q seq ticks s
  | .objRegister q seq => Sys2Proof.Machine.execObjRegister q seq s
  | .objRelease q seq => Sys2Proof.Machine.execObjRelease q seq s
  | .objPlace q seq => Sys2Proof.Machine.execObjPlace q seq s
  | .copyBytes q seq => Sys2Proof.Machine.execCopyBytes q seq s
  | .prefetchSchedule q seq => Sys2Proof.Machine.execPrefetchSchedule q seq s
  | .quotaSet q seq => Sys2Proof.Machine.execQuotaSet q seq s
  | .launch q seq => Sys2Proof.Machine.execLaunch q seq s
  | .launchChain q seq => Sys2Proof.Machine.execLaunchChain q seq s
  | .peerDiscover q seq => Sys2Proof.Machine.execPeerDiscover q seq s
  | .routeSet q seq => Sys2Proof.Machine.execRouteSet q seq s
  | .collGroupCreate q seq => Sys2Proof.Machine.execCollGroupCreate q seq s
  | .collGroupAdmit q seq => Sys2Proof.Machine.execCollGroupAdmit q seq s
  | .collGroupBind q seq => Sys2Proof.Machine.execCollGroupBind q seq s
  | .collGroupUnbind q seq => Sys2Proof.Machine.execCollGroupUnbind q seq s
  | .collGroupDestroy q seq => Sys2Proof.Machine.execCollGroupDestroy q seq s
  | .collRun q seq => Sys2Proof.Machine.execCollRun q seq s
  | .collRunGrad q seq => Sys2Proof.Machine.execCollRunGrad q seq s
  | .codeTableLoad q seq => Sys2Proof.Machine.execCodeTableLoad q seq s
  | .baseSet q seq => Sys2Proof.Machine.execBaseSet q seq s
  | .stepBegin q seq => Sys2Proof.Machine.execStepBegin q seq s
  | .stepCommit q seq => Sys2Proof.Machine.execStepCommit q seq s
  | .updateRun q seq refetch => Sys2Proof.Machine.execUpdateRun q seq refetch s
  | .excludeMember q seq => Sys2Proof.Machine.execExcludeMember q seq s
  | .snapshot q seq => Sys2Proof.Machine.execSnapshot q seq s
  | .restoreShard q seq peer => Sys2Proof.Machine.execRestoreShard q seq peer s
  | .exportShard q seq => Sys2Proof.Machine.execExportShard q seq s
  | .fillFromPeer q seq peer snap => Sys2Proof.Machine.execFillFromPeer q seq peer snap s
  | .digestCompare q seq peers => Sys2Proof.Machine.execDigestCompare q seq peers s
  | .selfTestArrayBist q seq failing => Sys2Proof.Machine.execSelfTestArrayBist q seq failing s
  | .selfTestRsMarch q seq failing => Sys2Proof.Machine.execSelfTestRsMarch q seq failing s
  | .selfTestLoopback q seq failing => Sys2Proof.Machine.execSelfTestLoopback q seq failing s
  | .selfTestWvCheck q seq failing => Sys2Proof.Machine.execSelfTestWvCheck q seq failing s
  | .calibrateThermal q seq => Sys2Proof.Machine.execCalibrateThermal q seq s
  | .calibrateHbmPhy q seq => Sys2Proof.Machine.execCalibrateHbmPhy q seq s
  | .calibrateSpeed q seq => Sys2Proof.Machine.execCalibrateSpeed q seq s
  | .deferredTestStart q seq failing => Sys2Proof.Machine.execDeferredTestStart q seq failing s
  | .deferTimeout q seq => Sys2Proof.Machine.execDeferTimeout q seq s
  | .readCounters q seq => Sys2Proof.Machine.execReadCounters q seq s
  | .faultRead q seq => Sys2Proof.Machine.execFaultRead q seq s
  | .faultClear q seq => Sys2Proof.Machine.execFaultClear q seq s
  | .escalationSet q seq => Sys2Proof.Machine.execEscalationSet q seq s
  | .escalationReturn q seq => Sys2Proof.Machine.execEscalationReturn q seq s
  | .fwStage q seq => Sys2Proof.Machine.execFwStage q seq s
  | .fwActivate q seq => Sys2Proof.Machine.execFwActivate q seq s
  | .attest q seq => Sys2Proof.Machine.execAttest q seq s
  | .certRead q seq => Sys2Proof.Machine.execCertRead q seq s
  | .pairBind q seq => Sys2Proof.Machine.execPairBind q seq s
  | .pairUnbind q seq => Sys2Proof.Machine.execPairUnbind q seq s
  | .pairBindTimeout q seq => Sys2Proof.Machine.execPairBindTimeout q seq s
  | .pairStatus q seq => Sys2Proof.Machine.execPairStatus q seq s
  | .resumePoint q seq => Sys2Proof.Machine.execResumePoint q seq s
  | .adminCfgWrite hp value => Sys2Proof.Machine.execAdminCfgWrite hp value s
  | .dbSqWrite hp slot value => Sys2Proof.Machine.execDbSqWrite hp slot value s
  | .dbCqWrite hp slot value => Sys2Proof.Machine.execDbCqWrite hp slot value s
  | .registerWrite hp offset wide value => Sys2Proof.Machine.execRegisterWrite hp offset wide value s
  | .programStart rod => Sys2Proof.Machine.execProgramStart rod s
  | .descFetch rod => Sys2Proof.Machine.execDescFetch rod s
  | .descIssue rod => Sys2Proof.Machine.execDescIssue rod s
  | .descComplete rod unit => Sys2Proof.Machine.execDescComplete rod unit s
  | .loadTile rod e => Sys2Proof.Machine.execLoadTile rod e s
  | .bankLoad rod e => Sys2Proof.Machine.execBankLoad rod e s
  | .loadw rod e => Sys2Proof.Machine.execLoadw rod e s
  | .gather rod e => Sys2Proof.Machine.execGather rod e s
  | .storeTile rod e => Sys2Proof.Machine.execStoreTile rod e s
  | .scatter rod e => Sys2Proof.Machine.execScatter rod e s
  | .mma rod e => Sys2Proof.Machine.execMma rod e s
  | .swap rod e => Sys2Proof.Machine.execSwap rod e s
  | .drain rod e => Sys2Proof.Machine.execDrain rod e s
  | .mmv rod e => Sys2Proof.Machine.execMmv rod e s
  | .vec rod e => Sys2Proof.Machine.execVec rod e s
  | .reduce rod e => Sys2Proof.Machine.execReduce rod e s
  | .sortKeys rod e => Sys2Proof.Machine.execSortKeys rod e s
  | .setins rod e => Sys2Proof.Machine.execSetins rod e s
  | .setprobe rod e => Sys2Proof.Machine.execSetprobe rod e s
  | .layerBegin rod => Sys2Proof.Machine.execLayerBegin rod s
  | .layerEnd rod => Sys2Proof.Machine.execLayerEnd rod s
  | .checkNext rod => Sys2Proof.Machine.execCheckNext rod s
  | .waitCtr rod => Sys2Proof.Machine.execWaitCtr rod s
  | .signalCtr rod => Sys2Proof.Machine.execSignalCtr rod s
  | .rodBarrier rod => Sys2Proof.Machine.execRodBarrier rod s
  | .syncTimeout rod => Sys2Proof.Machine.execSyncTimeout rod s
  | .tierHint rod => Sys2Proof.Machine.execTierHint rod s
  | .setPhase rod => Sys2Proof.Machine.execSetPhase rod s
  | .endProgram rod => Sys2Proof.Machine.execEndProgram rod s
  | .wvCompare frame => Sys2Proof.Machine.execWvCompare frame s
  | .speedMeasure mhz => Sys2Proof.Machine.execSpeedMeasure mhz s
  | .thermalGradientCheck => Sys2Proof.Machine.execThermalGradientCheck s
  | .timerefLoss => Sys2Proof.Machine.execTimerefLoss s
  | .timerefReturn => Sys2Proof.Machine.execTimerefReturn s
  | .heartbeatAdvance cores => Sys2Proof.Machine.execHeartbeatAdvance cores s
  | .heartbeatTimeout => Sys2Proof.Machine.execHeartbeatTimeout s
  | .watchdogChipReset => Sys2Proof.Machine.execWatchdogChipReset s
  | .faultMessage msg => Sys2Proof.Machine.execFaultMessage msg s
  | .powerCycleRepeat => Sys2Proof.Machine.execPowerCycleRepeat s
  | .fcParityError word => Sys2Proof.Machine.execFcParityError word s
  | .thermtrip sensor => Sys2Proof.Machine.execThermtrip sensor s
  | .engineReset rod => Sys2Proof.Machine.execEngineReset rod s
  | .partitionReset part => Sys2Proof.Machine.execPartitionReset part s
  | .chipReset unread => Sys2Proof.Machine.execChipReset unread s
  | .replay => Sys2Proof.Machine.execReplay s
  | .pwrEnRise strap pairSel => Sys2Proof.Machine.execPwrEnRise strap pairSel s
  | .pwrEnFall => Sys2Proof.Machine.execPwrEnFall s
  | .conversionStop => Sys2Proof.Machine.execConversionStop s
  | .vin52Loss => Sys2Proof.Machine.execVin52Loss s
  | .powerReading milliwatts => Sys2Proof.Machine.execPowerReading milliwatts s
  | .sensorRead readings => Sys2Proof.Machine.execSensorRead readings s
  | .convOvercurrent die => Sys2Proof.Machine.execConvOvercurrent die s
  | .convOvertemp die => Sys2Proof.Machine.execConvOvertemp die s
  | .convShutdown die => Sys2Proof.Machine.execConvShutdown die s
  | .softStartDone => Sys2Proof.Machine.execSoftStartDone s
  | .rotSelfTest passed => Sys2Proof.Machine.execRotSelfTest passed s
  | .bootRomLoad => Sys2Proof.Machine.execBootRomLoad s
  | .firstStageStart => Sys2Proof.Machine.execFirstStageStart s
  | .configImageApply mmaFailed rodFailed => Sys2Proof.Machine.execConfigImageApply mmaFailed rodFailed s
  | .memoryTraining failedStack => Sys2Proof.Machine.execMemoryTraining failedStack s
  | .firmwareAreaPrepare => Sys2Proof.Machine.execFirmwareAreaPrepare s
  | .readyHigh => Sys2Proof.Machine.execReadyHigh s
  | .hostLinkUp hp => Sys2Proof.Machine.execHostLinkUp hp s
  | .hostPortReset hp perstLow => Sys2Proof.Machine.execHostPortReset hp perstLow s
  | .sbGetStatus => Sys2Proof.Machine.execSbGetStatus s
  | .sbFaultRead offset => Sys2Proof.Machine.execSbFaultRead offset s
  | .resetChip => Sys2Proof.Machine.execResetChip s
  | .recoveryWrite offset data => Sys2Proof.Machine.execRecoveryWrite offset data s
  | .recoveryCommit => Sys2Proof.Machine.execRecoveryCommit s
  | .mctpControl request => Sys2Proof.Machine.execMctpControl request s
  | .pldmRequest sensor request => Sys2Proof.Machine.execPldmRequest sensor request s
  | .setdasa staticAddr dynAddr => Sys2Proof.Machine.execSetdasa staticAddr dynAddr s
  | .entdaa dynAddr => Sys2Proof.Machine.execEntdaa dynAddr s
  | .sbWriteRetry => Sys2Proof.Machine.execSbWriteRetry s
  | .doeDiscovery box index => Sys2Proof.Machine.execDoeDiscovery box index s
  | .getVersion box => Sys2Proof.Machine.execGetVersion box s
  | .getCapabilities box => Sys2Proof.Machine.execGetCapabilities box s
  | .negotiateAlgorithms box p384 sha384 => Sys2Proof.Machine.execNegotiateAlgorithms box p384 sha384 s
  | .getDigests box => Sys2Proof.Machine.execGetDigests box s
  | .getCertificate box slot offset length => Sys2Proof.Machine.execGetCertificate box slot offset length s
  | .challenge box slot nonce => Sys2Proof.Machine.execChallenge box slot nonce s
  | .getMeasurements box index signed nonce => Sys2Proof.Machine.execGetMeasurements box index signed nonce s
  | .unsupportedRequest box code => Sys2Proof.Machine.execUnsupportedRequest box code s
  | .tokenRefill => Sys2Proof.Machine.execTokenRefill s
  | .extest => Sys2Proof.Machine.execExtest s
  | .clamp => Sys2Proof.Machine.execClamp s
  | .highz => Sys2Proof.Machine.execHighz s
  | .bypass => Sys2Proof.Machine.execBypass s
  | .idcode => Sys2Proof.Machine.execIdcode s
  | .samplePreload => Sys2Proof.Machine.execSamplePreload s
  | .hbmRead req t part pa ecc => Sys2Proof.Machine.execHbmRead req t part pa ecc s
  | .hbmWrite req t part pa data tag ver => Sys2Proof.Machine.execHbmWrite req t part pa data tag ver s
  | .patrolScrub ch burst ecc => Sys2Proof.Machine.execPatrolScrub ch burst ecc s
  | .hbmCeRate ch => Sys2Proof.Machine.execHbmCeRate ch s
  | .phyCalibration ch => Sys2Proof.Machine.execPhyCalibration ch s
  | .csRequest req t ctx va write length ecc => Sys2Proof.Machine.execCsRequest req t ctx va write length ecc s
  | .rsWindowAccess req t part pa write length ecc => Sys2Proof.Machine.execRsWindowAccess req t part pa write length ecc s
  | .useReport used => Sys2Proof.Machine.execUseReport used s
  | .tierMiss ctx va rod => Sys2Proof.Machine.execTierMiss ctx va rod s
  | .pageArrival object page => Sys2Proof.Machine.execPageArrival object page s
  | .hintService part => Sys2Proof.Machine.execHintService part s
  | .tierStarvation ctx => Sys2Proof.Machine.execTierStarvation ctx s
  | .codewordRead object page tile word outcome => Sys2Proof.Machine.execCodewordRead object page tile word outcome s
  | .sourceTimeout object page tile => Sys2Proof.Machine.execSourceTimeout object page tile s
  | .tileCommit group programOk => Sys2Proof.Machine.execTileCommit group programOk s
  | .stripeCloseTimeout group => Sys2Proof.Machine.execStripeCloseTimeout group s
  | .mapCheckpoint => Sys2Proof.Machine.execMapCheckpoint s
  | .mountTier newestOk olderOk => Sys2Proof.Machine.execMountTier newestOk olderOk s
  | .staticWearLevel slc => Sys2Proof.Machine.execStaticWearLevel slc s
  | .readDisturbRefresh block => Sys2Proof.Machine.execReadDisturbRefresh block s
  | .retentionTick case0 case1 => Sys2Proof.Machine.execRetentionTick case0 case1 s
  | .readScan outcomes => Sys2Proof.Machine.execReadScan outcomes s
  | .dieFailure die => Sys2Proof.Machine.execDieFailure die s
  | .countedSlot kind inst arrivals => Sys2Proof.Machine.execCountedSlot kind inst arrivals s
  | .tallyStarvation kind inst cls => Sys2Proof.Machine.execTallyStarvation kind inst cls s
  | .trainingAttempt port lanes => Sys2Proof.Machine.execTrainingAttempt port lanes s
  | .trainingTimeout port => Sys2Proof.Machine.execTrainingTimeout port s
  | .hello port payload => Sys2Proof.Machine.execHello port payload s
  | .flitReceive port fec flit => Sys2Proof.Machine.execFlitReceive port fec flit s
  | .nak port fseq => Sys2Proof.Machine.execNak port fseq s
  | .ackTimeout port => Sys2Proof.Machine.execAckTimeout port s
  | .recoveryTimeout port => Sys2Proof.Machine.execRecoveryTimeout port s
  | .retryRateCheck port => Sys2Proof.Machine.execRetryRateCheck port s
  | .lossOfSignal port => Sys2Proof.Machine.execLossOfSignal port s
  | .peerSafe port => Sys2Proof.Machine.execPeerSafe port s
  | .packetForward index => Sys2Proof.Machine.execPacketForward index s
  | .noRoute index => Sys2Proof.Machine.execNoRoute index s
  | .escapeTimeout index => Sys2Proof.Machine.execEscapeTimeout index s
  | .sessionOpen h => Sys2Proof.Machine.execSessionOpen h s
  | .sessionAccept h => Sys2Proof.Machine.execSessionAccept h s
  | .ack h stream mseq refused => Sys2Proof.Machine.execAck h stream mseq refused s
  | .stale h => Sys2Proof.Machine.execStale h s
  | .retransmitTimeout peer stream mseq => Sys2Proof.Machine.execRetransmitTimeout peer stream mseq s
  | .streamTimeout peer stream => Sys2Proof.Machine.execStreamTimeout peer stream s
  | .tileWrite h group object offset data md => Sys2Proof.Machine.execTileWrite h group object offset data md s
  | .tileRead h group object offset length => Sys2Proof.Machine.execTileRead h group object offset length s
  | .tileData h request available data md => Sys2Proof.Machine.execTileData h request available data md s
  | .journalMsg h records => Sys2Proof.Machine.execJournalMsg h records s
  | .mirrorState h record => Sys2Proof.Machine.execMirrorState h record s
  | .snapCopy h copy => Sys2Proof.Machine.execSnapCopy h copy s
  | .remoteQuery h => Sys2Proof.Machine.execRemoteQuery h s
  | .remoteReply h records => Sys2Proof.Machine.execRemoteReply h records s
  | .excludeReq m => Sys2Proof.Machine.execExcludeReq m s
  | .admitReq m => Sys2Proof.Machine.execAdmitReq m s
  | .viewChange m => Sys2Proof.Machine.execViewChange m s
  | .viewQuery m => Sys2Proof.Machine.execViewQuery m s
  | .viewReply m => Sys2Proof.Machine.execViewReply m s
  | .arrive m => Sys2Proof.Machine.execArrive m s
  | .barrierRelease m peers shards => Sys2Proof.Machine.execBarrierRelease m peers shards s
  | .barrierStall ctx => Sys2Proof.Machine.execBarrierStall ctx s
  | .collReady m => Sys2Proof.Machine.execCollReady m s
  | .contrib m => Sys2Proof.Machine.execContrib m s
  | .landing slice => Sys2Proof.Machine.execLanding slice s
  | .collFinal m => Sys2Proof.Machine.execCollFinal m s
  | .collData m => Sys2Proof.Machine.execCollData m s
  | .resendReq m => Sys2Proof.Machine.execResendReq m s
  | .tableLoad m => Sys2Proof.Machine.execTableLoad m s
  | .tableRetire m => Sys2Proof.Machine.execTableRetire m s
  | .tableAck m => Sys2Proof.Machine.execTableAck m s
  | .normSum m => Sys2Proof.Machine.execNormSum m s
  | .recoveryExit port => Sys2Proof.Machine.execRecoveryExit port s
  | .vin52Sag mv => Sys2Proof.Machine.execVin52Sag mv s
  | .vin52SagEnd mv => Sys2Proof.Machine.execVin52SagEnd mv s
  | .vin52Rise mv => Sys2Proof.Machine.execVin52Rise mv s
  | .completionTimeOut hp address => Sys2Proof.Machine.execCompletionTimeOut hp address s
  | .journalStripeTimeout => Sys2Proof.Machine.execJournalStripeTimeout s
  | .controlStateRewrite => Sys2Proof.Machine.execControlStateRewrite s
  | .zlRefclkLoss => Sys2Proof.Machine.execZlRefclkLoss s
  | .pwrEnLowTimeEnd => Sys2Proof.Machine.execPwrEnLowTimeEnd s

end Sys2Proof.Machine
end

