-- ==== Sys2Proof/Machine/Tick.lean ====
section
/-!
DEFINITION. One tick of the local time counter (spec/02_timing_without_clock.md R45; log 2), with the phase times that it
adds to (spec/09_training_steps.md R248, T9.5).
-/

namespace Sys2Proof.Machine

/-- What a rod's time is charged to: 6 at a barrier, from its arrival on and whatever else it waits for (DESIGN CHOICE, log 80),
5 while it waits for a page, else the phase named (R111). -/
def chargeOf (s : State) (n : Nat) (r : Run) : Nat :=
  if r.arrived then 6 else if s.deep.moves.any (fun m => m.rods.contains n) then 5 else r.phase

/-- A rod of a context is charged to a phase. -/
def rodInPhase (s : State) (c k : Nat) : Bool :=
  s.rods.any (fun kv => match kv.2.run with
    | some r => r.l.ctx = c && r.halt.isNone && chargeOf s kv.1 r = k
    | none => false)

/-- Charge one tick to what a rod with a program does (R111). -/
def tickRod (s : State) (kv : Nat × Rod) : Nat × Rod :=
  match kv.2.run with
  | some r => (kv.1, { kv.2 with ticks := mapMod 0 kv.2.ticks (chargeOf s kv.1 r) (· + 1) })
  | none => kv

/-- A rod of a context waits for a page. -/
def rodStalled (s : State) (c : Nat) : Bool :=
  s.deep.moves.any (fun m => m.rods.any (fun n => match (mapGet {} s.rods n).run with
    | some r => r.l.ctx = c
    | none => false))

/-- A gradient run of a context is in progress. -/
def gradRuns (s : State) (c : Nat) : Bool := s.groups.any (fun kv => kv.2.ctx = c && kv.2.run.any (fun r => r.kind = 4))

/-- An UPDATE_RUN of a context is in progress: it may start, and its DONE is still to come. -/
def updateRuns (s : State) (c : Nat) : Bool :=
  s.jr.ring.any (fun d => d.opcode = 0x602 && d.ctx = c && d.done.isNone && (d.started || mayStart s d))

/-- The phases of T9.5 that this tick counts for a context: 1 to 4, and 5 for a stall. -/
def phasesNow (s : State) (c : Nat) : List Nat :=
  (if s.dev.safe then [] else [1, 2, 3, 4].filter (fun k =>
    rodInPhase s c k || (k = 3 && gradRuns s c) || (k = 4 && updateRuns s c)))
    ++ (if rodStalled s c then [5] else [])

/-- Add one tick to the phase times of an open step. -/
def tickCtx (s : State) (kv : Nat × Ctx) : Nat × Ctx :=
  if kv.2.stepOpen then
    (kv.1, { kv.2 with train := { kv.2.train with
      phases := (phasesNow s kv.1).foldl (fun m k => mapMod 0 m k (satAdd 40 · 1)) kv.2.train.phases } })
  else kv

/-- The safe-state ordered set ends 10 µs after it began; the port is then at electrical idle (R270). -/
def tickPort (now : Nat) (kv : Nat × Port) : Nat × Port :=
  match kv.2.orderedSet with
  | some t => (kv.1, if t + 1000 ≤ now then { kv.2 with orderedSet := none } else kv.2)
  | none => kv

/-! ### Messages held (R285) -/

/-- Offer a held message again: it is delivered, or held on. -/
def retryMsg (s : State) (row : Instr) : State :=
  match row with
  | .tileWrite h group object offset data md => orStay s (execTileWrite h group object offset data md s)
  | .tileRead h group object offset length => orStay s (execTileRead h group object offset length s)
  | .tileData h request available data md => orStay s (execTileData h request available data md s)
  | .journalMsg h records => orStay s (execJournalMsg h records s)
  | .mirrorState h record => orStay s (execMirrorState h record s)
  | .snapCopy h copy => orStay s (execSnapCopy h copy s)
  | .remoteQuery h => orStay s (execRemoteQuery h s)
  | .remoteReply h records => orStay s (execRemoteReply h records s)
  | .excludeReq m => orStay s (execExcludeReq m s)
  | .admitReq m => orStay s (execAdmitReq m s)
  | .viewChange m => orStay s (execViewChange m s)
  | .viewQuery m => orStay s (execViewQuery m s)
  | .viewReply m => orStay s (execViewReply m s)
  | .arrive m => orStay s (execArrive m s)
  | .barrierRelease m peers shards => orStay s (execBarrierRelease m peers shards s)
  | .collReady m => orStay s (execCollReady m s)
  | .contrib m => orStay s (execContrib m s)
  | .collFinal m => orStay s (execCollFinal m s)
  | .collData m => orStay s (execCollData m s)
  | .resendReq m => orStay s (execResendReq m s)
  | .tableLoad m => orStay s (execTableLoad m s)
  | .tableRetire m => orStay s (execTableRetire m s)
  | .tableAck m => orStay s (execTableAck m s)
  | .normSum m => orStay s (execNormSum m s)
  | _ => s

/-- Offer a held message again while its port carries packets; else it waits on. -/
def retryHeld (s : State) (e : MsgHdr × Nat × Instr) : State :=
  if arrived e.1 s then retryMsg s e.2.2 else { s with zl := { s.zl with later := s.zl.later ++ [e] } }

/-- Offer every held message once more, oldest first (DESIGN CHOICE, log 27: at a tick, which is well within the time of R285). -/
def serveLater (s : State) : State := s.zl.later.foldl retryHeld { s with zl := { s.zl with later := [] } }

/-- What counts at a tick. -/
def advance (s : State) : State :=
  { s with clk := { s.clk with ltc := s.clk.ltc + 1 }, ctxs := s.ctxs.map (tickCtx s), rods := s.rods.map (tickRod s)
           zl := { s.zl with ports := s.zl.ports.map (tickPort (s.clk.ltc + 1)) } }

/-- One tick: held messages are looked at, fault messages enter their network, and time goes on. Nothing counts while PD_ON has no power. -/
def tick (s : State) : State :=
  if s.sup.domains.getLsbD 0 then advance (enterNetwork (if s.zl.later.isEmpty then s else serveLater s)) else s

end Sys2Proof.Machine
end

