-- ==== Sys2Proof/Safety.lean ====
section
/-!
DEFINITION. The terms that statements use: when a host command runs its body, and the invariant that every step keeps.
-/

namespace Sys2Proof.Machine

/-- The command `c` is the accepted command of queue `q` with number `seq` and opcode `op`, it may start (R348), its
parameter bytes outside `named` and every byte past its parameters are zero (R343, R350), its parameters have the layout of its row
(R8), its CONTEXT is as the opcode requires, one that exists or 0, and the link of its port is up where it needs host memory
(R360). -/
def hostRuns (s : State) (q seq op : Nat) (onCtx : Bool) (named : List (Nat × Nat)) (c : Cmd) : Bool :=
  decide (startable s q seq op = some c) && (!c.needsHost || linkUp s c.port) && !c.stray && c.rest0 named && c.layoutOk && (if onCtx then ctxExists s c.ctx else decide (c.ctx = 0))

/-- The command `c` is a SET_PARAM that may start, for the setting `param` (T12.20). -/
def paramRuns (s : State) (q seq param : Nat) (c : Cmd) : Bool :=
  hostRuns s q seq 0x102 false [(0, 40)] c && decide (c.p 0 4 = param)

/-- Unit `u` of rod `n` may start the descriptor `f` of program `r`, which has opcode `op` (R74, R75, R124): the rods are
not halted, the move unit has its memory, the program is not halted or this descriptor had started (R112). -/
def unitRuns (s : State) (n u op : Nat) (r : Run) (f : Flight) : Bool :=
  !coreHalted s && !(decide (u = 0) && hbmHalted s) && decide ((rodGet s n).run = some r) && (r.halt.isNone || f.started)
    && decide (startOf r u = some f) && decide (opOf f.word = op)

/-- The descriptor reads no word of the rod store with an error, or only one that is corrected (R166). -/
def upsetOk (e : Option Upset) : Bool := e.all (fun u => u.fixed)

/-- The state in which the descriptor then runs: a corrected error has been counted (R166). -/
def afterUpset (n : Nat) (e : Option Upset) (s : State) : State :=
  if e.isSome then rodMod n (fun x => { x with corr := x.corr + 1 }) s else s

/-- The sequencer of rod `n` holds the control descriptor `f` of program `r`, with opcode `op`, and its AFTER mask holds
(R75, R102). -/
def ctlRuns (s : State) (n op : Nat) (r : Run) (f : Flight) : Bool :=
  !coreHalted s && decide ((rodGet s n).run = some r) && decide (r.ctl = some f) && r.halt.isNone
    && decide (opOf f.word = op) && afterOk r f

/-- The message with header `h` has arrived whole, in the session its sender has open here, with both boot ids right, it is
the next one of its stream (R283, R285), and the fabric that takes it runs (R40). -/
def msgTurn (s : State) (h : MsgHdr) (stream : Nat) : Bool :=
  !stalled s s.sup.fabMv && arrived h s && decide (h.dstBoot = s.dev.bootId.toNat) && (peerGet s h.src).isOpen
    && decide ((peerGet s h.src).boot = h.srcBoot) && decide (h.mseq = mapGet 0 (peerGet s h.src).rx stream)

/-- The MEMBER message `m` is the next one of its session, for the group `x` of a context here, in which this device is not
EXCLUDED (R303, R304). -/
def memTurn (s : State) (m : MemMsg) (x : Group) : Bool :=
  msgTurn s m.hdr 0 && decide (groupGet s m.group = some x) && ctxExists s x.ctx && decide (x.stateOf x.own ≠ 2)

/-- The COLL_STEP message `m` is the next one of its session, for the group `x` here, from a LIVE member to a LIVE one
(T11.1, R310). -/
def collTurn (s : State) (m : CollMsg) (x : Group) : Bool :=
  msgTurn s m.hdr 1 && decide (collFrom s m = some x) && !collStale x m

/-- The same, and it names the run in progress. -/
def runTurn (s : State) (m : CollMsg) (x : Group) (r : CollRun) : Bool :=
  collTurn s m x && decide (x.run = some r) && decide (r.run % 65536 = m.run)

/-- Nothing in these ranges makes a message wait: each page is there, or is lost (R153, R203). -/
def noWait (s : State) (c : Nat) (rs : List Span) : Bool :=
  (rs.findSome? (fun r => (firstAbsent s c r.1 r.2.1 r.2.2).filter (fun a => !pageGivenUp a.1 a.2 s))).isNone

/-- The setpoints: rod groups and Common Store slices at 650 to 750 mV in steps of 10 mV, PD_FAB at 700 to 750 mV and
never more than 50 mV above them; a duty of 1 to 8 eighths (R452, R455). -/
def setpointsOk (coreMv fabMv duty : Nat) : Bool :=
  decide (650 ≤ coreMv) && decide (coreMv ≤ 750) && decide (coreMv % 10 = 0)
    && decide (700 ≤ fabMv) && decide (fabMv ≤ 750) && decide (fabMv % 10 = 0)
    && decide (coreMv ≤ fabMv) && decide (fabMv ≤ coreMv + 50)
    && decide (1 ≤ duty) && decide (duty ≤ 8)

/-- What every step keeps: setpoints and duty in range (R452, R455), at most 8 attestation tokens (R444), an LMS leaf
index of at most 2^20 (R441), fewer than two boot attempts counted (R435). -/
def Inv (s : State) : Bool :=
  setpointsOk s.sup.coreMv s.sup.fabMv s.sup.duty && decide (s.trust.tokens ≤ 8) && decide (s.trust.leaf ≤ 1048576)
    && decide (s.trust.attempts < 2)

end Sys2Proof.Machine
end

