-- ==== Sys2Proof/Certificates/Slice0/Obligations.lean ====
section
/-!
DEFINITION. What this model claims of the MN9600, for the provers. Most statements are completion statements: each clause
says that a command answers a next state, and which, under hypotheses on the state and the operands alone.
-/

open Sys2Proof Sys2Proof.Machine

/-- IDENTIFY, GET_INFO, GET_PARAM and HOST_ADOPT complete with the result their rows name. Where a management command is the accepted one that may start, and its operands are in order, it completes: IDENTIFY with the part number, stepping, serial number, Zilet id and port; GET_INFO with a page of at most 16 bytes in the result and a longer one in host memory; GET_PARAM with the value of the setting; HOST_ADOPT with the number of queues it has moved, with an interrupt on both ports when there is one. Nothing else of the state changes than what the equation shows and what the end of a command changes (EndOfCommandFrame). (R350; R352; R355; R359; 12_host_command_interface T12.8) -/
def Obligations.ManagementCommandsRun : Prop :=
  (∀ (q : Fin 512) (seq : Nat) (s : State) (c : Cmd),
    (hostRuns s q seq 0x100 false [] c) →
    exec (.identify q seq) s = .next (finish c stSuccess (natLe 2 0x9600 ++ [0xB0#8, 0x01#8] ++ natLe 8 s.trust.serial.toNat ++ natLe 2 (s.dev.zlId.getD 0xFFFF) ++ natLe 1 c.port) s)) ∧
  (∀ (q : Fin 512) (seq : Nat) (s : State) (c : Cmd) (b : Bytes),
    (hostRuns s q seq 0x101 false [(0, 2), (8, 8)] c) →
    (infoPage s (c.p 0 2) = some b) →
    (b.length ≤ 16) →
    exec (.getInfo q seq) s = .next (finish c stSuccess b s)) ∧
  (∀ (q : Fin 512) (seq : Nat) (s : State) (c : Cmd) (b : Bytes),
    (hostRuns s q seq 0x101 false [(0, 2), (8, 8)] c) →
    (infoPage s (c.p 0 2) = some b) →
    (16 < b.length) →
    (linkUp s c.port) →
    exec (.getInfo q seq) s = .next (finish c stSuccess (natLe 4 b.length) (hostWrite c.port (c.p 8 8) b s))) ∧
  (∀ (q : Fin 512) (seq : Nat) (s : State) (c : Cmd) (v : Nat),
    (hostRuns s q seq 0x103 false [(0, 16)] c) →
    (c.p 0 4 ≠ 1) →
    (settingValue s (c.p 0 4) (c.p 4 4) = some v) →
    exec (.getParam q seq) s = .next (finish c stSuccess (natLe 8 v) s)) ∧
  (∀ (q : Fin 512) (seq : Nat) (s : State) (c : Cmd),
    (hostRuns s q seq 0x103 false [(0, 16)] c) →
    (c.p 0 4 = 1) →
    (c.p 4 4 < 512) →
    (linkUp s c.port) →
    exec (.getParam q seq) s = .next (finish c stSuccess [] (hostWrite c.port (c.p 8 8) (queueValue (qGet s (c.p 4 4))) s))) ∧
  (∀ (q : Fin 512) (seq : Nat) (s : State) (c : Cmd),
    (hostRuns s q seq 0x105 false [(0, 3), (8, 64)] c) →
    (c.p 0 1 ≤ 1) →
    (c.p 1 1 = 1 - c.p 0 1) →
    (c.p 2 1 ≤ 1) →
    (qPort c.queue (qGet s c.queue) = c.port) →
    ((List.range 512).filter (fun n => qPort n (qGet s n) = c.p 0 1 && (c.p 2 1 = 0 || bitOf (c.p 8 64) n)) ≠ []) →
    exec (.hostAdopt q seq) s = .next (finish c stSuccess (natLe 2 ((List.range 512).filter (fun n => qPort n (qGet s n) = c.p 0 1 && (c.p 2 1 = 0 || bitOf (c.p 8 64) n))).length) (signalBoth (((List.range 512).filter (fun n => qPort n (qGet s n) = c.p 0 1 && (c.p 2 1 = 0 || bitOf (c.p 8 64) n))).foldl (fun s n => moveQueue n s) s))))

/-- Every SET_PARAM row sets its setting and answers with the value it replaces. For each of the ten settings of T12.20, a SET_PARAM whose INDEX and VALUE are allowed completes with SUCCESS and the value that it replaces, having set the setting as the equation shows and nothing else. (R355; R338; R339; R392; R138; R156; R276; R265; R376; 12_host_command_interface T12.20) -/
def Obligations.SettingsTakeTheirValues : Prop :=
  (∀ (q : Fin 512) (seq : Nat) (s : State) (c : Cmd),
    (paramRuns s q seq 0x01 c) →
    (c.p 4 4 < 512) →
    (c.p 4 4 % 256 ≠ 0) →
    (bitsOf (c.p 16 8) 63 32 = 0 ∧ bitsOf (c.p 16 8) 30 22 = 0 ∧ bitsOf (c.p 16 8) 15 13 = 0 ∧ bitsOf (c.p 16 8) 7 5 = 0) →
    (qPort (c.p 4 4) (qGet s (c.p 4 4)) = c.port) →
    ((qGet s (c.p 4 4)).enabled = false) →
    (bitOf (c.p 16 8) 31) →
    (ringsOk (bitsOf (c.p 16 8) 4 0) (bitsOf (c.p 16 8) 12 8) (c.p 24 8) (c.p 32 8)) →
    exec (.setParamQueue q seq) s = .next (setDone c 0 (enableQueue (c.p 4 4) (bitsOf (c.p 16 8) 21 16) (bitsOf (c.p 16 8) 4 0) (bitsOf (c.p 16 8) 12 8) (c.p 24 8) (c.p 32 8) s))) ∧
  (∀ (q : Fin 512) (seq : Nat) (s : State) (c : Cmd),
    (paramRuns s q seq 0x10 c) →
    (sevAllowed (c.p 4 4) (c.p 8 8)) →
    exec (.setParamFcSeverity q seq) s = .next (setDone c (sevOf s (c.p 4 4)) { s with fc := { s.fc with sev := mapInsert s.fc.sev (c.p 4 4) (c.p 8 8) } })) ∧
  (∀ (q : Fin 512) (seq : Nat) (s : State) (c : Cmd),
    (paramRuns s q seq 0x11 c) →
    (c.p 4 4 = 0) →
    (1200 ≤ c.p 8 8 ∧ c.p 8 8 ≤ 2100) →
    exec (.setParamPowerLimit q seq) s = .next (setDone c s.dev.powerLimit { s with dev := { s.dev with powerLimit := c.p 8 8 } })) ∧
  (∀ (q : Fin 512) (seq : Nat) (s : State) (c : Cmd),
    (paramRuns s q seq 0x20 c) →
    (c.p 4 4 = 0) →
    (c.p 8 8 < 4096) →
    (s.zl.peers.all (fun kv => !kv.2.isOpen)) →
    exec (.setParamZlDeviceId q seq) s = .next (setDone c (s.dev.zlId.getD 0xFFFF) (autoRoutes ((List.range 32).foldl idAtPort (setZlId (c.p 8 8) s))))) ∧
  (∀ (q : Fin 512) (seq : Nat) (s : State) (c : Cmd),
    (paramRuns s q seq 0x21 c) →
    (c.p 4 4 = 0) →
    (c.p 8 8 < 2 ^ 32) →
    exec (.setParamZlPortEnable q seq) s = .next (setDone c s.dev.portEnable.toNat (sessionsIfNone (mirrorCheck (autoRoutes ((List.range 32).foldl (enablePort (c.p 8 8)) (setPortEnable (c.p 8 8) s))))))) ∧
  (∀ (q : Fin 512) (seq : Nat) (s : State) (c : Cmd),
    (paramRuns s q seq 0x22 c) →
    (c.p 4 4 = 0) →
    (c.p 8 8 < 2 ^ 32) →
    (1 ≤ (maskList (c.p 8 8) 32).length ∧ (maskList (c.p 8 8) 32).length ≤ 4) →
    ((maskList (c.p 8 8) 32).all (fun p => (mapFind s.parts.ded p).isNone)) →
    (s.jr.pair ≠ .bound) →
    exec (.setParamZlMirrorPorts q seq) s = .next (setDone c s.dev.mirrorPorts.toNat { s with dev := { s.dev with mirrorPorts := BitVec.ofNat 32 (c.p 8 8) } })) ∧
  (∀ (q : Fin 512) (seq : Nat) (s : State) (c : Cmd),
    (paramRuns s q seq 0x30 c) →
    (c.p 4 4 = 0) →
    (c.p 8 8 = 0) →
    exec (.setParamJournalFlush q seq) s = .next (setDone c (if s.dev.journalFlush then 1 else 0) { s with dev := { s.dev with journalFlush := false } })) ∧
  (∀ (q : Fin 512) (seq : Nat) (s : State) (c : Cmd),
    (paramRuns s q seq 0x40 c) →
    (c.p 4 4 < 320) →
    (c.p 8 8 = 1) →
    (segScratch s (c.p 4 4) = false) →
    exec (.setParamCsSegMode q seq) s = .next (setDone c 0 (pump (segMode (c.p 4 4) true s)))) ∧
  (∀ (q : Fin 512) (seq : Nat) (s : State) (c : Cmd),
    (paramRuns s q seq 0x41 c) →
    (c.p 4 4 < 8) →
    (4 ≤ c.p 8 8 ∧ c.p 8 8 ≤ 16) →
    exec (.setParamWvLog2 q seq) s = .next (setDone c (mapGet 8 s.dev.wvLog2 (c.p 4 4)) { s with dev := { s.dev with wvLog2 := mapSet 8 s.dev.wvLog2 (c.p 4 4) (c.p 8 8) } })) ∧
  (∀ (q : Fin 512) (seq : Nat) (s : State) (c : Cmd),
    (paramRuns s q seq 0x42 c) →
    (c.p 4 4 < 8) →
    (1 ≤ c.p 8 8 ∧ c.p 8 8 ≤ 24) →
    exec (.setParamWvThresh q seq) s = .next (setDone c (mapGet 6 s.dev.wvThresh (c.p 4 4)) { s with dev := { s.dev with wvThresh := mapSet 6 s.dev.wvThresh (c.p 4 4) (c.p 8 8) } }))

/-- SET_TALLY writes budgets and modes, a counted slot is granted or lapses, a starved class raises its source. SET_TALLY BUDGET and MODE, where allowed, put the budget or the mode into the table of every named arbiter and complete with the least room left; COUNTED_SLOT puts the requests that have come into the arbiter's queue and, with one waiting, counts one slot, with none it changes nothing; TALLY_STARVATION of a head request that has waited 1 s raises TALLY_STARVED of its kind with the arbiter and class in ADDRESS, counts STARVED and marks that request, which waits on. (R209; R215; R216; R218; R219; R220; R222) -/
def Obligations.TallyCommandsRun : Prop :=
  (∀ (q : Fin 512) (seq : Nat) (s : State) (c : Cmd),
    (hostRuns s q seq 0x104 false [(0, 16)] c) →
    ((tallyCmd c).op = 0 ∧ tallyRangeBad (tallyCmd c) = false ∧ (tallyCmd c).mode = 0 ∧ (tallyCmd c).budget ≤ 4096) →
    ((tallyCmd c).cls ≠ 60 ∨ (tallyCmd c).kind = 3) →
    (((tallyCmd c).cls ≠ 61 ∧ (tallyCmd c).cls ≠ 62) ∨ 41 ≤ (tallyCmd c).budget) →
    (classPart s (tallyCmd c).cls = none) →
    (∀ i < (tallyCmd c).count, budgetSum { arbGet s (tallyCmd c).kind ((tallyCmd c).first + i) with table := mapSet 0 (arbGet s (tallyCmd c).kind ((tallyCmd c).first + i)).table (tallyCmd c).cls (tallyCmd c).budget } ≤ 4096) →
    exec (.setTallyBudget q seq) s = .next (tallyDone c (tallyCmd c) (fun x => { x with table := mapSet 0 x.table (tallyCmd c).cls (tallyCmd c).budget }) s)) ∧
  (∀ (q : Fin 512) (seq : Nat) (s : State) (c : Cmd),
    (hostRuns s q seq 0x104 false [(0, 16)] c) →
    ((tallyCmd c).op = 1 ∧ tallyRangeBad (tallyCmd c) = false ∧ (tallyCmd c).cls = 0 ∧ (tallyCmd c).budget = 0) →
    exec (.setTallyMode q seq) s = .next (tallyDone c (tallyCmd c) (fun x => { x with tableBorrow := decide ((tallyCmd c).mode = 1) }) s)) ∧
  (∀ (kind : Fin 6) (inst : Nat) (arrivals : List Request) (s : State),
    (inst < arbInstances kind) →
    (s.dev.safe = false) →
    (slotRuns s kind = true ∧ (arbJoined s kind inst arrivals).queue ≠ []) →
    exec (.countedSlot kind inst arrivals) s = .next (arbSet kind inst (settleArb (countSlot (arbJoined s kind inst arrivals))) s)) ∧
  (∀ (kind : Fin 6) (inst : Nat) (arrivals : List Request) (s : State),
    (inst < arbInstances kind) →
    (s.dev.safe = false) →
    (slotRuns s kind = false ∧ (arbJoined s kind inst arrivals).queue ≠ []) →
    exec (.countedSlot kind inst arrivals) s = .next (arbSet kind inst (arbJoined s kind inst arrivals) s)) ∧
  (∀ (kind : Fin 6) (inst : Nat) (s : State),
    (inst < arbInstances kind) →
    (s.dev.safe = false) →
    ((arbJoined s kind inst []).queue = []) →
    exec (.countedSlot kind inst []) s = .next s) ∧
  (∀ (kind : Fin 6) (inst : Nat) (cls : Fin 64) (h : Waiter) (s : State),
    (inst < arbInstances kind) →
    (s.dev.safe = false) →
    (starvedHead s kind inst cls = some h) →
    exec (.tallyStarvation kind inst cls) s = .next (raise (srcTally + kind) 0x08 (fieldAt kind 4 36 + fieldAt inst 8 28 + fieldAt h.cls 4 24 + fieldAt h.cls 6 18) (arbSet kind inst (arbUp 130 { arbGet s kind inst with queue := markStarved h (arbGet s kind inst).queue }) s)))

/-- CTX, PART_CONFIG, PART_RESET and QUOTA_SET rows have their effects. Where a context, partition or quota command may start and its operands are allowed, it completes with SUCCESS: CTX_CREATE makes the context with its partition, class and seed; CTX_DESTROY and CTX_RESET end the context's commands and answer with their number; PART_CONFIG gives, takes back or flags units; PART_RESET resets the partition; QUOTA_SET holds the quota. (R15; R16; R21; R23; R224; R191; R410; R412) -/
def Obligations.ContextsAndPartitionsChange : Prop :=
  (∀ (q : Fin 512) (seq : Nat) (s : State) (c : Cmd),
    (startable s q seq 0x200 = some c) →
    (c.rest0 [(0, 2), (8, 8)] = true ∧ c.ctx ≠ 0 ∧ ctxExists s c.ctx = false) →
    (partDefined s (c.p 0 1) ∧ s.fc.rstParts.contains (c.p 0 1) = false) →
    (c.p 1 1 ≤ 59 ∧ classPart s (c.p 1 1) = some (c.p 0 1)) →
    (c.p 8 8 ≠ 0) →
    exec (.ctxCreate q seq) s = .next (finish c stSuccess [] (ctxSet c.ctx { part := c.p 0 1, cls := c.p 1 1, seed := BitVec.ofNat 64 (c.p 8 8) } s))) ∧
  (∀ (q : Fin 512) (seq : Nat) (s : State) (c : Cmd),
    (hostRuns s q seq 0x201 true [] c) →
    (c.ctx ≠ 0) →
    exec (.ctxDestroy q seq) s = .next (finish c stSuccess (natLe 4 (contextReset c.ctx (some c.jidx) s).1) (dropContext c.ctx (contextReset c.ctx (some c.jidx) s).2))) ∧
  (∀ (q : Fin 512) (seq : Nat) (s : State) (c : Cmd),
    (hostRuns s q seq 0x202 true [] c) →
    (c.ctx ≠ 0) →
    exec (.ctxReset q seq) s = .next (finish c stSuccess (natLe 4 (contextReset c.ctx (some c.jidx) s).1) (contextReset c.ctx (some c.jidx) s).2)) ∧
  (∀ (q : Fin 512) (seq : Nat) (s : State) (c : Cmd),
    (hostRuns s q seq 0x203 false [(0, 3), (8, 84)] c) →
    (c.p 0 1 = 0 ∧ s.fc.rstParts = []) →
    (claimCheck (partCmd c) s = stSuccess) →
    exec (.partConfigClaim q seq) s = .next (finish c stSuccess (natLe 4 (listMask (claimTake (partCmd c) s).2)) (groupsOff (claimTake (partCmd c) s).1))) ∧
  (∀ (q : Fin 512) (seq : Nat) (s : State) (c : Cmd),
    (hostRuns s q seq 0x203 false [(0, 3), (8, 84)] c) →
    (c.p 0 1 = 1 ∧ s.fc.rstParts = []) →
    (releaseCheck (partCmd c) s = stSuccess) →
    exec (.partConfigRelease q seq) s = .next (releaseUnits (partCmd c) c s)) ∧
  (∀ (q : Fin 512) (seq : Nat) (s : State) (c : Cmd),
    (hostRuns s q seq 0x203 false [(0, 3), (8, 84)] c) →
    (c.p 0 1 = 2 ∧ s.fc.rstParts = [] ∧ c.p 1 1 = 0 ∧ c.p 2 1 = 0) →
    ((partCmd c).rods = [] ∧ (partCmd c).chans = [] ∧ (partCmd c).segs = [] ∧ (partCmd c).ports = []) →
    exec (.partConfigSetFlags q seq) s = .next (finish c stSuccess [] { s with parts := { s.parts with fast := s.parts.fast &&& 0xFE#8 } })) ∧
  (∀ (q : Fin 512) (seq ticks : Nat) (s : State) (c : Cmd),
    (hostRuns s q seq 0x204 false [(0, 1)] c) →
    (partDefined s (c.p 0 1) ∧ s.fc.rstParts.contains (c.p 0 1) = false) →
    exec (.partReset q seq ticks) s = .next (finish c stSuccess (natLe 8 ticks) (partitionReset (c.p 0 1) (some c.jidx) s))) ∧
  (∀ (q : Fin 512) (seq : Nat) (s : State) (c : Cmd),
    (hostRuns s q seq 0x305 true [(0, 1), (4, 4)] c) →
    (c.p 0 1 ≤ 2) →
    (usedOf s c.ctx (c.p 0 1) ≤ c.p 4 4) →
    (quotaSum s (ctxPart s c.ctx) (c.p 0 1) - quotaOf s c.ctx (c.p 0 1) + c.p 4 4 ≤ tierCap s (ctxPart s c.ctx) (c.p 0 1)) →
    exec (.quotaSet q seq) s = .next (finish c stSuccess (natLe 4 (quotaOf s c.ctx (c.p 0 1))) (ctxMod c.ctx (fun x => { x with quotas := mapSet 0 x.quotas (c.p 0 1) (c.p 4 4) }) s)))

/-- OBJ_REGISTER, OBJ_RELEASE, OBJ_PLACE, COPY and PREFETCH_SCHEDULE have their effects. OBJ_REGISTER of a new object enters it under the lowest free number and starts placing every page; of a SHARED object it adds one mapping. OBJ_RELEASE ends the caller's mapping, for the owner the object. OBJ_PLACE starts moving the pages it names. PREFETCH_SCHEDULE installs the schedule, at once where no step is open. COPY, where no page is missing and no poisoned burst would leave the device, writes what it read and, once the tiles it writes to the user region are committed, answers with the number of bytes. (R189; R196; R197; R147; R149; R153; 12_host_command_interface T12.10) -/
def Obligations.ObjectCommandsRun : Prop :=
  (∀ (q : Fin 512) (seq : Nat) (s : State) (c : Cmd) (a b : Source) (o : Nat),
    (hostRuns s q seq 0x300 true [(0, 8), (8, 4), (12, 1), (13, 1), (16, 4), (32, 16), (48, 16)] c) →
    (c.p 0 8 % pageBytes = 0 ∧ 1 ≤ c.p 8 4 ∧ c.p 0 8 + c.p 8 4 * pageBytes ≤ 2 ^ 48) →
    (c.p 12 1 ≤ 2 ∧ bitsOf (c.p 13 1) 4 3 ≠ 3 ∧ bitsOf (c.p 13 1) 7 5 = 0) →
    (c.p 16 4 = 0xFFFFFFFF ∧ rangeFree s c.ctx (c.p 0 8) (c.p 8 4)) →
    (sourceOf c 32 = some a ∧ sourceOf c 48 = some b ∧ freeNumber s = o ∧ o < 1048576) →
    exec (.objRegister q seq) s = .next (let t := objSet o { owner := c.ctx, home := c.p 12 1, pin := c.bit 13 0, shared := c.bit 13 1, writable := c.bit 13 2, cache := bitsOf (c.p 13 1) 4 3, src1 := a, src2 := b, count := c.p 8 4, vpn := c.p 0 8 / pageBytes, maps := [(c.ctx, c.p 0 8)] } (begun c (purge o s)); pump { t with deep := { t.deep with jobs := t.deep.jobs ++ [{ cmd := c.jidx, ctx := c.ctx, object := o, dest := c.p 12 1, next := 0, stop := c.p 8 4, fresh := true }] } })) ∧
  (∀ (q : Fin 512) (seq : Nat) (s : State) (c : Cmd) (o : Nat),
    (hostRuns s q seq 0x300 true [(0, 8), (8, 4), (12, 1), (13, 1), (16, 4), (32, 16), (48, 16)] c) →
    (c.p 0 8 % pageBytes = 0 ∧ 1 ≤ c.p 8 4 ∧ c.p 0 8 + c.p 8 4 * pageBytes ≤ 2 ^ 48) →
    (c.p 12 1 ≤ 2 ∧ bitsOf (c.p 13 1) 4 3 ≠ 3 ∧ bitsOf (c.p 13 1) 7 5 = 0) →
    (c.p 16 4 = o ∧ o ≠ 0xFFFFFFFF ∧ objExists s o ∧ (objGet s o).shared = true ∧ ctxPart s (objGet s o).owner = ctxPart s c.ctx) →
    (objBase s c.ctx o = none ∧ c.p 8 4 = (objGet s o).count ∧ rangeFree s c.ctx (c.p 0 8) (objGet s o).count) →
    exec (.objRegister q seq) s = .next (finish c stSuccess (natLe 4 o) (objSet o { (objGet s o) with maps := (objGet s o).maps ++ [(c.ctx, c.p 0 8)] } s))) ∧
  (∀ (q : Fin 512) (seq : Nat) (s : State) (c : Cmd) (b : Nat),
    (hostRuns s q seq 0x301 true [(0, 4)] c) →
    (objBase s c.ctx (c.p 0 4) = some b) →
    exec (.objRelease q seq) s = .next (finish c stSuccess [] (releaseFrom c.ctx (c.p 0 4) s))) ∧
  (∀ (q : Fin 512) (seq : Nat) (s : State) (c : Cmd) (b : Nat),
    (hostRuns s q seq 0x302 true [(0, 4), (4, 1), (5, 1), (6, 1), (8, 4), (12, 4)] c) →
    (objBase s c.ctx (c.p 0 4) = some b ∧ c.p 4 1 ≤ 2 ∧ c.p 5 1 ≤ 1 ∧ c.p 8 4 + c.p 12 4 ≤ (objGet s (c.p 0 4)).count) →
    ((c.p 5 1 = 0 ∧ c.p 4 1 = 0) → (c.p 6 1 < 32 ∧ groupChans s (ctxPart s (objGet s (c.p 0 4)).owner) (c.p 6 1) ≠ [])) →
    exec (.objPlace q seq) s = .next (pump { begun c s with deep := { (begun c s).deep with jobs := (begun c s).deep.jobs ++ [{ cmd := c.jidx, ctx := c.ctx, object := c.p 0 4, dest := c.p 4 1, group := if c.p 5 1 = 0 ∧ c.p 4 1 = 0 then some (c.p 6 1) else none, next := c.p 8 4, stop := c.p 8 4 + c.p 12 4 }] } })) ∧
  (∀ (q : Fin 512) (seq : Nat) (s : State) (c : Cmd),
    (hostRuns s q seq 0x304 true [(0, 1), (2, 2), (16, 65536)] c) →
    (c.p 0 1 ≤ 15 ∧ c.p 2 2 ≤ 4096 ∧ (schedEntries c).all entryOk ∧ seqStarts (schedEntries c) ∧ seqOk (schedEntries c)) →
    exec (.prefetchSchedule q seq) s = .next (let t := ctxMod c.ctx (fun x => { x with nextSched := some { d := c.p 0 1, entries := schedEntries c } }) s; finish c stSuccess [] (if (ctxGet t c.ctx).stepOpen then t else schedStep c.ctx t))) ∧
  (∀ (q : Fin 512) (seq : Nat) (s : State) (c : Cmd) (d : Bytes) (m : List (BitVec 4)),
    (hostRuns s q seq 0x303 true [(0, 8), (8, 8), (16, 8), (24, 1)] c) →
    (¬(c.bit 24 0 = true ∧ c.bit 24 1 = true) ∧ bitsOf (c.p 24 1) 7 2 = 0 ∧ c.p 16 8 % 64 = 0 ∧ c.p 0 8 % 64 = 0 ∧ c.p 8 8 % 64 = 0) →
    (c.bit 24 0 = true ∨ rangeMapped s c.ctx (c.p 0 8) (c.p 16 8) false = true) →
    (c.bit 24 1 = true ∨ rangeMapped s c.ctx (c.p 8 8) (c.p 16 8) true = true) →
    (copyBar s c = none) →
    (copyNeeds s c = none ∧ copyFull s c = false) →
    ((copyRead c s).1 = some (d, m)) →
    exec (.copyBytes q seq) s = .next (copyDone c.jidx (copyWrite c d m (begun c (copyRead c s).2))))

/-- Launches, program start, fetch, issue and completion of descriptors have their effects. A launch whose rods belong to the context's partition starts its first element. A rod that runs nothing starts the first launch in its queue. Fetch appends one descriptor to the buffer, issue hands the oldest to its unit or to the sequencer, completion removes a performed descriptor and logs its events. (R351; R71; R73; R74; R77; R165; R69) -/
def Obligations.LaunchesRun : Prop :=
  (∀ (q : Fin 512) (seq : Nat) (s : State) (c : Cmd) (l : List (Nat × Nat)),
    (hostRuns s q seq 0x400 true [(0, 24), (24, 1)] c) →
    (launchBad s c = false ∧ launchAbsent s c = none) →
    (elemPrograms (begun c (noteLaunch c s)) c.ctx (elemOf c 0) = some l) →
    exec (.launch q seq) s = .next (startElem c 0 (begun c (noteLaunch c s)))) ∧
  (∀ (q : Fin 512) (seq : Nat) (s : State) (c : Cmd) (l : List (Nat × Nat)),
    (hostRuns s q seq 0x401 true [(0, 2), (32, 8192)] c) →
    (launchBad s c = false ∧ launchAbsent s c = none) →
    (elemPrograms (begun c (noteLaunch c s)) c.ctx (elemOf c 0) = some l) →
    exec (.launchChain q seq) s = .next (startElem c 0 (begun c (noteLaunch c s)))) ∧
  (∀ (rod : Fin 64) (s : State) (l : Launch) (rest : List Launch),
    (coreHalted s = false) →
    ((rodGet s rod).run = none ∧ (rodGet s rod).queue = l :: rest ∧ (rodGet s rod).last = some l.ctx) →
    exec (.programStart rod) s = .next (applySignals rod l.ctx (refill rod (rodSet rod { (rodGet s rod) with queue := rest, last := some l.ctx, run := some { l := l, next := l.va } } (groupsOn rod s))))) ∧
  (∀ (rod : Fin 64) (s : State) (l : Launch) (rest : List Launch),
    (coreHalted s = false) →
    ((rodGet s rod).run = none ∧ (rodGet s rod).queue = l :: rest ∧ (rodGet s rod).last ≠ some l.ctx) →
    exec (.programStart rod) s = .next (applySignals rod l.ctx (refill rod (rodSet rod { (rodGet s rod).clearBanks with ctrs := [], queue := rest, last := some l.ctx, run := some { l := l, next := l.va } } { groupsOn rod s with mem := memZero s.mem (rsBase rod) rsSize })))) ∧
  (∀ (rod : Fin 64) (s : State) (r : Run),
    (coreHalted s = false ∧ hbmHalted s = false) →
    ((rodGet s rod).run = some r ∧ r.halt = none ∧ r.buf.length < 128) →
    (r.buf.any (fun d => opOf d.2 = 0x3F) = false ∧ r.ctl.any (fun f => opOf f.word = 0x3F) = false) →
    (firstAbsent s r.l.ctx r.next 32 false = none) →
    ((readVa r.l.ctx r.next 32 s).1.acc = .ok) →
    exec (.descFetch rod) s = .next (runMod rod (fun x => { x with buf := x.buf ++ [(r.next, BitVec.ofNat 256 (leNat (readVa r.l.ctx r.next 32 s).1.bytes))], next := r.next + 32 }) (readVa r.l.ctx r.next 32 s).2)) ∧
  (∀ (rod : Fin 64) (s : State) (r : Run) (va : Nat) (w : BitVec 256) (rest : List (Nat × BitVec 256)) (f : Flight),
    (coreHalted s = false) →
    ((rodGet s rod).run = some r ∧ r.halt = none ∧ r.ctl = none ∧ r.buf = (va, w) :: rest) →
    (issueHalt s rod r w = none) →
    (f = { n := r.issued, va := va, word := w, layer := (r.bracket.map (·.layer)).getD 0xFFFF, second := r.replaying, brk := r.bracket.map (·.id), step := stepField s r.l.ctx, check := r.check && decide (opOf w = 0x0A) }) →
    exec (.descIssue rod) s = .next (runMod rod (fun _ => if unitOf w = 4 then { r with buf := rest, issued := r.issued + 1, check := r.check && !f.check, ctl := some f } else { r with buf := rest, issued := r.issued + 1, check := r.check && !f.check }.setUnit (unitOf w) (r.unit (unitOf w) ++ [f])) s)) ∧
  (∀ (rod : Fin 64) (unit : Fin 4) (s : State) (r : Run) (f : Flight),
    (coreHalted s = false) →
    ((rodGet s rod).run = some r ∧ (r.unit unit).find? (fun f => f.performed && f.wait = 0) = some f) →
    exec (.descComplete rod unit) s = .next (logEvents (rodPart s rod) f.layer (tagOf f.word) r.l.ctx rod f.second f.evs (runMod rod (fun x => { x.setUnit unit ((x.unit unit).filter (fun g => g.n ≠ f.n)) with events := satAdd 32 x.events f.evs.length, high := x.high || f.evs.any (fun e => kindSev e.kind = 3) }) s)))

/-- Every control descriptor of the sequencer has its effect. Each control descriptor of the sequencer completes with the effect of its rule: a bracket opens and closes, CHECK is set, a WAIT whose counter has arrived ends, a SIGNAL is delivered, a barrier takes an arrival, a hint is queued, a phase is named, END ends the program with its record; a weathervane sample is compared. (R103; R104; R106; R107; R109; R110; R111; R112; R132; R198) -/
def Obligations.ControlDescriptorsRun : Prop :=
  (∀ (rod : Fin 64) (s : State) (r : Run) (f : Flight),
    (ctlRuns s rod 0x18 r f) →
    exec (.layerBegin rod) s = .next (cursorMove r.l.ctx (fld f.word 255 240) (ctlDone rod (fun r => { r with bracket := some { layer := fld f.word 255 240, id := f.n, replay := fld f.word 239 239 = 1, back := f.va + 32 } }) s))) ∧
  (∀ (rod : Fin 64) (s : State) (r : Run) (f : Flight) (b : Bracket),
    (ctlRuns s rod 0x19 r f) →
    (r.bracket = some b ∧ (b.replay = false ∨ (r.idle = true ∧ (b.marked = false ∨ b.second = true)))) →
    ((sendHeld r.l b.held s).1 = []) →
    exec (.layerEnd rod) s = .next (ctlDone rod (fun r => { r with bracket := none, wide := [], replays := if b.second then satAdd 16 r.replays 1 else r.replays }) (sendHeld r.l b.held s).2)) ∧
  (∀ (rod : Fin 64) (s : State) (r : Run) (f : Flight) (b : Bracket),
    (ctlRuns s rod 0x19 r f) →
    (r.bracket = some b ∧ b.replay = true ∧ r.idle = true ∧ b.marked = true ∧ b.second = false) →
    exec (.layerEnd rod) s = .next (logEvents (rodPart s rod) b.layer (tagOf f.word) r.l.ctx rod false [{ kind := kReplayRun, count := 1, first := Config.freeValue s.free % 2 ^ 32, value := BitVec.ofNat 32 (Config.freeValue (s.free + 1)) }] (ctlDone rod (fun r => { r with bracket := some { b with second := true, held := [] }, buf := [], next := b.back, events := satAdd 32 r.events 1 }) { s with free := s.free + 2 }))) ∧
  (∀ (rod : Fin 64) (s : State) (r : Run) (f : Flight),
    (ctlRuns s rod 0x1A r f) →
    exec (.checkNext rod) s = .next (ctlDone rod (fun r => { r with check := true }) s)) ∧
  (∀ (rod : Fin 64) (s : State) (r : Run) (f : Flight),
    (ctlRuns s rod 0x20 r f) →
    (r.replaying = false ∧ fld f.word 251 220 ≤ mapGet 0 (rodGet s rod).ctrs (fld f.word 255 252)) →
    exec (.waitCtr rod) s = .next (if fld f.word 219 219 = 1 then rodMod rod (fun x => { x with ctrs := mapSet 0 x.ctrs (fld f.word 255 252) (mapGet 0 (rodGet s rod).ctrs (fld f.word 255 252) - fld f.word 251 220) }) (ctlDone rod id s) else ctlDone rod id s)) ∧
  (∀ (rod : Fin 64) (s : State) (r : Run) (f : Flight),
    (ctlRuns s rod 0x20 r f) →
    (r.replaying = true) →
    exec (.waitCtr rod) s = .next (ctlDone rod id s)) ∧
  (∀ (rod : Fin 64) (s : State) (r : Run) (f : Flight),
    (ctlRuns s rod 0x20 r f) →
    (r.replaying = false ∧ mapGet 0 (rodGet s rod).ctrs (fld f.word 255 252) < fld f.word 251 220 ∧ r.waiting = none) →
    exec (.waitCtr rod) s = .next (runMod rod (fun r => { r with waiting := some s.clk.ltc }) s)) ∧
  (∀ (rod : Fin 64) (s : State) (r : Run) (f : Flight),
    (ctlRuns s rod 0x21 r f) →
    (r.bracket = none ∨ r.bracket.any (fun b => !b.replay)) →
    ((sendSignal r.l (fld f.word 255 250) (fld f.word 249 246) (fld f.word 245 230) s).1 = true) →
    exec (.signalCtr rod) s = .next (ctlDone rod id (sendSignal r.l (fld f.word 255 250) (fld f.word 249 246) (fld f.word 245 230) s).2)) ∧
  (∀ (rod : Fin 64) (s : State) (r : Run) (f : Flight) (b : Bracket),
    (ctlRuns s rod 0x21 r f) →
    (r.bracket = some b ∧ b.replay = true) →
    exec (.signalCtr rod) s = .next (ctlDone rod (fun r => { r with bracket := some { b with held := b.held ++ [(fld f.word 255 250, fld f.word 249 246, fld f.word 245 230)] } }) s)) ∧
  (∀ (rod : Fin 64) (s : State) (r : Run) (f : Flight) (l : List Use),
    (ctlRuns s rod 0x22 r f) →
    (r.idle = true ∧ r.arrived = false) →
    (arriveUse rod (BitVec.ofNat 64 (fld f.word 255 192)) (mapGet [] (stratumGet s (rodPart s rod)).uses (16 * r.l.ctx + fld f.word 191 188)) = some l) →
    exec (.rodBarrier rod) s = .next (closeUses (rodPart s rod) (16 * r.l.ctx + fld f.word 191 188) l.length (runMod rod (fun r => { r with arrived := true, waiting := some s.clk.ltc }) (stratumMod (rodPart s rod) (fun y => { y with uses := mapSet [] y.uses (16 * r.l.ctx + fld f.word 191 188) l }) s)))) ∧
  (∀ (rod : Fin 64) (s : State) (r : Run) (t : Nat) (f : Flight),
    (coreHalted s = false) →
    ((rodGet s rod).run = some r ∧ r.waiting = some t ∧ r.ctl = some f ∧ r.timedOut = false ∧ ticksS ≤ s.clk.ltc - t) →
    exec (.syncTimeout rod) s = .next (raise (srcRodProgram + rod) 5 f.va (runMod rod (fun r => { r with timedOut := true }) s))) ∧
  (∀ (rod : Fin 64) (s : State) (r : Run) (f : Flight),
    (ctlRuns s rod 0x23 r f) →
    exec (.tierHint rod) s = .next (stratumMod (rodPart s rod) (fun y => if 64 ≤ y.hints.length then { y with dropped := satAdd 48 y.dropped 1 } else { y with hints := y.hints ++ [(r.l.ctx, fld f.word 255 208, fld f.word 207 176, fld f.word 175 173)] }) (ctlDone rod id s))) ∧
  (∀ (rod : Fin 64) (s : State) (r : Run) (f : Flight),
    (ctlRuns s rod 0x24 r f) →
    exec (.setPhase rod) s = .next (ctlDone rod (fun r => { r with phase := fld f.word 255 253 }) s)) ∧
  (∀ (rod : Fin 64) (s : State) (r : Run) (f : Flight),
    (ctlRuns s rod 0x3F r f) →
    (r.idle = true) →
    exec (.endProgram rod) s = .next (groupsOff (elemEnd r.l.cmd rod (endRecord 0 f.va f.word r) r.high (refill rod (unwaitRod rod (rodMod rod (fun x => { x with run := none }) s)))))) ∧
  (∀ (rod : Fin 64) (s : State) (r : Run) (h : Nat × Nat × BitVec 256),
    (coreHalted s = false) →
    ((rodGet s rod).run = some r ∧ r.halt = some h ∧ r.idle = true) →
    exec (.endProgram rod) s = .next (groupsOff (elemEnd r.l.cmd rod (endRecord h.1 h.2.1 h.2.2 r) r.high (refill rod (unwaitRod rod (rodMod rod (fun x => { x with run := none }) s)))))) ∧
  (∀ (frame : Fin 4) (s : State) (x : Sample) (l : List Sample),
    (coreHalted s = false) →
    ((wvGet s frame).queue = x :: l) →
    ((wvNorms x.d x.r).any (fun n => !(n.2 = 0 && n.1 ≠ 0) && !ratioGe n (mapGet 6 s.dev.wvThresh x.part))) →
    exec (.wvCompare frame) s = .next (wvMod frame (fun y => { y with queue := l, hist := mapMod 0 (mapMod 0 y.hist (32 * x.part + wvBin (wvNorms x.d x.r)) (satAdd 32 · 1)) (32 * x.part + 23) (satAdd 32 · 1) }) s)) ∧
  (∀ (frame : Fin 4) (s : State) (x : Sample) (l : List Sample),
    (coreHalted s = false) →
    ((wvGet s frame).queue = x :: l) →
    ((wvNorms x.d x.r).all (fun n => (n.2 = 0 && n.1 ≠ 0) || ratioGe n (mapGet 6 s.dev.wvThresh x.part))) →
    exec (.wvCompare frame) s = .next (let t := wvMod frame (fun y => { y with queue := l, hist := mapMod 0 (mapMod 0 y.hist (32 * x.part + wvBin (wvNorms x.d x.r)) (satAdd 32 · 1)) (32 * x.part + 23) (satAdd 32 · 1) }) s; raise (srcDrift + x.rod) 0 (fieldAt x.ctx 8 16 + x.tag % 65536) (logRecord x.part (numRecord t x.step x.layer x.tag x.ctx (68 + frame) x.second { kind := kDrift, count := 1, first := 0, value := wvRatio (wvNorms x.d x.r) }) t)))

/-- LOAD, GATHER, STORE and SCATTER have their effects. A descriptor of the move unit that may start, whose rows meet no page that is not resident and no range, ownership or bracket fault, moves its rows in order with the conversions of its formats, advances the rod's counters and draws, and is performed. A STORE into the gradient region of an open step queues its landings instead. Every byte of memory outside the rows that the equation writes stays as it was. (R74; R80; R81; R82; R83; R84; R128; R130; R153; R234) -/
def Obligations.MoveDescriptorsRun : Prop :=
  (∀ (rod : Fin 64) (e : Option Upset) (s0 s : State) (r : Run) (f : Flight) (m : MoveAcc),
    (unitRuns s0 rod 0 0x01 r f) →
    (upsetOk e = true ∧ afterUpset rod e s0 = s) →
    (replayBad r ([fld f.word 183 162] ++ (if fmtBlock (fld f.word 110 108) then [fld f.word 107 86] else [])) = false) →
    ((List.range (fld f.word 145 130)).foldl (loadTileRow rod r f.word) { s := s } = m ∧ m.halt = none ∧ m.wait = false) →
    exec (.loadTile rod e) s0 = .next (settle rod 0 f m.tally false m.draws m.s)) ∧
  (∀ (rod : Fin 64) (e : Option Upset) (s0 s : State) (r : Run) (f : Flight) (m : MoveAcc),
    (unitRuns s0 rod 0 0x03 r f) →
    (upsetOk e = true ∧ afterUpset rod e s0 = s) →
    (replayBad r ([fld f.word 101 80, fld f.word 155 134] ++ (if fmtBlock (fld f.word 60 58) then [fld f.word 54 33] else [])) = false) →
    ((List.range (idxCount s rod f.word)).foldl (gatherRow rod r f.word) { s := s } = m ∧ m.halt = none ∧ m.wait = false) →
    exec (.gather rod e) s0 = .next (settle rod 0 f m.tally false m.draws m.s)) ∧
  (∀ (rod : Fin 64) (e : Option Upset) (s0 s : State) (r : Run) (f : Flight) (m : MoveAcc),
    (unitRuns s0 rod 0 0x04 r f) →
    (upsetOk e = true ∧ afterUpset rod e s0 = s) →
    ((List.range (fld f.word 145 130)).any (fun i => touchesG s r.l.ctx (fld f.word 255 208 + i * fld f.word 207 184) (rowStored (r.writeFmt (fld f.word 113 111)) (fld f.word 129 114))) = false) →
    ((List.range (fld f.word 145 130)).foldl (storeTileRow rod r f.word) { s := s } = m ∧ m.halt = none ∧ m.wait = false) →
    exec (.storeTile rod e) s0 = .next (settle rod 0 f m.tally (r.writeFmt (fld f.word 113 111) = 0 || r.writeFmt (fld f.word 113 111) = 2) m.draws m.s)) ∧
  (∀ (rod : Fin 64) (e : Option Upset) (s0 s : State) (r : Run) (f : Flight),
    (unitRuns s0 rod 0 0x04 r f) →
    (upsetOk e = true ∧ afterUpset rod e s0 = s) →
    ((List.range (fld f.word 145 130)).any (fun i => (firstAbsent s r.l.ctx (fld f.word 255 208 + i * fld f.word 207 184) (rowStored (r.writeFmt (fld f.word 113 111)) (fld f.word 129 114)) true).isSome) = false) →
    ((List.range (fld f.word 145 130)).any (fun i => touchesG s r.l.ctx (fld f.word 255 208 + i * fld f.word 207 184) (rowStored (r.writeFmt (fld f.word 113 111)) (fld f.word 129 114))) = true) →
    (r.bracket.any (fun b => b.replay) = false ∧ landingOk s r.l.ctx f.word = true) →
    exec (.storeTile rod e) s0 = .next (queueLandings rod r f s)) ∧
  (∀ (rod : Fin 64) (e : Option Upset) (s0 s : State) (r : Run) (f : Flight) (m : MoveAcc) (mf : Nat),
    (unitRuns s0 rod 0 0x05 r f) →
    (upsetOk e = true ∧ afterUpset rod e s0 = s) →
    (mf = (if fld f.word 56 55 = 0 then r.writeFmt (fld f.word 63 61) else fld f.word 63 61)) →
    ((List.range (idxCount s rod f.word)).foldl (scatterRow rod r f.word) { s := s } = m ∧ m.halt = none ∧ m.wait = false) →
    exec (.scatter rod e) s0 = .next (settle rod 0 f m.tally (mf = 0 || mf = 2) m.draws m.s))

/-- BANK_LOAD, LOADW, MMA, SWAP, DRAIN and MMV have their effects. A descriptor of the array unit that may start and finds no service, range or bracket fault has its effect and is performed: MMA and LOADW run their beats into the active bank, which records service, extent and scales; SWAP makes the shadow bank active, with its preload; a bank load fills the shadow bank; DRAIN writes the shadow bank's tile to the rod store; MMV writes its row totals. (R48; R51; R54; R58; R60; R61; R62; R86; R87; R88; R89; R90) -/
def Obligations.ArrayDescriptorsRun : Prop :=
  (∀ (rod : Fin 64) (e : Option Upset) (s0 s : State) (r : Run) (f : Flight),
    (unitRuns s0 rod 2 0x01 r f) →
    (upsetOk e = true ∧ afterUpset rod e s0 = s) →
    (replayBad r [fld f.word 229 208] = false) →
    exec (.bankLoad rod e) s0 = .next (settle rod 2 f (bankLoadOf s rod f.word).2 false 0 (rodMod rod (fun x => x.setShadow (bankLoadOf s rod f.word).1) s))) ∧
  (∀ (rod : Fin 64) (e : Option Upset) (s0 s : State) (r : Run) (f : Flight),
    (unitRuns s0 rod 2 0x02 r f) →
    (upsetOk e = true ∧ afterUpset rod e s0 = s) →
    (loadwBad s rod f.word = false) →
    (replayBad r (loadwStarts (windowOf (loadwBlock s rod f.word)) f.word) = false) →
    (loadwRange (windowOf (loadwBlock s rod f.word)) f.word = false) →
    exec (.loadw rod e) s0 = .next (runInto rod f (fld f.word 12 12 = 1) (fld f.word 115 109) (fld f.word 108 104) (loadwAll s rod f.word).2.1 (loadwAll s rod f.word).1 (loadwAll s rod f.word).2.2 s)) ∧
  (∀ (rod : Fin 64) (e : Option Upset) (s0 s : State) (r : Run) (f : Flight),
    (unitRuns s0 rod 2 0x08 r f) →
    (upsetOk e = true ∧ afterUpset rod e s0 = s) →
    (wrongService (rodGet s rod).active (fld f.word 12 12 = 1) = false) →
    (replayBad r (mmaStarts f.word) = false) →
    exec (.mma rod e) s0 = .next (runInto rod f (fld f.word 12 12 = 1) (fld f.word 163 157) (fld f.word 156 152) (mmaAll s rod f.word).2.1 (mmaAll s rod f.word).1 (mmaAll s rod f.word).2.2 s)) ∧
  (∀ (rod : Fin 64) (e : Option Upset) (s0 s : State) (r : Run) (f : Flight),
    (unitRuns s0 rod 2 0x09 r f) →
    (upsetOk e = true ∧ afterUpset rod e s0 = s) →
    exec (.swap rod e) s0 = .next (settle rod 2 f {} false 0 (rodSet rod ({ (rodGet s rod) with act1 := !(rodGet s rod).act1 }.setActive (swapBank s rod f.word)) s))) ∧
  (∀ (rod : Fin 64) (e : Option Upset) (s0 s : State) (r r' : Run) (f : Flight),
    (unitRuns s0 rod 2 0x0A r f) →
    (upsetOk e = true ∧ afterUpset rod e s0 = s) →
    (drainBad s rod f.word = false ∧ drainRange s rod r f.word = false) →
    (r.widen (fld f.word 217 215) (fld f.word 255 234) (drainLen s rod r f.word) = some r') →
    exec (.drain rod e) s0 = .next (drainRun rod r r' f s)) ∧
  (∀ (rod : Fin 64) (e : Option Upset) (s0 s : State) (r : Run) (f : Flight),
    (unitRuns s0 rod 2 0x0B r f) →
    (upsetOk e = true ∧ afterUpset rod e s0 = s) →
    (replayBad r (mmvStarts f.word) = false) →
    exec (.mmv rod e) s0 = .next (settle rod 2 f (openFirst s (mmvAll s rod f.word).2).1 false 0 (rsWrite rod (fld f.word 195 174) ((mmvAll s rod f.word).1.flatMap (fun v => natLe 4 v.toNat)) (openFirst s (mmvAll s rod f.word).2).2)))

/-- VEC, REDUCE, SORT, SETINS and SETPROBE have their effects. A descriptor of the vector or index unit that may start and finds no range or bracket fault writes its results into the rod store where its fields say, advances the rod's counters and draws, and is performed; the bytes of the rod store outside those results, every other rod and all other memory stay as they were. (R93; R94; R95; R96; R97; R98; R99; R100; R101; R128) -/
def Obligations.VectorAndIndexDescriptorsRun : Prop :=
  (∀ (rod : Fin 64) (e : Option Upset) (s0 s : State) (r r' : Run) (f : Flight),
    (unitRuns s0 rod 3 0x10 r f) →
    (upsetOk e = true ∧ afterUpset rod e s0 = s) →
    (inRs (fld f.word 211 190) (vecLen r f.word) = true) →
    (r.widen (fld f.word 162 160) (fld f.word 211 190) (vecLen r f.word) = some r') →
    exec (.vec rod e) s0 = .next (settle rod 3 f (vecAll s rod r f.word).2 (vecFd r f.word = 0) (if vecFd r f.word = 0 ∧ fld f.word 159 154 ≠ 0x12 then fld f.word 189 169 else 0) (runMod rod (fun x => { x with wide := r'.wide }) (rsWrite rod (fld f.word 211 190) ((vecAll s rod r f.word).1.flatMap (natLe (fmtBytes (vecFd r f.word)))) s)))) ∧
  (∀ (rod : Fin 64) (e : Option Upset) (s0 s : State) (r r' : Run) (f : Flight) (a : RedAcc),
    (unitRuns s0 rod 1 0x11 r f) →
    (upsetOk e = true ∧ afterUpset rod e s0 = s) →
    (inRs (fld f.word 199 178) (redLen r f.word) = true) →
    (r.widen (fld f.word 77 75) (fld f.word 199 178) (redLen r f.word) = some r') →
    (redAll s rod r f.word = a ∧ a.bad = none) →
    exec (.reduce rod e) s0 = .next (settle rod 1 f { a.t with indexRange := fld f.word 133 114 - (redUsed s rod f.word).length } (redOutFmt r f.word = 0) (if redOutFmt r f.word = 0 then a.draws else 0) (runMod rod (fun x => { x with wide := r'.wide }) (redInit rod r f.word a.rows a.s)))) ∧
  (∀ (rod : Fin 64) (e : Option Upset) (s0 s : State) (r : Run) (f : Flight) (out : List (Int × Nat × Nat)) (n : Nat),
    (unitRuns s0 rod 1 0x12 r f) →
    (upsetOk e = true ∧ afterUpset rod e s0 = s) →
    (replayBad r (sortStarts f.word) = false) →
    (sortOut s rod f.word = (out, n)) →
    exec (.sortKeys rod e) s0 = .next (settle rod 1 f { inFlush := n } false 0 (let t := rsWrite rod (fld f.word 167 146) (out.flatMap (fun x => natLe (keyBytes (fld f.word 83 82)) x.2.1)) s; if fld f.word 80 80 = 1 then rsWrite rod (fld f.word 145 124) (out.flatMap (fun x => natLe 4 x.2.2)) t else t))) ∧
  (∀ (rod : Fin 64) (e : Option Upset) (s0 s : State) (r : Run) (f : Flight),
    (unitRuns s0 rod 1 0x13 r f) →
    (upsetOk e = true ∧ afterUpset rod e s0 = s) →
    ((setKeys true rod f.word (fld f.word 123 104) 0 s).2 = false) →
    exec (.setins rod e) s0 = .next (settle rod 1 f {} false 0 (setKeys true rod f.word (fld f.word 123 104) 0 s).1)) ∧
  (∀ (rod : Fin 64) (e : Option Upset) (s0 s : State) (r : Run) (f : Flight),
    (unitRuns s0 rod 1 0x14 r f) →
    (upsetOk e = true ∧ afterUpset rod e s0 = s) →
    (replayBad r [fld f.word 255 234, fld f.word 233 212, fld f.word 189 168, fld f.word 167 146] = false) →
    exec (.setprobe rod e) s0 = .next (settle rod 1 f {} false 0 (setKeys false rod f.word (fld f.word 123 104) 0 s).1))

/-- An uncorrectable error of the rod store halts the descriptor that reads it, whatever its opcode. A descriptor of any of the four units that may start and reads a word of the rod store with an uncorrectable error does not run: RS_UE goes out with the rod as instance and the rod-store address, and its program halts with reason DATA_UNAVAILABLE at that descriptor. A corrected error is counted and the descriptor runs, as the statements of the units say. (R166; R112; R389) -/
def Obligations.RodStoreErrorHalts : Prop :=
  ∀ (rod : Fin 64) (x : Upset) (s : State) (r : Run) (f : Flight), x.fixed = false →
  (unitRuns s rod 0 0x01 r f = true → exec (.loadTile rod (some x)) s =
    .next (haltRod rod hUnavailable f.va f.word (raise (srcRsUe + rod) 0 x.addr s))) ∧
  (unitRuns s rod 0 0x03 r f = true → exec (.gather rod (some x)) s =
    .next (haltRod rod hUnavailable f.va f.word (raise (srcRsUe + rod) 0 x.addr s))) ∧
  (unitRuns s rod 0 0x04 r f = true → exec (.storeTile rod (some x)) s =
    .next (haltRod rod hUnavailable f.va f.word (raise (srcRsUe + rod) 0 x.addr s))) ∧
  (unitRuns s rod 0 0x05 r f = true → exec (.scatter rod (some x)) s =
    .next (haltRod rod hUnavailable f.va f.word (raise (srcRsUe + rod) 0 x.addr s))) ∧
  (unitRuns s rod 2 0x01 r f = true → exec (.bankLoad rod (some x)) s =
    .next (haltRod rod hUnavailable f.va f.word (raise (srcRsUe + rod) 0 x.addr s))) ∧
  (unitRuns s rod 2 0x02 r f = true → exec (.loadw rod (some x)) s =
    .next (haltRod rod hUnavailable f.va f.word (raise (srcRsUe + rod) 0 x.addr s))) ∧
  (unitRuns s rod 2 0x08 r f = true → exec (.mma rod (some x)) s =
    .next (haltRod rod hUnavailable f.va f.word (raise (srcRsUe + rod) 0 x.addr s))) ∧
  (unitRuns s rod 2 0x09 r f = true → exec (.swap rod (some x)) s =
    .next (haltRod rod hUnavailable f.va f.word (raise (srcRsUe + rod) 0 x.addr s))) ∧
  (unitRuns s rod 2 0x0A r f = true → exec (.drain rod (some x)) s =
    .next (haltRod rod hUnavailable f.va f.word (raise (srcRsUe + rod) 0 x.addr s))) ∧
  (unitRuns s rod 2 0x0B r f = true → exec (.mmv rod (some x)) s =
    .next (haltRod rod hUnavailable f.va f.word (raise (srcRsUe + rod) 0 x.addr s))) ∧
  (unitRuns s rod 3 0x10 r f = true → exec (.vec rod (some x)) s =
    .next (haltRod rod hUnavailable f.va f.word (raise (srcRsUe + rod) 0 x.addr s))) ∧
  (unitRuns s rod 1 0x11 r f = true → exec (.reduce rod (some x)) s =
    .next (haltRod rod hUnavailable f.va f.word (raise (srcRsUe + rod) 0 x.addr s))) ∧
  (unitRuns s rod 1 0x12 r f = true → exec (.sortKeys rod (some x)) s =
    .next (haltRod rod hUnavailable f.va f.word (raise (srcRsUe + rod) 0 x.addr s))) ∧
  (unitRuns s rod 1 0x13 r f = true → exec (.setins rod (some x)) s =
    .next (haltRod rod hUnavailable f.va f.word (raise (srcRsUe + rod) 0 x.addr s))) ∧
  (unitRuns s rod 1 0x14 r f = true → exec (.setprobe rod (some x)) s =
    .next (haltRod rod hUnavailable f.va f.word (raise (srcRsUe + rod) 0 x.addr s)))

/-- BAR0 writes, doorbells, host link events and DMA time-outs have their effects. On a port whose link is up, ADMIN_CFG_WRITE takes the value and enables or disables the port's admin queue; a doorbell of an enabled queue bound to the port, within its ring, moves the tail or the head and goes on with what it had stopped; REGISTER_WRITE writes one aligned word or two. HOST_LINK_UP trains a powered port; HOST_PORT_RESET resets it and raises HOST_LINK where its link was up; COMPLETION_TIME_OUT counts and raises HOST_DMA. (R333; R334; R336; R337; R338; R339; R340; R341; R360; R430; 12_host_command_interface T12.2; 12_host_command_interface T12.4) -/
def Obligations.BarAndLinkCommandsRun : Prop :=
  (∀ (hp : Fin 2) (value : BitVec 32) (s : State),
    (linkUp s hp ∧ zenithRuns s = true) →
    ((bitOf value.toNat 31 && !(qGet s (256 * hp)).away && ringsOk (bitsOf value.toNat 4 0) (bitsOf value.toNat 12 8) (mapGet 0 s.host.asq hp) (mapGet 0 s.host.acq hp)) = true) →
    ((qGet s (256 * hp)).enabled = false ∧ value &&& adminCfgMask = value) →
    exec (.adminCfgWrite hp value) s = .next (enableQueue (256 * hp) (bitsOf value.toNat 21 16) (bitsOf value.toNat 4 0) (bitsOf value.toNat 12 8) (mapGet 0 s.host.asq hp) (mapGet 0 s.host.acq hp) { s with host := { s.host with acfg := mapSet 0x00010000#32 s.host.acfg hp value } })) ∧
  (∀ (hp : Fin 2) (value : BitVec 32) (s : State),
    (linkUp s hp ∧ zenithRuns s = true) →
    (bitOf (value &&& adminCfgMask).toNat 31 = false ∧ (qGet s (256 * hp)).away = false) →
    exec (.adminCfgWrite hp value) s = .next (qSet (256 * hp) { (qGet s (256 * hp)) with enabled := false } { s with host := { s.host with acfg := mapSet 0x00010000#32 s.host.acfg hp (value &&& adminCfgMask &&& 0x7FFFFFFF#32) } })) ∧
  (∀ (hp : Fin 2) (slot : Fin 512) (value : BitVec 32) (s : State),
    (linkUp s hp ∧ zenithRuns s = true ∧ s.dev.safe = false) →
    ((qGet s (doorbellQueue hp slot)).enabled = true ∧ qPort (doorbellQueue hp slot) (qGet s (doorbellQueue hp slot)) = hp) →
    (value.toNat % 65536 < 2 ^ (qGet s (doorbellQueue hp slot)).sqLog2) →
    exec (.dbSqWrite hp slot value) s = .next (fetchQueue (doorbellQueue hp slot) (qSet (doorbellQueue hp slot) { (qGet s (doorbellQueue hp slot)) with sqTail := value.toNat % 65536 } s))) ∧
  (∀ (hp : Fin 2) (slot : Fin 512) (value : BitVec 32) (s : State),
    (linkUp s hp ∧ zenithRuns s = true ∧ s.dev.safe = false) →
    ((qGet s (doorbellQueue hp slot)).enabled = false ∨ qPort (doorbellQueue hp slot) (qGet s (doorbellQueue hp slot)) ≠ hp ∨ 2 ^ (qGet s (doorbellQueue hp slot)).sqLog2 ≤ value.toNat % 65536) →
    exec (.dbSqWrite hp slot value) s = .next (bumpHost hp 0 s)) ∧
  (∀ (hp : Fin 2) (slot : Fin 512) (value : BitVec 32) (s : State),
    (linkUp s hp ∧ zenithRuns s = true ∧ s.dev.safe = false) →
    ((qGet s (doorbellQueue hp slot)).enabled = true ∧ qPort (doorbellQueue hp slot) (qGet s (doorbellQueue hp slot)) = hp) →
    (value.toNat % 131072 < 2 ^ (qGet s (doorbellQueue hp slot)).cqLog2) →
    exec (.dbCqWrite hp slot value) s = .next (fetchQueue (doorbellQueue hp slot) (postHeld (doorbellQueue hp slot) (qSet (doorbellQueue hp slot) { (qGet s (doorbellQueue hp slot)) with cqHead := value.toNat % 131072 } s)))) ∧
  (∀ (hp : Fin 2) (offset : Nat) (value : BitVec 64) (s : State),
    (linkUp s hp ∧ zenithRuns s = true ∧ offset % 4 = 0 ∧ offset < 65536) →
    exec (.registerWrite hp offset false value) s = .next (writeWord hp offset (value.extractLsb' 0 32) s)) ∧
  (∀ (hp : Fin 2) (offset : Nat) (value : BitVec 64) (s : State),
    (linkUp s hp ∧ zenithRuns s = true ∧ offset % 8 = 0 ∧ offset < 65536) →
    exec (.registerWrite hp offset true value) s = .next (writeWord hp (offset + 4) (value.extractLsb' 32 32) (writeWord hp offset (value.extractLsb' 0 32) s))) ∧
  (∀ (hp : Fin 2) (s : State),
    (s.sup.domains.getLsbD 29) →
    exec (.hostLinkUp hp) s = .next { s with sup := { s.sup with perst := s.sup.perst ||| BitVec.ofNat 2 (2 ^ hp.val) }, host := { s.host with up := s.host.up ||| BitVec.ofNat 2 (2 ^ hp.val), trained := s.host.trained ||| BitVec.ofNat 2 (2 ^ hp.val) } }) ∧
  (∀ (hp : Fin 2) (s : State),
    (linkUp s hp) →
    exec (.hostPortReset hp false) s = .next (resetPort hp (raise (srcHostLink + hp) 0x10 0 s))) ∧
  (∀ (hp : Fin 2) (s : State),
    (linkUp s hp = false) →
    exec (.hostPortReset hp true) s = .next (resetPort hp { s with sup := { s.sup with perst := s.sup.perst &&& ~~~(BitVec.ofNat 2 (2 ^ hp.val)) } })) ∧
  (∀ (hp : Fin 2) (address : BitVec 64) (s : State),
    exec (.completionTimeOut hp address) s = .next (raise (srcHostDma + hp) 0x12 (address.toNat % 2 ^ 48) (bumpHost hp 5 { s with host := { s.host with deaf := (hp.val, address.toNat) :: s.host.deaf.filter (fun d => d ≠ (hp.val, address.toNat)) } })))

/-- HBM, Common Store and rod-store window requests have their effects. A request the ownership check lets pass is served. HBM_READ returns the burst with its metadata, a corrected error counted and an uncorrectable one poisoned first; HBM_WRITE merges its bytes into the burst and sets the metadata R150 gives; PATROL_SCRUB corrects or poisons; HBM_CE_RATE, once the hour of the local time counter is over, raises its source above 1,000 corrections and starts the next hour; PHY_CALIBRATION notes its time; CS_REQUEST and RS_WINDOW_ACCESS read or write the bytes they name. A request that the map of Table 6.1 or an owner's check refuses raises the source that names it, and the program of a rod that asked halts; a read into a region that stalls waits at the crossing. Everything the equations do not name stays as it was. (R25; R140; R141; R147; R148; R149; R150; R151; R157; R163; R166; R171) -/
def Obligations.NearMemoryRequestsRun : Prop :=
  (∀ (req : Nat) (t : Traffic) (part : Fin 8) (pa : Nat) (ecc : Ecc) (s : State),
    (s.dev.safe = false ∧ hbmRuns s = true ∧ barOf s part (exempt req t) pa = none) →
    exec (.hbmRead req t part pa ecc) s = .next (let u := if pa < hbmTop then correctRead pa ecc s else s; deliver (burstGet u pa).1 [if rsWindowBase ≤ pa then 0#4 else (burstGet u pa).2] u)) ∧
  (∀ (req : Nat) (t : Traffic) (part : Fin 8) (pa : Nat) (ecc : Ecc) (b : Bar) (s : State),
    (s.dev.safe = false ∧ hbmRuns s = true ∧ barOf s part (exempt req t) pa = some b) →
    exec (.hbmRead req t part pa ecc) s = .next (refuseReq b req s)) ∧
  (∀ (req : Nat) (t : Traffic) (part : Fin 8) (pa : Nat) (ecc : Ecc) (s : State),
    (s.dev.safe = false ∧ hbmRuns s = false) →
    exec (.hbmRead req t part pa ecc) s = .next { s with crossing := s.crossing ++ [.hbmRead req t part pa ecc] }) ∧
  (∀ (req : Nat) (t : Traffic) (part : Fin 8) (pa : Nat) (data : Bytes) (tag : BitVec 2) (ver : Bool) (s : State),
    (s.dev.safe = false ∧ hbmRuns s = true ∧ barOf s part (exempt req t) pa = none) →
    exec (.hbmWrite req t part pa data tag ver) s = .next (wroteAt pa (burstSet pa (mergeBytes (burstGet s pa).1 (pa % 64) (data.take (64 - pa % 64))) (mdAfter (burstGet s pa).2 (data.take (64 - pa % 64)).length tag.toNat ver) s))) ∧
  (∀ (req : Nat) (t : Traffic) (part : Fin 8) (pa : Nat) (data : Bytes) (tag : BitVec 2) (ver : Bool) (b : Bar) (s : State),
    (s.dev.safe = false ∧ hbmRuns s = true ∧ barOf s part (exempt req t) pa = some b) →
    exec (.hbmWrite req t part pa data tag ver) s = .next (refuseReq b req s)) ∧
  (∀ (ch : Fin 256) (burst : Nat) (ecc : Ecc) (s : State),
    (hbmHalted s = false) →
    exec (.patrolScrub ch burst ecc) s = .next (correctRead (ch * 2 ^ 31 + burst % 2 ^ 25 * 64) ecc s)) ∧
  (∀ (ch : Fin 256) (s : State),
    (s.dev.safe = false ∧ mapGet 0 s.near.ceHour ch ≠ hourNow s ∧ 1000 < mapGet 0 s.near.corrHour ch) →
    exec (.hbmCeRate ch) s = .next (raise (srcHbmRate + ch) 0 (mapGet 0 s.near.corrHour ch) { s with near := { s.near with corrHour := mapSet 0 s.near.corrHour ch 0, ceHour := mapSet 0 s.near.ceHour ch (hourNow s) } })) ∧
  (∀ (ch : Fin 256) (s : State),
    (s.dev.safe = false ∧ mapGet 0 s.near.ceHour ch ≠ hourNow s ∧ mapGet 0 s.near.corrHour ch ≤ 1000) →
    exec (.hbmCeRate ch) s = .next { s with near := { s.near with corrHour := mapSet 0 s.near.corrHour ch 0, ceHour := mapSet 0 s.near.ceHour ch (hourNow s) } }) ∧
  (∀ (ch : Fin 256) (s : State),
    (hbmHalted s = false) →
    exec (.phyCalibration ch) s = .next { s with near := { s.near with calibrated := mapSet 0 s.near.calibrated ch s.clk.ltc } }) ∧
  (∀ (req : Nat) (t : Traffic) (ctx : Fin 256) (va : Nat) (write : Option Bytes) (length : Nat) (ecc : Ecc) (pa o p cache : Nat) (s : State),
    (s.dev.safe = false ∧ coreRuns s = true ∧ translate s ctx va write.isSome = .ok pa o p cache ∧ pa < rsWindowBase) →
    (hbmTop ≤ pa ∨ (cache ≠ 2 ∧ cacheSegs s (ctxPart s ctx) ≠ [])) →
    exec (.csRequest req t ctx va write length ecc) s = .next (csServe (ctxPart s ctx) o p cache va pa write length ecc s)) ∧
  (∀ (req : Nat) (t : Traffic) (ctx : Fin 256) (va : Nat) (write : Option Bytes) (length : Nat) (ecc : Ecc) (b : Bar) (s : State),
    (s.dev.safe = false ∧ coreRuns s = true ∧ translate s ctx va write.isSome = .barred b ∧ exempt req t = false) →
    exec (.csRequest req t ctx va write length ecc) s = .next (refuseReq b req s)) ∧
  (∀ (req : Nat) (t : Traffic) (ctx : Fin 256) (va : Nat) (write : Option Bytes) (length : Nat) (ecc : Ecc) (r : Run) (s : State),
    (s.dev.safe = false ∧ coreRuns s = true ∧ translate s ctx va write.isSome = .unmapped) →
    (req < 64 ∧ (rodGet s req).run = some r) →
    exec (.csRequest req t ctx va write length ecc) s = .next (haltRod req hTranslation r.site.1 r.site.2 s)) ∧
  (∀ (req : Nat) (t : Traffic) (part : Fin 8) (pa : Nat) (write : Option Bytes) (length : Nat) (ecc : Ecc) (s : State) (n a : Nat),
    (s.dev.safe = false ∧ coreRuns s = true ∧ barOf s part (exempt req t) pa = none ∧ rsWindowBase ≤ pa) →
    (n = (pa - rsWindowBase) / 0x400000 ∧ a = (pa - rsWindowBase) % 0x400000) →
    (ecc ≠ .codeUe ∧ ecc ≠ .stackUe) →
    exec (.rsWindowAccess req t part pa write length ecc) s = .next (rsWindowServe n a (min length (rsSize - a)) write (ecc = .corrected) s)) ∧
  (∀ (req : Nat) (t : Traffic) (part : Fin 8) (pa : Nat) (write : Option Bytes) (length : Nat) (ecc : Ecc) (s : State) (n a : Nat),
    (s.dev.safe = false ∧ coreRuns s = true ∧ barOf s part (exempt req t) pa = none ∧ rsWindowBase ≤ pa) →
    (n = (pa - rsWindowBase) / 0x400000 ∧ a = (pa - rsWindowBase) % 0x400000) →
    (ecc = .codeUe ∨ ecc = .stackUe) →
    exec (.rsWindowAccess req t part pa write length ecc) s = .next (rsWindowBad n a s)) ∧
  (∀ (req : Nat) (t : Traffic) (part : Fin 8) (pa : Nat) (write : Option Bytes) (length : Nat) (ecc : Ecc) (b : Bar) (s : State),
    (s.dev.safe = false ∧ coreRuns s = true ∧ barOf s part (exempt req t) pa = some b) →
    exec (.rsWindowAccess req t part pa write length ecc) s = .next (refuseReq b req s))

/-- Page arrivals, misses, hints, starvation, use reports and tile recovery have their effects. Where its trigger holds, PAGE_ARRIVAL copies the page into its frame and changes its entry once, where no tile of it is poisoned, lost or being written anew; TIER_MISS asks for the page, or halts the rod that waits where no source of a poisoned tile is left; HINT_SERVICE takes the oldest hint of the partition and asks for its pages or drops it; TIER_STARVATION raises its stratum's source once; USE_REPORT stamps the pages used; CODEWORD_READ counts its outcome, notes the codeword as read and asks the sources of an uncorrectable tile; SOURCE_TIMEOUT goes on to the next source, or leaves the tile poisoned. (R153; R192; R193; R196; R200; R201; R202; R203) -/
def Obligations.TierEngineCommandsRun : Prop :=
  (∀ (object page : Nat) (s : State) (m : Move) (l : Loc),
    (flashRuns s = true ∧ hbmRuns s = true) →
    (s.deep.moves.find? (fun m => m.object = object && m.page = page) = some m ∧ m.frame = some l) →
    ((pageGet s object page).loc = .deep ∧ (pageGet s object page).bad = 0#32) →
    (s.deep.stripes.any (fun kv => kv.2.any (fun t => t.data.isSome && t.key / 32 = object * 2 ^ 25 + page)) = false) →
    ((List.range 32).filter (fun t => hopeless s (tileKey object page t)) = []) →
    exec (.pageArrival object page) s = .next (pageArrives m l s)) ∧
  (∀ (ctx : Fin 256) (va : Nat) (rod : Option (Fin 64)) (s t : State) (o p : Nat),
    (s.dev.safe = false ∧ translate s ctx va false = .deep o p) →
    (pageGivenUp o p s = false) →
    (t = (if s.deep.moves.any (fun m => m.object = o && m.page = p && m.cause = 0) then s else dcUp (dcCtx ctx 0) 1 s)) →
    exec (.tierMiss ctx va rod) s = .next (pump (askMove o p (fetchTier (objGet t o)) 0 ctx (rod.map (·.val)) (some (va % pageBytes / tileBytes)) t))) ∧
  (∀ (ctx : Fin 256) (va : Nat) (rod : Fin 64) (s : State) (o p : Nat),
    (s.dev.safe = false ∧ translate s ctx va false = .deep o p) →
    (pageGivenUp o p s = true) →
    exec (.tierMiss ctx va (some rod)) s = .next (haltWaiting rod s)) ∧
  (∀ (part : Fin 8) (s : State) (h : Nat × Nat × Nat × Nat) (l : List (Nat × Nat × Nat × Nat)) (g : List (Option (Nat × Nat))),
    (s.dev.safe = false ∧ (stratumGet s part).hints = h :: l) →
    (g = (List.range ((h.2.1 + h.2.2.1 * tileBytes - 1) / pageBytes + 1 - h.2.1 / pageBytes)).map (fun i => objAt (stratumMod part (fun y => { y with hints := l }) s) h.1 ((h.2.1 / pageBytes + i) * pageBytes))) →
    (g.any (·.isNone) = false) →
    exec (.hintService part) s = .next (pump ((g.filterMap id).foldl (fun s t => if h.2.2.2 = 2 then pageMod t.1 t.2 (fun x => { x with stamp := (nowStamp s + 1) % 65536 }) s else if tierOf (pageGet s t.1 t.2).loc = h.2.2.2 then s else askMove t.1 t.2 h.2.2.2 2 h.1 none none s) (stratumMod part (fun y => { y with hints := l }) s)))) ∧
  (∀ (part : Fin 8) (s : State) (h : Nat × Nat × Nat × Nat) (l : List (Nat × Nat × Nat × Nat)),
    (s.dev.safe = false ∧ (stratumGet s part).hints = h :: l) →
    (((List.range ((h.2.1 + h.2.2.1 * tileBytes - 1) / pageBytes + 1 - h.2.1 / pageBytes)).map (fun i => objAt (stratumMod part (fun y => { y with hints := l }) s) h.1 ((h.2.1 / pageBytes + i) * pageBytes))).any (·.isNone) = true) →
    exec (.hintService part) s = .next (stratumMod part (fun y => { y with dropped := satAdd 48 y.dropped 1 }) (stratumMod part (fun y => { y with hints := l }) s))) ∧
  (∀ (ctx : Fin 256) (s : State) (m : Move),
    (s.deep.moves.find? (fun m => m.asks.contains (ctx.val, 0) && !m.starved && ticksS ≤ s.clk.ltc - m.since && (m.frame.isNone || !s.sup.timeref)) = some m ∧ s.dev.safe = false) →
    exec (.tierStarvation ctx) s = .next (raise (srcStratum + ctxPart s ctx) 9 ctx (moveMod m.object m.page (fun m => { m with starved := true }) s))) ∧
  (∀ (used : List (Nat × Nat)) (s : State),
    (s.dev.safe = false) →
    exec (.useReport used) s = .next (used.foldl (fun s u => match objAt s u.1 u.2 with | some (o, p) => pageMod o p (fun x => { x with stamp := nowStamp s }) s | none => s) s)) ∧
  (∀ (object page : Nat) (l : TileLoc) (tile : Fin 32) (word : Fin 16) (outcome : CwOutcome) (s : State),
    (flashRuns s = true ∧ mapFind s.deep.map (tileKey object page tile) = some l) →
    (s.deep.moves.any (fun m => m.object = object && m.page = page && otherFirst m tile) = false) →
    (hopeless s (tileKey object page tile) = false ∧ outcome ≠ .uncorrectable) →
    exec (.codewordRead object page tile word outcome) s = .next (moveMod object page (fun m => { m with got := m.got ||| BitVec.ofNat 512 (2 ^ (16 * tile.val + word.val)) }) (noteRead l.block (tileKey object page tile) outcome s))) ∧
  (∀ (object page : Nat) (l : TileLoc) (tile : Fin 32) (word : Fin 16) (outcome : CwOutcome) (s : State),
    (flashRuns s = true ∧ mapFind s.deep.map (tileKey object page tile) = some l) →
    (s.deep.moves.any (fun m => m.object = object && m.page = page && otherFirst m tile) = false) →
    (hopeless s (tileKey object page tile) = true ∨ outcome = .uncorrectable) →
    exec (.codewordRead object page tile word outcome) s = .next (pump (tileUncorrectable object page tile (moveMod object page (fun m => { m with got := m.got ||| BitVec.ofNat 512 (2 ^ (16 * tile.val + word.val)) }) (noteRead l.block (tileKey object page tile) .uncorrectable s))))) ∧
  (∀ (object page : Nat) (tile : Fin 32) (s : State) (r : Refetch),
    (s.deep.refetch.find? (fun r => r.isOf object page tile) = some r) →
    (s.dev.safe = false ∧ 100 * ticksMs ≤ s.clk.ltc - r.since) →
    exec (.sourceTimeout object page tile) s = .next (pump (if r.source = 1 then askSource object page tile 2 s else tileLost object page tile s)))

/-- Stripe commits, checkpoints, the mount, wear, disturb, retention, scan and die failures have their effects. With the store die in service and its trigger met, TILE_COMMIT programs a full stripe or retires the block whose program failed; STRIPE_CLOSE_TIMEOUT programs the open stripe with padding; MAP_CHECKPOINT writes the map to its region and keeps it with the one before; MOUNT takes the map that the checkpoints give, drops what was open and takes up the moves a restart cut off; STATIC_WEAR_LEVEL, READ_DISTURB_REFRESH, RETENTION_TICK and READ_SCAN move the blocks that are due; DIE_FAILURE marks the die and rebuilds its tiles. (R173; R176; R177; R178; R179; R180; R181; R182; R183; R184; R185; R186) -/
def Obligations.FlashCommandsRun : Prop :=
  (∀ (group : Fin 4) (programOk : Bool) (s : State),
    (stripeReady s group = true ∧ stripeTiles s group ≤ (nextStripe s group).length) →
    exec (.tileCommit group programOk) s = .next (if programOk then commitStripe group s else programFailed group s)) ∧
  (∀ (group : Fin 4) (s : State),
    (stripeReady s group = true) →
    (ticksMs ≤ s.clk.ltc - mapGet 0 s.deep.lastTile group) →
    exec (.stripeCloseTimeout group) s = .next (commitStripe group s)) ∧
  (∀ (s t : State),
    (flashRuns s = true ∧ (60 * ticksS ≤ s.clk.ltc - s.deep.ckptAt ∨ 1048576 ≤ s.deep.ckptTiles)) →
    (t = writeRegion 1 (3136 * (s.deep.ckptAt / (60 * ticksS) % 2)) 3136 s) →
    exec (.mapCheckpoint) s = .next { t with deep := { t.deep with ckptAt := t.clk.ltc, ckptTiles := 0, ckpts := { map := t.deep.map } :: t.deep.ckpts.take 1 } }) ∧
  (∀ (newestOk olderOk : Bool) (s : State),
    (s.dev.safe = false ∧ s.deep.mounted = false ∧ s.sup.domains.getLsbD 28 = true ∧ s.sup.timeref = true) →
    exec (.mountTier newestOk olderOk) s = .next (let t : State := resumeBlocks { s with deep := { s.deep with mounted := true, stripes := [], ckptAt := s.clk.ltc, map := mountedMap newestOk olderOk s }, objects := s.objects.map (fun kv => (kv.1, { kv.2 with pages := kv.2.pages.map (fun p => (p.1, { p.2 with leaving := none })) })) }; if newestOk || olderOk then t else raise srcDtRebuild 0 0 t)) ∧
  (∀ (slc : Bool) (s : State) (a lo : Nat × Block) (r : List (Nat × Block)),
    (flashRuns s = true ∧ s.deep.blocks.filter (fun kv => kv.2.slc = slc && !kv.2.retired) = a :: r) →
    (lo = r.foldl (fun b kv => if kv.2.erases < b.2.erases then kv else b) a ∧ lo.2.tiles ≠ []) →
    (150 < r.foldl (fun b kv => max b kv.2.erases) a.2.erases - lo.2.erases) →
    exec (.staticWearLevel slc) s = .next (moveBlock lo.1 .wear 0 s)) ∧
  (∀ (block : Nat) (s : State) (x : Block),
    (flashRuns s = true ∧ mapFind s.deep.blocks block = some x ∧ x.retired = false ∧ disturbLimit x.slc ≤ x.reads) →
    exec (.readDisturbRefresh block) s = .next (moveBlock block .disturb 0 s)) ∧
  (∀ (case0 case1 : Int) (s t : State),
    (s.deep.mounted = true ∧ s.dev.safe = false ∧ 60 * ticksS ≤ s.clk.ltc - s.deep.agedAt) →
    (t = (let u := caseTemp 1 case1 (caseTemp 0 case0 s); { u with deep := { u.deep with agedAt := u.clk.ltc, blocks := u.deep.blocks.map (fun kv => (kv.1, if kv.2.tiles.isEmpty then kv.2 else { kv.2 with age := kv.2.age + retentionWeight (if kv.2.die < 16 then case0 else case1) })) } })) →
    (flashRuns t = true) →
    exec (.retentionTick case0 case1) s = .next (t.deep.blocks.foldl (fun s kv => if !kv.2.tiles.isEmpty && !kv.2.retired && ageLimit kv.2.slc ≤ kv.2.age && !slotBusy s kv.2 then moveBlock kv.1 .retention 0 s else s) t)) ∧
  (∀ (outcomes : List (Nat × CwOutcome)) (s t : State),
    (flashRuns s = true ∧ 24 * 3600 * ticksS ≤ s.clk.ltc - s.deep.scanAt) →
    (t = { s with deep := { s.deep with scanAt := s.clk.ltc } }) →
    exec (.readScan outcomes) s = .next (pump (t.deep.blocks.foldl (fun s kv => scanBlock kv.1 ((outcomes.filter (fun o => o.1 = kv.1)).map (·.2)) s) t))) ∧
  (∀ (die : Fin 32) (s : State),
    (s.deep.mounted = true ∧ s.dev.safe = false) →
    exec (.dieFailure die) s = .next (failDie die s))

/-- Port training, recovery and loss have their effects. Where its trigger holds, each event of a Zilet port has the effect of its rule: training passes on the lanes that work and this side's HELLO goes out, the other's HELLO completes it or isolates the port, recovery ends in UP or DOWN, loss of signal, PEER_SAFE and the loss of ZL_REFCLK take ports DOWN. (R265; R266; R267; R268; R291; R468) -/
def Obligations.PortTrainingRun : Prop :=
  (∀ (port : Fin 32) (lanes : BitVec 8) (s : State),
    ((portGet s port).st = .down ∧ s.dev.safe = false ∧ s.sup.zlRefclk = true ∧ linkDie s port = true ∧ s.host.portOut.getLsbD port = false ∧ (portGet s port).tried.all (fun n => n + 100000000 ≤ s.clk.ltc) = true) →
    (lanes = 0xFF#8 ∨ lanes &&& 0x0F#8 = 0x0F#8) →
    exec (.trainingAttempt port lanes) s = .next (sendHello port (portMod port (fun x => { x with st := .training, pending := some (if lanes = 0xFF#8 then .up else .upX4), upper := false, failLanes := ~~~lanes }) (portMod port (fun x => { x with tried := some s.clk.ltc, since := s.clk.ltc }) s)))) ∧
  (∀ (port : Fin 32) (lanes : BitVec 8) (s : State),
    ((portGet s port).st = .down ∧ s.dev.safe = false ∧ s.sup.zlRefclk = true ∧ linkDie s port = true ∧ s.host.portOut.getLsbD port = false ∧ (portGet s port).tried.all (fun n => n + 100000000 ≤ s.clk.ltc) = true) →
    (lanes &&& 0x0F#8 ≠ 0x0F#8 ∧ lanes &&& 0xF0#8 = 0xF0#8) →
    exec (.trainingAttempt port lanes) s = .next (sendHello port (portMod port (fun x => { x with st := .training, pending := some .upX4, upper := true, failLanes := ~~~lanes }) (portMod port (fun x => { x with tried := some s.clk.ltc, since := s.clk.ltc }) s)))) ∧
  (∀ (port : Fin 32) (s : State),
    ((portGet s port).st = .training ∧ (portGet s port).since + 60000000 ≤ s.clk.ltc) →
    exec (.trainingTimeout port) s = .next (zlBump (zcPort port 8) 1 (portLeave port .down s))) ∧
  (∀ (port : Fin 32) (payload : BitVec 128) (s t : State) (st : PortState),
    (s.dev.safe = false ∧ (portGet s port).st = .training ∧ (portGet s port).pending = some st) →
    (t = portMod port (fun x => { x with hello := some payload }) s ∧ idConflict t port payload = false) →
    exec (.hello port payload) s = .next (helloPair port (mirrorCheck (autoRoutes (if st = .upX4 then raise (srcZlDegraded + port) 0 (portGet s port).failLanes.toNat (portMod port (fun x => { x with st := st, pending := none }) t) else portMod port (fun x => { x with st := st, pending := none }) t))))) ∧
  (∀ (port : Fin 32) (payload : BitVec 128) (s t : State),
    (s.dev.safe = false ∧ (portGet s port).live = true) →
    (t = portMod port (fun x => { x with hello := some payload }) s ∧ idConflict t port payload = true) →
    exec (.hello port payload) s = .next (mirrorCheck (autoRoutes (raise (srcZlConflict + port) 0 ((hId payload).getD 0) (portLeave port .isolated t))))) ∧
  (∀ (port : Fin 32) (s t : State),
    ((portGet s port).st = .recovery) →
    (t = zlBump (zcPort port 6) ((portGet s port).replay.length - (portGet s port).unsent) (onLanes port (portGet s port).replay (autoRoutes (portMod port (fun x => { x with st := if x.narrow then .upX4 else .up, nakRun := 0, nakSent := false, unsent := 0, ackAt := s.clk.ltc }) s)))) →
    exec (.recoveryExit port) s = .next (answerNow port (if (portGet s port).helloDue then sendHello port t else t))) ∧
  (∀ (port : Fin 32) (s : State),
    ((portGet s port).st = .recovery ∧ (portGet s port).since + 500000 ≤ s.clk.ltc) →
    exec (.recoveryTimeout port) s = .next (portDown port 1 s)) ∧
  (∀ (port : Fin 32) (s : State),
    ((portGet s port).st ≠ .disabled ∧ (portGet s port).st ≠ .down ∧ (portGet s port).st ≠ .safe) →
    exec (.lossOfSignal port) s = .next (portDown port 0 s)) ∧
  (∀ (port : Fin 32) (s : State),
    ((portGet s port).st ≠ .disabled ∧ (portGet s port).st ≠ .down ∧ (portGet s port).st ≠ .safe) →
    exec (.peerSafe port) s = .next (portDown port 2 s)) ∧
  (∀ (s : State),
    exec (.zlRefclkLoss) s = .next ((List.range 32).foldl (fun s p => if (portGet s p).st = .disabled ∨ (portGet s p).st = .down ∨ (portGet s p).st = .safe then s else portDown p 0 s) { s with sup := { s.sup with zlRefclk := false } }))

/-- Flits, their retry, and forwarding have their effects. A NAK goes back and its timeout recovers the port; the retry rate is checked; an intact flit in order is accepted with its ACK and credits, an IDLE or CONTROL flit gives only those, a bad one is discarded and asked for again; the answer goes back at once; a waiting packet is forwarded, waits for credits, moves to its escape channel, or is discarded without a route. (R269; R270; R272; R273; R274; R280) -/
def Obligations.FlitsRun : Prop :=
  (∀ (port : Fin 32) (fseq : Nat) (s : State),
    exec (.nak port fseq) s = .next (goBack port (fseq % 4096) s)) ∧
  (∀ (port : Fin 32) (s : State),
    ((portGet s port).replay ≠ [] ∧ (portGet s port).ackAt + 200 ≤ s.clk.ltc) →
    exec (.ackTimeout port) s = .next (enterRecovery port s)) ∧
  (∀ (port : Fin 32) (s : State),
    exec (.retryRateCheck port) s = .next (if 1000000 < (portGet s port).nakSecond then raise (srcZlRetry + port) 0 (portGet s port).nakSecond (portMod port (fun x => { x with nakSecond := 0 }) s) else portMod port (fun x => { x with nakSecond := 0 }) s)) ∧
  (∀ (port : Fin 32) (n : Nat) (flit : Bytes) (s : State),
    ((portGet s port).live = true ∧ s.dev.safe = false) →
    (crc32c (byteSlice flit 0 252) = fieldBytes flit 252 4) →
    (bitsOf (fieldBytes flit 0 12) 69 66 = 1 ∨ bitsOf (fieldBytes flit 0 12) 69 66 = 2) →
    (bitsOf (fieldBytes flit 0 12) 95 84 = (portGet s port).rxSeq) →
    exec (.flitReceive port (some n) flit) s = .next (answerNow port (acceptFlit port (fieldBytes flit 0 12) flit (zlBump (zcPort port 2) n s)))) ∧
  (∀ (port : Fin 32) (n : Nat) (flit : Bytes) (s : State),
    ((portGet s port).live = true ∧ s.dev.safe = false) →
    (crc32c (byteSlice flit 0 252) = fieldBytes flit 252 4) →
    (bitsOf (fieldBytes flit 0 12) 69 66 ≠ 1 ∧ bitsOf (fieldBytes flit 0 12) 69 66 ≠ 2) →
    exec (.flitReceive port (some n) flit) s = .next (answerNow port (flitNews port (fieldBytes flit 0 12) (zlBump (zcPort port 2) n s)))) ∧
  (∀ (port : Fin 32) (fec : Option Nat) (flit : Bytes) (s : State),
    ((portGet s port).live = true ∧ s.dev.safe = false) →
    (fec.isSome = true → crc32c (byteSlice flit 0 252) ≠ fieldBytes flit 252 4) →
    exec (.flitReceive port fec flit) s = .next (answerNow port (badFlit port (match fec with | none => zlBump (zcPort port 3) 1 s | some n => zlBump (zcPort port 4) 1 (zlBump (zcPort port 2) n s))))) ∧
  (∀ (index p : Nat) (w : Waiting) (s t : State),
    (s.dev.safe = false ∧ s.dev.zlId.isSome ∧ stalled s s.sup.fabMv = false) →
    (s.zl.waiting[index]? = some w ∧ choosePort s w = some p) →
    (t = forwardOn p w { dropWaiting index s with zl := { (dropWaiting index s).zl with turn := (p + 1) % 32 } }) →
    exec (.packetForward index) s = .next (match w.from_ with | some (q, _) => answerNow q t | none => t)) ∧
  (∀ (index : Nat) (w : Waiting) (s : State),
    (s.dev.safe = false ∧ s.dev.zlId.isSome ∧ stalled s s.sup.fabMv = false) →
    (s.zl.waiting[index]? = some w ∧ choosePort s w = none) →
    exec (.packetForward index) s = .next (creditStall s w)) ∧
  (∀ (index : Nat) (w : Waiting) (s : State),
    (s.zl.waiting[index]? = some w ∧ w.since + 10000 ≤ s.clk.ltc ∧ escapePort s w = none ∧ (2 ≤ w.pkt.vc ∨ adaptPorts s w = [])) →
    exec (.noRoute index) s = .next (discardPacket w (zlBump (zcDev 1) 1 (dropWaiting index s)))) ∧
  (∀ (index : Nat) (w : Waiting) (s : State),
    (s.zl.waiting[index]? = some w ∧ w.since + 100 ≤ s.clk.ltc ∧ w.pkt.vc < 2 ∧ choosePort s w = none ∧ (escapePort s w).isSome) →
    exec (.escapeTimeout index) s = .next { s with zl := { s.zl with waiting := listSet s.zl.waiting index w.escape } })

/-- Sessions, tile messages, discovery, routes and resends have their effects. A SESSION_OPEN with destination boot id 0 is answered with SESSION_ACCEPT, the session open; a SESSION_ACCEPT for a session asked for opens it; STALE ends the session and counts the peer as restarted; time-outs resend a message or end the session. The next message of an open session is delivered and acknowledged: TILE_WRITE writes its target, TILE_READ is answered, TILE_DATA delivers or goes on to the next source, the remote query is answered with the port records, and its reply completes PEER_DISCOVER. ROUTE_SET sets the routes it names. (R147; R149; R202; R277; R278; R283; R284; R285; R286; R289; R292) -/
def Obligations.SessionAndTileCommandsRun : Prop :=
  (∀ (h : MsgHdr) (s t : State),
    (arrived h s = true ∧ h.dstBoot = 0 ∧ (peerGet s h.src).isOpen = false) →
    (t = zlBump (zcPeer h.src 4) 1 (zlBump (zcPeer h.src 5) 1 (sessionUp h.src h.srcBoot s))) →
    exec (.sessionOpen h) s = .next (queuePacket { dst := h.src, src := t.dev.zlId.getD 0, vc := 0, mtype := 0x31, cls := 61, srcBoot := t.dev.bootId.toNat, dstBoot := h.srcBoot, last := true, data := byteSlice (Config.messageHeader 0x31 []) 0 64 } 0 t)) ∧
  (∀ (h : MsgHdr) (s : State),
    (arrived h s = true ∧ h.dstBoot = s.dev.bootId.toNat ∧ (peerGet s h.src).isOpen = false) →
    ((peerGet s h.src).out.any (fun m => m.mtype = 0x30) = true) →
    exec (.sessionAccept h) s = .next (sessionUp h.src h.srcBoot (zlBump (zcPeer h.src 5) 1 s))) ∧
  (∀ (h : MsgHdr) (s : State),
    (arrived h s = true ∧ h.dstBoot = s.dev.bootId.toNat ∧ (peerGet s h.src).isOpen = true ∧ (peerGet s h.src).boot ≠ h.srcBoot) →
    exec (.stale h) s = .next (peerRestart h.src s)) ∧
  (∀ (peer : Fin 4096) (stream : Fin 4) (mseq : Nat) (s : State) (m : OutMsg),
    (s.dev.safe = false ∧ m.sentAt + 5000 * 2 ^ min 5 m.resends ≤ s.clk.ltc ∧ (peerGet s peer).out.find? (fun m => m.stream = stream.val && m.mseq = mseq) = some m) →
    exec (.retransmitTimeout peer stream mseq) s = .next (queueMsg peer m (countResent m (zlBump (zcPeer peer (6 + 3 * stream)) 1 (peerSet peer { (peerGet s peer) with out := (peerGet s peer).out.map (fun o => if o = m then { o with resends := o.resends + 1, sentAt := s.clk.ltc } else o) } s))))) ∧
  (∀ (peer : Fin 4096) (stream : Fin 4) (s t : State),
    (s.dev.safe = false ∧ streamStuck s (peerGet s peer) stream = true) →
    ((peerGet s peer).out.any (fun m => m.stream = stream.val) = true ∨ ((peerGet s peer).isOpen = false ∧ (peerGet s peer).backlog.any (fun m => m.stream = stream.val) = true)) →
    (t = (if peer.val = (endSession peer s).jr.partner then partnerLost (raise srcZlUnreach 0 peer (endSession peer s)) else raise srcZlUnreach 0 peer (endSession peer s))) →
    exec (.streamTimeout peer stream) s = .next (if (peerGet t peer).backlog = [] then t else openSession peer t)) ∧
  (∀ (h : MsgHdr) (group object offset c va : Nat) (data : Bytes) (md : List (BitVec 4)) (s : State),
    (msgTurn s h 2) →
    (tileTarget s group object offset data.length true = some (c, va) ∧ firstAbsent s c va data.length true = none) →
    exec (.tileWrite h group object offset data md) s = .next (ackNow h.src 2 h.mseq h.srcBoot false (setMd c va md (writeVa c va data 0 false s).2))) ∧
  (∀ (h : MsgHdr) (group object offset : Nat) (data : Bytes) (md : List (BitVec 4)) (s : State),
    (msgTurn s h 2) →
    (tileTarget s group object offset data.length true = none) →
    exec (.tileWrite h group object offset data md) s = .next (ackNow h.src 2 h.mseq h.srcBoot true s)) ∧
  (∀ (h : MsgHdr) (group object offset length c va : Nat) (s : State),
    (msgTurn s h 2) →
    (tileTarget s group object offset length false = some (c, va) ∧ firstAbsent s c va length false = none) →
    exec (.tileRead h group object offset length) s = .next (ackNow h.src 2 h.mseq h.srcBoot false (answerTile h group c (if (readRaw c va length s).1.md.any mdPoison then none else some ((readRaw c va length s).1.bytes, (readRaw c va length s).1.md)) (readRaw c va length s).2))) ∧
  (∀ (h : MsgHdr) (request : Nat) (available : Bool) (data : Bytes) (md : List (BitVec 4)) (s : State) (r : Refetch),
    (msgTurn s h 2) →
    (refetchOf s h.src request = some r) →
    exec (.tileData h request available data md) s = .next (ackNow h.src 2 h.mseq h.srcBoot false (pump (if available then tileDelivered r.object r.page r.tile data md s else if r.source = 1 then askSource r.object r.page r.tile 2 s else tileLost r.object r.page r.tile s)))) ∧
  (∀ (h : MsgHdr) (s : State),
    (msgTurn s h 0) →
    exec (.remoteQuery h) s = .next (ackNow h.src 0 h.mseq h.srcBoot false (sendMsg h.src { mtype := 0x35, body := portRecords s } s))) ∧
  (∀ (h : MsgHdr) (records : Bytes) (s : State) (c : Cmd),
    (msgTurn s h 0) →
    (s.jr.ring.find? (fun c => c.opcode = 0x500 && c.started && c.done.isNone && c.p 2 2 = h.src) = some c ∧ linkUp s c.port = true) →
    exec (.remoteReply h records) s = .next (ackNow h.src 0 h.mseq h.srcBoot false (finish c stSuccess (natLe 4 (listMask ((List.range 32).filter (fun p => bitsOf (fieldBytes records (16 * p) 16) 45 43 = 3 || bitsOf (fieldBytes records (16 * p) 16) 45 43 = 4)))) (hostWrite c.port (c.p 8 8) (byteSlice records 0 512) s)))) ∧
  (∀ (q : Fin 512) (seq : Nat) (s : State) (c : Cmd),
    (hostRuns s q seq 0x500 false [(0, 1), (2, 2), (8, 8)] c) →
    (bitsOf (c.p 0 1) 7 1 = 0 ∧ c.p 2 2 < 4096 ∧ c.bit 0 0 = false) →
    exec (.peerDiscover q seq) s = .next (finish c stSuccess (natLe 4 (liveMask s)) (hostWrite c.port (c.p 8 8) (portRecords s) s))) ∧
  (∀ (q : Fin 512) (seq : Nat) (s : State) (c : Cmd),
    (hostRuns s q seq 0x500 false [(0, 1), (2, 2), (8, 8)] c) →
    (bitsOf (c.p 0 1) 7 1 = 0 ∧ c.p 2 2 < 4096 ∧ c.bit 0 0 = true) →
    exec (.peerDiscover q seq) s = .next (sendMsg (c.p 2 2) { mtype := 0x34, cmd := c.jidx } (begun c s))) ∧
  (∀ (q : Fin 512) (seq : Nat) (s : State) (c : Cmd),
    (hostRuns s q seq 0x501 false [(0, 4), (16, 32768)] c) →
    (1 ≤ c.p 2 2 ∧ c.p 0 2 + c.p 2 2 ≤ 4096 ∧ 16 + 8 * c.p 2 2 ≤ c.params.length) →
    (∀ i < c.p 2 2, s.dev.zlId ≠ some (c.p 0 2 + i) ∧ routeAuto (BitVec.ofNat 64 (c.p (16 + 8 * i) 8)) = false ∧ bitsOf (BitVec.ofNat 64 (c.p (16 + 8 * i) 8)).toNat 55 32 = 0 ∧ ¬(routeV (BitVec.ofNat 64 (c.p (16 + 8 * i) 8)) = true ∧ bitsOf (BitVec.ofNat 64 (c.p (16 + 8 * i) 8)).toNat 31 0 = 0)) →
    exec (.routeSet q seq) s = .next (finish c stSuccess [] (autoRoutes ((List.range (c.p 2 2)).foldl (fun s i => peerSet (c.p 0 2 + i) { peerGet s (c.p 0 2 + i) with route := if routeV (BitVec.ofNat 64 (c.p (16 + 8 * i) 8)) then BitVec.ofNat 64 (c.p (16 + 8 * i) 8) else 0#64 } s) s))))

/-- COLL_GROUP makes a group, binds and unbinds an object, and ends a group. COLL_GROUP CREATE makes a group and answers its list digest; BIND and UNBIND put an object into the group's bound objects and take it out; DESTROY ends the group on this member, with PEER_LOST where it has no LIVE member. What DESTROY gives the commands that the group still serves is the model's choice (log 64). (R302; R304; R307; R348) -/
def Obligations.GroupsMadeAndEnded : Prop :=
  (∀ (q : Fin 512) (seq : Nat) (s : State) (c : Cmd) (x : Group),
    (hostRuns s q seq 0x502 true [(0, 1), (4, 8), (64, 8192)] c) →
    (c.p 0 1 = 0 ∧ 1 ≤ c.p 8 2 ∧ c.p 8 2 ≤ 4096 ∧ c.p 10 2 < c.p 8 2 ∧ 64 + 2 * c.p 8 2 ≤ c.params.length) →
    ((∀ i < c.p 8 2, c.p (64 + 2 * i) 2 < 8192) ∧ allZero (c.params.drop (64 + 2 * c.p 8 2)) = true) →
    (groupGet s (c.p 4 4) = none ∧ s.groups.length < 64 ∧ (s.groups.filter (fun kv => kv.2.ctx = c.ctx)).length < 16) →
    (x = { ctx := c.ctx, own := c.p 10 2, members := (List.range (c.p 8 2)).map (fun i => (c.p (64 + 2 * i) 2 % 4096, c.p (64 + 2 * i) 2 / 4096)) }) →
    exec (.collGroupCreate q seq) s = .next (finish c stSuccess (natLe 8 (listDigest (c.p 4 4) x).toNat) (groupSet (c.p 4 4) x s))) ∧
  (∀ (q : Fin 512) (seq : Nat) (s : State) (c : Cmd) (x : Group),
    (hostRuns s q seq 0x502 true [(0, 1), (4, 8)] c) →
    (c.p 0 1 = 2 ∧ groupGet s (c.p 4 4) = some x ∧ x.ctx = c.ctx) →
    ((objBase s c.ctx (c.p 8 4)).isSome ∧ x.liveList ≠ []) →
    exec (.collGroupBind q seq) s = .next (finish c stSuccess [] (groupSet (c.p 4 4) { x with bound := insertAsc (c.p 8 4) x.bound } s))) ∧
  (∀ (q : Fin 512) (seq : Nat) (s : State) (c : Cmd) (x : Group),
    (hostRuns s q seq 0x502 true [(0, 1), (4, 8)] c) →
    (c.p 0 1 = 3 ∧ groupGet s (c.p 4 4) = some x ∧ x.ctx = c.ctx) →
    (x.bound.contains (c.p 8 4) ∧ x.liveList ≠ []) →
    exec (.collGroupUnbind q seq) s = .next (finish c stSuccess [] (groupSet (c.p 4 4) { x with bound := x.bound.filter (· ≠ c.p 8 4) } s))) ∧
  (∀ (q : Fin 512) (seq : Nat) (s : State) (c : Cmd) (x : Group),
    (hostRuns s q seq 0x502 true [(0, 1), (4, 4)] c) →
    (c.p 0 1 = 4 ∧ groupGet s (c.p 4 4) = some x ∧ x.ctx = c.ctx) →
    exec (.collGroupDestroy q seq) s = .next (finish c (if x.liveList = [] then stPeerLost else stSuccess) [] (endGroup (c.p 4 4) x s)))

/-- BASE_SET holds and drops a base, CODE_TABLE_LOAD starts a load. BASE_SET holds a base of an object, set or, for a SHADOW, unset until a commit, or drops one; CODE_TABLE_LOAD on a LIVE member holds a load of the table for every other LIVE member and takes its first steps. (R320; R325; R326; R328) -/
def Obligations.BasesAndTables : Prop :=
  (∀ (q : Fin 512) (seq : Nat) (s : State) (c : Cmd) (x : Group),
    (hostRuns s q seq 0x504 true [(0, 5), (16, 16)] c) →
    (groupGet s (c.p 0 4) = some x ∧ x.ctx = c.ctx ∧ c.p 4 1 < 4 ∧ tableOk (c.bytes 16 16) = true ∧ x.current ≠ some (c.p 4 1)) →
    (x.liveList ≠ [] ∧ x.stateOf x.own = 0 ∧ x.load = none) →
    exec (.codeTableLoad q seq) s = .next (loadStep (c.p 0 4) (groupSet (c.p 0 4) { x with load := some ⟨c.jidx, c.p 4 1, c.bytes 16 16, (x.liveList.filter (· ≠ x.own)).map (fun i => (i, 0))⟩ } (begun c s)))) ∧
  (∀ (q : Fin 512) (seq : Nat) (s : State) (c : Cmd) (x : Group),
    (hostRuns s q seq 0x505 true [(0, 12)] c) →
    (groupGet s (c.p 0 4) = some x ∧ x.ctx = c.ctx ∧ c.p 4 1 ≠ 0xFF ∧ c.p 5 1 ≤ 1) →
    (c.p 5 1 = 0 ∨ (objBase s c.ctx (c.p 8 4)).isSome) →
    (x.liveList ≠ [] ∧ x.run.any (fun r => cdF r.desc 456 449 = c.p 4 1) = false) →
    exec (.baseSet q seq) s = .next (finish c stSuccess [] (groupSet (c.p 0 4) { x with bases := if c.p 5 1 = 0 then mapErase x.bases (c.p 4 1) else mapInsert x.bases (c.p 4 1) { shadow := false, object := c.p 8 4, ver := c.p 6 2, isSet := true } } s))) ∧
  (∀ (q : Fin 512) (seq : Nat) (s : State) (c : Cmd) (x : Group),
    (hostRuns s q seq 0x505 true [(0, 12)] c) →
    (groupGet s (c.p 0 4) = some x ∧ x.ctx = c.ctx ∧ c.p 4 1 ≠ 0xFF ∧ c.p 5 1 = 2 ∧ (objBase s c.ctx (c.p 8 4)).isSome) →
    ((ctxGet s c.ctx).train.st ≠ .none ∧ jobGroup (ctxGet s c.ctx).train.job = c.p 0 4 ∧ 4096 * jobBlocks (ctxGet s c.ctx).train.job ≤ (objGet s (c.p 8 4)).count * pageBytes) →
    (x.liveList ≠ [] ∧ x.run.any (fun r => cdF r.desc 456 449 = c.p 4 1) = false) →
    exec (.baseSet q seq) s = .next (finish c stSuccess [] (groupSet (c.p 0 4) { x with bases := mapInsert x.bases (c.p 4 1) { shadow := true, object := c.p 8 4, ver := c.p 6 2, isSet := false } } s)))

/-- COLL_GROUP ADMIT and EXCLUDE_MEMBER ask for a change of the view. In a group with a LIVE member, on a member that is not EXCLUDED, COLL_GROUP ADMIT of an EXCLUDED member and EXCLUDE_MEMBER of one that is not begin and ask for the change; excluding a member that is EXCLUDED already completes with the view. Where a gradient run of the open step goes on, what the change reads is resident (R247, R316). (R247; R303; R304; R305) -/
def Obligations.GroupChangesAsked : Prop :=
  (∀ (q : Fin 512) (seq : Nat) (s : State) (c : Cmd) (x : Group),
    (hostRuns s q seq 0x502 true [(0, 1), (4, 9)] c) →
    (c.p 0 1 = 1 ∧ groupGet s (c.p 4 4) = some x ∧ x.ctx = c.ctx) →
    (c.p 8 2 < x.members.length ∧ x.stateOf (c.p 8 2) = 2 ∧ c.p 10 2 < 4096 ∧ c.p 12 1 ≤ 1) →
    (x.liveList ≠ [] ∧ x.stateOf x.own ≠ 2 ∧ hitch s c.ctx (changeNeeds s x) = none) →
    exec (.collGroupAdmit q seq) s = .next (askChange (c.p 4 4) c.jidx (c.p 12 1) (c.p 8 2) (c.p 10 2) (begun c s))) ∧
  (∀ (q : Fin 512) (seq : Nat) (s : State) (c : Cmd) (x : Group),
    (hostRuns s q seq 0x603 true [(0, 6)] c) →
    ((ctxGet s c.ctx).train.st ≠ .none ∧ (ctxGet s c.ctx).train.st ≠ .broken) →
    (groupGet s (c.p 0 4) = some x ∧ x.ctx = c.ctx ∧ c.p 4 2 < x.members.length) →
    (x.liveList ≠ [] ∧ x.stateOf x.own ≠ 2 ∧ x.stateOf (c.p 4 2) ≠ 2 ∧ hitch s c.ctx (changeNeeds s x) = none) →
    exec (.excludeMember q seq) s = .next (askChange (c.p 0 4) c.jidx 2 (c.p 4 2) (x.dev (c.p 4 2)) (begun c s))) ∧
  (∀ (q : Fin 512) (seq : Nat) (s : State) (c : Cmd) (x : Group),
    (hostRuns s q seq 0x603 true [(0, 6)] c) →
    ((ctxGet s c.ctx).train.st ≠ .none ∧ (ctxGet s c.ctx).train.st ≠ .broken) →
    (groupGet s (c.p 0 4) = some x ∧ x.ctx = c.ctx ∧ c.p 4 2 < x.members.length) →
    (x.liveList ≠ [] ∧ x.stateOf x.own ≠ 2 ∧ x.stateOf (c.p 4 2) = 2) →
    exec (.excludeMember q seq) s = .next (finish c stSuccess (natLe 4 x.view) s))

/-- The messages of a group have their effects and are acknowledged. The next MEMBER or table message of an open session, from a member that is not EXCLUDED (of a table message, from a LIVE member to a LIVE one), has its effect and is acknowledged, what a change of view reads being there or lost: requests are taken, a change of the next view is applied, a view query is answered, arrivals are counted, tables are retired, installed and acknowledged. (R303; R304; R305; R306; R307; R328; R329; R331) -/
def Obligations.GroupMessagesRun : Prop :=
  (∀ (m : MemMsg) (s : State) (x : Group),
    (memTurn s m x) →
    (noWait s x.ctx (changeNeeds s x)) →
    exec (.excludeReq m) s = .next (ackNow m.hdr.src 0 m.hdr.mseq m.hdr.srcBoot false (takeRequest m.group (2, m.member, x.dev m.member) s))) ∧
  (∀ (m : MemMsg) (s : State) (x : Group),
    (memTurn s m x) →
    (noWait s x.ctx (changeNeeds s x)) →
    exec (.admitReq m) s = .next (ackNow m.hdr.src 0 m.hdr.mseq m.hdr.srcBoot false (takeRequest m.group (m.newState % 2, m.member, m.device) s))) ∧
  (∀ (m : MemMsg) (s : State) (x : Group),
    (msgTurn s m.hdr 0 ∧ groupGet s m.group = some x ∧ m.view = x.view + 1 ∧ noWait s x.ctx (changeNeeds s x)) →
    exec (.viewChange m) s = .next (ackNow m.hdr.src 0 m.hdr.mseq m.hdr.srcBoot false (leadNow m.group (applyChange m.group m.view m.member m.device (m.newState % 3) s)))) ∧
  (∀ (m : MemMsg) (s : State) (x : Group),
    (memTurn s m x) →
    exec (.viewQuery m) s = .next (ackNow m.hdr.src 0 m.hdr.mseq m.hdr.srcBoot false (let c := x.lastChange.getD (x.own, x.dev x.own, x.stateOf x.own); sendMem x m.group m.hdr.src 4 (memMsg m.group x c.1 c.2.1 c.2.2) s))) ∧
  (∀ (m : MemMsg) (s : State) (x : Group) (t : Takeover) (i : Nat),
    (memTurn s m x) →
    (x.takeover = some t ∧ x.indexOf m.hdr.src = some i ∧ noWait s x.ctx (changeNeeds s x)) →
    exec (.viewReply m) s = .next (ackNow m.hdr.src 0 m.hdr.mseq m.hdr.srcBoot false (takeoverEnd m.group (groupSet m.group { x with takeover := some { left := t.left.filter (· ≠ i), views := mapInsert t.views i m.view, best := if t.best < m.view then m.view else t.best, change := if t.best < m.view then some (m.member, m.device, m.newState) else t.change } } s)))) ∧
  (∀ (m : MemMsg) (s : State) (x : Group),
    (memTurn s m x) →
    (x.stateOf m.member = 0 ∧ x.dev m.member = m.hdr.src) →
    exec (.arrive m) s = .next (ackNow m.hdr.src 0 m.hdr.mseq m.hdr.srcBoot false (barrierTest m.group (groupSet m.group { x with arrivals := mapInsert x.arrivals m.member m.step } s)))) ∧
  (∀ (m : CollMsg) (s : State) (x : Group),
    (collTurn s m x) →
    exec (.tableRetire m) s = .next (ackNow m.hdr.src 1 m.hdr.mseq m.hdr.srcBoot false (sendColl x m.member 0 7 { collMsg m.group x x.nextRun with gen := m.gen, ackCode := 1 } (groupSet m.group { x with slots := mapErase x.slots (4 * m.member + m.gen % 4) } s)))) ∧
  (∀ (m : CollMsg) (s : State) (x : Group),
    (collTurn s m x) →
    (mapFind x.slots (4 * m.member + m.gen % 4) = none) →
    exec (.tableLoad m) s = .next (ackNow m.hdr.src 1 m.hdr.mseq m.hdr.srcBoot false (sendColl x m.member 0 7 { collMsg m.group x x.nextRun with gen := m.gen, ackCode := 0 } (groupSet m.group { x with slots := mapInsert x.slots (4 * m.member + m.gen % 4) (byteSlice m.records.flatten 0 16) } s)))) ∧
  (∀ (m : CollMsg) (s : State) (x : Group),
    (collTurn s m x) →
    ((mapFind x.slots (4 * m.member + m.gen % 4)).isSome) →
    exec (.tableLoad m) s = .next (ackNow m.hdr.src 1 m.hdr.mseq m.hdr.srcBoot false (sendColl x m.member 0 7 { collMsg m.group x x.nextRun with gen := m.gen, ackCode := 2 } s))) ∧
  (∀ (m : CollMsg) (s : State) (x : Group),
    (collTurn s m x) →
    (m.ackCode = 0 ∧ x.load.any (fun l => l.gen = m.gen) = false) →
    exec (.tableAck m) s = .next (ackNow m.hdr.src 1 m.hdr.mseq m.hdr.srcBoot false (loadEnd m.group (groupSet m.group { x with atPeer := mapMod [] x.atPeer m.member (fun k => k.filter (· ≠ m.gen) ++ [m.gen]) } s)))) ∧
  (∀ (m : CollMsg) (s : State) (x : Group),
    (collTurn s m x) →
    (m.ackCode = 1 ∧ x.load.any (fun l => l.gen = m.gen) = false) →
    exec (.tableAck m) s = .next (ackNow m.hdr.src 1 m.hdr.mseq m.hdr.srcBoot false (sendTable m.group x m.member m.gen (x.tableOf m.gen) (groupSet m.group x s))))

/-- COLL_RUN, the messages of a run and ACK have their effects. COLL_RUN on resident ranges starts a run under the group's next run number and sends its READY messages; of kind GRAD, in an open step of the group's job. The next COLL_STEP message of an open session, for the run in progress and from a LIVE member to a LIVE one, has the effect of its kind and is acknowledged: READY, CONTRIB, FINAL, DATA, RESEND_REQ, NORM, what it reads being there or lost (R153, R203); one for another run is discarded, and counted as stale where that run was abandoned. ACK takes every message it covers from those in flight, acts on each, and lets waiting messages go. (R233; R238; R239; R284; R285; R308; R309; R310; R311; R312; R316; R322) -/
def Obligations.CollectiveRunCommandsRun : Prop :=
  (∀ (q : Fin 512) (seq : Nat) (s : State) (c : Cmd) (x : Group) (r : CollRun),
    (hostRuns s q seq 0x503 true [(0, 64)] c) →
    (c.p 59 1 / 16 ≠ 4 ∧ groupGet s (c.p 60 4) = some x ∧ x.ctx = c.ctx) →
    (r = { run := 0, cmd := c.jidx, view := x.view, desc := c.bytes 0 64, live := x.liveList } ∧ r.kind ≤ 4) →
    (x.liveList ≠ [] ∧ x.stateOf x.own = 0 ∧ descOk' x r = true) →
    ((runRanges x r).all (fun t => rangeMapped s c.ctx t.1 t.2.1 t.2.2) = true) →
    (hitch s c.ctx (runRanges x r) = none ∧ x.run = none) →
    exec (.collRun q seq) s = .next (runStart (c.p 60 4) (groupSet (c.p 60 4) { x with run := some { run := x.nextRun, cmd := c.jidx, view := x.view, desc := c.bytes 0 64, live := x.liveList, since := s.clk.ltc }, nextRun := x.nextRun + 1, gone := x.gone.filter (· ≠ x.nextRun % 65536) } (begun c s)))) ∧
  (∀ (q : Fin 512) (seq : Nat) (s : State) (c : Cmd) (x : Group),
    (hostRuns s q seq 0x503 true [(0, 64)] c) →
    (c.p 59 1 / 16 = 4 ∧ groupGet s (c.p 60 4) = some x ∧ x.ctx = c.ctx) →
    ((ctxGet s c.ctx).train.st = .opened ∧ jobGroup (ctxGet s c.ctx).train.job = c.p 60 4) →
    (cdF (c.bytes 0 64) 475 473 = 0 ∧ cdF (c.bytes 0 64) 472 470 = 2 ∧ cdF (c.bytes 0 64) 469 458 = 0 ∧ cdF (c.bytes 0 64) 448 0 = 0) →
    (x.liveList ≠ [] ∧ x.stateOf x.own ≠ 2 ∧ hitch s c.ctx (jobOf s c.ctx).buffer = none ∧ x.run = none) →
    exec (.collRunGrad q seq) s = .next (runStart (c.p 60 4) (groupSet (c.p 60 4) { x with run := some { run := x.nextRun, cmd := c.jidx, view := x.view, desc := c.bytes 0 64, live := x.liveList, since := s.clk.ltc }, nextRun := x.nextRun + 1, gone := x.gone.filter (· ≠ x.nextRun % 65536) } (begun c s)))) ∧
  (∀ (m : CollMsg) (s : State) (x : Group) (r : CollRun),
    (runTurn s m x r) →
    (noWait s x.ctx (runNeeds s x r)) →
    exec (.collReady m) s = .next (ackNow m.hdr.src 1 m.hdr.mseq m.hdr.srcBoot false (onReady m.group m.member m.digest s))) ∧
  (∀ (m : CollMsg) (s : State) (x : Group),
    (collTurn s m x) →
    (x.run = none ∧ x.gone.contains m.run = false ∧ doneOf x m.run = none ∧ runPast x m.run = false) →
    exec (.collReady m) s = .next (ackNow m.hdr.src 1 m.hdr.mseq m.hdr.srcBoot false (groupSet m.group { x with early := x.early ++ [(m.run, m.member, m.digest)] } s))) ∧
  (∀ (m : CollMsg) (s : State) (x : Group) (r : CollRun),
    (runTurn s m x r) →
    (r.kind ≠ 4 ∧ r.reduces = true ∧ m.unit < r.chunks ∧ r.owner m.unit = x.own ∧ r.live.contains m.member ∧ (mapGet [] r.landed m.unit).contains m.member = false ∧ m.poisoned = true) →
    (noWait s x.ctx [(r.accAt m.unit 0, if r.fmt = 0 then 2 * r.chunkLen m.unit else r.chunkLen m.unit, true), (r.place x.own m.unit, r.chunkLen m.unit, true)]) →
    (noWait s x.ctx (runBase s x r ++ recBases s x r m 0)) →
    exec (.contrib m) s = .next (ackNow m.hdr.src 1 m.hdr.mseq m.hdr.srcBoot false (runCheck m.group (countChunk m.group m.unit m.member true s)))) ∧
  (∀ (m : CollMsg) (s t : State) (x : Group) (r : CollRun) (b : Bool),
    (runTurn s m x r) →
    ((if r.kind = 4 then contribGrad m x r s else contribChunk m x r s) = (t, some b)) →
    exec (.contrib m) s = .next (ackNow m.hdr.src 1 m.hdr.mseq m.hdr.srcBoot b t)) ∧
  (∀ (m : CollMsg) (s t : State) (x : Group) (r : CollRun) (b : Bool),
    (runTurn s m x r) →
    (r.kind = 4 ∧ finalGrad m x r s = (t, some b)) →
    exec (.collFinal m) s = .next (ackNow m.hdr.src 1 m.hdr.mseq m.hdr.srcBoot b t)) ∧
  (∀ (m : CollMsg) (s t : State) (x : Group) (r : CollRun) (b : Bool),
    (runTurn s m x r) →
    (r.kind = 0 ∧ putChunk m x r s = (t, some b)) →
    exec (.collFinal m) s = .next (ackNow m.hdr.src 1 m.hdr.mseq m.hdr.srcBoot b t)) ∧
  (∀ (m : CollMsg) (s t : State) (x : Group) (r : CollRun) (b : Bool),
    (runTurn s m x r) →
    ((r.kind = 2 ∨ (r.kind = 3 ∧ m.member = r.root)) ∧ putChunk m x r s = (t, some b)) →
    exec (.collData m) s = .next (ackNow m.hdr.src 1 m.hdr.mseq m.hdr.srcBoot b t)) ∧
  (∀ (m : CollMsg) (s : State) (x : Group) (r : CollRun),
    (runTurn s m x r) →
    (r.kind = 2 ∧ m.poisoned = true ∧ m.unit < r.chunks ∧ r.written.contains (unitKey m.unit m.member) = false) →
    (firstAbsent s x.ctx (r.place m.member m.unit) (r.chunkLen m.unit) true = none ∧ noWait s x.ctx (recBases s x r m 0)) →
    exec (.collData m) s = .next (ackNow m.hdr.src 1 m.hdr.mseq m.hdr.srcBoot false (runCheck m.group (runSet m.group (fun q => { q with written := q.written ++ [unitKey m.unit m.member], poisoned := q.poisoned ++ [m.unit] }) (poisonChunk x.ctx (r.place m.member m.unit) (r.chunkLen m.unit) s))))) ∧
  (∀ (m : CollMsg) (s : State) (x : Group),
    (collTurn s m x) →
    (x.run = none ∨ x.run.any (fun r => r.run % 65536 ≠ m.run) = true) →
    exec (.contrib m) s = .next (ackNow m.hdr.src 1 m.hdr.mseq m.hdr.srcBoot false (noteStale m x s))) ∧
  (∀ (m : CollMsg) (s : State) (x : Group) (r : CollRun),
    (runTurn s m x r) →
    (noWait s x.ctx (runNeeds s x r)) →
    exec (.resendReq m) s = .next (ackNow m.hdr.src 1 m.hdr.mseq m.hdr.srcBoot false (resendBlocks m x r (runSet m.group (fun q => if q.run % 65536 = m.run && (List.range 16).any (fun k => bitOf m.mask k && m.reasons / 4 ^ k % 4 < 2) then { q with missed := true } else q) s)))) ∧
  (∀ (m : CollMsg) (s : State) (x : Group),
    (collTurn s m x) →
    ((ctxGet s x.ctx).train.st = .opened ∧ jobGroup (ctxGet s x.ctx).train.job = m.group ∧ mapFind (ctxGet s x.ctx).train.norms m.unit = none) →
    exec (.normSum m) s = .next (ackNow m.hdr.src 1 m.hdr.mseq m.hdr.srcBoot false (ctxMod x.ctx (fun y => { y with train := { y.train with norms := mapInsert y.train.norms m.unit m.digest } }) s))) ∧
  (∀ (h : MsgHdr) (stream : Fin 4) (mseq : Nat) (refused : Bool) (s : State) (got left : List OutMsg),
    (arrived h s = true ∧ h.dstBoot = s.dev.bootId.toNat ∧ (peerGet s h.src).isOpen = true ∧ (peerGet s h.src).boot = h.srcBoot) →
    (got = (peerGet s h.src).out.filter (fun m => m.mtype ≠ 0x30 && m.stream = stream.val && m.mseq ≤ mseq)) →
    (left = (peerGet s h.src).out.filter (fun m => !(m.mtype ≠ 0x30 && m.stream = stream.val && m.mseq ≤ mseq))) →
    exec (.ack h stream mseq refused) s = .next (got.foldl (fun s m => msgAcked h.src m (refused && m.mseq = mseq) s) (launchMsgs h.src (peerGet s h.src).backlog { (if got = [] then peerGet s h.src else (peerGet s h.src).progressed stream s.clk.ltc) with out := left } s)))

/-- A training job goes from step to step. STEP_BEGIN opens a step of a new or the held job; a landing enters its row; UPDATE_RUN updates every block; STEP_COMMIT waits at the barrier, whose release commits or breaks the job; 60 s there raise a stall. The value of the sums and corrections that the spec leaves open is free (logs 1 and 14). (R227; R232; R234; R235; R239; R240; R246; R250; R251; R252; R306) -/
def Obligations.TrainingStepsRun : Prop :=
  (∀ (q : Fin 512) (seq : Nat) (s : State) (c : Cmd) (x : Group),
    (hostRuns s q seq 0x600 true [(0, 1), (4, 4), (64, 80)] c) →
    ((ctxGet s c.ctx).train.st = .none ∧ c.p 0 1 = 1 ∧ c.p 4 4 = 0 ∧ jobOk s c.ctx (c.bytes 64 80) = true) →
    (groupGet s (jobGroup (c.bytes 64 80)) = some x ∧ x.ctx = c.ctx ∧ x.liveList ≠ [] ∧ x.stateOf x.own ≠ 2) →
    exec (.stepBegin q seq) s = .next (finish c stSuccess (natLe 4 0) (openStep c.ctx (trainMod c.ctx (fun _ => { ring := (ctxGet s c.ctx).train.ring, counters := (ctxGet s c.ctx).train.counters, job := c.bytes 64 80 }) s)))) ∧
  (∀ (q : Fin 512) (seq : Nat) (s : State) (c : Cmd),
    (hostRuns s q seq 0x600 true [(0, 1), (4, 4), (64, 80)] c) →
    ((ctxGet s c.ctx).train.st = .idle ∧ c.p 4 4 = (ctxGet s c.ctx).train.version) →
    ((c.p 0 1 = 0 ∧ allZero (c.bytes 64 80) = true) ∨ (c.p 0 1 = 1 ∧ c.bytes 64 80 = (ctxGet s c.ctx).train.job)) →
    (jobGroupLost s c.ctx = false) →
    exec (.stepBegin q seq) s = .next (finish c stSuccess (natLe 4 (ctxGet s c.ctx).train.version) (openStep c.ctx s))) ∧
  (∀ (slice : Fin 4) (s : State) (e : Landing) (l : List Landing),
    (coreHalted s = false ∧ mapGet [] s.landings slice.val = e :: l) →
    (firstAbsent s e.ctx ((jobOf s e.ctx).gAt (e.block - (jobOf s e.ctx).first)) 4224 true = none) →
    exec (.landing slice) s = .next (ackLanding e (landOne e { s with landings := mapSet [] s.landings slice.val l }))) ∧
  (∀ (q : Fin 512) (seq : Nat) (refetch : List (Nat × Bytes)) (s : State) (c : Cmd) (t : Train) (x : Job) (cf : BitVec 32),
    (hostRuns s q seq 0x602 true [(0, 25)] c) →
    (t = (ctxGet s c.ctx).train ∧ x = jobOf s c.ctx ∧ t.st = .opened) →
    (updateOk c = true ∧ jobGroupLost s c.ctx = false ∧ normKnown t = true ∧ hitch s c.ctx (x.core ++ x.buffer) = none) →
    (cf = clipFactor (updArg c 5) (normTotal t.norms (jobS t.job)) (drawFree s).1) →
    exec (.updateRun q seq refetch) s = .next (finish c stSuccess (natLe 8 (x.updateAll (updOf c t.step cf) t.selPhase t.step refetch (drawFree s).2).2 ++ natLe 4 cf.toNat) (trainMod c.ctx (fun t => { t with updated := true, clip := some cf }) (x.updateAll (updOf c t.step cf) t.selPhase t.step refetch (drawFree s).2).1))) ∧
  (∀ (q : Fin 512) (seq : Nat) (s : State) (c : Cmd) (t : Train),
    (hostRuns s q seq 0x601 true [(4, 4)] c) →
    (t = (ctxGet s c.ctx).train ∧ t.st = .opened ∧ c.p 4 4 = t.step ∧ t.commit = none ∧ t.updated = true) →
    (jobGroupLost s c.ctx = false) →
    exec (.stepCommit q seq) s = .next (barrierArrive (jobGroup t.job) t.step (trainMod c.ctx (fun t => { t with commit := some { cmd := c.jidx, since := s.clk.ltc } }) (begun c s)))) ∧
  (∀ (q : Fin 512) (seq : Nat) (s : State) (c : Cmd) (r : Bytes),
    (hostRuns s q seq 0x601 true [(4, 4)] c) →
    (0 < c.tries ∧ (ctxGet s c.ctx).train.st ≠ .opened ∧ (ctxGet s c.ctx).train.last = some (c.p 4 4, r)) →
    exec (.stepCommit q seq) s = .next (finish c stSuccess r s)) ∧
  (∀ (ctx : Fin 256) (s : State) (w : Commit),
    (s.dev.safe = false ∧ (ctxGet s ctx.val).train.commit = some w ∧ w.stalled = false ∧ 6000000000 ≤ s.clk.ltc - w.since) →
    exec (.barrierStall ctx) s = .next (trainMod ctx (fun t => { t with commit := some { w with stalled := true } }) (raise (0x010 + ctxPart s ctx.val) 0x0A ctx s))) ∧
  (∀ (m : MemMsg) (peers : List PeerDigests) (shards : List ShardSt) (s t : State) (x : Group),
    (memTurn s m x) →
    (x.released = none ∧ (ctxGet s x.ctx).train.commit.isSome = true) →
    (t = releaseStep m.group m.mismatch peers shards s ∧ (ctxGet t x.ctx).train.commit = none) →
    exec (.barrierRelease m peers shards) s = .next (ackNow m.hdr.src 0 m.hdr.mseq m.hdr.srcBoot false t)) ∧
  (∀ (m : MemMsg) (peers : List PeerDigests) (shards : List ShardSt) (s n u v : State) (k : Nat) (x : Group) (t : Train) (w : Commit) (y : Job),
    (memTurn s m x) →
    (x.released = none ∧ t = (ctxGet s x.ctx).train ∧ t.commit = some w ∧ jobGroup t.job = m.group ∧ m.mismatch = false) →
    (n = trainMod x.ctx (fun t => { t with commit := some { w with released := some (w.released.getD s.clk.ltc) } }) s) →
    (y = jobOf n x.ctx ∧ shards.contains .broken = false ∧ shards.contains .pending = false ∧ hitch n x.ctx (y.core ++ y.buffer ++ shadowSpans n x y) = none) →
    (resolveAll x.ctx y t (jobReplica t.job) (peers.filter (fun p => p.replica ≠ jobReplica t.job && (liveReps x t.job).contains p.replica)) n = (u, k, false)) →
    (commitStep m.group x.ctx k { w with released := some (w.released.getD s.clk.ltc) } u = v ∧ (ctxGet v x.ctx).train.commit = none) →
    exec (.barrierRelease m peers shards) s = .next (ackNow m.hdr.src 0 m.hdr.mseq m.hdr.srcBoot false v)) ∧
  (∀ (m : MemMsg) (peers : List PeerDigests) (shards : List ShardSt) (s n : State) (x : Group) (w : Commit),
    (memTurn s m x) →
    (x.released = none ∧ (ctxGet s x.ctx).train.commit = some w ∧ jobGroup (ctxGet s x.ctx).train.job = m.group ∧ m.mismatch = false) →
    (n = trainMod x.ctx (fun t => { t with commit := some { w with released := some (w.released.getD s.clk.ltc) } }) s) →
    (shards.contains .broken = true ∧ (ctxGet (breakJob x.ctx stPeerLost n) x.ctx).train.commit = none) →
    exec (.barrierRelease m peers shards) s = .next (ackNow m.hdr.src 0 m.hdr.mseq m.hdr.srcBoot false (breakJob x.ctx stPeerLost n))) ∧
  (∀ (m : MemMsg) (peers : List PeerDigests) (shards : List ShardSt) (s t : State) (x : Group) (r : Nat × Bool),
    (groupGet s m.group = some x ∧ x.released = some r ∧ m.hdr.src = x.dev x.own) →
    (t = releaseStep m.group r.2 peers shards s ∧ (ctxGet t x.ctx).train.commit = none) →
    exec (.barrierRelease m peers shards) s = .next (groupMod m.group (fun y => { y with released := none }) t))

/-- A shard is compared, kept, restored, filled and exported. DIGEST_COMPARE and SNAPSHOT answer from memory; SNAP_COPY keeps the partner's copy, two for each job; RESTORE and FILL_FROM_PEER load a shard whose digest agrees; EXPORT_SHARD writes the records that the capacity holds. The layout of the tensor table's entries is the model's constant (log 29). (R249; R253; R254; R255; R256; R257; R258; R259; R260; R261) -/
def Obligations.ShardCommandsRun : Prop :=
  (∀ (q : Fin 512) (seq : Nat) (peers : List PeerDigests) (s : State) (c : Cmd) (t : Train) (x : Job),
    (hostRuns s q seq 0x608 true [(0, 1), (8, 8)] c) →
    (t = (ctxGet s c.ctx).train ∧ x = jobOf s c.ctx ∧ t.st = .idle) →
    (c.p 0 1 ≤ 1 ∧ jobGroupLost s c.ctx = false ∧ hitch s c.ctx x.core = none) →
    (∀ j < x.n, (x.block s j).2.2 = false) →
    exec (.digestCompare q seq peers) s = .next (finish c stSuccess (natLe 8 (xorAll (x.digests s t.version)).toNat ++ natLe 4 t.version ++ natLe 4 ((List.range x.n).filter (fun j => (peers.filter (fun p => p.replica ≠ jobReplica t.job)).any (fun p => p.digests.getD j 0#64 ≠ (x.digests s t.version).getD j 0#64))).length) (if c.p 0 1 = 1 then hostWrite c.port (c.p 8 8) ((x.digests s t.version).flatMap (fun d => natLe 8 d.toNat)) s else s))) ∧
  (∀ (q : Fin 512) (seq : Nat) (s : State) (c : Cmd) (t : Train) (x : Job),
    (hostRuns s q seq 0x604 true [(0, 1)] c) →
    (t = (ctxGet s c.ctx).train ∧ x = jobOf s c.ctx ∧ t.st = .idle) →
    (c.p 0 1 ≤ 1 ∧ jobGroupLost s c.ctx = false ∧ snapBytes x.n ≤ snapMax ∧ flashRuns s = true ∧ hitch s c.ctx (x.core ++ x.table) = none) →
    (∀ j < x.n, (x.block s j).2.2 = false) →
    exec (.snapshot q seq) s = .next (sendSnap c (x.shard s t) (finish c stSuccess (natLe 4 (nextSlot s) ++ natLe 4 t.version ++ natLe 8 (snapBytes x.n)) (keepSnap (nextSlot s) (snapBytes x.n) { shard := x.shard s t, pages := (snapBytes x.n + pageBytes - 1) / pageBytes } s)))) ∧
  (∀ (h : MsgHdr) (k : SnapCopy) (s : State),
    (msgTurn s h 2) →
    ((s.jr.pair = .bound ∨ s.jr.pair = .binding) ∧ h.src = s.jr.partner ∧ mirrorPort s h.port = true) →
    (flashRuns s = true ∧ k.pages ≤ poolFree s 0 2 ∧ s.deep.spare ≠ 0 ∧ (s.deep.copies.filter (fun y => y.shard.jobId = k.shard.jobId)).length < 2) →
    exec (.snapCopy h k) s = .next (ackNow h.src 2 h.mseq h.srcBoot false (writeRegion 6 s.deep.copyAt (32 * k.pages) { s with deep := { s.deep with copyAt := s.deep.copyAt + 32 * k.pages, copies := s.deep.copies ++ [{ shard := k.shard, pages := k.pages, first := s.deep.copyAt }] } }))) ∧
  (∀ (h : MsgHdr) (k : SnapCopy) (s u : State) (old : Snap),
    (msgTurn s h 2) →
    ((s.jr.pair = .bound ∨ s.jr.pair = .binding) ∧ h.src = s.jr.partner ∧ mirrorPort s h.port = true) →
    (flashRuns s = true ∧ k.pages ≤ poolFree s 0 2 ∧ s.deep.spare ≠ 0 ∧ 2 ≤ (s.deep.copies.filter (fun y => y.shard.jobId = k.shard.jobId)).length) →
    (s.deep.copies.find? (fun y => decide (y.shard.jobId = k.shard.jobId)) = some old) →
    (u = writeRegion 6 s.deep.copyAt (32 * k.pages) { s with deep := { s.deep with copyAt := s.deep.copyAt + 32 * k.pages, copies := s.deep.copies ++ [{ shard := k.shard, pages := k.pages, first := s.deep.copyAt }] } }) →
    exec (.snapCopy h k) s = .next (ackNow h.src 2 h.mseq h.srcBoot false (freeRegion 6 (fun n => old.first ≤ n && n < old.first + 32 * old.pages) { u with deep := { u.deep with copies := listEraseFirst (fun y => decide (y.shard.jobId = k.shard.jobId)) u.deep.copies } }))) ∧
  (∀ (q : Fin 512) (seq : Nat) (peer : Option ShardData) (s n u : State) (c : Cmd) (d : ShardData) (j : Bytes),
    (hostRuns s q seq 0x605 true [(0, 12)] c) →
    ((ctxGet s c.ctx).train.st ≠ .opened ∧ (c.tries = 0 ∨ (ctxGet s c.ctx).train.st ≠ .broken) ∧ outcast s c.ctx = false) →
    (c.p 0 1 ≤ 2 ∧ c.p 1 1 ≤ 1 ∧ c.p 2 2 < 4096) →
    ((c.p 0 1 = 0 ∧ flashRuns s = true ∧ (mapFind s.deep.slots (c.p 1 1)).map (fun k => k.shard) = some d) ∨ (c.p 0 1 ≠ 0 ∧ peer = some d)) →
    (j = takeJob (ctxGet s c.ctx).train d ∧ d.jobId = c.p 4 4 ∧ (c.p 8 4 = 0xFFFFFFFF ∨ d.version = c.p 8 4) ∧ jobOk s c.ctx j = true) →
    (n = noteRestore c.ctx (if c.p 0 1 = 0 then readRegion (3 + c.p 1 1) s else s)) →
    (hitch n c.ctx ((jobIn s c.ctx j).core ++ (jobIn s c.ctx j).buffer) = none ∧ shardDigest d (jobIn s c.ctx j).first (jobIn s c.ctx j).n = d.digest) →
    (u = (jobIn n c.ctx j).load d false n) →
    exec (.restoreShard q seq peer) s = .next (finish c stSuccess (natLe 4 d.version) (trainMod c.ctx (fun _ => { ring := (ctxGet n c.ctx).train.ring, job := j, version := d.version, st := wholeState u j }) u))) ∧
  (∀ (q : Fin 512) (seq : Nat) (peer : Option ShardData) (snap : Option SnapCopy) (s : State) (c : Cmd) (y : Group) (t : Train) (d : ShardData) (j : Bytes) (x : Job) (k : Nat),
    (hostRuns s q seq 0x607 true [(0, 9)] c) →
    (t = (ctxGet s c.ctx).train ∧ (t.st = .none ∨ t.st = .repair)) →
    (groupGet s (c.p 0 4) = some y ∧ y.liveList ≠ [] ∧ y.stateOf y.own ≠ 2 ∧ fillBad c y (t.filling = some c.jidx) = false ∧ fillWaits s c = false) →
    ((c.p 8 1 = 0 ∨ flashRuns s = true) ∧ peer = some d ∧ fillTakes c y t j (jobReplica d.jobDef) = true) →
    (j = fillJob y d ∧ jobGroup j = c.p 0 4 ∧ jobShard j = c.p 6 2 ∧ jobOk s c.ctx j = true) →
    (x = jobIn s c.ctx j ∧ hitch s c.ctx (x.core ++ x.buffer) = none ∧ k = fillKnown t d j ∧ d.start ≤ k) →
    (k + (fillGood x d k).length = x.n) →
    exec (.fillFromPeer q seq peer snap) s = .next (fillDone c y x d snap (trainMod c.ctx (fun t => { ring := t.ring, counters := t.counters, st := t.st, job := j, version := d.version, selPhase := d.selPhase, verified := x.n, filling := some c.jidx, fillGone := t.fillGone }) ((fillGood x d k).foldl (fun s i => x.loadBlock d d.selPhase i s) s)))) ∧
  (∀ (q : Fin 512) (seq : Nat) (peer : Option ShardData) (snap : Option SnapCopy) (s : State) (c : Cmd) (y : Group) (t : Train) (d : ShardData) (j : Bytes) (x : Job) (k : Nat),
    (hostRuns s q seq 0x607 true [(0, 9)] c) →
    (t = (ctxGet s c.ctx).train ∧ (t.st = .none ∨ t.st = .repair)) →
    (groupGet s (c.p 0 4) = some y ∧ y.liveList ≠ [] ∧ y.stateOf y.own ≠ 2 ∧ fillBad c y (t.filling = some c.jidx) = false ∧ fillWaits s c = false) →
    ((c.p 8 1 = 0 ∨ flashRuns s = true) ∧ peer = some d ∧ fillTakes c y t j (jobReplica d.jobDef) = true) →
    (j = fillJob y d ∧ jobGroup j = c.p 0 4 ∧ jobShard j = c.p 6 2 ∧ jobOk s c.ctx j = true) →
    (x = jobIn s c.ctx j ∧ hitch s c.ctx (x.core ++ x.buffer) = none ∧ k = fillKnown t d j ∧ d.start ≤ k) →
    (k + (fillGood x d k).length < x.n ∧ d.start + d.blocks.length ≤ k + (fillGood x d k).length) →
    exec (.fillFromPeer q seq peer snap) s = .next (trainMod c.ctx (fun t => { ring := t.ring, counters := t.counters, st := t.st, job := j, version := d.version, selPhase := d.selPhase, verified := k + (fillGood x d k).length, filling := some c.jidx, fillGone := t.fillGone }) ((fillGood x d k).foldl (fun s i => x.loadBlock d d.selPhase i s) s))) ∧
  (∀ (q : Fin 512) (seq : Nat) (s : State) (c : Cmd) (e : Export) (x : Job),
    (hostRuns s q seq 0x606 true [(0, 1), (8, 16)] c) →
    (((ctxGet s c.ctx).train.st = .idle ∨ (ctxGet s c.ctx).train.st = .repair)) →
    (e = exportOf s c ∧ x = jobOf s c.ctx ∧ exportBad s c e = false) →
    (jobGroupLost s c.ctx = false ∧ hitch s c.ctx (exportSpans c x e) = none) →
    ((exportRecords s c x e).2 = false) →
    exec (.exportShard q seq) s = .next (finish c (if (exportFit e.cap (exportRecords s c x e).1).2.2 then stResource else stSuccess) (natLe 8 (exportFit e.cap (exportRecords s c x e).1).1.flatten.length ++ natLe 4 (exportFit e.cap (exportRecords s c x e).1).1.length) (if e.inner then (writeVa c.ctx (e.va.getD 0) (exportFit e.cap (exportRecords s c x e).1).1.flatten 0 false s).2 else hostWrite c.port e.o (exportFit e.cap (exportRecords s c x e).1).1.flatten s)))

/-- Self-tests and calibrations complete with what they found, and READ_COUNTERS writes its sets to host memory. A SELF_TEST whose units are free runs, at once or deferred: rods are left as after a program of context 0, the failing units are withdrawn, and the result names them. One that waited 3,600 s ends with BUSY_OWNED. A CALIBRATE answers with its mask. READ_COUNTERS writes the instances of a set and clears them if asked. (R422; R423; R424; R425; R426; R353) -/
def Obligations.DiagnosticCommandsRun : Prop :=
  (∀ (q : Fin 512) (seq failing : Nat) (s : State) (c : Cmd) (l : List Nat),
    (hostRuns s q seq 0x700 false [(0, 1), (8, 8)] c) →
    (c.waitFrom = none ∧ c.p 0 1 = 0 ∧ l = maskList (c.p 8 8) 64 ∧ testReady s 0 l = true) →
    exec (.selfTestArrayBist q seq failing) s = .next (finish c stSuccess (natLe 8 (listMask (l.filter (bitOf failing)))) (l.foldl (fun s n => testRod n s) { s with host := { s.host with mmaOut := withdraw l failing s.host.mmaOut } }))) ∧
  (∀ (q : Fin 512) (seq failing : Nat) (s : State) (c : Cmd) (l : List Nat),
    (hostRuns s q seq 0x700 false [(0, 1), (8, 8)] c) →
    (c.waitFrom = none ∧ c.p 0 1 = 1 ∧ l = maskList (c.p 8 8) 64 ∧ testReady s 1 l = true) →
    exec (.selfTestRsMarch q seq failing) s = .next (finish c stSuccess (natLe 8 (listMask (l.filter (bitOf failing)))) (l.foldl (fun s n => testRod n s) { s with host := { s.host with rodOut := withdraw l failing s.host.rodOut } }))) ∧
  (∀ (q : Fin 512) (seq failing : Nat) (s : State) (c : Cmd) (l : List Nat),
    (hostRuns s q seq 0x700 false [(0, 1), (8, 8)] c) →
    (c.waitFrom = none ∧ c.p 0 1 = 2 ∧ c.p 8 8 < 2 ^ 32 ∧ l = maskList (c.p 8 8) 32 ∧ testReady s 2 l = true) →
    exec (.selfTestLoopback q seq failing) s = .next (finish c stSuccess (natLe 8 (listMask (l.filter (bitOf failing)))) { s with host := { s.host with portOut := withdraw l failing s.host.portOut } })) ∧
  (∀ (q : Fin 512) (seq failing : Nat) (s : State) (c : Cmd) (l : List Nat),
    (hostRuns s q seq 0x700 false [(0, 1), (8, 8)] c) →
    (c.waitFrom = none ∧ c.p 0 1 = 3 ∧ c.p 8 8 < 16 ∧ l = maskList (c.p 8 8) 4 ∧ (testReady s 3 l = true ∨ bitOf c.flags 3 = false)) →
    exec (.selfTestWvCheck q seq failing) s = .next (finish c stSuccess (natLe 8 (listMask (l.filter (bitOf failing)))) (l.foldl (fun s f => checkFrame f s) s))) ∧
  (∀ (q : Fin 512) (seq failing : Nat) (s : State) (c : Cmd),
    (hostRuns s q seq 0x700 false [(0, 1), (8, 8)] c) →
    (c.waitFrom = none ∧ c.p 0 1 = 0 ∧ testReady s 0 (maskList (c.p 8 8) 64) = false ∧ bitOf c.flags 3 = true ∧ (deferred s).length < 16) →
    exec (.selfTestArrayBist q seq failing) s = .next (ringMod c.jidx (fun d => { d with waitFrom := some s.clk.ltc }) s)) ∧
  (∀ (q : Fin 512) (seq failing : Nat) (s : State) (c : Cmd),
    (waitingCmd s q seq = some c ∧ c.opcode = 0x700 ∧ testReady s (c.p 0 1) (testList c) = true) →
    (s.dev.safe = false ∧ zenithRuns s = true ∧ s.fc.rstChip = false) →
    exec (.deferredTestStart q seq failing) s = .next (finish c stSuccess (natLe 8 (listMask ((testList c).filter (bitOf failing)))) (runTest (c.p 0 1) (testList c) failing s))) ∧
  (∀ (q : Fin 512) (seq : Nat) (s : State) (c : Cmd) (t : Nat),
    (waitingCmd s q seq = some c ∧ c.waitFrom = some t ∧ t + 360000000000 ≤ s.clk.ltc) →
    (s.dev.safe = false ∧ zenithRuns s = true) →
    exec (.deferTimeout q seq) s = .next (refuse c stBusy s)) ∧
  (∀ (q : Fin 512) (seq : Nat) (s : State) (c : Cmd),
    (hostRuns s q seq 0x701 false [(0, 1), (8, 8)] c) →
    (c.p 0 1 = 0 ∧ c.p 8 8 = 0) →
    exec (.calibrateThermal q seq) s = .next (finish c stSuccess (natLe 8 0) s)) ∧
  (∀ (q : Fin 512) (seq : Nat) (s : State) (c : Cmd) (l : List Nat),
    (hostRuns s q seq 0x701 false [(0, 1), (8, 8)] c) →
    (c.p 0 1 = 1 ∧ c.p 8 8 < 256 ∧ l = maskList (c.p 8 8) 8) →
    (bitOf c.flags 3 = false ∨ l.all (fun u => !(calParts s 1 u).any (partStep s)) = true) →
    exec (.calibrateHbmPhy q seq) s = .next (finish c stSuccess (natLe 8 (c.p 8 8)) (l.foldl (fun s u => (List.range 32).foldl (fun s i => { s with near := { s.near with calibrated := mapSet 0 s.near.calibrated (32 * u + i) s.clk.ltc } }) s) s))) ∧
  (∀ (q : Fin 512) (seq : Nat) (s : State) (c : Cmd),
    (hostRuns s q seq 0x701 false [(0, 1), (8, 8)] c) →
    (c.p 0 1 = 2 ∧ c.p 8 8 < 2 ^ 22) →
    (bitOf c.flags 3 = false ∨ (maskList (c.p 8 8) 22).all (fun u => !(calParts s 2 u).any (partStep s)) = true) →
    exec (.calibrateSpeed q seq) s = .next (finish c stSuccess (natLe 8 (c.p 8 8)) s)) ∧
  (∀ (q : Fin 512) (seq : Nat) (s : State) (c : Cmd) (l : List Nat) (set : Nat),
    (startable s q seq 0x702 = some c ∧ c.rest0 [(0, 5), (8, 8), (16, 4)] = true ∧ c.p 4 1 ≤ 1) →
    (set = c.p 0 2 ∧ 1 ≤ set ∧ set ≤ 0x0B ∧ l ≠ []) →
    (l = if c.p 2 2 = 0xFFFF then setInstances s c.ctx set else (setInstances s c.ctx set).filter (fun i => decide (i = c.p 2 2))) →
    (if set = 8 ∨ set = 9 ∨ set = 10 then ctxExists s c.ctx = true else c.ctx = 0) →
    (linkUp s c.port = true) →
    exec (.readCounters q seq) s = .next (finish c stSuccess (natLe 4 ((l.flatMap (setBytes s c.ctx set)).take (c.p 16 4)).length ++ natLe 4 0 ++ natLe 8 s.clk.ltc) (if c.bit 4 0 then l.foldl (fun s i => setClear c.ctx set i s) (hostWrite c.port (c.p 8 8) ((l.flatMap (setBytes s c.ctx set)).take (c.p 16 4)) s) else hostWrite c.port (c.p 8 8) ((l.flatMap (setBytes s c.ctx set)).take (c.p 16 4)) s)))

/-- Reads of BAR0 and of the configuration space return what the spec says they hold. On a port whose link is up and has trained, a naturally aligned read of DEV_STATUS, HEARTBEAT, FAULT_SUMMARY or a fault window returns its current value, in safe state too (R361), from the shadow that Zenith wrote last where PD_ON stalls (R401); outside it and before stage 0xE the other RO and RW registers return theirs, and the doorbells, which are WO, and reserved offsets read as 0; a read that is not naturally aligned is not answered. An ADMIN_SQ_BASE or ADMIN_CQ_BASE written while ENABLE is 0 reads back as written (R336). A port that is in no reset answers configuration reads in every state of the device with its identity and BAR0 (T12.1), where the PCI standard's header puts them and with the vendor id free (log 87). No row of the table is a read. (R6; R332; R333; R334; R336; R361; R401; 12_host_command_interface T12.1; 12_host_command_interface T12.2) -/
def Obligations.RegisterReadsAnswer : Prop :=
  (∀ (s : State) (p : Fin 2), s.host.trained.getLsbD p = true → linkUp s p = true →
  registerRead s p 0x00 true = some (BitVec.ofNat 64 (if zenithRuns s then devStatus s p else if p = 0 then s.host.shadow.1 else s.host.shadow.2.1)) ∧
  registerRead s p 0x08 true = some (BitVec.ofNat 64 s.clk.shadow) ∧
  registerRead s p 0x10 true = some (BitVec.ofNat 64 (if zenithRuns s then faultSummary s else s.host.shadow.2.2)) ∧
  (s.dev.safe = false → s.dev.stage < 0xE → registerRead s p 0x20 true = some (BitVec.ofNat 64 (mapGet 0 s.host.asq p)) ∧
  registerRead s p 0x28 true = some (BitVec.ofNat 64 (mapGet 0 s.host.acq p)) ∧
  registerRead s p 0x30 false = some (0#32 ++ adminCfg s p)) ∧
  (∀ w < 128, registerRead s p (0x4000 + 4 * w) false = some (0#32 ++ s.fc.sticky.extractLsb' (32 * w) 32)) ∧
  (s.dev.safe = false → s.dev.stage < 0xE → ∀ off, off % 4 = 0 → (0x18 ≤ off ∧ off < 0x20 ∨ 0x34 ≤ off ∧ off < 0x2000 ∨ 0x3008 ≤ off ∧ off < 0x4000 ∨ 0x4600 ≤ off ∧ off < 65536) →
    registerRead s p off false = some 0#64) ∧
  (s.dev.safe = true → ∀ off wide, 0x4600 ≤ off → registerRead s p off wide = none) ∧
  (∀ off, off % 4 ≠ 0 → registerRead s p off false = none) ∧ (∀ off, off % 8 ≠ 0 → registerRead s p off true = none)) ∧
(∀ (s : State) (p : Fin 2) (v : BitVec 64), s.host.trained.getLsbD p = true → linkUp s p = true → zenithRuns s = true → s.dev.safe = false → s.dev.stage < 0xE →
  (adminCfg s p).getLsbD 31 = false →
  (∃ t, exec (.registerWrite p 0x20 true v) s = .next t ∧ registerRead t p 0x20 true = some v) ∧
  (∃ t, exec (.registerWrite p 0x28 true v) s = .next t ∧ registerRead t p 0x28 true = some v)) ∧
(∀ (s : State) (p : Fin 2), s.sup.domains.getLsbD 29 = true → bitOf s.sup.perst.toNat p = true → linkUp s p = true →
  configRead s p 0x00 = some (0x9600#16 ++ Config.vendorId) ∧ configRead s p 0x08 = some 0x120000B0#32 ∧
  configRead s p 0x10 = some ((mapGet {} s.host.cfg p).bar0.extractLsb' 0 32 &&& 0xFFFF0000#32 ||| 4#32) ∧
  configRead s p 0x14 = some ((mapGet {} s.host.cfg p).bar0.extractLsb' 32 32))

/-- A fault message takes the action of its severity, and the commands on the collector have their effects. A fault message from a region that runs, over a network that runs, reaches the collector; another one waits (R40, R390). One that arrives leaves the network and sets its sticky bit; one with bad parity sets only MSG_PARITY. Severity LOG does no more, NOTIFY records it, CONTAIN also contains, SAFE enters the safe state. A parity error in a collector register and a trip comparator enter the safe state. FAULT_READ, FAULT_CLEAR and ESCALATION_SET have their effects. (R40; R390; R391; R392; R395; R398; R399; R400; R403; R404; R417; R421) -/
def Obligations.CollectorCommandsRun : Prop :=
  (∀ (msg : BitVec 67) (s : State),
    (networkRuns s = true ∧ parityOk msg = false) →
    exec (.faultMessage msg) s = .next (takeMessage 0x006 0 0 (arriveNow msg s))) ∧
  (∀ (msg : BitVec 67) (s : State) (n : Nat),
    (messageRuns s n = true ∧ parityOk msg = true ∧ n = msgSource msg ∧ sourceKnown n = true ∧ n ≠ 0x003) →
    (s.dev.safe = true ∨ sevOf s n = 0) →
    exec (.faultMessage msg) s = .next (setSticky n (arriveNow msg s))) ∧
  (∀ (msg : BitVec 67) (s : State) (n : Nat),
    (messageRuns s n = true ∧ parityOk msg = true ∧ n = msgSource msg ∧ sourceKnown n = true ∧ n ≠ 0x003) →
    (s.dev.safe = false ∧ s.fc.service = true ∧ sevOf s n = 1) →
    exec (.faultMessage msg) s = .next (record n (kindTaken n (msgKind msg)) 1 (msgAddr msg) (signalBoth (setSticky n (arriveNow msg s))))) ∧
  (∀ (msg : BitVec 67) (s : State) (n : Nat),
    (messageRuns s n = true ∧ parityOk msg = true ∧ n = msgSource msg ∧ sourceKnown n = true ∧ n ≠ 0x003) →
    (s.dev.safe = false ∧ s.fc.service = true ∧ sevOf s n = 2) →
    exec (.faultMessage msg) s = .next (contain n (kindTaken n (msgKind msg)) (msgAddr msg) (record n (kindTaken n (msgKind msg)) 2 (msgAddr msg) (signalBoth (setSticky n (arriveNow msg s)))))) ∧
  (∀ (msg : BitVec 67) (s : State) (n : Nat),
    (messageRuns s n = true ∧ parityOk msg = true ∧ n = msgSource msg ∧ sourceKnown n = true ∧ n ≠ 0x003) →
    (s.dev.safe = false ∧ sevOf s n = 3) →
    exec (.faultMessage msg) s = .next (enterSafe (setSticky n (arriveNow msg s)))) ∧
  (∀ (msg : BitVec 67) (s t : State),
    (messageRuns s 0x003 = true ∧ parityOk msg = true ∧ msgSource msg = 0x003 ∧ sevOf s 0x003 = 3 ∧ s.dev.safe = false) →
    (t = setSticky 0x003 (arriveNow msg s)) →
    exec (.faultMessage msg) s = .next (enterSafe { t with fc := { t.fc with thermtrip := true } })) ∧
  (∀ (msg : BitVec 67) (s : State),
    (parityOk msg = true ∧ sourceKnown (msgSource msg) = true ∧ messageRuns s (msgSource msg) = false ∧ s.fc.net.any (fun m => msgSource m = msgSource msg) = false ∧ s.fc.transit.contains msg = false) →
    exec (.faultMessage msg) s = .next { s with fc := { s.fc with net := s.fc.net ++ [msg] } }) ∧
  (∀ (word : Nat) (s : State),
    (zenithRuns s = true ∧ word < 65536) →
    exec (.fcParityError word) s = .next (enterSafe (setSticky 0x005 s))) ∧
  (∀ (word i : Nat) (s : State),
    (zenithRuns s = true ∧ word = 65536 + i ∧ i < s.fc.ring.length) →
    exec (.fcParityError word) s = .next { s with fc := { s.fc with ring := s.fc.ring.take i ++ s.fc.ring.drop (i + 1), lost := min (s.fc.lost + 1) (2 ^ 64 - 1) } }) ∧
  (∀ (sensor : Fin 128) (s : State),
    (zenithRuns s = true ∧ s.clk.failed.contains sensor.val = false) →
    exec (.thermtrip sensor) s = .next (raise 0x003 0 sensor (enterSafe { s with sup := { s.sup with thermtripLow := true } }))) ∧
  (∀ (q : Fin 512) (seq : Nat) (s : State) (c : Cmd),
    (hostRuns s q seq 0x703 false [(8, 8), (16, 4)] c) →
    exec (.faultRead q seq) s = .next (finish c stSuccess (natLe 2 (stickyList s).length) (hostWrite c.port (c.p 8 8) ((faultLayout s).take (c.p 16 4)) s))) ∧
  (∀ (q : Fin 512) (seq : Nat) (s : State) (c : Cmd) (gone : List Nat),
    (hostRuns s q seq 0x704 false [(0, 2)] c) →
    (c.p 0 2 = 0xFFFF ∨ sourceKnown (c.p 0 2) = true) →
    (gone = (stickyList s).filter (fun m => m ≠ 0x005 && (c.p 0 2 = 0xFFFF || m = c.p 0 2))) →
    exec (.faultClear q seq) s = .next (finish c stSuccess (natLe 2 gone.length) { s with fc := { s.fc with sticky := gone.foldl (fun b m => b &&& ~~~(BitVec.ofNat 4096 (2 ^ m))) s.fc.sticky } })) ∧
  (∀ (q : Fin 512) (seq : Nat) (s : State) (c : Cmd),
    (hostRuns s q seq 0x705 false [(0, 8)] c) →
    (c.p 0 1 = 0 ∧ c.p 1 1 ≤ 1 ∧ 1 ≤ c.p 2 2 ∧ c.p 2 2 ≤ 16 ∧ 1 ≤ c.p 4 4 ∧ c.p 4 4 ≤ 86400) →
    exec (.escalationSet q seq) s = .next (finish c stSuccess [] { s with fc := { s.fc with window := decide (c.p 1 1 = 1), escN := c.p 2 2, escWindow := c.p 4 4 } })) ∧
  (∀ (q : Fin 512) (seq : Nat) (s : State) (c : Cmd),
    (hostRuns s q seq 0x705 false [(0, 8)] c) →
    (c.p 0 1 = 1 ∧ s.dev.retired = true ∧ s.trust.cycled = true) →
    exec (.escalationReturn q seq) s = .next (finish c stSuccess [] { s with dev := { s.dev with retired := false }, trust := { s.trust with retired := false, cycled := false }, fc := { s.fc with history := [] } }))

/-- The speed, temperature, time and heartbeat monitors answer their events. SPEED_MEASURE takes the rate of the slowest powered region; each pair of domains is compared for temperature; TIMEREF lost and returned switch the counter. The heartbeat advances once every core has looped and 1 ms has passed; it is reported missing after 10 ms without an advance; 1 s more brings a chip reset; a power-cycle request is repeated. (R39; R41; R44; R46; R406; R407; R408; R414) -/
def Obligations.MonitorEventsRun : Prop :=
  (∀ (mhz : List Nat) (s : State) (g : Nat) (l : List Nat) (low : Nat),
    (maintains s = true ∧ g :: l = (List.range 16).filter (fun g => s.sup.domains.getLsbD (2 + g) && decide (g < mhz.length))) →
    (low = l.foldl (fun b i => if mhz.getD i 0 < mhz.getD b 0 then i else b) g) →
    exec (.speedMeasure mhz) s = .next { s with clk := { s.clk with beatLive := mhz.getD low 0 % 4096, liveRegion := low }, sup := { s.sup with unheard := false } }) ∧
  (∀ (mhz : List Nat) (s : State),
    (maintains s = true ∧ (List.range 16).any (fun g => s.sup.domains.getLsbD (2 + g)) = false) →
    exec (.speedMeasure mhz) s = .next { s with sup := { s.sup with unheard := false } }) ∧
  (∀ (s : State),
    (maintains s = true) →
    exec .thermalGradientCheck s = .next (tempPairs.foldl checkPair s)) ∧
  (∀ (s : State),
    (s.sup.timeref = true ∧ zenithRuns s = true ∧ s.clk.internal = false) →
    exec .timerefLoss s = .next (raise 0x001 0 s.clk.ltc { s with sup := { s.sup with timeref := false }, clk := { s.clk with internal := true, degraded := true } })) ∧
  (∀ (s : State),
    (s.sup.timeref = true ∧ zenithRuns s = false) →
    exec .timerefLoss s = .next { s with sup := { s.sup with timeref := false } }) ∧
  (∀ (s : State),
    exec .timerefReturn s = .next { s with sup := { s.sup with timeref := true }, clk := { s.clk with internal := false } }) ∧
  (∀ (s : State),
    (zenithRuns s = true ∧ s.fc.service = true ∧ s.clk.lastBeat + 100000 ≤ s.clk.ltc) →
    exec (.heartbeatAdvance 0xF#4) s = .next { s with clk := { s.clk with beat := (s.clk.beat + 1) % 2 ^ 64, shadow := (s.clk.beat + 1) % 2 ^ 64, lastBeat := s.clk.ltc, beatRaised := false, armed := true } }) ∧
  (∀ (s : State),
    (zenithRuns s = true ∧ s.clk.armed = true ∧ 1000000 ≤ s.clk.ltc - s.clk.lastBeat ∧ s.clk.beatRaised = false) →
    exec .heartbeatTimeout s = .next (raise 0x000 0 s.clk.beat { s with clk := { s.clk with beatRaised := true } })) ∧
  (∀ (s : State),
    (zenithRuns s = true ∧ s.clk.armed = true ∧ 101000000 ≤ s.clk.ltc - s.clk.lastBeat ∧ s.clk.beatRaised = true) →
    (s.dev.safe = false ∧ s.dev.retired = false ∧ s.fc.window = false) →
    exec .watchdogChipReset s = .next (noteReset ⟨.chip, 0, none⟩ { s with clk := { s.clk with armed := false }, fc := { s.fc with rstChip := true, rstRods := [], rstParts := [] } })) ∧
  (∀ (s : State),
    (zenithRuns s = true ∧ s.clk.armed = true ∧ 101000000 ≤ s.clk.ltc - s.clk.lastBeat ∧ s.clk.beatRaised = true) →
    (s.dev.safe = false ∧ s.dev.retired = false ∧ s.fc.window = true ∧ s.fc.escN ≤ counted s + 1) →
    exec .watchdogChipReset s = .next (retire s)) ∧
  (∀ (s : State),
    (s.fc.cycleReq = true ∧ s.sup.pwrEn = true ∧ zenithRuns s = true ∧ s.fc.cycleAt + 100000000 ≤ s.clk.ltc) →
    exec .powerCycleRepeat s = .next { s with fc := { s.fc with cycleAt := s.clk.ltc }, side := { s.side with sent := s.side.sent ++ [0x82] } })

/-- A reset that is decided is carried out: a rod, a partition, the chip; the commands that waited for it are replayed. A decided engine reset stops the launches of its rod and clears it; a partition reset stops its contexts and resets its units; a chip reset ends with the registers at the values of start-up's step 4 and with PD_ON and the HBM side domains on. REPLAY lets the commands that waited start, control commands first. (R383; R409; R411; R412; R413) -/
def Obligations.ResetEventsRun : Prop :=
  (∀ (rod : Fin 64) (s : State),
    (s.fc.rstRods.contains rod.val = true ∧ zenithRuns s = true ∧ s.dev.safe = false) →
    exec (.engineReset rod) s = .next (engineReset rod s)) ∧
  (∀ (part : Fin 8) (s : State),
    (s.fc.rstParts.contains part.val = true ∧ zenithRuns s = true ∧ s.dev.safe = false) →
    exec (.partitionReset part) s = .next (partitionReset part none s)) ∧
  (∀ (unread : BitVec 4) (s : State),
    (s.fc.rstChip = true ∧ zenithRuns s = true ∧ s.sup.power = .on ∧ s.sup.pwrEn = true ∧ s.dev.bootStep ≠ 2 ∧ s.sup.thermtripLow = false ∧ s.trust.testHold = false) →
    exec (.chipReset unread) s = .next (chipReset (maskList unread.toNat 4) s)) ∧
  (∀ (s : State),
    (s.jr.due ≠ [] ∧ zenithRuns s = true ∧ s.dev.ready = true ∧ s.dev.safe = false ∧ s.fc.rstChip = false) →
    exec .replay s = .next { s with jr := { s.jr with due := [], first := (s.jr.ring.filter (fun d => s.jr.due.contains d.jidx && control d.opcode && d.done.isNone)).map (fun d => d.jidx) } })

/-- PWR_EN rising starts the device, at once or when the input and the 100 ms allow it. PWR_EN rising samples the straps. With the package off and the 100 ms of low time over, conversion starts, or waits where VIN52 is below 43 V (R480); else the rise is acted on when the 100 ms are over (R481). A level of VIN52 that reaches 43 V starts conversion that waited. The end of soft start powers PD_ON. PWR_EN rising while it is high is no event. (R474; R480; R481; R482) -/
def Obligations.PowerOnRuns : Prop :=
  (∀ (strap : BitVec 4) (pairSel : Bool) (s t : State),
    (s.sup.pwrEn = false ∧ s.sup.power = .off ∧ s.sup.lowOver = true) →
    (t = { s with sup := { s.sup with pwrEn := true, strapPins := strap, pairPin := pairSel, riseWait := false } }) →
    exec (.pwrEnRise strap pairSel) s = .next (if s.sup.vin52 < 43000 then { t with sup := { t.sup with power := .waitInput } } else { t with sup := { t.sup with power := .softStart }, dev := { s.dev with bootStep := 1, stage := 0, cold := true } })) ∧
  (∀ (strap : BitVec 4) (pairSel : Bool) (s : State),
    (s.sup.pwrEn = false ∧ (s.sup.power ≠ .off ∨ s.sup.lowOver = false)) →
    exec (.pwrEnRise strap pairSel) s = .next { s with sup := { s.sup with pwrEn := true, strapPins := strap, pairPin := pairSel, riseWait := true } }) ∧
  (∀ (s : State),
    (s.sup.power = .off ∧ s.sup.lowOver = false ∧ (s.sup.riseWait = false ∨ s.sup.pwrEn = false)) →
    exec .pwrEnLowTimeEnd s = .next { s with sup := { s.sup with lowOver := true } }) ∧
  (∀ (s t : State),
    (s.sup.power = .off ∧ s.sup.lowOver = false ∧ s.sup.riseWait = true ∧ s.sup.pwrEn = true) →
    (t = { s with sup := { s.sup with lowOver := true, riseWait := false } }) →
    exec .pwrEnLowTimeEnd s = .next (if s.sup.vin52 < 43000 then { t with sup := { t.sup with power := .waitInput } } else { t with sup := { t.sup with power := .softStart }, dev := { s.dev with bootStep := 1, stage := 0, cold := true } })) ∧
  (∀ (s : State),
    (s.sup.power = .softStart) →
    exec .softStartDone s = .next { s with sup := { s.sup with power := .on, domains := s.sup.domains ||| 1#30 }, dev := { s.dev with bootStep := 2, stage := 1 } }) ∧
  (∀ (mv : Nat) (s : State),
    (mv ≤ 62000 ∧ s.sup.vin52 < mv ∧ 40000 ≤ s.sup.vin52 ∧ (s.sup.power ≠ .waitInput ∨ mv < 43000)) →
    exec (.vin52Rise mv) s = .next { s with sup := { s.sup with vin52 := mv } }) ∧
  (∀ (mv : Nat) (s : State),
    (mv ≤ 62000 ∧ s.sup.vin52 < mv ∧ s.sup.vin52 < 40000 ∧ (s.sup.power ≠ .waitInput ∨ mv < 43000)) →
    exec (.vin52Rise mv) s = .next (runAgain (zenithRuns s) { s with sup := { s.sup with vin52 := mv } })) ∧
  (∀ (mv : Nat) (s : State),
    (mv ≤ 62000 ∧ s.sup.vin52 < mv ∧ s.sup.power = .waitInput ∧ 43000 ≤ mv) →
    exec (.vin52Rise mv) s = .next { s with sup := { s.sup with vin52 := mv, power := .softStart, riseWait := false }, dev := { s.dev with bootStep := 1, stage := 0, cold := true } })

/-- PWR_EN falling and a loss of VIN52 take the power away. PWR_EN falling starts the safe state where PD_ON runs, and abandons a chip reset or a start-up (R481, R483); the sideband is silent. The stop of conversion, and VIN52 lost, take every domain: what stays is the pins, host memory, the root of trust's own array and firmware slots, and what the flash has committed (R206, R434, R441); after a loss with PWR_EN high the package stays off until it falls and rises (R482). That a lost VIN52 reads 0 is the model's (log 3). (R206; R481; R482; R483) -/
def Obligations.PowerOffRuns : Prop :=
  (∀ (s t : State),
    (s.sup.pwrEn = true ∧ (s.sup.power = .on ∨ s.sup.power = .softStart ∨ s.sup.power = .holdOff)) →
    (t = if zenithRuns s then enterSafe s else s) →
    exec .pwrEnFall s = .next { t with sup := { t.sup with pwrEn := false, lowOver := false, riseWait := false, power := .holdOff }, side := { t.side with sent := s.side.sent }, fc := { t.fc with rstChip := false }, dev := { t.dev with bootStep := 0, ready := false } }) ∧
  (∀ (s : State),
    (s.sup.power = .holdOff) →
    exec .conversionStop s = .next { sup := { pwrEn := s.sup.pwrEn, perst := s.sup.perst, strapPins := s.sup.strapPins, pairPin := s.sup.pairPin, vin52 := s.sup.vin52, lowOver := s.sup.lowOver, riseWait := s.sup.riseWait, timeref := s.sup.timeref, zlRefclk := s.sup.zlRefclk, power := .off }, trust := { fw := s.trust.fw, cfg := s.trust.cfg, cfgNewest := s.trust.cfgNewest, charRec := s.trust.charRec, minSvn := s.trust.minSvn, revoked := s.trust.revoked, preferred := s.trust.preferred, attempts := s.trust.attempts, staging := s.trust.staging, staged := s.trust.staged, stagedLast := s.trust.stagedLast, leaf := s.trust.leaf, signatures := s.trust.signatures, certs := s.trust.certs, serial := s.trust.serial, retired := s.trust.retired, cycled := s.trust.retired }, dev := { prevBoot := s.dev.prevBoot }, host := { memA := s.host.memA, memB := s.host.memB }, deep := { s.deep.restart with poisoned := badTiles s }, flushed := s.flushed, free := s.free, pending := s.pending }) ∧
  (∀ (s : State),
    exec .vin52Loss s = .next { sup := { pwrEn := s.sup.pwrEn, perst := s.sup.perst, strapPins := s.sup.strapPins, pairPin := s.sup.pairPin, vin52 := 0, lowOver := s.sup.lowOver, riseWait := false, timeref := s.sup.timeref, zlRefclk := s.sup.zlRefclk, power := if s.sup.pwrEn then .lost else .off }, trust := { fw := s.trust.fw, cfg := s.trust.cfg, cfgNewest := s.trust.cfgNewest, charRec := s.trust.charRec, minSvn := s.trust.minSvn, revoked := s.trust.revoked, preferred := s.trust.preferred, attempts := s.trust.attempts, staging := s.trust.staging, staged := s.trust.staged, stagedLast := s.trust.stagedLast, leaf := s.trust.leaf, signatures := s.trust.signatures, certs := s.trust.certs, serial := s.trust.serial, retired := s.trust.retired, cycled := s.trust.retired }, dev := { prevBoot := s.dev.prevBoot }, host := { memA := s.host.memA, memB := s.host.memB }, deep := { s.deep.restart with poisoned := badTiles s }, flushed := s.flushed, free := s.free, pending := s.pending })

/-- A sag and its end move VIN52 and nothing else, but for what had stalled. A sag moves VIN52 below 40 V, and below the loss level the package loses power (T17.3); its end moves it back to 40 V or above: nothing is reported (R448). Where PD_ON ran before and nothing waits for a region, nothing else changes; requests that waited at a crossing are served where their region runs (R40); where PD_ON had stalled and runs again, the watchdog acts at once on the ticks counted meanwhile, TIMEREF is looked at and intake goes on (R407). Where PD_ON stops, PD_HP keeps what DEV_STATUS and FAULT_SUMMARY said last (R401). The levels at which a region stalls and at which the package loses power are the model's constants (Config.logicStopMv, Config.inputLossMv, log 3). (R40; R407; R448; R458) -/
def Obligations.SagsRun : Prop :=
  (∀ (mv : Nat) (s t : State),
    (Config.inputLossMv.val ≤ mv ∧ mv < 40000 ∧ t = { s with sup := { s.sup with vin52 := mv } }) →
    (zenithRuns s = true ∧ zenithRuns t = true ∧ s.crossing = [] ∧ s.zl.ports = []) →
    exec (.vin52Sag mv) s = .next t) ∧
  (∀ (mv : Nat) (s u : State),
    (mv < 40000 ∧ u = drainPorts (serveCrossings (keepShadow s { s with sup := { s.sup with vin52 := mv } }))) →
    exec (.vin52Sag mv) s = .next (if mv < Config.inputLossMv.val then { powerLost s with sup := { (powerLost s).sup with power := if s.sup.pwrEn then .lost else .off, riseWait := false, vin52 := mv } } else if zenithRuns s = true ∨ zenithRuns u = false then u else resumeIntake (watchdogCheck (beatCheck (noteTimeref u))))) ∧
  (∀ (mv : Nat) (s : State),
    (s.sup.vin52 < 40000 ∧ 40000 ≤ mv ∧ mv ≤ 62000 ∧ zenithRuns s = true ∧ s.crossing = [] ∧ s.zl.ports = []) →
    exec (.vin52SagEnd mv) s = .next { s with sup := { s.sup with vin52 := mv } }) ∧
  (∀ (mv : Nat) (s u : State),
    (s.sup.vin52 < 40000 ∧ 40000 ≤ mv ∧ mv ≤ 62000 ∧ u = drainPorts (serveCrossings { s with sup := { s.sup with vin52 := mv } })) →
    exec (.vin52SagEnd mv) s = .next (if zenithRuns s = true ∨ zenithRuns u = false then u else resumeIntake (watchdogCheck (beatCheck (noteTimeref u)))))

/-- The conversion dies, power limiting and the sensors answer their events. The conversion dies report overcurrent and overtemperature; a shutdown is a loss of power. POWER_READING lowers or raises the setpoints and the duty; SENSOR_READ takes readings, the thermal condition and the hot stacks. (R44; R170; R451; R455; R462; R463; R464; R482) -/
def Obligations.ConversionAndSensorsRun : Prop :=
  (∀ (die : Fin 2) (s : State),
    (converting s = true ∧ zenithRuns s = true) →
    exec (.convOvercurrent die) s = .next (raise (0xA80 + die) 0x0E 0 s)) ∧
  (∀ (die : Fin 2) (s : State),
    (converting s = true ∧ zenithRuns s = true) →
    exec (.convOvertemp die) s = .next (raise (0xA80 + die) 0x0F 0 s)) ∧
  (∀ (die : Fin 2) (s : State),
    (converting s = true) →
    exec (.convShutdown die) s = .next { powerLost s with sup := { (powerLost s).sup with power := if s.sup.pwrEn then .lost else .off, riseWait := false } }) ∧
  (∀ (mw : Nat) (s t : State) (u : Supply),
    (maintains s = true ∧ u = { s.sup with window := (mw :: s.sup.window).take 100, sinceLower := min 100 (s.sup.sinceLower + 1) }) →
    (t = { s with sup := if u.unheard then u else if 1000 * s.dev.powerLimit < mw || u.thermal then lowerStep u else if roomToRaise u s.dev.powerLimit && u.sinceLower = 100 then raiseStep u else u }) →
    exec (.powerReading mw) s = .next (if t.sup.fabMv = s.sup.fabMv ∧ t.sup.coreMv = s.sup.coreMv then t else drainPorts (serveCrossings t))) ∧
  (∀ (l : List SensorReading) (s t : State),
    (zenithRuns s = true) →
    (t = [0, 1].foldl (fun s n => if l.any (fun r => r.sensor / 2 = 59 + n) then caseTemp n (caseReading s n) s else s) (l.foldl (fun s r => readSensor r s) s)) →
    exec (.sensorRead l) s = .next { t with sup := { t.sup with thermal := thermalNow t }, clk := { t.clk with hotStacks := hotNow t } })

/-- Start-up goes through its steps to READY, or ends in stage 0xE or 0xF. The root of trust's self-test samples the straps and starts the counter from 0; the boot ROM counts an attempt and boots from the slot that verifies, else start-up ends in stage 0xE; the first stage starts heartbeat and fault service, verifies the bundle's components, measures and draws the boot id; the configuration is applied whole; the stacks are trained, three failures ending in stage 0xF; the firmware area is prepared; READY rises. (R45; R420; R428; R431; R434; R435; R436; R437; R440; R376; R283; R405) -/
def Obligations.StartUpEventsRun : Prop :=
  (∀ (s t : State),
    (booting s 2 = true) →
    (t = noteTimeref { s with sup := { s.sup with strap := s.sup.strapPins, pairSel := s.sup.pairPin }, clk := { s.clk with ltc := 0, internal := false, degraded := false } }) →
    exec (.rotSelfTest true) s = .next { t with sup := { t.sup with domains := t.sup.domains ||| 0x30000000#30 }, dev := { t.dev with bootStep := 4, stage := 1 } }) ∧
  (∀ (s t : State),
    (booting s 2 = true) →
    (t = noteTimeref { s with sup := { s.sup with strap := s.sup.strapPins, pairSel := s.sup.pairPin }, clk := { s.clk with ltc := 0, internal := false, degraded := false } }) →
    exec (.rotSelfTest false) s = .next { t with sup := { t.sup with faultNLow := true }, dev := { t.dev with bootStep := 0, stage := 15 }, side := { t.side with sent := t.side.sent ++ [0x81] } }) ∧
  (∀ (s : State),
    (s.dev.bootStep = 10 ∧ zenithRuns s = true) →
    exec (.rotSelfTest false) s = .next (raise 0xB00 0 0x20 s)) ∧
  (∀ (s t u v : State) (i : Fin 2),
    (booting s 4 = true ∧ s.sup.timeref = true) →
    (t = countAttempt { s with sup := { s.sup with domains := s.sup.domains ||| 0x30000000#30 }, trust := { s.trust with actPending := false } }) →
    (i = t.trust.preferred ∧ v = readSlot i t ∧ u = readSlot (1 - i) (slotRefused i v)) →
    (slotOk v i = false ∧ slotOk u (1 - i) = false) →
    exec .bootRomLoad s = .next (stopStart 0xE (slotRefused (1 - i) u))) ∧
  (∀ (s t u v : State) (i : Fin 2),
    (booting s 4 = true ∧ s.sup.timeref = true) →
    (t = countAttempt { s with sup := { s.sup with domains := s.sup.domains ||| 0x30000000#30 }, trust := { s.trust with actPending := false } }) →
    (i = t.trust.preferred ∧ v = readSlot i t ∧ u = readSlot (1 - i) (slotRefused i v)) →
    exec .bootRomLoad s = .next (if slotOk v i then { v with trust := { v.trust with booted := some i }, dev := { v.dev with bootStep := 5, stage := 2 } } else if slotOk u (1 - i) then { u with trust := { u.trust with booted := some (1 - i) }, dev := { u.dev with bootStep := 5, stage := 2 } } else stopStart 0xE (slotRefused (1 - i) u))) ∧
  (∀ (s t u : State),
    (booting s 5 = true) →
    (t = { s with clk := { s.clk with beat := (s.clk.beat + 1) % 2 ^ 64, shadow := (s.clk.beat + 1) % 2 ^ 64, lastBeat := s.clk.ltc, beatRaised := false, armed := true }, fc := { s.fc with service := true }, dev := { s.dev with retired := s.trust.retired } }) →
    (u = takeChar (if (configImage t).isNone then raise 0xB00 0 0x3 t else t)) →
    exec .firstStageStart s = .next (if Config.componentsOk (imgBody (bootedImage t)) then toStep 6 (drawBootId { u with trust := { u.trust with measures := measureAll u } }) else componentsBad t)) ∧
  (∀ (mma rod : BitVec 64) (s t : State),
    (booting s 6 = true) →
    (t = applyImage s ∧ t.dev.retired = false) →
    exec (.configImageApply mma rod) s = .next (toStep 7 (linksStart { t with host := { t.host with mmaOut := mma, rodOut := rod }, sup := { t.sup with domains := t.sup.domains ||| 0x3FFFFFFF#30 } }))) ∧
  (∀ (mma rod : BitVec 64) (s t : State),
    (booting s 6 = true ∧ t = applyImage s ∧ t.dev.retired = true) →
    exec (.configImageApply mma rod) s = .next (toStep 7 (linksStart { t with dev := { t.dev with portEnable := 0#32 }, host := { t.host with mmaOut := mma, rodOut := rod }, sup := { t.sup with domains := t.sup.domains ||| 0x3FFFFFFF#30 } }))) ∧
  (∀ (s : State),
    (booting s 7 = true ∧ s.sup.zlRefclk = true ∧ (s.deep.mounted = true ∨ s.sup.timeref = true)) →
    exec (.memoryTraining none) s = .next (toStep 8 (mount true true s))) ∧
  (∀ (n : Fin 8) (s : State),
    (booting s 7 = true ∧ s.sup.zlRefclk = true) →
    exec (.memoryTraining (some n)) s = .next (stopStart 0xF (raise 0x007 0 (0x8100 + n) s))) ∧
  (∀ (s t u : State),
    (booting s 8 = true) →
    (t = takeKept s ∧ u = { t with jr := { t.jr with flushing := if s.dev.kept then t.jr.flushing else t.dev.journalFlush, lastCopy := t.clk.ltc } }) →
    exec .firmwareAreaPrepare s = .next { u with dev := { u.dev with bootStep := 9, stage := 6 }, flushed := if u.jr.flushing || u.jr.ring.any (fun c => c.flush) then some (u.flushed.getD (snapshot u)) else none }) ∧
  (∀ (s t : State),
    (booting s 9 = true ∧ t = policyEffect s) →
    exec .readyHigh s = .next (groupsOff { t with dev := { t.dev with ready := true, stage := 6, bootStep := 10, kept := true }, sup := { t.sup with faultNLow := false }, side := { t.side with sent := t.side.sent ++ [0x80] } }))

/-- Images are staged and activated, reports are signed, certificates read, and tokens refilled. FW_STAGE takes a chunk. FW_ACTIVATE puts an image that verifies into its slot, and a bundle activated at once notes the chip reset that follows once its DONE is on record; one that does not verify ends with AUTH_FAILED and empties the staging area. ATTEST takes a token, a leaf for an LMS signature, and writes the signed report. CERT_READ writes a chain. A token comes back each second, up to 8. (R431; R433; R434; R436; R438; R439; R441; R442; R443; R444) -/
def Obligations.TrustCommandsRun : Prop :=
  (∀ (q : Fin 512) (seq : Nat) (s t : State) (c : Cmd) (b : Bytes),
    (hostRuns s q seq 0x800 false [(0, 17)] c) →
    (c.p 4 4 ≤ 1048576 ∧ c.p 16 1 ≤ 1 ∧ s.trust.actPending = false ∧ c.p 0 4 ≤ s.trust.staged ∧ c.p 0 4 + c.p 4 4 ≤ 67108864) →
    (s.sup.timeref = true ∧ b = hostRead s c.port (c.p 8 8) (c.p 4 4)) →
    (t = writeRegion 0 (c.p 0 4 / 65536) ((c.p 0 4 % 65536 + b.length + 65535) / 65536) s) →
    exec (.fwStage q seq) s = .next (finish c stSuccess (natLe 4 (c.p 0 4 + c.p 4 4)) { t with trust := { t.trust with staging := memWrite (if c.p 0 4 = 0 then [] else t.trust.staging) (c.p 0 4) b, staged := c.p 0 4 + c.p 4 4, stagedLast := c.bit 16 0 } })) ∧
  (∀ (q : Fin 512) (seq : Nat) (s t : State) (c : Cmd) (b : Bytes),
    (hostRuns s q seq 0x801 false [(0, 1)] c) →
    (c.p 0 1 ≤ 1 ∧ s.trust.stagedLast = true ∧ s.sup.timeref = true ∧ b = stagedImage s) →
    (t = activate b (decide (c.p 0 1 = 1)) s) →
    exec (.fwActivate q seq) s = .next (if imageOk s 1 b || (imageOk s 2 b && serialOk s b && (startingState s b).isSome) then finish c stSuccess [] (if c.p 0 1 = 1 ∧ imgKind b = 1 then { t with trust := { t.trust with resetAfter := some c.jidx } } else t) else finish c stAuth [] { s with trust := { s.trust with staging := [], staged := 0, stagedLast := false } })) ∧
  (∀ (q : Fin 512) (seq : Nat) (s t : State) (c : Cmd) (body : Bytes),
    (hostRuns s q seq 0x802 false [(0, 33), (40, 8), (48, 4)] c) →
    (c.p 32 1 = 1 ∧ 2568 ≤ c.p 48 4 ∧ s.trust.tokens ≠ 0) →
    (t = useToken s ∧ body = attestBody t (c.bytes 0 32) 1 s.trust.leaf) →
    exec (.attest q seq) s = .next (finish c stSuccess (natLe 4 2568) (hostWrite c.port (c.p 40 8) (body ++ byteSlice (Config.ecdsaSign s.trust.signatures body) 0 96 ++ List.replicate 1776 0) (signed t)))) ∧
  (∀ (q : Fin 512) (seq : Nat) (s t : State) (c : Cmd) (body : Bytes),
    (hostRuns s q seq 0x802 false [(0, 33), (40, 8), (48, 4)] c) →
    (c.p 32 1 = 2 ∧ 2568 ≤ c.p 48 4 ∧ s.trust.tokens ≠ 0 ∧ s.trust.leaf < 1048576) →
    (t = useToken (useLeaf s) ∧ body = attestBody t (c.bytes 0 32) 2 s.trust.leaf) →
    exec (.attest q seq) s = .next (finish c stSuccess (natLe 4 2568) (hostWrite c.port (c.p 40 8) (body ++ List.replicate 96 0 ++ byteSlice (Config.lmsSign s.trust.leaf body) 0 1776) t))) ∧
  (∀ (q : Fin 512) (seq : Nat) (s t : State) (c : Cmd) (body : Bytes),
    (hostRuns s q seq 0x802 false [(0, 33), (40, 8), (48, 4)] c) →
    (c.p 32 1 = 3 ∧ 2568 ≤ c.p 48 4 ∧ s.trust.tokens ≠ 0 ∧ s.trust.leaf < 1048576) →
    (t = useToken (useLeaf s) ∧ body = attestBody t (c.bytes 0 32) 3 s.trust.leaf) →
    exec (.attest q seq) s = .next (finish c stSuccess (natLe 4 2568) (hostWrite c.port (c.p 40 8) (body ++ byteSlice (Config.ecdsaSign s.trust.signatures body) 0 96 ++ byteSlice (Config.lmsSign s.trust.leaf body) 0 1776) (signed t)))) ∧
  (∀ (q : Fin 512) (seq : Nat) (s : State) (c : Cmd) (b : Bytes),
    (hostRuns s q seq 0x803 false [(0, 1), (8, 8), (16, 4)] c) →
    (c.p 0 1 ≤ 1 ∧ b = (mapGet [] s.trust.certs (c.p 0 1)).take (c.p 16 4)) →
    exec (.certRead q seq) s = .next (finish c stSuccess (natLe 4 b.length) (hostWrite c.port (c.p 8 8) b s))) ∧
  (∀ (s : State),
    (zenithRuns s = true ∧ s.trust.lastRefill + 100000000 ≤ s.clk.ltc) →
    exec .tokenRefill s = .next { s with trust := { s.trust with tokens := min 8 (s.trust.tokens + 1), lastRefill := s.clk.ltc } })

/-- The SPDM responders answer in the order of the negotiation, and signed answers take a token and a leaf. A request that reaches a responder that is not busy is answered: discovery and version at any time, capabilities after the version, algorithms after the capabilities, and then digests, certificates, challenges and measurements. What must come first and did not is answered with an error; so is a request of another code. Each exchange enters the transcript; a signed answer takes a token, and a leaf while leaves remain, and signs the hash of the transcript and its own exchange (R445; its composition is log 16's). Which error answers, and the bytes of the standards, are the model's constants (log 16). (R445; R446; R444; R442) -/
def Obligations.AttestationRequestsRun : Prop :=
  (∀ (box : Fin 3) (i : Nat) (s : State),
    (box ≠ 2 ∧ boxReached s box = true ∧ boxBusy s box = false) →
    exec (.doeDiscovery box i) s = .next (answer (Config.standardReply 0x600 [BitVec.ofNat 8 i]) s)) ∧
  (∀ (box : Fin 3) (s : State),
    (boxReached s box = true ∧ boxBusy s box = false) →
    exec (.getVersion box) s = .next (let r := Config.standardReply 0x484 []; answer r (spdmSet box { version := true, vca := exchange 0x84 [] r } s))) ∧
  (∀ (box : Fin 3) (s : State) (x : Spdm),
    (boxReached s box = true ∧ boxBusy s box = false ∧ x = mapGet {} s.side.spdm box ∧ x.version = true) →
    exec (.getCapabilities box) s = .next (let r := Config.standardReply 0x4E1 []; answer r (spdmSet box { x with caps := true, algs := false, vca := x.vca ++ exchange 0xE1 [] r } s))) ∧
  (∀ (box : Fin 3) (s : State) (x : Spdm),
    (boxReached s box = true ∧ boxBusy s box = false ∧ x = mapGet {} s.side.spdm box ∧ x.caps = true) →
    exec (.negotiateAlgorithms box true true) s = .next (let r := Config.standardReply 0x4E3 []; answer r (spdmSet box { x with algs := true, vca := x.vca ++ exchange 0xE3 [] r } s))) ∧
  (∀ (box : Fin 3) (s : State) (x : Spdm),
    (boxReached s box = true ∧ boxBusy s box = false ∧ x = mapGet {} s.side.spdm box ∧ x.algs = true) →
    exec (.getDigests box) s = .next (let r := Config.standardReply 0x481 (Config.sha384 (mapGet [] s.trust.certs 0)); answer r (spdmSet box { x with certs := x.certs ++ exchange 0x81 [] r, meas := [] } s))) ∧
  (∀ (box : Fin 3) (s : State),
    (boxReached s box = true ∧ boxBusy s box = false ∧ (mapGet {} s.side.spdm box).algs = false) →
    exec (.getDigests box) s = .next (answer (Config.standardReply 0x702 []) s)) ∧
  (∀ (box : Fin 3) (off len : Nat) (s : State) (x : Spdm),
    (boxReached s box = true ∧ boxBusy s box = false ∧ x = mapGet {} s.side.spdm box ∧ x.algs = true) →
    (off < (mapGet [] s.trust.certs 0).length) →
    exec (.getCertificate box 0 off len) s = .next (let r := Config.standardReply 0x482 (((mapGet [] s.trust.certs 0).drop off).take len); answer r (spdmSet box { x with certs := x.certs ++ exchange 0x82 (natLe 1 0 ++ natLe 2 off ++ natLe 2 len) r, meas := [] } s))) ∧
  (∀ (box : Fin 3) (nonce : Bytes) (s t : State) (x : Spdm),
    (boxReached s box = true ∧ boxBusy s box = false ∧ x = mapGet {} s.side.spdm box ∧ x.algs = true) →
    (s.trust.tokens ≠ 0 ∧ s.trust.leaf < 1048576 ∧ t = useToken (useLeaf s)) →
    exec (.challenge box 0 nonce) s = .next (let b := Config.standardReply 0x483 (nonce ++ Config.sha384 (mapGet [] s.trust.certs 0) ++ measurements s); let h := Config.sha384 (x.vca ++ x.certs ++ Config.standardRequest 0x83 (natLe 1 0 ++ nonce) ++ b); answer (b ++ byteSlice (Config.lmsSign s.trust.leaf h) 0 1776 ++ byteSlice (Config.ecdsaSign t.trust.signatures h) 0 96) (signed (spdmSet box { x with certs := [], meas := [] } t)))) ∧
  (∀ (box : Fin 3) (i : Nat) (nonce : Bytes) (s : State) (x : Spdm),
    (boxReached s box = true ∧ boxBusy s box = false ∧ x = mapGet {} s.side.spdm box ∧ x.algs = true) →
    (1 ≤ i ∧ i ≤ 12) →
    exec (.getMeasurements box i false nonce) s = .next (let b := Config.standardReply 0x4E0 (BitVec.ofNat 8 i :: nonce ++ byteSlice (mapGet [] s.trust.measures i) 0 48); answer b (spdmSet box { x with meas := x.meas ++ Config.standardRequest 0xE0 (BitVec.ofNat 8 i :: natLe 1 0 ++ nonce) ++ b } s))) ∧
  (∀ (box : Fin 3) (nonce : Bytes) (s t : State) (x : Spdm),
    (boxReached s box = true ∧ boxBusy s box = false ∧ x = mapGet {} s.side.spdm box ∧ x.algs = true) →
    (s.trust.tokens ≠ 0 ∧ 1048576 ≤ s.trust.leaf ∧ t = useToken s) →
    exec (.getMeasurements box 0xFF true nonce) s = .next (let b := Config.standardReply 0x4E0 (0xFF#8 :: nonce ++ measurements s); let h := Config.sha384 (x.vca ++ x.meas ++ Config.standardRequest 0xE0 (0xFF#8 :: natLe 1 1 ++ nonce) ++ b); answer (b ++ [] ++ byteSlice (Config.ecdsaSign t.trust.signatures h) 0 96) (signed (spdmSet box { x with meas := [] } t)))) ∧
  (∀ (box : Fin 3) (code : Nat) (s : State),
    (boxReached s box = true ∧ boxBusy s box = false) →
    exec (.unsupportedRequest box code) s = .next (answer (Config.standardReply 0x701 []) s)) ∧
  (∀ (box : Fin 3) (s : State),
    (boxReached s box = true ∧ boxBusy s box = true) →
    exec (.getVersion box) s = .next (answer (Config.standardReply 0x700 []) s))

/-- The sideband's requests have their effects. GET_STATUS and FAULT_READ answer; RESET_CHIP decides a chip reset; RECOVERY_WRITE fills the buffer and RECOVERY_COMMIT takes a bundle that verifies; MCTP and PLDM requests are answered, in stage 0xE with INVALID_PARAM; an address is assigned once; a write is tried again. DEV_STATUS is as port A shows it, and the standards' answers are constants (logs 16, 38). (R416; R446; R475; R476) -/
def Obligations.SidebandRun : Prop :=
  (∀ (s : State),
    (sideServed s = true) →
    exec .sbGetStatus s = .next (answer (natLe 8 (devStatus s 0) ++ natLe 8 s.clk.beat ++ natLe 8 (faultSummary s)) s)) ∧
  (∀ (off : Nat) (s : State),
    (sideServed s = true) →
    exec (.sbFaultRead off) s = .next (answer (((faultLayout s).drop off).take 256) s)) ∧
  (∀ (s : State),
    (sideServed s = true ∧ s.sup.thermtripLow = false ∧ s.trust.testHold = false) →
    exec .resetChip s = .next { s with fc := { s.fc with rstChip := true, rstRods := [], rstParts := [] } }) ∧
  (∀ (off : Nat) (data : Bytes) (s : State),
    (sideServed s = true ∧ s.dev.stage = 0xE ∧ data.length ≤ 256 ∧ off + data.length ≤ 67108864) →
    exec (.recoveryWrite off data) s = .next (answer (natLe 2 stSuccess) { s with trust := { s.trust with recovery := memWrite s.trust.recovery off data } })) ∧
  (∀ (s t : State),
    (sideServed s = true ∧ s.dev.stage = 0xE ∧ s.sup.timeref = true ∧ t = writeSlot 0 (recoveryImage s) s) →
    exec .recoveryCommit s = .next (if imageOk s 1 (recoveryImage s) then answer (natLe 2 stSuccess) { t with trust := { t.trust with fw := mapSet [] t.trust.fw 0 (recoveryImage s), preferred := 0 }, fc := { t.fc with rstChip := true } } else answer (natLe 2 stAuth) s)) ∧
  (∀ (r : Bytes) (s : State),
    (sideServed s = true ∧ s.dev.stage ≠ 0xE) →
    exec (.mctpControl r) s = .next (answer (Config.standardReply 0x000 r) s)) ∧
  (∀ (n : Fin 128) (r : Bytes) (s : State),
    (sideServed s = true ∧ s.dev.stage ≠ 0xE) →
    exec (.pldmRequest (some n) r) s = .next (answer (Config.standardReply 0x100 (r ++ (natLe 1 n ++ natLe 2 (unsgn 16 (mapGet 0 s.clk.sensors n))))) s)) ∧
  (∀ (r : Bytes) (s : State),
    (sideServed s = true ∧ s.dev.stage ≠ 0xE) →
    exec (.pldmRequest none r) s = .next (answer (Config.standardReply 0x100 (r ++ (natLe 4 (s.sup.window.headD 0) ++ natLe 2 s.dev.powerLimit))) s)) ∧
  (∀ (r : Bytes) (s : State),
    (sideServed s = true ∧ s.dev.stage = 0xE) →
    exec (.mctpControl r) s = .next (answer (natLe 2 stParam) s)) ∧
  (∀ (n : Option (Fin 128)) (r : Bytes) (s : State),
    (sideServed s = true ∧ s.dev.stage = 0xE) →
    exec (.pldmRequest n r) s = .next (answer (natLe 2 stParam) s)) ∧
  (∀ (a d : Nat) (s : State),
    (sideServed s = true ∧ s.side.dynAddr = none ∧ d < 128) →
    (a = 0x58 + 2 * (s.sup.strap.toNat % 4) + (if s.sup.pairSel then 1 else 0)) →
    exec (.setdasa a d) s = .next { s with side := { s.side with dynAddr := some d } }) ∧
  (∀ (d : Nat) (s : State),
    (sideServed s = true ∧ s.side.dynAddr = none ∧ d < 128) →
    exec (.entdaa d) s = .next { s with side := { s.side with dynAddr := some d } }) ∧
  (∀ (s : State) (n : Nat),
    (sideServed s = true ∧ s.side.dynAddr = none ∧ n = s.side.sent.length ∧ n ≠ 0) →
    (s.side.retry.any (fun r => r.1 = n) = false) →
    exec .sbWriteRetry s = .next { s with side := { s.side with retry := some (n, 1) } }) ∧
  (∀ (s : State) (n k : Nat),
    (sideServed s = true ∧ s.side.dynAddr = none ∧ n = s.side.sent.length ∧ n ≠ 0) →
    (s.side.retry = some (n, k) ∧ k < 100) →
    exec .sbWriteRetry s = .next { s with side := { s.side with retry := some (n, k + 1) } })

/-- The test port's instructions have their effects. The test port loads its instruction; EXTEST, CLAMP and HIGHZ also hold start-up at step 2 or enter the safe state. (R477; R478) -/
def Obligations.TestPortRun : Prop :=
  (∀ (s : State),
    (zenithRuns s = true) →
    exec .bypass s = .next { s with trust := { s.trust with jtag := .bypass } }) ∧
  (∀ (s : State),
    (zenithRuns s = true) →
    exec .samplePreload s = .next { s with trust := { s.trust with jtag := .sample } }) ∧
  (∀ (s : State),
    (zenithRuns s = true) →
    exec .idcode s = .next { s with trust := { s.trust with jtag := .idcode }, side := { s.side with answer := natLe 4 0x196009CF } }) ∧
  (∀ (s : State),
    (zenithRuns s = true ∧ s.dev.bootStep ≠ 2) →
    exec .extest s = .next (enterSafe { s with trust := { s.trust with jtag := .extest, testHold := true } })) ∧
  (∀ (s : State),
    (zenithRuns s = true ∧ s.dev.bootStep = 2) →
    exec .extest s = .next { s with trust := { s.trust with jtag := .extest, testHold := true } }) ∧
  (∀ (s : State),
    (zenithRuns s = true ∧ s.dev.bootStep ≠ 2) →
    exec .clamp s = .next (enterSafe { s with trust := { s.trust with jtag := .clamp, testHold := true } })) ∧
  (∀ (s : State),
    (zenithRuns s = true ∧ s.dev.bootStep ≠ 2) →
    exec .highz s = .next (enterSafe { s with trust := { s.trust with jtag := .highz, testHold := true } }))

/-- The pair is bound, ended and reported, its copies are kept, and the journal flush region is written. PAIR_BIND starts a bind with the device at its mirror ports, which ends with NOT_READY after 10 s; UNBIND ends the pair. PAIR_STATUS and RESUME_POINT report. The next JOURNAL or STATE message of the partner on a mirror port enters the copy it belongs to. The open stripe is committed 100 ms after its first record; the control state is written again. (R374; R376; R377; R378; R379; R380; R381; R382; R290) -/
def Obligations.PairCommandsRun : Prop :=
  (∀ (q : Fin 512) (seq : Nat) (s : State) (c : Cmd) (d : Nat),
    (hostRuns s q seq 0x900 false [(0, 1), (2, 2)] c) →
    (c.p 0 1 = 0 ∧ d = c.p 2 2 ∧ s.dev.zlId ≠ none ∧ s.dev.zlId ≠ some d ∧ s.dev.journalFlush = false ∧ mirrorLeads s d = true) →
    (s.jr.pair = .unbound ∨ (s.jr.pair = .lost ∧ s.jr.partner = d)) →
    exec (.pairBind q seq) s = .next (askPair (startBind c.jidx d s))) ∧
  (∀ (q : Fin 512) (seq : Nat) (s : State) (c : Cmd) (d : Nat),
    (hostRuns s q seq 0x900 false [(0, 1), (2, 2)] c) →
    (c.p 0 1 = 0 ∧ d = c.p 2 2 ∧ s.dev.zlId ≠ none ∧ s.dev.zlId ≠ some d ∧ s.dev.journalFlush = false ∧ mirrorLeads s d = true) →
    (s.jr.pair = .bound ∧ s.jr.partner = d) →
    exec (.pairBind q seq) s = .next (finish c stSuccess [] s)) ∧
  (∀ (q : Fin 512) (seq : Nat) (s : State) (c : Cmd),
    (hostRuns s q seq 0x900 false [(0, 1), (2, 2)] c) →
    (c.p 0 1 = 1 ∧ (s.jr.pair = .bound ∨ (s.jr.pair = .lost ∧ partnerNear s = true)) ∧ c.p 2 2 = s.jr.partner) →
    exec (.pairUnbind q seq) s = .next (finish c stSuccess [] (unpair (sendMark s.jr.partner 6 s)))) ∧
  (∀ (q : Fin 512) (seq : Nat) (s : State) (c : Cmd),
    (hostRuns s q seq 0x900 false [(0, 1), (2, 2)] c) →
    (c.p 0 1 = 1 ∧ s.jr.pair = .lost ∧ partnerNear s = false ∧ c.p 2 2 = s.jr.partner) →
    exec (.pairUnbind q seq) s = .next (finish c stSuccess [] (unpair s))) ∧
  (∀ (q : Fin 512) (s : State) (c : Cmd) (t : Nat),
    (s.jr.bindCmd.bind (ringFind s) = some c ∧ c.queue = q.val ∧ s.jr.copySent = false ∧ s.jr.taking = false ∧ s.jr.taken = false) →
    (zenithRuns s = true ∧ s.dev.safe = false ∧ c.waitFrom = some t ∧ t + 1000000000 ≤ s.clk.ltc) →
    exec (.pairBindTimeout q c.seq) s = .next (mirrorHello (finish c stNotReady [] (unwait c s)))) ∧
  (∀ (q : Fin 512) (seq : Nat) (s : State) (c : Cmd),
    (hostRuns s q seq 0x901 false [] c) →
    (s.jr.pair = .lost) →
    exec (.pairStatus q seq) s = .next (finish c stSuccess (natLe 1 3 ++ natLe 1 0 ++ natLe 2 s.jr.partner ++ natLe 4 s.jr.unmirrored ++ natLe 8 s.jr.lastMirrored) s)) ∧
  (∀ (q : Fin 512) (seq : Nat) (s : State) (c : Cmd),
    (hostRuns s q seq 0x901 false [] c) →
    (s.jr.pair = .bound) →
    exec (.pairStatus q seq) s = .next (finish c stSuccess (natLe 1 2 ++ natLe 1 0 ++ natLe 2 s.jr.partner ++ natLe 4 s.jr.waiting.length ++ natLe 8 s.jr.lastMirrored) s)) ∧
  (∀ (q : Fin 512) (seq : Nat) (s : State) (c : Cmd),
    (hostRuns s q seq 0x902 false [(0, 2), (8, 8)] c) →
    (c.p 0 2 < 512) →
    exec (.resumePoint q seq) s = .next (finish c stSuccess (natLe 8 (lastAccepted s (c.p 0 2)) ++ natLe 8 (lastApplied s (c.p 0 2))) s)) ∧
  (∀ (q : Fin 512) (seq : Nat) (s : State) (c : Cmd),
    (hostRuns s q seq 0x902 false [(0, 2), (8, 8)] c) →
    (c.p 0 2 = 0xFFFF) →
    exec (.resumePoint q seq) s = .next (finish c stSuccess [] (hostWrite c.port (c.p 8 8) ((List.range 512).flatMap (resumeRecord s)) s))) ∧
  (∀ (h : MsgHdr) (l : List Bytes) (s : State),
    (msgTurn s h 0) →
    ((s.jr.pair = .bound ∨ s.jr.pair = .binding) ∧ h.src = s.jr.partner ∧ mirrorPort s h.port = true) →
    (s.jr.taking = false) →
    exec (.journalMsg h l) s = .next (ackNow h.src 0 h.mseq h.srcBoot false { s with jr := { s.jr with heldJournal := l.foldl holdCopy s.jr.heldJournal } })) ∧
  (∀ (h : MsgHdr) (l : List Bytes) (s : State),
    (msgTurn s h 0) →
    ((s.jr.pair = .bound ∨ s.jr.pair = .binding) ∧ h.src = s.jr.partner ∧ mirrorPort s h.port = true) →
    (s.jr.taking = true) →
    exec (.journalMsg h l) s = .next (ackNow h.src 0 h.mseq h.srcBoot false { s with jr := { s.jr with ownJournal := l.foldl holdCopy s.jr.ownJournal } })) ∧
  (∀ (h : MsgHdr) (r : Bytes) (s : State),
    (msgTurn s h 0) →
    ((s.jr.pair = .bound ∨ s.jr.pair = .binding) ∧ h.src = s.jr.partner ∧ mirrorPort s h.port = true) →
    exec (.mirrorState h r) s = .next (ackNow h.src 0 h.mseq h.srcBoot false (takeState r s))) ∧
  (∀ (s : State),
    (s.jr.stripe ≠ [] ∧ flashRuns s = true ∧ s.jr.stripeAt + 10000000 ≤ s.clk.ltc) →
    exec .journalStripeTimeout s = .next (resumeIntake (commitJournal s))) ∧
  (∀ (s : State),
    (s.dev.journalFlush = true ∧ flashRuns s = true) →
    exec .controlStateRewrite s = .next (flushStripe 458752 { s with flushed := some (s.flushed.getD (snapshot s)), jr := { s.jr with lastCopy := s.clk.ltc } }))

/-- A step runs the command at the front of the queue. Step of a state with a command at the front of its queue is exec of that command on that state with the queue's rest. The queue is the block model's form (log 2), not a rule of the spec. (12_host_command_interface) -/
def Obligations.StepRunsFrontCommand : Prop :=
  ∀ (c : Instr) (l : List Instr) (s : State), step { s with pending := c :: l } = exec c { s with pending := l }

/-- With no command waiting, a step is one tick of the local time counter (log 2). On an empty queue a step answers a next state. While PD_ON has power the local time counter advances by 1 (R45) and only the phase times of open steps change beside it; without power nothing changes. That an idle step stands for a tick is the model's choice (log 2). (R45; 02_timing_without_clock) -/
def Obligations.IdleStepIsOneTick : Prop :=
  (∀ s : State, s.pending = [] → s.sup.domains.getLsbD 0 = true →
  ∃ t, step s = .next t ∧ t.clk = { s.clk with ltc := s.clk.ltc + 1 } ∧ t = { s with clk := t.clk, ctxs := t.ctxs }) ∧
(∀ s : State, s.pending = [] → s.sup.domains.getLsbD 0 = false → step s = .next s)

/-- No command changes the queue of the commands that wait behind it. Whenever exec answers a next state, the queue of waiting commands is as it was: only step takes from it (log 2). (12_host_command_interface) -/
def Obligations.CommandsLeaveTheQueue : Prop :=
  ∀ (c : Instr) (s t : State), exec c s = .next t → t.pending = s.pending

/-- Every command answers a next state, but for an input voltage above the absolute maximum. Every command answers a next state in every state, except VIN52_RISE to more than 62,000 mV, beyond T17.3's absolute maximum, for which the spec gives no behaviour: it faults by name. (R448; 17_package_power_cooling T17.3) -/
def Obligations.OnlyOvervoltageStops : Prop :=
  (∀ (c : Instr) (s : State), (∀ mv, c = .vin52Rise mv → mv ≤ 62000) → ∃ t, exec c s = .next t) ∧
(∀ (mv : Nat) (s : State), 62000 < mv → exec (.vin52Rise mv) s = .fault .absoluteMaximum)

/-- What the spec gives the machine at reset. At reset: the package is off with every domain off; the local time counter, HEARTBEAT, FAULT_SUMMARY and the stage are 0; no sticky bit; severities at their defaults; escalation in ladder mode with N 3 and WINDOW 600 s; WV_LOG2 8 and WV_THRESH 6; POWER_LIMIT 2,000 W, setpoints 0.75 V and full duty; VECTOR 1 and the rest of ADMIN_CFG 0; queues disabled and empty; no history; FSEQ at 0; no command waits. Where a register has no reset value in the spec, this says nothing. (R392; R417; R138; R45; R335; R336; R455; R402; 12_host_command_interface T12.20; 14_fault_collection T14.3; 13_mirror_pair_consistency T13.8) -/
def Obligations.ResetValues : Prop :=
  State.reset.sup.domains = 0#30 ∧ State.reset.clk.ltc = 0 ∧ State.reset.clk.beat = 0 ∧
State.reset.dev.ready = false ∧ State.reset.dev.safe = false ∧ State.reset.dev.stage = 0 ∧ faultSummary State.reset = 0 ∧
(∀ n, State.reset.fc.sticky.getLsbD n = false) ∧ (∀ n, sevOf State.reset n = sevDefault n) ∧
sevDefault 0x003 = 3 ∧ sevDefault 0x005 = 3 ∧ sevDefault 0xA80 = 3 ∧ sevDefault 0x8A0 = 0 ∧ sevDefault 0x000 = 1 ∧
State.reset.fc.window = false ∧ State.reset.fc.escN = 3 ∧ State.reset.fc.escWindow = 600 ∧ State.reset.fc.history = [] ∧
(∀ p, mapGet 8 State.reset.dev.wvLog2 p = 8 ∧ mapGet 6 State.reset.dev.wvThresh p = 6) ∧
State.reset.dev.powerLimit = 2000 ∧ State.reset.sup.coreMv = 750 ∧ State.reset.sup.fabMv = 750 ∧ State.reset.sup.duty = 8 ∧
(∀ p, adminCfg State.reset p = 0x00010000#32) ∧
(∀ q, (qGet State.reset q).enabled = false ∧ resumeRecord State.reset q = List.replicate 16 0) ∧
State.reset.zl.ports = [] ∧ State.reset.pending = []

/-- The invariant holds at reset. Setpoints and duty in range, at most 8 attestation tokens, a leaf index of at most 2^20 and fewer than two boot attempts: so at State.reset. (R452; R455; R444; R441; R435) -/
def Obligations.InvariantHoldsAtReset : Prop :=
  Inv State.reset = true

/-- Every step keeps setpoints, duty, tokens, leaf index and boot attempts in range. From every state that meets it, and not only from those that a run reaches, every step keeps the invariant: rod-group and Common Store setpoints of 650 to 750 mV and PD_FAB of 700 to 750 mV, in steps of 10 mV, with PD_FAB never below the rod groups nor more than 50 mV above them, and a duty of 1 to 8 eighths (R452, R455); at most 8 attestation tokens (R444); an LMS leaf index of at most 1,048,576 (R441); fewer than two boot attempts counted (R435). (R452; R455; R444; R441; R435) -/
def Obligations.InvariantKept : Prop :=
  ∀ s t : State, Inv s = true → step s = .next t → Inv t = true

/-- The root of trust's policy only tightens, and only when a bundle reaches READY. Over every step, no minimum SVN falls and no revoked key index becomes valid again; and the two change only with the command READY_HIGH, when the booted bundle reaches READY (R434). The policy's preferred slot and its count of boot attempts follow R435 and are not meant here. (R434; R435) -/
def Obligations.PolicyOnlyTightens : Prop :=
  ∀ s t : State, step s = .next t →
  (∀ k, mapGet 0 s.trust.minSvn k ≤ mapGet 0 t.trust.minSvn k) ∧
  (∀ i, s.trust.revoked.getLsbD i = true → t.trust.revoked.getLsbD i = true) ∧
  (s.pending.head? ≠ some .readyHigh → t.trust.minSvn = s.trust.minSvn ∧ t.trust.revoked = s.trust.revoked)

/-- The LMS leaf index never falls, and each leaf goes with one token and one command that signs. Over every step, the leaf index stays or rises by 1. Where it rises, the front command is ATTEST, CHALLENGE or GET_MEASUREMENTS, a leaf and a token were left, and one token is taken (R441, R444). (R441; R444) -/
def Obligations.LeavesAreNeverReused : Prop :=
  ∀ s t : State, step s = .next t →
  t.trust.leaf = s.trust.leaf ∨
  (t.trust.leaf = s.trust.leaf + 1 ∧ s.trust.leaf < 1048576 ∧ s.trust.tokens = t.trust.tokens + 1 ∧
    ((∃ q seq, s.pending.head? = some (.attest q seq)) ∨ (∃ b k n, s.pending.head? = some (.challenge b k n)) ∨
     (∃ b k g n, s.pending.head? = some (.getMeasurements b k g n))))

/-- The end of a command touches only host ports, the journal, the links that mirror it, the flush region, and the tiles and fault messages of the store die. Ending a command posts its DONE or holds it, frees its record, and lets intake go on; it changes the host ports, the journal and its ledger, the Zilet state that carries the records to the partner, what the flush region holds, and where a journal stripe is programmed the store die's tiles, blocks, wear and counters and the fault messages that wait. Everything else stays: supply, time, trust, sideband, device settings, the collector's registers, partitions, contexts, rods, stratum and weathervane state, launches, update engines, landings, memory, tally arbiters, objects, of the deep tier its moves, jobs, pages' data, failed dies, snapshots and copies, groups, the free-value counter and the queue. (R348; R372; R375; R340) -/
def Obligations.EndOfCommandFrame : Prop :=
  ∀ (c : Cmd) (status : Nat) (result : Bytes) (s : State),
  finish c status result s =
    { s with host := (finish c status result s).host, jr := (finish c status result s).jr,
             zl := (finish c status result s).zl, flushed := (finish c status result s).flushed,
             fc := { s.fc with net := (finish c status result s).fc.net },
             deep := { (finish c status result s).deep with
               mounted := s.deep.mounted, moves := s.deep.moves, jobs := s.deep.jobs, refetch := s.deep.refetch,
               flash := s.deep.flash, fmeta := s.deep.fmeta, failedDies := s.deep.failedDies,
               retirements := s.deep.retirements, hot := s.deep.hot, slots := s.deep.slots, good := s.deep.good,
               copies := s.deep.copies, copyAt := s.deep.copyAt, scanAt := s.deep.scanAt, agedAt := s.deep.agedAt,
               ckptAt := s.deep.ckptAt } }

/-- Raising a source only adds its message; signalling touches only host memory and the pending bits. A source that is raised while a message of it waits changes nothing, and otherwise adds one message with even parity to those waiting, and nothing else (R390). Signalling vector 0 on both ports changes only the host side: host memory or a pending bit (R341). (R390; R341; R392) -/
def Obligations.FaultMessagesAndInterruptsFrame : Prop :=
  (∀ (src kind addr : Nat) (s : State), raise src kind addr s =
    if s.fc.net.any (fun m => msgSource m = src) then s
    else { s with fc := { s.fc with net := s.fc.net ++ [faultMsg src kind addr] } }) ∧
(∀ (src kind addr : Nat), src < 4096 → parityOk (faultMsg src kind addr) = true ∧ msgSource (faultMsg src kind addr) = src ∧
    msgKind (faultMsg src kind addr) = kind % 64 ∧ msgAddr (faultMsg src kind addr) = addr % 2 ^ 48) ∧
(∀ s : State, signalBoth s = { s with host := (signalBoth s).host } ∧
    (signalBoth s).host = { s.host with memA := (signalBoth s).host.memA, memB := (signalBoth s).host.memB,
                                        pba := (signalBoth s).host.pba })

/-- A message that fails the parity check is discarded, and only MSG_PARITY's sticky bit is set. While the collector runs, a message whose parity is wrong leaves the waiting messages, and the sticky bits are then those of before with MSG_PARITY's (0x006) set: the sticky bit of the source that the message names is as it was, unless it names MSG_PARITY itself. With MSG_PARITY at LOG or NOTIFY that is said of the next state; at SAFE the state so marked enters the safe state; R394 forbids CONTAIN. That MSG_PARITY then reacts by its severity is the model's reading (log 39). (R391) -/
def Obligations.BadParitySetsMsgParity : Prop :=
  (∀ (msg : BitVec 67) (s : State), zenithRuns s = true → parityOk msg = false → sevOf s 0x006 < 2 →
  ∃ t, exec (.faultMessage msg) s = .next t ∧ t.fc.net = listEraseFirst (fun m => decide (m = msg)) s.fc.net ∧
    (∀ n, n < 4096 → t.fc.sticky.getLsbD n = (s.fc.sticky.getLsbD n || decide (n = 0x006)))) ∧
(∀ (msg : BitVec 67) (s : State), zenithRuns s = true → parityOk msg = false → sevOf s 0x006 = 3 → s.dev.safe = false →
  ∃ t, exec (.faultMessage msg) s = .next (enterSafe t) ∧ t.fc.net = listEraseFirst (fun m => decide (m = msg)) s.fc.net ∧
    (∀ n, n < 4096 → t.fc.sticky.getLsbD n = (s.fc.sticky.getLsbD n || decide (n = 0x006))))

/-- RESUME_POINT reports the last accepted and last applied numbers of one queue or of all. For a queue, its record of T13.8 in the result; for 0xFFFF, the 512 records in queue order in host memory. A record is 16 bytes: the last accepted number in bits [63:0], the last applied one in bits [127:64]. A queue with no history, whose next number is 1 and of which the ring holds no command, reports 0 in both. (R382; 13_mirror_pair_consistency T13.8) -/
def Obligations.ResumePointReports : Prop :=
  (∀ (q : Fin 512) (seq : Nat) (s : State) (c : Cmd), hostRuns s q seq 0x902 false [(0, 2), (8, 8)] c = true → c.p 0 2 < 512 →
    exec (.resumePoint q seq) s = .next (finish c stSuccess (resumeRecord s (c.p 0 2)) s)) ∧
(∀ (q : Fin 512) (seq : Nat) (s : State) (c : Cmd), hostRuns s q seq 0x902 false [(0, 2), (8, 8)] c = true → c.p 0 2 = 0xFFFF →
    linkUp s c.port = true →
    exec (.resumePoint q seq) s =
      .next (finish c stSuccess [] (hostWrite c.port (c.p 8 8) ((List.range 512).flatMap (resumeRecord s)) s))) ∧
(∀ (s : State) (q : Nat), lastAccepted s q < 2 ^ 64 → lastApplied s q < 2 ^ 64 →
    (resumeRecord s q).length = 16 ∧ leNat (resumeRecord s q) = lastApplied s q * 2 ^ 64 + lastAccepted s q) ∧
(∀ (s : State) (q : Nat), (qGet s q).e = 1 → (∀ c ∈ s.jr.ring, c.queue ≠ q) → resumeRecord s q = List.replicate 16 0)

/-- WV_LOG2 is 4 to 16 and WV_THRESH 1 to 24, per partition, with defaults 8 and 6. Each of the eight partitions has a WV_LOG2 of 4 to 16, by default 8, and a WV_THRESH of 1 to 24, by default 6. A SET_PARAM of one, under parameter number 0x41 or 0x42, with a value outside the range (or no such partition) completes with INVALID_PARAM and changes nothing else; inside it, that partition's setting takes the value and the other partitions' stay. (R138; 05_numerics T5.13) -/
def Obligations.WeathervaneSettings : Prop :=
  (∀ p, mapGet 8 State.reset.dev.wvLog2 p = 8 ∧ mapGet 6 State.reset.dev.wvThresh p = 6) ∧
(∀ (q : Fin 512) (seq : Nat) (s : State) (c : Cmd), paramRuns s q seq 0x41 c = true →
    (8 ≤ c.p 4 4 ∨ c.p 8 8 < 4 ∨ 16 < c.p 8 8) → exec (.setParamWvLog2 q seq) s = .next (finish c stParam [] s)) ∧
(∀ (q : Fin 512) (seq : Nat) (s : State) (c : Cmd), paramRuns s q seq 0x42 c = true →
    (8 ≤ c.p 4 4 ∨ c.p 8 8 < 1 ∨ 24 < c.p 8 8) → exec (.setParamWvThresh q seq) s = .next (finish c stParam [] s)) ∧
(∀ (q : Fin 512) (seq : Nat) (s : State) (c : Cmd), paramRuns s q seq 0x41 c = true → mapWf 8 s.dev.wvLog2 = true →
    c.p 4 4 < 8 → 4 ≤ c.p 8 8 → c.p 8 8 ≤ 16 →
    ∃ t, exec (.setParamWvLog2 q seq) s = .next t ∧ mapGet 8 t.dev.wvLog2 (c.p 4 4) = c.p 8 8 ∧
      ∀ p, p ≠ c.p 4 4 → mapGet 8 t.dev.wvLog2 p = mapGet 8 s.dev.wvLog2 p) ∧
(∀ (q : Fin 512) (seq : Nat) (s : State) (c : Cmd), paramRuns s q seq 0x42 c = true → mapWf 6 s.dev.wvThresh = true →
    c.p 4 4 < 8 → 1 ≤ c.p 8 8 → c.p 8 8 ≤ 24 →
    ∃ t, exec (.setParamWvThresh q seq) s = .next t ∧ mapGet 6 t.dev.wvThresh (c.p 4 4) = c.p 8 8 ∧
      ∀ p, p ≠ c.p 4 4 → mapGet 6 t.dev.wvThresh p = mapGet 6 s.dev.wvThresh p)

/-- A SET_PARAM FC_SEVERITY that R394 forbids completes with INVALID_PARAM and changes nothing. It names a reserved source, one that T14.3 does not list; it sets THERMTRIP (0x003) or FC_PARITY (0x005) to anything but SAFE; or it sets HEARTBEAT (0x000), FW_FAULT (0x007) or MSG_PARITY (0x006) to CONTAIN. The command then ends with INVALID_PARAM on the state as it was. (R394) -/
def Obligations.SeveritiesRefused : Prop :=
  ∀ (q : Fin 512) (seq : Nat) (s : State) (c : Cmd), paramRuns s q seq 0x10 c = true →
  (sourceKnown (c.p 4 4) = false ∨ ((c.p 4 4 = 0x003 ∨ c.p 4 4 = 0x005) ∧ c.p 8 8 ≠ 3) ∨
    ((c.p 4 4 = 0x000 ∨ c.p 4 4 = 0x007 ∨ c.p 4 4 = 0x006) ∧ c.p 8 8 = 2)) →
  exec (.setParamFcSeverity q seq) s = .next (finish c stParam [] s)

/-- GET_INFO serves pages 1 to 6 with the lengths of T12.17 and refuses any other. Pages 0x0001 to 0x0006 exist, with 256, 8, 8, 1,024, 256 and 4,096 bytes. Page 2 is the speed word, page 3 the local time counter, page 5 the 128 sensor readings, sensor n at bytes 2n and 2n + 1 in two's complement. A page of 16 bytes or less completes in the result, a longer one in host memory with its length in the result; any other page completes with INVALID_PARAM. The order of the fields inside pages 1, 4 and 6 is not in the spec (log 18). (R352; 12_host_command_interface T12.17) -/
def Obligations.InfoPagesServed : Prop :=
  (∀ s : State, (infoPage s 1).map List.length = some 256 ∧ infoPage s 2 = some (natLe 8 (speedWord s)) ∧
    infoPage s 3 = some (natLe 8 s.clk.ltc) ∧ (infoPage s 4).map List.length = some 1024 ∧
    (infoPage s 5).map List.length = some 256 ∧ (infoPage s 6).map List.length = some 4096) ∧
(∀ (s : State) (b : Bytes) (n : Nat), infoPage s 5 = some b → n < 128 → byteSlice b (2 * n) 2 = natLe 2 (unsgn 16 (mapGet 0 s.clk.sensors n))) ∧
(∀ (q : Fin 512) (seq : Nat) (s : State) (c : Cmd), hostRuns s q seq 0x101 false [(0, 2), (8, 8)] c = true →
    (c.p 0 2 = 0 ∨ 6 < c.p 0 2) → exec (.getInfo q seq) s = .next (finish c stParam [] s)) ∧
(∀ (q : Fin 512) (seq : Nat) (s : State) (c : Cmd) (b : Bytes), hostRuns s q seq 0x101 false [(0, 2), (8, 8)] c = true →
    infoPage s (c.p 0 2) = some b → b.length ≤ 16 → exec (.getInfo q seq) s = .next (finish c stSuccess b s)) ∧
(∀ (q : Fin 512) (seq : Nat) (s : State) (c : Cmd) (b : Bytes), hostRuns s q seq 0x101 false [(0, 2), (8, 8)] c = true →
    infoPage s (c.p 0 2) = some b → 16 < b.length → linkUp s c.port = true →
    exec (.getInfo q seq) s = .next (finish c stSuccess (natLe 4 b.length) (hostWrite c.port (c.p 8 8) b s)))

/-- An UPDATE_RUN whose parameters are not finite and in range updates nothing. LR, WD and CLIP must be finite and 0 or more, BETA1 and BETA2 finite, 0 or more and below 1, EPS finite and a normal value of 2^-126 or more. Where one of them is not, an UPDATE_RUN that may run completes with INVALID_PARAM on the state as it was. (R241) -/
def Obligations.UpdateParametersRefused : Prop :=
  ∀ (q : Fin 512) (seq : Nat) (refetch : List (Nat × Bytes)) (s : State) (c : Cmd),
  hostRuns s q seq 0x602 true [(0, 25)] c = true → (ctxGet s c.ctx).train.st = .opened →
  ((∃ i ∈ [0, 1, 2, 3, 4, 5], bitsOf (c.p (4 * i) 4) 30 23 = 255) ∨
    (∃ i ∈ [0, 1, 2, 3, 4, 5], bitOf (c.p (4 * i) 4) 31 = true ∧ 0x00800000 ≤ bitsOf (c.p (4 * i) 4) 30 0) ∨
    (∃ i ∈ [1, 2], 0x3F800000 ≤ bitsOf (c.p (4 * i) 4) 30 0) ∨ bitsOf (c.p 12 4) 30 0 < 0x00800000) →
  exec (.updateRun q seq refetch) s = .next (finish c stParam [] s)

/-- While a partition reset is in progress, PART_CONFIG completes with NOT_READY and changes nothing. Whatever the partition under reset, each of the three operations of PART_CONFIG ends with NOT_READY on the state as it was. When a reset is in progress is as the rows PARTITION_RESET and PART_RESET have it. (R22; R15) -/
def Obligations.PartConfigDuringReset : Prop :=
  ∀ (q : Fin 512) (seq : Nat) (s : State) (c : Cmd), hostRuns s q seq 0x203 false [(0, 3), (8, 84)] c = true → s.fc.rstParts ≠ [] →
  (c.p 0 1 = 0 → exec (.partConfigClaim q seq) s = .next (finish c stNotReady [] s)) ∧
  (c.p 0 1 = 1 → exec (.partConfigRelease q seq) s = .next (finish c stNotReady [] s)) ∧
  (c.p 0 1 = 2 → exec (.partConfigSetFlags q seq) s = .next (finish c stNotReady [] s))

/-- A command with a reserved parameter byte that is not 0, or a CONTEXT it may not carry, is refused. For a row of each class: where the command may start and a parameter byte that its row of Tables 12.8 to 12.14 does not name is not zero, or its CONTEXT is not 0 though it acts on no context, or names no context though it acts on one, it completes with INVALID_PARAM on the state as it was. (R350; R8) -/
def Obligations.ReservedBytesRefused : Prop :=
  (∀ (q : Fin 512) (seq : Nat) (s : State) (c : Cmd), startable s q seq 0x100 = some c → (c.rest0 [] = false ∨ c.ctx ≠ 0) →
    exec (.identify q seq) s = .next (finish c stParam [] s)) ∧
(∀ (q : Fin 512) (seq : Nat) (s : State) (c : Cmd), startable s q seq 0x101 = some c → (c.rest0 [(0, 2), (8, 8)] = false ∨ c.ctx ≠ 0) →
    exec (.getInfo q seq) s = .next (finish c stParam [] s)) ∧
(∀ (q : Fin 512) (seq : Nat) (s : State) (c : Cmd), startable s q seq 0x103 = some c → (c.rest0 [(0, 16)] = false ∨ c.ctx ≠ 0) →
    exec (.getParam q seq) s = .next (finish c stParam [] s)) ∧
(∀ (q : Fin 512) (seq : Nat) (s : State) (c : Cmd), startable s q seq 0x202 = some c → (c.rest0 [] = false ∨ ctxExists s c.ctx = false) →
    exec (.ctxReset q seq) s = .next (finish c stParam [] s)) ∧
(∀ (q : Fin 512) (seq : Nat) (s : State) (c : Cmd), startable s q seq 0x301 = some c → (c.rest0 [(0, 4)] = false ∨ ctxExists s c.ctx = false) →
    exec (.objRelease q seq) s = .next (finish c stParam [] s)) ∧
(∀ (q : Fin 512) (seq : Nat) (s : State) (c : Cmd), startable s q seq 0x302 = some c → (c.rest0 [(0, 4), (4, 1), (5, 1), (6, 1), (8, 4), (12, 4)] = false ∨ ctxExists s c.ctx = false) →
    exec (.objPlace q seq) s = .next (finish c stParam [] s)) ∧
(∀ (q : Fin 512) (seq : Nat) (s : State) (c : Cmd), startable s q seq 0x305 = some c → (c.rest0 [(0, 1), (4, 4)] = false ∨ ctxExists s c.ctx = false) →
    exec (.quotaSet q seq) s = .next (finish c stParam [] s)) ∧
(∀ (q : Fin 512) (seq : Nat) (s : State) (c : Cmd), startable s q seq 0x400 = some c → (c.rest0 [(0, 24), (24, 1)] = false ∨ ctxExists s c.ctx = false) →
    exec (.launch q seq) s = .next (finish c stParam [] s)) ∧
(∀ (q : Fin 512) (seq : Nat) (s : State) (c : Cmd), startable s q seq 0x505 = some c → (c.rest0 [(0, 12)] = false ∨ ctxExists s c.ctx = false) →
    exec (.baseSet q seq) s = .next (finish c stParam [] s)) ∧
(∀ (q : Fin 512) (seq : Nat) (s : State) (c : Cmd), startable s q seq 0x601 = some c → (c.rest0 [(4, 4)] = false ∨ ctxExists s c.ctx = false) →
    exec (.stepCommit q seq) s = .next (finish c stParam [] s)) ∧
(∀ (q : Fin 512) (seq : Nat) (s : State) (c : Cmd), startable s q seq 0x703 = some c → (c.rest0 [(8, 8), (16, 4)] = false ∨ c.ctx ≠ 0) →
    exec (.faultRead q seq) s = .next (finish c stParam [] s)) ∧
(∀ (q : Fin 512) (seq : Nat) (s : State) (c : Cmd), startable s q seq 0x704 = some c → (c.rest0 [(0, 2)] = false ∨ c.ctx ≠ 0) →
    exec (.faultClear q seq) s = .next (finish c stParam [] s)) ∧
(∀ (q : Fin 512) (seq : Nat) (s : State) (c : Cmd), startable s q seq 0x801 = some c → (c.rest0 [(0, 1)] = false ∨ c.ctx ≠ 0) →
    exec (.fwActivate q seq) s = .next (finish c stParam [] s)) ∧
(∀ (q : Fin 512) (seq : Nat) (s : State) (c : Cmd), startable s q seq 0x802 = some c → (c.rest0 [(0, 33), (40, 8), (48, 4)] = false ∨ c.ctx ≠ 0) →
    exec (.attest q seq) s = .next (finish c stParam [] s)) ∧
(∀ (q : Fin 512) (seq : Nat) (s : State) (c : Cmd), startable s q seq 0x901 = some c → (c.rest0 [] = false ∨ c.ctx ≠ 0) →
    exec (.pairStatus q seq) s = .next (finish c stParam [] s)) ∧
(∀ (q : Fin 512) (seq : Nat) (s : State) (c : Cmd), startable s q seq 0x902 = some c → (c.rest0 [(0, 2), (8, 8)] = false ∨ c.ctx ≠ 0) →
    exec (.resumePoint q seq) s = .next (finish c stParam [] s))

/-- Decoding an FP16, M8 or U8 element and encoding it again gives it back, whatever the draw. For every M8 and U8 pattern whose exponent field is not 0, or that is a zero as it is written, and for every FP16 pattern that is a zero or a normal value, encoding the decoded value with block scale 0 and any draw gives the same pattern, with no range event, no flush and no NaN event. (R116; R118; R122; 05_numerics T5.1) -/
def Obligations.NarrowFormatsRoundTrip : Prop :=
  (∀ (w : Byte) (r : Nat), (bitsOf w.toNat 6 3 ≠ 0 ∨ bitsOf w.toNat 2 0 = 0) → encNarrow nfM8 (some 7) false r (decM8 w) = { bits := w.toNat }) ∧
(∀ (w : Byte) (r : Nat), (bitsOf w.toNat 7 3 ≠ 0 ∨ w = 0#8) → encNarrow nfU8 none false r (decU8 w) = { bits := w.toNat }) ∧
(∀ (w : BitVec 16) (r : Nat), bitsOf w.toNat 14 10 ≠ 31 → isSub 5 10 w.toNat = false → enc16 r (dec16 w) = { bits := w.toNat })
end

