-- ==== Sys2Proof/Laws/Ends.lean ====
section
/-!
SUPPORT. What the operations behind a completion can change: `Ends s t` says that `t` differs from `s` at most in the host
ports, the journal, the Zilet state, the flush region, the fault messages that wait, the chip reset that an activation asked for
(spec/16_startup_trust.md R439), and the blocks, stripes and map of the store die, whose journal region takes the records
(spec/07_deep_tier.md T7.2, R376).
-/

namespace Sys2Proof.Machine

/-- The store die of `t` with everything of `s` that no tile of another region touches. -/
def deepEnds (s t : Deep) : Deep :=
  { t with mounted := s.mounted, moves := s.moves, jobs := s.jobs, refetch := s.refetch, flash := s.flash, fmeta := s.fmeta
           failedDies := s.failedDies, retirements := s.retirements, hot := s.hot, slots := s.slots, good := s.good
           copies := s.copies, copyAt := s.copyAt, scanAt := s.scanAt, agedAt := s.agedAt, ckptAt := s.ckptAt }

/-- `s` with the host ports, journal, Zilet state, flush region, waiting fault messages, resets decided and the store die's tiles of
`t`. -/
def endsOf (s t : State) : State :=
  { s with host := t.host, jr := t.jr, zl := t.zl, flushed := t.flushed, trust := { s.trust with resetAfter := t.trust.resetAfter }
           fc := { s.fc with net := t.fc.net, rstChip := t.fc.rstChip, rstRods := t.fc.rstRods, rstParts := t.fc.rstParts }
           deep := deepEnds s.deep t.deep }

/-- `t` is `s` but for those. -/
def Ends (s t : State) : Prop := t = endsOf s t

theorem ends_refl (s : State) : Ends s s := rfl

theorem ends_mk (s : State) (h : HostIf) (j : Journal) (z : Zilet) (f : Option Control) :
    Ends s { s with host := h, jr := j, zl := z, flushed := f } := rfl

theorem ends_trans {s t u : State} (h : Ends s t) (k : Ends t u) : Ends s u :=
  Eq.trans (b := endsOf t u) k (by
    have e : endsOf t u = endsOf (endsOf s t) u := congrArg (fun x => endsOf x u) h
    exact e)

/-- A change of the store die's tiles alone. -/
theorem ends_deep {s : State} {d : Deep} (h : d = deepEnds s.deep d) : Ends s { s with deep := d } := by
  unfold Ends endsOf
  exact congrArg (fun x => { s with deep := x }) h

/-- A fold of such operations is one. -/
theorem ends_foldl {β : Type} (f : State → β → State) (h : ∀ s b, Ends s (f s b)) (l : List β) (s : State) :
    Ends s (l.foldl f s) := by
  induction l generalizing s with
  | nil => exact ends_refl s
  | cons b l ih => exact ends_trans (h s b) (ih (f s b))

theorem ends_ite {s t u : State} (b : Prop) [Decidable b] (h : Ends s t) (k : Ends s u) : Ends s (if b then t else u) := by
  split
  · exact h
  · exact k

/-! ### Host ports -/

theorem ends_hostWrite (p a : Nat) (bs : Bytes) (s : State) : Ends s (hostWrite p a bs s) := by
  unfold hostWrite
  exact ends_ite _ rfl rfl

theorem ends_bumpHost (p i : Nat) (s : State) : Ends s (bumpHost p i s) := rfl

theorem ends_signal (p v : Nat) (s : State) : Ends s (signal p v s) := by
  unfold signal
  exact ends_ite _ rfl (ends_ite _ rfl (ends_hostWrite ..))

theorem ends_signalBoth (s : State) : Ends s (signalBoth s) := ends_trans (ends_signal 0 0 s) (ends_signal 1 0 _)

theorem ends_qSet (q : Nat) (x : Queue) (s : State) : Ends s (qSet q x s) := rfl

theorem ends_postLoop (q p : Nat) (l : List (Bytes × Bool)) (x : Queue) (s : State) : Ends s (postLoop q p l x s).1 := by
  induction l generalizing x s with
  | nil => exact ends_refl s
  | cons e l ih =>
    unfold postLoop
    split
    · exact ends_bumpHost ..
    · exact ends_trans (ends_trans (ends_hostWrite ..) (ends_ite _ (ends_bumpHost ..) (ends_refl _))) (ih ..)

theorem ends_postHeld (q : Nat) (s : State) : Ends s (postHeld q s) := by
  unfold postHeld
  dsimp only
  split
  · have h := ends_postLoop q (qPort q (qGet s q)) (qGet s q).held (qGet s q) s
    exact ends_ite _ (ends_trans (ends_trans h (ends_qSet ..)) (ends_signal ..)) (ends_trans h (ends_qSet ..))
  · exact ends_refl s

theorem ends_post (q : Nat) (e : Bytes) (irq : Bool) (s : State) : Ends s (post q e irq s) :=
  ends_trans (ends_qSet ..) (ends_postHeld ..)

/-! ### Messages to peers -/

theorem ends_peerSet (d : Nat) (x : Peer) (s : State) : Ends s (peerSet d x s) := rfl

theorem ends_queuePacket (p : Packet) (part : Nat) (s : State) : Ends s (queuePacket p part s) := rfl

theorem ends_queueMsg (d : Nat) (m : OutMsg) (s : State) : Ends s (queueMsg d m s) := ends_foldl _ (fun s _ => ends_queuePacket _ _ s) _ _

theorem ends_zlBump (k n : Nat) (s : State) : Ends s (zlBump k n s) := rfl

theorem ends_launchFrom (d : Nat) (l : List OutMsg) (x : Peer) (s : State) : Ends s (launchFrom d l x s) := by
  induction l generalizing x s with
  | nil => exact ends_peerSet ..
  | cons m l ih =>
    unfold launchFrom
    dsimp only
    split
    · exact ends_trans (ends_trans (ends_queueMsg ..) (ends_zlBump ..)) (ih ..)
    · exact ih ..

theorem ends_launchMsgs (d : Nat) (l : List OutMsg) (x : Peer) (s : State) : Ends s (launchMsgs d l x s) := ends_launchFrom ..

theorem ends_openSession (d : Nat) (s : State) : Ends s (openSession d s) := by
  unfold openSession
  dsimp only
  exact ends_ite _ (ends_refl s) (ends_trans (ends_queueMsg ..) (ends_peerSet ..))

theorem ends_sendMsg (d : Nat) (m : OutMsg) (s : State) : Ends s (sendMsg d m s) :=
  ends_trans (ends_openSession d s) (ends_launchMsgs ..)

/-! ### Tiles of the store die's regions -/

theorem ends_raise (src kind addr : Nat) (s : State) : Ends s (raise src kind addr s) := by
  unfold raise
  exact ends_ite _ rfl rfl

theorem ends_blockMod (b : Nat) (f : Block → Block) (s : State) : Ends s (blockMod b f s) := rfl

theorem ends_mapLog (r : MapRec) (s : State) : Ends s (mapLog r s) := rfl

theorem ends_dcUp (k n : Nat) (s : State) : Ends s (dcUp k n s) := rfl

theorem ends_countTile (c : TileCause) (s : State) : Ends s (countTile c s) := by cases c <;> rfl

theorem ends_eraseBlock (b : Nat) (s : State) : Ends s (eraseBlock b s) := by
  unfold eraseBlock
  dsimp only
  exact ends_ite _ (ends_trans (ends_deep (by rfl)) (ends_raise ..)) rfl

theorem ends_emptied (b : Nat) (s : State) : Ends s (emptied b s) := ends_ite _ (ends_eraseBlock ..) (ends_refl s)

theorem ends_joinSpare (die : Nat) (slc : Bool) (s : State) : Ends s (joinSpare die slc s) := by
  unfold joinSpare
  split
  · exact ends_refl s
  · dsimp only
    exact ends_ite _ (ends_trans (ends_deep (by rfl)) (ends_raise ..)) rfl

theorem ends_queueWrite (g : Nat) (t : TileWrite) (s : State) : Ends s (queueWrite g t s) := rfl

theorem ends_moveBlock (b : Nat) (why : TileCause) (ctx : Nat) (s : State) : Ends s (moveBlock b why ctx s) :=
  ends_trans (ends_trans (ends_blockMod ..)
    (ends_foldl _ (fun s _ => ends_ite _ (ends_refl s) (ends_queueWrite ..)) _ _)) (ends_emptied ..)

theorem ends_collect (die ctx : Nat) (s : State) : Ends s (collect die ctx s) := by
  unfold collect
  dsimp only
  split
  · exact ends_refl s
  · exact ends_moveBlock ..

theorem ends_openBlock (die : Nat) (slc : Bool) (ctx : Nat) (s : State) : Ends s (openBlock die slc ctx s).2 := by
  unfold openBlock
  split
  · exact ends_refl s
  · have h : Ends s (if freeCount s die slc = 0 then joinSpare die slc s else s) :=
      ends_ite _ (ends_joinSpare ..) (ends_refl s)
    revert h
    generalize (if freeCount s die slc = 0 then joinSpare die slc s else s) = t
    intro h
    dsimp only
    split
    · exact h
    · rename_i b _
      have h := ends_trans h (ends_ite (0 < (blockGet t b).used) (ends_eraseBlock b t) (ends_refl t))
      revert h
      generalize (if 0 < (blockGet t b).used then eraseBlock b t else t) = u
      intro h
      exact ends_trans h (ends_ite _ (ends_trans (ends_deep (by rfl)) (ends_collect ..)) rfl)

theorem ends_dropTile (key : Nat) (s : State) : Ends s (dropTile key s) := by
  unfold dropTile
  split
  · exact ends_refl s
  · exact ends_trans (ends_deep (by rfl)) (ends_emptied ..)

theorem ends_placeTile (die stripe : Nat) (t : TileWrite) (s : State) : Ends s (placeTile die stripe t s) := by
  refine ends_trans (ends_openBlock die (keySlc t.key) t.ctx s) ?_
  unfold placeTile
  dsimp only
  exact ends_trans (ends_blockMod ..) (ends_trans (ends_dropTile ..) (ends_trans (ends_deep (by rfl)) (ends_mapLog ..)))

theorem ends_placeOther (die : Nat) (slc : Bool) (ctx : Nat) (s : State) : Ends s (placeOther die slc ctx s).2 :=
  ends_trans (ends_openBlock ..) (ends_blockMod ..)

theorem ends_stripeReads (key n : Nat) (s : State) : Ends s (stripeReads key n s) := by
  unfold stripeReads
  split
  · exact ends_refl s
  · exact ends_foldl _ (fun s _ => ends_blockMod ..) _ _

theorem ends_moveRead (t : TileWrite) (s : State) : Ends s (moveRead t s) := by
  unfold moveRead
  split
  · exact ends_refl s
  · dsimp only
    exact ends_ite _ (ends_trans (ends_blockMod ..) (ends_trans (ends_dcUp ..) (ends_stripeReads ..))) (ends_blockMod ..)

theorem ends_foldl_snd {α β : Type} (f : α × State → β → α × State) (h : ∀ r b, Ends r.2 (f r b).2) (l : List β)
    (r : α × State) : Ends r.2 (l.foldl f r).2 := by
  induction l generalizing r with
  | nil => exact ends_refl _
  | cons b l ih => exact ends_trans (h r b) (ih (f r b))

theorem ends_programStripe (g : Nat) (slc : Bool) (l : List TileWrite) (s : State) : Ends s (programStripe g slc l s) := by
  unfold programStripe
  dsimp only
  refine ends_trans (ends_trans (ends_trans ?_ (ends_foldl_snd _ (fun r t =>
    ends_trans (ends_moveRead t r.2) (ends_trans (ends_placeTile ..) (ends_countTile ..))) l _))
    (ends_foldl _ (fun s _ => ends_trans (ends_placeOther ..) (ends_dcUp ..)) _ _)) (ends_trans (ends_placeOther ..) (ends_deep (by rfl)))
  rfl

theorem ends_writeStripes (why : TileCause) (n g : Nat) (keys : List Nat) (s : State) : Ends s (writeStripes why n g keys s) := by
  induction n generalizing g keys s with
  | zero => exact ends_refl s
  | succ n ih =>
    unfold writeStripes
    exact ends_ite _ (ends_refl s) (ends_ite _ (ih ..) (ends_trans (ends_programStripe ..) (ih ..)))

theorem ends_flushStripe (n : Nat) (s : State) : Ends s (flushStripe n s) :=
  ends_trans (ends_deep (by rfl)) (ends_writeStripes ..)

/-! ### The journal -/

theorem ends_setSlot (q seq : Nat) (x : Slot) (s : State) : Ends s (setSlot q seq x s) := rfl

theorem ends_ringMod (j : Nat) (f : Cmd → Cmd) (s : State) : Ends s (ringMod j f s) := rfl

theorem ends_begun (c : Cmd) (s : State) : Ends s (begun c s) := rfl

theorem ends_flushEnd (s : State) : Ends s (flushEnd s) := by
  unfold flushEnd
  exact ends_ite _ (ends_refl s) rfl

theorem ends_freeRecord (c : Cmd) (s : State) : Ends s (freeRecord c s) := ends_trans (ends_mk ..) (ends_flushEnd _)

theorem ends_resetNow (j : Nat) (s : State) : Ends s (resetNow j s) := by
  unfold resetNow
  exact ends_ite _ rfl rfl

theorem ends_recordHeld (r : HoldRec) (s : State) : Ends s (recordHeld r s) := by
  unfold recordHeld
  split
  · exact ends_refl s
  · split
    · split
      · exact ends_trans (ends_trans (ends_freeRecord ..) (ends_post ..)) (ends_resetNow ..)
      · exact ends_freeRecord ..
    · exact ends_trans (ends_ringMod ..) (ends_post ..)

theorem ends_commitJournal (s : State) : Ends s (commitJournal s) := by
  unfold commitJournal
  have h0 := ends_flushStripe (s.jr.stripe.foldl (fun n r => n + stripeLen s r) 0) s
  revert h0
  dsimp only
  generalize flushStripe (s.jr.stripe.foldl (fun n r => n + stripeLen s r) 0) s = t
  intro h0
  have h := ends_trans (ends_trans h0
    (ends_mk t t.host { t.jr with waiting := t.jr.waiting.filter (fun r => !s.jr.stripe.contains r), stripe := [] } t.zl t.flushed))
    (ends_foldl (fun s r => recordHeld r s) (fun s r => ends_recordHeld r s) s.jr.stripe _)
  exact ends_ite _ (ends_trans h (ends_mk ..)) h

theorem ends_mirrorRecord (r : HoldRec) (k : Bool) (s : State) : Ends s (mirrorRecord r k s) :=
  ends_trans (ends_ite _ (ends_sendMsg ..) (ends_refl s)) (ends_sendMsg ..)

theorem ends_holdRecord (r : HoldRec) (k : Bool) (s : State) : Ends s (holdRecord r k s) := by
  unfold holdRecord
  dsimp only
  have h : Ends s (if s.jr.pair = .lost then { s with jr := { s.jr with unmirrored := s.jr.unmirrored + 1 } } else s) :=
    ends_ite _ (ends_mk ..) (ends_refl s)
  revert h
  generalize (if s.jr.pair = .lost then { s with jr := { s.jr with unmirrored := s.jr.unmirrored + 1 } } else s) = t
  intro h
  have h := ends_trans h (ends_ite (mirroring t = true) (ends_mirrorRecord r k t) (ends_refl t))
  revert h
  generalize (if mirroring t = true then mirrorRecord r k t else t) = u
  intro h
  refine ends_trans h ?_
  refine ends_ite _ (ends_mk ..) (ends_ite _ ?_ (ends_recordHeld ..))
  exact ends_ite _ (ends_trans (ends_mk ..) (ends_commitJournal _)) (ends_mk ..)

/-! ### Intake -/

theorem ends_intakeRefuse (q : Nat) (e : Bytes) (head status : Nat) (result : Bytes) (s : State) :
    Ends s (intakeRefuse q e head status result s) := ends_trans (ends_bumpHost ..) (ends_post ..)

theorem ends_accept (p q seq : Nat) (x : Queue) (v : Slot) (r : HoldRec) (k : Bool) (j : Journal) (s : State) :
    Ends s (holdRecord r k (setSlot q seq v { bumpHost p 3 (qSet q x s) with jr := j })) :=
  ends_trans (show Ends s (setSlot q seq v { bumpHost p 3 (qSet q x s) with jr := j }) from rfl) (ends_holdRecord ..)

/-- The same of a state that may be absent. -/
def OptEnds (s : State) (o : Option State) : Prop := ∀ t, o = some t → Ends s t

theorem optEnds_some {s t : State} (h : Ends s t) : OptEnds s (some t) := fun _ e => Option.some.inj e ▸ h

theorem optEnds_none (s : State) : OptEnds s none := fun _ e => nomatch e

theorem optEnds_ite {s : State} {o o' : Option State} (b : Prop) [Decidable b] (h : OptEnds s o) (k : OptEnds s o') :
    OptEnds s (if b then o else o') := by
  split
  · exact h
  · exact k

/-- An entry that intake takes or refuses changes nothing else. -/
theorem ends_intakeEntry (q : Nat) (e : Bytes) (head : Nat) (s : State) : OptEnds s (intakeEntry q e head s) := by
  unfold intakeEntry
  dsimp only
  refine optEnds_ite _ (optEnds_some (ends_intakeRefuse ..)) (optEnds_ite _ (optEnds_some (ends_intakeRefuse ..))
    (optEnds_ite _ (optEnds_some (ends_intakeRefuse ..)) (optEnds_ite _ (optEnds_some (ends_intakeRefuse ..))
    (optEnds_ite _ (optEnds_ite _ (optEnds_none s) (optEnds_some (ends_accept ..))) (optEnds_ite _ ?_
    (optEnds_some (ends_intakeRefuse ..)))))))
  split
  · exact optEnds_some (ends_intakeRefuse ..)
  · exact optEnds_some (ends_ite _ (ends_trans (ends_post ..) (ends_post ..)) (ends_post ..))

/-- Intake that waits counts it at the port and changes nothing else. -/
theorem ends_intakeWait (p need : Nat) (s : State) : Ends s (intakeWait p need s) :=
  ends_trans (ends_ite _ (ends_refl s) (ends_bumpHost ..)) (ends_mk ..)

theorem ends_fetchLoop (q n : Nat) (s : State) : Ends s (fetchLoop q n s) := by
  induction n generalizing s with
  | zero => exact ends_refl s
  | succ n ih =>
    unfold fetchLoop
    dsimp only
    split
    · exact ends_refl s
    · split
      · exact ends_mk ..
      · split
        · exact ends_mk ..
        · split
          · exact ends_intakeWait ..
          · split
            · rename_i t h
              exact ends_trans (ends_trans (ends_trans (ends_mk ..) (ends_qSet ..)) (ends_intakeEntry _ _ _ _ t h)) (ih t)
            · exact ends_trans (ends_mk ..) (ends_intakeWait ..)

theorem ends_resumeIntake (s : State) : Ends s (resumeIntake s) := by
  unfold resumeIntake
  exact ends_ite _ (ends_trans (ends_mk ..) (ends_foldl _ (fun s q => ends_fetchLoop q 65536 s) _ _)) (ends_refl s)

end Sys2Proof.Machine
end

