-- ==== Sys2Proof/Laws/Kept.lean ====
section
/-!
SUPPORT. What nearly every command leaves as it was: the queue of waiting commands, the setpoints and the duty
(spec/17_package_power_cooling.md R452, R455), the attestation tokens, the LMS leaf index and the policy of the root of trust
(spec/16_startup_trust.md R434, R435, R441, R444). `kept` gathers them; each file Kept<F>.lean holds one lemma for each
operation of Machine/<F>.lean, and KeptRest.lean the few commands that change one of them.
-/

namespace Sys2Proof.Machine

/-- The fields gathered. -/
structure Kept where
  pending : List Instr
  coreMv : Nat
  fabMv : Nat
  duty : Nat
  tokens : Nat
  attempts : Nat
  leaf : Nat
  minSvn : FMap Nat
  revoked : BitVec 4
/-- The same from the parts that hold them. -/
def keptOf (u : Supply) (t : Trust) (l : List Instr) : Kept :=
  ⟨l, u.coreMv, u.fabMv, u.duty, t.tokens, t.attempts, t.leaf, t.minSvn, t.revoked⟩
/-- Of a state. -/
def kept (s : State) : Kept := keptOf s.sup s.trust s.pending
/-- Of an outcome, where it is a next state. -/
def outKept : Host.Outcome State Fault Refusal → Option Kept
  | .next t => some (kept t)
  | _ => none
/-- A state, where there is one, keeps them. -/
@[irreducible] def optKept (o : Option State) (k : Kept) : Prop := ∀ t, o = some t → kept t = k
theorem optKept_some (t : State) (k : Kept) : optKept (some t) k ↔ kept t = k := by
  unfold optKept
  exact ⟨fun h => h t rfl, fun h _ e => Option.some.inj e ▸ h⟩
theorem optKept_none (k : Kept) : optKept none k := by
  unfold optKept
  exact fun _ e => nomatch e
theorem optKept_use {o : Option State} {k : Kept} (h : optKept o k) {t : State} (e : o = some t) : kept t = k := by
  unfold optKept at h
  exact h t e
theorem outKept_next (t : State) : outKept (.next t) = some (kept t) := rfl
theorem kept_mk (s : State) (y0 y1 y2 y3 y4 y5 y6 y7 y8 y9 y10 y11 y12 y13 y14 y15 y16 y17 y18 y19 y20 y21 y22 y23 y24) :
    kept (State.mk s.sup y0 s.trust y1 y2 y3 y4 y5 y6 y7 y8 y9 y10 y11 y12 y13 y14 y15 y16 y17 y18 y19 y20 y21 y22 y23 y24 s.pending) = kept s := rfl
theorem kept_mkSup (s : State) (y0 y1 y2 y3 y4 y5 y6 y7 y8 y9 y10 y11 y12 y13 y14 y15 y16 y17 y18 y19 y20 y21 y22 y23 y24 y25 y26 y27 y28 y29 y30 y31 y32 y33 y34 y35 y36 y37 y38 y39 y40 y41 y42 y43) :
    kept (State.mk (Supply.mk y0 y1 y2 y3 y4 y5 y6 y7 y8 y9 y10 s.sup.coreMv s.sup.fabMv s.sup.duty y11 y12 y13 y14 y15 y16 y17 y18) y19 s.trust y20 y21 y22 y23 y24 y25 y26 y27 y28 y29 y30 y31 y32 y33 y34 y35 y36 y37 y38 y39 y40 y41 y42 y43 s.pending) = kept s := rfl
theorem kept_mkTrust (s : State) (y0 y1 y2 y3 y4 y5 y6 y7 y8 y9 y10 y11 y12 y13 y14 y15 y16 y17 y18 y19 y20 y21 y22 y23 y24 y25 y26 y27 y28 y29 y30 y31 y32 y33 y34 y35 y36 y37 y38 y39 y40 y41 y42 y43 y44 y45 y46) :
    kept (State.mk s.sup y0 (Trust.mk y1 y2 y3 y4 s.trust.minSvn s.trust.revoked y5 s.trust.attempts y6 y7 y8 y9 y10 y11 y12 y13 s.trust.leaf s.trust.tokens y14 y15 y16 y17 y18 y19 y20 y21 y22) y23 y24 y25 y26 y27 y28 y29 y30 y31 y32 y33 y34 y35 y36 y37 y38 y39 y40 y41 y42 y43 y44 y45 y46 s.pending) = kept s := rfl
theorem kept_mkBoth (s : State) (y0 y1 y2 y3 y4 y5 y6 y7 y8 y9 y10 y11 y12 y13 y14 y15 y16 y17 y18 y19 y20 y21 y22 y23 y24 y25 y26 y27 y28 y29 y30 y31 y32 y33 y34 y35 y36 y37 y38 y39 y40 y41 y42 y43 y44 y45 y46 y47 y48 y49 y50 y51 y52 y53 y54 y55 y56 y57 y58 y59 y60 y61 y62 y63 y64 y65) :
    kept (State.mk (Supply.mk y0 y1 y2 y3 y4 y5 y6 y7 y8 y9 y10 s.sup.coreMv s.sup.fabMv s.sup.duty y11 y12 y13 y14 y15 y16 y17 y18) y19 (Trust.mk y20 y21 y22 y23 s.trust.minSvn s.trust.revoked y24 s.trust.attempts y25 y26 y27 y28 y29 y30 y31 y32 s.trust.leaf s.trust.tokens y33 y34 y35 y36 y37 y38 y39 y40 y41) y42 y43 y44 y45 y46 y47 y48 y49 y50 y51 y52 y53 y54 y55 y56 y57 y58 y59 y60 y61 y62 y63 y64 y65 s.pending) = kept s := rfl
theorem foldl_kept {β : Type} (f : State → β → State) (h : ∀ s b, kept (f s b) = kept s) (l : List β) (s : State) :
    kept (l.foldl f s) = kept s := by
  induction l generalizing s with
  | nil => rfl
  | cons a l ih => exact (ih (f s a)).trans (h s a)
theorem foldl_snd {α β : Type} (f : α × State → β → α × State) (h : ∀ r b, kept (f r b).2 = kept r.2) (l : List β)
    (r : α × State) : kept (l.foldl f r).2 = kept r.2 := by
  induction l generalizing r with
  | nil => rfl
  | cons a l ih => exact (ih (f r a)).trans (h r a)
theorem foldl_fst {α β : Type} (f : State × α → β → State × α) (h : ∀ r b, kept (f r b).1 = kept r.1) (l : List β)
    (r : State × α) : kept (l.foldl f r).1 = kept r.1 := by
  induction l generalizing r with
  | nil => rfl
  | cons a l ih => exact (ih (f r a)).trans (h r a)
theorem foldl_third {α γ β : Type} (f : α × γ × State → β → α × γ × State) (h : ∀ r b, kept (f r b).2.2 = kept r.2.2)
    (l : List β) (r : α × γ × State) : kept (l.foldl f r).2.2 = kept r.2.2 := by
  induction l generalizing r with
  | nil => rfl
  | cons a l ih => exact (ih (f r a)).trans (h r a)
theorem kept_ite (c : Prop) [Decidable c] (a b : State) : kept (if c then a else b) = if c then kept a else kept b := by split <;> rfl

end Sys2Proof.Machine
end

