-- ==== Sys2Proof/Laws/KeptSignals.lean ====
section
/-! SUPPORT. What Signals.lean leaves as it was (Kept.lean). -/

set_option linter.all false
set_option maxRecDepth 8000

namespace Sys2Proof.Machine

theorem k_across {runs : Bool} {i : Instr} {s : State} {k : State → State} (hk : ∀  s, kept (k  s) = kept s) :
    kept (across runs i s k) = kept s := by
  unfold across
  repeat' first | with_reducible rfl | simp only [↓kept_mk, ↓kept_ite, ite_self, ↓hk] | split
theorem k_raise {src kind addr : Nat} {s : State}  :
    kept (raise src kind addr s) = kept s := by
  unfold raise
  repeat' first | with_reducible rfl | intro _ | simp only [↓kept_mk, ↓kept_ite, ite_self] | split
theorem k_noteTimeref {s : State}  :
    kept (noteTimeref s) = kept s := by
  unfold noteTimeref
  repeat' first | with_reducible rfl | simp only [↓kept_mk, ↓kept_ite, ite_self, ↓k_raise] | split

end Sys2Proof.Machine
end

