-- ==== Sys2Proof/Laws/KeptNand.lean ====
section
/-! SUPPORT. What Nand.lean leaves as it was (Kept.lean). -/

set_option linter.all false
set_option maxRecDepth 8000

namespace Sys2Proof.Machine

theorem k_dcUp {k n : Nat} {s : State}  :
    kept (dcUp k n s) = kept s := by
  unfold dcUp
  repeat' first | with_reducible rfl | simp only [↓kept_mk]
theorem k_countTile {c : TileCause} {s : State}  :
    kept (countTile c s) = kept s := by
  unfold countTile
  repeat' first | with_reducible rfl | simp only [↓k_dcUp] | split
theorem k_blockMod {b : Nat} {f : Block → Block} {s : State}  :
    kept (blockMod b f s) = kept s := by
  unfold blockMod
  repeat' first | with_reducible rfl | simp only [↓kept_mk]
theorem k_mapLog {r : MapRec} {s : State}  :
    kept (mapLog r s) = kept s := by
  unfold mapLog
  repeat' first | with_reducible rfl | simp only [↓kept_mk] | split
theorem k_eraseBlock {b : Nat} {s : State}  :
    kept (eraseBlock b s) = kept s := by
  unfold eraseBlock
  repeat' first
    | with_reducible rfl
    | intro _
    | simp only [↓kept_mk, ↓kept_ite, ite_self, ↓k_raise, ↓k_blockMod, ↓k_mapLog]
    | split
    | dsimp only
theorem k_emptied {b : Nat} {s : State}  :
    kept (emptied b s) = kept s := by
  unfold emptied
  repeat' first | with_reducible rfl | simp only [↓kept_ite, ite_self, ↓k_eraseBlock] | split | dsimp only
theorem k_joinSpare {die : Nat} {slc : Bool} {s : State}  :
    kept (joinSpare die slc s) = kept s := by
  unfold joinSpare
  repeat' first
    | with_reducible rfl
    | intro _
    | simp only [↓kept_mk, ↓kept_ite, ite_self, ↓k_raise, ↓k_blockMod]
    | split
    | dsimp only
theorem k_queueWrite {g : Nat} {t : TileWrite} {s : State}  :
    kept (queueWrite g t s) = kept s := by
  unfold queueWrite
  repeat' first | with_reducible rfl | simp only [↓kept_mk, ↓kept_ite, ite_self] | split | dsimp only
theorem k_unqueue {p : TileWrite → Bool} {s : State}  :
    kept (unqueue p s) = kept s := by
  unfold unqueue
  repeat' first | with_reducible rfl | intro _ | simp only [↓kept_mk]
theorem k_moveBlock {b : Nat} {why : TileCause} {ctx : Nat} {s : State}  :
    kept (moveBlock b why ctx s) = kept s := by
  unfold moveBlock
  repeat' first
    | with_reducible rfl
    | intro _
    | simp only [↓kept_mk, ↓kept_ite, ite_self, ↓k_blockMod, ↓k_emptied, ↓k_queueWrite]
    | with_reducible refine Eq.trans (foldl_kept _ ?_ _ _) ?_
    | with_reducible refine Eq.trans (foldl_snd _ ?_ _ _) ?_
    | with_reducible refine Eq.trans (foldl_fst _ ?_ _ _) ?_
    | with_reducible refine Eq.trans (foldl_third _ ?_ _ _) ?_
    | split
    | dsimp only
theorem k_collect {die ctx : Nat} {s : State}  :
    kept (collect die ctx s) = kept s := by
  unfold collect
  repeat' first
    | with_reducible rfl
    | intro _
    | simp only [↓kept_ite, ite_self, ↓k_moveBlock]
    | with_reducible refine Eq.trans (foldl_kept _ ?_ _ _) ?_
    | with_reducible refine Eq.trans (foldl_snd _ ?_ _ _) ?_
    | with_reducible refine Eq.trans (foldl_fst _ ?_ _ _) ?_
    | with_reducible refine Eq.trans (foldl_third _ ?_ _ _) ?_
    | split
    | dsimp only
theorem k_openBlock {die : Nat} {slc : Bool} {ctx : Nat} {s : State}  :
    kept (openBlock die slc ctx s).2 = kept s := by
  unfold openBlock
  repeat' first
    | with_reducible rfl
    | intro _
    | simp only [↓kept_mk, ↓kept_ite, ite_self, ↓k_blockMod, ↓k_eraseBlock, ↓k_joinSpare, ↓k_collect]
    | split
    | dsimp only
theorem k_dropTile {key : Nat} {s : State}  :
    kept (dropTile key s) = kept s := by
  unfold dropTile
  repeat' first
    | with_reducible rfl
    | intro _
    | simp only [↓kept_mk, ↓kept_ite, ite_self, ↓k_blockMod, ↓k_emptied]
    | split
    | dsimp only
theorem k_placeTile {die stripe : Nat} {t : TileWrite} {s : State}  :
    kept (placeTile die stripe t s) = kept s := by
  unfold placeTile
  repeat' first
    | with_reducible rfl
    | intro _
    | simp only [↓kept_mk, ↓kept_ite, ite_self, ↓k_blockMod, ↓k_mapLog, ↓k_openBlock, ↓k_dropTile]
    | split
    | dsimp only
theorem k_placeOther {die : Nat} {slc : Bool} {ctx : Nat} {s : State}  :
    kept (placeOther die slc ctx s).2 = kept s := by
  unfold placeOther
  repeat' first | with_reducible rfl | intro _ | simp only [↓kept_mk, ↓k_blockMod, ↓k_openBlock] | dsimp only
theorem k_stripeReads {key n : Nat} {s : State}  :
    kept (stripeReads key n s) = kept s := by
  unfold stripeReads
  repeat' first
    | with_reducible rfl
    | intro _
    | simp only [↓kept_mk, ↓k_blockMod]
    | with_reducible refine Eq.trans (foldl_kept _ ?_ _ _) ?_
    | with_reducible refine Eq.trans (foldl_snd _ ?_ _ _) ?_
    | with_reducible refine Eq.trans (foldl_fst _ ?_ _ _) ?_
    | with_reducible refine Eq.trans (foldl_third _ ?_ _ _) ?_
    | split
    | dsimp only
theorem k_moveRead {t : TileWrite} {s : State}  :
    kept (moveRead t s) = kept s := by
  unfold moveRead
  repeat' first
    | with_reducible rfl
    | intro _
    | simp only [↓kept_mk, ↓kept_ite, ite_self, ↓k_dcUp, ↓k_blockMod, ↓k_stripeReads]
    | split
    | dsimp only
theorem k_programStripe {g : Nat} {slc : Bool} {l : List TileWrite} {s : State}  :
    kept (programStripe g slc l s) = kept s := by
  unfold programStripe
  repeat' first
    | with_reducible rfl
    | intro _
    | simp only [↓kept_mk, ↓k_dcUp, ↓k_countTile, ↓k_placeTile, ↓k_placeOther, ↓k_moveRead]
    | with_reducible refine Eq.trans (foldl_kept _ ?_ _ _) ?_
    | with_reducible refine Eq.trans (foldl_snd _ ?_ _ _) ?_
    | with_reducible refine Eq.trans (foldl_fst _ ?_ _ _) ?_
    | with_reducible refine Eq.trans (foldl_third _ ?_ _ _) ?_
    | split
    | dsimp only
theorem k_writeStripes {why : TileCause} (n : Nat) {g : Nat} {keys : List Nat} {s : State} : kept (writeStripes why n g keys s) = kept s := by
  induction n generalizing g keys s with
  | zero => rfl
  | succ n ih =>
    simp only [writeStripes]
    split
    · rfl
    · split
      · exact ih
      · exact ih.trans k_programStripe
theorem k_writeRegion {r i n : Nat} {s : State}  :
    kept (writeRegion r i n s) = kept s := by
  unfold writeRegion
  repeat' first | with_reducible rfl | intro _ | simp only [↓kept_ite, ite_self, ↓k_writeStripes] | split
theorem k_freeRegion {r : Nat} {p : Nat → Bool} {s : State}  :
    kept (freeRegion r p s) = kept s := by
  unfold freeRegion
  repeat' first
    | with_reducible rfl
    | intro _
    | simp only [↓k_mapLog, ↓k_dropTile]
    | with_reducible refine Eq.trans (foldl_kept _ ?_ _ _) ?_
    | with_reducible refine Eq.trans (foldl_snd _ ?_ _ _) ?_
    | with_reducible refine Eq.trans (foldl_fst _ ?_ _ _) ?_
    | with_reducible refine Eq.trans (foldl_third _ ?_ _ _) ?_
theorem k_readTiles {r : Nat} {p : Nat → Bool} {s : State}  :
    kept (readTiles r p s) = kept s := by
  unfold readTiles
  repeat' first | with_reducible rfl | intro _ | simp only [↓kept_mk]
theorem k_readRegion {r : Nat} {s : State}  :
    kept (readRegion r s) = kept s := by
  unfold readRegion
  repeat' first | with_reducible rfl | intro _ | simp only [↓k_readTiles]
theorem k_moveStripes {die : Nat} {s : State}  :
    kept (moveStripes die s) = kept s := by
  unfold moveStripes
  repeat' first
    | with_reducible rfl
    | intro _
    | simp only [↓kept_mk, ↓kept_ite, ite_self, ↓k_queueWrite]
    | with_reducible refine Eq.trans (foldl_kept _ ?_ _ _) ?_
    | with_reducible refine Eq.trans (foldl_snd _ ?_ _ _) ?_
    | with_reducible refine Eq.trans (foldl_fst _ ?_ _ _) ?_
    | with_reducible refine Eq.trans (foldl_third _ ?_ _ _) ?_
    | split
    | dsimp only
theorem k_failDie {die : Nat} {s : State}  :
    kept (failDie die s) = kept s := by
  unfold failDie
  repeat' first
    | with_reducible rfl
    | intro _
    | simp only [↓kept_mk, ↓kept_ite, ite_self, ↓k_raise, ↓k_moveBlock, ↓k_moveStripes]
    | with_reducible refine Eq.trans (foldl_kept _ ?_ _ _) ?_
    | with_reducible refine Eq.trans (foldl_snd _ ?_ _ _) ?_
    | with_reducible refine Eq.trans (foldl_fst _ ?_ _ _) ?_
    | with_reducible refine Eq.trans (foldl_third _ ?_ _ _) ?_
    | split
    | dsimp only
theorem k_retireBlock {b : Nat} {s : State}  :
    kept (retireBlock b s) = kept s := by
  unfold retireBlock
  repeat' first
    | with_reducible rfl
    | intro _
    | simp only [↓kept_mk, ↓kept_ite, ite_self, ↓k_dcUp, ↓k_blockMod, ↓k_mapLog, ↓k_joinSpare, ↓k_moveBlock, ↓k_failDie]
    | split
    | dsimp only
theorem k_resumeBlocks {s : State}  :
    kept (resumeBlocks s) = kept s := by
  unfold resumeBlocks
  repeat' first
    | with_reducible rfl
    | intro _
    | simp only [↓kept_ite, ite_self, ↓k_moveBlock, ↓k_moveStripes]
    | with_reducible refine Eq.trans (foldl_kept _ ?_ _ _) ?_
    | with_reducible refine Eq.trans (foldl_snd _ ?_ _ _) ?_
    | with_reducible refine Eq.trans (foldl_fst _ ?_ _ _) ?_
    | with_reducible refine Eq.trans (foldl_third _ ?_ _ _) ?_
    | split
theorem k_caseTemp {stack : Nat} {t : Int} {s : State}  :
    kept (caseTemp stack t s) = kept s := by
  unfold caseTemp
  repeat' first | with_reducible rfl | simp only [↓kept_mk, ↓kept_ite, ite_self, ↓k_raise] | split | dsimp only

end Sys2Proof.Machine
end

