-- ==== Sys2Proof/Laws/KeptOps.lean ====
section
/-! SUPPORT. What Ops.lean leaves as it was (Kept.lean). -/

set_option linter.all false
set_option maxRecDepth 8000

namespace Sys2Proof.Machine

theorem k_hostWrite {p a : Nat} {bs : Bytes} {s : State}  :
    kept (hostWrite p a bs s) = kept s := by
  unfold hostWrite
  repeat' first | with_reducible rfl | simp only [↓kept_mk, ↓kept_ite, ite_self] | split
theorem k_bumpHost {p i : Nat} {s : State}  :
    kept (bumpHost p i s) = kept s := by
  unfold bumpHost
  repeat' first | with_reducible rfl | simp only [↓kept_mk]
theorem k_signal {p v : Nat} {s : State}  :
    kept (signal p v s) = kept s := by
  unfold signal
  repeat' first | with_reducible rfl | simp only [↓kept_mk, ↓kept_ite, ite_self, ↓k_hostWrite] | split | dsimp only
theorem k_signalBoth {s : State}  :
    kept (signalBoth s) = kept s := by
  unfold signalBoth
  repeat' first | with_reducible rfl | simp only [↓k_signal]
theorem k_qSet {q : Nat} {x : Queue} {s : State}  :
    kept (qSet q x s) = kept s := by
  unfold qSet
  repeat' first | with_reducible rfl | simp only [↓kept_mk]
theorem k_postLoop {q p : Nat} (l : List (Bytes × Bool)) (x : Queue) (s : State) : kept (postLoop q p l x s).1 = kept s := by
  induction l generalizing x s with
  | nil => rfl
  | cons a l ih =>
    obtain ⟨e, irq⟩ := a
    unfold postLoop
    split
    · exact k_bumpHost
    · refine (ih _ _).trans ?_
      split
      · exact k_bumpHost.trans k_hostWrite
      · exact k_hostWrite
theorem k_postHeld {q : Nat} {s : State}  :
    kept (postHeld q s) = kept s := by
  unfold postHeld
  repeat' first
    | with_reducible rfl
    | simp only [↓kept_ite, ite_self, ↓k_signal, ↓k_qSet, ↓k_postLoop]
    | split
    | dsimp only
theorem k_post {q : Nat} {e : Bytes} {irq : Bool} {s : State}  :
    kept (post q e irq s) = kept s := by
  unfold post
  repeat' first | with_reducible rfl | simp only [↓kept_mk, ↓k_qSet, ↓k_postHeld] | dsimp only
theorem k_peerSet {d : Nat} {x : Peer} {s : State}  :
    kept (peerSet d x s) = kept s := by
  unfold peerSet
  repeat' first | with_reducible rfl | simp only [↓kept_mk]
theorem k_queuePacket {p : Packet} {part : Nat} {s : State}  :
    kept (queuePacket p part s) = kept s := by
  unfold queuePacket
  repeat' first | with_reducible rfl | simp only [↓kept_mk] | dsimp only
theorem k_queueMsg {d : Nat} {m : OutMsg} {s : State}  :
    kept (queueMsg d m s) = kept s := by
  unfold queueMsg
  repeat' first
    | with_reducible rfl
    | intro _
    | simp only [↓kept_mk, ↓kept_ite, ite_self, ↓k_queuePacket]
    | with_reducible refine Eq.trans (foldl_kept _ ?_ _ _) ?_
    | with_reducible refine Eq.trans (foldl_snd _ ?_ _ _) ?_
    | with_reducible refine Eq.trans (foldl_fst _ ?_ _ _) ?_
    | with_reducible refine Eq.trans (foldl_third _ ?_ _ _) ?_
    | split
    | dsimp only
theorem k_zlBump {k n : Nat} {s : State}  :
    kept (zlBump k n s) = kept s := by
  unfold zlBump
  repeat' first | with_reducible rfl | simp only [↓kept_mk]
theorem k_launchFrom {d : Nat} (l : List OutMsg) (x : Peer) (s : State) : kept (launchFrom d l x s) = kept s := by
  induction l generalizing x s with
  | nil => exact k_peerSet
  | cons m l ih =>
    simp only [launchFrom]
    split
    · exact (ih _ _).trans (k_zlBump.trans k_queueMsg)
    · exact ih _ _
theorem k_launchMsgs {d : Nat} {l : List OutMsg} {x : Peer} {s : State}  :
    kept (launchMsgs d l x s) = kept s := by
  unfold launchMsgs
  repeat' first | with_reducible rfl | simp only [↓kept_mk, ↓k_launchFrom]
theorem k_openSession {d : Nat} {s : State}  :
    kept (openSession d s) = kept s := by
  unfold openSession
  repeat' first
    | with_reducible rfl
    | intro _
    | simp only [↓kept_mk, ↓kept_ite, ite_self, ↓k_peerSet, ↓k_queueMsg, ↓k_zlBump]
    | split
    | dsimp only
theorem k_sendMsg {d : Nat} {m : OutMsg} {s : State}  :
    kept (sendMsg d m s) = kept s := by
  unfold sendMsg
  repeat' first | with_reducible rfl | simp only [↓k_launchMsgs, ↓k_openSession] | dsimp only
theorem k_setSlot {q seq : Nat} {x : Slot} {s : State}  :
    kept (setSlot q seq x s) = kept s := by
  unfold setSlot
  repeat' first | with_reducible rfl | simp only [↓kept_mk]
theorem k_ringMod {jidx : Nat} {f : Cmd → Cmd} {s : State}  :
    kept (ringMod jidx f s) = kept s := by
  unfold ringMod
  repeat' first | with_reducible rfl | intro _ | simp only [↓kept_mk, ↓kept_ite, ite_self] | split
theorem k_flushEnd {s : State}  :
    kept (flushEnd s) = kept s := by
  unfold flushEnd
  repeat' first | with_reducible rfl | simp only [↓kept_mk, ↓kept_ite, ite_self] | split
theorem k_freeRecord {c : Cmd} {s : State}  :
    kept (freeRecord c s) = kept s := by
  unfold freeRecord
  repeat' first | with_reducible rfl | intro _ | simp only [↓kept_mk, ↓kept_ite, ite_self, ↓k_flushEnd] | split
theorem k_resetNow {j : Nat} {s : State}  :
    kept (resetNow j s) = kept s := by
  unfold resetNow
  repeat' first | with_reducible rfl | simp only [↓kept_mk, ↓kept_mkTrust, ↓kept_ite, ite_self] | split
theorem k_recordHeld {r : HoldRec} {s : State}  :
    kept (recordHeld r s) = kept s := by
  unfold recordHeld
  repeat' first
    | with_reducible rfl
    | intro _
    | simp only [↓kept_mk, ↓kept_ite, ite_self, ↓k_post, ↓k_ringMod, ↓k_freeRecord, ↓k_resetNow]
    | split
    | dsimp only
theorem k_takeSettings {c : Control} {s : State}  :
    kept (takeSettings c s) = kept s := by
  unfold takeSettings
  repeat' first | with_reducible rfl | simp only [↓kept_mk]
theorem k_unstash {s : State}  :
    kept (unstash s) = kept s := by
  unfold unstash
  repeat' first | with_reducible rfl | intro _ | simp only [↓kept_mk, ↓k_takeSettings] | split | dsimp only
theorem k_flushStripe {n : Nat} {s : State}  :
    kept (flushStripe n s) = kept s := by
  unfold flushStripe
  repeat' first | with_reducible rfl | simp only [↓kept_mk, ↓k_writeRegion] | dsimp only
theorem k_commitJournal {s : State}  :
    kept (commitJournal s) = kept s := by
  unfold commitJournal
  repeat' first
    | with_reducible rfl
    | intro _
    | simp only [↓kept_mk, ↓kept_ite, ite_self, ↓k_recordHeld, ↓k_flushStripe]
    | with_reducible refine Eq.trans (foldl_kept _ ?_ _ _) ?_
    | with_reducible refine Eq.trans (foldl_snd _ ?_ _ _) ?_
    | with_reducible refine Eq.trans (foldl_fst _ ?_ _ _) ?_
    | with_reducible refine Eq.trans (foldl_third _ ?_ _ _) ?_
    | split
    | dsimp only
theorem k_mirrorRecord {r : HoldRec} {control : Bool} {s : State}  :
    kept (mirrorRecord r control s) = kept s := by
  unfold mirrorRecord
  repeat' first | with_reducible rfl | simp only [↓kept_mk, ↓kept_ite, ite_self, ↓k_sendMsg] | split | dsimp only
theorem k_holdRecord {r : HoldRec} {control : Bool} {s : State}  :
    kept (holdRecord r control s) = kept s := by
  unfold holdRecord
  repeat' first
    | with_reducible rfl
    | intro _
    | simp only [↓kept_mk, ↓kept_ite, ite_self, ↓k_recordHeld, ↓k_commitJournal, ↓k_mirrorRecord]
    | with_reducible refine Eq.trans (foldl_kept _ ?_ _ _) ?_
    | with_reducible refine Eq.trans (foldl_snd _ ?_ _ _) ?_
    | with_reducible refine Eq.trans (foldl_fst _ ?_ _ _) ?_
    | with_reducible refine Eq.trans (foldl_third _ ?_ _ _) ?_
    | split
    | dsimp only
theorem k_ctxSet {c : Nat} {x : Ctx} {s : State}  :
    kept (ctxSet c x s) = kept s := by
  unfold ctxSet
  repeat' first | with_reducible rfl | simp only [↓kept_mk]
theorem k_ctxMod {c : Nat} {f : Ctx → Ctx} {s : State}  :
    kept (ctxMod c f s) = kept s := by
  unfold ctxMod
  repeat' first | with_reducible rfl | simp only [↓k_ctxSet] | split
theorem k_intakeRefuse {q : Nat} {e : Bytes} {head status : Nat} {result : Bytes} {s : State}  :
    kept (intakeRefuse q e head status result s) = kept s := by
  unfold intakeRefuse
  repeat' first | with_reducible rfl | simp only [↓k_bumpHost, ↓k_post] | dsimp only
theorem k_intakeWait {p need : Nat} {s : State}  :
    kept (intakeWait p need s) = kept s := by
  unfold intakeWait
  repeat' first | with_reducible rfl | simp only [↓kept_mk, ↓kept_ite, ite_self, ↓k_bumpHost] | split | dsimp only
theorem k_intakeEntry {q : Nat} {e : Bytes} {head : Nat} {s : State}  :
    optKept (intakeEntry q e head s) (kept s) := by
  unfold intakeEntry
  repeat' first
    | with_reducible rfl
    | exact optKept_none _
    | simp only [↓kept_mk, ↓kept_ite, ite_self, optKept_some, ↓k_bumpHost, ↓k_qSet, ↓k_post, ↓k_setSlot, ↓k_holdRecord, ↓k_intakeRefuse]
    | split
    | dsimp only
theorem k_fetchLoop {q : Nat} (n : Nat) (s : State) : kept (fetchLoop q n s) = kept s := by
  induction n generalizing s with
  | zero => rfl
  | succ n ih =>
    simp only [fetchLoop]
    split
    · rfl
    · split
      · exact kept_mk _ _ _ _ _ _ _ _ _ _ _ _ _ _ _ _ _ _ _ _ _ _ _ _ _ _
      · split
        · exact kept_mk _ _ _ _ _ _ _ _ _ _ _ _ _ _ _ _ _ _ _ _ _ _ _ _ _ _
        · split
          · exact k_intakeWait
          · split
            · rename_i t ht
              exact (ih t).trans ((optKept_use k_intakeEntry ht).trans (k_qSet.trans (kept_mk _ _ _ _ _ _ _ _ _ _ _ _ _ _ _ _ _ _ _ _ _ _ _ _ _ _)))
            · exact k_intakeWait.trans (kept_mk _ _ _ _ _ _ _ _ _ _ _ _ _ _ _ _ _ _ _ _ _ _ _ _ _ _)
theorem k_fetchQueue {q : Nat} {s : State}  :
    kept (fetchQueue q s) = kept s := by
  unfold fetchQueue
  repeat' first | with_reducible rfl | simp only [↓k_fetchLoop]
theorem k_resumeIntake {s : State}  :
    kept (resumeIntake s) = kept s := by
  unfold resumeIntake
  repeat' first
    | with_reducible rfl
    | intro _
    | simp only [↓kept_mk, ↓kept_ite, ite_self, ↓k_fetchQueue]
    | with_reducible refine Eq.trans (foldl_kept _ ?_ _ _) ?_
    | with_reducible refine Eq.trans (foldl_snd _ ?_ _ _) ?_
    | with_reducible refine Eq.trans (foldl_fst _ ?_ _ _) ?_
    | with_reducible refine Eq.trans (foldl_third _ ?_ _ _) ?_
    | split
    | dsimp only
theorem k_holdWhere {p : HoldRec → Bool} {s : State}  :
    kept (holdWhere p s) = kept s := by
  unfold holdWhere
  repeat' first
    | with_reducible rfl
    | intro _
    | simp only [↓kept_mk, ↓k_recordHeld, ↓k_resumeIntake]
    | with_reducible refine Eq.trans (foldl_kept _ ?_ _ _) ?_
    | with_reducible refine Eq.trans (foldl_snd _ ?_ _ _) ?_
    | with_reducible refine Eq.trans (foldl_fst _ ?_ _ _) ?_
    | with_reducible refine Eq.trans (foldl_third _ ?_ _ _) ?_
    | dsimp only
theorem k_finish {c : Cmd} {status : Nat} {result : Bytes} {s : State}  :
    kept (finish c status result s) = kept s := by
  unfold finish
  repeat' first
    | with_reducible rfl
    | intro _
    | simp only [↓kept_mk, ↓kept_ite, ite_self, ↓k_setSlot, ↓k_ringMod, ↓k_holdRecord, ↓k_resumeIntake]
    | split
    | dsimp only
theorem k_refuse {c : Cmd} {status : Nat} {s : State}  :
    kept (refuse c status s) = kept s := by
  unfold refuse
  repeat' first | with_reducible rfl | simp only [↓k_finish]
theorem k_begun {c : Cmd} {s : State}  :
    kept (begun c s) = kept s := by
  unfold begun
  repeat' first | with_reducible rfl | intro _ | simp only [↓kept_mk, ↓k_ringMod]
theorem k_finishJ {j status : Nat} {result : Bytes} {s : State}  :
    kept (finishJ j status result s) = kept s := by
  unfold finishJ
  repeat' first | with_reducible rfl | simp only [↓kept_ite, ite_self, ↓k_finish] | split
theorem k_runCmd {s : State} {q seq op : Nat} {onCtx : Bool} {named : List (Nat × Nat)} {body : Cmd → State → State} (hbody : ∀ v0 s, kept (body v0 s) = kept s) :
    kept (runCmd s q seq op onCtx named body) = kept s := by
  unfold runCmd
  repeat' first | with_reducible rfl | simp only [↓kept_ite, ite_self, ↓k_refuse, ↓hbody] | split
theorem k_runSub {s : State} {q seq op : Nat} {pick : Cmd → Bool} {onCtx : Bool} {named : List (Nat × Nat)} {body : Cmd → State → State} (hbody : ∀ v0 s, kept (body v0 s) = kept s) :
    kept (runSub s q seq op pick onCtx named body) = kept s := by
  unfold runSub
  repeat' first
    | with_reducible rfl
    | intro _
    | simp only [↓kept_ite, ite_self, ↓hbody]
    | refine Eq.trans (k_runCmd ?_) ?_
    | split
theorem k_withHost {c : Cmd} {s : State} {k : State → State} (hk : ∀  s, kept (k  s) = kept s) :
    kept (withHost c s k) = kept s := by
  unfold withHost
  repeat' first | with_reducible rfl | simp only [↓kept_ite, ite_self, ↓k_refuse, ↓hk] | split
theorem k_drawFree {s : State}  :
    kept (drawFree s).2 = kept s := by
  unfold drawFree
  repeat' first | with_reducible rfl | simp only [↓kept_mk]

end Sys2Proof.Machine
end

