-- ==== Sys2Proof/Laws/KeptManage.lean ====
section
/-! SUPPORT. What Manage.lean leaves as it was (Kept.lean). -/

set_option linter.all false
set_option maxRecDepth 8000

namespace Sys2Proof.Machine

theorem k_setParam {s : State} {q seq param : Nat} {body : Nat → Nat → Cmd → State → State} (hbody : ∀ v0 v1 v2 s, kept (body v0 v1 v2 s) = kept s) :
    kept (setParam s q seq param body) = kept s := by
  unfold setParam
  repeat' first
    | with_reducible rfl
    | intro _
    | simp only [↓kept_ite, ite_self, ↓k_refuse, ↓hbody]
    | refine Eq.trans (k_runSub ?_) ?_
    | split
theorem k_setDone {c : Cmd} {old : Nat} {s : State}  :
    kept (setDone c old s) = kept s := by
  unfold setDone
  repeat' first | with_reducible rfl | simp only [↓k_finish]
theorem k_execIdentify {q : Fin 512} {seq : Nat} {s : State}  :
    outKept (execIdentify q seq s) = some (kept s) := by
  unfold execIdentify
  repeat' first
    | with_reducible rfl
    | intro _
    | simp only [↓outKept_next, ↓k_finish]
    | refine Eq.trans (k_runCmd ?_) ?_
    | refine congrArg some ?_
theorem k_execGetInfo {q : Fin 512} {seq : Nat} {s : State}  :
    outKept (execGetInfo q seq s) = some (kept s) := by
  unfold execGetInfo
  repeat' first
    | with_reducible rfl
    | intro _
    | simp only [↓outKept_next, ↓kept_ite, ite_self, ↓k_hostWrite, ↓k_finish, ↓k_refuse]
    | refine Eq.trans (k_runCmd ?_) ?_
    | refine congrArg some ?_
    | split
theorem k_enableQueue {q vector sqLog2 cqLog2 sqBase cqBase : Nat} {s : State}  :
    kept (enableQueue q vector sqLog2 cqLog2 sqBase cqBase s) = kept s := by
  unfold enableQueue
  repeat' first | with_reducible rfl | simp only [↓kept_mk, ↓k_qSet, ↓k_postHeld]
theorem k_execSetParamQueue {q : Fin 512} {seq : Nat} {s : State}  :
    outKept (execSetParamQueue q seq s) = some (kept s) := by
  unfold execSetParamQueue
  repeat' first
    | with_reducible rfl
    | intro _
    | simp only [↓outKept_next, ↓kept_mk, ↓kept_ite, ite_self, ↓k_qSet, ↓k_refuse, ↓k_setDone, ↓k_enableQueue]
    | refine Eq.trans (k_setParam ?_) ?_
    | refine congrArg some ?_
    | split
    | dsimp only
theorem k_execSetParamFcSeverity {q : Fin 512} {seq : Nat} {s : State}  :
    outKept (execSetParamFcSeverity q seq s) = some (kept s) := by
  unfold execSetParamFcSeverity
  repeat' first
    | with_reducible rfl
    | intro _
    | simp only [↓outKept_next, ↓kept_mk, ↓kept_ite, ite_self, ↓k_refuse, ↓k_setDone]
    | refine Eq.trans (k_setParam ?_) ?_
    | refine congrArg some ?_
    | split
theorem k_execSetParamPowerLimit {q : Fin 512} {seq : Nat} {s : State}  :
    outKept (execSetParamPowerLimit q seq s) = some (kept s) := by
  unfold execSetParamPowerLimit
  repeat' first
    | with_reducible rfl
    | intro _
    | simp only [↓outKept_next, ↓kept_mk, ↓kept_ite, ite_self, ↓k_refuse, ↓k_setDone]
    | refine Eq.trans (k_setParam ?_) ?_
    | refine congrArg some ?_
    | split
theorem k_execSetParamJournalFlush {q : Fin 512} {seq : Nat} {s : State}  :
    outKept (execSetParamJournalFlush q seq s) = some (kept s) := by
  unfold execSetParamJournalFlush
  repeat' first
    | with_reducible rfl
    | intro _
    | simp only [↓outKept_next, ↓kept_mk, ↓kept_ite, ite_self, ↓k_refuse, ↓k_setDone]
    | refine Eq.trans (k_setParam ?_) ?_
    | refine congrArg some ?_
    | split
    | dsimp only
theorem k_execSetParamWvLog2 {q : Fin 512} {seq : Nat} {s : State}  :
    outKept (execSetParamWvLog2 q seq s) = some (kept s) := by
  unfold execSetParamWvLog2
  repeat' first
    | with_reducible rfl
    | intro _
    | simp only [↓outKept_next, ↓kept_mk, ↓kept_ite, ite_self, ↓k_refuse, ↓k_setDone]
    | refine Eq.trans (k_setParam ?_) ?_
    | refine congrArg some ?_
    | split
theorem k_execSetParamWvThresh {q : Fin 512} {seq : Nat} {s : State}  :
    outKept (execSetParamWvThresh q seq s) = some (kept s) := by
  unfold execSetParamWvThresh
  repeat' first
    | with_reducible rfl
    | intro _
    | simp only [↓outKept_next, ↓kept_mk, ↓kept_ite, ite_self, ↓k_refuse, ↓k_setDone]
    | refine Eq.trans (k_setParam ?_) ?_
    | refine congrArg some ?_
    | split
theorem k_execGetParam {q : Fin 512} {seq : Nat} {s : State}  :
    outKept (execGetParam q seq s) = some (kept s) := by
  unfold execGetParam
  repeat' first
    | with_reducible rfl
    | intro _
    | simp only [↓outKept_next, ↓kept_ite, ite_self, ↓k_hostWrite, ↓k_finish, ↓k_refuse]
    | refine Eq.trans (k_runCmd ?_) ?_
    | refine congrArg some ?_
    | split
theorem k_moveQueue {q : Nat} {s : State}  :
    kept (moveQueue q s) = kept s := by
  unfold moveQueue
  repeat' first | with_reducible rfl | simp only [↓kept_mk, ↓kept_ite, ite_self, ↓k_qSet] | split | dsimp only
theorem k_execHostAdopt {q : Fin 512} {seq : Nat} {s : State}  :
    outKept (execHostAdopt q seq s) = some (kept s) := by
  unfold execHostAdopt
  repeat' first
    | with_reducible rfl
    | intro _
    | simp only [↓outKept_next, ↓kept_ite, ite_self, ↓k_signalBoth, ↓k_finish, ↓k_refuse, ↓k_moveQueue]
    | refine Eq.trans (k_runCmd ?_) ?_
    | with_reducible refine Eq.trans (foldl_kept _ ?_ _ _) ?_
    | with_reducible refine Eq.trans (foldl_snd _ ?_ _ _) ?_
    | with_reducible refine Eq.trans (foldl_fst _ ?_ _ _) ?_
    | with_reducible refine Eq.trans (foldl_third _ ?_ _ _) ?_
    | refine congrArg some ?_
    | split
    | dsimp only

end Sys2Proof.Machine
end

