-- ==== Sys2Proof/Laws/KeptBar.lean ====
section
/-! SUPPORT. What Bar.lean leaves as it was (Kept.lean). -/

set_option linter.all false
set_option maxRecDepth 8000

namespace Sys2Proof.Machine

theorem k_writeAdminCfg {p : Nat} {value : BitVec 32} {s : State}  :
    kept (writeAdminCfg p value s) = kept s := by
  unfold writeAdminCfg
  repeat' first
    | with_reducible rfl
    | simp only [↓kept_mk, ↓kept_ite, ite_self, ↓k_qSet, ↓k_enableQueue]
    | split
    | dsimp only
theorem k_ringSq {p slot : Nat} {value : BitVec 32} {s : State}  :
    kept (ringSq p slot value s) = kept s := by
  unfold ringSq
  repeat' first
    | with_reducible rfl
    | simp only [↓kept_mk, ↓kept_ite, ite_self, ↓k_bumpHost, ↓k_qSet, ↓k_fetchQueue]
    | split
    | dsimp only
theorem k_ringCq {p slot : Nat} {value : BitVec 32} {s : State}  :
    kept (ringCq p slot value s) = kept s := by
  unfold ringCq
  repeat' first
    | with_reducible rfl
    | simp only [↓kept_mk, ↓kept_ite, ite_self, ↓k_bumpHost, ↓k_qSet, ↓k_postHeld, ↓k_fetchQueue]
    | split
    | dsimp only
theorem k_writeMsix {p i word : Nat} {value : BitVec 32} {s : State}  :
    kept (writeMsix p i word value s) = kept s := by
  unfold writeMsix
  repeat' first | with_reducible rfl | simp only [↓kept_mk, ↓kept_ite, ite_self, ↓k_signal] | split | dsimp only
theorem k_writeWord {p off : Nat} {v : BitVec 32} {s : State}  :
    kept (writeWord p off v s) = kept s := by
  unfold writeWord
  repeat' first
    | with_reducible rfl
    | simp only [↓kept_mk, ↓kept_ite, ite_self, ↓k_writeAdminCfg, ↓k_ringSq, ↓k_ringCq, ↓k_writeMsix]
    | split
    | dsimp only
theorem k_execAdminCfgWrite {hp : Fin 2} {value : BitVec 32} {s : State}  :
    outKept (execAdminCfgWrite hp value s) = some (kept s) := by
  unfold execAdminCfgWrite
  repeat' first
    | with_reducible rfl
    | intro _
    | simp only [↓outKept_next, ↓kept_ite, ite_self, ↓k_writeAdminCfg]
    | refine Eq.trans (k_across ?_) ?_
    | refine congrArg some ?_
    | split
theorem k_execDbSqWrite {hp : Fin 2} {slot : Fin 512} {value : BitVec 32} {s : State}  :
    outKept (execDbSqWrite hp slot value s) = some (kept s) := by
  unfold execDbSqWrite
  repeat' first
    | with_reducible rfl
    | intro _
    | simp only [↓outKept_next, ↓kept_ite, ite_self, ↓k_ringSq]
    | refine Eq.trans (k_across ?_) ?_
    | refine congrArg some ?_
    | split
theorem k_execDbCqWrite {hp : Fin 2} {slot : Fin 512} {value : BitVec 32} {s : State}  :
    outKept (execDbCqWrite hp slot value s) = some (kept s) := by
  unfold execDbCqWrite
  repeat' first
    | with_reducible rfl
    | intro _
    | simp only [↓outKept_next, ↓kept_ite, ite_self, ↓k_ringCq]
    | refine Eq.trans (k_across ?_) ?_
    | refine congrArg some ?_
    | split
theorem k_writeRegister {p offset : Nat} {wide : Bool} {value : BitVec 64} {s : State}  :
    kept (writeRegister p offset wide value s) = kept s := by
  unfold writeRegister
  repeat' first | with_reducible rfl | simp only [↓kept_ite, ite_self, ↓k_writeWord] | split
theorem k_execRegisterWrite {hp : Fin 2} {offset : Nat} {wide : Bool} {value : BitVec 64} {s : State}  :
    outKept (execRegisterWrite hp offset wide value s) = some (kept s) := by
  unfold execRegisterWrite
  repeat' first
    | with_reducible rfl
    | intro _
    | simp only [↓outKept_next, ↓kept_ite, ite_self, ↓k_writeRegister]
    | refine Eq.trans (k_across ?_) ?_
    | refine congrArg some ?_
    | split
theorem k_execHostLinkUp {hp : Fin 2} {s : State}  :
    outKept (execHostLinkUp hp s) = some (kept s) := by
  unfold execHostLinkUp
  repeat' first
    | with_reducible rfl
    | simp only [↓outKept_next, ↓kept_mk, ↓kept_mkSup, ↓kept_ite, ite_self]
    | refine congrArg some ?_
    | split
    | dsimp only
theorem k_disablePort {p : Nat} {s : State}  :
    kept (disablePort p s) = kept s := by
  unfold disablePort
  repeat' first | with_reducible rfl | intro _ | simp only [↓kept_mk, ↓kept_ite, ite_self] | split | dsimp only
theorem k_resetPort {p : Nat} {s : State}  :
    kept (resetPort p s) = kept s := by
  unfold resetPort
  repeat' first
    | with_reducible rfl
    | intro _
    | simp only [↓kept_mk, ↓kept_ite, ite_self, ↓k_disablePort]
    | split
    | dsimp only
theorem k_execHostPortReset {hp : Fin 2} {perstLow : Bool} {s : State}  :
    outKept (execHostPortReset hp perstLow s) = some (kept s) := by
  unfold execHostPortReset
  repeat' first
    | with_reducible rfl
    | simp only [↓outKept_next, ↓kept_mk, ↓kept_mkSup, ↓kept_ite, ite_self, ↓k_raise, ↓k_resetPort]
    | refine congrArg some ?_
    | split
    | dsimp only
theorem k_execCompletionTimeOut {hp : Fin 2} {address : BitVec 64} {s : State}  :
    outKept (execCompletionTimeOut hp address s) = some (kept s) := by
  unfold execCompletionTimeOut
  repeat' first
    | with_reducible rfl
    | simp only [↓outKept_next, ↓kept_mk, ↓k_raise, ↓k_bumpHost]
    | refine congrArg some ?_

end Sys2Proof.Machine
end

