-- ==== Sys2Proof/Laws/KeptUnits.lean ====
section
/-! SUPPORT. What Units.lean leaves as it was (Kept.lean). -/

set_option linter.all false
set_option maxRecDepth 8000

namespace Sys2Proof.Machine

theorem k_rodSet {n : Nat} {x : Rod} {s : State}  :
    kept (rodSet n x s) = kept s := by
  unfold rodSet
  repeat' first | with_reducible rfl | simp only [↓kept_mk]
theorem k_rodMod {n : Nat} {f : Rod → Rod} {s : State}  :
    kept (rodMod n f s) = kept s := by
  unfold rodMod
  repeat' first | with_reducible rfl | simp only [↓k_rodSet]
theorem k_runMod {n : Nat} {f : Run → Run} {s : State}  :
    kept (runMod n f s) = kept s := by
  unfold runMod
  repeat' first | with_reducible rfl | intro _ | simp only [↓kept_mk, ↓k_rodMod]
theorem k_stratumMod {k : Nat} {f : Stratum → Stratum} {s : State}  :
    kept (stratumMod k f s) = kept s := by
  unfold stratumMod
  repeat' first | with_reducible rfl | simp only [↓kept_mk]
theorem k_wvMod {f : Nat} {g : Weathervane → Weathervane} {s : State}  :
    kept (wvMod f g s) = kept s := by
  unfold wvMod
  repeat' first | with_reducible rfl | simp only [↓kept_mk]
theorem k_unwaitRod {n : Nat} {s : State}  :
    kept (unwaitRod n s) = kept s := by
  unfold unwaitRod
  repeat' first | with_reducible rfl | intro _ | simp only [↓kept_mk]
theorem k_wipeRod {n : Nat} {queue : List Launch} {s : State}  :
    kept (wipeRod n queue s) = kept s := by
  unfold wipeRod
  repeat' first | with_reducible rfl | intro _ | simp only [↓kept_mk, ↓k_rodSet, ↓k_unwaitRod]
theorem k_groupsOff {s : State}  :
    kept (groupsOff s) = kept s := by
  unfold groupsOff
  repeat' first | with_reducible rfl | simp only [↓kept_mk, ↓kept_mkSup]
theorem k_groupsOn {n : Nat} {s : State}  :
    kept (groupsOn n s) = kept s := by
  unfold groupsOn
  repeat' first | with_reducible rfl | simp only [↓kept_mk, ↓kept_mkSup]
theorem k_powerGroup {g : Nat} {s : State}  :
    kept (powerGroup g s) = kept s := by
  unfold powerGroup
  repeat' first
    | with_reducible rfl
    | intro _
    | simp only [↓kept_mk, ↓kept_mkSup, ↓kept_ite, ite_self, ↓k_wipeRod]
    | with_reducible refine Eq.trans (foldl_kept _ ?_ _ _) ?_
    | with_reducible refine Eq.trans (foldl_snd _ ?_ _ _) ?_
    | with_reducible refine Eq.trans (foldl_fst _ ?_ _ _) ?_
    | with_reducible refine Eq.trans (foldl_third _ ?_ _ _) ?_
    | split
    | dsimp only
theorem k_powerRod {n : Nat} {s : State}  :
    kept (powerRod n s) = kept s := by
  unfold powerRod
  repeat' first | with_reducible rfl | simp only [↓k_powerGroup]
theorem k_rsWrite {n a : Nat} {bs : Bytes} {s : State}  :
    kept (rsWrite n a bs s) = kept s := by
  unfold rsWrite
  repeat' first | with_reducible rfl | simp only [↓kept_mk]
theorem k_logRecord {part : Nat} {r : BitVec 256} {s : State}  :
    kept (logRecord part r s) = kept s := by
  unfold logRecord
  repeat' first | with_reducible rfl | intro _ | simp only [↓kept_mk, ↓k_stratumMod] | dsimp only
theorem k_logEvents {part layer tag ctx unit : Nat} {second : Bool} {evs : List NumEv} {s : State}  :
    kept (logEvents part layer tag ctx unit second evs s) = kept s := by
  unfold logEvents
  repeat' first
    | with_reducible rfl
    | intro _
    | simp only [↓kept_ite, ite_self, ↓k_raise, ↓k_logRecord]
    | with_reducible refine Eq.trans (foldl_kept _ ?_ _ _) ?_
    | with_reducible refine Eq.trans (foldl_snd _ ?_ _ _) ?_
    | with_reducible refine Eq.trans (foldl_fst _ ?_ _ _) ?_
    | with_reducible refine Eq.trans (foldl_third _ ?_ _ _) ?_
    | split
    | dsimp only
theorem k_haltRod {n reason va : Nat} {w : BitVec 256} {s : State}  :
    kept (haltRod n reason va w s) = kept s := by
  unfold haltRod
  repeat' first
    | with_reducible rfl
    | intro _
    | simp only [↓kept_mk, ↓kept_ite, ite_self, ↓k_raise, ↓k_rodMod, ↓k_runMod]
    | split
    | dsimp only
theorem k_withUpset {n : Nat} {f : Flight} {e : Option Upset} {k : State → State} {s : State} (hk : ∀  s, kept (k  s) = kept s) :
    kept (withUpset n f e k s) = kept s := by
  unfold withUpset
  repeat' first
    | with_reducible rfl
    | intro _
    | simp only [↓kept_mk, ↓kept_ite, ite_self, ↓k_raise, ↓k_rodMod, ↓k_haltRod, ↓hk]
    | split
theorem k_startFlight {n u : Nat} {f : Flight} {s : State}  :
    kept (startFlight n u f s) = kept s := by
  unfold startFlight
  repeat' first | with_reducible rfl | intro _ | simp only [↓kept_mk, ↓kept_ite, ite_self, ↓k_runMod] | split
theorem k_onUnit {s : State} {n u op : Nat} {e : Option Upset} {body : Run → Flight → State → State} (hbody : ∀ v0 v1 s, kept (body v0 v1 s) = kept s) :
    kept (onUnit s n u op e body) = kept s := by
  unfold onUnit
  repeat' first
    | with_reducible rfl
    | intro _
    | simp only [↓kept_ite, ite_self, ↓hbody]
    | refine Eq.trans (k_withUpset ?_) ?_
    | split
theorem k_settle {n u : Nat} {f : Flight} {t : Tally} {marks : Bool} {draws : Nat} {s : State}  :
    kept (settle n u f t marks draws s) = kept s := by
  unfold settle
  repeat' first
    | with_reducible rfl
    | intro _
    | simp only [↓kept_mk, ↓kept_ite, ite_self, ↓k_rodMod]
    | split
    | dsimp only

end Sys2Proof.Machine
end

