-- ==== Sys2Proof/Laws/KeptArray.lean ====
section
/-! SUPPORT. What Array.lean leaves as it was (Kept.lean). -/

set_option linter.all false
set_option maxRecDepth 8000

namespace Sys2Proof.Machine

theorem k_openFirst {s : State} {t : Tally}  :
    kept (openFirst s t).2 = kept s := by
  unfold openFirst
  repeat' first
    | with_reducible rfl
    | intro _
    | simp only [↓kept_mk, ↓kept_ite, ite_self, ↓k_drawFree]
    | split
    | dsimp only
theorem k_runInto {n : Nat} {f : Flight} {fp32 : Bool} {rows cols : Nat} {sc : Option Int × Option Int × Option Int} {beats : List (List Val × List Val)} {t : Tally} {s : State}  :
    kept (runInto n f fp32 rows cols sc beats t s) = kept s := by
  unfold runInto
  repeat' first
    | with_reducible rfl
    | intro _
    | simp only [↓kept_mk, ↓k_rodMod, ↓k_settle, ↓k_openFirst]
    | dsimp only
theorem k_execMma {rod : Fin 64} {e : Option Upset} {s : State}  :
    outKept (execMma rod e s) = some (kept s) := by
  unfold execMma
  repeat' first
    | with_reducible rfl
    | intro _
    | simp only [↓outKept_next, ↓kept_ite, ite_self, ↓k_haltRod, ↓k_runInto]
    | refine Eq.trans (k_onUnit ?_) ?_
    | refine congrArg some ?_
    | split
    | dsimp only
theorem k_execLoadw {rod : Fin 64} {e : Option Upset} {s : State}  :
    outKept (execLoadw rod e s) = some (kept s) := by
  unfold execLoadw
  repeat' first
    | with_reducible rfl
    | intro _
    | simp only [↓outKept_next, ↓kept_ite, ite_self, ↓k_haltRod, ↓k_runInto]
    | refine Eq.trans (k_onUnit ?_) ?_
    | refine congrArg some ?_
    | split
    | dsimp only
theorem k_execSwap {rod : Fin 64} {e : Option Upset} {s : State}  :
    outKept (execSwap rod e s) = some (kept s) := by
  unfold execSwap
  repeat' first
    | with_reducible rfl
    | intro _
    | simp only [↓outKept_next, ↓kept_mk, ↓k_rodSet, ↓k_settle]
    | refine Eq.trans (k_onUnit ?_) ?_
    | refine congrArg some ?_
    | dsimp only
theorem k_execBankLoad {rod : Fin 64} {e : Option Upset} {s : State}  :
    outKept (execBankLoad rod e s) = some (kept s) := by
  unfold execBankLoad
  repeat' first
    | with_reducible rfl
    | intro _
    | simp only [↓outKept_next, ↓kept_ite, ite_self, ↓k_rodMod, ↓k_haltRod, ↓k_settle]
    | refine Eq.trans (k_onUnit ?_) ?_
    | refine congrArg some ?_
    | split
    | dsimp only
theorem k_sampleDrain {n : Nat} {r : Run} {f : Flight} {b : Bank} {fp32 : Bool} {elems : List (Nat × Nat × BitVec 32)} {s : State}  :
    kept (sampleDrain n r f b fp32 elems s) = kept s := by
  unfold sampleDrain
  repeat' first
    | with_reducible rfl
    | intro _
    | simp only [↓kept_mk, ↓kept_ite, ite_self, ↓k_wvMod]
    | split
    | dsimp only
theorem k_overflowEv {s : State} {b : Bank} {fp32 : Bool} {rows cols : Nat} {t : Tally}  :
    kept (overflowEv s b fp32 rows cols t).2 = kept s := by
  unfold overflowEv
  repeat' first | with_reducible rfl | intro _ | simp only [↓kept_ite, ite_self, ↓k_drawFree] | split | dsimp only
theorem k_drainStore {rod : Nat} {w : BitVec 256} {fm : Nat} {scales : List Int} {out : List (DrainElem × Nat)} {s : State}  :
    kept (drainStore rod w fm scales out s) = kept s := by
  unfold drainStore
  repeat' first
    | with_reducible rfl
    | intro _
    | simp only [↓kept_ite, ite_self, ↓k_rsWrite]
    | with_reducible refine Eq.trans (foldl_kept _ ?_ _ _) ?_
    | with_reducible refine Eq.trans (foldl_snd _ ?_ _ _) ?_
    | with_reducible refine Eq.trans (foldl_fst _ ?_ _ _) ?_
    | with_reducible refine Eq.trans (foldl_third _ ?_ _ _) ?_
    | split
    | dsimp only
theorem k_drainSample {rod : Nat} {r r' : Run} {f : Flight} {b : Bank} {fp32 : Bool} {elems : List (Nat × Nat × BitVec 32)} {s : State}  :
    kept (drainSample rod r r' f b fp32 elems s) = kept s := by
  unfold drainSample
  repeat' first
    | with_reducible rfl
    | intro _
    | simp only [↓kept_mk, ↓kept_ite, ite_self, ↓k_rodMod, ↓k_sampleDrain]
    | split
    | dsimp only
theorem k_drainRun {rod : Nat} {r r' : Run} {f : Flight} {s : State}  :
    kept (drainRun rod r r' f s) = kept s := by
  unfold drainRun
  repeat' first
    | with_reducible rfl
    | intro _
    | simp only [↓kept_mk, ↓kept_ite, ite_self, ↓k_settle, ↓k_overflowEv, ↓k_drainStore, ↓k_drainSample]
    | split
    | dsimp only
theorem k_execDrain {rod : Fin 64} {e : Option Upset} {s : State}  :
    outKept (execDrain rod e s) = some (kept s) := by
  unfold execDrain
  repeat' first
    | with_reducible rfl
    | intro _
    | simp only [↓outKept_next, ↓kept_ite, ite_self, ↓k_haltRod, ↓k_drainRun]
    | refine Eq.trans (k_onUnit ?_) ?_
    | refine congrArg some ?_
    | split
    | dsimp only
theorem k_execMmv {rod : Fin 64} {e : Option Upset} {s : State}  :
    outKept (execMmv rod e s) = some (kept s) := by
  unfold execMmv
  repeat' first
    | with_reducible rfl
    | intro _
    | simp only [↓outKept_next, ↓kept_ite, ite_self, ↓k_rsWrite, ↓k_haltRod, ↓k_settle, ↓k_openFirst]
    | refine Eq.trans (k_onUnit ?_) ?_
    | refine congrArg some ?_
    | split
    | dsimp only

end Sys2Proof.Machine
end

