-- ==== Sys2Proof/Laws/KeptVector.lean ====
section
/-! SUPPORT. What Vector.lean leaves as it was (Kept.lean). -/

set_option linter.all false
set_option maxRecDepth 8000

namespace Sys2Proof.Machine

theorem k_execVec {rod : Fin 64} {e : Option Upset} {s : State}  :
    outKept (execVec rod e s) = some (kept s) := by
  unfold execVec
  repeat' first
    | with_reducible rfl
    | intro _
    | simp only [↓outKept_next, ↓kept_mk, ↓kept_ite, ite_self, ↓k_runMod, ↓k_rsWrite, ↓k_haltRod, ↓k_settle]
    | refine Eq.trans (k_onUnit ?_) ?_
    | refine congrArg some ?_
    | split
    | dsimp only

end Sys2Proof.Machine
end

