-- ==== Sys2Proof/Laws/KeptIndex.lean ====
section
/-! SUPPORT. What Index.lean leaves as it was (Kept.lean). -/

set_option linter.all false
set_option maxRecDepth 8000

namespace Sys2Proof.Machine

theorem k_redCell {n : Nat} {w : BitVec 256} {fi fo : Nat} {key : BitVec 64} {d0 : Nat} {row : Nat} {elems : List Nat} {comb : Bool} {a : RedAcc} {c : Nat}  :
    kept (redCell n w fi fo key d0 row elems comb a c).s = kept a.s := by
  unfold redCell
  repeat' first | with_reducible rfl | simp only [↓kept_ite, ite_self, ↓k_rsWrite] | split | dsimp only
theorem foldl_red {β : Type} (f : RedAcc → β → RedAcc) (h : ∀ r b, kept (f r b).s = kept r.s) (l : List β)
    (r : RedAcc) : kept (l.foldl f r).s = kept r.s := by
  induction l generalizing r with
  | nil => rfl
  | cons a l ih => exact (ih (f r a)).trans (h r a)
theorem k_redWrite {n : Nat} {w : BitVec 256} {fi fo : Nat} {key : BitVec 64} {d0 row : Nat} {elems : List Nat}
    {comb : Bool} {a : RedAcc} : kept (redWrite n w fi fo key d0 row elems comb a).s = kept a.s := by
  unfold redWrite
  exact foldl_red _ (fun _ _ => k_redCell) _ _
theorem k_redRun {s : State} {rod : Nat} {r : Run} {w : BitVec 256} {a : RedAcc} {q : Int × List Nat}  :
    kept (redRun s rod r w a q).s = kept a.s := by
  unfold redRun
  repeat' first
    | with_reducible rfl
    | intro _
    | simp only [↓kept_mk, ↓kept_ite, ite_self, ↓k_redWrite]
    | split
    | dsimp only
theorem k_redAll {s : State} {rod : Nat} {r : Run} {w : BitVec 256}  :
    kept (redAll s rod r w).s = kept s := by
  unfold redAll
  repeat' first
    | with_reducible rfl
    | intro _
    | simp only [↓kept_mk, ↓k_redRun]
    | with_reducible refine Eq.trans (foldl_kept _ ?_ _ _) ?_
    | with_reducible refine Eq.trans (foldl_snd _ ?_ _ _) ?_
    | with_reducible refine Eq.trans (foldl_fst _ ?_ _ _) ?_
    | with_reducible refine Eq.trans (foldl_third _ ?_ _ _) ?_
    | with_reducible refine Eq.trans (foldl_red _ ?_ _ _) ?_
theorem k_redInit {rod : Nat} {r : Run} {w : BitVec 256} {rows : List Nat} {s : State}  :
    kept (redInit rod r w rows s) = kept s := by
  unfold redInit
  repeat' first
    | with_reducible rfl
    | intro _
    | simp only [↓kept_ite, ite_self, ↓k_rsWrite]
    | with_reducible refine Eq.trans (foldl_kept _ ?_ _ _) ?_
    | with_reducible refine Eq.trans (foldl_snd _ ?_ _ _) ?_
    | with_reducible refine Eq.trans (foldl_fst _ ?_ _ _) ?_
    | with_reducible refine Eq.trans (foldl_third _ ?_ _ _) ?_
    | split
theorem k_execReduce {rod : Fin 64} {e : Option Upset} {s : State}  :
    outKept (execReduce rod e s) = some (kept s) := by
  unfold execReduce
  repeat' first
    | with_reducible rfl
    | intro _
    | simp only [↓outKept_next, ↓kept_mk, ↓kept_ite, ite_self, ↓k_runMod, ↓k_haltRod, ↓k_settle, ↓k_redAll, ↓k_redInit]
    | refine Eq.trans (k_onUnit ?_) ?_
    | refine congrArg some ?_
    | split
    | dsimp only
theorem k_execSortKeys {rod : Fin 64} {e : Option Upset} {s : State}  :
    outKept (execSortKeys rod e s) = some (kept s) := by
  unfold execSortKeys
  repeat' first
    | with_reducible rfl
    | intro _
    | simp only [↓outKept_next, ↓kept_mk, ↓kept_ite, ite_self, ↓k_rsWrite, ↓k_haltRod, ↓k_settle]
    | refine Eq.trans (k_onUnit ?_) ?_
    | refine congrArg some ?_
    | split
    | dsimp only
theorem k_keepCount {rod : Nat} {w : BitVec 256} {s : State}  :
    kept (keepCount rod w s) = kept s := by
  unfold keepCount
  repeat' first | with_reducible rfl | simp only [↓kept_ite, ite_self, ↓k_rsWrite] | split
theorem k_setKey {ins : Bool} {rod : Nat} {w : BitVec 256} {e : Nat} {s : State}  :
    kept (setKey ins rod w e s).1 = kept s := by
  unfold setKey
  repeat' first | with_reducible rfl | simp only [↓kept_ite, ite_self, ↓k_rsWrite] | split | dsimp only
theorem k_setKeys {ins : Bool} {rod : Nat} {w : BitVec 256} (m : Nat) {e : Nat} {s : State} :
    kept (setKeys ins rod w m e s).1 = kept s := by
  induction m generalizing e s with
  | zero => rfl
  | succ m ih =>
    simp only [setKeys]
    split
    · exact k_setKey
    · refine ih.trans ?_
      split
      · exact k_keepCount.trans k_setKey
      · exact k_setKey
theorem k_execSetins {rod : Fin 64} {e : Option Upset} {s : State}  :
    outKept (execSetins rod e s) = some (kept s) := by
  unfold execSetins
  repeat' first
    | with_reducible rfl
    | intro _
    | simp only [↓outKept_next, ↓kept_mk, ↓kept_ite, ite_self, ↓k_haltRod, ↓k_settle, ↓k_setKeys]
    | refine Eq.trans (k_onUnit ?_) ?_
    | refine congrArg some ?_
    | split
    | dsimp only
theorem k_execSetprobe {rod : Fin 64} {e : Option Upset} {s : State}  :
    outKept (execSetprobe rod e s) = some (kept s) := by
  unfold execSetprobe
  repeat' first
    | with_reducible rfl
    | intro _
    | simp only [↓outKept_next, ↓kept_mk, ↓kept_ite, ite_self, ↓k_haltRod, ↓k_settle, ↓k_setKeys]
    | refine Eq.trans (k_onUnit ?_) ?_
    | refine congrArg some ?_
    | split
    | dsimp only

end Sys2Proof.Machine
end

