-- ==== Sys2Proof/Laws/KeptAccess.lean ====
section
/-! SUPPORT. What Access.lean leaves as it was (Kept.lean). -/

set_option linter.all false
set_option maxRecDepth 8000

namespace Sys2Proof.Machine

theorem k_objSet {n : Nat} {x : Object} {s : State}  :
    kept (objSet n x s) = kept s := by
  unfold objSet
  repeat' first | with_reducible rfl | simp only [↓kept_mk]
theorem k_objMod {n : Nat} {f : Object → Object} {s : State}  :
    kept (objMod n f s) = kept s := by
  unfold objMod
  repeat' first | with_reducible rfl | simp only [↓k_objSet]
theorem k_pageMod {o p : Nat} {f : Page → Page} {s : State}  :
    kept (pageMod o p f s) = kept s := by
  unfold pageMod
  repeat' first | with_reducible rfl | intro _ | simp only [↓kept_mk, ↓k_objMod]
theorem k_raiseBar {b : Bar} {req : Nat} {s : State}  :
    kept (raiseBar b req s) = kept s := by
  unfold raiseBar
  repeat' first | with_reducible rfl | simp only [↓k_raise] | split
theorem k_burstSet {pa : Nat} {bs : Bytes} {m : BitVec 4} {s : State}  :
    kept (burstSet pa bs m s) = kept s := by
  unfold burstSet
  repeat' first | with_reducible rfl | simp only [↓kept_mk, ↓kept_ite, ite_self] | split
theorem k_cacheSetPut {k : Nat} {x : CacheSet} {s : State}  :
    kept (cacheSetPut k x s) = kept s := by
  unfold cacheSetPut
  repeat' first | with_reducible rfl | simp only [↓kept_mk]
theorem k_lineBack {l : Line} {s : State}  :
    kept (lineBack l s) = kept s := by
  unfold lineBack
  repeat' first | with_reducible rfl | simp only [↓kept_ite, ite_self, ↓k_burstSet] | split
theorem k_lineFill {k pa : Nat} {s : State}  :
    kept (lineFill k pa s).1 = kept s := by
  unfold lineFill
  repeat' first
    | with_reducible rfl
    | intro _
    | simp only [↓kept_mk, ↓k_cacheSetPut, ↓k_lineBack]
    | split
    | dsimp only
theorem k_burstRead {part cache pa : Nat} {s : State}  :
    kept (burstRead part cache pa s).2 = kept s := by
  unfold burstRead
  repeat' first
    | with_reducible rfl
    | simp only [↓kept_mk, ↓kept_ite, ite_self, ↓k_cacheSetPut, ↓k_lineFill]
    | split
    | dsimp only
theorem k_burstWrite {part cache pa o : Nat} {bs : Bytes} {tag : Nat} {ver : Bool} {s : State}  :
    kept (burstWrite part cache pa o bs tag ver s) = kept s := by
  unfold burstWrite
  repeat' first
    | with_reducible rfl
    | intro _
    | simp only [↓kept_mk, ↓kept_ite, ite_self, ↓k_burstSet, ↓k_cacheSetPut, ↓k_lineFill]
    | split
    | dsimp only
theorem k_cacheFlush {segs : List Nat} {p : Line → Bool} {s : State}  :
    kept (cacheFlush segs p s) = kept s := by
  unfold cacheFlush
  repeat' first
    | with_reducible rfl
    | intro _
    | simp only [↓kept_mk, ↓k_cacheSetPut, ↓k_lineBack]
    | with_reducible refine Eq.trans (foldl_kept _ ?_ _ _) ?_
    | with_reducible refine Eq.trans (foldl_snd _ ?_ _ _) ?_
    | with_reducible refine Eq.trans (foldl_fst _ ?_ _ _) ?_
    | with_reducible refine Eq.trans (foldl_third _ ?_ _ _) ?_
    | dsimp only
theorem k_readVa {c va n : Nat} {s : State}  :
    kept (readVa c va n s).2 = kept s := by
  unfold readVa
  repeat' first
    | with_reducible rfl
    | intro _
    | simp only [↓kept_mk, ↓kept_ite, ite_self, ↓k_burstRead]
    | with_reducible refine Eq.trans (foldl_kept _ ?_ _ _) ?_
    | with_reducible refine Eq.trans (foldl_snd _ ?_ _ _) ?_
    | with_reducible refine Eq.trans (foldl_fst _ ?_ _ _) ?_
    | with_reducible refine Eq.trans (foldl_third _ ?_ _ _) ?_
    | split
    | dsimp only
theorem k_readRaw {c va n : Nat} {s : State}  :
    kept (readRaw c va n s).2 = kept s := by
  unfold readRaw
  repeat' first
    | with_reducible rfl
    | intro _
    | simp only [↓kept_mk, ↓kept_ite, ite_self, ↓k_burstRead]
    | with_reducible refine Eq.trans (foldl_kept _ ?_ _ _) ?_
    | with_reducible refine Eq.trans (foldl_snd _ ?_ _ _) ?_
    | with_reducible refine Eq.trans (foldl_fst _ ?_ _ _) ?_
    | with_reducible refine Eq.trans (foldl_third _ ?_ _ _) ?_
    | split
    | dsimp only
theorem k_dropFlash {o p : Nat} {s : State}  :
    kept (dropFlash o p s) = kept s := by
  unfold dropFlash
  repeat' first
    | with_reducible rfl
    | intro _
    | simp only [↓kept_mk, ↓kept_ite, ite_self, ↓k_mapLog, ↓k_unqueue, ↓k_dropTile, ↓k_pageMod]
    | with_reducible refine Eq.trans (foldl_kept _ ?_ _ _) ?_
    | with_reducible refine Eq.trans (foldl_snd _ ?_ _ _) ?_
    | with_reducible refine Eq.trans (foldl_fst _ ?_ _ _) ?_
    | with_reducible refine Eq.trans (foldl_third _ ?_ _ _) ?_
    | split
    | dsimp only
theorem k_pageWritten {o p : Nat} {s : State}  :
    kept (pageWritten o p s) = kept s := by
  unfold pageWritten
  repeat' first | with_reducible rfl | simp only [↓kept_ite, ite_self, ↓k_dropFlash] | split | dsimp only
theorem k_writeVa {c va : Nat} {bs : Bytes} {tag : Nat} {ver : Bool} {s : State}  :
    kept (writeVa c va bs tag ver s).2 = kept s := by
  unfold writeVa
  repeat' first
    | with_reducible rfl
    | intro _
    | simp only [↓kept_ite, ite_self, ↓k_burstWrite, ↓k_pageWritten]
    | with_reducible refine Eq.trans (foldl_kept _ ?_ _ _) ?_
    | with_reducible refine Eq.trans (foldl_snd _ ?_ _ _) ?_
    | with_reducible refine Eq.trans (foldl_fst _ ?_ _ _) ?_
    | with_reducible refine Eq.trans (foldl_third _ ?_ _ _) ?_
    | split
    | dsimp only
theorem k_setMd {c va : Nat} {mds : List (BitVec 4)} {s : State}  :
    kept (setMd c va mds s) = kept s := by
  unfold setMd
  repeat' first
    | with_reducible rfl
    | intro _
    | simp only [↓kept_mk, ↓kept_ite, ite_self, ↓k_burstSet, ↓k_cacheSetPut]
    | with_reducible refine Eq.trans (foldl_kept _ ?_ _ _) ?_
    | with_reducible refine Eq.trans (foldl_snd _ ?_ _ _) ?_
    | with_reducible refine Eq.trans (foldl_fst _ ?_ _ _) ?_
    | with_reducible refine Eq.trans (foldl_third _ ?_ _ _) ?_
    | split
    | dsimp only
theorem k_refuseReq {b : Bar} {req : Nat} {s : State}  :
    kept (refuseReq b req s) = kept s := by
  unfold refuseReq
  repeat' first | with_reducible rfl | simp only [↓kept_ite, ite_self, ↓k_haltRod, ↓k_raiseBar] | split | dsimp only
theorem k_unlessBarred {req part : Nat} {t : Traffic} {pa : Nat} {s : State} {k : State → State} (hk : ∀  s, kept (k  s) = kept s) :
    kept (unlessBarred req part t pa s k) = kept s := by
  unfold unlessBarred
  repeat' first | with_reducible rfl | simp only [↓k_refuseReq, ↓hk] | split
theorem k_deliver {bs : Bytes} {m : List (BitVec 4)} {s : State}  :
    kept (deliver bs m s) = kept s := by
  unfold deliver
  repeat' first | with_reducible rfl | simp only [↓kept_mk]
theorem k_rateCheck {ch : Nat} {s : State}  :
    kept (rateCheck ch s) = kept s := by
  unfold rateCheck
  repeat' first | with_reducible rfl | simp only [↓kept_mk, ↓kept_ite, ite_self, ↓k_raise] | split | dsimp only
theorem k_corrected {ch : Nat} {s : State}  :
    kept (corrected ch s) = kept s := by
  unfold corrected
  repeat' first | with_reducible rfl | intro _ | simp only [↓kept_mk, ↓k_rateCheck] | dsimp only
theorem k_poisonBurst {pa kind : Nat} {s : State}  :
    kept (poisonBurst pa kind s) = kept s := by
  unfold poisonBurst
  repeat' first | with_reducible rfl | simp only [↓k_raise, ↓k_burstSet] | dsimp only
theorem k_correctRead {pa : Nat} {e : Ecc} {s : State}  :
    kept (correctRead pa e s) = kept s := by
  unfold correctRead
  repeat' first | with_reducible rfl | simp only [↓k_corrected, ↓k_poisonBurst] | split
theorem k_wroteAt {pa : Nat} {s : State}  :
    kept (wroteAt pa s) = kept s := by
  unfold wroteAt
  repeat' first | with_reducible rfl | simp only [↓k_pageWritten] | split
theorem k_execHbmRead {req : Nat} {t : Traffic} {part : Fin 8} {pa : Nat} {ecc : Ecc} {s : State}  :
    outKept (execHbmRead req t part pa ecc s) = some (kept s) := by
  unfold execHbmRead
  repeat' first
    | with_reducible rfl
    | intro _
    | simp only [↓outKept_next, ↓kept_ite, ite_self, ↓k_deliver, ↓k_correctRead]
    | refine Eq.trans (k_across ?_) ?_
    | refine Eq.trans (k_unlessBarred ?_) ?_
    | refine congrArg some ?_
    | split
    | dsimp only
theorem k_execHbmWrite {req : Nat} {t : Traffic} {part : Fin 8} {pa : Nat} {data : Bytes} {tag : BitVec 2} {ver : Bool} {s : State}  :
    outKept (execHbmWrite req t part pa data tag ver s) = some (kept s) := by
  unfold execHbmWrite
  repeat' first
    | with_reducible rfl
    | intro _
    | simp only [↓outKept_next, ↓kept_ite, ite_self, ↓k_burstSet, ↓k_wroteAt]
    | refine Eq.trans (k_across ?_) ?_
    | refine Eq.trans (k_unlessBarred ?_) ?_
    | refine congrArg some ?_
    | split
    | dsimp only
theorem k_execPatrolScrub {ch : Fin 256} {burst : Nat} {ecc : Ecc} {s : State}  :
    outKept (execPatrolScrub ch burst ecc s) = some (kept s) := by
  unfold execPatrolScrub
  repeat' first
    | with_reducible rfl
    | simp only [↓outKept_next, ↓kept_ite, ite_self, ↓k_correctRead]
    | refine congrArg some ?_
    | split
theorem k_execHbmCeRate {ch : Fin 256} {s : State}  :
    outKept (execHbmCeRate ch s) = some (kept s) := by
  unfold execHbmCeRate
  repeat' first
    | with_reducible rfl
    | simp only [↓outKept_next, ↓kept_ite, ite_self, ↓k_rateCheck]
    | refine congrArg some ?_
    | split
theorem k_execPhyCalibration {ch : Fin 256} {s : State}  :
    outKept (execPhyCalibration ch s) = some (kept s) := by
  unfold execPhyCalibration
  repeat' first
    | with_reducible rfl
    | simp only [↓outKept_next, ↓kept_mk, ↓kept_ite, ite_self]
    | refine congrArg some ?_
    | split
theorem k_csEcc {slice pa : Nat} {e : Ecc} {s : State}  :
    kept (csEcc slice pa e s) = kept s := by
  unfold csEcc
  repeat' first | with_reducible rfl | simp only [↓kept_mk, ↓k_raise, ↓k_corrected] | split
theorem k_csPoison {part pa : Nat} {s : State}  :
    kept (csPoison part pa s) = kept s := by
  unfold csPoison
  repeat' first
    | with_reducible rfl
    | simp only [↓kept_mk, ↓kept_ite, ite_self, ↓k_burstSet, ↓k_cacheSetPut]
    | split
    | dsimp only
theorem k_csServe {part o p cache va pa : Nat} {write : Option Bytes} {length : Nat} {ecc : Ecc} {s : State}  :
    kept (csServe part o p cache va pa write length ecc s) = kept s := by
  unfold csServe
  repeat' first
    | with_reducible rfl
    | simp only [↓kept_ite, ite_self, ↓k_burstRead, ↓k_burstWrite, ↓k_pageWritten, ↓k_deliver, ↓k_csEcc, ↓k_csPoison]
    | split
    | dsimp only
theorem k_execCsRequest {req : Nat} {t : Traffic} {ctx : Fin 256} {va : Nat} {write : Option Bytes} {length : Nat} {ecc : Ecc} {s : State}  :
    outKept (execCsRequest req t ctx va write length ecc s) = some (kept s) := by
  unfold execCsRequest
  repeat' first
    | with_reducible rfl
    | intro _
    | simp only [↓outKept_next, ↓kept_ite, ite_self, ↓k_haltRod, ↓k_refuseReq, ↓k_csServe]
    | refine Eq.trans (k_across ?_) ?_
    | refine congrArg some ?_
    | split
    | dsimp only
theorem k_rsWindowBad {n a : Nat} {s : State}  :
    kept (rsWindowBad n a s) = kept s := by
  unfold rsWindowBad
  repeat' first | with_reducible rfl | simp only [↓k_raise, ↓k_haltRod, ↓k_deliver] | split | dsimp only
theorem k_rsWindowServe {n a len : Nat} {write : Option Bytes} {fixed : Bool} {s : State}  :
    kept (rsWindowServe n a len write fixed s) = kept s := by
  unfold rsWindowServe
  repeat' first
    | with_reducible rfl
    | intro _
    | simp only [↓kept_mk, ↓kept_ite, ite_self, ↓k_rodMod, ↓k_rsWrite, ↓k_deliver]
    | split
    | dsimp only
theorem k_execRsWindowAccess {req : Nat} {t : Traffic} {part : Fin 8} {pa : Nat} {write : Option Bytes} {length : Nat} {ecc : Ecc} {s : State}  :
    outKept (execRsWindowAccess req t part pa write length ecc s) = some (kept s) := by
  unfold execRsWindowAccess
  repeat' first
    | with_reducible rfl
    | intro _
    | simp only [↓outKept_next, ↓kept_ite, ite_self, ↓k_corrected, ↓k_rsWindowBad, ↓k_rsWindowServe]
    | refine Eq.trans (k_across ?_) ?_
    | refine Eq.trans (k_unlessBarred ?_) ?_
    | refine congrArg some ?_
    | split
    | dsimp only

end Sys2Proof.Machine
end

