-- ==== Sys2Proof/Laws/KeptMove.lean ====
section
/-! SUPPORT. What Move.lean leaves as it was (Kept.lean). -/

set_option linter.all false
set_option maxRecDepth 8000

namespace Sys2Proof.Machine

theorem foldl_mov {β : Type} (f : MoveAcc → β → MoveAcc) (h : ∀ r b, kept (f r b).s = kept r.s) (l : List β)
    (r : MoveAcc) : kept (l.foldl f r).s = kept r.s := by
  induction l generalizing r with
  | nil => rfl
  | cons a l ih => exact (ih (f r a)).trans (h r a)
theorem k_accHalt {rod : Nat} {a : Acc} {s : State}  :
    kept (accHalt rod a s).2 = kept s := by
  unfold accHalt
  repeat' first | with_reducible rfl | simp only [↓k_raiseBar] | split
theorem k_loadRow {rod c va f n base : Nat} {t : Tally} {s : State}  :
    kept (loadRow rod c va f n base t s).2 = kept s := by
  unfold loadRow
  repeat' first | with_reducible rfl | simp only [↓k_readVa, ↓k_accHalt] | split | dsimp only
theorem k_putRsRow {n : Nat} {key : BitVec 64} {d0 src f a sa base : Nat} {vs : List Val} {m : MoveAcc}  :
    kept (putRsRow n key d0 src f a sa base vs m).s = kept m.s := by
  unfold putRsRow
  repeat' first | with_reducible rfl | simp only [↓kept_mk, ↓kept_ite, ite_self, ↓k_rsWrite] | split | dsimp only
theorem k_afterWrite {rod : Nat} {t : Tally} {draws : Nat} {w : Acc × State}  :
    kept (afterWrite rod t draws w).s = kept w.2 := by
  unfold afterWrite
  repeat' first | with_reducible rfl | simp only [↓kept_mk, ↓kept_ite, ite_self, ↓k_accHalt] | split | dsimp only
theorem k_putMemRow {rod c va : Nat} {key : BitVec 64} {d0 src f base : Nat} {ver : Bool} {vs : List Val} {m : MoveAcc}  :
    kept (putMemRow rod c va key d0 src f base ver vs m).s = kept m.s := by
  unfold putMemRow
  repeat' first
    | with_reducible rfl
    | simp only [↓kept_mk, ↓kept_ite, ite_self, ↓k_writeVa, ↓k_afterWrite]
    | split
    | dsimp only
theorem k_endMove {rod : Nat} {f : Flight} {marks : Bool} {s : State} {m : MoveAcc} (h : kept m.s = kept s) :
    kept (endMove rod f marks s m) = kept s := by
  unfold endMove
  split
  · exact k_haltRod.trans h
  · split
    · exact k_startFlight
    · exact k_settle.trans h
theorem k_moveIn {rod : Nat} {r : Run} {va mf rf a sa n base : Nat} {m : MoveAcc}  :
    kept (moveIn rod r va mf rf a sa n base m).s = kept m.s := by
  unfold moveIn
  repeat' first
    | with_reducible rfl
    | simp only [↓kept_mk, ↓kept_ite, ite_self, ↓k_loadRow, ↓k_putRsRow]
    | split
    | dsimp only
theorem k_loadTileRow {rod : Nat} {r : Run} {w : BitVec 256} {m : MoveAcc} {i : Nat}  :
    kept (loadTileRow rod r w m i).s = kept m.s := by
  unfold loadTileRow
  repeat' first | with_reducible rfl | simp only [↓kept_ite, ite_self, ↓k_moveIn] | split | dsimp only
theorem k_execLoadTile {rod : Fin 64} {e : Option Upset} {s : State}  :
    outKept (execLoadTile rod e s) = some (kept s) := by
  unfold execLoadTile
  repeat' first
    | with_reducible rfl
    | intro _
    | simp only [↓outKept_next, ↓kept_mk, ↓kept_ite, ite_self, ↓k_haltRod, ↓k_loadTileRow]
    | refine Eq.trans (k_onUnit ?_) ?_
    | refine Eq.trans (k_endMove ?_) ?_
    | with_reducible refine Eq.trans (foldl_kept _ ?_ _ _) ?_
    | with_reducible refine Eq.trans (foldl_snd _ ?_ _ _) ?_
    | with_reducible refine Eq.trans (foldl_fst _ ?_ _ _) ?_
    | with_reducible refine Eq.trans (foldl_third _ ?_ _ _) ?_
    | with_reducible refine Eq.trans (foldl_mov _ ?_ _ _) ?_
    | refine congrArg some ?_
    | split
    | dsimp only
theorem k_gatherRow {rod : Nat} {r : Run} {w : BitVec 256} {m : MoveAcc} {e : Nat}  :
    kept (gatherRow rod r w m e).s = kept m.s := by
  unfold gatherRow
  repeat' first | with_reducible rfl | simp only [↓kept_mk, ↓kept_ite, ite_self, ↓k_moveIn] | split | dsimp only
theorem k_execGather {rod : Fin 64} {e : Option Upset} {s : State}  :
    outKept (execGather rod e s) = some (kept s) := by
  unfold execGather
  repeat' first
    | with_reducible rfl
    | intro _
    | simp only [↓outKept_next, ↓kept_mk, ↓kept_ite, ite_self, ↓k_haltRod, ↓k_gatherRow]
    | refine Eq.trans (k_onUnit ?_) ?_
    | refine Eq.trans (k_endMove ?_) ?_
    | with_reducible refine Eq.trans (foldl_kept _ ?_ _ _) ?_
    | with_reducible refine Eq.trans (foldl_snd _ ?_ _ _) ?_
    | with_reducible refine Eq.trans (foldl_fst _ ?_ _ _) ?_
    | with_reducible refine Eq.trans (foldl_third _ ?_ _ _) ?_
    | with_reducible refine Eq.trans (foldl_mov _ ?_ _ _) ?_
    | refine congrArg some ?_
    | split
    | dsimp only
theorem k_queueLanding {rod : Nat} {r : Run} {f : Flight} {b0 : Nat} {acc : Tally × State} {i : Nat}  :
    kept (queueLanding rod r f b0 acc i).2 = kept acc.2 := by
  unfold queueLanding
  repeat' first | with_reducible rfl | intro _ | simp only [↓kept_mk] | dsimp only
theorem k_markLanded {cmd : Nat} {s : State}  :
    kept (markLanded cmd s) = kept s := by
  unfold markLanded
  repeat' first | with_reducible rfl | simp only [↓kept_mk] | split
theorem k_queueLandings {rod : Nat} {r : Run} {f : Flight} {s : State}  :
    kept (queueLandings rod r f s) = kept s := by
  unfold queueLandings
  repeat' first
    | with_reducible rfl
    | intro _
    | simp only [↓kept_mk, ↓kept_ite, ite_self, ↓k_runMod, ↓k_settle, ↓k_queueLanding, ↓k_markLanded]
    | with_reducible refine Eq.trans (foldl_kept _ ?_ _ _) ?_
    | with_reducible refine Eq.trans (foldl_snd _ ?_ _ _) ?_
    | with_reducible refine Eq.trans (foldl_fst _ ?_ _ _) ?_
    | with_reducible refine Eq.trans (foldl_third _ ?_ _ _) ?_
    | split
    | dsimp only
theorem k_storeTileRow {rod : Nat} {r : Run} {w : BitVec 256} {m : MoveAcc} {i : Nat}  :
    kept (storeTileRow rod r w m i).s = kept m.s := by
  unfold storeTileRow
  repeat' first | with_reducible rfl | simp only [↓kept_mk, ↓kept_ite, ite_self, ↓k_putMemRow] | split | dsimp only
theorem k_execStoreTile {rod : Fin 64} {e : Option Upset} {s : State}  :
    outKept (execStoreTile rod e s) = some (kept s) := by
  unfold execStoreTile
  repeat' first
    | with_reducible rfl
    | intro _
    | simp only [↓outKept_next, ↓kept_mk, ↓kept_ite, ite_self, ↓k_haltRod, ↓k_startFlight, ↓k_queueLandings, ↓k_storeTileRow]
    | refine Eq.trans (k_onUnit ?_) ?_
    | refine Eq.trans (k_endMove ?_) ?_
    | with_reducible refine Eq.trans (foldl_kept _ ?_ _ _) ?_
    | with_reducible refine Eq.trans (foldl_snd _ ?_ _ _) ?_
    | with_reducible refine Eq.trans (foldl_fst _ ?_ _ _) ?_
    | with_reducible refine Eq.trans (foldl_third _ ?_ _ _) ?_
    | with_reducible refine Eq.trans (foldl_mov _ ?_ _ _) ?_
    | refine congrArg some ?_
    | split
    | dsimp only
theorem k_atomicOne {rod c va sop f src base d0 : Nat} {key : BitVec 64} {m : MoveAcc} {p : Nat × Val}  :
    kept (atomicOne rod c va sop f src base d0 key m p).s = kept m.s := by
  unfold atomicOne
  repeat' first
    | with_reducible rfl
    | simp only [↓kept_mk, ↓kept_ite, ite_self, ↓k_readRaw, ↓k_writeVa, ↓k_accHalt, ↓k_afterWrite]
    | split
    | dsimp only
theorem k_atomicRow {rod c va sop f src base d0 : Nat} {key : BitVec 64} {vs : List Val} {m : MoveAcc}  :
    kept (atomicRow rod c va sop f src base d0 key vs m).s = kept m.s := by
  unfold atomicRow
  repeat' first
    | with_reducible rfl
    | intro _
    | simp only [↓k_atomicOne]
    | with_reducible refine Eq.trans (foldl_kept _ ?_ _ _) ?_
    | with_reducible refine Eq.trans (foldl_snd _ ?_ _ _) ?_
    | with_reducible refine Eq.trans (foldl_fst _ ?_ _ _) ?_
    | with_reducible refine Eq.trans (foldl_third _ ?_ _ _) ?_
    | with_reducible refine Eq.trans (foldl_mov _ ?_ _ _) ?_
theorem k_scatterRow {rod : Nat} {r : Run} {w : BitVec 256} {m : MoveAcc} {e : Nat}  :
    kept (scatterRow rod r w m e).s = kept m.s := by
  unfold scatterRow
  repeat' first
    | with_reducible rfl
    | simp only [↓kept_mk, ↓kept_ite, ite_self, ↓k_putMemRow, ↓k_atomicRow]
    | split
    | dsimp only
theorem k_execScatter {rod : Fin 64} {e : Option Upset} {s : State}  :
    outKept (execScatter rod e s) = some (kept s) := by
  unfold execScatter
  repeat' first
    | with_reducible rfl
    | intro _
    | simp only [↓outKept_next, ↓kept_mk, ↓kept_ite, ite_self, ↓k_scatterRow]
    | refine Eq.trans (k_onUnit ?_) ?_
    | refine Eq.trans (k_endMove ?_) ?_
    | with_reducible refine Eq.trans (foldl_kept _ ?_ _ _) ?_
    | with_reducible refine Eq.trans (foldl_snd _ ?_ _ _) ?_
    | with_reducible refine Eq.trans (foldl_fst _ ?_ _ _) ?_
    | with_reducible refine Eq.trans (foldl_third _ ?_ _ _) ?_
    | with_reducible refine Eq.trans (foldl_mov _ ?_ _ _) ?_
    | refine congrArg some ?_
    | split
    | dsimp only

end Sys2Proof.Machine
end

