-- ==== Sys2Proof/Laws/KeptTier.lean ====
section
/-! SUPPORT. What Tier.lean leaves as it was (Kept.lean). -/

set_option linter.all false
set_option maxRecDepth 8000

namespace Sys2Proof.Machine

theorem k_zeroFrame {part : Nat} {l : Loc} {s : State}  :
    kept (zeroFrame part l s) = kept s := by
  unfold zeroFrame
  repeat' first | with_reducible rfl | intro _ | simp only [↓kept_mk]
theorem k_flushPage {part : Nat} {l : Loc} {s : State}  :
    kept (flushPage part l s) = kept s := by
  unfold flushPage
  repeat' first | with_reducible rfl | intro _ | simp only [↓k_cacheFlush]
theorem k_toFlash {part rot o p : Nat} {l : Loc} {i n : Nat} {s : State}  :
    kept (toFlash part rot o p l i n s) = kept s := by
  unfold toFlash
  repeat' first
    | with_reducible rfl
    | intro _
    | simp only [↓kept_mk]
    | with_reducible refine Eq.trans (foldl_kept _ ?_ _ _) ?_
    | with_reducible refine Eq.trans (foldl_snd _ ?_ _ _) ?_
    | with_reducible refine Eq.trans (foldl_fst _ ?_ _ _) ?_
    | with_reducible refine Eq.trans (foldl_third _ ?_ _ _) ?_
    | dsimp only
theorem k_fromFlash {part rot o p : Nat} {l : Loc} {s : State}  :
    kept (fromFlash part rot o p l s) = kept s := by
  unfold fromFlash
  repeat' first
    | with_reducible rfl
    | intro _
    | simp only [↓k_burstSet, ↓k_zeroFrame]
    | with_reducible refine Eq.trans (foldl_kept _ ?_ _ _) ?_
    | with_reducible refine Eq.trans (foldl_snd _ ?_ _ _) ?_
    | with_reducible refine Eq.trans (foldl_fst _ ?_ _ _) ?_
    | with_reducible refine Eq.trans (foldl_third _ ?_ _ _) ?_
    | dsimp only
theorem k_frameCopy {part rot : Nat} {src dst : Loc} {s : State}  :
    kept (frameCopy part rot src dst s) = kept s := by
  unfold frameCopy
  repeat' first
    | with_reducible rfl
    | intro _
    | simp only [↓k_burstSet, ↓k_zeroFrame]
    | with_reducible refine Eq.trans (foldl_kept _ ?_ _ _) ?_
    | with_reducible refine Eq.trans (foldl_snd _ ?_ _ _) ?_
    | with_reducible refine Eq.trans (foldl_fst _ ?_ _ _) ?_
    | with_reducible refine Eq.trans (foldl_third _ ?_ _ _) ?_
    | dsimp only
theorem k_queueTiles {o p : Nat} {urgent : Bool} {s : State}  :
    kept (queueTiles o p urgent s) = kept s := by
  unfold queueTiles
  repeat' first
    | with_reducible rfl
    | intro _
    | simp only [↓kept_mk, ↓k_queueWrite]
    | with_reducible refine Eq.trans (foldl_kept _ ?_ _ _) ?_
    | with_reducible refine Eq.trans (foldl_snd _ ?_ _ _) ?_
    | with_reducible refine Eq.trans (foldl_fst _ ?_ _ _) ?_
    | with_reducible refine Eq.trans (foldl_third _ ?_ _ _) ?_
theorem k_leaveHbm {c n p : Nat} {o : Object} {x : Page} {urgent : Bool} {s : State}  :
    kept (leaveHbm c n p o x urgent s).2 = kept s := by
  unfold leaveHbm
  repeat' first
    | with_reducible rfl
    | intro _
    | simp only [↓kept_mk, ↓kept_ite, ite_self, ↓k_pageMod, ↓k_flushPage, ↓k_queueTiles]
    | split
    | dsimp only
theorem k_evictHbm {urgent : Bool} {q : Nat × Object × Nat × Page} {s : State}  :
    kept (evictHbm urgent q s).2 = kept s := by
  unfold evictHbm
  repeat' first | with_reducible rfl | simp only [↓k_dcUp, ↓k_leaveHbm] | split | dsimp only
theorem k_evictFirst {ev : Nat × Object × Nat × Page → State → Out × State} {s : State}
    {l : List (Nat × Object × Nat × Page)} (hev : ∀ q s, kept (ev q s).2 = kept s) : kept (evictFirst ev s l).2 = kept s := by
  induction l with
  | nil => rfl
  | cons q l ih =>
    simp only [evictFirst]
    split
    · exact ih
    · exact hev q s
theorem k_roomBy {ev : Nat × Object × Nat × Page → State → Out × State} {o c t : Nat} {group : Option Nat} {demand : Bool} {s : State} (hev : ∀ q s, kept (ev q s).2 = kept s) :
    kept (roomBy ev o c t group demand s).2 = kept s := by
  unfold roomBy
  repeat' first
    | with_reducible rfl
    | intro _
    | simp only [↓kept_ite, ite_self, ↓hev]
    | refine Eq.trans (k_evictFirst ?_) ?_
    | split
    | dsimp only
theorem k_evictScratch {urgent : Bool} {q : Nat × Object × Nat × Page} {s : State}  :
    kept (evictScratch urgent q s).2 = kept s := by
  unfold evictScratch
  repeat' first
    | with_reducible rfl
    | intro _
    | simp only [↓kept_mk, ↓k_dcUp, ↓k_pageMod, ↓k_frameCopy, ↓k_evictHbm]
    | refine Eq.trans (k_roomBy ?_) ?_
    | split
    | dsimp only
theorem k_evictOne {urgent : Bool} {q : Nat × Object × Nat × Page} {s : State}  :
    kept (evictOne urgent q s).2 = kept s := by
  unfold evictOne
  repeat' first | with_reducible rfl | simp only [↓k_evictHbm, ↓k_evictScratch] | split
theorem k_findRoom {o c t : Nat} {group : Option Nat} {demand : Bool} {s : State}  :
    kept (findRoom o c t group demand s).2 = kept s := by
  unfold findRoom
  repeat' first
    | with_reducible rfl
    | intro _
    | simp only [↓kept_ite, ite_self, ↓k_evictOne]
    | refine Eq.trans (k_roomBy ?_) ?_
    | split
theorem k_moveMod {o p : Nat} {f : Move → Move} {s : State}  :
    kept (moveMod o p f s) = kept s := by
  unfold moveMod
  repeat' first | with_reducible rfl | intro _ | simp only [↓kept_mk, ↓kept_ite, ite_self] | split
theorem k_moveDrop {o p : Nat} {s : State}  :
    kept (moveDrop o p s) = kept s := by
  unfold moveDrop
  repeat' first | with_reducible rfl | intro _ | simp only [↓kept_mk]
theorem k_movePage {o p : Nat} {src l : Loc} {pl : Bool} {s : State}  :
    kept (movePage o p src l pl s) = kept s := by
  unfold movePage
  repeat' first
    | with_reducible rfl
    | intro _
    | simp only [↓kept_mk, ↓k_pageMod, ↓k_flushPage, ↓k_frameCopy]
    | dsimp only
theorem k_giveFrame {s : State} {m : Move}  :
    kept (giveFrame s m) = kept s := by
  unfold giveFrame
  repeat' first
    | with_reducible rfl
    | intro _
    | simp only [↓kept_mk, ↓kept_ite, ite_self, ↓k_findRoom, ↓k_moveMod, ↓k_moveDrop, ↓k_movePage]
    | split
    | dsimp only
theorem k_giveFrames {s : State}  :
    kept (giveFrames s) = kept s := by
  unfold giveFrames
  repeat' first
    | with_reducible rfl
    | intro _
    | simp only [↓k_giveFrame]
    | with_reducible refine Eq.trans (foldl_kept _ ?_ _ _) ?_
    | with_reducible refine Eq.trans (foldl_snd _ ?_ _ _) ?_
    | with_reducible refine Eq.trans (foldl_fst _ ?_ _ _) ?_
    | with_reducible refine Eq.trans (foldl_third _ ?_ _ _) ?_
theorem k_jobEnd {j : PlaceJob} {status : Nat} {result : Bytes} {s : State}  :
    kept (jobEnd j status result s) = kept s := by
  unfold jobEnd
  repeat' first | with_reducible rfl | intro _ | simp only [↓kept_mk, ↓k_finishJ]
theorem k_haltWaiting {n : Nat} {s : State}  :
    kept (haltWaiting n s) = kept s := by
  unfold haltWaiting
  repeat' first | with_reducible rfl | intro _ | simp only [↓k_drawFree, ↓k_haltRod] | split | dsimp only
theorem k_tileLost {o p t : Nat} {s : State}  :
    kept (tileLost o p t s) = kept s := by
  unfold tileLost
  repeat' first
    | with_reducible rfl
    | intro _
    | simp only [↓kept_mk, ↓k_retireBlock, ↓k_moveDrop, ↓k_jobEnd, ↓k_haltWaiting]
    | with_reducible refine Eq.trans (foldl_kept _ ?_ _ _) ?_
    | with_reducible refine Eq.trans (foldl_snd _ ?_ _ _) ?_
    | with_reducible refine Eq.trans (foldl_fst _ ?_ _ _) ?_
    | with_reducible refine Eq.trans (foldl_third _ ?_ _ _) ?_
    | split
    | dsimp only
theorem k_tileDelivered {o p t : Nat} {bs : Bytes} {m : List (BitVec 4)} {s : State}  :
    kept (tileDelivered o p t bs m s) = kept s := by
  unfold tileDelivered
  repeat' first | with_reducible rfl | intro _ | simp only [↓kept_mk, ↓k_queueWrite] | dsimp only
theorem k_askFrom {o p t : Nat} (l : List (Nat × Source)) {s : State} : kept (askFrom o p t l s) = kept s := by
  induction l generalizing s with
  | nil => exact k_tileLost
  | cons a l ih =>
    obtain ⟨n, src⟩ := a
    simp only [askFrom]
    split
    · exact k_tileDelivered
    · split
      · exact k_sendMsg
      · exact ih
theorem k_askSource {o p t n : Nat} {s : State}  :
    kept (askSource o p t n s) = kept s := by
  unfold askSource
  repeat' first | with_reducible rfl | simp only [↓kept_ite, ite_self, ↓k_askFrom] | split | dsimp only
theorem k_tileUncorrectable {o p t : Nat} {s : State}  :
    kept (tileUncorrectable o p t s) = kept s := by
  unfold tileUncorrectable
  repeat' first
    | with_reducible rfl
    | intro _
    | simp only [↓kept_mk, ↓kept_ite, ite_self, ↓k_raise, ↓k_pageMod, ↓k_askSource]
    | split
    | dsimp only
theorem k_askBad {o p : Nat} {s : State}  :
    kept (askBad o p s) = kept s := by
  unfold askBad
  repeat' first
    | with_reducible rfl
    | intro _
    | simp only [↓kept_mk, ↓k_pageMod, ↓k_askSource]
    | with_reducible refine Eq.trans (foldl_kept _ ?_ _ _) ?_
    | with_reducible refine Eq.trans (foldl_snd _ ?_ _ _) ?_
    | with_reducible refine Eq.trans (foldl_fst _ ?_ _ _) ?_
    | with_reducible refine Eq.trans (foldl_third _ ?_ _ _) ?_
    | dsimp only
theorem k_noteLate {m : Move} {c cause : Nat} {s : State}  :
    kept (noteLate m c cause s) = kept s := by
  unfold noteLate
  repeat' first
    | with_reducible rfl
    | intro _
    | simp only [↓kept_ite, ite_self, ↓k_dcUp]
    | with_reducible refine Eq.trans (foldl_kept _ ?_ _ _) ?_
    | with_reducible refine Eq.trans (foldl_snd _ ?_ _ _) ?_
    | with_reducible refine Eq.trans (foldl_fst _ ?_ _ _) ?_
    | with_reducible refine Eq.trans (foldl_third _ ?_ _ _) ?_
    | split
    | dsimp only
theorem k_askMove {o p dest cause c : Nat} {rod tile : Option Nat} {s : State}  :
    kept (askMove o p dest cause c rod tile s) = kept s := by
  unfold askMove
  repeat' first
    | with_reducible rfl
    | intro _
    | simp only [↓kept_mk, ↓kept_ite, ite_self, ↓k_moveMod, ↓k_askBad, ↓k_noteLate]
    | split
    | dsimp only
theorem k_dropObject {o : Nat} {s : State}  :
    kept (dropObject o s) = kept s := by
  unfold dropObject
  repeat' first
    | with_reducible rfl
    | intro _
    | simp only [↓kept_mk, ↓k_dropFlash, ↓k_flushPage]
    | with_reducible refine Eq.trans (foldl_kept _ ?_ _ _) ?_
    | with_reducible refine Eq.trans (foldl_snd _ ?_ _ _) ?_
    | with_reducible refine Eq.trans (foldl_fst _ ?_ _ _) ?_
    | with_reducible refine Eq.trans (foldl_third _ ?_ _ _) ?_
    | dsimp only
theorem k_jobMod {cmd : Nat} {f : PlaceJob → PlaceJob} {s : State}  :
    kept (jobMod cmd f s) = kept s := by
  unfold jobMod
  repeat' first | with_reducible rfl | intro _ | simp only [↓kept_mk, ↓kept_ite, ite_self] | split
theorem k_jobNext {cmd n : Nat} {s : State}  :
    kept (jobNext cmd n s) = kept s := by
  unfold jobNext
  repeat' first | with_reducible rfl | intro _ | simp only [↓kept_mk, ↓k_jobMod]
theorem k_jobFresh {j : PlaceJob} {s : State}  :
    kept (jobFresh j s).2 = kept s := by
  unfold jobFresh
  repeat' first
    | with_reducible rfl
    | intro _
    | simp only [↓kept_mk, ↓k_pageMod, ↓k_zeroFrame, ↓k_findRoom, ↓k_jobEnd, ↓k_dropObject, ↓k_jobNext]
    | split
    | dsimp only
theorem k_scratchOut {c o p : Nat} {owner : Nat} {s : State}  :
    kept (scratchOut c o p owner s).2 = kept s := by
  unfold scratchOut
  repeat' first | with_reducible rfl | intro _ | simp only [↓kept_mk, ↓k_pageMod, ↓k_queueTiles] | split
theorem k_jobDeep {j : PlaceJob} {s : State}  :
    kept (jobDeep j s).2 = kept s := by
  unfold jobDeep
  repeat' first
    | with_reducible rfl
    | simp only [↓kept_ite, ite_self, ↓k_leaveHbm, ↓k_jobEnd, ↓k_jobNext, ↓k_scratchOut]
    | split
    | dsimp only
theorem k_jobNear {j : PlaceJob} {s : State}  :
    kept (jobNear j s).2 = kept s := by
  unfold jobNear
  repeat' first
    | with_reducible rfl
    | intro _
    | simp only [↓kept_mk, ↓kept_ite, ite_self, ↓k_findRoom, ↓k_moveMod, ↓k_movePage, ↓k_jobEnd, ↓k_askMove, ↓k_jobNext]
    | split
    | dsimp only
theorem k_jobStep {cmd : Nat} {s : State}  :
    kept (jobStep cmd s).2 = kept s := by
  unfold jobStep
  repeat' first
    | with_reducible rfl
    | intro _
    | simp only [↓kept_ite, ite_self, ↓k_jobEnd, ↓k_jobNext, ↓k_jobFresh, ↓k_jobDeep, ↓k_jobNear]
    | split
    | dsimp only
theorem k_runJob {cmd : Nat} (n : Nat) {s : State} : kept (runJob cmd n s) = kept s := by
  induction n generalizing s with
  | zero => rfl
  | succ n ih =>
    simp only [runJob]
    split
    · exact ih.trans k_jobStep
    · exact k_jobStep
theorem k_pump {s : State}  :
    kept (pump s) = kept s := by
  unfold pump
  repeat' first
    | with_reducible rfl
    | intro _
    | simp only [↓kept_ite, ite_self, ↓k_giveFrames, ↓k_runJob]
    | with_reducible refine Eq.trans (foldl_kept _ ?_ _ _) ?_
    | with_reducible refine Eq.trans (foldl_snd _ ?_ _ _) ?_
    | with_reducible refine Eq.trans (foldl_fst _ ?_ _ _) ?_
    | with_reducible refine Eq.trans (foldl_third _ ?_ _ _) ?_
    | split
    | dsimp only
theorem k_leaveDone {o p : Nat} {s : State}  :
    kept (leaveDone o p s) = kept s := by
  unfold leaveDone
  repeat' first
    | with_reducible rfl
    | intro _
    | simp only [↓kept_mk, ↓kept_ite, ite_self, ↓k_pageMod, ↓k_pump]
    | split
    | dsimp only
theorem k_afterUse {e : BitVec 128} {s : State}  :
    kept (afterUse e s) = kept s := by
  unfold afterUse
  repeat' first
    | with_reducible rfl
    | intro _
    | simp only [↓kept_mk, ↓kept_ite, ite_self, ↓k_pageMod, ↓k_evictOne]
    | with_reducible refine Eq.trans (foldl_kept _ ?_ _ _) ?_
    | with_reducible refine Eq.trans (foldl_snd _ ?_ _ _) ?_
    | with_reducible refine Eq.trans (foldl_fst _ ?_ _ _) ?_
    | with_reducible refine Eq.trans (foldl_third _ ?_ _ _) ?_
    | split
    | dsimp only
theorem k_schedMod {c : Nat} {f : Schedule → Schedule} {s : State}  :
    kept (schedMod c f s) = kept s := by
  unfold schedMod
  repeat' first | with_reducible rfl | intro _ | simp only [↓kept_mk, ↓k_ctxMod]
theorem k_schedPage {c o p dest : Nat} {s : State}  :
    kept (schedPage c o p dest s) = kept s := by
  unfold schedPage
  repeat' first
    | with_reducible rfl
    | intro _
    | simp only [↓kept_mk, ↓kept_ite, ite_self, ↓k_dcUp, ↓k_pageMod, ↓k_askMove]
    | split
    | dsimp only
theorem k_schedClear {c : Nat} {s : State}  :
    kept (schedClear c s) = kept s := by
  unfold schedClear
  repeat' first
    | with_reducible rfl
    | intro _
    | simp only [↓kept_mk, ↓kept_ite, ite_self, ↓k_pageMod]
    | with_reducible refine Eq.trans (foldl_kept _ ?_ _ _) ?_
    | with_reducible refine Eq.trans (foldl_snd _ ?_ _ _) ?_
    | with_reducible refine Eq.trans (foldl_fst _ ?_ _ _) ?_
    | with_reducible refine Eq.trans (foldl_third _ ?_ _ _) ?_
    | split
theorem k_schedRun {c : Nat} {s : State}  :
    kept (schedRun c s) = kept s := by
  unfold schedRun
  repeat' first
    | with_reducible rfl
    | intro _
    | simp only [↓kept_mk, ↓k_dcUp, ↓k_pump, ↓k_afterUse, ↓k_schedMod, ↓k_schedPage]
    | with_reducible refine Eq.trans (foldl_kept _ ?_ _ _) ?_
    | with_reducible refine Eq.trans (foldl_snd _ ?_ _ _) ?_
    | with_reducible refine Eq.trans (foldl_fst _ ?_ _ _) ?_
    | with_reducible refine Eq.trans (foldl_third _ ?_ _ _) ?_
    | split
    | dsimp only
theorem k_schedStep {c : Nat} {s : State}  :
    kept (schedStep c s) = kept s := by
  unfold schedStep
  repeat' first
    | with_reducible rfl
    | intro _
    | simp only [↓kept_mk, ↓k_ctxMod, ↓k_afterUse, ↓k_schedMod, ↓k_schedClear, ↓k_schedRun]
    | with_reducible refine Eq.trans (foldl_kept _ ?_ _ _) ?_
    | with_reducible refine Eq.trans (foldl_snd _ ?_ _ _) ?_
    | with_reducible refine Eq.trans (foldl_fst _ ?_ _ _) ?_
    | with_reducible refine Eq.trans (foldl_third _ ?_ _ _) ?_
    | split
    | dsimp only
theorem k_cursorMove {c id : Nat} {s : State}  :
    kept (cursorMove c id s) = kept s := by
  unfold cursorMove
  repeat' first
    | with_reducible rfl
    | intro _
    | simp only [↓kept_mk, ↓kept_ite, ite_self, ↓k_afterUse, ↓k_schedMod, ↓k_schedClear, ↓k_schedRun]
    | with_reducible refine Eq.trans (foldl_kept _ ?_ _ _) ?_
    | with_reducible refine Eq.trans (foldl_snd _ ?_ _ _) ?_
    | with_reducible refine Eq.trans (foldl_fst _ ?_ _ _) ?_
    | with_reducible refine Eq.trans (foldl_third _ ?_ _ _) ?_
    | split
    | dsimp only

end Sys2Proof.Machine
end

