-- ==== Sys2Proof/Laws/KeptFlash.lean ====
section
/-! SUPPORT. What Flash.lean leaves as it was (Kept.lean). -/

set_option linter.all false
set_option maxRecDepth 8000

namespace Sys2Proof.Machine

theorem k_stageTile {t : TileWrite} {s : State}  :
    kept (stageTile t s) = kept s := by
  unfold stageTile
  repeat' first
    | with_reducible rfl
    | intro _
    | simp only [↓kept_mk, ↓kept_ite, ite_self, ↓k_toFlash]
    | with_reducible refine Eq.trans (foldl_kept _ ?_ _ _) ?_
    | with_reducible refine Eq.trans (foldl_snd _ ?_ _ _) ?_
    | with_reducible refine Eq.trans (foldl_fst _ ?_ _ _) ?_
    | with_reducible refine Eq.trans (foldl_third _ ?_ _ _) ?_
    | split
    | dsimp only
theorem k_copyDone {cmd : Nat} {s : State}  :
    kept (copyDone cmd s) = kept s := by
  unfold copyDone
  repeat' first | with_reducible rfl | intro _ | simp only [↓kept_ite, ite_self, ↓k_finish] | split
theorem k_tileCommitted {t : TileWrite} {s : State}  :
    kept (tileCommitted t s) = kept s := by
  unfold tileCommitted
  repeat' first
    | with_reducible rfl
    | intro _
    | simp only [↓kept_mk, ↓kept_ite, ite_self, ↓k_retireBlock, ↓k_pageMod, ↓k_pump, ↓k_leaveDone, ↓k_copyDone]
    | split
    | dsimp only
theorem k_tileHopeless {t : TileWrite} {s : State}  :
    kept (tileHopeless t s) = kept s := by
  unfold tileHopeless
  repeat' first | with_reducible rfl | simp only [↓kept_ite, ite_self, ↓k_tileUncorrectable] | split | dsimp only
theorem k_commitStripe {g : Nat} {s : State}  :
    kept (commitStripe g s) = kept s := by
  unfold commitStripe
  repeat' first
    | with_reducible rfl
    | intro _
    | simp only [↓kept_mk, ↓k_programStripe, ↓k_stageTile, ↓k_tileCommitted, ↓k_tileHopeless]
    | with_reducible refine Eq.trans (foldl_kept _ ?_ _ _) ?_
    | with_reducible refine Eq.trans (foldl_snd _ ?_ _ _) ?_
    | with_reducible refine Eq.trans (foldl_fst _ ?_ _ _) ?_
    | with_reducible refine Eq.trans (foldl_third _ ?_ _ _) ?_
    | dsimp only
theorem k_programFailed {g : Nat} {s : State}  :
    kept (programFailed g s) = kept s := by
  unfold programFailed
  repeat' first
    | with_reducible rfl
    | simp only [↓kept_mk, ↓k_openBlock, ↓k_retireBlock, ↓k_drawFree]
    | split
    | dsimp only
theorem k_execTileCommit {group : Fin 4} {programOk : Bool} {s : State}  :
    outKept (execTileCommit group programOk s) = some (kept s) := by
  unfold execTileCommit
  repeat' first
    | with_reducible rfl
    | simp only [↓outKept_next, ↓kept_ite, ite_self, ↓k_commitStripe, ↓k_programFailed]
    | refine congrArg some ?_
    | split
theorem k_execStripeCloseTimeout {group : Fin 4} {s : State}  :
    outKept (execStripeCloseTimeout group s) = some (kept s) := by
  unfold execStripeCloseTimeout
  repeat' first
    | with_reducible rfl
    | simp only [↓outKept_next, ↓kept_ite, ite_self, ↓k_commitStripe]
    | refine congrArg some ?_
    | split
theorem k_execMapCheckpoint {s : State}  :
    outKept (execMapCheckpoint s) = some (kept s) := by
  unfold execMapCheckpoint
  repeat' first
    | with_reducible rfl
    | simp only [↓outKept_next, ↓kept_mk, ↓kept_ite, ite_self, ↓k_writeRegion]
    | refine congrArg some ?_
    | split
    | dsimp only
theorem k_mount {newestOk olderOk : Bool} {s : State}  :
    kept (mount newestOk olderOk s) = kept s := by
  unfold mount
  repeat' first
    | with_reducible rfl
    | intro _
    | simp only [↓kept_mk, ↓kept_ite, ite_self, ↓k_raise, ↓k_readRegion, ↓k_resumeBlocks]
    | split
    | dsimp only
theorem k_execMountTier {newestOk olderOk : Bool} {s : State}  :
    outKept (execMountTier newestOk olderOk s) = some (kept s) := by
  unfold execMountTier
  repeat' first
    | with_reducible rfl
    | simp only [↓outKept_next, ↓kept_ite, ite_self, ↓k_mount]
    | refine congrArg some ?_
    | split
theorem k_execStaticWearLevel {slc : Bool} {s : State}  :
    outKept (execStaticWearLevel slc s) = some (kept s) := by
  unfold execStaticWearLevel
  repeat' first
    | with_reducible rfl
    | intro _
    | simp only [↓outKept_next, ↓kept_ite, ite_self, ↓k_moveBlock]
    | with_reducible refine Eq.trans (foldl_kept _ ?_ _ _) ?_
    | with_reducible refine Eq.trans (foldl_snd _ ?_ _ _) ?_
    | with_reducible refine Eq.trans (foldl_fst _ ?_ _ _) ?_
    | with_reducible refine Eq.trans (foldl_third _ ?_ _ _) ?_
    | refine congrArg some ?_
    | split
    | dsimp only
theorem k_execReadDisturbRefresh {block : Nat} {s : State}  :
    outKept (execReadDisturbRefresh block s) = some (kept s) := by
  unfold execReadDisturbRefresh
  repeat' first
    | with_reducible rfl
    | simp only [↓outKept_next, ↓kept_ite, ite_self, ↓k_moveBlock]
    | refine congrArg some ?_
    | split
theorem k_execRetentionTick {case0 case1 : Int} {s : State}  :
    outKept (execRetentionTick case0 case1 s) = some (kept s) := by
  unfold execRetentionTick
  repeat' first
    | with_reducible rfl
    | intro _
    | simp only [↓outKept_next, ↓kept_mk, ↓kept_ite, ite_self, ↓k_moveBlock, ↓k_caseTemp]
    | with_reducible refine Eq.trans (foldl_kept _ ?_ _ _) ?_
    | with_reducible refine Eq.trans (foldl_snd _ ?_ _ _) ?_
    | with_reducible refine Eq.trans (foldl_fst _ ?_ _ _) ?_
    | with_reducible refine Eq.trans (foldl_third _ ?_ _ _) ?_
    | refine congrArg some ?_
    | split
    | dsimp only
theorem k_wordReads {o : CwOutcome} {s : State}  :
    kept (wordReads o s).2 = kept s := by
  unfold wordReads
  repeat' first | with_reducible rfl | simp only [↓k_drawFree] | split | dsimp only
theorem k_countOutcome {die : Nat} {o : CwOutcome} {s : State}  :
    kept (countOutcome die o s) = kept s := by
  unfold countOutcome
  repeat' first | with_reducible rfl | simp only [↓k_dcUp] | split
theorem k_noteRead {b key : Nat} {o : CwOutcome} {s : State}  :
    kept (noteRead b key o s) = kept s := by
  unfold noteRead
  repeat' first
    | with_reducible rfl
    | intro _
    | simp only [↓kept_mk, ↓kept_ite, ite_self, ↓k_dcUp, ↓k_blockMod, ↓k_moveBlock, ↓k_stripeReads, ↓k_wordReads, ↓k_countOutcome]
    | split
    | dsimp only
theorem k_scanBlock {b : Nat} {l : List CwOutcome} {s : State}  :
    kept (scanBlock b l s) = kept s := by
  unfold scanBlock
  repeat' first
    | with_reducible rfl
    | intro _
    | simp only [↓kept_mk, ↓kept_ite, ite_self, ↓k_blockMod, ↓k_retireBlock, ↓k_tileUncorrectable, ↓k_noteRead]
    | with_reducible refine Eq.trans (foldl_kept _ ?_ _ _) ?_
    | with_reducible refine Eq.trans (foldl_snd _ ?_ _ _) ?_
    | with_reducible refine Eq.trans (foldl_fst _ ?_ _ _) ?_
    | with_reducible refine Eq.trans (foldl_third _ ?_ _ _) ?_
    | split
    | dsimp only
theorem k_execReadScan {outcomes : List (Nat × CwOutcome)} {s : State}  :
    outKept (execReadScan outcomes s) = some (kept s) := by
  unfold execReadScan
  repeat' first
    | with_reducible rfl
    | intro _
    | simp only [↓outKept_next, ↓kept_mk, ↓kept_ite, ite_self, ↓k_pump, ↓k_scanBlock]
    | with_reducible refine Eq.trans (foldl_kept _ ?_ _ _) ?_
    | with_reducible refine Eq.trans (foldl_snd _ ?_ _ _) ?_
    | with_reducible refine Eq.trans (foldl_fst _ ?_ _ _) ?_
    | with_reducible refine Eq.trans (foldl_third _ ?_ _ _) ?_
    | refine congrArg some ?_
    | split
    | dsimp only
theorem k_execDieFailure {die : Fin 32} {s : State}  :
    outKept (execDieFailure die s) = some (kept s) := by
  unfold execDieFailure
  repeat' first
    | with_reducible rfl
    | simp only [↓outKept_next, ↓kept_ite, ite_self, ↓k_failDie]
    | refine congrArg some ?_
    | split
theorem k_execCodewordRead {object page : Nat} {tile : Fin 32} {word : Fin 16} {outcome : CwOutcome} {s : State}  :
    outKept (execCodewordRead object page tile word outcome s) = some (kept s) := by
  unfold execCodewordRead
  repeat' first
    | with_reducible rfl
    | intro _
    | simp only [↓outKept_next, ↓kept_mk, ↓kept_ite, ite_self, ↓k_moveMod, ↓k_tileUncorrectable, ↓k_pump, ↓k_noteRead]
    | refine congrArg some ?_
    | split
    | dsimp only
theorem k_execSourceTimeout {object page : Nat} {tile : Fin 32} {s : State}  :
    outKept (execSourceTimeout object page tile s) = some (kept s) := by
  unfold execSourceTimeout
  repeat' first
    | with_reducible rfl
    | intro _
    | simp only [↓outKept_next, ↓kept_ite, ite_self, ↓k_tileLost, ↓k_askSource, ↓k_pump]
    | refine congrArg some ?_
    | split
theorem k_countReads {o p : Nat} {got : BitVec 512} {s : State}  :
    kept (countReads o p got s) = kept s := by
  unfold countReads
  repeat' first
    | with_reducible rfl
    | intro _
    | simp only [↓kept_mk, ↓kept_ite, ite_self, ↓k_dcUp, ↓k_blockMod, ↓k_stripeReads]
    | with_reducible refine Eq.trans (foldl_kept _ ?_ _ _) ?_
    | with_reducible refine Eq.trans (foldl_snd _ ?_ _ _) ?_
    | with_reducible refine Eq.trans (foldl_fst _ ?_ _ _) ?_
    | with_reducible refine Eq.trans (foldl_third _ ?_ _ _) ?_
    | split
    | dsimp only
theorem k_pageArrives {m : Move} {l : Loc} {s : State}  :
    kept (pageArrives m l s) = kept s := by
  unfold pageArrives
  repeat' first
    | with_reducible rfl
    | intro _
    | simp only [↓kept_mk, ↓k_pageMod, ↓k_fromFlash, ↓k_moveDrop, ↓k_pump, ↓k_countReads]
    | dsimp only
theorem k_execPageArrival {object page : Nat} {s : State}  :
    outKept (execPageArrival object page s) = some (kept s) := by
  unfold execPageArrival
  repeat' first
    | with_reducible rfl
    | intro _
    | simp only [↓outKept_next, ↓kept_ite, ite_self, ↓k_tileUncorrectable, ↓k_pump, ↓k_pageArrives]
    | with_reducible refine Eq.trans (foldl_kept _ ?_ _ _) ?_
    | with_reducible refine Eq.trans (foldl_snd _ ?_ _ _) ?_
    | with_reducible refine Eq.trans (foldl_fst _ ?_ _ _) ?_
    | with_reducible refine Eq.trans (foldl_third _ ?_ _ _) ?_
    | refine congrArg some ?_
    | split
    | dsimp only
theorem k_demandPage {c o p : Nat} {rod : Option Nat} {s : State} {tile : Option Nat}  :
    kept (demandPage c o p rod s tile) = kept s := by
  unfold demandPage
  repeat' first
    | with_reducible rfl
    | intro _
    | simp only [↓kept_ite, ite_self, ↓k_dcUp, ↓k_haltWaiting, ↓k_askMove, ↓k_pump]
    | split
    | dsimp only
theorem k_needPage {c : Cmd} {a : Nat × Nat} {s : State}  :
    kept (needPage c a s) = kept s := by
  unfold needPage
  repeat' first | with_reducible rfl | simp only [↓kept_ite, ite_self, ↓k_refuse, ↓k_demandPage] | split
theorem k_refuseBar {c : Cmd} {b : Bar} {s : State}  :
    kept (refuseBar c b s) = kept s := by
  unfold refuseBar
  repeat' first | with_reducible rfl | simp only [↓k_refuse, ↓k_raiseBar]
theorem k_unhitched {c : Cmd} {rs : List Span} {s : State} {k : State → State} (hk : ∀  s, kept (k  s) = kept s) :
    kept (unhitched c rs s k) = kept s := by
  unfold unhitched
  repeat' first | with_reducible rfl | simp only [↓k_needPage, ↓k_refuseBar, ↓hk] | split
theorem k_revivePage {o p : Nat} {s : State}  :
    kept (revivePage o p s) = kept s := by
  unfold revivePage
  repeat' first
    | with_reducible rfl
    | intro _
    | simp only [↓kept_mk, ↓k_pageMod]
    | with_reducible refine Eq.trans (foldl_kept _ ?_ _ _) ?_
    | with_reducible refine Eq.trans (foldl_snd _ ?_ _ _) ?_
    | with_reducible refine Eq.trans (foldl_fst _ ?_ _ _) ?_
    | with_reducible refine Eq.trans (foldl_third _ ?_ _ _) ?_
    | dsimp only
theorem k_execTierMiss {ctx : Fin 256} {va : Nat} {rod : Option (Fin 64)} {s : State}  :
    outKept (execTierMiss ctx va rod s) = some (kept s) := by
  unfold execTierMiss
  repeat' first
    | with_reducible rfl
    | simp only [↓outKept_next, ↓kept_ite, ite_self, ↓k_demandPage]
    | refine congrArg some ?_
    | split
theorem k_execHintService {part : Fin 8} {s : State}  :
    outKept (execHintService part s) = some (kept s) := by
  unfold execHintService
  repeat' first
    | with_reducible rfl
    | intro _
    | simp only [↓outKept_next, ↓kept_mk, ↓kept_ite, ite_self, ↓k_stratumMod, ↓k_pageMod, ↓k_askMove, ↓k_pump]
    | with_reducible refine Eq.trans (foldl_kept _ ?_ _ _) ?_
    | with_reducible refine Eq.trans (foldl_snd _ ?_ _ _) ?_
    | with_reducible refine Eq.trans (foldl_fst _ ?_ _ _) ?_
    | with_reducible refine Eq.trans (foldl_third _ ?_ _ _) ?_
    | refine congrArg some ?_
    | split
    | dsimp only
theorem k_execTierStarvation {ctx : Fin 256} {s : State}  :
    outKept (execTierStarvation ctx s) = some (kept s) := by
  unfold execTierStarvation
  repeat' first
    | with_reducible rfl
    | intro _
    | simp only [↓outKept_next, ↓kept_mk, ↓kept_ite, ite_self, ↓k_raise, ↓k_moveMod]
    | refine congrArg some ?_
    | split
theorem k_execUseReport {used : List (Nat × Nat)} {s : State}  :
    outKept (execUseReport used s) = some (kept s) := by
  unfold execUseReport
  repeat' first
    | with_reducible rfl
    | intro _
    | simp only [↓outKept_next, ↓kept_mk, ↓kept_ite, ite_self, ↓k_pageMod]
    | with_reducible refine Eq.trans (foldl_kept _ ?_ _ _) ?_
    | with_reducible refine Eq.trans (foldl_snd _ ?_ _ _) ?_
    | with_reducible refine Eq.trans (foldl_fst _ ?_ _ _) ?_
    | with_reducible refine Eq.trans (foldl_third _ ?_ _ _) ?_
    | refine congrArg some ?_
    | split

end Sys2Proof.Machine
end

