-- ==== Sys2Proof/Laws/KeptSeq.lean ====
section
/-! SUPPORT. What Seq.lean leaves as it was (Kept.lean). -/

set_option linter.all false
set_option maxRecDepth 8000

namespace Sys2Proof.Machine

theorem k_handOut {n : Nat} {l : Launch} {s : State}  :
    kept (handOut n l s) = kept s := by
  unfold handOut
  repeat' first
    | with_reducible rfl
    | intro _
    | simp only [↓kept_mk, ↓kept_ite, ite_self, ↓k_rodSet, ↓k_stratumMod, ↓k_groupsOn]
    | split
    | dsimp only
theorem k_refill {n : Nat} {s : State}  :
    kept (refill n s) = kept s := by
  unfold refill
  repeat' first
    | with_reducible rfl
    | intro _
    | simp only [↓kept_mk, ↓kept_ite, ite_self, ↓k_rodSet, ↓k_stratumMod]
    | split
    | dsimp only
theorem k_waitTable {c : Cmd} {a : Nat × Nat} {s : State}  :
    kept (waitTable c a s) = kept s := by
  unfold waitTable
  repeat' first | with_reducible rfl | simp only [↓kept_mk, ↓kept_ite, ite_self, ↓k_refuse, ↓k_demandPage] | split
theorem k_startElem {c : Cmd} {i : Nat} {s : State}  :
    kept (startElem c i s) = kept s := by
  unfold startElem
  repeat' first
    | with_reducible rfl
    | intro _
    | simp only [↓kept_mk, ↓kept_ite, ite_self, ↓k_ctxMod, ↓k_finishJ, ↓k_handOut]
    | with_reducible refine Eq.trans (foldl_kept _ ?_ _ _) ?_
    | with_reducible refine Eq.trans (foldl_snd _ ?_ _ _) ?_
    | with_reducible refine Eq.trans (foldl_fst _ ?_ _ _) ?_
    | with_reducible refine Eq.trans (foldl_third _ ?_ _ _) ?_
    | split
    | dsimp only
theorem k_nextElem {c : Cmd} {i : Nat} {s : State}  :
    kept (nextElem c i s) = kept s := by
  unfold nextElem
  repeat' first | with_reducible rfl | simp only [↓k_waitTable, ↓k_startElem] | split
theorem k_elemEnd {j n : Nat} {rec_ : BitVec 128} {high : Bool} {s : State}  :
    kept (elemEnd j n rec_ high s) = kept s := by
  unfold elemEnd
  repeat' first
    | with_reducible rfl
    | intro _
    | simp only [↓kept_mk, ↓kept_ite, ite_self, ↓k_finish, ↓k_writeVa, ↓k_nextElem]
    | with_reducible refine Eq.trans (foldl_kept _ ?_ _ _) ?_
    | with_reducible refine Eq.trans (foldl_snd _ ?_ _ _) ?_
    | with_reducible refine Eq.trans (foldl_fst _ ?_ _ _) ?_
    | with_reducible refine Eq.trans (foldl_third _ ?_ _ _) ?_
    | split
    | dsimp only
theorem k_noteLaunch {c : Cmd} {s : State}  :
    kept (noteLaunch c s) = kept s := by
  unfold noteLaunch
  repeat' first | with_reducible rfl | intro _ | simp only [↓kept_mk, ↓kept_ite, ite_self, ↓k_ctxMod] | split
theorem k_launchBody {c : Cmd} {s : State}  :
    kept (launchBody c s) = kept s := by
  unfold launchBody
  repeat' first
    | with_reducible rfl
    | simp only [↓kept_ite, ite_self, ↓k_refuse, ↓k_begun, ↓k_waitTable, ↓k_startElem, ↓k_noteLaunch]
    | split
theorem k_execLaunch {q : Fin 512} {seq : Nat} {s : State}  :
    outKept (execLaunch q seq s) = some (kept s) := by
  unfold execLaunch
  repeat' first
    | with_reducible rfl
    | intro _
    | simp only [↓outKept_next, ↓k_launchBody]
    | refine Eq.trans (k_runCmd ?_) ?_
    | refine congrArg some ?_
theorem k_execLaunchChain {q : Fin 512} {seq : Nat} {s : State}  :
    outKept (execLaunchChain q seq s) = some (kept s) := by
  unfold execLaunchChain
  repeat' first
    | with_reducible rfl
    | intro _
    | simp only [↓outKept_next, ↓k_nextElem, ↓k_launchBody]
    | refine Eq.trans (k_runCmd ?_) ?_
    | refine congrArg some ?_
    | split
theorem k_applySignals {n ctx : Nat} {s : State}  :
    kept (applySignals n ctx s) = kept s := by
  unfold applySignals
  repeat' first
    | with_reducible rfl
    | intro _
    | simp only [↓kept_mk, ↓k_rodMod, ↓k_stratumMod]
    | with_reducible refine Eq.trans (foldl_kept _ ?_ _ _) ?_
    | with_reducible refine Eq.trans (foldl_snd _ ?_ _ _) ?_
    | with_reducible refine Eq.trans (foldl_fst _ ?_ _ _) ?_
    | with_reducible refine Eq.trans (foldl_third _ ?_ _ _) ?_
    | dsimp only
theorem k_execProgramStart {rod : Fin 64} {s : State}  :
    outKept (execProgramStart rod s) = some (kept s) := by
  unfold execProgramStart
  repeat' first
    | with_reducible rfl
    | simp only [↓outKept_next, ↓kept_mk, ↓kept_ite, ite_self, ↓k_rodSet, ↓k_groupsOn, ↓k_refill, ↓k_applySignals]
    | refine congrArg some ?_
    | split
    | dsimp only
theorem k_execDescFetch {rod : Fin 64} {s : State}  :
    outKept (execDescFetch rod s) = some (kept s) := by
  unfold execDescFetch
  repeat' first
    | with_reducible rfl
    | intro _
    | simp only [↓outKept_next, ↓kept_mk, ↓kept_ite, ite_self, ↓k_drawFree, ↓k_runMod, ↓k_haltRod, ↓k_readVa, ↓k_accHalt]
    | refine congrArg some ?_
    | split
    | dsimp only
theorem k_execDescIssue {rod : Fin 64} {s : State}  :
    outKept (execDescIssue rod s) = some (kept s) := by
  unfold execDescIssue
  repeat' first
    | with_reducible rfl
    | intro _
    | simp only [↓outKept_next, ↓kept_mk, ↓kept_ite, ite_self, ↓k_runMod, ↓k_haltRod]
    | refine congrArg some ?_
    | split
    | dsimp only
theorem k_execDescComplete {rod : Fin 64} {unit : Fin 4} {s : State}  :
    outKept (execDescComplete rod unit s) = some (kept s) := by
  unfold execDescComplete
  repeat' first
    | with_reducible rfl
    | intro _
    | simp only [↓outKept_next, ↓kept_mk, ↓kept_ite, ite_self, ↓k_runMod, ↓k_logEvents]
    | refine congrArg some ?_
    | split
    | dsimp only
theorem k_onCtl {s : State} {n op : Nat} {body : Run → Flight → State → State} (hbody : ∀ v0 v1 s, kept (body v0 v1 s) = kept s) :
    kept (onCtl s n op body) = kept s := by
  unfold onCtl
  repeat' first | with_reducible rfl | simp only [↓kept_ite, ite_self, ↓hbody] | split
theorem k_ctlDone {n : Nat} {f : Run → Run} {s : State}  :
    kept (ctlDone n f s) = kept s := by
  unfold ctlDone
  repeat' first | with_reducible rfl | intro _ | simp only [↓kept_mk, ↓k_runMod]
theorem k_execLayerBegin {rod : Fin 64} {s : State}  :
    outKept (execLayerBegin rod s) = some (kept s) := by
  unfold execLayerBegin
  repeat' first
    | with_reducible rfl
    | intro _
    | simp only [↓outKept_next, ↓kept_mk, ↓k_cursorMove, ↓k_ctlDone]
    | refine Eq.trans (k_onCtl ?_) ?_
    | refine congrArg some ?_
    | dsimp only
theorem k_sendSignal {l : Launch} {rod ctr inc : Nat} {s : State}  :
    kept (sendSignal l rod ctr inc s).2 = kept s := by
  unfold sendSignal
  repeat' first
    | with_reducible rfl
    | intro _
    | simp only [↓kept_mk, ↓kept_ite, ite_self, ↓k_rodSet, ↓k_stratumMod]
    | split
    | dsimp only
theorem k_sendHeld {from_ : Launch} (l : List (Nat × Nat × Nat)) {s : State} : kept (sendHeld from_ l s).2 = kept s := by
  induction l generalizing s with
  | nil => rfl
  | cons h l ih =>
    simp only [sendHeld]
    split
    · exact ih.trans k_sendSignal
    · rfl
theorem k_execLayerEnd {rod : Fin 64} {s : State}  :
    outKept (execLayerEnd rod s) = some (kept s) := by
  unfold execLayerEnd
  repeat' first
    | with_reducible rfl
    | intro _
    | simp only [↓outKept_next, ↓kept_mk, ↓kept_ite, ite_self, ↓k_drawFree, ↓k_runMod, ↓k_logEvents, ↓k_ctlDone, ↓k_sendHeld]
    | refine Eq.trans (k_onCtl ?_) ?_
    | refine congrArg some ?_
    | split
    | dsimp only
theorem k_execCheckNext {rod : Fin 64} {s : State}  :
    outKept (execCheckNext rod s) = some (kept s) := by
  unfold execCheckNext
  repeat' first
    | with_reducible rfl
    | intro _
    | simp only [↓outKept_next, ↓kept_mk, ↓k_ctlDone]
    | refine Eq.trans (k_onCtl ?_) ?_
    | refine congrArg some ?_
theorem k_execWaitCtr {rod : Fin 64} {s : State}  :
    outKept (execWaitCtr rod s) = some (kept s) := by
  unfold execWaitCtr
  repeat' first
    | with_reducible rfl
    | intro _
    | simp only [↓outKept_next, ↓kept_mk, ↓kept_ite, ite_self, ↓k_rodMod, ↓k_runMod, ↓k_ctlDone]
    | refine Eq.trans (k_onCtl ?_) ?_
    | refine congrArg some ?_
    | split
    | dsimp only
theorem k_signalNow {rod : Nat} {r : Run} {h : Nat × Nat × Nat} {s : State}  :
    kept (signalNow rod r h s) = kept s := by
  unfold signalNow
  repeat' first
    | with_reducible rfl
    | simp only [↓kept_ite, ite_self, ↓k_ctlDone, ↓k_sendSignal]
    | split
    | dsimp only
theorem k_execSignalCtr {rod : Fin 64} {s : State}  :
    outKept (execSignalCtr rod s) = some (kept s) := by
  unfold execSignalCtr
  repeat' first
    | with_reducible rfl
    | intro _
    | simp only [↓outKept_next, ↓kept_mk, ↓kept_ite, ite_self, ↓k_ctlDone, ↓k_signalNow]
    | refine Eq.trans (k_onCtl ?_) ?_
    | refine congrArg some ?_
    | split
    | dsimp only
theorem k_releaseRod {key : Nat} {later : List Use} {s : State} {r : Nat}  :
    kept (releaseRod key later s r) = kept s := by
  unfold releaseRod
  repeat' first | with_reducible rfl | intro _ | simp only [↓kept_ite, ite_self, ↓k_ctlDone] | split
theorem k_closeUses {part key : Nat} (n : Nat) {s : State} : kept (closeUses part key n s) = kept s := by
  induction n generalizing s with
  | zero => rfl
  | succ n ih =>
    simp only [closeUses]
    split
    · rfl
    · split
      · exact ih.trans ((foldl_kept _ (fun _ _ => k_releaseRod) _ _).trans k_stratumMod)
      · rfl
theorem k_execRodBarrier {rod : Fin 64} {s : State}  :
    outKept (execRodBarrier rod s) = some (kept s) := by
  unfold execRodBarrier
  repeat' first
    | with_reducible rfl
    | intro _
    | simp only [↓outKept_next, ↓kept_mk, ↓kept_ite, ite_self, ↓k_runMod, ↓k_stratumMod, ↓k_haltRod, ↓k_closeUses]
    | refine Eq.trans (k_onCtl ?_) ?_
    | refine congrArg some ?_
    | split
    | dsimp only
theorem k_execSyncTimeout {rod : Fin 64} {s : State}  :
    outKept (execSyncTimeout rod s) = some (kept s) := by
  unfold execSyncTimeout
  repeat' first
    | with_reducible rfl
    | intro _
    | simp only [↓outKept_next, ↓kept_mk, ↓kept_ite, ite_self, ↓k_raise, ↓k_runMod]
    | refine congrArg some ?_
    | split
theorem k_execTierHint {rod : Fin 64} {s : State}  :
    outKept (execTierHint rod s) = some (kept s) := by
  unfold execTierHint
  repeat' first
    | with_reducible rfl
    | intro _
    | simp only [↓outKept_next, ↓kept_mk, ↓kept_ite, ite_self, ↓k_stratumMod, ↓k_ctlDone]
    | refine Eq.trans (k_onCtl ?_) ?_
    | refine congrArg some ?_
    | split
    | dsimp only
theorem k_execSetPhase {rod : Fin 64} {s : State}  :
    outKept (execSetPhase rod s) = some (kept s) := by
  unfold execSetPhase
  repeat' first
    | with_reducible rfl
    | intro _
    | simp only [↓outKept_next, ↓kept_mk, ↓k_ctlDone]
    | refine Eq.trans (k_onCtl ?_) ?_
    | refine congrArg some ?_
theorem k_endRun {n reason va : Nat} {w : BitVec 256} {r : Run} {s : State}  :
    kept (endRun n reason va w r s) = kept s := by
  unfold endRun
  repeat' first
    | with_reducible rfl
    | intro _
    | simp only [↓kept_mk, ↓k_rodMod, ↓k_unwaitRod, ↓k_groupsOff, ↓k_refill, ↓k_elemEnd]
    | dsimp only
theorem k_execEndProgram {rod : Fin 64} {s : State}  :
    outKept (execEndProgram rod s) = some (kept s) := by
  unfold execEndProgram
  repeat' first
    | with_reducible rfl
    | simp only [↓outKept_next, ↓kept_ite, ite_self, ↓k_endRun]
    | refine congrArg some ?_
    | split
theorem k_execWvCompare {frame : Fin 4} {s : State}  :
    outKept (execWvCompare frame s) = some (kept s) := by
  unfold execWvCompare
  repeat' first
    | with_reducible rfl
    | intro _
    | simp only [↓outKept_next, ↓kept_mk, ↓kept_ite, ite_self, ↓k_raise, ↓k_wvMod, ↓k_logRecord]
    | refine congrArg some ?_
    | split
    | dsimp only

end Sys2Proof.Machine
end

