-- ==== Sys2Proof/Laws/KeptObjects.lean ====
section
/-! SUPPORT. What Objects.lean leaves as it was (Kept.lean). -/

set_option linter.all false
set_option maxRecDepth 8000

namespace Sys2Proof.Machine

theorem k_mapShared {c : Cmd} {o : Nat} {s : State}  :
    kept (mapShared c o s) = kept s := by
  unfold mapShared
  repeat' first
    | with_reducible rfl
    | simp only [↓kept_mk, ↓kept_ite, ite_self, ↓k_finish, ↓k_refuse, ↓k_objSet]
    | split
    | dsimp only
theorem k_purge {o : Nat} {s : State}  :
    kept (purge o s) = kept s := by
  unfold purge
  repeat' first
    | with_reducible rfl
    | intro _
    | simp only [↓kept_mk, ↓k_mapLog, ↓k_dropTile]
    | with_reducible refine Eq.trans (foldl_kept _ ?_ _ _) ?_
    | with_reducible refine Eq.trans (foldl_snd _ ?_ _ _) ?_
    | with_reducible refine Eq.trans (foldl_fst _ ?_ _ _) ?_
    | with_reducible refine Eq.trans (foldl_third _ ?_ _ _) ?_
    | dsimp only
theorem k_registerNew {c : Cmd} {s : State}  :
    kept (registerNew c s) = kept s := by
  unfold registerNew
  repeat' first
    | with_reducible rfl
    | simp only [↓kept_mk, ↓kept_ite, ite_self, ↓k_refuse, ↓k_begun, ↓k_objSet, ↓k_pump, ↓k_purge]
    | split
    | dsimp only
theorem k_execObjRegister {q : Fin 512} {seq : Nat} {s : State}  :
    outKept (execObjRegister q seq s) = some (kept s) := by
  unfold execObjRegister
  repeat' first
    | with_reducible rfl
    | intro _
    | simp only [↓outKept_next, ↓kept_ite, ite_self, ↓k_refuse, ↓k_mapShared, ↓k_registerNew]
    | refine Eq.trans (k_runCmd ?_) ?_
    | refine congrArg some ?_
    | split
    | dsimp only
theorem k_releaseFrom {c o : Nat} {s : State}  :
    kept (releaseFrom c o s) = kept s := by
  unfold releaseFrom
  repeat' first
    | with_reducible rfl
    | intro _
    | simp only [↓kept_mk, ↓kept_ite, ite_self, ↓k_objSet, ↓k_flushPage, ↓k_dropObject, ↓k_pump]
    | with_reducible refine Eq.trans (foldl_kept _ ?_ _ _) ?_
    | with_reducible refine Eq.trans (foldl_snd _ ?_ _ _) ?_
    | with_reducible refine Eq.trans (foldl_fst _ ?_ _ _) ?_
    | with_reducible refine Eq.trans (foldl_third _ ?_ _ _) ?_
    | split
    | dsimp only
theorem k_execObjRelease {q : Fin 512} {seq : Nat} {s : State}  :
    outKept (execObjRelease q seq s) = some (kept s) := by
  unfold execObjRelease
  repeat' first
    | with_reducible rfl
    | intro _
    | simp only [↓outKept_next, ↓kept_ite, ite_self, ↓k_finish, ↓k_refuse, ↓k_releaseFrom]
    | refine Eq.trans (k_runCmd ?_) ?_
    | refine congrArg some ?_
    | split
theorem k_execObjPlace {q : Fin 512} {seq : Nat} {s : State}  :
    outKept (execObjPlace q seq s) = some (kept s) := by
  unfold execObjPlace
  repeat' first
    | with_reducible rfl
    | intro _
    | simp only [↓outKept_next, ↓kept_mk, ↓kept_ite, ite_self, ↓k_refuse, ↓k_begun, ↓k_pump]
    | refine Eq.trans (k_runCmd ?_) ?_
    | refine congrArg some ?_
    | split
    | dsimp only
theorem k_execQuotaSet {q : Fin 512} {seq : Nat} {s : State}  :
    outKept (execQuotaSet q seq s) = some (kept s) := by
  unfold execQuotaSet
  repeat' first
    | with_reducible rfl
    | intro _
    | simp only [↓outKept_next, ↓kept_mk, ↓kept_ite, ite_self, ↓k_ctxMod, ↓k_finish, ↓k_refuse]
    | refine Eq.trans (k_runCmd ?_) ?_
    | refine congrArg some ?_
    | split
    | dsimp only
theorem k_execPrefetchSchedule {q : Fin 512} {seq : Nat} {s : State}  :
    outKept (execPrefetchSchedule q seq s) = some (kept s) := by
  unfold execPrefetchSchedule
  repeat' first
    | with_reducible rfl
    | intro _
    | simp only [↓outKept_next, ↓kept_mk, ↓kept_ite, ite_self, ↓k_ctxMod, ↓k_finish, ↓k_refuse, ↓k_schedStep]
    | refine Eq.trans (k_runCmd ?_) ?_
    | refine congrArg some ?_
    | split
    | dsimp only
theorem k_copyWhole {c : Cmd} {o p off : Nat} {data : Bytes} {m : List (BitVec 4)} {s : State}  :
    kept (copyWhole c o p off data m s) = kept s := by
  unfold copyWhole
  repeat' first
    | with_reducible rfl
    | intro _
    | simp only [↓kept_mk, ↓k_queueWrite]
    | with_reducible refine Eq.trans (foldl_kept _ ?_ _ _) ?_
    | with_reducible refine Eq.trans (foldl_snd _ ?_ _ _) ?_
    | with_reducible refine Eq.trans (foldl_fst _ ?_ _ _) ?_
    | with_reducible refine Eq.trans (foldl_third _ ?_ _ _) ?_
    | dsimp only
theorem k_copyRead {c : Cmd} {s : State}  :
    kept (copyRead c s).2 = kept s := by
  unfold copyRead
  repeat' first | with_reducible rfl | simp only [↓kept_ite, ite_self, ↓k_readRaw] | split | dsimp only
theorem k_copyWrite {c : Cmd} {data : Bytes} {m : List (BitVec 4)} {s : State}  :
    kept (copyWrite c data m s) = kept s := by
  unfold copyWrite
  repeat' first
    | with_reducible rfl
    | intro _
    | simp only [↓kept_ite, ite_self, ↓k_hostWrite, ↓k_writeVa, ↓k_setMd, ↓k_copyWhole]
    | with_reducible refine Eq.trans (foldl_kept _ ?_ _ _) ?_
    | with_reducible refine Eq.trans (foldl_snd _ ?_ _ _) ?_
    | with_reducible refine Eq.trans (foldl_fst _ ?_ _ _) ?_
    | with_reducible refine Eq.trans (foldl_third _ ?_ _ _) ?_
    | split
    | dsimp only
theorem k_execCopyBytes {q : Fin 512} {seq : Nat} {s : State}  :
    outKept (execCopyBytes q seq s) = some (kept s) := by
  unfold execCopyBytes
  repeat' first
    | with_reducible rfl
    | intro _
    | simp only [↓outKept_next, ↓kept_ite, ite_self, ↓k_refuse, ↓k_begun, ↓k_copyDone, ↓k_needPage, ↓k_refuseBar, ↓k_copyRead, ↓k_copyWrite]
    | refine Eq.trans (k_runCmd ?_) ?_
    | refine congrArg some ?_
    | split
    | dsimp only

end Sys2Proof.Machine
end

