-- ==== Sys2Proof/Laws/KeptTally.lean ====
section
/-! SUPPORT. What Tally.lean leaves as it was (Kept.lean). -/

set_option linter.all false
set_option maxRecDepth 8000

namespace Sys2Proof.Machine

theorem k_arbSet {kind inst : Nat} {x : Arbiter} {s : State}  :
    kept (arbSet kind inst x s) = kept s := by
  unfold arbSet
  repeat' first | with_reducible rfl | simp only [↓kept_mk]
theorem k_execCountedSlot {kind : Fin 6} {inst : Nat} {arrivals : List Request} {s : State}  :
    outKept (execCountedSlot kind inst arrivals s) = some (kept s) := by
  unfold execCountedSlot
  repeat' first
    | with_reducible rfl
    | simp only [↓outKept_next, ↓kept_ite, ite_self, ↓k_arbSet]
    | refine congrArg some ?_
    | split
    | dsimp only
theorem k_noteStarved {kind inst : Nat} {h : Waiter} {s : State}  :
    kept (noteStarved kind inst h s) = kept s := by
  unfold noteStarved
  repeat' first | with_reducible rfl | simp only [↓kept_mk, ↓k_raise, ↓k_arbSet] | dsimp only
theorem k_execTallyStarvation {kind : Fin 6} {inst : Nat} {cls : Fin 64} {s : State}  :
    outKept (execTallyStarvation kind inst cls s) = some (kept s) := by
  unfold execTallyStarvation
  repeat' first
    | with_reducible rfl
    | simp only [↓outKept_next, ↓kept_ite, ite_self, ↓k_noteStarved]
    | refine congrArg some ?_
    | split
theorem k_tallyDone {c : Cmd} {t : TallyCmd} {f : Arbiter → Arbiter} {s : State}  :
    kept (tallyDone c t f s) = kept s := by
  unfold tallyDone
  repeat' first
    | with_reducible rfl
    | intro _
    | simp only [↓k_finish, ↓k_arbSet]
    | with_reducible refine Eq.trans (foldl_kept _ ?_ _ _) ?_
    | with_reducible refine Eq.trans (foldl_snd _ ?_ _ _) ?_
    | with_reducible refine Eq.trans (foldl_fst _ ?_ _ _) ?_
    | with_reducible refine Eq.trans (foldl_third _ ?_ _ _) ?_
    | dsimp only
theorem k_execSetTallyBudget {q : Fin 512} {seq : Nat} {s : State}  :
    outKept (execSetTallyBudget q seq s) = some (kept s) := by
  unfold execSetTallyBudget
  repeat' first
    | with_reducible rfl
    | intro _
    | simp only [↓outKept_next, ↓kept_mk, ↓kept_ite, ite_self, ↓k_refuse, ↓k_tallyDone]
    | refine Eq.trans (k_runSub ?_) ?_
    | refine congrArg some ?_
    | split
    | dsimp only
theorem k_execSetTallyMode {q : Fin 512} {seq : Nat} {s : State}  :
    outKept (execSetTallyMode q seq s) = some (kept s) := by
  unfold execSetTallyMode
  repeat' first
    | with_reducible rfl
    | intro _
    | simp only [↓outKept_next, ↓kept_mk, ↓kept_ite, ite_self, ↓k_refuse, ↓k_tallyDone]
    | refine Eq.trans (k_runSub ?_) ?_
    | refine congrArg some ?_
    | split
    | dsimp only

end Sys2Proof.Machine
end

