-- ==== Sys2Proof/Laws/KeptLinks.lean ====
section
/-! SUPPORT. What Links.lean leaves as it was (Kept.lean). -/

set_option linter.all false
set_option maxRecDepth 8000

namespace Sys2Proof.Machine

theorem k_portMod {p : Nat} {f : Port → Port} {s : State}  :
    kept (portMod p f s) = kept s := by
  unfold portMod
  repeat' first | with_reducible rfl | simp only [↓kept_mk]
theorem k_autoRoutes {s : State}  :
    kept (autoRoutes s) = kept s := by
  unfold autoRoutes
  repeat' first
    | with_reducible rfl
    | intro _
    | simp only [↓kept_mk, ↓kept_ite, ite_self, ↓k_peerSet]
    | with_reducible refine Eq.trans (foldl_kept _ ?_ _ _) ?_
    | with_reducible refine Eq.trans (foldl_snd _ ?_ _ _) ?_
    | with_reducible refine Eq.trans (foldl_fst _ ?_ _ _) ?_
    | with_reducible refine Eq.trans (foldl_third _ ?_ _ _) ?_
    | split
    | dsimp only
theorem k_sendPlain {p ftype : Nat} {payload : Bytes} {s : State}  :
    kept (sendPlain p ftype payload s) = kept s := by
  unfold sendPlain
  repeat' first | with_reducible rfl | intro _ | simp only [↓kept_mk, ↓kept_ite, ite_self, ↓k_portMod] | split
theorem k_answerNow {p : Nat} {s : State}  :
    kept (answerNow p s) = kept s := by
  unfold answerNow
  repeat' first
    | with_reducible rfl
    | intro _
    | simp only [↓kept_ite, ite_self, ↓k_sendPlain]
    | with_reducible refine Eq.trans (foldl_kept _ ?_ _ _) ?_
    | with_reducible refine Eq.trans (foldl_snd _ ?_ _ _) ?_
    | with_reducible refine Eq.trans (foldl_fst _ ?_ _ _) ?_
    | with_reducible refine Eq.trans (foldl_third _ ?_ _ _) ?_
    | split
    | dsimp only
theorem k_sendHello {p : Nat} {s : State}  :
    kept (sendHello p s) = kept s := by
  unfold sendHello
  repeat' first
    | with_reducible rfl
    | intro _
    | simp only [↓kept_mk, ↓kept_ite, ite_self, ↓k_portMod, ↓k_sendPlain]
    | split
theorem k_onLanes {p : Nat} {l : List (Nat × Bytes)} {s : State}  :
    kept (onLanes p l s) = kept s := by
  unfold onLanes
  repeat' first
    | with_reducible rfl
    | intro _
    | simp only [↓kept_mk, ↓kept_ite, ite_self, ↓k_portMod, ↓k_sendPlain]
    | with_reducible refine Eq.trans (foldl_kept _ ?_ _ _) ?_
    | with_reducible refine Eq.trans (foldl_snd _ ?_ _ _) ?_
    | with_reducible refine Eq.trans (foldl_fst _ ?_ _ _) ?_
    | with_reducible refine Eq.trans (foldl_third _ ?_ _ _) ?_
    | split
    | dsimp only
theorem k_sendFlit {p ftype vc : Nat} {first : Bool} {payload : Bytes} {s : State}  :
    kept (sendFlit p ftype vc first payload s) = kept s := by
  unfold sendFlit
  repeat' first
    | with_reducible rfl
    | intro _
    | simp only [↓kept_mk, ↓kept_ite, ite_self, ↓k_zlBump, ↓k_portMod, ↓k_onLanes]
    | split
    | dsimp only
theorem k_sendUnsent {p : Nat} {s : State}  :
    kept (sendUnsent p s) = kept s := by
  unfold sendUnsent
  repeat' first
    | with_reducible rfl
    | intro _
    | simp only [↓kept_mk, ↓kept_ite, ite_self, ↓k_portMod, ↓k_onLanes]
    | split
    | dsimp only
theorem k_enterRecovery {p : Nat} {s : State}  :
    kept (enterRecovery p s) = kept s := by
  unfold enterRecovery
  repeat' first
    | with_reducible rfl
    | intro _
    | simp only [↓kept_mk, ↓kept_ite, ite_self, ↓k_zlBump, ↓k_portMod, ↓k_autoRoutes]
    | split
    | dsimp only
theorem k_goBack {p fseq : Nat} {s : State}  :
    kept (goBack p fseq s) = kept s := by
  unfold goBack
  repeat' first
    | with_reducible rfl
    | intro _
    | simp only [↓kept_mk, ↓kept_ite, ite_self, ↓k_zlBump, ↓k_portMod, ↓k_onLanes, ↓k_enterRecovery]
    | split
    | dsimp only
theorem k_ackFlits {p fseq : Nat} {s : State}  :
    kept (ackFlits p fseq s) = kept s := by
  unfold ackFlits
  repeat' first | with_reducible rfl | intro _ | simp only [↓kept_mk, ↓kept_ite, ite_self, ↓k_portMod] | split
theorem k_groupSet {g : Nat} {x : Group} {s : State}  :
    kept (groupSet g x s) = kept s := by
  unfold groupSet
  repeat' first | with_reducible rfl | simp only [↓kept_mk]
theorem k_groupMod {g : Nat} {f : Group → Group} {s : State}  :
    kept (groupMod g f s) = kept s := by
  unfold groupMod
  repeat' first | with_reducible rfl | simp only [↓k_groupSet] | split
theorem k_sendColl {x : Group} {i cmd kind : Nat} {m : CollMsg} {s : State}  :
    kept (sendColl x i cmd kind m s) = kept s := by
  unfold sendColl
  repeat' first | with_reducible rfl | simp only [↓kept_mk, ↓k_sendMsg]
theorem k_sendTable {g : Nat} {x : Group} {i gen : Nat} {table : Bytes} {s : State}  :
    kept (sendTable g x i gen table s) = kept s := by
  unfold sendTable
  repeat' first | with_reducible rfl | simp only [↓kept_mk, ↓k_sendColl]
theorem k_collUp {g i n : Nat} {s : State}  :
    kept (collUp g i n s) = kept s := by
  unfold collUp
  repeat' first | with_reducible rfl | intro _ | simp only [↓kept_mk, ↓k_groupMod]
theorem k_countResent {m : OutMsg} {s : State}  :
    kept (countResent m s) = kept s := by
  unfold countResent
  repeat' first | with_reducible rfl | simp only [↓kept_ite, ite_self, ↓k_collUp] | split
theorem k_undefBytes {c va n : Nat} {s : State}  :
    kept (undefBytes c va n s) = kept s := by
  unfold undefBytes
  repeat' first | with_reducible rfl | intro _ | simp only [↓kept_mk, ↓k_writeVa] | dsimp only
theorem k_endRunLost {g status : Nat} {s : State}  :
    kept (endRunLost g status s) = kept s := by
  unfold endRunLost
  repeat' first
    | with_reducible rfl
    | simp only [↓kept_mk, ↓kept_ite, ite_self, ↓k_finishJ, ↓k_groupSet, ↓k_undefBytes]
    | split
    | dsimp only
theorem k_msgLost {d : Nat} {m : OutMsg} {s : State}  :
    kept (msgLost d m s) = kept s := by
  unfold msgLost
  repeat' first
    | with_reducible rfl
    | intro _
    | simp only [↓kept_mk, ↓kept_ite, ite_self, ↓k_sendMsg, ↓k_finishJ, ↓k_tileLost, ↓k_askSource, ↓k_pump, ↓k_countResent, ↓k_endRunLost]
    | with_reducible refine Eq.trans (foldl_kept _ ?_ _ _) ?_
    | with_reducible refine Eq.trans (foldl_snd _ ?_ _ _) ?_
    | with_reducible refine Eq.trans (foldl_fst _ ?_ _ _) ?_
    | with_reducible refine Eq.trans (foldl_third _ ?_ _ _) ?_
    | split
    | dsimp only
theorem k_tablesLost {d : Nat} {s : State}  :
    kept (tablesLost d s) = kept s := by
  unfold tablesLost
  repeat' first
    | with_reducible rfl
    | intro _
    | simp only [↓kept_mk, ↓kept_ite, ite_self, ↓k_groupMod, ↓k_sendTable]
    | with_reducible refine Eq.trans (foldl_kept _ ?_ _ _) ?_
    | with_reducible refine Eq.trans (foldl_snd _ ?_ _ _) ?_
    | with_reducible refine Eq.trans (foldl_fst _ ?_ _ _) ?_
    | with_reducible refine Eq.trans (foldl_third _ ?_ _ _) ?_
    | split
    | dsimp only
theorem k_helloAgain {p : Nat} {s : State}  :
    kept (helloAgain p s) = kept s := by
  unfold helloAgain
  repeat' first | with_reducible rfl | simp only [↓kept_ite, ite_self, ↓k_sendHello] | split | dsimp only
theorem k_mirrorHello {s : State}  :
    kept (mirrorHello s) = kept s := by
  unfold mirrorHello
  repeat' first
    | with_reducible rfl
    | intro _
    | simp only [↓kept_ite, ite_self, ↓k_helloAgain]
    | with_reducible refine Eq.trans (foldl_kept _ ?_ _ _) ?_
    | with_reducible refine Eq.trans (foldl_snd _ ?_ _ _) ?_
    | with_reducible refine Eq.trans (foldl_fst _ ?_ _ _) ?_
    | with_reducible refine Eq.trans (foldl_third _ ?_ _ _) ?_
    | split
theorem k_partnerLost {s : State}  :
    kept (partnerLost s) = kept s := by
  unfold partnerLost
  repeat' first
    | with_reducible rfl
    | intro _
    | simp only [↓kept_mk, ↓kept_ite, ite_self, ↓k_raise, ↓k_holdWhere, ↓k_mirrorHello]
    | split
    | dsimp only
theorem k_endSession {d : Nat} {s : State}  :
    kept (endSession d s) = kept s := by
  unfold endSession
  repeat' first
    | with_reducible rfl
    | intro _
    | simp only [↓kept_mk, ↓kept_ite, ite_self, ↓k_peerSet, ↓k_msgLost, ↓k_tablesLost]
    | with_reducible refine Eq.trans (foldl_kept _ ?_ _ _) ?_
    | with_reducible refine Eq.trans (foldl_snd _ ?_ _ _) ?_
    | with_reducible refine Eq.trans (foldl_fst _ ?_ _ _) ?_
    | with_reducible refine Eq.trans (foldl_third _ ?_ _ _) ?_
    | split
    | dsimp only
theorem k_peerRestart {d : Nat} {s : State}  :
    kept (peerRestart d s) = kept s := by
  unfold peerRestart
  repeat' first
    | with_reducible rfl
    | simp only [↓kept_ite, ite_self, ↓k_raise, ↓k_openSession, ↓k_partnerLost, ↓k_endSession]
    | split
    | dsimp only
theorem k_sessionUp {d boot : Nat} {s : State}  :
    kept (sessionUp d boot s) = kept s := by
  unfold sessionUp
  repeat' first
    | with_reducible rfl
    | intro _
    | simp only [↓kept_mk, ↓kept_ite, ite_self, ↓k_launchMsgs, ↓k_sendTable]
    | with_reducible refine Eq.trans (foldl_kept _ ?_ _ _) ?_
    | with_reducible refine Eq.trans (foldl_snd _ ?_ _ _) ?_
    | with_reducible refine Eq.trans (foldl_fst _ ?_ _ _) ?_
    | with_reducible refine Eq.trans (foldl_third _ ?_ _ _) ?_
    | split
    | dsimp only
theorem k_abortThru {p : Nat} {s : State}  :
    kept (abortThru p s) = kept s := by
  unfold abortThru
  repeat' first
    | with_reducible rfl
    | intro _
    | simp only [↓kept_ite, ite_self, ↓k_sendFlit]
    | with_reducible refine Eq.trans (foldl_kept _ ?_ _ _) ?_
    | with_reducible refine Eq.trans (foldl_snd _ ?_ _ _) ?_
    | with_reducible refine Eq.trans (foldl_fst _ ?_ _ _) ?_
    | with_reducible refine Eq.trans (foldl_third _ ?_ _ _) ?_
    | split
theorem k_swallowThru {q : Nat} {s : State}  :
    kept (swallowThru q s) = kept s := by
  unfold swallowThru
  repeat' first | with_reducible rfl | intro _ | simp only [↓kept_mk, ↓kept_ite, ite_self] | split
theorem k_portLeave {p : Nat} {st : PortState} {s : State}  :
    kept (portLeave p st s) = kept s := by
  unfold portLeave
  repeat' first
    | with_reducible rfl
    | intro _
    | simp only [↓kept_mk, ↓k_portMod, ↓k_abortThru, ↓k_swallowThru]
    | dsimp only
theorem k_mirrorCheck {s : State}  :
    kept (mirrorCheck s) = kept s := by
  unfold mirrorCheck
  repeat' first
    | with_reducible rfl
    | intro _
    | simp only [↓kept_mk, ↓kept_ite, ite_self, ↓k_raise, ↓k_partnerLost]
    | split
    | dsimp only
theorem k_portDown {p cause : Nat} {s : State}  :
    kept (portDown p cause s) = kept s := by
  unfold portDown
  repeat' first
    | with_reducible rfl
    | simp only [↓kept_ite, ite_self, ↓k_raise, ↓k_zlBump, ↓k_autoRoutes, ↓k_portLeave, ↓k_mirrorCheck]
    | split
    | dsimp only
theorem k_sessionsIfNone {s : State}  :
    kept (sessionsIfNone s) = kept s := by
  unfold sessionsIfNone
  repeat' first
    | with_reducible rfl
    | intro _
    | simp only [↓kept_ite, ite_self, ↓k_endSession]
    | with_reducible refine Eq.trans (foldl_kept _ ?_ _ _) ?_
    | with_reducible refine Eq.trans (foldl_snd _ ?_ _ _) ?_
    | with_reducible refine Eq.trans (foldl_fst _ ?_ _ _) ?_
    | with_reducible refine Eq.trans (foldl_third _ ?_ _ _) ?_
    | split
theorem k_sendNotice {d mtype stream mseq boot : Nat} {refused : Bool} {s : State}  :
    kept (sendNotice d mtype stream mseq boot refused s) = kept s := by
  unfold sendNotice
  repeat' first | with_reducible rfl | simp only [↓kept_mk, ↓kept_ite, ite_self, ↓k_queuePacket] | split
theorem k_staleIn {h : MsgHdr} {s : State}  :
    kept (staleIn h s) = kept s := by
  unfold staleIn
  repeat' first | with_reducible rfl | simp only [↓k_zlBump, ↓k_sendNotice]
theorem k_unholdMsg {d stream n : Nat} {s : State}  :
    kept (unholdMsg d stream n s) = kept s := by
  unfold unholdMsg
  repeat' first | with_reducible rfl | intro _ | simp only [↓kept_mk]
theorem k_keepMsg {row : Instr} {h : MsgHdr} {stream : Nat} {s : State}  :
    kept (keepMsg row h stream s) = kept s := by
  unfold keepMsg
  repeat' first | with_reducible rfl | simp only [↓kept_mk, ↓k_unholdMsg] | dsimp only
theorem k_holdMsg {row : Instr} {h : MsgHdr} {stream : Nat} {s : State}  :
    kept (holdMsg row h stream s) = kept s := by
  unfold holdMsg
  repeat' first | with_reducible rfl | simp only [↓kept_ite, ite_self, ↓k_zlBump, ↓k_keepMsg] | split
theorem k_ackNow {d stream n boot : Nat} {refused : Bool} {s : State}  :
    kept (ackNow d stream n boot refused s) = kept s := by
  unfold ackNow
  repeat' first
    | with_reducible rfl
    | intro _
    | simp only [↓kept_mk, ↓kept_ite, ite_self, ↓k_peerSet, ↓k_zlBump, ↓k_sendNotice, ↓k_unholdMsg]
    | split
    | dsimp only
theorem k_receive {row : Instr} {h : MsgHdr} {stream : Nat} {act : State → State × Option Bool} {s : State} (hact : ∀  s, kept (act  s).1 = kept s) :
    kept (receive row h stream act s) = kept s := by
  unfold receive
  repeat' first
    | with_reducible rfl
    | simp only [↓kept_ite, ite_self, ↓k_zlBump, ↓k_peerRestart, ↓k_sendNotice, ↓k_staleIn, ↓k_keepMsg, ↓k_holdMsg, ↓k_ackNow, ↓hact]
    | split
    | dsimp only
theorem k_receivePair {row : Instr} {h : MsgHdr} {stream : Nat} {act : State → State × Option Bool} {s : State} (hact : ∀  s, kept (act  s).1 = kept s) :
    kept (receivePair row h stream act s) = kept s := by
  unfold receivePair
  repeat' first
    | with_reducible rfl
    | intro _
    | simp only [↓kept_ite, ite_self, ↓k_raise, ↓k_zlBump, ↓hact]
    | refine Eq.trans (k_receive ?_) ?_
    | split

end Sys2Proof.Machine
end

