-- ==== Sys2Proof/Laws/KeptMirror.lean ====
section
/-! SUPPORT. What Mirror.lean leaves as it was (Kept.lean). -/

set_option linter.all false
set_option maxRecDepth 8000

namespace Sys2Proof.Machine

theorem k_sendMark {d role : Nat} {s : State}  :
    kept (sendMark d role s) = kept s := by
  unfold sendMark
  repeat' first | with_reducible rfl | simp only [↓kept_mk, ↓kept_ite, ite_self, ↓k_sendMsg] | split
theorem k_sendFull {d : Nat} {s : State}  :
    kept (sendFull d s) = kept s := by
  unfold sendFull
  repeat' first
    | with_reducible rfl
    | intro _
    | simp only [↓kept_mk, ↓k_sendMsg, ↓k_sendMark]
    | with_reducible refine Eq.trans (foldl_kept _ ?_ _ _) ?_
    | with_reducible refine Eq.trans (foldl_snd _ ?_ _ _) ?_
    | with_reducible refine Eq.trans (foldl_fst _ ?_ _ _) ?_
    | with_reducible refine Eq.trans (foldl_third _ ?_ _ _) ?_
    | dsimp only
theorem k_sendBack {d : Nat} {s : State}  :
    kept (sendBack d s) = kept s := by
  unfold sendBack
  repeat' first
    | with_reducible rfl
    | intro _
    | simp only [↓kept_mk, ↓k_sendMsg, ↓k_sendMark]
    | with_reducible refine Eq.trans (foldl_kept _ ?_ _ _) ?_
    | with_reducible refine Eq.trans (foldl_snd _ ?_ _ _) ?_
    | with_reducible refine Eq.trans (foldl_fst _ ?_ _ _) ?_
    | with_reducible refine Eq.trans (foldl_third _ ?_ _ _) ?_
    | dsimp only
theorem k_helloPair {p : Nat} {s : State}  :
    kept (helloPair p s) = kept s := by
  unfold helloPair
  repeat' first | with_reducible rfl | simp only [↓kept_ite, ite_self, ↓k_sendMark, ↓k_sendFull, ↓k_sendBack] | split
theorem k_becomeBound {s : State}  :
    kept (becomeBound s) = kept s := by
  unfold becomeBound
  repeat' first | with_reducible rfl | simp only [↓kept_mk, ↓k_mirrorHello]
theorem k_copyDelivered {d last : Nat} {s : State}  :
    kept (copyDelivered d last s) = kept s := by
  unfold copyDelivered
  repeat' first
    | with_reducible rfl
    | simp only [↓kept_mk, ↓kept_ite, ite_self, ↓k_finishJ, ↓k_becomeBound]
    | split
    | dsimp only

end Sys2Proof.Machine
end

