-- ==== Sys2Proof/Laws/KeptZilet.lean ====
section
/-! SUPPORT. What Zilet.lean leaves as it was (Kept.lean). -/

set_option linter.all false
set_option maxRecDepth 8000

namespace Sys2Proof.Machine

theorem k_execTrainingAttempt {port : Fin 32} {lanes : BitVec 8} {s : State}  :
    outKept (execTrainingAttempt port lanes s) = some (kept s) := by
  unfold execTrainingAttempt
  repeat' first
    | with_reducible rfl
    | intro _
    | simp only [↓outKept_next, ↓kept_mk, ↓kept_ite, ite_self, ↓k_zlBump, ↓k_portMod, ↓k_sendHello]
    | refine congrArg some ?_
    | split
    | dsimp only
theorem k_execTrainingTimeout {port : Fin 32} {s : State}  :
    outKept (execTrainingTimeout port s) = some (kept s) := by
  unfold execTrainingTimeout
  repeat' first
    | with_reducible rfl
    | simp only [↓outKept_next, ↓kept_ite, ite_self, ↓k_zlBump, ↓k_portLeave]
    | refine congrArg some ?_
    | split
theorem k_execHello {port : Fin 32} {payload : BitVec 128} {s : State}  :
    outKept (execHello port payload s) = some (kept s) := by
  unfold execHello
  repeat' first
    | with_reducible rfl
    | intro _
    | simp only [↓outKept_next, ↓kept_mk, ↓kept_ite, ite_self, ↓k_raise, ↓k_zlBump, ↓k_portMod, ↓k_autoRoutes, ↓k_portLeave, ↓k_mirrorCheck, ↓k_helloPair]
    | refine congrArg some ?_
    | split
    | dsimp only
theorem k_execRecoveryExit {port : Fin 32} {s : State}  :
    outKept (execRecoveryExit port s) = some (kept s) := by
  unfold execRecoveryExit
  repeat' first
    | with_reducible rfl
    | intro _
    | simp only [↓outKept_next, ↓kept_mk, ↓kept_ite, ite_self, ↓k_zlBump, ↓k_portMod, ↓k_autoRoutes, ↓k_answerNow, ↓k_sendHello, ↓k_onLanes]
    | refine congrArg some ?_
    | split
    | dsimp only
theorem k_execRecoveryTimeout {port : Fin 32} {s : State}  :
    outKept (execRecoveryTimeout port s) = some (kept s) := by
  unfold execRecoveryTimeout
  repeat' first
    | with_reducible rfl
    | simp only [↓outKept_next, ↓kept_ite, ite_self, ↓k_portDown]
    | refine congrArg some ?_
    | split
theorem k_execLossOfSignal {port : Fin 32} {s : State}  :
    outKept (execLossOfSignal port s) = some (kept s) := by
  unfold execLossOfSignal
  repeat' first
    | with_reducible rfl
    | simp only [↓outKept_next, ↓kept_ite, ite_self, ↓k_portDown]
    | refine congrArg some ?_
    | split
    | dsimp only
theorem k_execPeerSafe {port : Fin 32} {s : State}  :
    outKept (execPeerSafe port s) = some (kept s) := by
  unfold execPeerSafe
  repeat' first
    | with_reducible rfl
    | simp only [↓outKept_next, ↓kept_ite, ite_self, ↓k_portDown]
    | refine congrArg some ?_
    | split
    | dsimp only
theorem k_execZlRefclkLoss {s : State}  :
    outKept (execZlRefclkLoss s) = some (kept s) := by
  unfold execZlRefclkLoss
  repeat' first
    | with_reducible rfl
    | intro _
    | simp only [↓outKept_next, ↓kept_mk, ↓kept_mkSup, ↓kept_ite, ite_self, ↓k_portDown]
    | with_reducible refine Eq.trans (foldl_kept _ ?_ _ _) ?_
    | with_reducible refine Eq.trans (foldl_snd _ ?_ _ _) ?_
    | with_reducible refine Eq.trans (foldl_fst _ ?_ _ _) ?_
    | with_reducible refine Eq.trans (foldl_third _ ?_ _ _) ?_
    | refine congrArg some ?_
    | split
    | dsimp only
theorem k_execNak {port : Fin 32} {fseq : Nat} {s : State}  :
    outKept (execNak port fseq s) = some (kept s) := by
  unfold execNak
  repeat' first | with_reducible rfl | simp only [↓outKept_next, ↓k_goBack] | refine congrArg some ?_
theorem k_execAckTimeout {port : Fin 32} {s : State}  :
    outKept (execAckTimeout port s) = some (kept s) := by
  unfold execAckTimeout
  repeat' first
    | with_reducible rfl
    | simp only [↓outKept_next, ↓kept_ite, ite_self, ↓k_enterRecovery]
    | refine congrArg some ?_
    | split
theorem k_execRetryRateCheck {port : Fin 32} {s : State}  :
    outKept (execRetryRateCheck port s) = some (kept s) := by
  unfold execRetryRateCheck
  repeat' first
    | with_reducible rfl
    | intro _
    | simp only [↓outKept_next, ↓kept_mk, ↓kept_ite, ite_self, ↓k_raise, ↓k_portMod]
    | refine congrArg some ?_
    | split
    | dsimp only
theorem k_takePacket {port : Nat} {flits : List Bytes} {s : State}  :
    kept (takePacket port flits s) = kept s := by
  unfold takePacket
  repeat' first
    | with_reducible rfl
    | simp only [↓kept_mk, ↓kept_ite, ite_self, ↓k_raise, ↓k_peerSet, ↓k_zlBump, ↓k_staleIn]
    | split
    | dsimp only
theorem k_freeFlit {p vc n : Nat} {s : State}  :
    kept (freeFlit p vc n s) = kept s := by
  unfold freeFlit
  repeat' first | with_reducible rfl | intro _ | simp only [↓kept_mk, ↓kept_ite, ite_self, ↓k_portMod] | split
theorem k_drainPort {s : State} {p : Nat}  :
    kept (drainPort s p) = kept s := by
  unfold drainPort
  repeat' first
    | with_reducible rfl
    | intro _
    | simp only [↓kept_mk, ↓k_portMod, ↓k_answerNow, ↓k_sendUnsent]
    | with_reducible refine Eq.trans (foldl_kept _ ?_ _ _) ?_
    | with_reducible refine Eq.trans (foldl_snd _ ?_ _ _) ?_
    | with_reducible refine Eq.trans (foldl_fst _ ?_ _ _) ?_
    | with_reducible refine Eq.trans (foldl_third _ ?_ _ _) ?_
    | dsimp only
theorem k_drainPorts {s : State}  :
    kept (drainPorts s) = kept s := by
  unfold drainPorts
  repeat' first
    | with_reducible rfl
    | intro _
    | simp only [↓kept_ite, ite_self, ↓k_drainPort]
    | with_reducible refine Eq.trans (foldl_kept _ ?_ _ _) ?_
    | with_reducible refine Eq.trans (foldl_snd _ ?_ _ _) ?_
    | with_reducible refine Eq.trans (foldl_fst _ ?_ _ _) ?_
    | with_reducible refine Eq.trans (foldl_third _ ?_ _ _) ?_
    | split
theorem k_collectFlit {p vc : Nat} {pay : Bytes} {s : State}  :
    kept (collectFlit p vc pay s) = kept s := by
  unfold collectFlit
  repeat' first
    | with_reducible rfl
    | intro _
    | simp only [↓kept_mk, ↓kept_ite, ite_self, ↓k_portMod, ↓k_takePacket, ↓k_freeFlit]
    | split
    | dsimp only
theorem k_takeFlit {p vc : Nat} {first : Bool} {pay : Bytes} {s : State}  :
    kept (takeFlit p vc first pay s) = kept s := by
  unfold takeFlit
  repeat' first
    | with_reducible rfl
    | intro _
    | simp only [↓kept_mk, ↓kept_ite, ite_self, ↓k_zlBump, ↓k_portMod, ↓k_sendFlit, ↓k_freeFlit, ↓k_collectFlit]
    | split
    | dsimp only
theorem k_badFlit {p : Nat} {s : State}  :
    kept (badFlit p s) = kept s := by
  unfold badFlit
  repeat' first | with_reducible rfl | intro _ | simp only [↓kept_mk, ↓k_zlBump, ↓k_portMod]
theorem k_flitNews {p h : Nat} {s : State}  :
    kept (flitNews p h s) = kept s := by
  unfold flitNews
  repeat' first
    | with_reducible rfl
    | intro _
    | simp only [↓kept_mk, ↓kept_ite, ite_self, ↓k_portMod, ↓k_goBack, ↓k_ackFlits]
    | with_reducible refine Eq.trans (foldl_kept _ ?_ _ _) ?_
    | with_reducible refine Eq.trans (foldl_snd _ ?_ _ _) ?_
    | with_reducible refine Eq.trans (foldl_fst _ ?_ _ _) ?_
    | with_reducible refine Eq.trans (foldl_third _ ?_ _ _) ?_
    | split
    | dsimp only
theorem k_acceptFlit {p h : Nat} {flit : Bytes} {s : State}  :
    kept (acceptFlit p h flit s) = kept s := by
  unfold acceptFlit
  repeat' first
    | with_reducible rfl
    | intro _
    | simp only [↓kept_mk, ↓kept_ite, ite_self, ↓k_zlBump, ↓k_portMod, ↓k_takeFlit, ↓k_flitNews]
    | split
    | dsimp only
theorem k_flitIn {p : Nat} {flit : Bytes} {s : State}  :
    kept (flitIn p flit s) = kept s := by
  unfold flitIn
  repeat' first
    | with_reducible rfl
    | simp only [↓kept_ite, ite_self, ↓k_zlBump, ↓k_badFlit, ↓k_flitNews, ↓k_acceptFlit]
    | split
    | dsimp only
theorem k_execFlitReceive {port : Fin 32} {fec : Option Nat} {flit : Bytes} {s : State}  :
    outKept (execFlitReceive port fec flit s) = some (kept s) := by
  unfold execFlitReceive
  repeat' first
    | with_reducible rfl
    | simp only [↓outKept_next, ↓kept_ite, ite_self, ↓k_zlBump, ↓k_answerNow, ↓k_badFlit, ↓k_flitIn]
    | refine congrArg some ?_
    | split
theorem k_dropWaiting {index : Nat} {s : State}  :
    kept (dropWaiting index s) = kept s := by
  unfold dropWaiting
  repeat' first | with_reducible rfl | simp only [↓kept_mk]
theorem k_forwardOn {p : Nat} {w : Waiting} {s : State}  :
    kept (forwardOn p w s) = kept s := by
  unfold forwardOn
  repeat' first
    | with_reducible rfl
    | intro _
    | simp only [↓kept_mk, ↓kept_ite, ite_self, ↓k_zlBump, ↓k_portMod, ↓k_sendFlit, ↓k_freeFlit]
    | with_reducible refine Eq.trans (foldl_kept _ ?_ _ _) ?_
    | with_reducible refine Eq.trans (foldl_snd _ ?_ _ _) ?_
    | with_reducible refine Eq.trans (foldl_fst _ ?_ _ _) ?_
    | with_reducible refine Eq.trans (foldl_third _ ?_ _ _) ?_
    | split
    | dsimp only
theorem k_creditStall {s : State} {w : Waiting}  :
    kept (creditStall s w) = kept s := by
  unfold creditStall
  repeat' first
    | with_reducible rfl
    | intro _
    | simp only [↓kept_ite, ite_self, ↓k_zlBump]
    | with_reducible refine Eq.trans (foldl_kept _ ?_ _ _) ?_
    | with_reducible refine Eq.trans (foldl_snd _ ?_ _ _) ?_
    | with_reducible refine Eq.trans (foldl_fst _ ?_ _ _) ?_
    | with_reducible refine Eq.trans (foldl_third _ ?_ _ _) ?_
    | split
    | dsimp only
theorem k_execPacketForward {index : Nat} {s : State}  :
    outKept (execPacketForward index s) = some (kept s) := by
  unfold execPacketForward
  repeat' first
    | with_reducible rfl
    | simp only [↓outKept_next, ↓kept_mk, ↓kept_ite, ite_self, ↓k_answerNow, ↓k_dropWaiting, ↓k_forwardOn, ↓k_creditStall]
    | refine congrArg some ?_
    | split
    | dsimp only
theorem k_discardPacket {w : Waiting} {s : State}  :
    kept (discardPacket w s) = kept s := by
  unfold discardPacket
  repeat' first
    | with_reducible rfl
    | intro _
    | simp only [↓kept_mk, ↓kept_ite, ite_self, ↓k_portMod, ↓k_answerNow, ↓k_freeFlit]
    | split
    | dsimp only
theorem k_execNoRoute {index : Nat} {s : State}  :
    outKept (execNoRoute index s) = some (kept s) := by
  unfold execNoRoute
  repeat' first
    | with_reducible rfl
    | simp only [↓outKept_next, ↓kept_ite, ite_self, ↓k_zlBump, ↓k_dropWaiting, ↓k_discardPacket]
    | refine congrArg some ?_
    | split
theorem k_execEscapeTimeout {index : Nat} {s : State}  :
    outKept (execEscapeTimeout index s) = some (kept s) := by
  unfold execEscapeTimeout
  repeat' first
    | with_reducible rfl
    | simp only [↓outKept_next, ↓kept_mk, ↓kept_ite, ite_self]
    | refine congrArg some ?_
    | split
theorem k_execSessionOpen {h : MsgHdr} {s : State}  :
    outKept (execSessionOpen h s) = some (kept s) := by
  unfold execSessionOpen
  repeat' first
    | with_reducible rfl
    | simp only [↓outKept_next, ↓kept_mk, ↓kept_ite, ite_self, ↓k_queuePacket, ↓k_zlBump, ↓k_peerRestart, ↓k_sessionUp, ↓k_staleIn]
    | refine congrArg some ?_
    | split
    | dsimp only
theorem k_execSessionAccept {h : MsgHdr} {s : State}  :
    outKept (execSessionAccept h s) = some (kept s) := by
  unfold execSessionAccept
  repeat' first
    | with_reducible rfl
    | intro _
    | simp only [↓outKept_next, ↓kept_ite, ite_self, ↓k_zlBump, ↓k_peerRestart, ↓k_sessionUp, ↓k_staleIn]
    | refine congrArg some ?_
    | split
    | dsimp only
theorem k_execStale {h : MsgHdr} {s : State}  :
    outKept (execStale h s) = some (kept s) := by
  unfold execStale
  repeat' first
    | with_reducible rfl
    | simp only [↓outKept_next, ↓kept_ite, ite_self, ↓k_peerRestart]
    | refine congrArg some ?_
    | split
theorem k_execRetransmitTimeout {peer : Fin 4096} {stream : Fin 4} {mseq : Nat} {s : State}  :
    outKept (execRetransmitTimeout peer stream mseq s) = some (kept s) := by
  unfold execRetransmitTimeout
  repeat' first
    | with_reducible rfl
    | intro _
    | simp only [↓outKept_next, ↓kept_mk, ↓kept_ite, ite_self, ↓k_peerSet, ↓k_queueMsg, ↓k_zlBump, ↓k_countResent]
    | refine congrArg some ?_
    | split
    | dsimp only
theorem k_execStreamTimeout {peer : Fin 4096} {stream : Fin 4} {s : State}  :
    outKept (execStreamTimeout peer stream s) = some (kept s) := by
  unfold execStreamTimeout
  repeat' first
    | with_reducible rfl
    | intro _
    | simp only [↓outKept_next, ↓kept_ite, ite_self, ↓k_raise, ↓k_openSession, ↓k_partnerLost, ↓k_endSession]
    | refine congrArg some ?_
    | split
    | dsimp only
theorem k_tileWriteIn {data : Bytes} {md : List (BitVec 4)} {target : Option (Nat × Nat)} {s : State}  :
    kept (tileWriteIn data md target s).1 = kept s := by
  unfold tileWriteIn
  repeat' first | with_reducible rfl | simp only [↓kept_ite, ite_self, ↓k_writeVa, ↓k_setMd, ↓k_demandPage] | split
theorem k_execTileWrite {h : MsgHdr} {group object offset : Nat} {data : Bytes} {md : List (BitVec 4)} {s : State}  :
    outKept (execTileWrite h group object offset data md s) = some (kept s) := by
  unfold execTileWrite
  repeat' first
    | with_reducible rfl
    | intro _
    | simp only [↓outKept_next, ↓k_tileWriteIn]
    | refine Eq.trans (k_receive ?_) ?_
    | refine congrArg some ?_
theorem k_answerTile {h : MsgHdr} {group c : Nat} {got : Option (Bytes × List (BitVec 4))} {s : State}  :
    kept (answerTile h group c got s) = kept s := by
  unfold answerTile
  repeat' first
    | with_reducible rfl
    | intro _
    | simp only [↓kept_mk, ↓kept_ite, ite_self, ↓k_sendMsg]
    | split
    | dsimp only
theorem k_tileReadIn {h : MsgHdr} {group length : Nat} {target : Option (Nat × Nat)} {s : State}  :
    kept (tileReadIn h group length target s).1 = kept s := by
  unfold tileReadIn
  repeat' first
    | with_reducible rfl
    | simp only [↓kept_ite, ite_self, ↓k_readRaw, ↓k_demandPage, ↓k_answerTile]
    | split
    | dsimp only
theorem k_execTileRead {h : MsgHdr} {group object offset length : Nat} {s : State}  :
    outKept (execTileRead h group object offset length s) = some (kept s) := by
  unfold execTileRead
  repeat' first
    | with_reducible rfl
    | intro _
    | simp only [↓outKept_next, ↓k_tileReadIn]
    | refine Eq.trans (k_receive ?_) ?_
    | refine congrArg some ?_
theorem k_execTileData {h : MsgHdr} {request : Nat} {available : Bool} {data : Bytes} {md : List (BitVec 4)} {s : State}  :
    outKept (execTileData h request available data md s) = some (kept s) := by
  unfold execTileData
  repeat' first
    | with_reducible rfl
    | intro _
    | simp only [↓outKept_next, ↓kept_ite, ite_self, ↓k_tileLost, ↓k_tileDelivered, ↓k_askSource, ↓k_pump]
    | refine Eq.trans (k_receive ?_) ?_
    | refine congrArg some ?_
    | split
theorem k_execRemoteQuery {h : MsgHdr} {s : State}  :
    outKept (execRemoteQuery h s) = some (kept s) := by
  unfold execRemoteQuery
  repeat' first
    | with_reducible rfl
    | intro _
    | simp only [↓outKept_next, ↓kept_mk, ↓k_sendMsg]
    | refine Eq.trans (k_receive ?_) ?_
    | refine congrArg some ?_
theorem k_execRemoteReply {h : MsgHdr} {records : Bytes} {s : State}  :
    outKept (execRemoteReply h records s) = some (kept s) := by
  unfold execRemoteReply
  repeat' first
    | with_reducible rfl
    | intro _
    | simp only [↓outKept_next, ↓k_hostWrite, ↓k_finish]
    | refine Eq.trans (k_withHost ?_) ?_
    | refine Eq.trans (k_receive ?_) ?_
    | refine congrArg some ?_
    | split
    | dsimp only
theorem k_execPeerDiscover {q : Fin 512} {seq : Nat} {s : State}  :
    outKept (execPeerDiscover q seq s) = some (kept s) := by
  unfold execPeerDiscover
  repeat' first
    | with_reducible rfl
    | intro _
    | simp only [↓outKept_next, ↓kept_mk, ↓kept_ite, ite_self, ↓k_hostWrite, ↓k_sendMsg, ↓k_finish, ↓k_refuse, ↓k_begun]
    | refine Eq.trans (k_runCmd ?_) ?_
    | refine congrArg some ?_
    | split
theorem k_execRouteSet {q : Fin 512} {seq : Nat} {s : State}  :
    outKept (execRouteSet q seq s) = some (kept s) := by
  unfold execRouteSet
  repeat' first
    | with_reducible rfl
    | intro _
    | simp only [↓outKept_next, ↓kept_mk, ↓kept_ite, ite_self, ↓k_peerSet, ↓k_finish, ↓k_refuse, ↓k_autoRoutes]
    | refine Eq.trans (k_runCmd ?_) ?_
    | with_reducible refine Eq.trans (foldl_kept _ ?_ _ _) ?_
    | with_reducible refine Eq.trans (foldl_snd _ ?_ _ _) ?_
    | with_reducible refine Eq.trans (foldl_fst _ ?_ _ _) ?_
    | with_reducible refine Eq.trans (foldl_third _ ?_ _ _) ?_
    | refine congrArg some ?_
    | split
    | dsimp only
theorem k_idAtPort {s : State} {p : Nat}  :
    kept (idAtPort s p) = kept s := by
  unfold idAtPort
  repeat' first
    | with_reducible rfl
    | simp only [↓kept_ite, ite_self, ↓k_zlBump, ↓k_helloAgain, ↓k_portLeave]
    | split
    | dsimp only
theorem k_setZlId {v : Nat} {s : State}  :
    kept (setZlId v s) = kept s := by
  unfold setZlId
  repeat' first
    | with_reducible rfl
    | intro _
    | simp only [↓kept_mk, ↓kept_ite, ite_self, ↓k_abortThru, ↓k_swallowThru]
    | with_reducible refine Eq.trans (foldl_kept _ ?_ _ _) ?_
    | with_reducible refine Eq.trans (foldl_snd _ ?_ _ _) ?_
    | with_reducible refine Eq.trans (foldl_fst _ ?_ _ _) ?_
    | with_reducible refine Eq.trans (foldl_third _ ?_ _ _) ?_
    | split
    | dsimp only
theorem k_execSetParamZlDeviceId {q : Fin 512} {seq : Nat} {s : State} :
    outKept (execSetParamZlDeviceId q seq s) = some (kept s) := by
  unfold execSetParamZlDeviceId
  refine congrArg some (k_setParam ?_)
  intro i v c s
  split
  · exact k_refuse
  · split
    · exact k_refuse
    · exact k_setDone.trans (k_autoRoutes.trans ((foldl_kept _ (fun _ _ => k_idAtPort) _ _).trans k_setZlId))
theorem k_enablePort {v : Nat} {s : State} {p : Nat}  :
    kept (enablePort v s p) = kept s := by
  unfold enablePort
  repeat' first | with_reducible rfl | simp only [↓kept_ite, ite_self, ↓k_zlBump, ↓k_portLeave] | split | dsimp only
theorem k_setPortEnable {v : Nat} {s : State}  :
    kept (setPortEnable v s) = kept s := by
  unfold setPortEnable
  repeat' first | with_reducible rfl | simp only [↓kept_mk]
theorem k_execSetParamZlPortEnable {q : Fin 512} {seq : Nat} {s : State} :
    outKept (execSetParamZlPortEnable q seq s) = some (kept s) := by
  unfold execSetParamZlPortEnable
  refine congrArg some (k_setParam ?_)
  intro i v c s
  split
  · exact k_refuse
  · exact k_setDone.trans (k_sessionsIfNone.trans (k_mirrorCheck.trans (k_autoRoutes.trans ((foldl_kept _ (fun _ _ => k_enablePort) _ _).trans k_setPortEnable))))
theorem k_execSetParamZlMirrorPorts {q : Fin 512} {seq : Nat} {s : State}  :
    outKept (execSetParamZlMirrorPorts q seq s) = some (kept s) := by
  unfold execSetParamZlMirrorPorts
  repeat' first
    | with_reducible rfl
    | intro _
    | simp only [↓outKept_next, ↓kept_mk, ↓kept_ite, ite_self, ↓k_refuse, ↓k_setDone]
    | refine Eq.trans (k_setParam ?_) ?_
    | refine congrArg some ?_
    | split
    | dsimp only

end Sys2Proof.Machine
end

