-- ==== Sys2Proof/Laws/KeptBlocks.lean ====
section
/-! SUPPORT. What Blocks.lean leaves as it was (Kept.lean). -/

set_option linter.all false
set_option maxRecDepth 8000

namespace Sys2Proof.Machine

theorem k_Job_placing {x : Job} {c : Cmd} {s : State} {k : State → State} (hk : ∀  s, kept (k  s) = kept s) :
    kept (Job.placing x c s k) = kept s := by
  unfold Job.placing
  repeat' first
    | with_reducible rfl
    | simp only [↓kept_ite, ite_self, ↓k_demandPage, ↓k_refuseBar, ↓k_revivePage, ↓hk]
    | split
theorem k_Job_flip {x : Job} {j : Nat} {s : State}  :
    kept (Job.flip x j s) = kept s := by
  unfold Job.flip
  repeat' first | with_reducible rfl | simp only [↓k_writeVa] | dsimp only
theorem k_Job_setTrailer {x : Job} {j : Nat} {t : Trailer} {s : State}  :
    kept (Job.setTrailer x j t s) = kept s := by
  unfold Job.setTrailer
  repeat' first | with_reducible rfl | simp only [↓k_writeVa]
theorem k_Job_setRow {x : Job} {j : Nat} {row : Bytes} {s : State}  :
    kept (Job.setRow x j row s) = kept s := by
  unfold Job.setRow
  repeat' first | with_reducible rfl | simp only [↓k_writeVa]
theorem k_Job_dropSteps {x : Job} {p : Trailer → Bool} {version : Nat} {s : State}  :
    kept (Job.dropSteps x p version s) = kept s := by
  unfold Job.dropSteps
  repeat' first
    | with_reducible rfl
    | intro _
    | simp only [↓kept_mk, ↓kept_ite, ite_self, ↓k_Job_setTrailer]
    | with_reducible refine Eq.trans (foldl_kept _ ?_ _ _) ?_
    | with_reducible refine Eq.trans (foldl_snd _ ?_ _ _) ?_
    | with_reducible refine Eq.trans (foldl_fst _ ?_ _ _) ?_
    | with_reducible refine Eq.trans (foldl_third _ ?_ _ _) ?_
    | split
    | dsimp only
theorem k_trainUp {c i n : Nat} {s : State}  :
    kept (trainUp c i n s) = kept s := by
  unfold trainUp
  repeat' first | with_reducible rfl | intro _ | simp only [↓kept_mk, ↓k_ctxMod]
theorem k_engineNote {c slice tag : Nat} {t : Tally} {s : State}  :
    kept (engineNote c slice tag t s) = kept s := by
  unfold engineNote
  repeat' first | with_reducible rfl | simp only [↓kept_mk, ↓kept_ite, ite_self, ↓k_logEvents] | split | dsimp only
theorem k_Job_putLand {x : Job} {j : Nat} {a : LandAcc} {s : State}  :
    kept (Job.putLand x j a s) = kept s := by
  unfold Job.putLand
  repeat' first
    | with_reducible rfl
    | simp only [↓k_Job_setTrailer, ↓k_Job_setRow, ↓k_trainUp, ↓k_engineNote]
    | dsimp only
theorem k_landOne {e : Landing} {s : State}  :
    kept (landOne e s) = kept s := by
  unfold landOne
  repeat' first
    | with_reducible rfl
    | intro _
    | simp only [↓kept_mk, ↓kept_ite, ite_self, ↓k_raise, ↓k_ctxMod, ↓k_trainUp, ↓k_Job_putLand]
    | split
    | dsimp only
theorem k_ackLanding {e : Landing} {s : State}  :
    kept (ackLanding e s) = kept s := by
  unfold ackLanding
  repeat' first | with_reducible rfl | intro _ | simp only [↓kept_mk, ↓kept_ite, ite_self, ↓k_runMod] | split
theorem k_execLanding {slice : Fin 4} {s : State}  :
    outKept (execLanding slice s) = some (kept s) := by
  unfold execLanding
  repeat' first
    | with_reducible rfl
    | simp only [↓outKept_next, ↓kept_mk, ↓kept_ite, ite_self, ↓k_demandPage, ↓k_landOne, ↓k_ackLanding]
    | refine congrArg some ?_
    | split
    | dsimp only
theorem k_Job_lose {x : Job} {j : Nat} {t : Trailer} {s : State}  :
    kept (Job.lose x j t s) = kept s := by
  unfold Job.lose
  repeat' first | with_reducible rfl | simp only [↓kept_mk, ↓k_Job_setTrailer, ↓k_trainUp]
theorem k_Job_updated {x : Job} {j n : Nat} {w alt : Bytes} {s : State}  :
    kept (Job.updated x j n w alt s) = kept s := by
  unfold Job.updated
  repeat' first | with_reducible rfl | simp only [↓kept_mk, ↓k_Job_flip, ↓k_Job_setTrailer] | dsimp only
theorem k_Job_update {x : Job} {u : Upd} {phase : Bool} {n j : Nat} {again : Option Bytes} {s : State}  :
    kept (Job.update x u phase n j again s).1 = kept s := by
  unfold Job.update
  repeat' first
    | with_reducible rfl
    | intro _
    | simp only [↓kept_mk, ↓kept_ite, ite_self, ↓k_writeVa, ↓k_Job_setRow, ↓k_engineNote, ↓k_Job_lose, ↓k_Job_updated]
    | split
    | dsimp only

end Sys2Proof.Machine
end

