-- ==== Sys2Proof/Laws/KeptRuns.lean ====
section
/-! SUPPORT. What Runs.lean leaves as it was (Kept.lean). -/

set_option linter.all false
set_option maxRecDepth 8000

namespace Sys2Proof.Machine

theorem k_runSet {g : Nat} {f : CollRun → CollRun} {s : State}  :
    kept (runSet g f s) = kept s := by
  unfold runSet
  repeat' first | with_reducible rfl | intro _ | simp only [↓kept_mk, ↓k_groupMod]
theorem k_sendRecs {g i : Nat} {r : CollRun} {kind unit : Nat} {shape : CollMsg → CollMsg} {blocks : List (Nat × Bytes × Bytes)} {stored : Bool} {s : State}  :
    kept (sendRecs g i r kind unit shape blocks stored s) = kept s := by
  unfold sendRecs
  repeat' first
    | with_reducible rfl
    | intro _
    | simp only [↓kept_mk, ↓kept_ite, ite_self, ↓k_sendMsg, ↓k_collUp, ↓k_runSet]
    | with_reducible refine Eq.trans (foldl_kept _ ?_ _ _) ?_
    | with_reducible refine Eq.trans (foldl_snd _ ?_ _ _) ?_
    | with_reducible refine Eq.trans (foldl_fst _ ?_ _ _) ?_
    | with_reducible refine Eq.trans (foldl_third _ ?_ _ _) ?_
    | split
    | dsimp only
theorem k_askResend {g i unit : Nat} {bad : List (Nat × Nat)} {s : State}  :
    kept (askResend g i unit bad s) = kept s := by
  unfold askResend
  repeat' first
    | with_reducible rfl
    | intro _
    | simp only [↓kept_mk, ↓kept_ite, ite_self, ↓k_sendColl, ↓k_collUp, ↓k_runSet]
    | with_reducible refine Eq.trans (foldl_kept _ ?_ _ _) ?_
    | with_reducible refine Eq.trans (foldl_snd _ ?_ _ _) ?_
    | with_reducible refine Eq.trans (foldl_fst _ ?_ _ _) ?_
    | with_reducible refine Eq.trans (foldl_third _ ?_ _ _) ?_
    | split
    | dsimp only
theorem k_runCheck {g : Nat} {s : State}  :
    kept (runCheck g s) = kept s := by
  unfold runCheck
  repeat' first
    | with_reducible rfl
    | simp only [↓kept_mk, ↓kept_ite, ite_self, ↓k_finishJ, ↓k_groupSet]
    | split
    | dsimp only
theorem k_endRunPlain {g status : Nat} {s : State}  :
    kept (endRunPlain g status s) = kept s := by
  unfold endRunPlain
  repeat' first | with_reducible rfl | simp only [↓kept_mk, ↓k_finishJ, ↓k_groupSet] | split
theorem k_poisonChunk {c va n : Nat} {s : State}  :
    kept (poisonChunk c va n s) = kept s := by
  unfold poisonChunk
  repeat' first | with_reducible rfl | simp only [↓k_setMd]
theorem k_finishChunk {g u : Nat} {s : State}  :
    kept (finishChunk g u s) = kept s := by
  unfold finishChunk
  repeat' first
    | with_reducible rfl
    | intro _
    | simp only [↓kept_mk, ↓kept_ite, ite_self, ↓k_writeVa, ↓k_engineNote, ↓k_runSet, ↓k_sendRecs, ↓k_poisonChunk]
    | with_reducible refine Eq.trans (foldl_kept _ ?_ _ _) ?_
    | with_reducible refine Eq.trans (foldl_snd _ ?_ _ _) ?_
    | with_reducible refine Eq.trans (foldl_fst _ ?_ _ _) ?_
    | with_reducible refine Eq.trans (foldl_third _ ?_ _ _) ?_
    | split
    | dsimp only
theorem k_countChunk {g u i : Nat} {bad : Bool} {s : State}  :
    kept (countChunk g u i bad s) = kept s := by
  unfold countChunk
  repeat' first
    | with_reducible rfl
    | intro _
    | simp only [↓kept_mk, ↓kept_ite, ite_self, ↓k_runSet, ↓k_finishChunk]
    | split
    | dsimp only
theorem k_startChunk {g u : Nat} {s : State}  :
    kept (startChunk g u s) = kept s := by
  unfold startChunk
  repeat' first
    | with_reducible rfl
    | simp only [↓kept_ite, ite_self, ↓k_writeVa, ↓k_engineNote, ↓k_countChunk]
    | split
    | dsimp only
theorem k_landBlock {x : Group} {r : CollRun} {u idx : Nat} {raw : Bytes} {s : State}  :
    kept (landBlock x r u idx raw s) = kept s := by
  unfold landBlock
  repeat' first
    | with_reducible rfl
    | simp only [↓kept_mk, ↓kept_ite, ite_self, ↓k_writeVa, ↓k_engineNote]
    | split
    | dsimp only
theorem k_sendChunk {g i : Nat} {x : Group} {r : CollRun} {kind u : Nat} {s : State}  :
    kept (sendChunk g i x r kind u s) = kept s := by
  unfold sendChunk
  repeat' first
    | with_reducible rfl
    | intro _
    | simp only [↓kept_mk, ↓kept_ite, ite_self, ↓k_sendRecs]
    | split
    | dsimp only
theorem k_copyOwn {g u : Nat} {s : State}  :
    kept (copyOwn g u s) = kept s := by
  unfold copyOwn
  repeat' first
    | with_reducible rfl
    | intro _
    | simp only [↓kept_mk, ↓kept_ite, ite_self, ↓k_writeVa, ↓k_runSet, ↓k_poisonChunk]
    | split
    | dsimp only
theorem k_sendOwed {g i : Nat} {r : CollRun} {y : Job} {l : List (Nat × Nat)} {s : State}  :
    kept (sendOwed g i r y l s) = kept s := by
  unfold sendOwed
  repeat' first
    | with_reducible rfl
    | intro _
    | simp only [↓kept_mk, ↓kept_ite, ite_self, ↓k_Job_setTrailer, ↓k_sendRecs]
    | with_reducible refine Eq.trans (foldl_kept _ ?_ _ _) ?_
    | with_reducible refine Eq.trans (foldl_snd _ ?_ _ _) ?_
    | with_reducible refine Eq.trans (foldl_fst _ ?_ _ _) ?_
    | with_reducible refine Eq.trans (foldl_third _ ?_ _ _) ?_
    | split
    | dsimp only
theorem k_sendNorm {g i : Nat} {x : Group} {r : CollRun} {s : State}  :
    kept (sendNorm g i x r s) = kept s := by
  unfold sendNorm
  repeat' first | with_reducible rfl | simp only [↓kept_mk, ↓k_sendColl] | dsimp only
theorem k_gradEnd {g : Nat} {s : State}  :
    kept (gradEnd g s) = kept s := by
  unfold gradEnd
  repeat' first
    | with_reducible rfl
    | intro _
    | simp only [↓kept_mk, ↓kept_ite, ite_self, ↓k_ctxMod, ↓k_sendNorm]
    | with_reducible refine Eq.trans (foldl_kept _ ?_ _ _) ?_
    | with_reducible refine Eq.trans (foldl_snd _ ?_ _ _) ?_
    | with_reducible refine Eq.trans (foldl_fst _ ?_ _ _) ?_
    | with_reducible refine Eq.trans (foldl_third _ ?_ _ _) ?_
    | split
    | dsimp only
theorem k_gradCheck {g j : Nat} {s : State}  :
    kept (gradCheck g j s) = kept s := by
  unfold gradCheck
  repeat' first
    | with_reducible rfl
    | intro _
    | simp only [↓kept_mk, ↓kept_ite, ite_self, ↓k_drawFree, ↓k_Job_setTrailer, ↓k_Job_setRow, ↓k_trainUp, ↓k_engineNote]
    | with_reducible refine Eq.trans (foldl_kept _ ?_ _ _) ?_
    | with_reducible refine Eq.trans (foldl_snd _ ?_ _ _) ?_
    | with_reducible refine Eq.trans (foldl_fst _ ?_ _ _) ?_
    | with_reducible refine Eq.trans (foldl_third _ ?_ _ _) ?_
    | split
    | dsimp only
theorem k_tellFinals {g : Nat} {was : List Nat} {skip : Option Nat} {s : State}  :
    kept (tellFinals g was skip s) = kept s := by
  unfold tellFinals
  repeat' first
    | with_reducible rfl
    | intro _
    | simp only [↓k_sendOwed]
    | with_reducible refine Eq.trans (foldl_kept _ ?_ _ _) ?_
    | with_reducible refine Eq.trans (foldl_snd _ ?_ _ _) ?_
    | with_reducible refine Eq.trans (foldl_fst _ ?_ _ _) ?_
    | with_reducible refine Eq.trans (foldl_third _ ?_ _ _) ?_
    | split
    | dsimp only
theorem k_gradOwn {g j : Nat} {cut : Bool} {s : State}  :
    kept (gradOwn g j cut s) = kept s := by
  unfold gradOwn
  repeat' first
    | with_reducible rfl
    | intro _
    | simp only [↓kept_mk, ↓kept_ite, ite_self, ↓k_Job_setTrailer, ↓k_Job_setRow, ↓k_runSet, ↓k_gradCheck]
    | split
    | dsimp only
theorem k_gradFresh {y : Job} {step j : Nat} {s : State}  :
    kept (gradFresh y step j s) = kept s := by
  unfold gradFresh
  repeat' first
    | with_reducible rfl
    | simp only [↓kept_mk, ↓kept_ite, ite_self, ↓k_Job_setTrailer, ↓k_Job_setRow]
    | split
theorem k_gradStart {g : Nat} {s : State}  :
    kept (gradStart g s) = kept s := by
  unfold gradStart
  repeat' first
    | with_reducible rfl
    | intro _
    | simp only [↓kept_ite, ite_self, ↓k_gradEnd, ↓k_gradOwn, ↓k_gradFresh]
    | with_reducible refine Eq.trans (foldl_kept _ ?_ _ _) ?_
    | with_reducible refine Eq.trans (foldl_snd _ ?_ _ _) ?_
    | with_reducible refine Eq.trans (foldl_fst _ ?_ _ _) ?_
    | with_reducible refine Eq.trans (foldl_third _ ?_ _ _) ?_
    | split
    | dsimp only
theorem k_gradReady {g i : Nat} {s : State}  :
    kept (gradReady g i s) = kept s := by
  unfold gradReady
  repeat' first
    | with_reducible rfl
    | intro _
    | simp only [↓kept_ite, ite_self, ↓k_sendOwed, ↓k_sendNorm]
    | split
    | dsimp only
theorem k_gradGive {g gone : Nat} {x : Group} {s : State}  :
    kept (gradGive g gone x s) = kept s := by
  unfold gradGive
  repeat' first
    | with_reducible rfl
    | intro _
    | simp only [↓kept_ite, ite_self, ↓k_sendOwed]
    | with_reducible refine Eq.trans (foldl_kept _ ?_ _ _) ?_
    | with_reducible refine Eq.trans (foldl_snd _ ?_ _ _) ?_
    | with_reducible refine Eq.trans (foldl_fst _ ?_ _ _) ?_
    | with_reducible refine Eq.trans (foldl_third _ ?_ _ _) ?_
    | split
    | dsimp only
theorem k_gradChange {g gone : Nat} {s : State}  :
    kept (gradChange g gone s) = kept s := by
  unfold gradChange
  repeat' first
    | with_reducible rfl
    | intro _
    | simp only [↓kept_mk, ↓kept_ite, ite_self, ↓k_sendOwed, ↓k_gradEnd, ↓k_gradCheck, ↓k_tellFinals, ↓k_gradOwn, ↓k_gradGive]
    | with_reducible refine Eq.trans (foldl_kept _ ?_ _ _) ?_
    | with_reducible refine Eq.trans (foldl_snd _ ?_ _ _) ?_
    | with_reducible refine Eq.trans (foldl_fst _ ?_ _ _) ?_
    | with_reducible refine Eq.trans (foldl_third _ ?_ _ _) ?_
    | split
    | dsimp only
theorem k_dataFor {g i : Nat} {s : State}  :
    kept (dataFor g i s) = kept s := by
  unfold dataFor
  repeat' first
    | with_reducible rfl
    | intro _
    | simp only [↓kept_mk, ↓kept_ite, ite_self, ↓k_sendRecs, ↓k_sendChunk]
    | with_reducible refine Eq.trans (foldl_kept _ ?_ _ _) ?_
    | with_reducible refine Eq.trans (foldl_snd _ ?_ _ _) ?_
    | with_reducible refine Eq.trans (foldl_fst _ ?_ _ _) ?_
    | with_reducible refine Eq.trans (foldl_third _ ?_ _ _) ?_
    | split
    | dsimp only
theorem k_onReady {g i : Nat} {digest : BitVec 64} {s : State}  :
    kept (onReady g i digest s) = kept s := by
  unfold onReady
  repeat' first
    | with_reducible rfl
    | intro _
    | simp only [↓kept_mk, ↓kept_ite, ite_self, ↓k_runSet, ↓k_runCheck, ↓k_endRunPlain, ↓k_gradReady, ↓k_dataFor]
    | split
    | dsimp only
theorem k_runStart {g : Nat} {s : State}  :
    kept (runStart g s) = kept s := by
  unfold runStart
  repeat' first
    | with_reducible rfl
    | intro _
    | simp only [↓kept_mk, ↓kept_ite, ite_self, ↓k_groupMod, ↓k_sendColl, ↓k_runCheck, ↓k_startChunk, ↓k_copyOwn, ↓k_gradStart, ↓k_onReady]
    | with_reducible refine Eq.trans (foldl_kept _ ?_ _ _) ?_
    | with_reducible refine Eq.trans (foldl_snd _ ?_ _ _) ?_
    | with_reducible refine Eq.trans (foldl_fst _ ?_ _ _) ?_
    | with_reducible refine Eq.trans (foldl_third _ ?_ _ _) ?_
    | split
    | dsimp only
theorem k_dropStale {x : Group} {m : CollMsg} {s : State}  :
    kept (dropStale x m s) = kept s := by
  unfold dropStale
  repeat' first | with_reducible rfl | simp only [↓kept_ite, ite_self, ↓k_collUp] | split
theorem k_noteStale {m : CollMsg} {x : Group} {s : State}  :
    kept (noteStale m x s) = kept s := by
  unfold noteStale
  repeat' first | with_reducible rfl | simp only [↓kept_ite, ite_self, ↓k_collUp] | split
theorem k_collIn {row : Instr} {m : CollMsg} {k : Group → CollRun → State → State × Option Bool} {s : State} (hk : ∀ v0 v1 s, kept (k v0 v1 s).1 = kept s) :
    kept (collIn row m k s) = kept s := by
  unfold collIn
  repeat' first
    | with_reducible rfl
    | intro _
    | simp only [↓kept_ite, ite_self, ↓k_dropStale, ↓k_noteStale, ↓hk]
    | refine Eq.trans (k_receive ?_) ?_
    | split
theorem k_whenHere {c : Nat} {must may : List Span} {lost : State → State × Option Bool} {s : State} {k : State → State × Option Bool} (hlost : ∀  s, kept (lost  s).1 = kept s) (hk : ∀  s, kept (k  s).1 = kept s) :
    kept (whenHere c must may lost s k).1 = kept s := by
  unfold whenHere
  repeat' first | with_reducible rfl | intro _ | simp only [↓kept_ite, ite_self, ↓k_demandPage, ↓hlost, ↓hk] | split
theorem k_takeAll {x : Group} {r : CollRun} {m : CollMsg} {ext : Nat} {put : Nat → Bytes → Bytes → State → State} {s : State} (hput : ∀ v0 v1 v2 s, kept (put v0 v1 v2 s) = kept s) :
    kept (takeAll x r m ext put s) = kept s := by
  unfold takeAll
  repeat' first
    | with_reducible rfl
    | intro _
    | simp only [↓k_askResend, ↓hput]
    | with_reducible refine Eq.trans (foldl_kept _ ?_ _ _) ?_
    | with_reducible refine Eq.trans (foldl_snd _ ?_ _ _) ?_
    | with_reducible refine Eq.trans (foldl_fst _ ?_ _ _) ?_
    | with_reducible refine Eq.trans (foldl_third _ ?_ _ _) ?_
    | split
    | dsimp only
theorem k_markApplied {g k idx : Nat} {s : State}  :
    kept (markApplied g k idx s) = kept s := by
  unfold markApplied
  repeat' first | with_reducible rfl | intro _ | simp only [↓kept_mk, ↓kept_ite, ite_self, ↓k_runSet] | split
theorem k_contribChunk {m : CollMsg} {x : Group} {r : CollRun} {s : State}  :
    kept (contribChunk m x r s).1 = kept s := by
  unfold contribChunk
  repeat' first
    | with_reducible rfl
    | intro _
    | simp only [↓kept_ite, ite_self, ↓k_runCheck, ↓k_countChunk, ↓k_landBlock, ↓k_markApplied]
    | refine Eq.trans (k_whenHere ?_ ?_) ?_
    | refine Eq.trans (k_takeAll ?_) ?_
    | split
    | dsimp only
theorem k_putChunk {m : CollMsg} {x : Group} {r : CollRun} {s : State}  :
    kept (putChunk m x r s).1 = kept s := by
  unfold putChunk
  repeat' first
    | with_reducible rfl
    | intro _
    | simp only [↓kept_mk, ↓kept_ite, ite_self, ↓k_writeVa, ↓k_runSet, ↓k_runCheck, ↓k_poisonChunk, ↓k_markApplied]
    | refine Eq.trans (k_whenHere ?_ ?_) ?_
    | refine Eq.trans (k_takeAll ?_) ?_
    | split
    | dsimp only
theorem k_landGrad {y : Job} {j step : Nat} {raw ext : Bytes} {s : State}  :
    kept (landGrad y j step raw ext s) = kept s := by
  unfold landGrad
  repeat' first | with_reducible rfl | simp only [↓kept_mk, ↓k_Job_putLand] | dsimp only
theorem k_gradIn {m : CollMsg} {x : Group} {r : CollRun} {b : Nat} {rec_ : Option (Bytes × Bytes)} {s : State}  :
    kept (gradIn m x r b rec_ s) = kept s := by
  unfold gradIn
  repeat' first
    | with_reducible rfl
    | intro _
    | simp only [↓kept_mk, ↓kept_ite, ite_self, ↓k_zlBump, ↓k_runSet, ↓k_sendOwed, ↓k_gradCheck, ↓k_landGrad]
    | split
    | dsimp only
theorem k_contribGrad {m : CollMsg} {x : Group} {r : CollRun} {s : State}  :
    kept (contribGrad m x r s).1 = kept s := by
  unfold contribGrad
  repeat' first
    | with_reducible rfl
    | intro _
    | simp only [↓kept_ite, ite_self, ↓k_runCheck, ↓k_gradEnd, ↓k_tellFinals, ↓k_gradIn]
    | refine Eq.trans (k_whenHere ?_ ?_) ?_
    | refine Eq.trans (k_takeAll ?_) ?_
    | split
    | dsimp only
theorem k_finalIn {x : Group} {b : Nat} {raw ext : Bytes} {s : State}  :
    kept (finalIn x b raw ext s) = kept s := by
  unfold finalIn
  repeat' first
    | with_reducible rfl
    | simp only [↓kept_ite, ite_self, ↓k_Job_setTrailer, ↓k_Job_setRow]
    | split
    | dsimp only
theorem k_finalGrad {m : CollMsg} {x : Group} {r : CollRun} {s : State}  :
    kept (finalGrad m x r s).1 = kept s := by
  unfold finalGrad
  repeat' first
    | with_reducible rfl
    | intro _
    | simp only [↓k_runCheck, ↓k_gradEnd, ↓k_tellFinals, ↓k_finalIn]
    | refine Eq.trans (k_whenHere ?_ ?_) ?_
    | refine Eq.trans (k_takeAll ?_) ?_
    | dsimp only
theorem k_resendBlocks {m : CollMsg} {x : Group} {r : CollRun} {s : State}  :
    kept (resendBlocks m x r s) = kept s := by
  unfold resendBlocks
  repeat' first
    | with_reducible rfl
    | intro _
    | simp only [↓kept_mk, ↓kept_ite, ite_self, ↓k_sendRecs]
    | with_reducible refine Eq.trans (foldl_kept _ ?_ _ _) ?_
    | with_reducible refine Eq.trans (foldl_snd _ ?_ _ _) ?_
    | with_reducible refine Eq.trans (foldl_fst _ ?_ _ _) ?_
    | with_reducible refine Eq.trans (foldl_third _ ?_ _ _) ?_
    | split
    | dsimp only

end Sys2Proof.Machine
end

