-- ==== Sys2Proof/Laws/KeptGroups.lean ====
section
/-! SUPPORT. What Groups.lean leaves as it was (Kept.lean). -/

set_option linter.all false
set_option maxRecDepth 8000

namespace Sys2Proof.Machine

theorem k_sendMem {x : Group} {g dev kind : Nat} {m : MemMsg} {s : State}  :
    kept (sendMem x g dev kind m s) = kept s := by
  unfold sendMem
  repeat' first | with_reducible rfl | simp only [↓kept_mk, ↓k_sendMsg]
theorem k_barrierTest {g : Nat} {s : State}  :
    kept (barrierTest g s) = kept s := by
  unfold barrierTest
  repeat' first
    | with_reducible rfl
    | intro _
    | simp only [↓kept_mk, ↓kept_ite, ite_self, ↓k_groupSet, ↓k_sendMem]
    | with_reducible refine Eq.trans (foldl_kept _ ?_ _ _) ?_
    | with_reducible refine Eq.trans (foldl_snd _ ?_ _ _) ?_
    | with_reducible refine Eq.trans (foldl_fst _ ?_ _ _) ?_
    | with_reducible refine Eq.trans (foldl_third _ ?_ _ _) ?_
    | split
    | dsimp only
theorem k_barrierArrive {g step : Nat} {s : State}  :
    kept (barrierArrive g step s) = kept s := by
  unfold barrierArrive
  repeat' first
    | with_reducible rfl
    | simp only [↓kept_mk, ↓kept_ite, ite_self, ↓k_groupSet, ↓k_sendMem, ↓k_barrierTest]
    | split
theorem k_phaseRecord {c members resolved outcome : Nat} {w : Commit} {s : State}  :
    kept (phaseRecord c members resolved outcome w s) = kept s := by
  unfold phaseRecord
  repeat' first | with_reducible rfl | intro _ | simp only [↓kept_mk, ↓k_ctxMod] | dsimp only
theorem k_breakAfter {c status resolved : Nat} {s : State}  :
    kept (breakAfter c status resolved s) = kept s := by
  unfold breakAfter
  repeat' first
    | with_reducible rfl
    | intro _
    | simp only [↓kept_mk, ↓kept_ite, ite_self, ↓k_ctxMod, ↓k_finishJ, ↓k_endRunPlain, ↓k_phaseRecord]
    | split
    | dsimp only
theorem k_breakJob {c status : Nat} {s : State}  :
    kept (breakJob c status s) = kept s := by
  unfold breakJob
  repeat' first | with_reducible rfl | simp only [↓k_breakAfter]
theorem k_jobChange {g member was ns : Nat} {s : State}  :
    kept (jobChange g member was ns s) = kept s := by
  unfold jobChange
  repeat' first
    | with_reducible rfl
    | intro _
    | simp only [↓kept_mk, ↓kept_ite, ite_self, ↓k_ctxMod, ↓k_finishJ, ↓k_runCheck, ↓k_endRunPlain, ↓k_gradChange, ↓k_breakJob]
    | split
    | dsimp only
theorem k_loadEnd {g : Nat} {s : State}  :
    kept (loadEnd g s) = kept s := by
  unfold loadEnd
  repeat' first | with_reducible rfl | simp only [↓kept_mk, ↓kept_ite, ite_self, ↓k_finishJ, ↓k_groupSet] | split
theorem k_loadStep {g : Nat} {s : State}  :
    kept (loadStep g s) = kept s := by
  unfold loadStep
  repeat' first
    | with_reducible rfl
    | intro _
    | simp only [↓kept_mk, ↓kept_ite, ite_self, ↓k_groupMod, ↓k_sendColl, ↓k_loadEnd]
    | with_reducible refine Eq.trans (foldl_kept _ ?_ _ _) ?_
    | with_reducible refine Eq.trans (foldl_snd _ ?_ _ _) ?_
    | with_reducible refine Eq.trans (foldl_fst _ ?_ _ _) ?_
    | with_reducible refine Eq.trans (foldl_third _ ?_ _ _) ?_
    | split
    | dsimp only
theorem k_execCodeTableLoad {q : Fin 512} {seq : Nat} {s : State}  :
    outKept (execCodeTableLoad q seq s) = some (kept s) := by
  unfold execCodeTableLoad
  repeat' first
    | with_reducible rfl
    | intro _
    | simp only [↓outKept_next, ↓kept_mk, ↓kept_ite, ite_self, ↓k_refuse, ↓k_begun, ↓k_groupSet, ↓k_loadStep]
    | refine Eq.trans (k_runCmd ?_) ?_
    | refine congrArg some ?_
    | split
    | dsimp only
theorem k_tableIn {row : Instr} {m : CollMsg} {k : Group → State → State} {s : State} (hk : ∀ v0 s, kept (k v0 s) = kept s) :
    kept (tableIn row m k s) = kept s := by
  unfold tableIn
  repeat' first
    | with_reducible rfl
    | intro _
    | simp only [↓kept_ite, ite_self, ↓k_dropStale, ↓hk]
    | refine Eq.trans (k_receive ?_) ?_
    | split
theorem k_execTableRetire {m : CollMsg} {s : State}  :
    outKept (execTableRetire m s) = some (kept s) := by
  unfold execTableRetire
  repeat' first
    | with_reducible rfl
    | intro _
    | simp only [↓outKept_next, ↓kept_mk, ↓k_groupSet, ↓k_sendColl]
    | refine Eq.trans (k_tableIn ?_) ?_
    | refine congrArg some ?_
theorem k_execTableLoad {m : CollMsg} {s : State}  :
    outKept (execTableLoad m s) = some (kept s) := by
  unfold execTableLoad
  repeat' first
    | with_reducible rfl
    | intro _
    | simp only [↓outKept_next, ↓kept_mk, ↓kept_ite, ite_self, ↓k_groupSet, ↓k_sendColl]
    | refine Eq.trans (k_tableIn ?_) ?_
    | refine congrArg some ?_
    | split
    | dsimp only
theorem k_execTableAck {m : CollMsg} {s : State}  :
    outKept (execTableAck m s) = some (kept s) := by
  unfold execTableAck
  repeat' first
    | with_reducible rfl
    | intro _
    | simp only [↓outKept_next, ↓kept_mk, ↓kept_ite, ite_self, ↓k_groupSet, ↓k_sendColl, ↓k_sendTable, ↓k_loadEnd, ↓k_loadStep]
    | refine Eq.trans (k_tableIn ?_) ?_
    | refine congrArg some ?_
    | split
    | dsimp only
theorem k_endAsking {g member ns : Nat} {s : State}  :
    kept (endAsking g member ns s) = kept s := by
  unfold endAsking
  repeat' first
    | with_reducible rfl
    | intro _
    | simp only [↓kept_mk, ↓k_finishJ, ↓k_groupSet]
    | with_reducible refine Eq.trans (foldl_kept _ ?_ _ _) ?_
    | with_reducible refine Eq.trans (foldl_snd _ ?_ _ _) ?_
    | with_reducible refine Eq.trans (foldl_fst _ ?_ _ _) ?_
    | with_reducible refine Eq.trans (foldl_third _ ?_ _ _) ?_
    | split
    | dsimp only
theorem k_endAll {g : Nat} {s : State}  :
    kept (endAll g s) = kept s := by
  unfold endAll
  repeat' first
    | with_reducible rfl
    | intro _
    | simp only [↓kept_mk, ↓kept_ite, ite_self, ↓k_finishJ, ↓k_groupSet]
    | with_reducible refine Eq.trans (foldl_kept _ ?_ _ _) ?_
    | with_reducible refine Eq.trans (foldl_snd _ ?_ _ _) ?_
    | with_reducible refine Eq.trans (foldl_fst _ ?_ _ _) ?_
    | with_reducible refine Eq.trans (foldl_third _ ?_ _ _) ?_
    | split
theorem k_abandonRun {g : Nat} {r : CollRun} {s : State}  :
    kept (abandonRun g r s) = kept s := by
  unfold abandonRun
  repeat' first
    | with_reducible rfl
    | intro _
    | simp only [↓kept_mk, ↓k_groupMod, ↓k_collUp, ↓k_endRunLost]
    | dsimp only
theorem k_applyChange {g view member dev ns : Nat} {s : State}  :
    kept (applyChange g view member dev ns s) = kept s := by
  unfold applyChange
  repeat' first
    | with_reducible rfl
    | intro _
    | simp only [↓kept_mk, ↓kept_ite, ite_self, ↓k_groupMod, ↓k_barrierTest, ↓k_barrierArrive, ↓k_jobChange, ↓k_loadStep, ↓k_endAsking, ↓k_endAll, ↓k_abandonRun]
    | split
    | dsimp only
theorem k_makeChange {g member dev ns : Nat} {s : State}  :
    kept (makeChange g member dev ns s) = kept s := by
  unfold makeChange
  repeat' first
    | with_reducible rfl
    | intro _
    | simp only [↓kept_mk, ↓k_sendMem, ↓k_applyChange]
    | with_reducible refine Eq.trans (foldl_kept _ ?_ _ _) ?_
    | with_reducible refine Eq.trans (foldl_snd _ ?_ _ _) ?_
    | with_reducible refine Eq.trans (foldl_fst _ ?_ _ _) ?_
    | with_reducible refine Eq.trans (foldl_third _ ?_ _ _) ?_
    | split
    | dsimp only
theorem k_leaderDo {g : Nat} {q : Nat × Nat × Nat} {s : State}  :
    kept (leaderDo g q s) = kept s := by
  unfold leaderDo
  repeat' first | with_reducible rfl | simp only [↓kept_ite, ite_self, ↓k_makeChange] | split | dsimp only
theorem k_serveRequests {g : Nat} {s : State}  :
    kept (serveRequests g s) = kept s := by
  unfold serveRequests
  repeat' first
    | with_reducible rfl
    | intro _
    | simp only [↓kept_mk, ↓kept_ite, ite_self, ↓k_groupSet, ↓k_leaderDo]
    | with_reducible refine Eq.trans (foldl_kept _ ?_ _ _) ?_
    | with_reducible refine Eq.trans (foldl_snd _ ?_ _ _) ?_
    | with_reducible refine Eq.trans (foldl_fst _ ?_ _ _) ?_
    | with_reducible refine Eq.trans (foldl_third _ ?_ _ _) ?_
    | split
theorem k_takeoverEnd {g : Nat} {s : State}  :
    kept (takeoverEnd g s) = kept s := by
  unfold takeoverEnd
  repeat' first
    | with_reducible rfl
    | intro _
    | simp only [↓kept_mk, ↓kept_ite, ite_self, ↓k_groupSet, ↓k_sendMem, ↓k_applyChange, ↓k_serveRequests]
    | with_reducible refine Eq.trans (foldl_kept _ ?_ _ _) ?_
    | with_reducible refine Eq.trans (foldl_snd _ ?_ _ _) ?_
    | with_reducible refine Eq.trans (foldl_fst _ ?_ _ _) ?_
    | with_reducible refine Eq.trans (foldl_third _ ?_ _ _) ?_
    | split
    | dsimp only
theorem k_takeover {g gone : Nat} {s : State}  :
    kept (takeover g gone s) = kept s := by
  unfold takeover
  repeat' first
    | with_reducible rfl
    | intro _
    | simp only [↓kept_mk, ↓k_groupSet, ↓k_sendMem, ↓k_takeoverEnd]
    | with_reducible refine Eq.trans (foldl_kept _ ?_ _ _) ?_
    | with_reducible refine Eq.trans (foldl_snd _ ?_ _ _) ?_
    | with_reducible refine Eq.trans (foldl_fst _ ?_ _ _) ?_
    | with_reducible refine Eq.trans (foldl_third _ ?_ _ _) ?_
    | split
    | dsimp only
theorem k_takeRequest {g : Nat} {q : Nat × Nat × Nat} {s : State}  :
    kept (takeRequest g q s) = kept s := by
  unfold takeRequest
  repeat' first
    | with_reducible rfl
    | simp only [↓kept_mk, ↓kept_ite, ite_self, ↓k_groupSet, ↓k_serveRequests, ↓k_takeoverEnd, ↓k_takeover]
    | split
    | dsimp only
theorem k_askChange {g jidx ns member dev : Nat} {s : State}  :
    kept (askChange g jidx ns member dev s) = kept s := by
  unfold askChange
  repeat' first
    | with_reducible rfl
    | simp only [↓kept_mk, ↓kept_ite, ite_self, ↓k_finishJ, ↓k_groupSet, ↓k_sendMem, ↓k_leaderDo, ↓k_takeRequest]
    | split
    | dsimp only
theorem k_execExcludeMember {q : Fin 512} {seq : Nat} {s : State}  :
    outKept (execExcludeMember q seq s) = some (kept s) := by
  unfold execExcludeMember
  repeat' first
    | with_reducible rfl
    | intro _
    | simp only [↓outKept_next, ↓kept_ite, ite_self, ↓k_finish, ↓k_refuse, ↓k_begun, ↓k_askChange]
    | refine Eq.trans (k_runCmd ?_) ?_
    | refine Eq.trans (k_unhitched ?_) ?_
    | refine congrArg some ?_
    | split
    | dsimp only
theorem k_whenChange {x : Group} {s : State} {k : State → State} (hk : ∀  s, kept (k  s) = kept s) :
    kept (whenChange x s k).1 = kept s := by
  unfold whenChange
  repeat' first | with_reducible rfl | intro _ | simp only [↓hk] | refine Eq.trans (k_whenHere ?_ ?_) ?_
theorem k_memIn {row : Instr} {m : MemMsg} {k : Group → State → State × Option Bool} {s : State} (hk : ∀ v0 s, kept (k v0 s).1 = kept s) :
    kept (memIn row m k s) = kept s := by
  unfold memIn
  repeat' first
    | with_reducible rfl
    | intro _
    | simp only [↓kept_ite, ite_self, ↓hk]
    | refine Eq.trans (k_receive ?_) ?_
    | split
theorem k_execExcludeReq {m : MemMsg} {s : State}  :
    outKept (execExcludeReq m s) = some (kept s) := by
  unfold execExcludeReq
  repeat' first
    | with_reducible rfl
    | intro _
    | simp only [↓outKept_next, ↓k_takeRequest]
    | refine Eq.trans (k_whenChange ?_) ?_
    | refine Eq.trans (k_memIn ?_) ?_
    | refine congrArg some ?_
theorem k_execAdmitReq {m : MemMsg} {s : State}  :
    outKept (execAdmitReq m s) = some (kept s) := by
  unfold execAdmitReq
  repeat' first
    | with_reducible rfl
    | intro _
    | simp only [↓outKept_next, ↓k_takeRequest]
    | refine Eq.trans (k_whenChange ?_) ?_
    | refine Eq.trans (k_memIn ?_) ?_
    | refine congrArg some ?_
theorem k_leadNow {g : Nat} {s : State}  :
    kept (leadNow g s) = kept s := by
  unfold leadNow
  repeat' first | with_reducible rfl | simp only [↓kept_ite, ite_self, ↓k_serveRequests] | split
theorem k_execViewChange {m : MemMsg} {s : State}  :
    outKept (execViewChange m s) = some (kept s) := by
  unfold execViewChange
  repeat' first
    | with_reducible rfl
    | intro _
    | simp only [↓outKept_next, ↓kept_ite, ite_self, ↓k_applyChange, ↓k_leadNow]
    | refine Eq.trans (k_receive ?_) ?_
    | refine Eq.trans (k_whenChange ?_) ?_
    | refine congrArg some ?_
    | split
    | dsimp only
theorem k_execViewQuery {m : MemMsg} {s : State}  :
    outKept (execViewQuery m s) = some (kept s) := by
  unfold execViewQuery
  repeat' first
    | with_reducible rfl
    | intro _
    | simp only [↓outKept_next, ↓k_sendMem]
    | refine Eq.trans (k_memIn ?_) ?_
    | refine congrArg some ?_
    | dsimp only
theorem k_execViewReply {m : MemMsg} {s : State}  :
    outKept (execViewReply m s) = some (kept s) := by
  unfold execViewReply
  repeat' first
    | with_reducible rfl
    | intro _
    | simp only [↓outKept_next, ↓kept_mk, ↓kept_ite, ite_self, ↓k_groupSet, ↓k_takeoverEnd, ↓k_takeover]
    | refine Eq.trans (k_whenChange ?_) ?_
    | refine Eq.trans (k_memIn ?_) ?_
    | refine congrArg some ?_
    | split
    | dsimp only
theorem k_execArrive {m : MemMsg} {s : State}  :
    outKept (execArrive m s) = some (kept s) := by
  unfold execArrive
  repeat' first
    | with_reducible rfl
    | intro _
    | simp only [↓outKept_next, ↓kept_mk, ↓kept_ite, ite_self, ↓k_groupSet, ↓k_barrierTest]
    | refine Eq.trans (k_memIn ?_) ?_
    | refine congrArg some ?_
    | split
theorem k_execCollGroupCreate {q : Fin 512} {seq : Nat} {s : State}  :
    outKept (execCollGroupCreate q seq s) = some (kept s) := by
  unfold execCollGroupCreate
  repeat' first
    | with_reducible rfl
    | intro _
    | simp only [↓outKept_next, ↓kept_mk, ↓kept_ite, ite_self, ↓k_finish, ↓k_refuse, ↓k_groupSet]
    | refine Eq.trans (k_runSub ?_) ?_
    | refine congrArg some ?_
    | split
    | dsimp only
theorem k_onGroup {c : Cmd} {s : State} {k : Group → State → State} (hk : ∀ v0 s, kept (k v0 s) = kept s) :
    kept (onGroup c s k) = kept s := by
  unfold onGroup
  repeat' first | with_reducible rfl | simp only [↓kept_ite, ite_self, ↓k_refuse, ↓hk] | split
theorem k_execCollGroupAdmit {q : Fin 512} {seq : Nat} {s : State}  :
    outKept (execCollGroupAdmit q seq s) = some (kept s) := by
  unfold execCollGroupAdmit
  repeat' first
    | with_reducible rfl
    | intro _
    | simp only [↓outKept_next, ↓kept_ite, ite_self, ↓k_refuse, ↓k_begun, ↓k_askChange]
    | refine Eq.trans (k_runSub ?_) ?_
    | refine Eq.trans (k_unhitched ?_) ?_
    | refine Eq.trans (k_onGroup ?_) ?_
    | refine congrArg some ?_
    | split
    | dsimp only
theorem k_execCollGroupBind {q : Fin 512} {seq : Nat} {s : State}  :
    outKept (execCollGroupBind q seq s) = some (kept s) := by
  unfold execCollGroupBind
  repeat' first
    | with_reducible rfl
    | intro _
    | simp only [↓outKept_next, ↓kept_mk, ↓kept_ite, ite_self, ↓k_finish, ↓k_refuse, ↓k_groupSet]
    | refine Eq.trans (k_runSub ?_) ?_
    | refine Eq.trans (k_onGroup ?_) ?_
    | refine congrArg some ?_
    | split
theorem k_execCollGroupUnbind {q : Fin 512} {seq : Nat} {s : State}  :
    outKept (execCollGroupUnbind q seq s) = some (kept s) := by
  unfold execCollGroupUnbind
  repeat' first
    | with_reducible rfl
    | intro _
    | simp only [↓outKept_next, ↓kept_mk, ↓kept_ite, ite_self, ↓k_finish, ↓k_refuse, ↓k_groupSet]
    | refine Eq.trans (k_runSub ?_) ?_
    | refine Eq.trans (k_onGroup ?_) ?_
    | refine congrArg some ?_
    | split
theorem k_endGroup {g : Nat} {x : Group} {s : State}  :
    kept (endGroup g x s) = kept s := by
  unfold endGroup
  repeat' first
    | with_reducible rfl
    | intro _
    | simp only [↓kept_mk, ↓kept_ite, ite_self, ↓k_ctxMod, ↓k_finishJ, ↓k_endRunLost]
    | with_reducible refine Eq.trans (foldl_kept _ ?_ _ _) ?_
    | with_reducible refine Eq.trans (foldl_snd _ ?_ _ _) ?_
    | with_reducible refine Eq.trans (foldl_fst _ ?_ _ _) ?_
    | with_reducible refine Eq.trans (foldl_third _ ?_ _ _) ?_
    | split
    | dsimp only
theorem k_execCollGroupDestroy {q : Fin 512} {seq : Nat} {s : State}  :
    outKept (execCollGroupDestroy q seq s) = some (kept s) := by
  unfold execCollGroupDestroy
  repeat' first
    | with_reducible rfl
    | intro _
    | simp only [↓outKept_next, ↓kept_ite, ite_self, ↓k_finish, ↓k_endGroup]
    | refine Eq.trans (k_runSub ?_) ?_
    | refine Eq.trans (k_onGroup ?_) ?_
    | refine congrArg some ?_
    | split
theorem k_execBaseSet {q : Fin 512} {seq : Nat} {s : State}  :
    outKept (execBaseSet q seq s) = some (kept s) := by
  unfold execBaseSet
  repeat' first
    | with_reducible rfl
    | intro _
    | simp only [↓outKept_next, ↓kept_mk, ↓kept_ite, ite_self, ↓k_finish, ↓k_refuse, ↓k_groupSet]
    | refine Eq.trans (k_runCmd ?_) ?_
    | refine congrArg some ?_
    | split
    | dsimp only
theorem k_beginRun {c : Cmd} {g : Nat} {x : Group} {s : State}  :
    kept (beginRun c g x s) = kept s := by
  unfold beginRun
  repeat' first | with_reducible rfl | simp only [↓kept_mk, ↓k_begun, ↓k_groupSet, ↓k_runStart] | dsimp only
theorem k_execCollRun {q : Fin 512} {seq : Nat} {s : State}  :
    outKept (execCollRun q seq s) = some (kept s) := by
  unfold execCollRun
  repeat' first
    | with_reducible rfl
    | intro _
    | simp only [↓outKept_next, ↓kept_mk, ↓kept_ite, ite_self, ↓k_refuse, ↓k_begun, ↓k_groupSet, ↓k_runStart, ↓k_beginRun]
    | refine Eq.trans (k_runSub ?_) ?_
    | refine Eq.trans (k_unhitched ?_) ?_
    | refine congrArg some ?_
    | split
    | dsimp only
theorem k_execCollRunGrad {q : Fin 512} {seq : Nat} {s : State}  :
    outKept (execCollRunGrad q seq s) = some (kept s) := by
  unfold execCollRunGrad
  repeat' first
    | with_reducible rfl
    | intro _
    | simp only [↓outKept_next, ↓kept_mk, ↓kept_ite, ite_self, ↓k_refuse, ↓k_begun, ↓k_groupSet, ↓k_gradReady, ↓k_runStart, ↓k_beginRun]
    | refine Eq.trans (k_runSub ?_) ?_
    | refine Eq.trans (k_unhitched ?_) ?_
    | with_reducible refine Eq.trans (foldl_kept _ ?_ _ _) ?_
    | with_reducible refine Eq.trans (foldl_snd _ ?_ _ _) ?_
    | with_reducible refine Eq.trans (foldl_fst _ ?_ _ _) ?_
    | with_reducible refine Eq.trans (foldl_third _ ?_ _ _) ?_
    | refine congrArg some ?_
    | split
    | dsimp only
theorem k_readyDone {g : Nat} {x : Group} {d : CollRun} {m : CollMsg} {s : State}  :
    kept (readyDone g x d m s) = kept s := by
  unfold readyDone
  repeat' first
    | with_reducible rfl
    | intro _
    | simp only [↓kept_mk, ↓kept_ite, ite_self, ↓k_groupSet, ↓k_groupMod, ↓k_gradReady, ↓k_dataFor]
    | split
    | dsimp only
theorem k_execCollReady {m : CollMsg} {s : State}  :
    outKept (execCollReady m s) = some (kept s) := by
  unfold execCollReady
  repeat' first
    | with_reducible rfl
    | intro _
    | simp only [↓outKept_next, ↓kept_mk, ↓kept_ite, ite_self, ↓k_groupSet, ↓k_onReady, ↓k_dropStale, ↓k_noteStale, ↓k_readyDone]
    | refine Eq.trans (k_receive ?_) ?_
    | refine Eq.trans (k_whenHere ?_ ?_) ?_
    | refine congrArg some ?_
    | split
    | dsimp only
theorem k_execContrib {m : CollMsg} {s : State}  :
    outKept (execContrib m s) = some (kept s) := by
  unfold execContrib
  repeat' first
    | with_reducible rfl
    | intro _
    | simp only [↓outKept_next, ↓kept_ite, ite_self, ↓k_contribChunk, ↓k_contribGrad]
    | refine Eq.trans (k_collIn ?_) ?_
    | refine congrArg some ?_
    | split
theorem k_execCollFinal {m : CollMsg} {s : State}  :
    outKept (execCollFinal m s) = some (kept s) := by
  unfold execCollFinal
  repeat' first
    | with_reducible rfl
    | intro _
    | simp only [↓outKept_next, ↓kept_ite, ite_self, ↓k_putChunk, ↓k_finalGrad]
    | refine Eq.trans (k_collIn ?_) ?_
    | refine congrArg some ?_
    | split
theorem k_execCollData {m : CollMsg} {s : State}  :
    outKept (execCollData m s) = some (kept s) := by
  unfold execCollData
  repeat' first
    | with_reducible rfl
    | intro _
    | simp only [↓outKept_next, ↓kept_ite, ite_self, ↓k_putChunk]
    | refine Eq.trans (k_collIn ?_) ?_
    | refine congrArg some ?_
    | split
theorem k_execResendReq {m : CollMsg} {s : State}  :
    outKept (execResendReq m s) = some (kept s) := by
  unfold execResendReq
  repeat' first
    | with_reducible rfl
    | intro _
    | simp only [↓outKept_next, ↓kept_mk, ↓kept_ite, ite_self, ↓k_runSet, ↓k_dropStale, ↓k_noteStale, ↓k_resendBlocks]
    | refine Eq.trans (k_receive ?_) ?_
    | refine Eq.trans (k_whenHere ?_ ?_) ?_
    | refine congrArg some ?_
    | split
    | dsimp only
theorem k_execNormSum {m : CollMsg} {s : State}  :
    outKept (execNormSum m s) = some (kept s) := by
  unfold execNormSum
  repeat' first
    | with_reducible rfl
    | intro _
    | simp only [↓outKept_next, ↓kept_mk, ↓kept_ite, ite_self, ↓k_ctxMod, ↓k_dropStale]
    | refine Eq.trans (k_receive ?_) ?_
    | refine congrArg some ?_
    | split
    | dsimp only
theorem k_msgAcked {d : Nat} {m : OutMsg} {refused : Bool} {s : State}  :
    kept (msgAcked d m refused s) = kept s := by
  unfold msgAcked
  repeat' first
    | with_reducible rfl
    | intro _
    | simp only [↓kept_mk, ↓kept_ite, ite_self, ↓k_sendMsg, ↓k_holdWhere, ↓k_tileLost, ↓k_askSource, ↓k_pump, ↓k_countResent, ↓k_endRunLost, ↓k_copyDelivered, ↓k_runCheck, ↓k_loadStep]
    | split
    | dsimp only
theorem k_execAck {h : MsgHdr} {stream : Fin 4} {mseq : Nat} {refused : Bool} {s : State}  :
    outKept (execAck h stream mseq refused s) = some (kept s) := by
  unfold execAck
  repeat' first
    | with_reducible rfl
    | intro _
    | simp only [↓outKept_next, ↓kept_mk, ↓kept_ite, ite_self, ↓k_launchMsgs, ↓k_msgAcked]
    | with_reducible refine Eq.trans (foldl_kept _ ?_ _ _) ?_
    | with_reducible refine Eq.trans (foldl_snd _ ?_ _ _) ?_
    | with_reducible refine Eq.trans (foldl_fst _ ?_ _ _) ?_
    | with_reducible refine Eq.trans (foldl_third _ ?_ _ _) ?_
    | refine congrArg some ?_
    | split
    | dsimp only

end Sys2Proof.Machine
end

