-- ==== Sys2Proof/Laws/KeptTraining.lean ====
section
/-! SUPPORT. What Training.lean leaves as it was (Kept.lean). -/

set_option linter.all false
set_option maxRecDepth 8000

namespace Sys2Proof.Machine

theorem k_trainMod {c : Nat} {f : Train → Train} {s : State}  :
    kept (trainMod c f s) = kept s := by
  unfold trainMod
  repeat' first | with_reducible rfl | intro _ | simp only [↓kept_mk, ↓k_ctxMod]
theorem k_inState {c : Cmd} {ok : List TrainSt} {s : State} {k : State → State} (hk : ∀  s, kept (k  s) = kept s) :
    kept (inState c ok s k) = kept s := by
  unfold inState
  repeat' first | with_reducible rfl | simp only [↓kept_ite, ite_self, ↓k_refuse, ↓hk] | split | dsimp only
theorem k_inJob {c : Cmd} {ok : List TrainSt} {s : State} {k : State → State} (hk : ∀  s, kept (k  s) = kept s) :
    kept (inJob c ok s k) = kept s := by
  unfold inJob
  repeat' first
    | with_reducible rfl
    | intro _
    | simp only [↓kept_ite, ite_self, ↓k_refuse, ↓hk]
    | refine Eq.trans (k_inState ?_) ?_
    | split
theorem k_openStep {c : Nat} {s : State}  :
    kept (openStep c s) = kept s := by
  unfold openStep
  repeat' first | with_reducible rfl | intro _ | simp only [↓kept_mk, ↓k_schedStep, ↓k_trainMod]
theorem k_execStepBegin {q : Fin 512} {seq : Nat} {s : State}  :
    outKept (execStepBegin q seq s) = some (kept s) := by
  unfold execStepBegin
  repeat' first
    | with_reducible rfl
    | intro _
    | simp only [↓outKept_next, ↓kept_mk, ↓kept_ite, ite_self, ↓k_finish, ↓k_refuse, ↓k_trainMod, ↓k_openStep]
    | refine Eq.trans (k_runCmd ?_) ?_
    | refine Eq.trans (k_inJob ?_) ?_
    | refine congrArg some ?_
    | split
    | dsimp only
theorem k_Job_updateAll {x : Job} {u : Upd} {phase : Bool} {n : Nat} {refetch : List (Nat × Bytes)} {s : State}  :
    kept (Job.updateAll x u phase n refetch s).1 = kept s := by
  unfold Job.updateAll
  repeat' first
    | with_reducible rfl
    | intro _
    | simp only [↓kept_ite, ite_self, ↓k_Job_update]
    | with_reducible refine Eq.trans (foldl_kept _ ?_ _ _) ?_
    | with_reducible refine Eq.trans (foldl_snd _ ?_ _ _) ?_
    | with_reducible refine Eq.trans (foldl_fst _ ?_ _ _) ?_
    | with_reducible refine Eq.trans (foldl_third _ ?_ _ _) ?_
    | split
    | dsimp only
theorem k_execUpdateRun {q : Fin 512} {seq : Nat} {refetch : List (Nat × Bytes)} {s : State}  :
    outKept (execUpdateRun q seq refetch s) = some (kept s) := by
  unfold execUpdateRun
  repeat' first
    | with_reducible rfl
    | intro _
    | simp only [↓outKept_next, ↓kept_mk, ↓kept_ite, ite_self, ↓k_finish, ↓k_refuse, ↓k_drawFree, ↓k_trainMod, ↓k_Job_updateAll]
    | refine Eq.trans (k_runCmd ?_) ?_
    | refine Eq.trans (k_unhitched ?_) ?_
    | refine Eq.trans (k_inJob ?_) ?_
    | refine congrArg some ?_
    | split
    | dsimp only
theorem k_execStepCommit {q : Fin 512} {seq : Nat} {s : State}  :
    outKept (execStepCommit q seq s) = some (kept s) := by
  unfold execStepCommit
  repeat' first
    | with_reducible rfl
    | intro _
    | simp only [↓outKept_next, ↓kept_mk, ↓kept_ite, ite_self, ↓k_finish, ↓k_refuse, ↓k_begun, ↓k_Job_updated, ↓k_barrierArrive, ↓k_trainMod]
    | refine Eq.trans (k_runCmd ?_) ?_
    | refine Eq.trans (k_inJob ?_) ?_
    | refine congrArg some ?_
    | split
    | dsimp only
theorem k_execBarrierStall {ctx : Fin 256} {s : State}  :
    outKept (execBarrierStall ctx s) = some (kept s) := by
  unfold execBarrierStall
  repeat' first
    | with_reducible rfl
    | intro _
    | simp only [↓outKept_next, ↓kept_mk, ↓kept_ite, ite_self, ↓k_raise, ↓k_trainMod]
    | refine congrArg some ?_
    | split
theorem k_rewriteBlock {x : Job} {phase : Bool} {n j : Nat} {w slot : Bytes} {s : State}  :
    kept (rewriteBlock x phase n j w slot s) = kept s := by
  unfold rewriteBlock
  repeat' first
    | with_reducible rfl
    | simp only [↓kept_mk, ↓kept_ite, ite_self, ↓k_writeVa, ↓k_Job_flip, ↓k_Job_setTrailer, ↓k_trainUp]
    | split
    | dsimp only
theorem k_writeShadows {g : Nat} {x : Job} {version : Nat} {s : State}  :
    kept (writeShadows g x version s) = kept s := by
  unfold writeShadows
  repeat' first
    | with_reducible rfl
    | intro _
    | simp only [↓kept_mk, ↓kept_ite, ite_self, ↓k_writeVa, ↓k_groupMod]
    | with_reducible refine Eq.trans (foldl_kept _ ?_ _ _) ?_
    | with_reducible refine Eq.trans (foldl_snd _ ?_ _ _) ?_
    | with_reducible refine Eq.trans (foldl_fst _ ?_ _ _) ?_
    | with_reducible refine Eq.trans (foldl_third _ ?_ _ _) ?_
    | split
    | dsimp only
theorem k_commitStep {g c resolved : Nat} {w : Commit} {s : State}  :
    kept (commitStep g c resolved w s) = kept s := by
  unfold commitStep
  repeat' first
    | with_reducible rfl
    | intro _
    | simp only [↓kept_mk, ↓kept_ite, ite_self, ↓k_finishJ, ↓k_phaseRecord, ↓k_trainMod, ↓k_writeShadows]
    | split
    | dsimp only
theorem k_resolveAll {c : Nat} {x : Job} {t : Train} {own : Nat} {others : List PeerDigests} {s : State}  :
    kept (resolveAll c x t own others s).1 = kept s := by
  unfold resolveAll
  repeat' first
    | with_reducible rfl
    | intro _
    | simp only [↓kept_mk, ↓kept_ite, ite_self, ↓k_drawFree, ↓k_logEvents, ↓k_trainUp, ↓k_rewriteBlock]
    | with_reducible refine Eq.trans (foldl_kept _ ?_ _ _) ?_
    | with_reducible refine Eq.trans (foldl_snd _ ?_ _ _) ?_
    | with_reducible refine Eq.trans (foldl_fst _ ?_ _ _) ?_
    | with_reducible refine Eq.trans (foldl_third _ ?_ _ _) ?_
    | split
    | dsimp only
theorem k_releaseStep {g : Nat} {mismatch : Bool} {peers : List PeerDigests} {shards : List ShardSt} {s : State}  :
    kept (releaseStep g mismatch peers shards s) = kept s := by
  unfold releaseStep
  repeat' first
    | with_reducible rfl
    | intro _
    | simp only [↓kept_mk, ↓kept_ite, ite_self, ↓k_raiseBar, ↓k_demandPage, ↓k_breakAfter, ↓k_breakJob, ↓k_trainMod, ↓k_commitStep, ↓k_resolveAll]
    | split
    | dsimp only
theorem k_execBarrierRelease {m : MemMsg} {peers : List PeerDigests} {shards : List ShardSt} {s : State}  :
    outKept (execBarrierRelease m peers shards s) = some (kept s) := by
  unfold execBarrierRelease
  repeat' first
    | with_reducible rfl
    | intro _
    | simp only [↓outKept_next, ↓kept_mk, ↓kept_ite, ite_self, ↓k_groupMod, ↓k_releaseStep]
    | refine Eq.trans (k_memIn ?_) ?_
    | refine congrArg some ?_
    | split
    | dsimp only
theorem k_execDigestCompare {q : Fin 512} {seq : Nat} {peers : List PeerDigests} {s : State}  :
    outKept (execDigestCompare q seq peers s) = some (kept s) := by
  unfold execDigestCompare
  repeat' first
    | with_reducible rfl
    | intro _
    | simp only [↓outKept_next, ↓kept_ite, ite_self, ↓k_hostWrite, ↓k_finish, ↓k_refuse]
    | refine Eq.trans (k_runCmd ?_) ?_
    | refine Eq.trans (k_unhitched ?_) ?_
    | refine Eq.trans (k_inJob ?_) ?_
    | refine congrArg some ?_
    | split
    | dsimp only
theorem k_keepSnap {slot n : Nat} {snap : Snap} {s : State}  :
    kept (keepSnap slot n snap s) = kept s := by
  unfold keepSnap
  repeat' first | with_reducible rfl | intro _ | simp only [↓kept_mk, ↓k_writeRegion, ↓k_freeRegion] | dsimp only
theorem k_sendSnap {c : Cmd} {d : ShardData} {s : State}  :
    kept (sendSnap c d s) = kept s := by
  unfold sendSnap
  repeat' first
    | with_reducible rfl
    | intro _
    | simp only [↓kept_mk, ↓kept_ite, ite_self, ↓k_sendMsg]
    | with_reducible refine Eq.trans (foldl_kept _ ?_ _ _) ?_
    | with_reducible refine Eq.trans (foldl_snd _ ?_ _ _) ?_
    | with_reducible refine Eq.trans (foldl_fst _ ?_ _ _) ?_
    | with_reducible refine Eq.trans (foldl_third _ ?_ _ _) ?_
    | split
    | dsimp only
theorem k_takeSnapshot {c : Cmd} {x : Job} {s : State}  :
    kept (takeSnapshot c x s) = kept s := by
  unfold takeSnapshot
  repeat' first
    | with_reducible rfl
    | intro _
    | simp only [↓kept_mk, ↓kept_ite, ite_self, ↓k_finish, ↓k_refuse, ↓k_keepSnap, ↓k_sendSnap]
    | split
    | dsimp only
theorem k_execSnapshot {q : Fin 512} {seq : Nat} {s : State} : outKept (execSnapshot q seq s) = some (kept s) := by
  unfold execSnapshot
  refine congrArg some (k_runCmd ?_)
  intro c s
  refine k_inJob ?_
  intro s
  extract_lets x
  split
  · exact k_refuse
  · split
    · exact k_refuse
    · split
      · rfl
      · exact k_unhitched (fun _ => k_takeSnapshot)
theorem k_execSnapCopy {h : MsgHdr} {copy : SnapCopy} {s : State}  :
    outKept (execSnapCopy h copy s) = some (kept s) := by
  unfold execSnapCopy
  repeat' first
    | with_reducible rfl
    | intro _
    | simp only [↓outKept_next, ↓kept_mk, ↓kept_ite, ite_self, ↓k_writeRegion, ↓k_freeRegion, ↓k_trainUp]
    | refine Eq.trans (k_receivePair ?_) ?_
    | refine congrArg some ?_
    | split
    | dsimp only
theorem k_Job_loadBlock {x : Job} {d : ShardData} {phase : Bool} {j : Nat} {s : State}  :
    kept (Job.loadBlock x d phase j s) = kept s := by
  unfold Job.loadBlock
  repeat' first | with_reducible rfl | simp only [↓k_writeVa, ↓k_setMd] | dsimp only
theorem k_Job_loaded {x : Job} {version : Nat} {phase : Bool} {s : State}  :
    kept (Job.loaded x version phase s) = kept s := by
  unfold Job.loaded
  repeat' first
    | with_reducible rfl
    | intro _
    | simp only [↓kept_mk, ↓kept_ite, ite_self, ↓k_writeVa, ↓k_groupMod, ↓k_Job_dropSteps]
    | split
    | dsimp only
theorem k_Job_load {x : Job} {d : ShardData} {phase : Bool} {s : State}  :
    kept (Job.load x d phase s) = kept s := by
  unfold Job.load
  repeat' first
    | with_reducible rfl
    | intro _
    | simp only [↓k_Job_loadBlock, ↓k_Job_loaded]
    | with_reducible refine Eq.trans (foldl_kept _ ?_ _ _) ?_
    | with_reducible refine Eq.trans (foldl_snd _ ?_ _ _) ?_
    | with_reducible refine Eq.trans (foldl_fst _ ?_ _ _) ?_
    | with_reducible refine Eq.trans (foldl_third _ ?_ _ _) ?_
theorem k_noteRestore {c : Nat} {s : State}  :
    kept (noteRestore c s) = kept s := by
  unfold noteRestore
  repeat' first | with_reducible rfl | intro _ | simp only [↓kept_mk, ↓k_trainMod]
theorem k_restoreShard {c : Cmd} {job : Bytes} {d : ShardData} {s : State}  :
    kept (restoreShard c job d s) = kept s := by
  unfold restoreShard
  repeat' first
    | with_reducible rfl
    | intro _
    | simp only [↓kept_mk, ↓k_finish, ↓k_trainMod, ↓k_Job_load]
    | dsimp only
theorem k_execRestoreShard {q : Fin 512} {seq : Nat} {peer : Option ShardData} {s : State}  :
    outKept (execRestoreShard q seq peer s) = some (kept s) := by
  unfold execRestoreShard
  repeat' first
    | with_reducible rfl
    | intro _
    | simp only [↓outKept_next, ↓kept_ite, ite_self, ↓k_readRegion, ↓k_refuse, ↓k_noteRestore, ↓k_restoreShard]
    | refine Eq.trans (k_runCmd ?_) ?_
    | refine Eq.trans (k_Job_placing ?_) ?_
    | refine Eq.trans (k_inState ?_) ?_
    | refine congrArg some ?_
    | split
    | dsimp only
theorem k_fillSnap {c : Cmd} {snap : Option SnapCopy} {s : State}  :
    kept (fillSnap c snap s) = kept s := by
  unfold fillSnap
  repeat' first | with_reducible rfl | simp only [↓kept_mk, ↓kept_ite, ite_self, ↓k_keepSnap] | split
theorem k_fillEnds {c : Cmd} {s : State}  :
    kept (fillEnds c s) = kept s := by
  unfold fillEnds
  repeat' first | with_reducible rfl | intro _ | simp only [↓kept_mk, ↓k_trainMod]
theorem k_fillDone {c : Cmd} {y : Group} {x : Job} {d : ShardData} {snap : Option SnapCopy} {s : State}  :
    kept (fillDone c y x d snap s) = kept s := by
  unfold fillDone
  repeat' first
    | with_reducible rfl
    | intro _
    | simp only [↓kept_mk, ↓k_finish, ↓k_askChange, ↓k_trainMod, ↓k_Job_loaded, ↓k_fillSnap, ↓k_fillEnds]
    | dsimp only
theorem k_fillLoad {c : Cmd} {y : Group} {d : ShardData} {job : Bytes} {snap : Option SnapCopy} {s : State}  :
    kept (fillLoad c y d job snap s) = kept s := by
  unfold fillLoad
  repeat' first
    | with_reducible rfl
    | intro _
    | simp only [↓kept_mk, ↓kept_ite, ite_self, ↓k_refuse, ↓k_trainMod, ↓k_Job_loadBlock, ↓k_fillEnds, ↓k_fillDone]
    | with_reducible refine Eq.trans (foldl_kept _ ?_ _ _) ?_
    | with_reducible refine Eq.trans (foldl_snd _ ?_ _ _) ?_
    | with_reducible refine Eq.trans (foldl_fst _ ?_ _ _) ?_
    | with_reducible refine Eq.trans (foldl_third _ ?_ _ _) ?_
    | split
    | dsimp only
theorem k_fillLost {c : Cmd} {y : Group} {s : State}  :
    kept (fillLost c y s) = kept s := by
  unfold fillLost
  repeat' first
    | with_reducible rfl
    | intro _
    | simp only [↓kept_mk, ↓kept_ite, ite_self, ↓k_finish, ↓k_begun, ↓k_trainMod]
    | split
    | dsimp only
theorem k_fillBody {c : Cmd} {y : Group} {peer : Option ShardData} {snap : Option SnapCopy} {s : State}  :
    kept (fillBody c y peer snap s) = kept s := by
  unfold fillBody
  repeat' first
    | with_reducible rfl
    | intro _
    | simp only [↓kept_ite, ite_self, ↓k_refuse, ↓k_fillLoad, ↓k_fillLost]
    | refine Eq.trans (k_Job_placing ?_) ?_
    | split
    | dsimp only
theorem k_execFillFromPeer {q : Fin 512} {seq : Nat} {peer : Option ShardData} {snap : Option SnapCopy} {s : State}  :
    outKept (execFillFromPeer q seq peer snap s) = some (kept s) := by
  unfold execFillFromPeer
  repeat' first
    | with_reducible rfl
    | intro _
    | simp only [↓outKept_next, ↓kept_ite, ite_self, ↓k_refuse, ↓k_fillBody]
    | refine Eq.trans (k_runCmd ?_) ?_
    | refine Eq.trans (k_inState ?_) ?_
    | refine congrArg some ?_
    | split
    | dsimp only
theorem k_exportBody {c : Cmd} {x : Job} {e : Export} {s : State}  :
    kept (exportBody c x e s) = kept s := by
  unfold exportBody
  repeat' first
    | with_reducible rfl
    | simp only [↓kept_ite, ite_self, ↓k_hostWrite, ↓k_finish, ↓k_refuse, ↓k_writeVa]
    | split
    | dsimp only
theorem k_execExportShard {q : Fin 512} {seq : Nat} {s : State} : outKept (execExportShard q seq s) = some (kept s) := by
  unfold execExportShard
  refine congrArg some (k_runCmd ?_)
  intro c s
  refine k_inJob ?_
  intro s
  extract_lets x e
  split
  · exact k_refuse
  · exact k_unhitched (fun _ => k_exportBody)

end Sys2Proof.Machine
end

