-- ==== Sys2Proof/Laws/KeptResets.lean ====
section
/-! SUPPORT. What Resets.lean leaves as it was (Kept.lean). -/

set_option linter.all false
set_option maxRecDepth 8000

namespace Sys2Proof.Machine

theorem k_leaveMoves {p : Nat → Bool} {s : State}  :
    kept (leaveMoves p s) = kept s := by
  unfold leaveMoves
  repeat' first | with_reducible rfl | intro _ | simp only [↓kept_mk] | split | dsimp only
theorem k_cancelMoves {p : Nat → Bool} {s : State}  :
    kept (cancelMoves p s) = kept s := by
  unfold cancelMoves
  repeat' first
    | with_reducible rfl
    | intro _
    | simp only [↓kept_mk, ↓k_unqueue, ↓k_pageMod, ↓k_dropFlash, ↓k_dropObject, ↓k_leaveMoves]
    | with_reducible refine Eq.trans (foldl_kept _ ?_ _ _) ?_
    | with_reducible refine Eq.trans (foldl_snd _ ?_ _ _) ?_
    | with_reducible refine Eq.trans (foldl_fst _ ?_ _ _) ?_
    | with_reducible refine Eq.trans (foldl_third _ ?_ _ _) ?_
    | dsimp only
theorem k_dropPrograms {p : Launch → Bool} {clear : Bool} {s : State}  :
    kept (dropPrograms p clear s) = kept s := by
  unfold dropPrograms
  repeat' first
    | with_reducible rfl
    | intro _
    | simp only [↓kept_mk, ↓kept_ite, ite_self, ↓k_rodSet, ↓k_unwaitRod, ↓k_wipeRod, ↓k_groupsOff, ↓k_refill]
    | with_reducible refine Eq.trans (foldl_kept _ ?_ _ _) ?_
    | with_reducible refine Eq.trans (foldl_snd _ ?_ _ _) ?_
    | with_reducible refine Eq.trans (foldl_fst _ ?_ _ _) ?_
    | with_reducible refine Eq.trans (foldl_third _ ?_ _ _) ?_
    | split
    | dsimp only
theorem k_dropLandings {p : Nat → Bool} {s : State}  :
    kept (dropLandings p s) = kept s := by
  unfold dropLandings
  repeat' first | with_reducible rfl | intro _ | simp only [↓kept_mk]
theorem k_stopLaunch {j : Nat} {s : State}  :
    kept (stopLaunch j s) = kept s := by
  unfold stopLaunch
  repeat' first | with_reducible rfl | intro _ | simp only [↓kept_mk, ↓k_dropPrograms]
theorem k_dropNear {x : Job} {n version j : Nat} {s : State}  :
    kept (dropNear x n version j s) = kept s := by
  unfold dropNear
  repeat' first
    | with_reducible rfl
    | simp only [↓kept_mk, ↓kept_ite, ite_self, ↓k_Job_setTrailer]
    | split
    | dsimp only
theorem k_flashPut {a : Nat} {y : Bytes} {s : State} :
    kept { s with deep := { s.deep with flash := memWrite s.deep.flash a y } } = kept s :=
  kept_mk s _ _ _ _ _ _ _ _ _ _ _ _ _ _ _ _ _ _ _ _ _ _ _ _ _
theorem k_dropDeep {a n version : Nat} {y : Trailer} {s : State} : kept (dropDeep a n version y s) = kept s := by
  unfold dropDeep
  split
  · exact k_flashPut
  · rfl
theorem k_dropTrailer {x : Job} {t : Train} {j : Nat} {at_ : Option (Nat × Nat)} {s : State}  :
    kept (dropTrailer x t j at_ s) = kept s := by
  unfold dropTrailer
  repeat' first | with_reducible rfl | simp only [↓kept_ite, ite_self, ↓k_dropNear, ↓k_dropDeep] | split | dsimp only
theorem k_dropTrailers {c : Nat} {s : State}  :
    kept (dropTrailers c s) = kept s := by
  unfold dropTrailers
  repeat' first
    | with_reducible rfl
    | intro _
    | simp only [↓kept_ite, ite_self, ↓k_dropTrailer]
    | with_reducible refine Eq.trans (foldl_kept _ ?_ _ _) ?_
    | with_reducible refine Eq.trans (foldl_snd _ ?_ _ _) ?_
    | with_reducible refine Eq.trans (foldl_fst _ ?_ _ _) ?_
    | with_reducible refine Eq.trans (foldl_third _ ?_ _ _) ?_
    | split
    | dsimp only
theorem k_dropMsgs {c : Nat} {s : State}  :
    kept (dropMsgs c s) = kept s := by
  unfold dropMsgs
  repeat' first | with_reducible rfl | intro _ | simp only [↓kept_mk, ↓kept_ite, ite_self] | split
theorem k_endCommands {p : Cmd → Bool} {s : State}  :
    kept (endCommands p s).2 = kept s := by
  unfold endCommands
  repeat' first
    | with_reducible rfl
    | intro _
    | simp only [↓kept_mk, ↓k_refuse]
    | with_reducible refine Eq.trans (foldl_kept _ ?_ _ _) ?_
    | with_reducible refine Eq.trans (foldl_snd _ ?_ _ _) ?_
    | with_reducible refine Eq.trans (foldl_fst _ ?_ _ _) ?_
    | with_reducible refine Eq.trans (foldl_third _ ?_ _ _) ?_
    | dsimp only
theorem k_cutRestores {p : Cmd → Bool} {s : State}  :
    kept (cutRestores p s) = kept s := by
  unfold cutRestores
  repeat' first
    | with_reducible rfl
    | intro _
    | simp only [↓kept_mk, ↓kept_ite, ite_self, ↓k_ringMod, ↓k_trainMod]
    | with_reducible refine Eq.trans (foldl_kept _ ?_ _ _) ?_
    | with_reducible refine Eq.trans (foldl_snd _ ?_ _ _) ?_
    | with_reducible refine Eq.trans (foldl_fst _ ?_ _ _) ?_
    | with_reducible refine Eq.trans (foldl_third _ ?_ _ _) ?_
    | split
theorem k_stopContext {c : Nat} {s : State}  :
    kept (stopContext c s) = kept s := by
  unfold stopContext
  repeat' first
    | with_reducible rfl
    | intro _
    | simp only [↓kept_mk, ↓kept_ite, ite_self, ↓k_ctxMod, ↓k_cancelMoves, ↓k_dropPrograms, ↓k_dropLandings, ↓k_dropTrailers, ↓k_dropMsgs]
    | split
    | dsimp only
theorem k_contextReset {c : Nat} {but : Option Nat} {s : State}  :
    kept (contextReset c but s).2 = kept s := by
  unfold contextReset
  repeat' first | with_reducible rfl | intro _ | simp only [↓k_endCommands, ↓k_cutRestores, ↓k_stopContext]
theorem k_unwait {d : Cmd} {s : State}  :
    kept (unwait d s) = kept s := by
  unfold unwait
  repeat' first
    | with_reducible rfl
    | intro _
    | simp only [↓kept_mk, ↓kept_ite, ite_self, ↓k_unqueue, ↓k_ctxMod, ↓k_dropObject]
    | with_reducible refine Eq.trans (foldl_kept _ ?_ _ _) ?_
    | with_reducible refine Eq.trans (foldl_snd _ ?_ _ _) ?_
    | with_reducible refine Eq.trans (foldl_fst _ ?_ _ _) ?_
    | with_reducible refine Eq.trans (foldl_third _ ?_ _ _) ?_
    | split
    | dsimp only
theorem k_interruptOne {d : Cmd} {s : State}  :
    kept (interruptOne d s) = kept s := by
  unfold interruptOne
  repeat' first
    | with_reducible rfl
    | intro _
    | simp only [↓kept_mk, ↓kept_ite, ite_self, ↓k_ringMod, ↓k_ctxMod, ↓k_finish, ↓k_contextReset, ↓k_unwait]
    | split
    | dsimp only
theorem k_interrupt {p : Cmd → Bool} {s : State}  :
    kept (interrupt p s) = kept s := by
  unfold interrupt
  repeat' first
    | with_reducible rfl
    | intro _
    | simp only [↓kept_ite, ite_self, ↓k_cutRestores, ↓k_interruptOne]
    | with_reducible refine Eq.trans (foldl_kept _ ?_ _ _) ?_
    | with_reducible refine Eq.trans (foldl_snd _ ?_ _ _) ?_
    | with_reducible refine Eq.trans (foldl_fst _ ?_ _ _) ?_
    | with_reducible refine Eq.trans (foldl_third _ ?_ _ _) ?_
    | split
    | dsimp only
theorem k_makeDue {p : Cmd → Bool} {s : State}  :
    kept (makeDue p s) = kept s := by
  unfold makeDue
  repeat' first
    | with_reducible rfl
    | intro _
    | simp only [↓kept_mk]
    | with_reducible refine Eq.trans (foldl_kept _ ?_ _ _) ?_
    | with_reducible refine Eq.trans (foldl_snd _ ?_ _ _) ?_
    | with_reducible refine Eq.trans (foldl_fst _ ?_ _ _) ?_
    | with_reducible refine Eq.trans (foldl_third _ ?_ _ _) ?_
theorem k_addQuiet {c : Nat} {s : State}  :
    kept (addQuiet c s) = kept s := by
  unfold addQuiet
  repeat' first
    | with_reducible rfl
    | intro _
    | simp only [↓kept_mk]
    | with_reducible refine Eq.trans (foldl_kept _ ?_ _ _) ?_
    | with_reducible refine Eq.trans (foldl_snd _ ?_ _ _) ?_
    | with_reducible refine Eq.trans (foldl_fst _ ?_ _ _) ?_
    | with_reducible refine Eq.trans (foldl_third _ ?_ _ _) ?_
    | dsimp only
theorem k_rerunStep {c : Nat} {s : State}  :
    kept (rerunStep c s) = kept s := by
  unfold rerunStep
  repeat' first
    | with_reducible rfl
    | intro _
    | simp only [↓k_dropLandings, ↓k_stopLaunch, ↓k_dropTrailers, ↓k_interrupt, ↓k_addQuiet]
    | with_reducible refine Eq.trans (foldl_kept _ ?_ _ _) ?_
    | with_reducible refine Eq.trans (foldl_snd _ ?_ _ _) ?_
    | with_reducible refine Eq.trans (foldl_fst _ ?_ _ _) ?_
    | with_reducible refine Eq.trans (foldl_third _ ?_ _ _) ?_
    | dsimp only
theorem k_engineReset {n : Nat} {s : State}  :
    kept (engineReset n s) = kept s := by
  unfold engineReset
  repeat' first
    | with_reducible rfl
    | intro _
    | simp only [↓kept_mk, ↓k_stratumMod, ↓k_wipeRod, ↓k_stopLaunch, ↓k_interrupt, ↓k_rerunStep]
    | with_reducible refine Eq.trans (foldl_kept _ ?_ _ _) ?_
    | with_reducible refine Eq.trans (foldl_snd _ ?_ _ _) ?_
    | with_reducible refine Eq.trans (foldl_fst _ ?_ _ _) ?_
    | with_reducible refine Eq.trans (foldl_third _ ?_ _ _) ?_
    | dsimp only
theorem k_losePages {p : Loc → Bool} {s : State}  :
    kept (losePages p s) = kept s := by
  unfold losePages
  repeat' first
    | with_reducible rfl
    | intro _
    | simp only [↓kept_ite, ite_self, ↓k_pageMod, ↓k_dropFlash, ↓k_zeroFrame]
    | with_reducible refine Eq.trans (foldl_kept _ ?_ _ _) ?_
    | with_reducible refine Eq.trans (foldl_snd _ ?_ _ _) ?_
    | with_reducible refine Eq.trans (foldl_fst _ ?_ _ _) ?_
    | with_reducible refine Eq.trans (foldl_third _ ?_ _ _) ?_
    | split
    | dsimp only
theorem k_clearSlice {n : Nat} {s : State}  :
    kept (clearSlice n s) = kept s := by
  unfold clearSlice
  repeat' first | with_reducible rfl | intro _ | simp only [↓kept_mk] | dsimp only
theorem k_reloadSlice {n : Nat} {s : State}  :
    kept (reloadSlice n s) = kept s := by
  unfold reloadSlice
  repeat' first
    | with_reducible rfl
    | intro _
    | simp only [↓k_arbSet]
    | with_reducible refine Eq.trans (foldl_kept _ ?_ _ _) ?_
    | with_reducible refine Eq.trans (foldl_snd _ ?_ _ _) ?_
    | with_reducible refine Eq.trans (foldl_fst _ ?_ _ _) ?_
    | with_reducible refine Eq.trans (foldl_third _ ?_ _ _) ?_
theorem k_reloadGroup {g : Nat} {s : State}  :
    kept (reloadGroup g s) = kept s := by
  unfold reloadGroup
  repeat' first
    | with_reducible rfl
    | intro _
    | simp only [↓kept_ite, ite_self, ↓k_arbSet]
    | with_reducible refine Eq.trans (foldl_kept _ ?_ _ _) ?_
    | with_reducible refine Eq.trans (foldl_snd _ ?_ _ _) ?_
    | with_reducible refine Eq.trans (foldl_fst _ ?_ _ _) ?_
    | with_reducible refine Eq.trans (foldl_third _ ?_ _ _) ?_
    | split
theorem k_trainPhys {l : List Nat} {s : State}  :
    kept (trainPhys l s) = kept s := by
  unfold trainPhys
  repeat' first
    | with_reducible rfl
    | intro _
    | simp only [↓kept_mk]
    | with_reducible refine Eq.trans (foldl_kept _ ?_ _ _) ?_
    | with_reducible refine Eq.trans (foldl_snd _ ?_ _ _) ?_
    | with_reducible refine Eq.trans (foldl_fst _ ?_ _ _) ?_
    | with_reducible refine Eq.trans (foldl_third _ ?_ _ _) ?_
theorem k_reinitChans {l : List Nat} {s : State}  :
    kept (reinitChans l s) = kept s := by
  unfold reinitChans
  repeat' first
    | with_reducible rfl
    | intro _
    | simp only [↓kept_mk]
    | with_reducible refine Eq.trans (foldl_kept _ ?_ _ _) ?_
    | with_reducible refine Eq.trans (foldl_snd _ ?_ _ _) ?_
    | with_reducible refine Eq.trans (foldl_fst _ ?_ _ _) ?_
    | with_reducible refine Eq.trans (foldl_third _ ?_ _ _) ?_
theorem k_resetChannels {k : Nat} {fast : Bool} {s : State}  :
    kept (resetChannels k fast s) = kept s := by
  unfold resetChannels
  repeat' first
    | with_reducible rfl
    | intro _
    | simp only [↓kept_ite, ite_self, ↓k_trainPhys, ↓k_reinitChans]
    | split
    | dsimp only
theorem k_retrain {p : Nat} {s : State}  :
    kept (retrain p s) = kept s := by
  unfold retrain
  repeat' first
    | with_reducible rfl
    | simp only [↓kept_ite, ite_self, ↓k_zlBump, ↓k_autoRoutes, ↓k_portLeave, ↓k_mirrorCheck]
    | split
theorem k_partitionHardware {k : Nat} {s : State}  :
    kept (partitionHardware k s) = kept s := by
  unfold partitionHardware
  repeat' first
    | with_reducible rfl
    | intro _
    | simp only [↓kept_mk, ↓kept_ite, ite_self, ↓k_wipeRod, ↓k_cacheFlush, ↓k_cancelMoves, ↓k_dropPrograms, ↓k_dropLandings, ↓k_dropMsgs, ↓k_losePages, ↓k_clearSlice, ↓k_reloadSlice, ↓k_reloadGroup, ↓k_resetChannels, ↓k_retrain]
    | with_reducible refine Eq.trans (foldl_kept _ ?_ _ _) ?_
    | with_reducible refine Eq.trans (foldl_snd _ ?_ _ _) ?_
    | with_reducible refine Eq.trans (foldl_fst _ ?_ _ _) ?_
    | with_reducible refine Eq.trans (foldl_third _ ?_ _ _) ?_
    | split
    | dsimp only
theorem k_absorbed {ctxs parts : Nat → Bool} {s : State}  :
    kept (absorbed ctxs parts s) = kept s := by
  unfold absorbed
  repeat' first
    | with_reducible rfl
    | intro _
    | simp only [↓kept_ite, ite_self, ↓k_finish, ↓k_drawFree]
    | with_reducible refine Eq.trans (foldl_kept _ ?_ _ _) ?_
    | with_reducible refine Eq.trans (foldl_snd _ ?_ _ _) ?_
    | with_reducible refine Eq.trans (foldl_fst _ ?_ _ _) ?_
    | with_reducible refine Eq.trans (foldl_third _ ?_ _ _) ?_
    | split
    | dsimp only
theorem k_partitionReset {k : Nat} {but : Option Nat} {s : State}  :
    kept (partitionReset k but s) = kept s := by
  unfold partitionReset
  repeat' first
    | with_reducible rfl
    | intro _
    | simp only [↓kept_mk, ↓k_dropTrailers, ↓k_interrupt, ↓k_makeDue, ↓k_addQuiet, ↓k_partitionHardware, ↓k_absorbed]
    | with_reducible refine Eq.trans (foldl_kept _ ?_ _ _) ?_
    | with_reducible refine Eq.trans (foldl_snd _ ?_ _ _) ?_
    | with_reducible refine Eq.trans (foldl_fst _ ?_ _ _) ?_
    | with_reducible refine Eq.trans (foldl_third _ ?_ _ _) ?_
    | dsimp only
theorem k_enterSafe {s : State}  :
    kept (enterSafe s) = kept s := by
  unfold enterSafe
  repeat' first
    | with_reducible rfl
    | intro _
    | simp only [↓kept_mk, ↓kept_mkSup, ↓kept_ite, ite_self, ↓k_signalBoth, ↓k_portMod, ↓k_autoRoutes, ↓k_portLeave, ↓k_cancelMoves, ↓k_cutRestores]
    | with_reducible refine Eq.trans (foldl_kept _ ?_ _ _) ?_
    | with_reducible refine Eq.trans (foldl_snd _ ?_ _ _) ?_
    | with_reducible refine Eq.trans (foldl_fst _ ?_ _ _) ?_
    | with_reducible refine Eq.trans (foldl_third _ ?_ _ _) ?_
    | split
    | dsimp only
theorem k_retire {s : State}  :
    kept (retire s) = kept s := by
  unfold retire
  repeat' first
    | with_reducible rfl
    | intro _
    | simp only [↓kept_mk, ↓kept_mkTrust, ↓kept_ite, ite_self, ↓k_ctxMod, ↓k_refuse, ↓k_wipeRod, ↓k_autoRoutes, ↓k_portLeave, ↓k_mirrorCheck, ↓k_sessionsIfNone, ↓k_cancelMoves, ↓k_dropPrograms, ↓k_dropLandings, ↓k_unwait]
    | with_reducible refine Eq.trans (foldl_kept _ ?_ _ _) ?_
    | with_reducible refine Eq.trans (foldl_snd _ ?_ _ _) ?_
    | with_reducible refine Eq.trans (foldl_fst _ ?_ _ _) ?_
    | with_reducible refine Eq.trans (foldl_third _ ?_ _ _) ?_
    | split
    | dsimp only
theorem k_poisonDirty {s : State}  :
    kept (poisonDirty s) = kept s := by
  unfold poisonDirty
  repeat' first
    | with_reducible rfl
    | intro _
    | simp only [↓kept_mk, ↓kept_ite, ite_self]
    | with_reducible refine Eq.trans (foldl_kept _ ?_ _ _) ?_
    | with_reducible refine Eq.trans (foldl_snd _ ?_ _ _) ?_
    | with_reducible refine Eq.trans (foldl_fst _ ?_ _ _) ?_
    | with_reducible refine Eq.trans (foldl_third _ ?_ _ _) ?_
    | split
theorem k_poisonUnread {l : List Nat} {s : State}  :
    kept (poisonUnread l s) = kept s := by
  unfold poisonUnread
  repeat' first
    | with_reducible rfl
    | intro _
    | simp only [↓k_setMd]
    | with_reducible refine Eq.trans (foldl_kept _ ?_ _ _) ?_
    | with_reducible refine Eq.trans (foldl_snd _ ?_ _ _) ?_
    | with_reducible refine Eq.trans (foldl_fst _ ?_ _ _) ?_
    | with_reducible refine Eq.trans (foldl_third _ ?_ _ _) ?_
    | split
    | dsimp only
theorem k_keepHbm {s : State}  :
    kept (keepHbm s) = kept s := by
  unfold keepHbm
  repeat' first | with_reducible rfl | intro _ | simp only [↓kept_mk]
theorem k_cutRecovery {s : State}  :
    kept (cutRecovery s) = kept s := by
  unfold cutRecovery
  repeat' first
    | with_reducible rfl
    | intro _
    | simp only [↓kept_mk, ↓kept_ite, ite_self, ↓k_pageMod]
    | with_reducible refine Eq.trans (foldl_kept _ ?_ _ _) ?_
    | with_reducible refine Eq.trans (foldl_snd _ ?_ _ _) ?_
    | with_reducible refine Eq.trans (foldl_fst _ ?_ _ _) ?_
    | with_reducible refine Eq.trans (foldl_third _ ?_ _ _) ?_
    | split
    | dsimp only
theorem k_linksStart {s : State}  :
    kept (linksStart s) = kept s := by
  unfold linksStart
  repeat' first | with_reducible rfl | intro _ | simp only [↓kept_mk, ↓kept_ite, ite_self] | split | dsimp only
theorem k_coreStart {s : State}  :
    kept (coreStart s) = kept s := by
  unfold coreStart
  repeat' first | with_reducible rfl | intro _ | simp only [↓kept_mk, ↓k_cutRecovery, ↓k_linksStart] | dsimp only
theorem k_replay {s : State}  :
    kept (replay s) = kept s := by
  unfold replay
  repeat' first | with_reducible rfl | intro _ | simp only [↓kept_mk, ↓kept_ite, ite_self] | split | dsimp only
theorem k_execEngineReset {rod : Fin 64} {s : State}  :
    outKept (execEngineReset rod s) = some (kept s) := by
  unfold execEngineReset
  repeat' first
    | with_reducible rfl
    | simp only [↓outKept_next, ↓kept_ite, ite_self, ↓k_engineReset]
    | refine congrArg some ?_
    | split
theorem k_execPartitionReset {part : Fin 8} {s : State}  :
    outKept (execPartitionReset part s) = some (kept s) := by
  unfold execPartitionReset
  repeat' first
    | with_reducible rfl
    | simp only [↓outKept_next, ↓kept_ite, ite_self, ↓k_partitionReset]
    | refine congrArg some ?_
    | split
theorem k_execReplay {s : State}  :
    outKept (execReplay s) = some (kept s) := by
  unfold execReplay
  repeat' first
    | with_reducible rfl
    | simp only [↓outKept_next, ↓kept_ite, ite_self, ↓k_replay]
    | refine congrArg some ?_
    | split

end Sys2Proof.Machine
end

