-- ==== Sys2Proof/Laws/KeptContexts.lean ====
section
/-! SUPPORT. What Contexts.lean leaves as it was (Kept.lean). -/

set_option linter.all false
set_option maxRecDepth 8000

namespace Sys2Proof.Machine

theorem k_rebuildCaches {t : PartCmd} {k : Nat} {s : State}  :
    kept (rebuildCaches t k s) = kept s := by
  unfold rebuildCaches
  repeat' first | with_reducible rfl | intro _ | simp only [↓kept_ite, ite_self, ↓k_cacheFlush] | split
theorem k_partConfig {s : State} {q seq op : Nat} {body : PartCmd → Cmd → State → State} (hbody : ∀ v0 v1 s, kept (body v0 v1 s) = kept s) :
    kept (partConfig s q seq op body) = kept s := by
  unfold partConfig
  repeat' first
    | with_reducible rfl
    | intro _
    | simp only [↓kept_ite, ite_self, ↓k_refuse, ↓hbody]
    | refine Eq.trans (k_runSub ?_) ?_
    | split
theorem k_claimTake {t : PartCmd} {s : State}  :
    kept (claimTake t s).1 = kept s := by
  unfold claimTake
  repeat' first
    | with_reducible rfl
    | intro _
    | simp only [↓kept_mk, ↓kept_ite, ite_self, ↓k_rodMod, ↓k_stratumMod, ↓k_powerRod, ↓k_rebuildCaches]
    | with_reducible refine Eq.trans (foldl_kept _ ?_ _ _) ?_
    | with_reducible refine Eq.trans (foldl_snd _ ?_ _ _) ?_
    | with_reducible refine Eq.trans (foldl_fst _ ?_ _ _) ?_
    | with_reducible refine Eq.trans (foldl_third _ ?_ _ _) ?_
    | split
    | dsimp only
theorem k_execPartConfigClaim {q : Fin 512} {seq : Nat} {s : State}  :
    outKept (execPartConfigClaim q seq s) = some (kept s) := by
  unfold execPartConfigClaim
  repeat' first
    | with_reducible rfl
    | intro _
    | simp only [↓outKept_next, ↓kept_ite, ite_self, ↓k_finish, ↓k_refuse, ↓k_groupsOff, ↓k_claimTake]
    | refine Eq.trans (k_partConfig ?_) ?_
    | refine congrArg some ?_
    | split
    | dsimp only
theorem k_zeroBudgets {k : Nat} {t : PartCmd} {s : State}  :
    kept (zeroBudgets k t s) = kept s := by
  unfold zeroBudgets
  repeat' first
    | with_reducible rfl
    | intro _
    | simp only [↓kept_mk, ↓k_arbSet]
    | with_reducible refine Eq.trans (foldl_kept _ ?_ _ _) ?_
    | with_reducible refine Eq.trans (foldl_snd _ ?_ _ _) ?_
    | with_reducible refine Eq.trans (foldl_fst _ ?_ _ _) ?_
    | with_reducible refine Eq.trans (foldl_third _ ?_ _ _) ?_
    | dsimp only
theorem k_releaseUnits {t : PartCmd} {c : Cmd} {s : State}  :
    kept (releaseUnits t c s) = kept s := by
  unfold releaseUnits
  repeat' first
    | with_reducible rfl
    | intro _
    | simp only [↓kept_mk, ↓kept_ite, ite_self, ↓k_finish, ↓k_groupsOff, ↓k_pump, ↓k_rebuildCaches, ↓k_zeroBudgets]
    | with_reducible refine Eq.trans (foldl_kept _ ?_ _ _) ?_
    | with_reducible refine Eq.trans (foldl_snd _ ?_ _ _) ?_
    | with_reducible refine Eq.trans (foldl_fst _ ?_ _ _) ?_
    | with_reducible refine Eq.trans (foldl_third _ ?_ _ _) ?_
    | split
    | dsimp only
theorem k_execPartConfigRelease {q : Fin 512} {seq : Nat} {s : State}  :
    outKept (execPartConfigRelease q seq s) = some (kept s) := by
  unfold execPartConfigRelease
  repeat' first
    | with_reducible rfl
    | intro _
    | simp only [↓outKept_next, ↓kept_ite, ite_self, ↓k_refuse, ↓k_releaseUnits]
    | refine Eq.trans (k_partConfig ?_) ?_
    | refine congrArg some ?_
    | split
    | dsimp only
theorem k_execPartConfigSetFlags {q : Fin 512} {seq : Nat} {s : State}  :
    outKept (execPartConfigSetFlags q seq s) = some (kept s) := by
  unfold execPartConfigSetFlags
  repeat' first
    | with_reducible rfl
    | intro _
    | simp only [↓outKept_next, ↓kept_mk, ↓kept_ite, ite_self, ↓k_finish, ↓k_refuse]
    | refine Eq.trans (k_partConfig ?_) ?_
    | refine congrArg some ?_
    | split
    | dsimp only
theorem k_segMode {i : Nat} {on : Bool} {s : State}  :
    kept (segMode i on s) = kept s := by
  unfold segMode
  repeat' first
    | with_reducible rfl
    | intro _
    | simp only [↓kept_mk, ↓kept_ite, ite_self, ↓k_cacheFlush]
    | split
    | dsimp only
theorem k_execSetParamCsSegMode {q : Fin 512} {seq : Nat} {s : State}  :
    outKept (execSetParamCsSegMode q seq s) = some (kept s) := by
  unfold execSetParamCsSegMode
  repeat' first
    | with_reducible rfl
    | intro _
    | simp only [↓outKept_next, ↓kept_ite, ite_self, ↓k_refuse, ↓k_setDone, ↓k_pump, ↓k_segMode]
    | refine Eq.trans (k_setParam ?_) ?_
    | refine congrArg some ?_
    | split
    | dsimp only
theorem k_execCtxCreate {q : Fin 512} {seq : Nat} {s : State}  :
    outKept (execCtxCreate q seq s) = some (kept s) := by
  unfold execCtxCreate
  repeat' first
    | with_reducible rfl
    | simp only [↓outKept_next, ↓kept_mk, ↓kept_ite, ite_self, ↓k_ctxSet, ↓k_finish, ↓k_refuse, ↓k_drawFree]
    | refine congrArg some ?_
    | split
    | dsimp only
theorem k_dropContext {c : Nat} {s : State}  :
    kept (dropContext c s) = kept s := by
  unfold dropContext
  repeat' first
    | with_reducible rfl
    | intro _
    | simp only [↓kept_mk, ↓kept_ite, ite_self, ↓k_releaseFrom]
    | with_reducible refine Eq.trans (foldl_kept _ ?_ _ _) ?_
    | with_reducible refine Eq.trans (foldl_snd _ ?_ _ _) ?_
    | with_reducible refine Eq.trans (foldl_fst _ ?_ _ _) ?_
    | with_reducible refine Eq.trans (foldl_third _ ?_ _ _) ?_
    | split
    | dsimp only
theorem k_execCtxDestroy {q : Fin 512} {seq : Nat} {s : State}  :
    outKept (execCtxDestroy q seq s) = some (kept s) := by
  unfold execCtxDestroy
  repeat' first
    | with_reducible rfl
    | intro _
    | simp only [↓outKept_next, ↓kept_ite, ite_self, ↓k_finish, ↓k_refuse, ↓k_contextReset, ↓k_dropContext]
    | refine Eq.trans (k_runCmd ?_) ?_
    | refine congrArg some ?_
    | split
    | dsimp only
theorem k_execCtxReset {q : Fin 512} {seq : Nat} {s : State}  :
    outKept (execCtxReset q seq s) = some (kept s) := by
  unfold execCtxReset
  repeat' first
    | with_reducible rfl
    | intro _
    | simp only [↓outKept_next, ↓kept_ite, ite_self, ↓k_finish, ↓k_refuse, ↓k_contextReset]
    | refine Eq.trans (k_runCmd ?_) ?_
    | refine congrArg some ?_
    | split
    | dsimp only
theorem k_execPartReset {q : Fin 512} {seq ticks : Nat} {s : State}  :
    outKept (execPartReset q seq ticks s) = some (kept s) := by
  unfold execPartReset
  repeat' first
    | with_reducible rfl
    | intro _
    | simp only [↓outKept_next, ↓kept_ite, ite_self, ↓k_finish, ↓k_refuse, ↓k_begun, ↓k_partitionReset]
    | refine Eq.trans (k_runCmd ?_) ?_
    | refine congrArg some ?_
    | split
    | dsimp only

end Sys2Proof.Machine
end

