-- ==== Sys2Proof/Laws/KeptFaults.lean ====
section
/-! SUPPORT. What Faults.lean leaves as it was (Kept.lean). -/

set_option linter.all false
set_option maxRecDepth 8000

namespace Sys2Proof.Machine

theorem k_noteReset {t : Target} {s : State}  :
    kept (noteReset t s) = kept s := by
  unfold noteReset
  repeat' first | with_reducible rfl | simp only [↓kept_mk]
theorem k_doReset {t : Target} {s : State}  :
    kept (doReset t s) = kept s := by
  unfold doReset
  repeat' first
    | with_reducible rfl
    | intro _
    | simp only [↓kept_mk, ↓k_contextReset, ↓k_enterSafe, ↓k_noteReset]
    | split
    | dsimp only
theorem k_contain {n k a : Nat} {s : State}  :
    kept (contain n k a s) = kept s := by
  unfold contain
  repeat' first | with_reducible rfl | simp only [↓kept_ite, ite_self, ↓k_retire, ↓k_doReset] | split | dsimp only
theorem k_setSticky {n : Nat} {s : State}  :
    kept (setSticky n s) = kept s := by
  unfold setSticky
  repeat' first | with_reducible rfl | simp only [↓kept_mk]
theorem k_record {n k sev a : Nat} {s : State}  :
    kept (record n k sev a s) = kept s := by
  unfold record
  repeat' first | with_reducible rfl | simp only [↓kept_mk] | dsimp only
theorem k_takeMessage {n k a : Nat} {s : State}  :
    kept (takeMessage n k a s) = kept s := by
  unfold takeMessage
  repeat' first
    | with_reducible rfl
    | simp only [↓kept_mk, ↓kept_ite, ite_self, ↓k_signalBoth, ↓k_enterSafe, ↓k_contain, ↓k_setSticky, ↓k_record]
    | split
    | dsimp only
theorem k_enterNetwork {s : State}  :
    kept (enterNetwork s) = kept s := by
  unfold enterNetwork
  repeat' first | with_reducible rfl | intro _ | simp only [↓kept_mk]
theorem k_arriveNow {msg : BitVec 67} {s : State}  :
    kept (arriveNow msg s) = kept s := by
  unfold arriveNow
  repeat' first | with_reducible rfl | intro _ | simp only [↓kept_mk, ↓kept_ite, ite_self] | split
theorem k_holdMessage {msg : BitVec 67} {s : State}  :
    kept (holdMessage msg s) = kept s := by
  unfold holdMessage
  repeat' first | with_reducible rfl | intro _ | simp only [↓kept_mk, ↓kept_ite, ite_self] | split
theorem k_execFaultMessage {msg : BitVec 67} {s : State}  :
    outKept (execFaultMessage msg s) = some (kept s) := by
  unfold execFaultMessage
  repeat' first
    | with_reducible rfl
    | simp only [↓outKept_next, ↓kept_ite, ite_self, ↓k_takeMessage, ↓k_arriveNow, ↓k_holdMessage]
    | refine congrArg some ?_
    | split
    | dsimp only
theorem k_ringParity {i : Nat} {s : State}  :
    kept (ringParity i s) = kept s := by
  unfold ringParity
  repeat' first | with_reducible rfl | simp only [↓kept_mk, ↓kept_ite, ite_self] | split
theorem k_execFcParityError {word : Nat} {s : State}  :
    outKept (execFcParityError word s) = some (kept s) := by
  unfold execFcParityError
  repeat' first
    | with_reducible rfl
    | simp only [↓outKept_next, ↓kept_ite, ite_self, ↓k_enterSafe, ↓k_setSticky, ↓k_ringParity]
    | refine congrArg some ?_
    | split
theorem k_execThermtrip {sensor : Fin 128} {s : State}  :
    outKept (execThermtrip sensor s) = some (kept s) := by
  unfold execThermtrip
  repeat' first
    | with_reducible rfl
    | intro _
    | simp only [↓outKept_next, ↓kept_mk, ↓kept_mkSup, ↓kept_ite, ite_self, ↓k_raise, ↓k_enterSafe]
    | refine Eq.trans (k_across ?_) ?_
    | refine congrArg some ?_
    | split
    | dsimp only
theorem k_execFaultRead {q : Fin 512} {seq : Nat} {s : State}  :
    outKept (execFaultRead q seq s) = some (kept s) := by
  unfold execFaultRead
  repeat' first
    | with_reducible rfl
    | intro _
    | simp only [↓outKept_next, ↓k_hostWrite, ↓k_finish]
    | refine Eq.trans (k_runCmd ?_) ?_
    | refine congrArg some ?_
theorem k_execFaultClear {q : Fin 512} {seq : Nat} {s : State}  :
    outKept (execFaultClear q seq s) = some (kept s) := by
  unfold execFaultClear
  repeat' first
    | with_reducible rfl
    | intro _
    | simp only [↓outKept_next, ↓kept_mk, ↓kept_ite, ite_self, ↓k_finish, ↓k_refuse]
    | refine Eq.trans (k_runCmd ?_) ?_
    | with_reducible refine Eq.trans (foldl_kept _ ?_ _ _) ?_
    | with_reducible refine Eq.trans (foldl_snd _ ?_ _ _) ?_
    | with_reducible refine Eq.trans (foldl_fst _ ?_ _ _) ?_
    | with_reducible refine Eq.trans (foldl_third _ ?_ _ _) ?_
    | refine congrArg some ?_
    | split
    | dsimp only
theorem k_escalation {s : State} {q seq op : Nat} {body : Cmd → State → State} (hbody : ∀ v0 s, kept (body v0 s) = kept s) :
    kept (escalation s q seq op body) = kept s := by
  unfold escalation
  repeat' first
    | with_reducible rfl
    | intro _
    | simp only [↓kept_ite, ite_self, ↓k_refuse, ↓hbody]
    | refine Eq.trans (k_runSub ?_) ?_
    | split
theorem k_execEscalationSet {q : Fin 512} {seq : Nat} {s : State}  :
    outKept (execEscalationSet q seq s) = some (kept s) := by
  unfold execEscalationSet
  repeat' first
    | with_reducible rfl
    | intro _
    | simp only [↓outKept_next, ↓kept_mk, ↓kept_ite, ite_self, ↓k_finish, ↓k_refuse]
    | refine Eq.trans (k_escalation ?_) ?_
    | refine congrArg some ?_
    | split
theorem k_execEscalationReturn {q : Fin 512} {seq : Nat} {s : State}  :
    outKept (execEscalationReturn q seq s) = some (kept s) := by
  unfold execEscalationReturn
  repeat' first
    | with_reducible rfl
    | intro _
    | simp only [↓outKept_next, ↓kept_mk, ↓kept_mkTrust, ↓kept_ite, ite_self, ↓k_finish, ↓k_refuse]
    | refine Eq.trans (k_escalation ?_) ?_
    | refine congrArg some ?_
    | split
theorem k_execHeartbeatAdvance {cores : BitVec 4} {s : State}  :
    outKept (execHeartbeatAdvance cores s) = some (kept s) := by
  unfold execHeartbeatAdvance
  repeat' first
    | with_reducible rfl
    | simp only [↓outKept_next, ↓kept_mk, ↓kept_ite, ite_self]
    | refine congrArg some ?_
    | split
    | dsimp only
theorem k_raiseBeat {s : State}  :
    kept (raiseBeat s) = kept s := by
  unfold raiseBeat
  repeat' first | with_reducible rfl | simp only [↓kept_mk, ↓kept_ite, ite_self, ↓k_raise] | split
theorem k_beatCheck {s : State}  :
    kept (beatCheck s) = kept s := by
  unfold beatCheck
  repeat' first | with_reducible rfl | simp only [↓kept_ite, ite_self, ↓k_raiseBeat] | split
theorem k_execHeartbeatTimeout {s : State}  :
    outKept (execHeartbeatTimeout s) = some (kept s) := by
  unfold execHeartbeatTimeout
  repeat' first | with_reducible rfl | simp only [↓outKept_next, ↓k_beatCheck] | refine congrArg some ?_
theorem k_watchdogCheck {s : State}  :
    kept (watchdogCheck s) = kept s := by
  unfold watchdogCheck
  repeat' first
    | with_reducible rfl
    | simp only [↓kept_mk, ↓kept_ite, ite_self, ↓k_retire, ↓k_doReset, ↓k_raiseBeat]
    | split
    | dsimp only
theorem k_execWatchdogChipReset {s : State}  :
    outKept (execWatchdogChipReset s) = some (kept s) := by
  unfold execWatchdogChipReset
  repeat' first | with_reducible rfl | simp only [↓outKept_next, ↓k_watchdogCheck] | refine congrArg some ?_
theorem k_execPowerCycleRepeat {s : State}  :
    outKept (execPowerCycleRepeat s) = some (kept s) := by
  unfold execPowerCycleRepeat
  repeat' first
    | with_reducible rfl
    | simp only [↓outKept_next, ↓kept_mk, ↓kept_ite, ite_self]
    | refine congrArg some ?_
    | split
theorem k_execSpeedMeasure {mhz : List Nat} {s : State}  :
    outKept (execSpeedMeasure mhz s) = some (kept s) := by
  unfold execSpeedMeasure
  repeat' first
    | with_reducible rfl
    | intro _
    | simp only [↓outKept_next, ↓kept_mk, ↓kept_mkSup, ↓kept_ite, ite_self]
    | with_reducible refine Eq.trans (foldl_kept _ ?_ _ _) ?_
    | with_reducible refine Eq.trans (foldl_snd _ ?_ _ _) ?_
    | with_reducible refine Eq.trans (foldl_fst _ ?_ _ _) ?_
    | with_reducible refine Eq.trans (foldl_third _ ?_ _ _) ?_
    | refine congrArg some ?_
    | split
    | dsimp only
theorem k_checkPair {s : State} {q : Nat × Nat}  :
    kept (checkPair s q) = kept s := by
  unfold checkPair
  repeat' first | with_reducible rfl | simp only [↓kept_mk, ↓kept_ite, ite_self, ↓k_raise] | split | dsimp only
theorem k_execThermalGradientCheck {s : State}  :
    outKept (execThermalGradientCheck s) = some (kept s) := by
  unfold execThermalGradientCheck
  repeat' first
    | with_reducible rfl
    | intro _
    | simp only [↓outKept_next, ↓kept_ite, ite_self, ↓k_checkPair]
    | with_reducible refine Eq.trans (foldl_kept _ ?_ _ _) ?_
    | with_reducible refine Eq.trans (foldl_snd _ ?_ _ _) ?_
    | with_reducible refine Eq.trans (foldl_fst _ ?_ _ _) ?_
    | with_reducible refine Eq.trans (foldl_third _ ?_ _ _) ?_
    | refine congrArg some ?_
    | split
theorem k_execTimerefLoss {s : State}  :
    outKept (execTimerefLoss s) = some (kept s) := by
  unfold execTimerefLoss
  repeat' first
    | with_reducible rfl
    | simp only [↓outKept_next, ↓kept_mk, ↓kept_mkSup, ↓kept_ite, ite_self, ↓k_noteTimeref]
    | refine congrArg some ?_
    | split
theorem k_execTimerefReturn {s : State}  :
    outKept (execTimerefReturn s) = some (kept s) := by
  unfold execTimerefReturn
  repeat' first | with_reducible rfl | simp only [↓outKept_next, ↓kept_mk, ↓kept_mkSup] | refine congrArg some ?_

end Sys2Proof.Machine
end

