-- ==== Sys2Proof/Laws/KeptPair.lean ====
section
/-! SUPPORT. What Pair.lean leaves as it was (Kept.lean). -/

set_option linter.all false
set_option maxRecDepth 8000

namespace Sys2Proof.Machine

theorem k_takeJournal {ring : List Cmd} {ledger : FMap Slot} {next : Nat} {s : State}  :
    kept (takeJournal ring ledger next s) = kept s := by
  unfold takeJournal
  repeat' first
    | with_reducible rfl
    | intro _
    | simp only [↓kept_mk]
    | with_reducible refine Eq.trans (foldl_kept _ ?_ _ _) ?_
    | with_reducible refine Eq.trans (foldl_snd _ ?_ _ _) ?_
    | with_reducible refine Eq.trans (foldl_fst _ ?_ _ _) ?_
    | with_reducible refine Eq.trans (foldl_third _ ?_ _ _) ?_
theorem k_takeUnits {c : Control} {s : State}  :
    kept (takeUnits c s) = kept s := by
  unfold takeUnits
  repeat' first
    | with_reducible rfl
    | intro _
    | simp only [↓kept_mk, ↓kept_ite, ite_self, ↓k_stratumMod, ↓k_groupsOff, ↓k_groupsOn, ↓k_cacheFlush]
    | with_reducible refine Eq.trans (foldl_kept _ ?_ _ _) ?_
    | with_reducible refine Eq.trans (foldl_snd _ ?_ _ _) ?_
    | with_reducible refine Eq.trans (foldl_fst _ ?_ _ _) ?_
    | with_reducible refine Eq.trans (foldl_third _ ?_ _ _) ?_
    | split
    | dsimp only
theorem k_endRuns {ring : List Cmd} {s : State}  :
    kept (endRuns ring s) = kept s := by
  unfold endRuns
  repeat' first
    | with_reducible rfl
    | intro _
    | simp only [↓kept_ite, ite_self, ↓k_finishJ]
    | with_reducible refine Eq.trans (foldl_kept _ ?_ _ _) ?_
    | with_reducible refine Eq.trans (foldl_snd _ ?_ _ _) ?_
    | with_reducible refine Eq.trans (foldl_fst _ ?_ _ _) ?_
    | with_reducible refine Eq.trans (foldl_third _ ?_ _ _) ?_
    | split
theorem k_endThird {ring : List Cmd} {s : State}  :
    kept (endThird ring s) = kept s := by
  unfold endThird
  repeat' first
    | with_reducible rfl
    | intro _
    | simp only [↓kept_ite, ite_self, ↓k_finish, ↓k_contextReset]
    | with_reducible refine Eq.trans (foldl_kept _ ?_ _ _) ?_
    | with_reducible refine Eq.trans (foldl_snd _ ?_ _ _) ?_
    | with_reducible refine Eq.trans (foldl_fst _ ?_ _ _) ?_
    | with_reducible refine Eq.trans (foldl_third _ ?_ _ _) ?_
    | split
theorem k_settleTaken {ring : List Cmd} {s : State}  :
    kept (settleTaken ring s) = kept s := by
  unfold settleTaken
  repeat' first | with_reducible rfl | intro _ | simp only [↓k_absorbed, ↓k_endRuns, ↓k_endThird]
theorem k_takeFlushed {c : Control} {s : State}  :
    kept (takeFlushed c s) = kept s := by
  unfold takeFlushed
  repeat' first
    | with_reducible rfl
    | intro _
    | simp only [↓kept_mk, ↓kept_ite, ite_self, ↓k_readRegion, ↓k_takeJournal, ↓k_takeUnits, ↓k_settleTaken]
    | split
    | dsimp only
theorem k_restoreOwn {s : State}  :
    kept (restoreOwn s) = kept s := by
  unfold restoreOwn
  repeat' first
    | with_reducible rfl
    | intro _
    | simp only [↓kept_mk, ↓kept_ite, ite_self, ↓k_signalBoth, ↓k_takeJournal, ↓k_takeUnits, ↓k_settleTaken]
    | with_reducible refine Eq.trans (foldl_kept _ ?_ _ _) ?_
    | with_reducible refine Eq.trans (foldl_snd _ ?_ _ _) ?_
    | with_reducible refine Eq.trans (foldl_fst _ ?_ _ _) ?_
    | with_reducible refine Eq.trans (foldl_third _ ?_ _ _) ?_
    | split
    | dsimp only
theorem k_startBind {j d : Nat} {s : State}  :
    kept (startBind j d s) = kept s := by
  unfold startBind
  repeat' first | with_reducible rfl | intro _ | simp only [↓kept_mk, ↓k_ringMod] | dsimp only
theorem k_askPair {s : State} : kept (askPair s) = kept s := by
  unfold askPair
  exact (foldl_kept _ (fun _ _ => k_helloPair) _ _).trans k_mirrorHello
theorem k_execPairBind {q : Fin 512} {seq : Nat} {s : State}  :
    outKept (execPairBind q seq s) = some (kept s) := by
  unfold execPairBind
  repeat' first
    | with_reducible rfl
    | intro _
    | simp only [↓outKept_next, ↓kept_ite, ite_self, ↓k_finish, ↓k_refuse, ↓k_startBind, ↓k_askPair]
    | refine Eq.trans (k_runSub ?_) ?_
    | refine congrArg some ?_
    | split
    | dsimp only
theorem k_unpair {s : State}  :
    kept (unpair s) = kept s := by
  unfold unpair
  repeat' first | with_reducible rfl | intro _ | simp only [↓kept_mk, ↓k_holdWhere, ↓k_mirrorHello] | dsimp only
theorem k_execPairUnbind {q : Fin 512} {seq : Nat} {s : State}  :
    outKept (execPairUnbind q seq s) = some (kept s) := by
  unfold execPairUnbind
  repeat' first
    | with_reducible rfl
    | intro _
    | simp only [↓outKept_next, ↓kept_ite, ite_self, ↓k_finish, ↓k_refuse, ↓k_sendMark, ↓k_unpair]
    | refine Eq.trans (k_runSub ?_) ?_
    | refine congrArg some ?_
    | split
theorem k_endBind {status : Nat} {s : State}  :
    kept (endBind status s) = kept s := by
  unfold endBind
  repeat' first | with_reducible rfl | simp only [↓k_finish, ↓k_mirrorHello, ↓k_unwait] | split
theorem k_execPairBindTimeout {q : Fin 512} {seq : Nat} {s : State}  :
    outKept (execPairBindTimeout q seq s) = some (kept s) := by
  unfold execPairBindTimeout
  repeat' first
    | with_reducible rfl
    | simp only [↓outKept_next, ↓kept_ite, ite_self, ↓k_endBind]
    | refine congrArg some ?_
    | split
theorem k_execPairStatus {q : Fin 512} {seq : Nat} {s : State}  :
    outKept (execPairStatus q seq s) = some (kept s) := by
  unfold execPairStatus
  repeat' first
    | with_reducible rfl
    | intro _
    | simp only [↓outKept_next, ↓kept_ite, ite_self, ↓k_finish]
    | refine Eq.trans (k_runCmd ?_) ?_
    | refine congrArg some ?_
    | split
    | dsimp only
theorem k_execResumePoint {q : Fin 512} {seq : Nat} {s : State}  :
    outKept (execResumePoint q seq s) = some (kept s) := by
  unfold execResumePoint
  repeat' first
    | with_reducible rfl
    | intro _
    | simp only [↓outKept_next, ↓kept_ite, ite_self, ↓k_hostWrite, ↓k_finish, ↓k_refuse]
    | refine Eq.trans (k_runCmd ?_) ?_
    | refine congrArg some ?_
    | split
    | dsimp only
theorem k_execJournalMsg {h : MsgHdr} {records : List Bytes} {s : State}  :
    outKept (execJournalMsg h records s) = some (kept s) := by
  unfold execJournalMsg
  repeat' first
    | with_reducible rfl
    | intro _
    | simp only [↓outKept_next, ↓kept_mk, ↓kept_ite, ite_self]
    | refine Eq.trans (k_receivePair ?_) ?_
    | with_reducible refine Eq.trans (foldl_kept _ ?_ _ _) ?_
    | with_reducible refine Eq.trans (foldl_snd _ ?_ _ _) ?_
    | with_reducible refine Eq.trans (foldl_fst _ ?_ _ _) ?_
    | with_reducible refine Eq.trans (foldl_third _ ?_ _ _) ?_
    | refine congrArg some ?_
    | split
theorem k_restored {s : State}  :
    kept (restored s) = kept s := by
  unfold restored
  repeat' first
    | with_reducible rfl
    | simp only [↓kept_mk, ↓k_finishJ, ↓k_becomeBound, ↓k_restoreOwn]
    | split
    | dsimp only
theorem k_takeState {r : Bytes} {s : State}  :
    kept (takeState r s) = kept s := by
  unfold takeState
  repeat' first
    | with_reducible rfl
    | simp only [↓kept_mk, ↓kept_ite, ite_self, ↓k_unpair, ↓k_endBind, ↓k_restored]
    | split
theorem k_execMirrorState {h : MsgHdr} {record : Bytes} {s : State}  :
    outKept (execMirrorState h record s) = some (kept s) := by
  unfold execMirrorState
  repeat' first
    | with_reducible rfl
    | intro _
    | simp only [↓outKept_next, ↓kept_ite, ite_self, ↓k_record, ↓k_takeState]
    | refine Eq.trans (k_receive ?_) ?_
    | refine Eq.trans (k_receivePair ?_) ?_
    | refine congrArg some ?_
    | split
theorem k_execJournalStripeTimeout {s : State}  :
    outKept (execJournalStripeTimeout s) = some (kept s) := by
  unfold execJournalStripeTimeout
  repeat' first
    | with_reducible rfl
    | simp only [↓outKept_next, ↓kept_ite, ite_self, ↓k_commitJournal, ↓k_resumeIntake]
    | refine congrArg some ?_
    | split
theorem k_execControlStateRewrite {s : State}  :
    outKept (execControlStateRewrite s) = some (kept s) := by
  unfold execControlStateRewrite
  repeat' first
    | with_reducible rfl
    | simp only [↓outKept_next, ↓kept_mk, ↓kept_ite, ite_self, ↓k_flushStripe]
    | refine congrArg some ?_
    | split

end Sys2Proof.Machine
end

