-- ==== Sys2Proof/Laws/KeptDiag.lean ====
section
/-! SUPPORT. What Diag.lean leaves as it was (Kept.lean). -/

set_option linter.all false
set_option maxRecDepth 8000

namespace Sys2Proof.Machine

theorem k_testRod {n : Nat} {s : State}  :
    kept (testRod n s) = kept s := by
  unfold testRod
  repeat' first | with_reducible rfl | intro _ | simp only [↓kept_mk, ↓k_rodMod]
theorem k_checkFrame {f : Nat} {s : State}  :
    kept (checkFrame f s) = kept s := by
  unfold checkFrame
  repeat' first
    | with_reducible rfl
    | intro _
    | simp only [↓kept_mk, ↓k_rodMod]
    | with_reducible refine Eq.trans (foldl_kept _ ?_ _ _) ?_
    | with_reducible refine Eq.trans (foldl_snd _ ?_ _ _) ?_
    | with_reducible refine Eq.trans (foldl_fst _ ?_ _ _) ?_
    | with_reducible refine Eq.trans (foldl_third _ ?_ _ _) ?_
    | dsimp only
theorem k_runTest {test : Nat} {units : List Nat} {failing : Nat} {s : State}  :
    kept (runTest test units failing s) = kept s := by
  unfold runTest
  repeat' first
    | with_reducible rfl
    | intro _
    | simp only [↓kept_mk, ↓kept_ite, ite_self, ↓k_testRod, ↓k_checkFrame]
    | with_reducible refine Eq.trans (foldl_kept _ ?_ _ _) ?_
    | with_reducible refine Eq.trans (foldl_snd _ ?_ _ _) ?_
    | with_reducible refine Eq.trans (foldl_fst _ ?_ _ _) ?_
    | with_reducible refine Eq.trans (foldl_third _ ?_ _ _) ?_
    | split
theorem k_testDone {c : Cmd} {failing : Nat} {s : State}  :
    kept (testDone c failing s) = kept s := by
  unfold testDone
  repeat' first | with_reducible rfl | simp only [↓k_finish, ↓k_runTest] | dsimp only
theorem k_deferCmd {c : Cmd} {s : State}  :
    kept (deferCmd c s) = kept s := by
  unfold deferCmd
  repeat' first
    | with_reducible rfl
    | intro _
    | simp only [↓kept_mk, ↓kept_ite, ite_self, ↓k_ringMod, ↓k_refuse]
    | split
theorem k_selfTest {s : State} {q seq test failing : Nat}  :
    kept (selfTest s q seq test failing) = kept s := by
  unfold selfTest
  repeat' first
    | with_reducible rfl
    | intro _
    | simp only [↓kept_ite, ite_self, ↓k_refuse, ↓k_testDone, ↓k_deferCmd]
    | refine Eq.trans (k_runSub ?_) ?_
    | split
    | dsimp only
theorem k_execSelfTestArrayBist {q : Fin 512} {seq failing : Nat} {s : State}  :
    outKept (execSelfTestArrayBist q seq failing s) = some (kept s) := by
  unfold execSelfTestArrayBist
  repeat' first | with_reducible rfl | simp only [↓outKept_next, ↓k_selfTest] | refine congrArg some ?_
theorem k_execSelfTestRsMarch {q : Fin 512} {seq failing : Nat} {s : State}  :
    outKept (execSelfTestRsMarch q seq failing s) = some (kept s) := by
  unfold execSelfTestRsMarch
  repeat' first | with_reducible rfl | simp only [↓outKept_next, ↓k_selfTest] | refine congrArg some ?_
theorem k_execSelfTestLoopback {q : Fin 512} {seq failing : Nat} {s : State}  :
    outKept (execSelfTestLoopback q seq failing s) = some (kept s) := by
  unfold execSelfTestLoopback
  repeat' first | with_reducible rfl | simp only [↓outKept_next, ↓k_selfTest] | refine congrArg some ?_
theorem k_execSelfTestWvCheck {q : Fin 512} {seq failing : Nat} {s : State}  :
    outKept (execSelfTestWvCheck q seq failing s) = some (kept s) := by
  unfold execSelfTestWvCheck
  repeat' first | with_reducible rfl | simp only [↓outKept_next, ↓k_selfTest] | refine congrArg some ?_
theorem k_execDeferredTestStart {q : Fin 512} {seq failing : Nat} {s : State}  :
    outKept (execDeferredTestStart q seq failing s) = some (kept s) := by
  unfold execDeferredTestStart
  repeat' first
    | with_reducible rfl
    | simp only [↓outKept_next, ↓kept_ite, ite_self, ↓k_testDone]
    | refine congrArg some ?_
    | split
theorem k_execDeferTimeout {q : Fin 512} {seq : Nat} {s : State}  :
    outKept (execDeferTimeout q seq s) = some (kept s) := by
  unfold execDeferTimeout
  repeat' first
    | with_reducible rfl
    | simp only [↓outKept_next, ↓kept_ite, ite_self, ↓k_refuse]
    | refine congrArg some ?_
    | split
theorem k_calibrate {s : State} {q seq what n : Nat} {act : List Nat → State → State} (hact : ∀ v0 s, kept (act v0 s) = kept s) :
    kept (calibrate s q seq what n act) = kept s := by
  unfold calibrate
  repeat' first
    | with_reducible rfl
    | intro _
    | simp only [↓kept_ite, ite_self, ↓k_finish, ↓k_refuse, ↓k_deferCmd, ↓hact]
    | refine Eq.trans (k_runSub ?_) ?_
    | split
    | dsimp only
theorem k_execCalibrateThermal {q : Fin 512} {seq : Nat} {s : State}  :
    outKept (execCalibrateThermal q seq s) = some (kept s) := by
  unfold execCalibrateThermal
  repeat' first
    | with_reducible rfl
    | intro _
    | simp only [↓outKept_next]
    | refine Eq.trans (k_calibrate ?_) ?_
    | refine congrArg some ?_
theorem k_execCalibrateHbmPhy {q : Fin 512} {seq : Nat} {s : State}  :
    outKept (execCalibrateHbmPhy q seq s) = some (kept s) := by
  unfold execCalibrateHbmPhy
  repeat' first
    | with_reducible rfl
    | intro _
    | simp only [↓outKept_next, ↓kept_mk]
    | refine Eq.trans (k_calibrate ?_) ?_
    | with_reducible refine Eq.trans (foldl_kept _ ?_ _ _) ?_
    | with_reducible refine Eq.trans (foldl_snd _ ?_ _ _) ?_
    | with_reducible refine Eq.trans (foldl_fst _ ?_ _ _) ?_
    | with_reducible refine Eq.trans (foldl_third _ ?_ _ _) ?_
    | refine congrArg some ?_
theorem k_execCalibrateSpeed {q : Fin 512} {seq : Nat} {s : State}  :
    outKept (execCalibrateSpeed q seq s) = some (kept s) := by
  unfold execCalibrateSpeed
  repeat' first
    | with_reducible rfl
    | intro _
    | simp only [↓outKept_next]
    | refine Eq.trans (k_calibrate ?_) ?_
    | refine congrArg some ?_
theorem k_setClear {ctx set i : Nat} {s : State}  :
    kept (setClear ctx set i s) = kept s := by
  unfold setClear
  repeat' first
    | with_reducible rfl
    | intro _
    | simp only [↓kept_mk, ↓kept_ite, ite_self, ↓k_ctxMod, ↓k_rodMod, ↓k_stratumMod, ↓k_wvMod, ↓k_arbSet, ↓k_groupMod]
    | split
    | dsimp only
theorem k_readCounters {c : Cmd} {s : State}  :
    kept (readCounters c s) = kept s := by
  unfold readCounters
  repeat' first
    | with_reducible rfl
    | intro _
    | simp only [↓kept_ite, ite_self, ↓k_hostWrite, ↓k_finish, ↓k_refuse, ↓k_setClear]
    | with_reducible refine Eq.trans (foldl_kept _ ?_ _ _) ?_
    | with_reducible refine Eq.trans (foldl_snd _ ?_ _ _) ?_
    | with_reducible refine Eq.trans (foldl_fst _ ?_ _ _) ?_
    | with_reducible refine Eq.trans (foldl_third _ ?_ _ _) ?_
    | split
    | dsimp only
theorem k_execReadCounters {q : Fin 512} {seq : Nat} {s : State}  :
    outKept (execReadCounters q seq s) = some (kept s) := by
  unfold execReadCounters
  repeat' first | with_reducible rfl | simp only [↓outKept_next, ↓k_readCounters] | refine congrArg some ?_ | split

end Sys2Proof.Machine
end

