-- ==== Sys2Proof/Laws/KeptTrust.lean ====
section
/-! SUPPORT. What Trust.lean leaves as it was (Kept.lean). -/

set_option linter.all false
set_option maxRecDepth 8000

namespace Sys2Proof.Machine

theorem k_stageBytes {off : Nat} {bs : Bytes} {last : Bool} {s : State}  :
    kept (stageBytes off bs last s) = kept s := by
  unfold stageBytes
  repeat' first
    | with_reducible rfl
    | simp only [↓kept_mk, ↓kept_mkTrust, ↓kept_ite, ite_self, ↓k_writeRegion]
    | split
    | dsimp only
theorem k_execFwStage {q : Fin 512} {seq : Nat} {s : State}  :
    outKept (execFwStage q seq s) = some (kept s) := by
  unfold execFwStage
  repeat' first
    | with_reducible rfl
    | intro _
    | simp only [↓outKept_next, ↓kept_ite, ite_self, ↓k_finish, ↓k_refuse, ↓k_stageBytes]
    | refine Eq.trans (k_runCmd ?_) ?_
    | refine congrArg some ?_
    | split
    | dsimp only
theorem k_writeSlot {i : Nat} {b : Bytes} {s : State}  :
    kept (writeSlot i b s) = kept s := by
  unfold writeSlot
  repeat' first | with_reducible rfl | simp only [↓k_writeRegion]
theorem k_activate {b : Bytes} {now : Bool} {s : State}  :
    kept (activate b now s) = kept s := by
  unfold activate
  repeat' first
    | with_reducible rfl
    | simp only [↓kept_mk, ↓kept_mkTrust, ↓kept_ite, ite_self, ↓k_writeSlot]
    | split
    | dsimp only
theorem k_execFwActivate {q : Fin 512} {seq : Nat} {s : State}  :
    outKept (execFwActivate q seq s) = some (kept s) := by
  unfold execFwActivate
  repeat' first
    | with_reducible rfl
    | intro _
    | simp only [↓outKept_next, ↓kept_mk, ↓kept_mkTrust, ↓kept_ite, ite_self, ↓k_finish, ↓k_refuse, ↓k_activate]
    | refine Eq.trans (k_runCmd ?_) ?_
    | refine congrArg some ?_
    | split
    | dsimp only
theorem k_signed {s : State} : kept (signed s) = kept s := rfl
theorem k_attestReply {c : Cmd} {leaf : Nat} {s : State}  :
    kept (attestReply c leaf s) = kept s := by
  unfold attestReply
  repeat' first
    | with_reducible rfl
    | simp only [↓kept_ite, ite_self, ↓k_hostWrite, ↓k_finish, ↓k_signed]
    | split
    | dsimp only
theorem k_execCertRead {q : Fin 512} {seq : Nat} {s : State}  :
    outKept (execCertRead q seq s) = some (kept s) := by
  unfold execCertRead
  repeat' first
    | with_reducible rfl
    | intro _
    | simp only [↓outKept_next, ↓kept_ite, ite_self, ↓k_hostWrite, ↓k_finish, ↓k_refuse]
    | refine Eq.trans (k_runCmd ?_) ?_
    | refine congrArg some ?_
    | split
    | dsimp only
theorem k_answer {b : Bytes} {s : State}  :
    kept (answer b s) = kept s := by
  unfold answer
  repeat' first | with_reducible rfl | simp only [↓kept_mk]
theorem k_spdmError {k : Nat} {s : State}  :
    kept (spdmError k s) = kept s := by
  unfold spdmError
  repeat' first | with_reducible rfl | simp only [↓k_answer]
theorem k_spdm {box : Nat} {k : Spdm → State → State} {s : State} (hk : ∀ v0 s, kept (k v0 s) = kept s) :
    kept (spdm box k s) = kept s := by
  unfold spdm
  repeat' first | with_reducible rfl | simp only [↓kept_mk, ↓kept_ite, ite_self, ↓k_spdmError, ↓hk] | split
theorem k_spdmSet {box : Nat} {x : Spdm} {s : State}  :
    kept (spdmSet box x s) = kept s := by
  unfold spdmSet
  repeat' first | with_reducible rfl | intro _ | simp only [↓kept_mk] | refine Eq.trans (k_spdm ?_) ?_
theorem k_negotiated {box : Nat} {k : Spdm → State → State} {s : State} (hk : ∀ v0 s, kept (k v0 s) = kept s) :
    kept (negotiated box k s) = kept s := by
  unfold negotiated
  repeat' first
    | with_reducible rfl
    | intro _
    | simp only [↓kept_ite, ite_self, ↓k_spdmError, ↓hk]
    | refine Eq.trans (k_spdm ?_) ?_
    | split
theorem k_negotiate {box code : Nat} {req : Bytes} {x : Spdm} {s : State}  :
    kept (negotiate box code req x s) = kept s := by
  unfold negotiate
  repeat' first | with_reducible rfl | simp only [↓kept_mk, ↓k_answer, ↓k_spdmSet] | dsimp only
theorem k_showCert {box code : Nat} {req reply : Bytes} {x : Spdm} {s : State}  :
    kept (showCert box code req reply x s) = kept s := by
  unfold showCert
  repeat' first | with_reducible rfl | simp only [↓kept_mk, ↓k_answer, ↓k_spdmSet] | dsimp only
theorem k_execDoeDiscovery {box : Fin 3} {index : Nat} {s : State}  :
    outKept (execDoeDiscovery box index s) = some (kept s) := by
  unfold execDoeDiscovery
  repeat' first
    | with_reducible rfl
    | intro _
    | simp only [↓outKept_next, ↓kept_ite, ite_self, ↓k_answer]
    | refine Eq.trans (k_spdm ?_) ?_
    | refine congrArg some ?_
    | split
theorem k_execGetVersion {box : Fin 3} {s : State}  :
    outKept (execGetVersion box s) = some (kept s) := by
  unfold execGetVersion
  repeat' first
    | with_reducible rfl
    | intro _
    | simp only [↓outKept_next, ↓kept_mk, ↓k_negotiate]
    | refine Eq.trans (k_spdm ?_) ?_
    | refine congrArg some ?_
theorem k_execGetCapabilities {box : Fin 3} {s : State}  :
    outKept (execGetCapabilities box s) = some (kept s) := by
  unfold execGetCapabilities
  repeat' first
    | with_reducible rfl
    | intro _
    | simp only [↓outKept_next, ↓kept_mk, ↓kept_ite, ite_self, ↓k_spdmError, ↓k_negotiate]
    | refine Eq.trans (k_spdm ?_) ?_
    | refine congrArg some ?_
    | split
theorem k_execNegotiateAlgorithms {box : Fin 3} {p384 sha384 : Bool} {s : State}  :
    outKept (execNegotiateAlgorithms box p384 sha384 s) = some (kept s) := by
  unfold execNegotiateAlgorithms
  repeat' first
    | with_reducible rfl
    | intro _
    | simp only [↓outKept_next, ↓kept_mk, ↓kept_ite, ite_self, ↓k_spdmError, ↓k_negotiate]
    | refine Eq.trans (k_spdm ?_) ?_
    | refine congrArg some ?_
    | split
theorem k_execGetDigests {box : Fin 3} {s : State}  :
    outKept (execGetDigests box s) = some (kept s) := by
  unfold execGetDigests
  repeat' first
    | with_reducible rfl
    | intro _
    | simp only [↓outKept_next, ↓k_showCert]
    | refine Eq.trans (k_negotiated ?_) ?_
    | refine congrArg some ?_
theorem k_execGetCertificate {box : Fin 3} {slot offset length : Nat} {s : State}  :
    outKept (execGetCertificate box slot offset length s) = some (kept s) := by
  unfold execGetCertificate
  repeat' first
    | with_reducible rfl
    | intro _
    | simp only [↓outKept_next, ↓kept_ite, ite_self, ↓k_spdmError, ↓k_showCert]
    | refine Eq.trans (k_negotiated ?_) ?_
    | refine congrArg some ?_
    | split
    | dsimp only
theorem k_execUnsupportedRequest {box : Fin 3} {u_code : Nat} {s : State}  :
    outKept (execUnsupportedRequest box u_code s) = some (kept s) := by
  unfold execUnsupportedRequest
  repeat' first
    | with_reducible rfl
    | intro _
    | simp only [↓outKept_next, ↓k_spdmError]
    | refine Eq.trans (k_spdm ?_) ?_
    | refine congrArg some ?_
theorem k_answerStatus {st : Nat} {s : State}  :
    kept (answerStatus st s) = kept s := by
  unfold answerStatus
  repeat' first | with_reducible rfl | simp only [↓k_answer]
theorem k_execSbGetStatus {s : State}  :
    outKept (execSbGetStatus s) = some (kept s) := by
  unfold execSbGetStatus
  repeat' first
    | with_reducible rfl
    | simp only [↓outKept_next, ↓kept_ite, ite_self, ↓k_answer]
    | refine congrArg some ?_
    | split
theorem k_execSbFaultRead {offset : Nat} {s : State}  :
    outKept (execSbFaultRead offset s) = some (kept s) := by
  unfold execSbFaultRead
  repeat' first
    | with_reducible rfl
    | simp only [↓outKept_next, ↓kept_ite, ite_self, ↓k_answer]
    | refine congrArg some ?_
    | split
theorem k_execResetChip {s : State}  :
    outKept (execResetChip s) = some (kept s) := by
  unfold execResetChip
  repeat' first
    | with_reducible rfl
    | simp only [↓outKept_next, ↓kept_mk, ↓kept_ite, ite_self]
    | refine congrArg some ?_
    | split
theorem k_execRecoveryWrite {offset : Nat} {data : Bytes} {s : State}  :
    outKept (execRecoveryWrite offset data s) = some (kept s) := by
  unfold execRecoveryWrite
  repeat' first
    | with_reducible rfl
    | simp only [↓outKept_next, ↓kept_mk, ↓kept_mkTrust, ↓kept_ite, ite_self, ↓k_answerStatus]
    | refine congrArg some ?_
    | split
theorem k_execRecoveryCommit {s : State}  :
    outKept (execRecoveryCommit s) = some (kept s) := by
  unfold execRecoveryCommit
  repeat' first
    | with_reducible rfl
    | simp only [↓outKept_next, ↓kept_mk, ↓kept_mkTrust, ↓kept_ite, ite_self, ↓k_writeSlot, ↓k_answerStatus]
    | refine congrArg some ?_
    | split
    | dsimp only
theorem k_onSideband {s : State} {k : State → State} (hk : ∀  s, kept (k  s) = kept s) :
    kept (onSideband s k) = kept s := by
  unfold onSideband
  repeat' first | with_reducible rfl | simp only [↓kept_ite, ite_self, ↓k_answerStatus, ↓hk] | split
theorem k_execMctpControl {request : Bytes} {s : State}  :
    outKept (execMctpControl request s) = some (kept s) := by
  unfold execMctpControl
  repeat' first
    | with_reducible rfl
    | intro _
    | simp only [↓outKept_next, ↓k_answer]
    | refine Eq.trans (k_onSideband ?_) ?_
    | refine congrArg some ?_
theorem k_execPldmRequest {sensor : Option (Fin 128)} {request : Bytes} {s : State}  :
    outKept (execPldmRequest sensor request s) = some (kept s) := by
  unfold execPldmRequest
  repeat' first
    | with_reducible rfl
    | intro _
    | simp only [↓outKept_next, ↓k_answer]
    | refine Eq.trans (k_onSideband ?_) ?_
    | refine congrArg some ?_
    | split
theorem k_execSetdasa {staticAddr dynAddr : Nat} {s : State}  :
    outKept (execSetdasa staticAddr dynAddr s) = some (kept s) := by
  unfold execSetdasa
  repeat' first
    | with_reducible rfl
    | simp only [↓outKept_next, ↓kept_mk, ↓kept_ite, ite_self]
    | refine congrArg some ?_
    | split
theorem k_execEntdaa {dynAddr : Nat} {s : State}  :
    outKept (execEntdaa dynAddr s) = some (kept s) := by
  unfold execEntdaa
  repeat' first
    | with_reducible rfl
    | simp only [↓outKept_next, ↓kept_mk, ↓kept_ite, ite_self]
    | refine congrArg some ?_
    | split
theorem k_execSbWriteRetry {s : State}  :
    outKept (execSbWriteRetry s) = some (kept s) := by
  unfold execSbWriteRetry
  repeat' first
    | with_reducible rfl
    | simp only [↓outKept_next, ↓kept_mk, ↓kept_ite, ite_self]
    | refine congrArg some ?_
    | split
    | dsimp only
theorem k_loadTest {j : Jtag} {s : State}  :
    kept (loadTest j s) = kept s := by
  unfold loadTest
  repeat' first | with_reducible rfl | simp only [↓kept_mk, ↓kept_mkTrust, ↓kept_ite, ite_self] | split
theorem k_enterTest {j : Jtag} {s : State}  :
    kept (enterTest j s) = kept s := by
  unfold enterTest
  repeat' first
    | with_reducible rfl
    | simp only [↓kept_mk, ↓kept_mkTrust, ↓kept_ite, ite_self, ↓k_enterSafe]
    | split
    | dsimp only
theorem k_execExtest {s : State}  :
    outKept (execExtest s) = some (kept s) := by
  unfold execExtest
  repeat' first | with_reducible rfl | simp only [↓outKept_next, ↓k_enterTest] | refine congrArg some ?_
theorem k_execClamp {s : State}  :
    outKept (execClamp s) = some (kept s) := by
  unfold execClamp
  repeat' first | with_reducible rfl | simp only [↓outKept_next, ↓k_enterTest] | refine congrArg some ?_
theorem k_execHighz {s : State}  :
    outKept (execHighz s) = some (kept s) := by
  unfold execHighz
  repeat' first | with_reducible rfl | simp only [↓outKept_next, ↓k_enterTest] | refine congrArg some ?_
theorem k_execBypass {s : State}  :
    outKept (execBypass s) = some (kept s) := by
  unfold execBypass
  repeat' first | with_reducible rfl | simp only [↓outKept_next, ↓k_loadTest] | refine congrArg some ?_
theorem k_execIdcode {s : State}  :
    outKept (execIdcode s) = some (kept s) := by
  unfold execIdcode
  repeat' first
    | with_reducible rfl
    | simp only [↓outKept_next, ↓kept_ite, ite_self, ↓k_answer, ↓k_loadTest]
    | refine congrArg some ?_
    | split
theorem k_execSamplePreload {s : State}  :
    outKept (execSamplePreload s) = some (kept s) := by
  unfold execSamplePreload
  repeat' first | with_reducible rfl | simp only [↓outKept_next, ↓k_loadTest] | refine congrArg some ?_

end Sys2Proof.Machine
end

