-- ==== Sys2Proof/Laws/KeptBoot.lean ====
section
/-! SUPPORT. What Boot.lean leaves as it was (Kept.lean). -/

set_option linter.all false
set_option maxRecDepth 8000

namespace Sys2Proof.Machine

theorem k_powerOn {m : BitVec 30} {s : State}  :
    kept (powerOn m s) = kept s := by
  unfold powerOn
  repeat' first | with_reducible rfl | simp only [↓kept_mk, ↓kept_mkSup]
theorem k_toStep {n : Nat} {s : State}  :
    kept (toStep n s) = kept s := by
  unfold toStep
  repeat' first | with_reducible rfl | simp only [↓kept_mk]
theorem k_stopStart {stage : Nat} {s : State}  :
    kept (stopStart stage s) = kept s := by
  unfold stopStart
  repeat' first | with_reducible rfl | simp only [↓kept_mk, ↓kept_mkSup]
theorem k_softStart {s : State}  :
    kept (softStart s) = kept s := by
  unfold softStart
  repeat' first | with_reducible rfl | simp only [↓kept_mk, ↓kept_mkSup]
theorem k_startPower {s : State}  :
    kept (startPower s) = kept s := by
  unfold startPower
  repeat' first | with_reducible rfl | simp only [↓kept_mk, ↓kept_mkSup, ↓kept_ite, ite_self, ↓k_softStart] | split
theorem k_execSoftStartDone {s : State}  :
    outKept (execSoftStartDone s) = some (kept s) := by
  unfold execSoftStartDone
  repeat' first
    | with_reducible rfl
    | simp only [↓outKept_next, ↓kept_mk, ↓kept_mkSup, ↓kept_ite, ite_self, ↓k_powerOn, ↓k_toStep, ↓k_softStart]
    | refine congrArg some ?_
    | split
theorem k_execRotSelfTest {passed : Bool} {s : State}  :
    outKept (execRotSelfTest passed s) = some (kept s) := by
  unfold execRotSelfTest
  repeat' first
    | with_reducible rfl
    | simp only [↓outKept_next, ↓kept_mk, ↓kept_mkSup, ↓kept_ite, ite_self, ↓k_raise, ↓k_noteTimeref, ↓k_powerOn, ↓k_toStep, ↓k_stopStart]
    | refine congrArg some ?_
    | split
    | dsimp only
theorem k_slotRefused {i : Fin 2} {s : State}  :
    kept (slotRefused i s) = kept s := by
  unfold slotRefused
  repeat' first | with_reducible rfl | simp only [↓k_raise]
theorem k_readSlot {i : Nat} {s : State}  :
    kept (readSlot i s) = kept s := by
  unfold readSlot
  repeat' first | with_reducible rfl | intro _ | simp only [↓k_readTiles]
theorem k_drawBootId {s : State}  :
    kept (drawBootId s) = kept s := by
  unfold drawBootId
  repeat' first | with_reducible rfl | simp only [↓kept_mk, ↓k_drawFree] | dsimp only
theorem k_takeChar {s : State}  :
    kept (takeChar s) = kept s := by
  unfold takeChar
  repeat' first | with_reducible rfl | simp only [↓kept_mk, ↓kept_ite, ite_self, ↓k_raise] | split | dsimp only
theorem k_componentsBad {s : State}  :
    kept (componentsBad s) = kept s := by
  unfold componentsBad
  repeat' first
    | with_reducible rfl
    | simp only [↓kept_mk, ↓kept_mkTrust, ↓kept_ite, ite_self, ↓k_toStep, ↓k_stopStart, ↓k_slotRefused, ↓k_readSlot]
    | split
    | dsimp only
theorem k_execFirstStageStart {s : State}  :
    outKept (execFirstStageStart s) = some (kept s) := by
  unfold execFirstStageStart
  repeat' first
    | with_reducible rfl
    | simp only [↓outKept_next, ↓kept_mk, ↓kept_mkTrust, ↓kept_ite, ite_self, ↓k_raise, ↓k_toStep, ↓k_drawBootId, ↓k_takeChar, ↓k_componentsBad]
    | refine congrArg some ?_
    | split
    | dsimp only
theorem k_takeStart {t s : State}  :
    kept (takeStart t s) = kept s := by
  unfold takeStart
  repeat' first | with_reducible rfl | simp only [↓kept_mk]
theorem k_applyImage {s : State}  :
    kept (applyImage s) = kept s := by
  unfold applyImage
  repeat' first
    | with_reducible rfl
    | simp only [↓kept_mk, ↓kept_mkTrust, ↓kept_ite, ite_self, ↓k_raise, ↓k_takeStart]
    | split
    | dsimp only
theorem k_takeLinks {c : Control} {s : State}  :
    kept (takeLinks c s) = kept s := by
  unfold takeLinks
  repeat' first
    | with_reducible rfl
    | intro _
    | simp only [↓kept_mk, ↓kept_ite, ite_self, ↓k_peerSet, ↓k_autoRoutes, ↓k_mirrorCheck, ↓k_sessionsIfNone, ↓k_idAtPort, ↓k_setZlId, ↓k_enablePort]
    | with_reducible refine Eq.trans (foldl_kept _ ?_ _ _) ?_
    | with_reducible refine Eq.trans (foldl_snd _ ?_ _ _) ?_
    | with_reducible refine Eq.trans (foldl_fst _ ?_ _ _) ?_
    | with_reducible refine Eq.trans (foldl_third _ ?_ _ _) ?_
    | split
    | dsimp only
theorem k_takeKept {s : State}  :
    kept (takeKept s) = kept s := by
  unfold takeKept
  repeat' first
    | with_reducible rfl
    | simp only [↓kept_ite, ite_self, ↓k_takeSettings, ↓k_takeFlushed, ↓k_takeLinks]
    | split
theorem k_execConfigImageApply {mmaFailed rodFailed : BitVec 64} {s : State}  :
    outKept (execConfigImageApply mmaFailed rodFailed s) = some (kept s) := by
  unfold execConfigImageApply
  repeat' first
    | with_reducible rfl
    | simp only [↓outKept_next, ↓kept_mk, ↓kept_ite, ite_self, ↓k_linksStart, ↓k_powerOn, ↓k_toStep, ↓k_applyImage]
    | refine congrArg some ?_
    | split
    | dsimp only
theorem k_execMemoryTraining {failedStack : Option (Fin 8)} {s : State}  :
    outKept (execMemoryTraining failedStack s) = some (kept s) := by
  unfold execMemoryTraining
  repeat' first
    | with_reducible rfl
    | simp only [↓outKept_next, ↓kept_ite, ite_self, ↓k_raise, ↓k_mount, ↓k_toStep, ↓k_stopStart]
    | refine congrArg some ?_
    | split
theorem k_execFirmwareAreaPrepare {s : State}  :
    outKept (execFirmwareAreaPrepare s) = some (kept s) := by
  unfold execFirmwareAreaPrepare
  repeat' first
    | with_reducible rfl
    | simp only [↓outKept_next, ↓kept_mk, ↓kept_ite, ite_self, ↓k_toStep, ↓k_takeKept]
    | refine congrArg some ?_
    | split
    | dsimp only

end Sys2Proof.Machine
end

