-- ==== Sys2Proof/Laws/KeptPower.lean ====
section
/-! SUPPORT. What Power.lean leaves as it was (Kept.lean). -/

set_option linter.all false
set_option maxRecDepth 8000

namespace Sys2Proof.Machine

theorem k_orStay {s : State} {o : Host.Outcome State Fault Refusal} (h : outKept o = some (kept s)) : kept (orStay s o) = kept s := by
  cases o with
  | next t => exact Option.some.inj h
  | _ => rfl
theorem k_retryCrossing {s : State} {i : Instr} : kept (retryCrossing s i) = kept s := by
  unfold retryCrossing
  split
  · exact k_orStay k_execHbmRead
  · exact k_orStay k_execHbmWrite
  · exact k_orStay k_execCsRequest
  · exact k_orStay k_execRsWindowAccess
  · exact k_orStay k_execAdminCfgWrite
  · exact k_orStay k_execDbSqWrite
  · exact k_orStay k_execDbCqWrite
  · exact k_orStay k_execRegisterWrite
  · exact k_orStay k_execThermtrip
  · rfl
theorem k_serveCrossings {s : State}  :
    kept (serveCrossings s) = kept s := by
  unfold serveCrossings
  repeat' first
    | with_reducible rfl
    | intro _
    | simp only [↓kept_mk, ↓k_retryCrossing]
    | with_reducible refine Eq.trans (foldl_kept _ ?_ _ _) ?_
    | with_reducible refine Eq.trans (foldl_snd _ ?_ _ _) ?_
    | with_reducible refine Eq.trans (foldl_fst _ ?_ _ _) ?_
    | with_reducible refine Eq.trans (foldl_third _ ?_ _ _) ?_
theorem k_runAgain {ran : Bool} {s : State}  :
    kept (runAgain ran s) = kept s := by
  unfold runAgain
  repeat' first
    | with_reducible rfl
    | simp only [↓kept_ite, ite_self, ↓k_noteTimeref, ↓k_resumeIntake, ↓k_drainPorts, ↓k_beatCheck, ↓k_watchdogCheck, ↓k_serveCrossings]
    | split
    | dsimp only
theorem k_execPwrEnRise {strap : BitVec 4} {pairSel : Bool} {s : State}  :
    outKept (execPwrEnRise strap pairSel s) = some (kept s) := by
  unfold execPwrEnRise
  repeat' first
    | with_reducible rfl
    | simp only [↓outKept_next, ↓kept_mk, ↓kept_mkSup, ↓kept_ite, ite_self, ↓k_startPower]
    | refine congrArg some ?_
    | split
    | dsimp only
theorem k_execPwrEnFall {s : State}  :
    outKept (execPwrEnFall s) = some (kept s) := by
  unfold execPwrEnFall
  repeat' first
    | with_reducible rfl
    | simp only [↓outKept_next, ↓kept_mk, ↓kept_mkSup, ↓kept_ite, ite_self, ↓k_enterSafe, ↓k_softStart]
    | refine congrArg some ?_
    | split
    | dsimp only
theorem k_execPwrEnLowTimeEnd {s : State}  :
    outKept (execPwrEnLowTimeEnd s) = some (kept s) := by
  unfold execPwrEnLowTimeEnd
  repeat' first
    | with_reducible rfl
    | simp only [↓outKept_next, ↓kept_mk, ↓kept_mkSup, ↓kept_ite, ite_self, ↓k_startPower]
    | refine congrArg some ?_
    | split
    | dsimp only
theorem k_keepShadow {s t : State} : kept (keepShadow s t) = kept t := by
  unfold keepShadow
  split
  · exact kept_mk t _ _ _ _ _ _ _ _ _ _ _ _ _ _ _ _ _ _ _ _ _ _ _ _ _
  · rfl
theorem k_execVin52SagEnd {mv : Nat} {s : State}  :
    outKept (execVin52SagEnd mv s) = some (kept s) := by
  unfold execVin52SagEnd
  repeat' first
    | with_reducible rfl
    | simp only [↓outKept_next, ↓kept_mk, ↓kept_mkSup, ↓kept_ite, ite_self, ↓k_runAgain]
    | refine congrArg some ?_
    | split
theorem k_execConvOvercurrent {die : Fin 2} {s : State}  :
    outKept (execConvOvercurrent die s) = some (kept s) := by
  unfold execConvOvercurrent
  repeat' first
    | with_reducible rfl
    | simp only [↓outKept_next, ↓kept_ite, ite_self, ↓k_raise]
    | refine congrArg some ?_
    | split
theorem k_execConvOvertemp {die : Fin 2} {s : State}  :
    outKept (execConvOvertemp die s) = some (kept s) := by
  unfold execConvOvertemp
  repeat' first
    | with_reducible rfl
    | simp only [↓outKept_next, ↓kept_ite, ite_self, ↓k_raise]
    | refine congrArg some ?_
    | split
theorem k_readSensor {r : SensorReading} {s : State}  :
    kept (readSensor r s) = kept s := by
  unfold readSensor
  repeat' first | with_reducible rfl | simp only [↓kept_mk, ↓kept_ite, ite_self, ↓k_raise] | split | dsimp only
theorem k_execSensorRead {readings : List SensorReading} {s : State}  :
    outKept (execSensorRead readings s) = some (kept s) := by
  unfold execSensorRead
  repeat' first
    | with_reducible rfl
    | intro _
    | simp only [↓outKept_next, ↓kept_mk, ↓kept_mkSup, ↓kept_ite, ite_self, ↓k_caseTemp, ↓k_readSensor]
    | with_reducible refine Eq.trans (foldl_kept _ ?_ _ _) ?_
    | with_reducible refine Eq.trans (foldl_snd _ ?_ _ _) ?_
    | with_reducible refine Eq.trans (foldl_fst _ ?_ _ _) ?_
    | with_reducible refine Eq.trans (foldl_third _ ?_ _ _) ?_
    | refine congrArg some ?_
    | split
    | dsimp only

end Sys2Proof.Machine
end

