-- ==== Sys2Proof/Laws/KeptTick.lean ====
section
/-! SUPPORT. What Tick.lean leaves as it was (Kept.lean). -/

set_option linter.all false
set_option maxRecDepth 8000

namespace Sys2Proof.Machine

theorem k_retryMsg {s : State} {row : Instr} : kept (retryMsg s row) = kept s := by
  unfold retryMsg
  split
  · exact k_orStay k_execTileWrite
  · exact k_orStay k_execTileRead
  · exact k_orStay k_execTileData
  · exact k_orStay k_execJournalMsg
  · exact k_orStay k_execMirrorState
  · exact k_orStay k_execSnapCopy
  · exact k_orStay k_execRemoteQuery
  · exact k_orStay k_execRemoteReply
  · exact k_orStay k_execExcludeReq
  · exact k_orStay k_execAdmitReq
  · exact k_orStay k_execViewChange
  · exact k_orStay k_execViewQuery
  · exact k_orStay k_execViewReply
  · exact k_orStay k_execArrive
  · exact k_orStay k_execBarrierRelease
  · exact k_orStay k_execCollReady
  · exact k_orStay k_execContrib
  · exact k_orStay k_execCollFinal
  · exact k_orStay k_execCollData
  · exact k_orStay k_execResendReq
  · exact k_orStay k_execTableLoad
  · exact k_orStay k_execTableRetire
  · exact k_orStay k_execTableAck
  · exact k_orStay k_execNormSum
  · rfl
theorem k_retryHeld {s : State} {e : MsgHdr × Nat × Instr}  :
    kept (retryHeld s e) = kept s := by
  unfold retryHeld
  repeat' first | with_reducible rfl | simp only [↓kept_mk, ↓kept_ite, ite_self, ↓k_retryMsg] | split
theorem k_serveLater {s : State}  :
    kept (serveLater s) = kept s := by
  unfold serveLater
  repeat' first
    | with_reducible rfl
    | intro _
    | simp only [↓kept_mk, ↓k_retryHeld]
    | with_reducible refine Eq.trans (foldl_kept _ ?_ _ _) ?_
    | with_reducible refine Eq.trans (foldl_snd _ ?_ _ _) ?_
    | with_reducible refine Eq.trans (foldl_fst _ ?_ _ _) ?_
    | with_reducible refine Eq.trans (foldl_third _ ?_ _ _) ?_
theorem k_advance {s : State}  :
    kept (advance s) = kept s := by
  unfold advance
  repeat' first | with_reducible rfl | simp only [↓kept_mk]
theorem k_tick {s : State}  :
    kept (tick s) = kept s := by
  unfold tick
  repeat' first
    | with_reducible rfl
    | simp only [↓kept_ite, ite_self, ↓k_enterNetwork, ↓k_serveLater, ↓k_advance]
    | split

end Sys2Proof.Machine
end

