-- ==== Sys2Proof/Laws/KeptRest.lean ====
section
/-!
SUPPORT. The commands that do change what `kept` gathers, each with all that it can do to it: signatures and tokens
(spec/16_startup_trust.md R441, R444), power limiting (spec/17_package_power_cooling.md R455), the chip reset, power loss, and
the steps of start-up that count attempts and apply the policy (R434, R435).
-/

namespace Sys2Proof.Machine

/-! ### Operations that call a body -/

theorem k_runCmd_cases (s : State) (q seq op : Nat) (onCtx : Bool) (named : List (Nat × Nat)) (body : Cmd → State → State) :
    kept (runCmd s q seq op onCtx named body) = kept s ∨
    ∃ c, startable s q seq op = some c ∧ kept (runCmd s q seq op onCtx named body) = kept (body c s) := by
  unfold runCmd
  split
  · exact .inl rfl
  · rename_i c hc
    split
    · exact .inl k_refuse
    · cases (c.stray || !c.rest0 named || !c.layoutOk || (if onCtx then !ctxExists s c.ctx else decide (c.ctx ≠ 0)))
      · exact .inr ⟨c, hc, rfl⟩
      · exact .inl k_refuse

theorem k_negotiated_cases (box : Nat) (k : Spdm → State → State) (s : State) :
    kept (negotiated box k s) = kept s ∨ ∃ x, kept (negotiated box k s) = kept (k x s) := by
  unfold negotiated spdm
  split
  · exact .inl rfl
  · split
    · exact .inl k_spdmError
    · cases h : (mapGet {} s.side.spdm box).algs
      · exact .inl ((congrArg kept (if_neg (by rw [h]; exact Bool.false_ne_true))).trans k_spdmError)
      · exact .inr ⟨_, congrArg kept (if_pos h)⟩

/-! ### Signatures (R441, R444) -/

/-- One signature: a token, and a leaf where it has an LMS part. -/
def Kept.signed (lms : Bool) (k : Kept) : Kept :=
  { k with tokens := k.tokens - 1, leaf := if lms then k.leaf + 1 else k.leaf }

theorem k_useToken (s : State) : kept (useToken s) = (kept s).signed false := rfl

theorem k_useLeaf (s : State) : kept (useLeaf s) = { kept s with leaf := s.trust.leaf + 1 } := by
  unfold useLeaf
  dsimp only
  split
  · exact k_raise
  · split
    · exact k_raise
    · rfl

theorem useLeaf_leaf (s : State) : (useLeaf s).trust.leaf = s.trust.leaf + 1 := congrArg Kept.leaf (k_useLeaf s)

theorem k_sign (lms : Bool) (s : State) : kept (useToken (if lms then useLeaf s else s)) = (kept s).signed lms := by
  cases lms with
  | false => exact k_useToken s
  | true =>
    refine (k_useToken (useLeaf s)).trans ?_
    rw [k_useLeaf]
    rfl

theorem k_signedReply_cases (box : Nat) (said req body : Bytes) (after : Spdm) (s : State) :
    kept (signedReply box said req body after s) = kept s ∨
    (s.trust.tokens ≠ 0 ∧ kept (signedReply box said req body after s) = (kept s).signed (decide (s.trust.leaf < lmsLeaves))) := by
  unfold signedReply
  split
  · exact .inl k_spdmError
  · rename_i h
    refine .inr ⟨h, ?_⟩
    dsimp only
    refine k_answer.trans (k_signed.trans (k_spdmSet.trans ?_))
    exact k_sign _ s

/-- ATTEST takes a token and, with an LMS signature, a leaf that is left; or nothing. -/
theorem k_execAttest_cases (q : Fin 512) (seq : Nat) (s : State) :
    outKept (execAttest q seq s) = some (kept s) ∨
    ∃ lms : Bool, s.trust.tokens ≠ 0 ∧ (lms → s.trust.leaf < lmsLeaves) ∧
      outKept (execAttest q seq s) = some ((kept s).signed lms) := by
  unfold execAttest
  rcases k_runCmd_cases s q seq 0x802 false [(0, 33), (40, 8), (48, 4)] _ with h | ⟨c, -, h⟩
  · exact .inl (congrArg some h)
  · simp only [outKept_next, Option.some.injEq]
    rw [h]
    clear h
    dsimp only
    split
    · exact .inl k_refuse
    · split
      · exact .inl k_refuse
      · rename_i hn
        simp only [Bool.or_eq_true, decide_eq_true_eq, Bool.and_eq_true, not_or, not_and, Nat.not_le] at hn
        exact .inr ⟨bitOf (c.p 32 1) 1, hn.1, hn.2, k_attestReply.trans (k_sign _ s)⟩

theorem k_execChallenge_cases (box : Fin 3) (slot : Nat) (nonce : Bytes) (s : State) :
    outKept (execChallenge box slot nonce s) = some (kept s) ∨
    (s.trust.tokens ≠ 0 ∧
      outKept (execChallenge box slot nonce s) = some ((kept s).signed (decide (s.trust.leaf < lmsLeaves)))) := by
  unfold execChallenge
  simp only [outKept_next, Option.some.injEq]
  refine (k_negotiated_cases ..).elim .inl (fun ⟨x, h⟩ => ?_)
  rw [h]
  split
  · exact .inl k_spdmError
  · exact k_signedReply_cases ..

theorem k_execGetMeasurements_cases (box : Fin 3) (index : Nat) (signed : Bool) (nonce : Bytes) (s : State) :
    outKept (execGetMeasurements box index signed nonce s) = some (kept s) ∨
    (s.trust.tokens ≠ 0 ∧ outKept (execGetMeasurements box index signed nonce s)
      = some ((kept s).signed (decide (s.trust.leaf < lmsLeaves)))) := by
  unfold execGetMeasurements
  simp only [outKept_next, Option.some.injEq]
  refine (k_negotiated_cases ..).elim .inl (fun ⟨x, h⟩ => ?_)
  rw [h]
  split
  · exact .inl k_spdmError
  · split
    · exact k_signedReply_cases ..
    · exact .inl (k_answer.trans k_spdmSet)

/-- TOKEN_REFILL adds a token up to 8, or does nothing. -/
theorem k_execTokenRefill_cases (s : State) :
    outKept (execTokenRefill s) = some (kept s) ∨
    outKept (execTokenRefill s) = some { kept s with tokens := min 8 (s.trust.tokens + 1) } := by
  unfold execTokenRefill
  split
  · exact .inr rfl
  · exact .inl rfl

/-! ### Power -/

/-- What power loss leaves: the setpoints and tokens of a start. -/
def Kept.restart (k : Kept) : Kept := { k with coreMv := 750, fabMv := 750, duty := 8, tokens := 8 }

theorem k_powerLost (s : State) : kept (powerLost s) = (kept s).restart := rfl

theorem k_inputLost (s : State) : kept (inputLost s) = (kept s).restart := rfl

theorem k_execConversionStop_cases (s : State) :
    outKept (execConversionStop s) = some (kept s) ∨ outKept (execConversionStop s) = some (kept s).restart := by
  unfold execConversionStop
  split
  · exact .inr rfl
  · exact .inl rfl

theorem k_execVin52Loss (s : State) : outKept (execVin52Loss s) = some (kept s).restart := rfl

/-- A sag loses power below the loss level; else it lets regions run again, or does nothing. -/
theorem k_execVin52Sag_cases (mv : Nat) (s : State) :
    outKept (execVin52Sag mv s) = some (kept s) ∨ outKept (execVin52Sag mv s) = some (kept s).restart := by
  unfold execVin52Sag
  split
  · exact .inr rfl
  · split
    · exact .inl (congrArg some (k_runAgain.trans (k_keepShadow.trans rfl)))
    · exact .inl rfl

theorem k_execConvShutdown_cases (die : Fin 2) (s : State) :
    outKept (execConvShutdown die s) = some (kept s) ∨ outKept (execConvShutdown die s) = some (kept s).restart := by
  unfold execConvShutdown
  split
  · exact .inr rfl
  · exact .inl rfl

theorem k_execVin52Rise (mv : Nat) (s : State) {t : State} (h : execVin52Rise mv s = .next t) : kept t = kept s := by
  unfold execVin52Rise at h
  split at h
  · cases h
  · cases h
    split
    · dsimp only
      split
      · exact k_softStart
      · split
        · exact k_runAgain
        · rfl
    · rfl

/-- POWER_READING lowers, raises or leaves the setpoints. -/
theorem k_execPowerReading_cases (mw : Nat) (s : State) :
    outKept (execPowerReading mw s) = some (kept s) ∨
    ∃ u : Supply, u.coreMv = s.sup.coreMv ∧ u.fabMv = s.sup.fabMv ∧ u.duty = s.sup.duty ∧
      (outKept (execPowerReading mw s) = some (keptOf (lowerStep u) s.trust s.pending) ∨
        outKept (execPowerReading mw s) = some (keptOf (raiseStep u) s.trust s.pending)) := by
  have hk : kept (takeReading mw s) = keptOf (limitStep s.dev.powerLimit mw (noteReading mw s.sup)) s.trust s.pending := by
    unfold takeReading
    dsimp only
    split
    · rfl
    · exact k_runAgain
  unfold execPowerReading
  split
  · simp only [outKept_next, Option.some.injEq, hk]
    unfold limitStep
    split
    · exact .inl rfl
    · split
      · exact .inr ⟨noteReading mw s.sup, rfl, rfl, rfl, .inl rfl⟩
      · split
        · exact .inr ⟨noteReading mw s.sup, rfl, rfl, rfl, .inr rfl⟩
        · exact .inl rfl
  · exact .inl rfl

/-! ### The chip reset (R413) -/

/-- What a chip reset does to the setpoints. -/
def Kept.chip (k : Kept) : Kept := { k with coreMv := 750, fabMv := 750, duty := 8 }

theorem k_chipRegs (ltc : Nat) (s : State) : kept (chipRegs ltc s) = (kept s).chip := rfl

theorem k_chipReset (unread : List Nat) (s : State) : kept (chipReset unread s) = (kept s).chip := by
  unfold chipReset
  extract_lets s0 wasSafe s1 cut s2 s3 s4 s5 s6 s7 s8 s9
  have h1 : kept s1 = kept s := by
    cases h : wasSafe
    · exact (congrArg kept (if_neg (by rw [h]; exact Bool.false_ne_true))).trans (k_cacheFlush.trans k_unstash)
    · exact (congrArg kept (if_pos h)).trans (k_poisonUnread.trans (k_poisonDirty.trans k_unstash))
  have h2 : kept s2 = kept s := (foldl_kept _ (fun _ _ => k_dropTrailers) _ _).trans h1
  have h3 : kept s3 = kept s := k_cancelMoves.trans h2
  have h4 : kept s4 = kept s := (foldl_kept _ (fun s kv => by
    cases kv.2.run.any (fun r => decide (r.kind ≠ 4))
    · rfl
    · exact k_endRunLost) _ _).trans h3
  have h5 : kept s5 = kept s := k_resetPort.trans (k_resetPort.trans h4)
  have h6 : kept s6 = kept s := k_makeDue.trans (k_interrupt.trans h5)
  have h7 : kept s7 = kept s := (foldl_kept _ (fun _ _ => k_addQuiet) _ _).trans h6
  have h8 : kept s8 = kept s := k_absorbed.trans h7
  have h9 : kept s9 = kept s := k_keepHbm.trans (k_losePages.trans h8)
  have h10 : kept (coreStart s9) = kept s := k_coreStart.trans h9
  exact k_mirrorCheck.trans (k_noteTimeref.trans ((k_chipRegs _ _).trans (congrArg Kept.chip h10)))

theorem k_execChipReset_cases (unread : BitVec 4) (s : State) :
    outKept (execChipReset unread s) = some (kept s) ∨ outKept (execChipReset unread s) = some (kept s).chip := by
  unfold execChipReset
  split
  · exact .inr (congrArg some (k_chipReset _ s))
  · exact .inl rfl

/-! ### Start-up (R434, R435) -/

/-- A boot attempt: the second in a row starts the count again. -/
def Kept.attempt (k : Kept) : Kept := { k with attempts := if k.attempts + 1 = 2 then 0 else k.attempts + 1 }

theorem k_countAttempt (s : State) : kept (countAttempt s) = (kept s).attempt := by
  unfold countAttempt Kept.attempt
  split
  · rename_i h
    refine k_raise.trans ?_
    have h' : (kept s).attempts + 1 = 2 := h
    rw [if_pos h']
    rfl
  · rename_i h
    have h' : ¬(kept s).attempts + 1 = 2 := h
    rw [if_neg h']
    rfl

theorem k_chooseSlot (s : State) : kept (chooseSlot s) = kept s := by
  unfold chooseSlot
  dsimp only
  split
  · exact k_toStep
  · split
    · exact k_toStep.trans k_slotRefused
    · exact k_stopStart.trans (k_slotRefused.trans k_slotRefused)

theorem k_execBootRomLoad_cases (s : State) :
    outKept (execBootRomLoad s) = some (kept s) ∨ outKept (execBootRomLoad s) = some (kept s).attempt := by
  unfold execBootRomLoad
  simp only [outKept_next, Option.some.injEq]
  split
  · split
    · refine .inr ((k_chooseSlot _).trans ((k_countAttempt _).trans ?_))
      rw [k_powerOn]
      rfl
    · exact .inl (k_stopStart.trans k_powerOn)
  · exact .inl rfl

/-- The policy of the bundle booted. -/
def Kept.policy (b : Bytes) (k : Kept) : Kept :=
  { k with minSvn := policySvn b k.minSvn, revoked := policyRevoked b k.revoked, attempts := 0 }

theorem k_policyEffect (s : State) : kept (policyEffect s) = (kept s).policy (bootedImage s) := rfl

theorem k_execReadyHigh_cases (s : State) :
    outKept (execReadyHigh s) = some (kept s) ∨ outKept (execReadyHigh s) = some ((kept s).policy (bootedImage s)) := by
  unfold execReadyHigh
  simp only [outKept_next, Option.some.injEq]
  split
  · exact .inr (k_groupsOff.trans (k_policyEffect s))
  · exact .inl rfl

end Sys2Proof.Machine
end

