-- ==== Sys2Proof/Laws/KeptExec.lean ====
section
/-!
SUPPORT. Over all commands: exec leaves what Sys2Proof/Laws/Kept.lean gathers as it was, but for the few commands that
`changesKept` names.
-/

namespace Sys2Proof.Machine

/-- The commands that may change a field of `Kept`. -/
def changesKept : Instr → Bool
  | .attest .. => true
  | .chipReset .. => true
  | .conversionStop => true
  | .vin52Loss => true
  | .powerReading .. => true
  | .convShutdown .. => true
  | .bootRomLoad => true
  | .readyHigh => true
  | .challenge .. => true
  | .getMeasurements .. => true
  | .tokenRefill => true
  | .vin52Sag .. => true
  | .vin52Rise .. => true
  | _ => false

/-- Every other command leaves them all. -/
theorem k_exec (c : Instr) (s : State) (h : changesKept c = false) : outKept (exec c s) = some (kept s) := by
  cases c with
  | identify => exact k_execIdentify
  | getInfo => exact k_execGetInfo
  | setParamQueue => exact k_execSetParamQueue
  | setParamFcSeverity => exact k_execSetParamFcSeverity
  | setParamPowerLimit => exact k_execSetParamPowerLimit
  | setParamZlDeviceId => exact k_execSetParamZlDeviceId
  | setParamZlPortEnable => exact k_execSetParamZlPortEnable
  | setParamZlMirrorPorts => exact k_execSetParamZlMirrorPorts
  | setParamJournalFlush => exact k_execSetParamJournalFlush
  | setParamCsSegMode => exact k_execSetParamCsSegMode
  | setParamWvLog2 => exact k_execSetParamWvLog2
  | setParamWvThresh => exact k_execSetParamWvThresh
  | getParam => exact k_execGetParam
  | setTallyBudget => exact k_execSetTallyBudget
  | setTallyMode => exact k_execSetTallyMode
  | hostAdopt => exact k_execHostAdopt
  | ctxCreate => exact k_execCtxCreate
  | ctxDestroy => exact k_execCtxDestroy
  | ctxReset => exact k_execCtxReset
  | partConfigClaim => exact k_execPartConfigClaim
  | partConfigRelease => exact k_execPartConfigRelease
  | partConfigSetFlags => exact k_execPartConfigSetFlags
  | partReset => exact k_execPartReset
  | objRegister => exact k_execObjRegister
  | objRelease => exact k_execObjRelease
  | objPlace => exact k_execObjPlace
  | copyBytes => exact k_execCopyBytes
  | prefetchSchedule => exact k_execPrefetchSchedule
  | quotaSet => exact k_execQuotaSet
  | launch => exact k_execLaunch
  | launchChain => exact k_execLaunchChain
  | peerDiscover => exact k_execPeerDiscover
  | routeSet => exact k_execRouteSet
  | collGroupCreate => exact k_execCollGroupCreate
  | collGroupAdmit => exact k_execCollGroupAdmit
  | collGroupBind => exact k_execCollGroupBind
  | collGroupUnbind => exact k_execCollGroupUnbind
  | collGroupDestroy => exact k_execCollGroupDestroy
  | collRun => exact k_execCollRun
  | collRunGrad => exact k_execCollRunGrad
  | codeTableLoad => exact k_execCodeTableLoad
  | baseSet => exact k_execBaseSet
  | stepBegin => exact k_execStepBegin
  | stepCommit => exact k_execStepCommit
  | updateRun => exact k_execUpdateRun
  | excludeMember => exact k_execExcludeMember
  | snapshot => exact k_execSnapshot
  | restoreShard => exact k_execRestoreShard
  | exportShard => exact k_execExportShard
  | fillFromPeer => exact k_execFillFromPeer
  | digestCompare => exact k_execDigestCompare
  | selfTestArrayBist => exact k_execSelfTestArrayBist
  | selfTestRsMarch => exact k_execSelfTestRsMarch
  | selfTestLoopback => exact k_execSelfTestLoopback
  | selfTestWvCheck => exact k_execSelfTestWvCheck
  | calibrateThermal => exact k_execCalibrateThermal
  | calibrateHbmPhy => exact k_execCalibrateHbmPhy
  | calibrateSpeed => exact k_execCalibrateSpeed
  | deferredTestStart => exact k_execDeferredTestStart
  | deferTimeout => exact k_execDeferTimeout
  | readCounters => exact k_execReadCounters
  | faultRead => exact k_execFaultRead
  | faultClear => exact k_execFaultClear
  | escalationSet => exact k_execEscalationSet
  | escalationReturn => exact k_execEscalationReturn
  | fwStage => exact k_execFwStage
  | fwActivate => exact k_execFwActivate
  | attest => exact Bool.noConfusion h
  | certRead => exact k_execCertRead
  | pairBind => exact k_execPairBind
  | pairUnbind => exact k_execPairUnbind
  | pairBindTimeout => exact k_execPairBindTimeout
  | pairStatus => exact k_execPairStatus
  | resumePoint => exact k_execResumePoint
  | adminCfgWrite => exact k_execAdminCfgWrite
  | dbSqWrite => exact k_execDbSqWrite
  | dbCqWrite => exact k_execDbCqWrite
  | registerWrite => exact k_execRegisterWrite
  | programStart => exact k_execProgramStart
  | descFetch => exact k_execDescFetch
  | descIssue => exact k_execDescIssue
  | descComplete => exact k_execDescComplete
  | loadTile => exact k_execLoadTile
  | bankLoad => exact k_execBankLoad
  | loadw => exact k_execLoadw
  | gather => exact k_execGather
  | storeTile => exact k_execStoreTile
  | scatter => exact k_execScatter
  | mma => exact k_execMma
  | swap => exact k_execSwap
  | drain => exact k_execDrain
  | mmv => exact k_execMmv
  | vec => exact k_execVec
  | reduce => exact k_execReduce
  | sortKeys => exact k_execSortKeys
  | setins => exact k_execSetins
  | setprobe => exact k_execSetprobe
  | layerBegin => exact k_execLayerBegin
  | layerEnd => exact k_execLayerEnd
  | checkNext => exact k_execCheckNext
  | waitCtr => exact k_execWaitCtr
  | signalCtr => exact k_execSignalCtr
  | rodBarrier => exact k_execRodBarrier
  | syncTimeout => exact k_execSyncTimeout
  | tierHint => exact k_execTierHint
  | setPhase => exact k_execSetPhase
  | endProgram => exact k_execEndProgram
  | wvCompare => exact k_execWvCompare
  | speedMeasure => exact k_execSpeedMeasure
  | thermalGradientCheck => exact k_execThermalGradientCheck
  | timerefLoss => exact k_execTimerefLoss
  | timerefReturn => exact k_execTimerefReturn
  | heartbeatAdvance => exact k_execHeartbeatAdvance
  | heartbeatTimeout => exact k_execHeartbeatTimeout
  | watchdogChipReset => exact k_execWatchdogChipReset
  | faultMessage => exact k_execFaultMessage
  | powerCycleRepeat => exact k_execPowerCycleRepeat
  | fcParityError => exact k_execFcParityError
  | thermtrip => exact k_execThermtrip
  | engineReset => exact k_execEngineReset
  | partitionReset => exact k_execPartitionReset
  | chipReset => exact Bool.noConfusion h
  | replay => exact k_execReplay
  | pwrEnRise => exact k_execPwrEnRise
  | pwrEnFall => exact k_execPwrEnFall
  | conversionStop => exact Bool.noConfusion h
  | vin52Loss => exact Bool.noConfusion h
  | powerReading => exact Bool.noConfusion h
  | sensorRead => exact k_execSensorRead
  | convOvercurrent => exact k_execConvOvercurrent
  | convOvertemp => exact k_execConvOvertemp
  | convShutdown => exact Bool.noConfusion h
  | softStartDone => exact k_execSoftStartDone
  | rotSelfTest => exact k_execRotSelfTest
  | bootRomLoad => exact Bool.noConfusion h
  | firstStageStart => exact k_execFirstStageStart
  | configImageApply => exact k_execConfigImageApply
  | memoryTraining => exact k_execMemoryTraining
  | firmwareAreaPrepare => exact k_execFirmwareAreaPrepare
  | readyHigh => exact Bool.noConfusion h
  | hostLinkUp => exact k_execHostLinkUp
  | hostPortReset => exact k_execHostPortReset
  | sbGetStatus => exact k_execSbGetStatus
  | sbFaultRead => exact k_execSbFaultRead
  | resetChip => exact k_execResetChip
  | recoveryWrite => exact k_execRecoveryWrite
  | recoveryCommit => exact k_execRecoveryCommit
  | mctpControl => exact k_execMctpControl
  | pldmRequest => exact k_execPldmRequest
  | setdasa => exact k_execSetdasa
  | entdaa => exact k_execEntdaa
  | sbWriteRetry => exact k_execSbWriteRetry
  | doeDiscovery => exact k_execDoeDiscovery
  | getVersion => exact k_execGetVersion
  | getCapabilities => exact k_execGetCapabilities
  | negotiateAlgorithms => exact k_execNegotiateAlgorithms
  | getDigests => exact k_execGetDigests
  | getCertificate => exact k_execGetCertificate
  | challenge => exact Bool.noConfusion h
  | getMeasurements => exact Bool.noConfusion h
  | unsupportedRequest _ code => exact k_execUnsupportedRequest (u_code := code)
  | tokenRefill => exact Bool.noConfusion h
  | extest => exact k_execExtest
  | clamp => exact k_execClamp
  | highz => exact k_execHighz
  | bypass => exact k_execBypass
  | idcode => exact k_execIdcode
  | samplePreload => exact k_execSamplePreload
  | hbmRead => exact k_execHbmRead
  | hbmWrite => exact k_execHbmWrite
  | patrolScrub => exact k_execPatrolScrub
  | hbmCeRate => exact k_execHbmCeRate
  | phyCalibration => exact k_execPhyCalibration
  | csRequest => exact k_execCsRequest
  | rsWindowAccess => exact k_execRsWindowAccess
  | useReport => exact k_execUseReport
  | tierMiss => exact k_execTierMiss
  | pageArrival => exact k_execPageArrival
  | hintService => exact k_execHintService
  | tierStarvation => exact k_execTierStarvation
  | codewordRead => exact k_execCodewordRead
  | sourceTimeout => exact k_execSourceTimeout
  | tileCommit => exact k_execTileCommit
  | stripeCloseTimeout => exact k_execStripeCloseTimeout
  | mapCheckpoint => exact k_execMapCheckpoint
  | mountTier => exact k_execMountTier
  | staticWearLevel => exact k_execStaticWearLevel
  | readDisturbRefresh => exact k_execReadDisturbRefresh
  | retentionTick => exact k_execRetentionTick
  | readScan => exact k_execReadScan
  | dieFailure => exact k_execDieFailure
  | countedSlot => exact k_execCountedSlot
  | tallyStarvation => exact k_execTallyStarvation
  | trainingAttempt => exact k_execTrainingAttempt
  | trainingTimeout => exact k_execTrainingTimeout
  | hello => exact k_execHello
  | flitReceive => exact k_execFlitReceive
  | nak => exact k_execNak
  | ackTimeout => exact k_execAckTimeout
  | recoveryTimeout => exact k_execRecoveryTimeout
  | retryRateCheck => exact k_execRetryRateCheck
  | lossOfSignal => exact k_execLossOfSignal
  | peerSafe => exact k_execPeerSafe
  | packetForward => exact k_execPacketForward
  | noRoute => exact k_execNoRoute
  | escapeTimeout => exact k_execEscapeTimeout
  | sessionOpen => exact k_execSessionOpen
  | sessionAccept => exact k_execSessionAccept
  | ack => exact k_execAck
  | stale => exact k_execStale
  | retransmitTimeout => exact k_execRetransmitTimeout
  | streamTimeout => exact k_execStreamTimeout
  | tileWrite => exact k_execTileWrite
  | tileRead => exact k_execTileRead
  | tileData => exact k_execTileData
  | journalMsg => exact k_execJournalMsg
  | mirrorState => exact k_execMirrorState
  | snapCopy => exact k_execSnapCopy
  | remoteQuery => exact k_execRemoteQuery
  | remoteReply => exact k_execRemoteReply
  | excludeReq => exact k_execExcludeReq
  | admitReq => exact k_execAdmitReq
  | viewChange => exact k_execViewChange
  | viewQuery => exact k_execViewQuery
  | viewReply => exact k_execViewReply
  | arrive => exact k_execArrive
  | barrierRelease => exact k_execBarrierRelease
  | barrierStall => exact k_execBarrierStall
  | collReady => exact k_execCollReady
  | contrib => exact k_execContrib
  | landing => exact k_execLanding
  | collFinal => exact k_execCollFinal
  | collData => exact k_execCollData
  | resendReq => exact k_execResendReq
  | tableLoad => exact k_execTableLoad
  | tableRetire => exact k_execTableRetire
  | tableAck => exact k_execTableAck
  | normSum => exact k_execNormSum
  | recoveryExit => exact k_execRecoveryExit
  | vin52Sag => exact Bool.noConfusion h
  | vin52SagEnd => exact k_execVin52SagEnd
  | vin52Rise => exact Bool.noConfusion h
  | completionTimeOut => exact k_execCompletionTimeOut
  | journalStripeTimeout => exact k_execJournalStripeTimeout
  | controlStateRewrite => exact k_execControlStateRewrite
  | zlRefclkLoss => exact k_execZlRefclkLoss
  | pwrEnLowTimeEnd => exact k_execPwrEnLowTimeEnd

/-- A next state of such a command keeps them. -/
theorem kept_of_exec {c : Instr} {s t : State} (h : changesKept c = false) (e : exec c s = .next t) : kept t = kept s := by
  have k := k_exec c s h
  rw [e, outKept_next] at k
  exact Option.some.inj k

end Sys2Proof.Machine
end

