-- ==== Sys2Proof/Laws/Maps.lean ====
section
/-!
SUPPORT. The laws of maps and memory: reads after writes, and that every operation keeps the canonical form; the size of a
field read from bytes.
-/

namespace Sys2Proof.Machine

variable {α : Type}

/-! ### Finding what was written -/

@[simp] theorem mapFind_insert_self (m : FMap α) (k : Nat) (v : α) : mapFind (mapInsert m k v) k = some v := by
  induction m with
  | nil => simp [mapInsert, mapFind]
  | cons x m ih =>
    obtain ⟨j, w⟩ := x
    simp only [mapInsert]
    split
    · simp [mapFind]
    · split
      · simp [mapFind]
      · rename_i _ h
        simp [mapFind, Ne.symm h, ih]

theorem mapFind_insert_ne (m : FMap α) {k i : Nat} (v : α) (h : i ≠ k) : mapFind (mapInsert m k v) i = mapFind m i := by
  induction m with
  | nil => simp [mapInsert, mapFind, Ne.symm h]
  | cons x m ih =>
    obtain ⟨j, w⟩ := x
    simp only [mapInsert]
    split
    · simp [mapFind, Ne.symm h]
    · split
      · rename_i _ e
        subst e
        simp [mapFind, Ne.symm h]
      · simp only [mapFind, ih]

theorem mapFind_erase_ne (m : FMap α) {k i : Nat} (h : i ≠ k) : mapFind (mapErase m k) i = mapFind m i := by
  induction m with
  | nil => rfl
  | cons x m ih =>
    obtain ⟨j, w⟩ := x
    simp only [mapErase]
    split
    · rename_i e
      subst e
      simp [mapFind, Ne.symm h]
    · simp only [mapFind, ih]

/-! ### The canonical form -/

/-- The canonical form in words: keys strictly rising, no value equal to the default. -/
theorem mapWf_iff [DecidableEq α] (d : α) (m : FMap α) :
    mapWf d m = true ↔ m.Pairwise (fun x y => x.1 < y.1) ∧ ∀ x ∈ m, x.2 ≠ d := by
  induction m with
  | nil => simp [mapWf]
  | cons x m ih =>
    obtain ⟨j, v⟩ := x
    cases m with
    | nil => simp [mapWf]
    | cons y m =>
      obtain ⟨k, w⟩ := y
      simp only [mapWf, Bool.and_eq_true, decide_eq_true_eq, ih, List.pairwise_cons, List.mem_cons, forall_eq_or_imp]
      constructor
      · rintro ⟨⟨h1, h2⟩, ⟨⟨h3, h4⟩, h5, h6⟩⟩
        exact ⟨⟨⟨h2, fun a ha => Nat.lt_trans h2 (h3 a ha)⟩, h3, h4⟩, h1, h5, h6⟩
      · rintro ⟨⟨⟨h2, -⟩, h3, h4⟩, h1, h5, h6⟩
        exact ⟨⟨h1, h2⟩, ⟨h3, h4⟩, h5, h6⟩

theorem mem_mapErase (m : FMap α) (k : Nat) {x : Nat × α} (h : x ∈ mapErase m k) : x ∈ m := by
  induction m with
  | nil => exact h
  | cons y m ih =>
    simp only [mapErase] at h
    split at h
    · exact List.mem_cons_of_mem _ h
    · rcases List.mem_cons.1 h with e | e
      · exact e ▸ List.mem_cons_self
      · exact List.mem_cons_of_mem _ (ih e)

theorem mem_mapInsert (m : FMap α) (k : Nat) (v : α) {x : Nat × α} (h : x ∈ mapInsert m k v) : x = (k, v) ∨ x ∈ m := by
  induction m with
  | nil => exact .inl (by simpa [mapInsert] using h)
  | cons y m ih =>
    obtain ⟨j, w⟩ := y
    simp only [mapInsert] at h
    split at h
    · rcases List.mem_cons.1 h with e | e
      · exact .inl e
      · exact .inr e
    · split at h
      · rcases List.mem_cons.1 h with e | e
        · exact .inl e
        · exact .inr (List.mem_cons_of_mem _ e)
      · rcases List.mem_cons.1 h with e | e
        · exact .inr (e ▸ List.mem_cons_self)
        · exact (ih e).imp id (List.mem_cons_of_mem _)

theorem pairwise_erase (m : FMap α) (k : Nat) (h : m.Pairwise (fun x y => x.1 < y.1)) :
    (mapErase m k).Pairwise (fun x y => x.1 < y.1) := by
  induction m with
  | nil => exact h
  | cons y m ih =>
    rw [List.pairwise_cons] at h
    simp only [mapErase]
    split
    · exact h.2
    · exact List.pairwise_cons.2 ⟨fun a ha => h.1 a (mem_mapErase m k ha), ih h.2⟩

theorem pairwise_insert (m : FMap α) (k : Nat) (v : α) (h : m.Pairwise (fun x y => x.1 < y.1)) :
    (mapInsert m k v).Pairwise (fun x y => x.1 < y.1) := by
  induction m with
  | nil => simp [mapInsert]
  | cons y m ih =>
    obtain ⟨j, w⟩ := y
    have h' := List.pairwise_cons.1 h
    simp only [mapInsert]
    split
    · rename_i hk
      refine List.pairwise_cons.2 ⟨fun a ha => ?_, h⟩
      rcases List.mem_cons.1 ha with e | e
      · exact e ▸ hk
      · exact Nat.lt_trans hk (h'.1 a e)
    · split
      · rename_i _ e
        subst e
        exact List.pairwise_cons.2 h'
      · refine List.pairwise_cons.2 ⟨fun a ha => ?_, ih h'.2⟩
        rcases mem_mapInsert m k v ha with e | e
        · subst e
          simp only
          omega
        · exact h'.1 a e

theorem mapWf_erase [DecidableEq α] {d : α} {m : FMap α} (k : Nat) (h : mapWf d m = true) : mapWf d (mapErase m k) = true := by
  rw [mapWf_iff] at *
  exact ⟨pairwise_erase m k h.1, fun x hx => h.2 x (mem_mapErase m k hx)⟩

theorem mapWf_insert [DecidableEq α] {d : α} {m : FMap α} (k : Nat) {v : α} (hv : v ≠ d) (h : mapWf d m = true) :
    mapWf d (mapInsert m k v) = true := by
  rw [mapWf_iff] at *
  refine ⟨pairwise_insert m k v h.1, fun x hx => ?_⟩
  rcases mem_mapInsert m k v hx with e | e
  · exact e ▸ hv
  · exact h.2 x e

/-- Writing keeps the canonical form. -/
theorem mapWf_set [DecidableEq α] {d : α} {m : FMap α} (k : Nat) (v : α) (h : mapWf d m = true) : mapWf d (mapSet d m k v) = true := by
  simp only [mapSet]
  split
  · exact mapWf_erase k h
  · exact mapWf_insert k ‹_› h

theorem mapWf_mod [DecidableEq α] {d : α} {m : FMap α} (k : Nat) (f : α → α) (h : mapWf d m = true) : mapWf d (mapMod d m k f) = true :=
  mapWf_set k _ h

theorem mapWf_filter [DecidableEq α] {d : α} {m : FMap α} (p : Nat × α → Bool) (h : mapWf d m = true) : mapWf d (m.filter p) = true := by
  rw [mapWf_iff] at *
  exact ⟨h.1.filter p, fun x hx => h.2 x (List.mem_filter.1 hx).1⟩

theorem mapFind_erase_self [DecidableEq α] {d : α} {m : FMap α} (k : Nat) (h : mapWf d m = true) : mapFind (mapErase m k) k = none := by
  have hp := ((mapWf_iff d m).1 h).1
  clear h
  induction m with
  | nil => rfl
  | cons y m ih =>
    obtain ⟨j, w⟩ := y
    rw [List.pairwise_cons] at hp
    simp only [mapErase]
    split
    · rename_i e
      subst e
      have hm : ∀ x ∈ m, x.1 ≠ j := fun x hx => Nat.ne_of_gt (hp.1 x hx)
      clear ih hp
      induction m with
      | nil => rfl
      | cons z m ih2 =>
        have hz := hm z List.mem_cons_self
        simp only [mapFind]
        rw [if_neg hz]
        exact ih2 (fun x hx => hm x (List.mem_cons_of_mem _ hx))
    · rename_i e
      simp only [mapFind, if_neg e]
      exact ih hp.2

/-- A read after a write to the same place gives the value written. -/
theorem mapGet_set_self [DecidableEq α] {d : α} {m : FMap α} (k : Nat) (v : α) (h : mapWf d m = true) : mapGet d (mapSet d m k v) k = v := by
  simp only [mapGet, mapSet]
  split
  · rename_i e
    rw [mapFind_erase_self k h]
    exact e.symm
  · simp

/-- A write leaves every other place alone. -/
theorem mapGet_set_ne [DecidableEq α] (d : α) (m : FMap α) {k i : Nat} (v : α) (h : i ≠ k) : mapGet d (mapSet d m k v) i = mapGet d m i := by
  simp only [mapGet, mapSet]
  split
  · rw [mapFind_erase_ne m h]
  · rw [mapFind_insert_ne m v h]

/-! ### Memory -/

theorem memWrite_wf {m : Mem} (a : Nat) (bs : Bytes) (h : Memory.wf m = true) : Memory.wf (memWrite m a bs) = true := by
  induction bs generalizing m a with
  | nil => exact h
  | cons b bs ih => exact ih (a + 1) (mapWf_set a b h)

theorem memZero_wf {m : Mem} (a n : Nat) (h : Memory.wf m = true) : Memory.wf (memZero m a n) = true := mapWf_filter _ h

/-- A byte outside a run that is written keeps its value. -/
theorem memGet_write_out (m : Mem) (a : Nat) (bs : Bytes) {i : Nat} (h : i < a ∨ a + bs.length ≤ i) :
    memGet (memWrite m a bs) i = memGet m i := by
  induction bs generalizing m a with
  | nil => rfl
  | cons b bs ih =>
    simp only [List.length_cons] at h
    rw [memWrite, ih (memSet m a b) (a + 1) (by omega), memGet, mapGet_set_ne]
    omega

/-- A run that is written reads back. -/
theorem memRead_write {m : Mem} (a : Nat) (bs : Bytes) (h : Memory.wf m = true) : memRead (memWrite m a bs) a bs.length = bs := by
  induction bs generalizing m a with
  | nil => rfl
  | cons b bs ih =>
    have hw := mapWf_set a b h
    simp only [List.length_cons, memWrite, memRead]
    rw [ih (a + 1) hw, memGet_write_out _ _ _ (.inl (Nat.lt_succ_self a)), memGet, mapGet_set_self a b h]

/-! ### Fields of bytes -/

theorem leNat_lt (bs : Bytes) : leNat bs < 256 ^ bs.length := by
  induction bs with
  | nil => simp [leNat]
  | cons b bs ih =>
    simp only [leNat, List.length_cons, Nat.pow_succ]
    have := b.isLt
    omega

theorem byteSlice_length (bs : Bytes) (lo n : Nat) : (byteSlice bs lo n).length = n := by
  simp only [byteSlice, List.length_append, List.length_take, List.length_replicate]
  omega

/-- A field of `n` bytes is below 256 ^ n. -/
theorem fieldBytes_lt (bs : Bytes) (lo n : Nat) : fieldBytes bs lo n < 256 ^ n := by
  have h := leNat_lt (byteSlice bs lo n)
  rwa [byteSlice_length] at h

theorem Cmd.p_lt (c : Cmd) (lo n : Nat) : c.p lo n < 256 ^ n := fieldBytes_lt c.params lo n

end Sys2Proof.Machine
end

