-- ==== Sys2Proof/Laws/Run.lean ====
section
/-!
SUPPORT. When a command's body runs: each hypothesis of Sys2Proof/Safety.lean opens the wrapper that its commands share.
-/

namespace Sys2Proof.Machine

/-- A host command that may start runs its body. -/
theorem runCmd_of {s : State} {q seq op : Nat} {onCtx : Bool} {named : List (Nat × Nat)} {c : Cmd}
    (h : hostRuns s q seq op onCtx named c = true) (body : Cmd → State → State) :
    runCmd s q seq op onCtx named body = body c s := by
  simp only [hostRuns, Bool.and_eq_true, decide_eq_true_eq] at h
  obtain ⟨⟨⟨⟨⟨h1, h0⟩, h5⟩, h2⟩, h4⟩, h3⟩ := h
  have h0' : (c.needsHost && !linkUp s c.port) = false := by
    revert h0
    cases c.needsHost <;> cases linkUp s c.port <;> simp
  have h5' : c.stray = false := by simpa using h5
  cases onCtx <;> simp_all [runCmd]

/-- The same for the row of a sub-operation. -/
theorem runSub_of {s : State} {q seq op : Nat} {pick : Cmd → Bool} {onCtx : Bool} {named : List (Nat × Nat)} {c : Cmd}
    (h : hostRuns s q seq op onCtx named c = true) (hp : pick c = true) (body : Cmd → State → State) :
    runSub s q seq op pick onCtx named body = body c s := by
  have hs : startable s q seq op = some c := by
    simp only [hostRuns, Bool.and_eq_true, decide_eq_true_eq] at h
    exact h.1.1.1.1.1
  simp [runSub, hs, hp, runCmd_of h]

/-- A SET_PARAM that may start runs the body of its setting. -/
theorem setParam_of {s : State} {q seq param : Nat} {c : Cmd} (h : paramRuns s q seq param c = true)
    (body : Nat → Nat → Cmd → State → State) : setParam s q seq param body = body (c.p 4 4) (c.p 8 8) c s := by
  simp only [paramRuns, Bool.and_eq_true, decide_eq_true_eq] at h
  simp [setParam, runSub_of h.1, h.2]

/-- A descriptor that its unit may start has its effect, in the state that counts a corrected error. -/
theorem onUnit_of {s : State} {n u op : Nat} {r : Run} {f : Flight} (h : unitRuns s n u op r f = true) {e : Option Upset}
    (he : upsetOk e = true) (body : Run → Flight → State → State) :
    onUnit s n u op e body = body r f (afterUpset n e s) := by
  simp only [unitRuns, Bool.and_eq_true, decide_eq_true_eq, Bool.not_eq_true'] at h
  obtain ⟨⟨⟨⟨⟨h1, h2⟩, h3⟩, h4⟩, h5⟩, h6⟩ := h
  simp only [onUnit, h1, h2, h3, h4, h5, h6, Bool.or_self, Bool.false_eq_true, if_false, decide_true, Bool.and_self, if_true]
  cases e with
  | none => rfl
  | some x =>
    have hx : x.fixed = true := he
    simp [withUpset, hx, afterUpset]

/-- An error that is not corrected halts the program instead. -/
theorem onUnit_upset {s : State} {n u op : Nat} {r : Run} {f : Flight} (h : unitRuns s n u op r f = true) {e : Upset}
    (he : e.fixed = false) (body : Run → Flight → State → State) :
    onUnit s n u op (some e) body = haltRod n hUnavailable f.va f.word (raise (srcRsUe + n) 0 e.addr s) := by
  simp only [unitRuns, Bool.and_eq_true, decide_eq_true_eq, Bool.not_eq_true'] at h
  obtain ⟨⟨⟨⟨⟨h1, h2⟩, h3⟩, h4⟩, h5⟩, h6⟩ := h
  simp [onUnit, h1, h2, h3, h4, h5, h6, withUpset, he]

/-- A control descriptor whose AFTER mask holds has its effect. -/
theorem onCtl_of {s : State} {n op : Nat} {r : Run} {f : Flight} (h : ctlRuns s n op r f = true)
    (body : Run → Flight → State → State) : onCtl s n op body = body r f s := by
  simp only [ctlRuns, Bool.and_eq_true, decide_eq_true_eq, Bool.not_eq_true'] at h
  obtain ⟨⟨⟨⟨⟨h1, h2⟩, h3⟩, h4⟩, h5⟩, h6⟩ := h
  have h4' : r.halt = none := by simpa using h4
  simp [onCtl, h1, h2, h3, h4', h5, h6]

/-- The next message of a session has its effect, and is acknowledged or held. -/
theorem receive_of {s : State} {h : MsgHdr} {stream : Nat} (t : msgTurn s h stream = true) (row : Instr) (act : State → State × Option Bool) :
    receive row h stream act s =
      match (act s).2 with
      | none => keepMsg row h stream (act s).1
      | some refused => ackNow h.src stream h.mseq h.srcBoot refused (act s).1 := by
  simp only [msgTurn, Bool.and_eq_true, decide_eq_true_eq, Bool.not_eq_true'] at t
  obtain ⟨⟨⟨⟨⟨h0, h1⟩, h2⟩, h3⟩, h4⟩, h5⟩ := t
  simp [receive, h0, h1, h2, h3, h4, h5]
  all_goals (cases (act s).2 <;> rfl)

/-- A message of the pair from the partner, on a mirror port. -/
theorem receivePair_of {s : State} {h : MsgHdr} {stream : Nat} (t : msgTurn s h stream = true)
    (hp : s.jr.pair = .bound ∨ s.jr.pair = .binding) (hs : h.src = s.jr.partner) (hm : mirrorPort s h.port = true) (row : Instr)
    (act : State → State × Option Bool) : receivePair row h stream act s = receive row h stream act s := by
  have ha : arrived h s = true := by
    simp only [msgTurn, Bool.and_eq_true] at t
    exact t.1.1.1.1.2
  simp [receivePair, ha, hs, hm, hp]

/-- A MEMBER message of the group. -/
theorem memIn_of {s : State} {m : MemMsg} {x : Group} (t : memTurn s m x = true) (row : Instr) (k : Group → State → State × Option Bool) :
    memIn row m k s =
      match (k x s).2 with
      | none => keepMsg row m.hdr 0 (k x s).1
      | some refused => ackNow m.hdr.src 0 m.hdr.mseq m.hdr.srcBoot refused (k x s).1 := by
  simp only [memTurn, Bool.and_eq_true, decide_eq_true_eq] at t
  obtain ⟨⟨⟨h1, h2⟩, h3⟩, h4⟩ := t
  simp [memIn, receive_of h1, h2, h3, h4]

/-- What the turn of a COLL_STEP message says. -/
theorem collTurn_of {s : State} {m : CollMsg} {x : Group} (t : collTurn s m x = true) :
    msgTurn s m.hdr 1 = true ∧ collFrom s m = some x ∧ collStale x m = false := by
  simpa [collTurn, and_assoc] using t

/-- A message about code tables has its effect and is acknowledged. -/
theorem tableIn_of {s : State} {m : CollMsg} {x : Group} (t : collTurn s m x = true) (row : Instr) (k : Group → State → State) :
    tableIn row m k s = ackNow m.hdr.src 1 m.hdr.mseq m.hdr.srcBoot false (k x s) := by
  obtain ⟨h1, h2, h3⟩ := collTurn_of t
  simp [tableIn, receive_of h1, h2, h3]

/-- A COLL_STEP message for the run in progress. -/
theorem collIn_of {s : State} {m : CollMsg} {x : Group} {r : CollRun} (t : runTurn s m x r = true) (row : Instr)
    (k : Group → CollRun → State → State × Option Bool) :
    collIn row m k s =
      match (k x r s).2 with
      | none => keepMsg row m.hdr 1 (k x r s).1
      | some refused => ackNow m.hdr.src 1 m.hdr.mseq m.hdr.srcBoot refused (k x r s).1 := by
  simp only [runTurn, collTurn, Bool.and_eq_true, decide_eq_true_eq, Bool.not_eq_true'] at t
  obtain ⟨⟨⟨⟨h1, h2⟩, h3⟩, h4⟩, h5⟩ := t
  simp [collIn, receive_of h1, h2, h3, h4, h5]

/-- A message whose ranges do not make it wait has its effect. -/
theorem whenHere_of {s : State} {c : Nat} {rs : List Span} (h : noWait s c rs = true) (lost : State → State × Option Bool)
    (k : State → State × Option Bool) : whenHere c [] rs lost s k = k s := by
  simp only [noWait, Option.isNone_iff_eq_none] at h
  simp [whenHere, h]

end Sys2Proof.Machine
end

