-- ==== Sys2Proof/Laws/State.lean ====
section
/-!
SUPPORT. What each named update leaves as it was, field by field, and what a read after a write gives.
-/

namespace Sys2Proof.Machine

/-- The memory of State.reset is in its canonical form. -/
theorem reset_mem_wf : Memory.wf State.reset.mem = true := rfl

/-! `qSet` -/

@[simp] theorem qSet_sup (q : Nat) (x : Queue) (s : State) : (qSet q x s).sup = s.sup := rfl
@[simp] theorem qSet_clk (q : Nat) (x : Queue) (s : State) : (qSet q x s).clk = s.clk := rfl
@[simp] theorem qSet_trust (q : Nat) (x : Queue) (s : State) : (qSet q x s).trust = s.trust := rfl
@[simp] theorem qSet_side (q : Nat) (x : Queue) (s : State) : (qSet q x s).side = s.side := rfl
@[simp] theorem qSet_dev (q : Nat) (x : Queue) (s : State) : (qSet q x s).dev = s.dev := rfl
@[simp] theorem qSet_fc (q : Nat) (x : Queue) (s : State) : (qSet q x s).fc = s.fc := rfl
@[simp] theorem qSet_jr (q : Nat) (x : Queue) (s : State) : (qSet q x s).jr = s.jr := rfl
@[simp] theorem qSet_parts (q : Nat) (x : Queue) (s : State) : (qSet q x s).parts = s.parts := rfl
@[simp] theorem qSet_zl (q : Nat) (x : Queue) (s : State) : (qSet q x s).zl = s.zl := rfl
@[simp] theorem qSet_rods (q : Nat) (x : Queue) (s : State) : (qSet q x s).rods = s.rods := rfl
@[simp] theorem qSet_strata (q : Nat) (x : Queue) (s : State) : (qSet q x s).strata = s.strata := rfl
@[simp] theorem qSet_wvs (q : Nat) (x : Queue) (s : State) : (qSet q x s).wvs = s.wvs := rfl
@[simp] theorem qSet_launches (q : Nat) (x : Queue) (s : State) : (qSet q x s).launches = s.launches := rfl
@[simp] theorem qSet_engineNum (q : Nat) (x : Queue) (s : State) : (qSet q x s).engineNum = s.engineNum := rfl
@[simp] theorem qSet_landings (q : Nat) (x : Queue) (s : State) : (qSet q x s).landings = s.landings := rfl
@[simp] theorem qSet_near (q : Nat) (x : Queue) (s : State) : (qSet q x s).near = s.near := rfl
@[simp] theorem qSet_arbiters (q : Nat) (x : Queue) (s : State) : (qSet q x s).arbiters = s.arbiters := rfl
@[simp] theorem qSet_objects (q : Nat) (x : Queue) (s : State) : (qSet q x s).objects = s.objects := rfl
@[simp] theorem qSet_deep (q : Nat) (x : Queue) (s : State) : (qSet q x s).deep = s.deep := rfl
@[simp] theorem qSet_groups (q : Nat) (x : Queue) (s : State) : (qSet q x s).groups = s.groups := rfl
@[simp] theorem qSet_mem (q : Nat) (x : Queue) (s : State) : (qSet q x s).mem = s.mem := rfl
@[simp] theorem qSet_ctxs (q : Nat) (x : Queue) (s : State) : (qSet q x s).ctxs = s.ctxs := rfl
@[simp] theorem qSet_flushed (q : Nat) (x : Queue) (s : State) : (qSet q x s).flushed = s.flushed := rfl
@[simp] theorem qSet_stash (q : Nat) (x : Queue) (s : State) : (qSet q x s).stash = s.stash := rfl
@[simp] theorem qSet_free (q : Nat) (x : Queue) (s : State) : (qSet q x s).free = s.free := rfl
@[simp] theorem qSet_crossing (q : Nat) (x : Queue) (s : State) : (qSet q x s).crossing = s.crossing := rfl
@[simp] theorem qSet_pending (q : Nat) (x : Queue) (s : State) : (qSet q x s).pending = s.pending := rfl

/-! `bumpHost` -/

@[simp] theorem bumpHost_sup (p i : Nat) (s : State) : (bumpHost p i s).sup = s.sup := rfl
@[simp] theorem bumpHost_clk (p i : Nat) (s : State) : (bumpHost p i s).clk = s.clk := rfl
@[simp] theorem bumpHost_trust (p i : Nat) (s : State) : (bumpHost p i s).trust = s.trust := rfl
@[simp] theorem bumpHost_side (p i : Nat) (s : State) : (bumpHost p i s).side = s.side := rfl
@[simp] theorem bumpHost_dev (p i : Nat) (s : State) : (bumpHost p i s).dev = s.dev := rfl
@[simp] theorem bumpHost_fc (p i : Nat) (s : State) : (bumpHost p i s).fc = s.fc := rfl
@[simp] theorem bumpHost_jr (p i : Nat) (s : State) : (bumpHost p i s).jr = s.jr := rfl
@[simp] theorem bumpHost_parts (p i : Nat) (s : State) : (bumpHost p i s).parts = s.parts := rfl
@[simp] theorem bumpHost_zl (p i : Nat) (s : State) : (bumpHost p i s).zl = s.zl := rfl
@[simp] theorem bumpHost_rods (p i : Nat) (s : State) : (bumpHost p i s).rods = s.rods := rfl
@[simp] theorem bumpHost_strata (p i : Nat) (s : State) : (bumpHost p i s).strata = s.strata := rfl
@[simp] theorem bumpHost_wvs (p i : Nat) (s : State) : (bumpHost p i s).wvs = s.wvs := rfl
@[simp] theorem bumpHost_launches (p i : Nat) (s : State) : (bumpHost p i s).launches = s.launches := rfl
@[simp] theorem bumpHost_engineNum (p i : Nat) (s : State) : (bumpHost p i s).engineNum = s.engineNum := rfl
@[simp] theorem bumpHost_landings (p i : Nat) (s : State) : (bumpHost p i s).landings = s.landings := rfl
@[simp] theorem bumpHost_near (p i : Nat) (s : State) : (bumpHost p i s).near = s.near := rfl
@[simp] theorem bumpHost_arbiters (p i : Nat) (s : State) : (bumpHost p i s).arbiters = s.arbiters := rfl
@[simp] theorem bumpHost_objects (p i : Nat) (s : State) : (bumpHost p i s).objects = s.objects := rfl
@[simp] theorem bumpHost_deep (p i : Nat) (s : State) : (bumpHost p i s).deep = s.deep := rfl
@[simp] theorem bumpHost_groups (p i : Nat) (s : State) : (bumpHost p i s).groups = s.groups := rfl
@[simp] theorem bumpHost_mem (p i : Nat) (s : State) : (bumpHost p i s).mem = s.mem := rfl
@[simp] theorem bumpHost_ctxs (p i : Nat) (s : State) : (bumpHost p i s).ctxs = s.ctxs := rfl
@[simp] theorem bumpHost_flushed (p i : Nat) (s : State) : (bumpHost p i s).flushed = s.flushed := rfl
@[simp] theorem bumpHost_stash (p i : Nat) (s : State) : (bumpHost p i s).stash = s.stash := rfl
@[simp] theorem bumpHost_free (p i : Nat) (s : State) : (bumpHost p i s).free = s.free := rfl
@[simp] theorem bumpHost_crossing (p i : Nat) (s : State) : (bumpHost p i s).crossing = s.crossing := rfl
@[simp] theorem bumpHost_pending (p i : Nat) (s : State) : (bumpHost p i s).pending = s.pending := rfl

/-! `peerSet` -/

@[simp] theorem peerSet_sup (d : Nat) (x : Peer) (s : State) : (peerSet d x s).sup = s.sup := rfl
@[simp] theorem peerSet_clk (d : Nat) (x : Peer) (s : State) : (peerSet d x s).clk = s.clk := rfl
@[simp] theorem peerSet_trust (d : Nat) (x : Peer) (s : State) : (peerSet d x s).trust = s.trust := rfl
@[simp] theorem peerSet_side (d : Nat) (x : Peer) (s : State) : (peerSet d x s).side = s.side := rfl
@[simp] theorem peerSet_dev (d : Nat) (x : Peer) (s : State) : (peerSet d x s).dev = s.dev := rfl
@[simp] theorem peerSet_fc (d : Nat) (x : Peer) (s : State) : (peerSet d x s).fc = s.fc := rfl
@[simp] theorem peerSet_host (d : Nat) (x : Peer) (s : State) : (peerSet d x s).host = s.host := rfl
@[simp] theorem peerSet_jr (d : Nat) (x : Peer) (s : State) : (peerSet d x s).jr = s.jr := rfl
@[simp] theorem peerSet_parts (d : Nat) (x : Peer) (s : State) : (peerSet d x s).parts = s.parts := rfl
@[simp] theorem peerSet_rods (d : Nat) (x : Peer) (s : State) : (peerSet d x s).rods = s.rods := rfl
@[simp] theorem peerSet_strata (d : Nat) (x : Peer) (s : State) : (peerSet d x s).strata = s.strata := rfl
@[simp] theorem peerSet_wvs (d : Nat) (x : Peer) (s : State) : (peerSet d x s).wvs = s.wvs := rfl
@[simp] theorem peerSet_launches (d : Nat) (x : Peer) (s : State) : (peerSet d x s).launches = s.launches := rfl
@[simp] theorem peerSet_engineNum (d : Nat) (x : Peer) (s : State) : (peerSet d x s).engineNum = s.engineNum := rfl
@[simp] theorem peerSet_landings (d : Nat) (x : Peer) (s : State) : (peerSet d x s).landings = s.landings := rfl
@[simp] theorem peerSet_near (d : Nat) (x : Peer) (s : State) : (peerSet d x s).near = s.near := rfl
@[simp] theorem peerSet_arbiters (d : Nat) (x : Peer) (s : State) : (peerSet d x s).arbiters = s.arbiters := rfl
@[simp] theorem peerSet_objects (d : Nat) (x : Peer) (s : State) : (peerSet d x s).objects = s.objects := rfl
@[simp] theorem peerSet_deep (d : Nat) (x : Peer) (s : State) : (peerSet d x s).deep = s.deep := rfl
@[simp] theorem peerSet_groups (d : Nat) (x : Peer) (s : State) : (peerSet d x s).groups = s.groups := rfl
@[simp] theorem peerSet_mem (d : Nat) (x : Peer) (s : State) : (peerSet d x s).mem = s.mem := rfl
@[simp] theorem peerSet_ctxs (d : Nat) (x : Peer) (s : State) : (peerSet d x s).ctxs = s.ctxs := rfl
@[simp] theorem peerSet_flushed (d : Nat) (x : Peer) (s : State) : (peerSet d x s).flushed = s.flushed := rfl
@[simp] theorem peerSet_stash (d : Nat) (x : Peer) (s : State) : (peerSet d x s).stash = s.stash := rfl
@[simp] theorem peerSet_free (d : Nat) (x : Peer) (s : State) : (peerSet d x s).free = s.free := rfl
@[simp] theorem peerSet_crossing (d : Nat) (x : Peer) (s : State) : (peerSet d x s).crossing = s.crossing := rfl
@[simp] theorem peerSet_pending (d : Nat) (x : Peer) (s : State) : (peerSet d x s).pending = s.pending := rfl

/-! `queuePacket` -/

@[simp] theorem queuePacket_sup (p : Packet) (part : Nat) (s : State) : (queuePacket p part s).sup = s.sup := rfl
@[simp] theorem queuePacket_clk (p : Packet) (part : Nat) (s : State) : (queuePacket p part s).clk = s.clk := rfl
@[simp] theorem queuePacket_trust (p : Packet) (part : Nat) (s : State) : (queuePacket p part s).trust = s.trust := rfl
@[simp] theorem queuePacket_side (p : Packet) (part : Nat) (s : State) : (queuePacket p part s).side = s.side := rfl
@[simp] theorem queuePacket_dev (p : Packet) (part : Nat) (s : State) : (queuePacket p part s).dev = s.dev := rfl
@[simp] theorem queuePacket_fc (p : Packet) (part : Nat) (s : State) : (queuePacket p part s).fc = s.fc := rfl
@[simp] theorem queuePacket_host (p : Packet) (part : Nat) (s : State) : (queuePacket p part s).host = s.host := rfl
@[simp] theorem queuePacket_jr (p : Packet) (part : Nat) (s : State) : (queuePacket p part s).jr = s.jr := rfl
@[simp] theorem queuePacket_parts (p : Packet) (part : Nat) (s : State) : (queuePacket p part s).parts = s.parts := rfl
@[simp] theorem queuePacket_rods (p : Packet) (part : Nat) (s : State) : (queuePacket p part s).rods = s.rods := rfl
@[simp] theorem queuePacket_strata (p : Packet) (part : Nat) (s : State) : (queuePacket p part s).strata = s.strata := rfl
@[simp] theorem queuePacket_wvs (p : Packet) (part : Nat) (s : State) : (queuePacket p part s).wvs = s.wvs := rfl
@[simp] theorem queuePacket_launches (p : Packet) (part : Nat) (s : State) : (queuePacket p part s).launches = s.launches := rfl
@[simp] theorem queuePacket_engineNum (p : Packet) (part : Nat) (s : State) : (queuePacket p part s).engineNum = s.engineNum := rfl
@[simp] theorem queuePacket_landings (p : Packet) (part : Nat) (s : State) : (queuePacket p part s).landings = s.landings := rfl
@[simp] theorem queuePacket_near (p : Packet) (part : Nat) (s : State) : (queuePacket p part s).near = s.near := rfl
@[simp] theorem queuePacket_arbiters (p : Packet) (part : Nat) (s : State) : (queuePacket p part s).arbiters = s.arbiters := rfl
@[simp] theorem queuePacket_objects (p : Packet) (part : Nat) (s : State) : (queuePacket p part s).objects = s.objects := rfl
@[simp] theorem queuePacket_deep (p : Packet) (part : Nat) (s : State) : (queuePacket p part s).deep = s.deep := rfl
@[simp] theorem queuePacket_groups (p : Packet) (part : Nat) (s : State) : (queuePacket p part s).groups = s.groups := rfl
@[simp] theorem queuePacket_mem (p : Packet) (part : Nat) (s : State) : (queuePacket p part s).mem = s.mem := rfl
@[simp] theorem queuePacket_ctxs (p : Packet) (part : Nat) (s : State) : (queuePacket p part s).ctxs = s.ctxs := rfl
@[simp] theorem queuePacket_flushed (p : Packet) (part : Nat) (s : State) : (queuePacket p part s).flushed = s.flushed := rfl
@[simp] theorem queuePacket_stash (p : Packet) (part : Nat) (s : State) : (queuePacket p part s).stash = s.stash := rfl
@[simp] theorem queuePacket_free (p : Packet) (part : Nat) (s : State) : (queuePacket p part s).free = s.free := rfl
@[simp] theorem queuePacket_crossing (p : Packet) (part : Nat) (s : State) : (queuePacket p part s).crossing = s.crossing := rfl
@[simp] theorem queuePacket_pending (p : Packet) (part : Nat) (s : State) : (queuePacket p part s).pending = s.pending := rfl

/-! `zlBump` -/

@[simp] theorem zlBump_sup (k n : Nat) (s : State) : (zlBump k n s).sup = s.sup := rfl
@[simp] theorem zlBump_clk (k n : Nat) (s : State) : (zlBump k n s).clk = s.clk := rfl
@[simp] theorem zlBump_trust (k n : Nat) (s : State) : (zlBump k n s).trust = s.trust := rfl
@[simp] theorem zlBump_side (k n : Nat) (s : State) : (zlBump k n s).side = s.side := rfl
@[simp] theorem zlBump_dev (k n : Nat) (s : State) : (zlBump k n s).dev = s.dev := rfl
@[simp] theorem zlBump_fc (k n : Nat) (s : State) : (zlBump k n s).fc = s.fc := rfl
@[simp] theorem zlBump_host (k n : Nat) (s : State) : (zlBump k n s).host = s.host := rfl
@[simp] theorem zlBump_jr (k n : Nat) (s : State) : (zlBump k n s).jr = s.jr := rfl
@[simp] theorem zlBump_parts (k n : Nat) (s : State) : (zlBump k n s).parts = s.parts := rfl
@[simp] theorem zlBump_rods (k n : Nat) (s : State) : (zlBump k n s).rods = s.rods := rfl
@[simp] theorem zlBump_strata (k n : Nat) (s : State) : (zlBump k n s).strata = s.strata := rfl
@[simp] theorem zlBump_wvs (k n : Nat) (s : State) : (zlBump k n s).wvs = s.wvs := rfl
@[simp] theorem zlBump_launches (k n : Nat) (s : State) : (zlBump k n s).launches = s.launches := rfl
@[simp] theorem zlBump_engineNum (k n : Nat) (s : State) : (zlBump k n s).engineNum = s.engineNum := rfl
@[simp] theorem zlBump_landings (k n : Nat) (s : State) : (zlBump k n s).landings = s.landings := rfl
@[simp] theorem zlBump_near (k n : Nat) (s : State) : (zlBump k n s).near = s.near := rfl
@[simp] theorem zlBump_arbiters (k n : Nat) (s : State) : (zlBump k n s).arbiters = s.arbiters := rfl
@[simp] theorem zlBump_objects (k n : Nat) (s : State) : (zlBump k n s).objects = s.objects := rfl
@[simp] theorem zlBump_deep (k n : Nat) (s : State) : (zlBump k n s).deep = s.deep := rfl
@[simp] theorem zlBump_groups (k n : Nat) (s : State) : (zlBump k n s).groups = s.groups := rfl
@[simp] theorem zlBump_mem (k n : Nat) (s : State) : (zlBump k n s).mem = s.mem := rfl
@[simp] theorem zlBump_ctxs (k n : Nat) (s : State) : (zlBump k n s).ctxs = s.ctxs := rfl
@[simp] theorem zlBump_flushed (k n : Nat) (s : State) : (zlBump k n s).flushed = s.flushed := rfl
@[simp] theorem zlBump_stash (k n : Nat) (s : State) : (zlBump k n s).stash = s.stash := rfl
@[simp] theorem zlBump_free (k n : Nat) (s : State) : (zlBump k n s).free = s.free := rfl
@[simp] theorem zlBump_crossing (k n : Nat) (s : State) : (zlBump k n s).crossing = s.crossing := rfl
@[simp] theorem zlBump_pending (k n : Nat) (s : State) : (zlBump k n s).pending = s.pending := rfl

/-! `portMod` -/

@[simp] theorem portMod_sup (p : Nat) (f : Port → Port) (s : State) : (portMod p f s).sup = s.sup := rfl
@[simp] theorem portMod_clk (p : Nat) (f : Port → Port) (s : State) : (portMod p f s).clk = s.clk := rfl
@[simp] theorem portMod_trust (p : Nat) (f : Port → Port) (s : State) : (portMod p f s).trust = s.trust := rfl
@[simp] theorem portMod_side (p : Nat) (f : Port → Port) (s : State) : (portMod p f s).side = s.side := rfl
@[simp] theorem portMod_dev (p : Nat) (f : Port → Port) (s : State) : (portMod p f s).dev = s.dev := rfl
@[simp] theorem portMod_fc (p : Nat) (f : Port → Port) (s : State) : (portMod p f s).fc = s.fc := rfl
@[simp] theorem portMod_host (p : Nat) (f : Port → Port) (s : State) : (portMod p f s).host = s.host := rfl
@[simp] theorem portMod_jr (p : Nat) (f : Port → Port) (s : State) : (portMod p f s).jr = s.jr := rfl
@[simp] theorem portMod_parts (p : Nat) (f : Port → Port) (s : State) : (portMod p f s).parts = s.parts := rfl
@[simp] theorem portMod_rods (p : Nat) (f : Port → Port) (s : State) : (portMod p f s).rods = s.rods := rfl
@[simp] theorem portMod_strata (p : Nat) (f : Port → Port) (s : State) : (portMod p f s).strata = s.strata := rfl
@[simp] theorem portMod_wvs (p : Nat) (f : Port → Port) (s : State) : (portMod p f s).wvs = s.wvs := rfl
@[simp] theorem portMod_launches (p : Nat) (f : Port → Port) (s : State) : (portMod p f s).launches = s.launches := rfl
@[simp] theorem portMod_engineNum (p : Nat) (f : Port → Port) (s : State) : (portMod p f s).engineNum = s.engineNum := rfl
@[simp] theorem portMod_landings (p : Nat) (f : Port → Port) (s : State) : (portMod p f s).landings = s.landings := rfl
@[simp] theorem portMod_near (p : Nat) (f : Port → Port) (s : State) : (portMod p f s).near = s.near := rfl
@[simp] theorem portMod_arbiters (p : Nat) (f : Port → Port) (s : State) : (portMod p f s).arbiters = s.arbiters := rfl
@[simp] theorem portMod_objects (p : Nat) (f : Port → Port) (s : State) : (portMod p f s).objects = s.objects := rfl
@[simp] theorem portMod_deep (p : Nat) (f : Port → Port) (s : State) : (portMod p f s).deep = s.deep := rfl
@[simp] theorem portMod_groups (p : Nat) (f : Port → Port) (s : State) : (portMod p f s).groups = s.groups := rfl
@[simp] theorem portMod_mem (p : Nat) (f : Port → Port) (s : State) : (portMod p f s).mem = s.mem := rfl
@[simp] theorem portMod_ctxs (p : Nat) (f : Port → Port) (s : State) : (portMod p f s).ctxs = s.ctxs := rfl
@[simp] theorem portMod_flushed (p : Nat) (f : Port → Port) (s : State) : (portMod p f s).flushed = s.flushed := rfl
@[simp] theorem portMod_stash (p : Nat) (f : Port → Port) (s : State) : (portMod p f s).stash = s.stash := rfl
@[simp] theorem portMod_free (p : Nat) (f : Port → Port) (s : State) : (portMod p f s).free = s.free := rfl
@[simp] theorem portMod_crossing (p : Nat) (f : Port → Port) (s : State) : (portMod p f s).crossing = s.crossing := rfl
@[simp] theorem portMod_pending (p : Nat) (f : Port → Port) (s : State) : (portMod p f s).pending = s.pending := rfl

/-! `setSlot` -/

@[simp] theorem setSlot_sup (q seq : Nat) (x : Slot) (s : State) : (setSlot q seq x s).sup = s.sup := rfl
@[simp] theorem setSlot_clk (q seq : Nat) (x : Slot) (s : State) : (setSlot q seq x s).clk = s.clk := rfl
@[simp] theorem setSlot_trust (q seq : Nat) (x : Slot) (s : State) : (setSlot q seq x s).trust = s.trust := rfl
@[simp] theorem setSlot_side (q seq : Nat) (x : Slot) (s : State) : (setSlot q seq x s).side = s.side := rfl
@[simp] theorem setSlot_dev (q seq : Nat) (x : Slot) (s : State) : (setSlot q seq x s).dev = s.dev := rfl
@[simp] theorem setSlot_fc (q seq : Nat) (x : Slot) (s : State) : (setSlot q seq x s).fc = s.fc := rfl
@[simp] theorem setSlot_host (q seq : Nat) (x : Slot) (s : State) : (setSlot q seq x s).host = s.host := rfl
@[simp] theorem setSlot_parts (q seq : Nat) (x : Slot) (s : State) : (setSlot q seq x s).parts = s.parts := rfl
@[simp] theorem setSlot_zl (q seq : Nat) (x : Slot) (s : State) : (setSlot q seq x s).zl = s.zl := rfl
@[simp] theorem setSlot_rods (q seq : Nat) (x : Slot) (s : State) : (setSlot q seq x s).rods = s.rods := rfl
@[simp] theorem setSlot_strata (q seq : Nat) (x : Slot) (s : State) : (setSlot q seq x s).strata = s.strata := rfl
@[simp] theorem setSlot_wvs (q seq : Nat) (x : Slot) (s : State) : (setSlot q seq x s).wvs = s.wvs := rfl
@[simp] theorem setSlot_launches (q seq : Nat) (x : Slot) (s : State) : (setSlot q seq x s).launches = s.launches := rfl
@[simp] theorem setSlot_engineNum (q seq : Nat) (x : Slot) (s : State) : (setSlot q seq x s).engineNum = s.engineNum := rfl
@[simp] theorem setSlot_landings (q seq : Nat) (x : Slot) (s : State) : (setSlot q seq x s).landings = s.landings := rfl
@[simp] theorem setSlot_near (q seq : Nat) (x : Slot) (s : State) : (setSlot q seq x s).near = s.near := rfl
@[simp] theorem setSlot_arbiters (q seq : Nat) (x : Slot) (s : State) : (setSlot q seq x s).arbiters = s.arbiters := rfl
@[simp] theorem setSlot_objects (q seq : Nat) (x : Slot) (s : State) : (setSlot q seq x s).objects = s.objects := rfl
@[simp] theorem setSlot_deep (q seq : Nat) (x : Slot) (s : State) : (setSlot q seq x s).deep = s.deep := rfl
@[simp] theorem setSlot_groups (q seq : Nat) (x : Slot) (s : State) : (setSlot q seq x s).groups = s.groups := rfl
@[simp] theorem setSlot_mem (q seq : Nat) (x : Slot) (s : State) : (setSlot q seq x s).mem = s.mem := rfl
@[simp] theorem setSlot_ctxs (q seq : Nat) (x : Slot) (s : State) : (setSlot q seq x s).ctxs = s.ctxs := rfl
@[simp] theorem setSlot_flushed (q seq : Nat) (x : Slot) (s : State) : (setSlot q seq x s).flushed = s.flushed := rfl
@[simp] theorem setSlot_stash (q seq : Nat) (x : Slot) (s : State) : (setSlot q seq x s).stash = s.stash := rfl
@[simp] theorem setSlot_free (q seq : Nat) (x : Slot) (s : State) : (setSlot q seq x s).free = s.free := rfl
@[simp] theorem setSlot_crossing (q seq : Nat) (x : Slot) (s : State) : (setSlot q seq x s).crossing = s.crossing := rfl
@[simp] theorem setSlot_pending (q seq : Nat) (x : Slot) (s : State) : (setSlot q seq x s).pending = s.pending := rfl

/-! `ringMod` -/

@[simp] theorem ringMod_sup (j : Nat) (f : Cmd → Cmd) (s : State) : (ringMod j f s).sup = s.sup := rfl
@[simp] theorem ringMod_clk (j : Nat) (f : Cmd → Cmd) (s : State) : (ringMod j f s).clk = s.clk := rfl
@[simp] theorem ringMod_trust (j : Nat) (f : Cmd → Cmd) (s : State) : (ringMod j f s).trust = s.trust := rfl
@[simp] theorem ringMod_side (j : Nat) (f : Cmd → Cmd) (s : State) : (ringMod j f s).side = s.side := rfl
@[simp] theorem ringMod_dev (j : Nat) (f : Cmd → Cmd) (s : State) : (ringMod j f s).dev = s.dev := rfl
@[simp] theorem ringMod_fc (j : Nat) (f : Cmd → Cmd) (s : State) : (ringMod j f s).fc = s.fc := rfl
@[simp] theorem ringMod_host (j : Nat) (f : Cmd → Cmd) (s : State) : (ringMod j f s).host = s.host := rfl
@[simp] theorem ringMod_parts (j : Nat) (f : Cmd → Cmd) (s : State) : (ringMod j f s).parts = s.parts := rfl
@[simp] theorem ringMod_zl (j : Nat) (f : Cmd → Cmd) (s : State) : (ringMod j f s).zl = s.zl := rfl
@[simp] theorem ringMod_rods (j : Nat) (f : Cmd → Cmd) (s : State) : (ringMod j f s).rods = s.rods := rfl
@[simp] theorem ringMod_strata (j : Nat) (f : Cmd → Cmd) (s : State) : (ringMod j f s).strata = s.strata := rfl
@[simp] theorem ringMod_wvs (j : Nat) (f : Cmd → Cmd) (s : State) : (ringMod j f s).wvs = s.wvs := rfl
@[simp] theorem ringMod_launches (j : Nat) (f : Cmd → Cmd) (s : State) : (ringMod j f s).launches = s.launches := rfl
@[simp] theorem ringMod_engineNum (j : Nat) (f : Cmd → Cmd) (s : State) : (ringMod j f s).engineNum = s.engineNum := rfl
@[simp] theorem ringMod_landings (j : Nat) (f : Cmd → Cmd) (s : State) : (ringMod j f s).landings = s.landings := rfl
@[simp] theorem ringMod_near (j : Nat) (f : Cmd → Cmd) (s : State) : (ringMod j f s).near = s.near := rfl
@[simp] theorem ringMod_arbiters (j : Nat) (f : Cmd → Cmd) (s : State) : (ringMod j f s).arbiters = s.arbiters := rfl
@[simp] theorem ringMod_objects (j : Nat) (f : Cmd → Cmd) (s : State) : (ringMod j f s).objects = s.objects := rfl
@[simp] theorem ringMod_deep (j : Nat) (f : Cmd → Cmd) (s : State) : (ringMod j f s).deep = s.deep := rfl
@[simp] theorem ringMod_groups (j : Nat) (f : Cmd → Cmd) (s : State) : (ringMod j f s).groups = s.groups := rfl
@[simp] theorem ringMod_mem (j : Nat) (f : Cmd → Cmd) (s : State) : (ringMod j f s).mem = s.mem := rfl
@[simp] theorem ringMod_ctxs (j : Nat) (f : Cmd → Cmd) (s : State) : (ringMod j f s).ctxs = s.ctxs := rfl
@[simp] theorem ringMod_flushed (j : Nat) (f : Cmd → Cmd) (s : State) : (ringMod j f s).flushed = s.flushed := rfl
@[simp] theorem ringMod_stash (j : Nat) (f : Cmd → Cmd) (s : State) : (ringMod j f s).stash = s.stash := rfl
@[simp] theorem ringMod_free (j : Nat) (f : Cmd → Cmd) (s : State) : (ringMod j f s).free = s.free := rfl
@[simp] theorem ringMod_crossing (j : Nat) (f : Cmd → Cmd) (s : State) : (ringMod j f s).crossing = s.crossing := rfl
@[simp] theorem ringMod_pending (j : Nat) (f : Cmd → Cmd) (s : State) : (ringMod j f s).pending = s.pending := rfl

/-! `begun` -/

@[simp] theorem begun_sup (c : Cmd) (s : State) : (begun c s).sup = s.sup := rfl
@[simp] theorem begun_clk (c : Cmd) (s : State) : (begun c s).clk = s.clk := rfl
@[simp] theorem begun_trust (c : Cmd) (s : State) : (begun c s).trust = s.trust := rfl
@[simp] theorem begun_side (c : Cmd) (s : State) : (begun c s).side = s.side := rfl
@[simp] theorem begun_dev (c : Cmd) (s : State) : (begun c s).dev = s.dev := rfl
@[simp] theorem begun_fc (c : Cmd) (s : State) : (begun c s).fc = s.fc := rfl
@[simp] theorem begun_host (c : Cmd) (s : State) : (begun c s).host = s.host := rfl
@[simp] theorem begun_parts (c : Cmd) (s : State) : (begun c s).parts = s.parts := rfl
@[simp] theorem begun_zl (c : Cmd) (s : State) : (begun c s).zl = s.zl := rfl
@[simp] theorem begun_rods (c : Cmd) (s : State) : (begun c s).rods = s.rods := rfl
@[simp] theorem begun_strata (c : Cmd) (s : State) : (begun c s).strata = s.strata := rfl
@[simp] theorem begun_wvs (c : Cmd) (s : State) : (begun c s).wvs = s.wvs := rfl
@[simp] theorem begun_launches (c : Cmd) (s : State) : (begun c s).launches = s.launches := rfl
@[simp] theorem begun_engineNum (c : Cmd) (s : State) : (begun c s).engineNum = s.engineNum := rfl
@[simp] theorem begun_landings (c : Cmd) (s : State) : (begun c s).landings = s.landings := rfl
@[simp] theorem begun_near (c : Cmd) (s : State) : (begun c s).near = s.near := rfl
@[simp] theorem begun_arbiters (c : Cmd) (s : State) : (begun c s).arbiters = s.arbiters := rfl
@[simp] theorem begun_objects (c : Cmd) (s : State) : (begun c s).objects = s.objects := rfl
@[simp] theorem begun_deep (c : Cmd) (s : State) : (begun c s).deep = s.deep := rfl
@[simp] theorem begun_groups (c : Cmd) (s : State) : (begun c s).groups = s.groups := rfl
@[simp] theorem begun_mem (c : Cmd) (s : State) : (begun c s).mem = s.mem := rfl
@[simp] theorem begun_ctxs (c : Cmd) (s : State) : (begun c s).ctxs = s.ctxs := rfl
@[simp] theorem begun_flushed (c : Cmd) (s : State) : (begun c s).flushed = s.flushed := rfl
@[simp] theorem begun_stash (c : Cmd) (s : State) : (begun c s).stash = s.stash := rfl
@[simp] theorem begun_free (c : Cmd) (s : State) : (begun c s).free = s.free := rfl
@[simp] theorem begun_crossing (c : Cmd) (s : State) : (begun c s).crossing = s.crossing := rfl
@[simp] theorem begun_pending (c : Cmd) (s : State) : (begun c s).pending = s.pending := rfl

/-! `ctxSet` -/

@[simp] theorem ctxSet_sup (c : Nat) (x : Ctx) (s : State) : (ctxSet c x s).sup = s.sup := rfl
@[simp] theorem ctxSet_clk (c : Nat) (x : Ctx) (s : State) : (ctxSet c x s).clk = s.clk := rfl
@[simp] theorem ctxSet_trust (c : Nat) (x : Ctx) (s : State) : (ctxSet c x s).trust = s.trust := rfl
@[simp] theorem ctxSet_side (c : Nat) (x : Ctx) (s : State) : (ctxSet c x s).side = s.side := rfl
@[simp] theorem ctxSet_dev (c : Nat) (x : Ctx) (s : State) : (ctxSet c x s).dev = s.dev := rfl
@[simp] theorem ctxSet_fc (c : Nat) (x : Ctx) (s : State) : (ctxSet c x s).fc = s.fc := rfl
@[simp] theorem ctxSet_host (c : Nat) (x : Ctx) (s : State) : (ctxSet c x s).host = s.host := rfl
@[simp] theorem ctxSet_jr (c : Nat) (x : Ctx) (s : State) : (ctxSet c x s).jr = s.jr := rfl
@[simp] theorem ctxSet_parts (c : Nat) (x : Ctx) (s : State) : (ctxSet c x s).parts = s.parts := rfl
@[simp] theorem ctxSet_zl (c : Nat) (x : Ctx) (s : State) : (ctxSet c x s).zl = s.zl := rfl
@[simp] theorem ctxSet_rods (c : Nat) (x : Ctx) (s : State) : (ctxSet c x s).rods = s.rods := rfl
@[simp] theorem ctxSet_strata (c : Nat) (x : Ctx) (s : State) : (ctxSet c x s).strata = s.strata := rfl
@[simp] theorem ctxSet_wvs (c : Nat) (x : Ctx) (s : State) : (ctxSet c x s).wvs = s.wvs := rfl
@[simp] theorem ctxSet_launches (c : Nat) (x : Ctx) (s : State) : (ctxSet c x s).launches = s.launches := rfl
@[simp] theorem ctxSet_engineNum (c : Nat) (x : Ctx) (s : State) : (ctxSet c x s).engineNum = s.engineNum := rfl
@[simp] theorem ctxSet_landings (c : Nat) (x : Ctx) (s : State) : (ctxSet c x s).landings = s.landings := rfl
@[simp] theorem ctxSet_near (c : Nat) (x : Ctx) (s : State) : (ctxSet c x s).near = s.near := rfl
@[simp] theorem ctxSet_arbiters (c : Nat) (x : Ctx) (s : State) : (ctxSet c x s).arbiters = s.arbiters := rfl
@[simp] theorem ctxSet_objects (c : Nat) (x : Ctx) (s : State) : (ctxSet c x s).objects = s.objects := rfl
@[simp] theorem ctxSet_deep (c : Nat) (x : Ctx) (s : State) : (ctxSet c x s).deep = s.deep := rfl
@[simp] theorem ctxSet_groups (c : Nat) (x : Ctx) (s : State) : (ctxSet c x s).groups = s.groups := rfl
@[simp] theorem ctxSet_mem (c : Nat) (x : Ctx) (s : State) : (ctxSet c x s).mem = s.mem := rfl
@[simp] theorem ctxSet_flushed (c : Nat) (x : Ctx) (s : State) : (ctxSet c x s).flushed = s.flushed := rfl
@[simp] theorem ctxSet_stash (c : Nat) (x : Ctx) (s : State) : (ctxSet c x s).stash = s.stash := rfl
@[simp] theorem ctxSet_free (c : Nat) (x : Ctx) (s : State) : (ctxSet c x s).free = s.free := rfl
@[simp] theorem ctxSet_crossing (c : Nat) (x : Ctx) (s : State) : (ctxSet c x s).crossing = s.crossing := rfl
@[simp] theorem ctxSet_pending (c : Nat) (x : Ctx) (s : State) : (ctxSet c x s).pending = s.pending := rfl

/-! `rodSet` -/

@[simp] theorem rodSet_sup (n : Nat) (x : Rod) (s : State) : (rodSet n x s).sup = s.sup := rfl
@[simp] theorem rodSet_clk (n : Nat) (x : Rod) (s : State) : (rodSet n x s).clk = s.clk := rfl
@[simp] theorem rodSet_trust (n : Nat) (x : Rod) (s : State) : (rodSet n x s).trust = s.trust := rfl
@[simp] theorem rodSet_side (n : Nat) (x : Rod) (s : State) : (rodSet n x s).side = s.side := rfl
@[simp] theorem rodSet_dev (n : Nat) (x : Rod) (s : State) : (rodSet n x s).dev = s.dev := rfl
@[simp] theorem rodSet_fc (n : Nat) (x : Rod) (s : State) : (rodSet n x s).fc = s.fc := rfl
@[simp] theorem rodSet_host (n : Nat) (x : Rod) (s : State) : (rodSet n x s).host = s.host := rfl
@[simp] theorem rodSet_jr (n : Nat) (x : Rod) (s : State) : (rodSet n x s).jr = s.jr := rfl
@[simp] theorem rodSet_parts (n : Nat) (x : Rod) (s : State) : (rodSet n x s).parts = s.parts := rfl
@[simp] theorem rodSet_zl (n : Nat) (x : Rod) (s : State) : (rodSet n x s).zl = s.zl := rfl
@[simp] theorem rodSet_strata (n : Nat) (x : Rod) (s : State) : (rodSet n x s).strata = s.strata := rfl
@[simp] theorem rodSet_wvs (n : Nat) (x : Rod) (s : State) : (rodSet n x s).wvs = s.wvs := rfl
@[simp] theorem rodSet_launches (n : Nat) (x : Rod) (s : State) : (rodSet n x s).launches = s.launches := rfl
@[simp] theorem rodSet_engineNum (n : Nat) (x : Rod) (s : State) : (rodSet n x s).engineNum = s.engineNum := rfl
@[simp] theorem rodSet_landings (n : Nat) (x : Rod) (s : State) : (rodSet n x s).landings = s.landings := rfl
@[simp] theorem rodSet_near (n : Nat) (x : Rod) (s : State) : (rodSet n x s).near = s.near := rfl
@[simp] theorem rodSet_arbiters (n : Nat) (x : Rod) (s : State) : (rodSet n x s).arbiters = s.arbiters := rfl
@[simp] theorem rodSet_objects (n : Nat) (x : Rod) (s : State) : (rodSet n x s).objects = s.objects := rfl
@[simp] theorem rodSet_deep (n : Nat) (x : Rod) (s : State) : (rodSet n x s).deep = s.deep := rfl
@[simp] theorem rodSet_groups (n : Nat) (x : Rod) (s : State) : (rodSet n x s).groups = s.groups := rfl
@[simp] theorem rodSet_mem (n : Nat) (x : Rod) (s : State) : (rodSet n x s).mem = s.mem := rfl
@[simp] theorem rodSet_ctxs (n : Nat) (x : Rod) (s : State) : (rodSet n x s).ctxs = s.ctxs := rfl
@[simp] theorem rodSet_flushed (n : Nat) (x : Rod) (s : State) : (rodSet n x s).flushed = s.flushed := rfl
@[simp] theorem rodSet_stash (n : Nat) (x : Rod) (s : State) : (rodSet n x s).stash = s.stash := rfl
@[simp] theorem rodSet_free (n : Nat) (x : Rod) (s : State) : (rodSet n x s).free = s.free := rfl
@[simp] theorem rodSet_crossing (n : Nat) (x : Rod) (s : State) : (rodSet n x s).crossing = s.crossing := rfl
@[simp] theorem rodSet_pending (n : Nat) (x : Rod) (s : State) : (rodSet n x s).pending = s.pending := rfl

/-! `rodMod` -/

@[simp] theorem rodMod_sup (n : Nat) (f : Rod → Rod) (s : State) : (rodMod n f s).sup = s.sup := rfl
@[simp] theorem rodMod_clk (n : Nat) (f : Rod → Rod) (s : State) : (rodMod n f s).clk = s.clk := rfl
@[simp] theorem rodMod_trust (n : Nat) (f : Rod → Rod) (s : State) : (rodMod n f s).trust = s.trust := rfl
@[simp] theorem rodMod_side (n : Nat) (f : Rod → Rod) (s : State) : (rodMod n f s).side = s.side := rfl
@[simp] theorem rodMod_dev (n : Nat) (f : Rod → Rod) (s : State) : (rodMod n f s).dev = s.dev := rfl
@[simp] theorem rodMod_fc (n : Nat) (f : Rod → Rod) (s : State) : (rodMod n f s).fc = s.fc := rfl
@[simp] theorem rodMod_host (n : Nat) (f : Rod → Rod) (s : State) : (rodMod n f s).host = s.host := rfl
@[simp] theorem rodMod_jr (n : Nat) (f : Rod → Rod) (s : State) : (rodMod n f s).jr = s.jr := rfl
@[simp] theorem rodMod_parts (n : Nat) (f : Rod → Rod) (s : State) : (rodMod n f s).parts = s.parts := rfl
@[simp] theorem rodMod_zl (n : Nat) (f : Rod → Rod) (s : State) : (rodMod n f s).zl = s.zl := rfl
@[simp] theorem rodMod_strata (n : Nat) (f : Rod → Rod) (s : State) : (rodMod n f s).strata = s.strata := rfl
@[simp] theorem rodMod_wvs (n : Nat) (f : Rod → Rod) (s : State) : (rodMod n f s).wvs = s.wvs := rfl
@[simp] theorem rodMod_launches (n : Nat) (f : Rod → Rod) (s : State) : (rodMod n f s).launches = s.launches := rfl
@[simp] theorem rodMod_engineNum (n : Nat) (f : Rod → Rod) (s : State) : (rodMod n f s).engineNum = s.engineNum := rfl
@[simp] theorem rodMod_landings (n : Nat) (f : Rod → Rod) (s : State) : (rodMod n f s).landings = s.landings := rfl
@[simp] theorem rodMod_near (n : Nat) (f : Rod → Rod) (s : State) : (rodMod n f s).near = s.near := rfl
@[simp] theorem rodMod_arbiters (n : Nat) (f : Rod → Rod) (s : State) : (rodMod n f s).arbiters = s.arbiters := rfl
@[simp] theorem rodMod_objects (n : Nat) (f : Rod → Rod) (s : State) : (rodMod n f s).objects = s.objects := rfl
@[simp] theorem rodMod_deep (n : Nat) (f : Rod → Rod) (s : State) : (rodMod n f s).deep = s.deep := rfl
@[simp] theorem rodMod_groups (n : Nat) (f : Rod → Rod) (s : State) : (rodMod n f s).groups = s.groups := rfl
@[simp] theorem rodMod_mem (n : Nat) (f : Rod → Rod) (s : State) : (rodMod n f s).mem = s.mem := rfl
@[simp] theorem rodMod_ctxs (n : Nat) (f : Rod → Rod) (s : State) : (rodMod n f s).ctxs = s.ctxs := rfl
@[simp] theorem rodMod_flushed (n : Nat) (f : Rod → Rod) (s : State) : (rodMod n f s).flushed = s.flushed := rfl
@[simp] theorem rodMod_stash (n : Nat) (f : Rod → Rod) (s : State) : (rodMod n f s).stash = s.stash := rfl
@[simp] theorem rodMod_free (n : Nat) (f : Rod → Rod) (s : State) : (rodMod n f s).free = s.free := rfl
@[simp] theorem rodMod_crossing (n : Nat) (f : Rod → Rod) (s : State) : (rodMod n f s).crossing = s.crossing := rfl
@[simp] theorem rodMod_pending (n : Nat) (f : Rod → Rod) (s : State) : (rodMod n f s).pending = s.pending := rfl

/-! `stratumMod` -/

@[simp] theorem stratumMod_sup (k : Nat) (f : Stratum → Stratum) (s : State) : (stratumMod k f s).sup = s.sup := rfl
@[simp] theorem stratumMod_clk (k : Nat) (f : Stratum → Stratum) (s : State) : (stratumMod k f s).clk = s.clk := rfl
@[simp] theorem stratumMod_trust (k : Nat) (f : Stratum → Stratum) (s : State) : (stratumMod k f s).trust = s.trust := rfl
@[simp] theorem stratumMod_side (k : Nat) (f : Stratum → Stratum) (s : State) : (stratumMod k f s).side = s.side := rfl
@[simp] theorem stratumMod_dev (k : Nat) (f : Stratum → Stratum) (s : State) : (stratumMod k f s).dev = s.dev := rfl
@[simp] theorem stratumMod_fc (k : Nat) (f : Stratum → Stratum) (s : State) : (stratumMod k f s).fc = s.fc := rfl
@[simp] theorem stratumMod_host (k : Nat) (f : Stratum → Stratum) (s : State) : (stratumMod k f s).host = s.host := rfl
@[simp] theorem stratumMod_jr (k : Nat) (f : Stratum → Stratum) (s : State) : (stratumMod k f s).jr = s.jr := rfl
@[simp] theorem stratumMod_parts (k : Nat) (f : Stratum → Stratum) (s : State) : (stratumMod k f s).parts = s.parts := rfl
@[simp] theorem stratumMod_zl (k : Nat) (f : Stratum → Stratum) (s : State) : (stratumMod k f s).zl = s.zl := rfl
@[simp] theorem stratumMod_rods (k : Nat) (f : Stratum → Stratum) (s : State) : (stratumMod k f s).rods = s.rods := rfl
@[simp] theorem stratumMod_wvs (k : Nat) (f : Stratum → Stratum) (s : State) : (stratumMod k f s).wvs = s.wvs := rfl
@[simp] theorem stratumMod_launches (k : Nat) (f : Stratum → Stratum) (s : State) : (stratumMod k f s).launches = s.launches := rfl
@[simp] theorem stratumMod_engineNum (k : Nat) (f : Stratum → Stratum) (s : State) : (stratumMod k f s).engineNum = s.engineNum := rfl
@[simp] theorem stratumMod_landings (k : Nat) (f : Stratum → Stratum) (s : State) : (stratumMod k f s).landings = s.landings := rfl
@[simp] theorem stratumMod_near (k : Nat) (f : Stratum → Stratum) (s : State) : (stratumMod k f s).near = s.near := rfl
@[simp] theorem stratumMod_arbiters (k : Nat) (f : Stratum → Stratum) (s : State) : (stratumMod k f s).arbiters = s.arbiters := rfl
@[simp] theorem stratumMod_objects (k : Nat) (f : Stratum → Stratum) (s : State) : (stratumMod k f s).objects = s.objects := rfl
@[simp] theorem stratumMod_deep (k : Nat) (f : Stratum → Stratum) (s : State) : (stratumMod k f s).deep = s.deep := rfl
@[simp] theorem stratumMod_groups (k : Nat) (f : Stratum → Stratum) (s : State) : (stratumMod k f s).groups = s.groups := rfl
@[simp] theorem stratumMod_mem (k : Nat) (f : Stratum → Stratum) (s : State) : (stratumMod k f s).mem = s.mem := rfl
@[simp] theorem stratumMod_ctxs (k : Nat) (f : Stratum → Stratum) (s : State) : (stratumMod k f s).ctxs = s.ctxs := rfl
@[simp] theorem stratumMod_flushed (k : Nat) (f : Stratum → Stratum) (s : State) : (stratumMod k f s).flushed = s.flushed := rfl
@[simp] theorem stratumMod_stash (k : Nat) (f : Stratum → Stratum) (s : State) : (stratumMod k f s).stash = s.stash := rfl
@[simp] theorem stratumMod_free (k : Nat) (f : Stratum → Stratum) (s : State) : (stratumMod k f s).free = s.free := rfl
@[simp] theorem stratumMod_crossing (k : Nat) (f : Stratum → Stratum) (s : State) : (stratumMod k f s).crossing = s.crossing := rfl
@[simp] theorem stratumMod_pending (k : Nat) (f : Stratum → Stratum) (s : State) : (stratumMod k f s).pending = s.pending := rfl

/-! `arbSet` -/

@[simp] theorem arbSet_sup (kind inst : Nat) (x : Arbiter) (s : State) : (arbSet kind inst x s).sup = s.sup := rfl
@[simp] theorem arbSet_clk (kind inst : Nat) (x : Arbiter) (s : State) : (arbSet kind inst x s).clk = s.clk := rfl
@[simp] theorem arbSet_trust (kind inst : Nat) (x : Arbiter) (s : State) : (arbSet kind inst x s).trust = s.trust := rfl
@[simp] theorem arbSet_side (kind inst : Nat) (x : Arbiter) (s : State) : (arbSet kind inst x s).side = s.side := rfl
@[simp] theorem arbSet_dev (kind inst : Nat) (x : Arbiter) (s : State) : (arbSet kind inst x s).dev = s.dev := rfl
@[simp] theorem arbSet_fc (kind inst : Nat) (x : Arbiter) (s : State) : (arbSet kind inst x s).fc = s.fc := rfl
@[simp] theorem arbSet_host (kind inst : Nat) (x : Arbiter) (s : State) : (arbSet kind inst x s).host = s.host := rfl
@[simp] theorem arbSet_jr (kind inst : Nat) (x : Arbiter) (s : State) : (arbSet kind inst x s).jr = s.jr := rfl
@[simp] theorem arbSet_parts (kind inst : Nat) (x : Arbiter) (s : State) : (arbSet kind inst x s).parts = s.parts := rfl
@[simp] theorem arbSet_zl (kind inst : Nat) (x : Arbiter) (s : State) : (arbSet kind inst x s).zl = s.zl := rfl
@[simp] theorem arbSet_rods (kind inst : Nat) (x : Arbiter) (s : State) : (arbSet kind inst x s).rods = s.rods := rfl
@[simp] theorem arbSet_strata (kind inst : Nat) (x : Arbiter) (s : State) : (arbSet kind inst x s).strata = s.strata := rfl
@[simp] theorem arbSet_wvs (kind inst : Nat) (x : Arbiter) (s : State) : (arbSet kind inst x s).wvs = s.wvs := rfl
@[simp] theorem arbSet_launches (kind inst : Nat) (x : Arbiter) (s : State) : (arbSet kind inst x s).launches = s.launches := rfl
@[simp] theorem arbSet_engineNum (kind inst : Nat) (x : Arbiter) (s : State) : (arbSet kind inst x s).engineNum = s.engineNum := rfl
@[simp] theorem arbSet_landings (kind inst : Nat) (x : Arbiter) (s : State) : (arbSet kind inst x s).landings = s.landings := rfl
@[simp] theorem arbSet_near (kind inst : Nat) (x : Arbiter) (s : State) : (arbSet kind inst x s).near = s.near := rfl
@[simp] theorem arbSet_objects (kind inst : Nat) (x : Arbiter) (s : State) : (arbSet kind inst x s).objects = s.objects := rfl
@[simp] theorem arbSet_deep (kind inst : Nat) (x : Arbiter) (s : State) : (arbSet kind inst x s).deep = s.deep := rfl
@[simp] theorem arbSet_groups (kind inst : Nat) (x : Arbiter) (s : State) : (arbSet kind inst x s).groups = s.groups := rfl
@[simp] theorem arbSet_mem (kind inst : Nat) (x : Arbiter) (s : State) : (arbSet kind inst x s).mem = s.mem := rfl
@[simp] theorem arbSet_ctxs (kind inst : Nat) (x : Arbiter) (s : State) : (arbSet kind inst x s).ctxs = s.ctxs := rfl
@[simp] theorem arbSet_flushed (kind inst : Nat) (x : Arbiter) (s : State) : (arbSet kind inst x s).flushed = s.flushed := rfl
@[simp] theorem arbSet_stash (kind inst : Nat) (x : Arbiter) (s : State) : (arbSet kind inst x s).stash = s.stash := rfl
@[simp] theorem arbSet_free (kind inst : Nat) (x : Arbiter) (s : State) : (arbSet kind inst x s).free = s.free := rfl
@[simp] theorem arbSet_crossing (kind inst : Nat) (x : Arbiter) (s : State) : (arbSet kind inst x s).crossing = s.crossing := rfl
@[simp] theorem arbSet_pending (kind inst : Nat) (x : Arbiter) (s : State) : (arbSet kind inst x s).pending = s.pending := rfl

/-! `objSet` -/

@[simp] theorem objSet_sup (n : Nat) (x : Object) (s : State) : (objSet n x s).sup = s.sup := rfl
@[simp] theorem objSet_clk (n : Nat) (x : Object) (s : State) : (objSet n x s).clk = s.clk := rfl
@[simp] theorem objSet_trust (n : Nat) (x : Object) (s : State) : (objSet n x s).trust = s.trust := rfl
@[simp] theorem objSet_side (n : Nat) (x : Object) (s : State) : (objSet n x s).side = s.side := rfl
@[simp] theorem objSet_dev (n : Nat) (x : Object) (s : State) : (objSet n x s).dev = s.dev := rfl
@[simp] theorem objSet_fc (n : Nat) (x : Object) (s : State) : (objSet n x s).fc = s.fc := rfl
@[simp] theorem objSet_host (n : Nat) (x : Object) (s : State) : (objSet n x s).host = s.host := rfl
@[simp] theorem objSet_jr (n : Nat) (x : Object) (s : State) : (objSet n x s).jr = s.jr := rfl
@[simp] theorem objSet_parts (n : Nat) (x : Object) (s : State) : (objSet n x s).parts = s.parts := rfl
@[simp] theorem objSet_zl (n : Nat) (x : Object) (s : State) : (objSet n x s).zl = s.zl := rfl
@[simp] theorem objSet_rods (n : Nat) (x : Object) (s : State) : (objSet n x s).rods = s.rods := rfl
@[simp] theorem objSet_strata (n : Nat) (x : Object) (s : State) : (objSet n x s).strata = s.strata := rfl
@[simp] theorem objSet_wvs (n : Nat) (x : Object) (s : State) : (objSet n x s).wvs = s.wvs := rfl
@[simp] theorem objSet_launches (n : Nat) (x : Object) (s : State) : (objSet n x s).launches = s.launches := rfl
@[simp] theorem objSet_engineNum (n : Nat) (x : Object) (s : State) : (objSet n x s).engineNum = s.engineNum := rfl
@[simp] theorem objSet_landings (n : Nat) (x : Object) (s : State) : (objSet n x s).landings = s.landings := rfl
@[simp] theorem objSet_near (n : Nat) (x : Object) (s : State) : (objSet n x s).near = s.near := rfl
@[simp] theorem objSet_arbiters (n : Nat) (x : Object) (s : State) : (objSet n x s).arbiters = s.arbiters := rfl
@[simp] theorem objSet_deep (n : Nat) (x : Object) (s : State) : (objSet n x s).deep = s.deep := rfl
@[simp] theorem objSet_groups (n : Nat) (x : Object) (s : State) : (objSet n x s).groups = s.groups := rfl
@[simp] theorem objSet_mem (n : Nat) (x : Object) (s : State) : (objSet n x s).mem = s.mem := rfl
@[simp] theorem objSet_ctxs (n : Nat) (x : Object) (s : State) : (objSet n x s).ctxs = s.ctxs := rfl
@[simp] theorem objSet_flushed (n : Nat) (x : Object) (s : State) : (objSet n x s).flushed = s.flushed := rfl
@[simp] theorem objSet_stash (n : Nat) (x : Object) (s : State) : (objSet n x s).stash = s.stash := rfl
@[simp] theorem objSet_free (n : Nat) (x : Object) (s : State) : (objSet n x s).free = s.free := rfl
@[simp] theorem objSet_crossing (n : Nat) (x : Object) (s : State) : (objSet n x s).crossing = s.crossing := rfl
@[simp] theorem objSet_pending (n : Nat) (x : Object) (s : State) : (objSet n x s).pending = s.pending := rfl

/-! `objMod` -/

@[simp] theorem objMod_sup (n : Nat) (f : Object → Object) (s : State) : (objMod n f s).sup = s.sup := rfl
@[simp] theorem objMod_clk (n : Nat) (f : Object → Object) (s : State) : (objMod n f s).clk = s.clk := rfl
@[simp] theorem objMod_trust (n : Nat) (f : Object → Object) (s : State) : (objMod n f s).trust = s.trust := rfl
@[simp] theorem objMod_side (n : Nat) (f : Object → Object) (s : State) : (objMod n f s).side = s.side := rfl
@[simp] theorem objMod_dev (n : Nat) (f : Object → Object) (s : State) : (objMod n f s).dev = s.dev := rfl
@[simp] theorem objMod_fc (n : Nat) (f : Object → Object) (s : State) : (objMod n f s).fc = s.fc := rfl
@[simp] theorem objMod_host (n : Nat) (f : Object → Object) (s : State) : (objMod n f s).host = s.host := rfl
@[simp] theorem objMod_jr (n : Nat) (f : Object → Object) (s : State) : (objMod n f s).jr = s.jr := rfl
@[simp] theorem objMod_parts (n : Nat) (f : Object → Object) (s : State) : (objMod n f s).parts = s.parts := rfl
@[simp] theorem objMod_zl (n : Nat) (f : Object → Object) (s : State) : (objMod n f s).zl = s.zl := rfl
@[simp] theorem objMod_rods (n : Nat) (f : Object → Object) (s : State) : (objMod n f s).rods = s.rods := rfl
@[simp] theorem objMod_strata (n : Nat) (f : Object → Object) (s : State) : (objMod n f s).strata = s.strata := rfl
@[simp] theorem objMod_wvs (n : Nat) (f : Object → Object) (s : State) : (objMod n f s).wvs = s.wvs := rfl
@[simp] theorem objMod_launches (n : Nat) (f : Object → Object) (s : State) : (objMod n f s).launches = s.launches := rfl
@[simp] theorem objMod_engineNum (n : Nat) (f : Object → Object) (s : State) : (objMod n f s).engineNum = s.engineNum := rfl
@[simp] theorem objMod_landings (n : Nat) (f : Object → Object) (s : State) : (objMod n f s).landings = s.landings := rfl
@[simp] theorem objMod_near (n : Nat) (f : Object → Object) (s : State) : (objMod n f s).near = s.near := rfl
@[simp] theorem objMod_arbiters (n : Nat) (f : Object → Object) (s : State) : (objMod n f s).arbiters = s.arbiters := rfl
@[simp] theorem objMod_deep (n : Nat) (f : Object → Object) (s : State) : (objMod n f s).deep = s.deep := rfl
@[simp] theorem objMod_groups (n : Nat) (f : Object → Object) (s : State) : (objMod n f s).groups = s.groups := rfl
@[simp] theorem objMod_mem (n : Nat) (f : Object → Object) (s : State) : (objMod n f s).mem = s.mem := rfl
@[simp] theorem objMod_ctxs (n : Nat) (f : Object → Object) (s : State) : (objMod n f s).ctxs = s.ctxs := rfl
@[simp] theorem objMod_flushed (n : Nat) (f : Object → Object) (s : State) : (objMod n f s).flushed = s.flushed := rfl
@[simp] theorem objMod_stash (n : Nat) (f : Object → Object) (s : State) : (objMod n f s).stash = s.stash := rfl
@[simp] theorem objMod_free (n : Nat) (f : Object → Object) (s : State) : (objMod n f s).free = s.free := rfl
@[simp] theorem objMod_crossing (n : Nat) (f : Object → Object) (s : State) : (objMod n f s).crossing = s.crossing := rfl
@[simp] theorem objMod_pending (n : Nat) (f : Object → Object) (s : State) : (objMod n f s).pending = s.pending := rfl

/-! `pageMod` -/

@[simp] theorem pageMod_sup (o p : Nat) (f : Page → Page) (s : State) : (pageMod o p f s).sup = s.sup := rfl
@[simp] theorem pageMod_clk (o p : Nat) (f : Page → Page) (s : State) : (pageMod o p f s).clk = s.clk := rfl
@[simp] theorem pageMod_trust (o p : Nat) (f : Page → Page) (s : State) : (pageMod o p f s).trust = s.trust := rfl
@[simp] theorem pageMod_side (o p : Nat) (f : Page → Page) (s : State) : (pageMod o p f s).side = s.side := rfl
@[simp] theorem pageMod_dev (o p : Nat) (f : Page → Page) (s : State) : (pageMod o p f s).dev = s.dev := rfl
@[simp] theorem pageMod_fc (o p : Nat) (f : Page → Page) (s : State) : (pageMod o p f s).fc = s.fc := rfl
@[simp] theorem pageMod_host (o p : Nat) (f : Page → Page) (s : State) : (pageMod o p f s).host = s.host := rfl
@[simp] theorem pageMod_jr (o p : Nat) (f : Page → Page) (s : State) : (pageMod o p f s).jr = s.jr := rfl
@[simp] theorem pageMod_parts (o p : Nat) (f : Page → Page) (s : State) : (pageMod o p f s).parts = s.parts := rfl
@[simp] theorem pageMod_zl (o p : Nat) (f : Page → Page) (s : State) : (pageMod o p f s).zl = s.zl := rfl
@[simp] theorem pageMod_rods (o p : Nat) (f : Page → Page) (s : State) : (pageMod o p f s).rods = s.rods := rfl
@[simp] theorem pageMod_strata (o p : Nat) (f : Page → Page) (s : State) : (pageMod o p f s).strata = s.strata := rfl
@[simp] theorem pageMod_wvs (o p : Nat) (f : Page → Page) (s : State) : (pageMod o p f s).wvs = s.wvs := rfl
@[simp] theorem pageMod_launches (o p : Nat) (f : Page → Page) (s : State) : (pageMod o p f s).launches = s.launches := rfl
@[simp] theorem pageMod_engineNum (o p : Nat) (f : Page → Page) (s : State) : (pageMod o p f s).engineNum = s.engineNum := rfl
@[simp] theorem pageMod_landings (o p : Nat) (f : Page → Page) (s : State) : (pageMod o p f s).landings = s.landings := rfl
@[simp] theorem pageMod_near (o p : Nat) (f : Page → Page) (s : State) : (pageMod o p f s).near = s.near := rfl
@[simp] theorem pageMod_arbiters (o p : Nat) (f : Page → Page) (s : State) : (pageMod o p f s).arbiters = s.arbiters := rfl
@[simp] theorem pageMod_deep (o p : Nat) (f : Page → Page) (s : State) : (pageMod o p f s).deep = s.deep := rfl
@[simp] theorem pageMod_groups (o p : Nat) (f : Page → Page) (s : State) : (pageMod o p f s).groups = s.groups := rfl
@[simp] theorem pageMod_mem (o p : Nat) (f : Page → Page) (s : State) : (pageMod o p f s).mem = s.mem := rfl
@[simp] theorem pageMod_ctxs (o p : Nat) (f : Page → Page) (s : State) : (pageMod o p f s).ctxs = s.ctxs := rfl
@[simp] theorem pageMod_flushed (o p : Nat) (f : Page → Page) (s : State) : (pageMod o p f s).flushed = s.flushed := rfl
@[simp] theorem pageMod_stash (o p : Nat) (f : Page → Page) (s : State) : (pageMod o p f s).stash = s.stash := rfl
@[simp] theorem pageMod_free (o p : Nat) (f : Page → Page) (s : State) : (pageMod o p f s).free = s.free := rfl
@[simp] theorem pageMod_crossing (o p : Nat) (f : Page → Page) (s : State) : (pageMod o p f s).crossing = s.crossing := rfl
@[simp] theorem pageMod_pending (o p : Nat) (f : Page → Page) (s : State) : (pageMod o p f s).pending = s.pending := rfl

/-! `cacheSetPut` -/

@[simp] theorem cacheSetPut_sup (k : Nat) (x : CacheSet) (s : State) : (cacheSetPut k x s).sup = s.sup := rfl
@[simp] theorem cacheSetPut_clk (k : Nat) (x : CacheSet) (s : State) : (cacheSetPut k x s).clk = s.clk := rfl
@[simp] theorem cacheSetPut_trust (k : Nat) (x : CacheSet) (s : State) : (cacheSetPut k x s).trust = s.trust := rfl
@[simp] theorem cacheSetPut_side (k : Nat) (x : CacheSet) (s : State) : (cacheSetPut k x s).side = s.side := rfl
@[simp] theorem cacheSetPut_dev (k : Nat) (x : CacheSet) (s : State) : (cacheSetPut k x s).dev = s.dev := rfl
@[simp] theorem cacheSetPut_fc (k : Nat) (x : CacheSet) (s : State) : (cacheSetPut k x s).fc = s.fc := rfl
@[simp] theorem cacheSetPut_host (k : Nat) (x : CacheSet) (s : State) : (cacheSetPut k x s).host = s.host := rfl
@[simp] theorem cacheSetPut_jr (k : Nat) (x : CacheSet) (s : State) : (cacheSetPut k x s).jr = s.jr := rfl
@[simp] theorem cacheSetPut_parts (k : Nat) (x : CacheSet) (s : State) : (cacheSetPut k x s).parts = s.parts := rfl
@[simp] theorem cacheSetPut_zl (k : Nat) (x : CacheSet) (s : State) : (cacheSetPut k x s).zl = s.zl := rfl
@[simp] theorem cacheSetPut_rods (k : Nat) (x : CacheSet) (s : State) : (cacheSetPut k x s).rods = s.rods := rfl
@[simp] theorem cacheSetPut_strata (k : Nat) (x : CacheSet) (s : State) : (cacheSetPut k x s).strata = s.strata := rfl
@[simp] theorem cacheSetPut_wvs (k : Nat) (x : CacheSet) (s : State) : (cacheSetPut k x s).wvs = s.wvs := rfl
@[simp] theorem cacheSetPut_launches (k : Nat) (x : CacheSet) (s : State) : (cacheSetPut k x s).launches = s.launches := rfl
@[simp] theorem cacheSetPut_engineNum (k : Nat) (x : CacheSet) (s : State) : (cacheSetPut k x s).engineNum = s.engineNum := rfl
@[simp] theorem cacheSetPut_landings (k : Nat) (x : CacheSet) (s : State) : (cacheSetPut k x s).landings = s.landings := rfl
@[simp] theorem cacheSetPut_arbiters (k : Nat) (x : CacheSet) (s : State) : (cacheSetPut k x s).arbiters = s.arbiters := rfl
@[simp] theorem cacheSetPut_objects (k : Nat) (x : CacheSet) (s : State) : (cacheSetPut k x s).objects = s.objects := rfl
@[simp] theorem cacheSetPut_deep (k : Nat) (x : CacheSet) (s : State) : (cacheSetPut k x s).deep = s.deep := rfl
@[simp] theorem cacheSetPut_groups (k : Nat) (x : CacheSet) (s : State) : (cacheSetPut k x s).groups = s.groups := rfl
@[simp] theorem cacheSetPut_mem (k : Nat) (x : CacheSet) (s : State) : (cacheSetPut k x s).mem = s.mem := rfl
@[simp] theorem cacheSetPut_ctxs (k : Nat) (x : CacheSet) (s : State) : (cacheSetPut k x s).ctxs = s.ctxs := rfl
@[simp] theorem cacheSetPut_flushed (k : Nat) (x : CacheSet) (s : State) : (cacheSetPut k x s).flushed = s.flushed := rfl
@[simp] theorem cacheSetPut_stash (k : Nat) (x : CacheSet) (s : State) : (cacheSetPut k x s).stash = s.stash := rfl
@[simp] theorem cacheSetPut_free (k : Nat) (x : CacheSet) (s : State) : (cacheSetPut k x s).free = s.free := rfl
@[simp] theorem cacheSetPut_crossing (k : Nat) (x : CacheSet) (s : State) : (cacheSetPut k x s).crossing = s.crossing := rfl
@[simp] theorem cacheSetPut_pending (k : Nat) (x : CacheSet) (s : State) : (cacheSetPut k x s).pending = s.pending := rfl

/-! `dcUp` -/

@[simp] theorem dcUp_sup (k n : Nat) (s : State) : (dcUp k n s).sup = s.sup := rfl
@[simp] theorem dcUp_clk (k n : Nat) (s : State) : (dcUp k n s).clk = s.clk := rfl
@[simp] theorem dcUp_trust (k n : Nat) (s : State) : (dcUp k n s).trust = s.trust := rfl
@[simp] theorem dcUp_side (k n : Nat) (s : State) : (dcUp k n s).side = s.side := rfl
@[simp] theorem dcUp_dev (k n : Nat) (s : State) : (dcUp k n s).dev = s.dev := rfl
@[simp] theorem dcUp_fc (k n : Nat) (s : State) : (dcUp k n s).fc = s.fc := rfl
@[simp] theorem dcUp_host (k n : Nat) (s : State) : (dcUp k n s).host = s.host := rfl
@[simp] theorem dcUp_jr (k n : Nat) (s : State) : (dcUp k n s).jr = s.jr := rfl
@[simp] theorem dcUp_parts (k n : Nat) (s : State) : (dcUp k n s).parts = s.parts := rfl
@[simp] theorem dcUp_zl (k n : Nat) (s : State) : (dcUp k n s).zl = s.zl := rfl
@[simp] theorem dcUp_rods (k n : Nat) (s : State) : (dcUp k n s).rods = s.rods := rfl
@[simp] theorem dcUp_strata (k n : Nat) (s : State) : (dcUp k n s).strata = s.strata := rfl
@[simp] theorem dcUp_wvs (k n : Nat) (s : State) : (dcUp k n s).wvs = s.wvs := rfl
@[simp] theorem dcUp_launches (k n : Nat) (s : State) : (dcUp k n s).launches = s.launches := rfl
@[simp] theorem dcUp_engineNum (k n : Nat) (s : State) : (dcUp k n s).engineNum = s.engineNum := rfl
@[simp] theorem dcUp_landings (k n : Nat) (s : State) : (dcUp k n s).landings = s.landings := rfl
@[simp] theorem dcUp_near (k n : Nat) (s : State) : (dcUp k n s).near = s.near := rfl
@[simp] theorem dcUp_arbiters (k n : Nat) (s : State) : (dcUp k n s).arbiters = s.arbiters := rfl
@[simp] theorem dcUp_objects (k n : Nat) (s : State) : (dcUp k n s).objects = s.objects := rfl
@[simp] theorem dcUp_groups (k n : Nat) (s : State) : (dcUp k n s).groups = s.groups := rfl
@[simp] theorem dcUp_mem (k n : Nat) (s : State) : (dcUp k n s).mem = s.mem := rfl
@[simp] theorem dcUp_ctxs (k n : Nat) (s : State) : (dcUp k n s).ctxs = s.ctxs := rfl
@[simp] theorem dcUp_flushed (k n : Nat) (s : State) : (dcUp k n s).flushed = s.flushed := rfl
@[simp] theorem dcUp_stash (k n : Nat) (s : State) : (dcUp k n s).stash = s.stash := rfl
@[simp] theorem dcUp_free (k n : Nat) (s : State) : (dcUp k n s).free = s.free := rfl
@[simp] theorem dcUp_crossing (k n : Nat) (s : State) : (dcUp k n s).crossing = s.crossing := rfl
@[simp] theorem dcUp_pending (k n : Nat) (s : State) : (dcUp k n s).pending = s.pending := rfl

/-! `blockMod` -/

@[simp] theorem blockMod_sup (b : Nat) (f : Block → Block) (s : State) : (blockMod b f s).sup = s.sup := rfl
@[simp] theorem blockMod_clk (b : Nat) (f : Block → Block) (s : State) : (blockMod b f s).clk = s.clk := rfl
@[simp] theorem blockMod_trust (b : Nat) (f : Block → Block) (s : State) : (blockMod b f s).trust = s.trust := rfl
@[simp] theorem blockMod_side (b : Nat) (f : Block → Block) (s : State) : (blockMod b f s).side = s.side := rfl
@[simp] theorem blockMod_dev (b : Nat) (f : Block → Block) (s : State) : (blockMod b f s).dev = s.dev := rfl
@[simp] theorem blockMod_fc (b : Nat) (f : Block → Block) (s : State) : (blockMod b f s).fc = s.fc := rfl
@[simp] theorem blockMod_host (b : Nat) (f : Block → Block) (s : State) : (blockMod b f s).host = s.host := rfl
@[simp] theorem blockMod_jr (b : Nat) (f : Block → Block) (s : State) : (blockMod b f s).jr = s.jr := rfl
@[simp] theorem blockMod_parts (b : Nat) (f : Block → Block) (s : State) : (blockMod b f s).parts = s.parts := rfl
@[simp] theorem blockMod_zl (b : Nat) (f : Block → Block) (s : State) : (blockMod b f s).zl = s.zl := rfl
@[simp] theorem blockMod_rods (b : Nat) (f : Block → Block) (s : State) : (blockMod b f s).rods = s.rods := rfl
@[simp] theorem blockMod_strata (b : Nat) (f : Block → Block) (s : State) : (blockMod b f s).strata = s.strata := rfl
@[simp] theorem blockMod_wvs (b : Nat) (f : Block → Block) (s : State) : (blockMod b f s).wvs = s.wvs := rfl
@[simp] theorem blockMod_launches (b : Nat) (f : Block → Block) (s : State) : (blockMod b f s).launches = s.launches := rfl
@[simp] theorem blockMod_engineNum (b : Nat) (f : Block → Block) (s : State) : (blockMod b f s).engineNum = s.engineNum := rfl
@[simp] theorem blockMod_landings (b : Nat) (f : Block → Block) (s : State) : (blockMod b f s).landings = s.landings := rfl
@[simp] theorem blockMod_near (b : Nat) (f : Block → Block) (s : State) : (blockMod b f s).near = s.near := rfl
@[simp] theorem blockMod_arbiters (b : Nat) (f : Block → Block) (s : State) : (blockMod b f s).arbiters = s.arbiters := rfl
@[simp] theorem blockMod_objects (b : Nat) (f : Block → Block) (s : State) : (blockMod b f s).objects = s.objects := rfl
@[simp] theorem blockMod_groups (b : Nat) (f : Block → Block) (s : State) : (blockMod b f s).groups = s.groups := rfl
@[simp] theorem blockMod_mem (b : Nat) (f : Block → Block) (s : State) : (blockMod b f s).mem = s.mem := rfl
@[simp] theorem blockMod_ctxs (b : Nat) (f : Block → Block) (s : State) : (blockMod b f s).ctxs = s.ctxs := rfl
@[simp] theorem blockMod_flushed (b : Nat) (f : Block → Block) (s : State) : (blockMod b f s).flushed = s.flushed := rfl
@[simp] theorem blockMod_stash (b : Nat) (f : Block → Block) (s : State) : (blockMod b f s).stash = s.stash := rfl
@[simp] theorem blockMod_free (b : Nat) (f : Block → Block) (s : State) : (blockMod b f s).free = s.free := rfl
@[simp] theorem blockMod_crossing (b : Nat) (f : Block → Block) (s : State) : (blockMod b f s).crossing = s.crossing := rfl
@[simp] theorem blockMod_pending (b : Nat) (f : Block → Block) (s : State) : (blockMod b f s).pending = s.pending := rfl

/-! `groupSet` -/

@[simp] theorem groupSet_sup (g : Nat) (x : Group) (s : State) : (groupSet g x s).sup = s.sup := rfl
@[simp] theorem groupSet_clk (g : Nat) (x : Group) (s : State) : (groupSet g x s).clk = s.clk := rfl
@[simp] theorem groupSet_trust (g : Nat) (x : Group) (s : State) : (groupSet g x s).trust = s.trust := rfl
@[simp] theorem groupSet_side (g : Nat) (x : Group) (s : State) : (groupSet g x s).side = s.side := rfl
@[simp] theorem groupSet_dev (g : Nat) (x : Group) (s : State) : (groupSet g x s).dev = s.dev := rfl
@[simp] theorem groupSet_fc (g : Nat) (x : Group) (s : State) : (groupSet g x s).fc = s.fc := rfl
@[simp] theorem groupSet_host (g : Nat) (x : Group) (s : State) : (groupSet g x s).host = s.host := rfl
@[simp] theorem groupSet_jr (g : Nat) (x : Group) (s : State) : (groupSet g x s).jr = s.jr := rfl
@[simp] theorem groupSet_parts (g : Nat) (x : Group) (s : State) : (groupSet g x s).parts = s.parts := rfl
@[simp] theorem groupSet_zl (g : Nat) (x : Group) (s : State) : (groupSet g x s).zl = s.zl := rfl
@[simp] theorem groupSet_rods (g : Nat) (x : Group) (s : State) : (groupSet g x s).rods = s.rods := rfl
@[simp] theorem groupSet_strata (g : Nat) (x : Group) (s : State) : (groupSet g x s).strata = s.strata := rfl
@[simp] theorem groupSet_wvs (g : Nat) (x : Group) (s : State) : (groupSet g x s).wvs = s.wvs := rfl
@[simp] theorem groupSet_launches (g : Nat) (x : Group) (s : State) : (groupSet g x s).launches = s.launches := rfl
@[simp] theorem groupSet_engineNum (g : Nat) (x : Group) (s : State) : (groupSet g x s).engineNum = s.engineNum := rfl
@[simp] theorem groupSet_landings (g : Nat) (x : Group) (s : State) : (groupSet g x s).landings = s.landings := rfl
@[simp] theorem groupSet_near (g : Nat) (x : Group) (s : State) : (groupSet g x s).near = s.near := rfl
@[simp] theorem groupSet_arbiters (g : Nat) (x : Group) (s : State) : (groupSet g x s).arbiters = s.arbiters := rfl
@[simp] theorem groupSet_objects (g : Nat) (x : Group) (s : State) : (groupSet g x s).objects = s.objects := rfl
@[simp] theorem groupSet_deep (g : Nat) (x : Group) (s : State) : (groupSet g x s).deep = s.deep := rfl
@[simp] theorem groupSet_mem (g : Nat) (x : Group) (s : State) : (groupSet g x s).mem = s.mem := rfl
@[simp] theorem groupSet_ctxs (g : Nat) (x : Group) (s : State) : (groupSet g x s).ctxs = s.ctxs := rfl
@[simp] theorem groupSet_flushed (g : Nat) (x : Group) (s : State) : (groupSet g x s).flushed = s.flushed := rfl
@[simp] theorem groupSet_stash (g : Nat) (x : Group) (s : State) : (groupSet g x s).stash = s.stash := rfl
@[simp] theorem groupSet_free (g : Nat) (x : Group) (s : State) : (groupSet g x s).free = s.free := rfl
@[simp] theorem groupSet_crossing (g : Nat) (x : Group) (s : State) : (groupSet g x s).crossing = s.crossing := rfl
@[simp] theorem groupSet_pending (g : Nat) (x : Group) (s : State) : (groupSet g x s).pending = s.pending := rfl

/-! `noteReset` -/

@[simp] theorem noteReset_sup (t : Target) (s : State) : (noteReset t s).sup = s.sup := rfl
@[simp] theorem noteReset_clk (t : Target) (s : State) : (noteReset t s).clk = s.clk := rfl
@[simp] theorem noteReset_trust (t : Target) (s : State) : (noteReset t s).trust = s.trust := rfl
@[simp] theorem noteReset_side (t : Target) (s : State) : (noteReset t s).side = s.side := rfl
@[simp] theorem noteReset_dev (t : Target) (s : State) : (noteReset t s).dev = s.dev := rfl
@[simp] theorem noteReset_host (t : Target) (s : State) : (noteReset t s).host = s.host := rfl
@[simp] theorem noteReset_jr (t : Target) (s : State) : (noteReset t s).jr = s.jr := rfl
@[simp] theorem noteReset_parts (t : Target) (s : State) : (noteReset t s).parts = s.parts := rfl
@[simp] theorem noteReset_zl (t : Target) (s : State) : (noteReset t s).zl = s.zl := rfl
@[simp] theorem noteReset_rods (t : Target) (s : State) : (noteReset t s).rods = s.rods := rfl
@[simp] theorem noteReset_strata (t : Target) (s : State) : (noteReset t s).strata = s.strata := rfl
@[simp] theorem noteReset_wvs (t : Target) (s : State) : (noteReset t s).wvs = s.wvs := rfl
@[simp] theorem noteReset_launches (t : Target) (s : State) : (noteReset t s).launches = s.launches := rfl
@[simp] theorem noteReset_engineNum (t : Target) (s : State) : (noteReset t s).engineNum = s.engineNum := rfl
@[simp] theorem noteReset_landings (t : Target) (s : State) : (noteReset t s).landings = s.landings := rfl
@[simp] theorem noteReset_near (t : Target) (s : State) : (noteReset t s).near = s.near := rfl
@[simp] theorem noteReset_arbiters (t : Target) (s : State) : (noteReset t s).arbiters = s.arbiters := rfl
@[simp] theorem noteReset_objects (t : Target) (s : State) : (noteReset t s).objects = s.objects := rfl
@[simp] theorem noteReset_deep (t : Target) (s : State) : (noteReset t s).deep = s.deep := rfl
@[simp] theorem noteReset_groups (t : Target) (s : State) : (noteReset t s).groups = s.groups := rfl
@[simp] theorem noteReset_mem (t : Target) (s : State) : (noteReset t s).mem = s.mem := rfl
@[simp] theorem noteReset_ctxs (t : Target) (s : State) : (noteReset t s).ctxs = s.ctxs := rfl
@[simp] theorem noteReset_flushed (t : Target) (s : State) : (noteReset t s).flushed = s.flushed := rfl
@[simp] theorem noteReset_stash (t : Target) (s : State) : (noteReset t s).stash = s.stash := rfl
@[simp] theorem noteReset_free (t : Target) (s : State) : (noteReset t s).free = s.free := rfl
@[simp] theorem noteReset_crossing (t : Target) (s : State) : (noteReset t s).crossing = s.crossing := rfl
@[simp] theorem noteReset_pending (t : Target) (s : State) : (noteReset t s).pending = s.pending := rfl

/-! `hostWrite` -/

theorem hostWrite_mk (p a : Nat) (bs : Bytes) (s : State) : hostWrite p a bs s = { s with host := (hostWrite p a bs s).host } := by
  unfold hostWrite
  split <;> rfl

@[simp] theorem hostWrite_sup (p a : Nat) (bs : Bytes) (s : State) : (hostWrite p a bs s).sup = s.sup := by rw [hostWrite_mk]
@[simp] theorem hostWrite_clk (p a : Nat) (bs : Bytes) (s : State) : (hostWrite p a bs s).clk = s.clk := by rw [hostWrite_mk]
@[simp] theorem hostWrite_trust (p a : Nat) (bs : Bytes) (s : State) : (hostWrite p a bs s).trust = s.trust := by rw [hostWrite_mk]
@[simp] theorem hostWrite_side (p a : Nat) (bs : Bytes) (s : State) : (hostWrite p a bs s).side = s.side := by rw [hostWrite_mk]
@[simp] theorem hostWrite_dev (p a : Nat) (bs : Bytes) (s : State) : (hostWrite p a bs s).dev = s.dev := by rw [hostWrite_mk]
@[simp] theorem hostWrite_fc (p a : Nat) (bs : Bytes) (s : State) : (hostWrite p a bs s).fc = s.fc := by rw [hostWrite_mk]
@[simp] theorem hostWrite_jr (p a : Nat) (bs : Bytes) (s : State) : (hostWrite p a bs s).jr = s.jr := by rw [hostWrite_mk]
@[simp] theorem hostWrite_parts (p a : Nat) (bs : Bytes) (s : State) : (hostWrite p a bs s).parts = s.parts := by rw [hostWrite_mk]
@[simp] theorem hostWrite_zl (p a : Nat) (bs : Bytes) (s : State) : (hostWrite p a bs s).zl = s.zl := by rw [hostWrite_mk]
@[simp] theorem hostWrite_rods (p a : Nat) (bs : Bytes) (s : State) : (hostWrite p a bs s).rods = s.rods := by rw [hostWrite_mk]
@[simp] theorem hostWrite_strata (p a : Nat) (bs : Bytes) (s : State) : (hostWrite p a bs s).strata = s.strata := by rw [hostWrite_mk]
@[simp] theorem hostWrite_wvs (p a : Nat) (bs : Bytes) (s : State) : (hostWrite p a bs s).wvs = s.wvs := by rw [hostWrite_mk]
@[simp] theorem hostWrite_launches (p a : Nat) (bs : Bytes) (s : State) : (hostWrite p a bs s).launches = s.launches := by rw [hostWrite_mk]
@[simp] theorem hostWrite_engineNum (p a : Nat) (bs : Bytes) (s : State) : (hostWrite p a bs s).engineNum = s.engineNum := by rw [hostWrite_mk]
@[simp] theorem hostWrite_landings (p a : Nat) (bs : Bytes) (s : State) : (hostWrite p a bs s).landings = s.landings := by rw [hostWrite_mk]
@[simp] theorem hostWrite_near (p a : Nat) (bs : Bytes) (s : State) : (hostWrite p a bs s).near = s.near := by rw [hostWrite_mk]
@[simp] theorem hostWrite_arbiters (p a : Nat) (bs : Bytes) (s : State) : (hostWrite p a bs s).arbiters = s.arbiters := by rw [hostWrite_mk]
@[simp] theorem hostWrite_objects (p a : Nat) (bs : Bytes) (s : State) : (hostWrite p a bs s).objects = s.objects := by rw [hostWrite_mk]
@[simp] theorem hostWrite_deep (p a : Nat) (bs : Bytes) (s : State) : (hostWrite p a bs s).deep = s.deep := by rw [hostWrite_mk]
@[simp] theorem hostWrite_groups (p a : Nat) (bs : Bytes) (s : State) : (hostWrite p a bs s).groups = s.groups := by rw [hostWrite_mk]
@[simp] theorem hostWrite_mem (p a : Nat) (bs : Bytes) (s : State) : (hostWrite p a bs s).mem = s.mem := by rw [hostWrite_mk]
@[simp] theorem hostWrite_ctxs (p a : Nat) (bs : Bytes) (s : State) : (hostWrite p a bs s).ctxs = s.ctxs := by rw [hostWrite_mk]
@[simp] theorem hostWrite_flushed (p a : Nat) (bs : Bytes) (s : State) : (hostWrite p a bs s).flushed = s.flushed := by rw [hostWrite_mk]
@[simp] theorem hostWrite_stash (p a : Nat) (bs : Bytes) (s : State) : (hostWrite p a bs s).stash = s.stash := by rw [hostWrite_mk]
@[simp] theorem hostWrite_free (p a : Nat) (bs : Bytes) (s : State) : (hostWrite p a bs s).free = s.free := by rw [hostWrite_mk]
@[simp] theorem hostWrite_crossing (p a : Nat) (bs : Bytes) (s : State) : (hostWrite p a bs s).crossing = s.crossing := by rw [hostWrite_mk]
@[simp] theorem hostWrite_pending (p a : Nat) (bs : Bytes) (s : State) : (hostWrite p a bs s).pending = s.pending := by rw [hostWrite_mk]

/-! `raise` -/

theorem raise_mk (src kind addr : Nat) (s : State) : raise src kind addr s = { s with fc := (raise src kind addr s).fc } := by
  unfold raise
  split <;> rfl

@[simp] theorem raise_sup (src kind addr : Nat) (s : State) : (raise src kind addr s).sup = s.sup := by rw [raise_mk]
@[simp] theorem raise_clk (src kind addr : Nat) (s : State) : (raise src kind addr s).clk = s.clk := by rw [raise_mk]
@[simp] theorem raise_trust (src kind addr : Nat) (s : State) : (raise src kind addr s).trust = s.trust := by rw [raise_mk]
@[simp] theorem raise_side (src kind addr : Nat) (s : State) : (raise src kind addr s).side = s.side := by rw [raise_mk]
@[simp] theorem raise_dev (src kind addr : Nat) (s : State) : (raise src kind addr s).dev = s.dev := by rw [raise_mk]
@[simp] theorem raise_host (src kind addr : Nat) (s : State) : (raise src kind addr s).host = s.host := by rw [raise_mk]
@[simp] theorem raise_jr (src kind addr : Nat) (s : State) : (raise src kind addr s).jr = s.jr := by rw [raise_mk]
@[simp] theorem raise_parts (src kind addr : Nat) (s : State) : (raise src kind addr s).parts = s.parts := by rw [raise_mk]
@[simp] theorem raise_zl (src kind addr : Nat) (s : State) : (raise src kind addr s).zl = s.zl := by rw [raise_mk]
@[simp] theorem raise_rods (src kind addr : Nat) (s : State) : (raise src kind addr s).rods = s.rods := by rw [raise_mk]
@[simp] theorem raise_strata (src kind addr : Nat) (s : State) : (raise src kind addr s).strata = s.strata := by rw [raise_mk]
@[simp] theorem raise_wvs (src kind addr : Nat) (s : State) : (raise src kind addr s).wvs = s.wvs := by rw [raise_mk]
@[simp] theorem raise_launches (src kind addr : Nat) (s : State) : (raise src kind addr s).launches = s.launches := by rw [raise_mk]
@[simp] theorem raise_engineNum (src kind addr : Nat) (s : State) : (raise src kind addr s).engineNum = s.engineNum := by rw [raise_mk]
@[simp] theorem raise_landings (src kind addr : Nat) (s : State) : (raise src kind addr s).landings = s.landings := by rw [raise_mk]
@[simp] theorem raise_near (src kind addr : Nat) (s : State) : (raise src kind addr s).near = s.near := by rw [raise_mk]
@[simp] theorem raise_arbiters (src kind addr : Nat) (s : State) : (raise src kind addr s).arbiters = s.arbiters := by rw [raise_mk]
@[simp] theorem raise_objects (src kind addr : Nat) (s : State) : (raise src kind addr s).objects = s.objects := by rw [raise_mk]
@[simp] theorem raise_deep (src kind addr : Nat) (s : State) : (raise src kind addr s).deep = s.deep := by rw [raise_mk]
@[simp] theorem raise_groups (src kind addr : Nat) (s : State) : (raise src kind addr s).groups = s.groups := by rw [raise_mk]
@[simp] theorem raise_mem (src kind addr : Nat) (s : State) : (raise src kind addr s).mem = s.mem := by rw [raise_mk]
@[simp] theorem raise_ctxs (src kind addr : Nat) (s : State) : (raise src kind addr s).ctxs = s.ctxs := by rw [raise_mk]
@[simp] theorem raise_flushed (src kind addr : Nat) (s : State) : (raise src kind addr s).flushed = s.flushed := by rw [raise_mk]
@[simp] theorem raise_stash (src kind addr : Nat) (s : State) : (raise src kind addr s).stash = s.stash := by rw [raise_mk]
@[simp] theorem raise_free (src kind addr : Nat) (s : State) : (raise src kind addr s).free = s.free := by rw [raise_mk]
@[simp] theorem raise_crossing (src kind addr : Nat) (s : State) : (raise src kind addr s).crossing = s.crossing := by rw [raise_mk]
@[simp] theorem raise_pending (src kind addr : Nat) (s : State) : (raise src kind addr s).pending = s.pending := by rw [raise_mk]

/-! `ctxMod` -/

theorem ctxMod_mk (c : Nat) (f : Ctx → Ctx) (s : State) : ctxMod c f s = { s with ctxs := (ctxMod c f s).ctxs } := by
  unfold ctxMod
  split <;> rfl

@[simp] theorem ctxMod_sup (c : Nat) (f : Ctx → Ctx) (s : State) : (ctxMod c f s).sup = s.sup := by rw [ctxMod_mk]
@[simp] theorem ctxMod_clk (c : Nat) (f : Ctx → Ctx) (s : State) : (ctxMod c f s).clk = s.clk := by rw [ctxMod_mk]
@[simp] theorem ctxMod_trust (c : Nat) (f : Ctx → Ctx) (s : State) : (ctxMod c f s).trust = s.trust := by rw [ctxMod_mk]
@[simp] theorem ctxMod_side (c : Nat) (f : Ctx → Ctx) (s : State) : (ctxMod c f s).side = s.side := by rw [ctxMod_mk]
@[simp] theorem ctxMod_dev (c : Nat) (f : Ctx → Ctx) (s : State) : (ctxMod c f s).dev = s.dev := by rw [ctxMod_mk]
@[simp] theorem ctxMod_fc (c : Nat) (f : Ctx → Ctx) (s : State) : (ctxMod c f s).fc = s.fc := by rw [ctxMod_mk]
@[simp] theorem ctxMod_host (c : Nat) (f : Ctx → Ctx) (s : State) : (ctxMod c f s).host = s.host := by rw [ctxMod_mk]
@[simp] theorem ctxMod_jr (c : Nat) (f : Ctx → Ctx) (s : State) : (ctxMod c f s).jr = s.jr := by rw [ctxMod_mk]
@[simp] theorem ctxMod_parts (c : Nat) (f : Ctx → Ctx) (s : State) : (ctxMod c f s).parts = s.parts := by rw [ctxMod_mk]
@[simp] theorem ctxMod_zl (c : Nat) (f : Ctx → Ctx) (s : State) : (ctxMod c f s).zl = s.zl := by rw [ctxMod_mk]
@[simp] theorem ctxMod_rods (c : Nat) (f : Ctx → Ctx) (s : State) : (ctxMod c f s).rods = s.rods := by rw [ctxMod_mk]
@[simp] theorem ctxMod_strata (c : Nat) (f : Ctx → Ctx) (s : State) : (ctxMod c f s).strata = s.strata := by rw [ctxMod_mk]
@[simp] theorem ctxMod_wvs (c : Nat) (f : Ctx → Ctx) (s : State) : (ctxMod c f s).wvs = s.wvs := by rw [ctxMod_mk]
@[simp] theorem ctxMod_launches (c : Nat) (f : Ctx → Ctx) (s : State) : (ctxMod c f s).launches = s.launches := by rw [ctxMod_mk]
@[simp] theorem ctxMod_engineNum (c : Nat) (f : Ctx → Ctx) (s : State) : (ctxMod c f s).engineNum = s.engineNum := by rw [ctxMod_mk]
@[simp] theorem ctxMod_landings (c : Nat) (f : Ctx → Ctx) (s : State) : (ctxMod c f s).landings = s.landings := by rw [ctxMod_mk]
@[simp] theorem ctxMod_near (c : Nat) (f : Ctx → Ctx) (s : State) : (ctxMod c f s).near = s.near := by rw [ctxMod_mk]
@[simp] theorem ctxMod_arbiters (c : Nat) (f : Ctx → Ctx) (s : State) : (ctxMod c f s).arbiters = s.arbiters := by rw [ctxMod_mk]
@[simp] theorem ctxMod_objects (c : Nat) (f : Ctx → Ctx) (s : State) : (ctxMod c f s).objects = s.objects := by rw [ctxMod_mk]
@[simp] theorem ctxMod_deep (c : Nat) (f : Ctx → Ctx) (s : State) : (ctxMod c f s).deep = s.deep := by rw [ctxMod_mk]
@[simp] theorem ctxMod_groups (c : Nat) (f : Ctx → Ctx) (s : State) : (ctxMod c f s).groups = s.groups := by rw [ctxMod_mk]
@[simp] theorem ctxMod_mem (c : Nat) (f : Ctx → Ctx) (s : State) : (ctxMod c f s).mem = s.mem := by rw [ctxMod_mk]
@[simp] theorem ctxMod_flushed (c : Nat) (f : Ctx → Ctx) (s : State) : (ctxMod c f s).flushed = s.flushed := by rw [ctxMod_mk]
@[simp] theorem ctxMod_stash (c : Nat) (f : Ctx → Ctx) (s : State) : (ctxMod c f s).stash = s.stash := by rw [ctxMod_mk]
@[simp] theorem ctxMod_free (c : Nat) (f : Ctx → Ctx) (s : State) : (ctxMod c f s).free = s.free := by rw [ctxMod_mk]
@[simp] theorem ctxMod_crossing (c : Nat) (f : Ctx → Ctx) (s : State) : (ctxMod c f s).crossing = s.crossing := by rw [ctxMod_mk]
@[simp] theorem ctxMod_pending (c : Nat) (f : Ctx → Ctx) (s : State) : (ctxMod c f s).pending = s.pending := by rw [ctxMod_mk]

/-! `groupMod` -/

theorem groupMod_mk (g : Nat) (f : Group → Group) (s : State) : groupMod g f s = { s with groups := (groupMod g f s).groups } := by
  unfold groupMod
  split <;> rfl

@[simp] theorem groupMod_sup (g : Nat) (f : Group → Group) (s : State) : (groupMod g f s).sup = s.sup := by rw [groupMod_mk]
@[simp] theorem groupMod_clk (g : Nat) (f : Group → Group) (s : State) : (groupMod g f s).clk = s.clk := by rw [groupMod_mk]
@[simp] theorem groupMod_trust (g : Nat) (f : Group → Group) (s : State) : (groupMod g f s).trust = s.trust := by rw [groupMod_mk]
@[simp] theorem groupMod_side (g : Nat) (f : Group → Group) (s : State) : (groupMod g f s).side = s.side := by rw [groupMod_mk]
@[simp] theorem groupMod_dev (g : Nat) (f : Group → Group) (s : State) : (groupMod g f s).dev = s.dev := by rw [groupMod_mk]
@[simp] theorem groupMod_fc (g : Nat) (f : Group → Group) (s : State) : (groupMod g f s).fc = s.fc := by rw [groupMod_mk]
@[simp] theorem groupMod_host (g : Nat) (f : Group → Group) (s : State) : (groupMod g f s).host = s.host := by rw [groupMod_mk]
@[simp] theorem groupMod_jr (g : Nat) (f : Group → Group) (s : State) : (groupMod g f s).jr = s.jr := by rw [groupMod_mk]
@[simp] theorem groupMod_parts (g : Nat) (f : Group → Group) (s : State) : (groupMod g f s).parts = s.parts := by rw [groupMod_mk]
@[simp] theorem groupMod_zl (g : Nat) (f : Group → Group) (s : State) : (groupMod g f s).zl = s.zl := by rw [groupMod_mk]
@[simp] theorem groupMod_rods (g : Nat) (f : Group → Group) (s : State) : (groupMod g f s).rods = s.rods := by rw [groupMod_mk]
@[simp] theorem groupMod_strata (g : Nat) (f : Group → Group) (s : State) : (groupMod g f s).strata = s.strata := by rw [groupMod_mk]
@[simp] theorem groupMod_wvs (g : Nat) (f : Group → Group) (s : State) : (groupMod g f s).wvs = s.wvs := by rw [groupMod_mk]
@[simp] theorem groupMod_launches (g : Nat) (f : Group → Group) (s : State) : (groupMod g f s).launches = s.launches := by rw [groupMod_mk]
@[simp] theorem groupMod_engineNum (g : Nat) (f : Group → Group) (s : State) : (groupMod g f s).engineNum = s.engineNum := by rw [groupMod_mk]
@[simp] theorem groupMod_landings (g : Nat) (f : Group → Group) (s : State) : (groupMod g f s).landings = s.landings := by rw [groupMod_mk]
@[simp] theorem groupMod_near (g : Nat) (f : Group → Group) (s : State) : (groupMod g f s).near = s.near := by rw [groupMod_mk]
@[simp] theorem groupMod_arbiters (g : Nat) (f : Group → Group) (s : State) : (groupMod g f s).arbiters = s.arbiters := by rw [groupMod_mk]
@[simp] theorem groupMod_objects (g : Nat) (f : Group → Group) (s : State) : (groupMod g f s).objects = s.objects := by rw [groupMod_mk]
@[simp] theorem groupMod_deep (g : Nat) (f : Group → Group) (s : State) : (groupMod g f s).deep = s.deep := by rw [groupMod_mk]
@[simp] theorem groupMod_mem (g : Nat) (f : Group → Group) (s : State) : (groupMod g f s).mem = s.mem := by rw [groupMod_mk]
@[simp] theorem groupMod_ctxs (g : Nat) (f : Group → Group) (s : State) : (groupMod g f s).ctxs = s.ctxs := by rw [groupMod_mk]
@[simp] theorem groupMod_flushed (g : Nat) (f : Group → Group) (s : State) : (groupMod g f s).flushed = s.flushed := by rw [groupMod_mk]
@[simp] theorem groupMod_stash (g : Nat) (f : Group → Group) (s : State) : (groupMod g f s).stash = s.stash := by rw [groupMod_mk]
@[simp] theorem groupMod_free (g : Nat) (f : Group → Group) (s : State) : (groupMod g f s).free = s.free := by rw [groupMod_mk]
@[simp] theorem groupMod_crossing (g : Nat) (f : Group → Group) (s : State) : (groupMod g f s).crossing = s.crossing := by rw [groupMod_mk]
@[simp] theorem groupMod_pending (g : Nat) (f : Group → Group) (s : State) : (groupMod g f s).pending = s.pending := by rw [groupMod_mk]

/-! Reads after writes -/

@[simp] theorem ctxGet_ctxSet (c : Nat) (x : Ctx) (s : State) : ctxGet (ctxSet c x s) c = x := by
  simp [ctxGet, ctxSet, mapGet]

theorem ctxGet_ctxSet_ne {c d : Nat} (x : Ctx) (s : State) (h : d ≠ c) : ctxGet (ctxSet c x s) d = ctxGet s d := by
  simp [ctxGet, ctxSet, mapGet, mapFind_insert_ne _ _ h]

@[simp] theorem groupGet_groupSet (g : Nat) (x : Group) (s : State) : groupGet (groupSet g x s) g = some x := by
  simp [groupGet, groupSet]

theorem groupGet_groupSet_ne {g h : Nat} (x : Group) (s : State) (e : h ≠ g) : groupGet (groupSet g x s) h = groupGet s h := by
  simp [groupGet, groupSet, mapFind_insert_ne _ _ e]

@[simp] theorem arbGet_arbSet (kind inst : Nat) (x : Arbiter) (s : State) : arbGet (arbSet kind inst x s) kind inst = x := by
  simp [arbGet, arbSet]

theorem rodGet_rodSet (n : Nat) (x : Rod) (s : State) (h : mapWf {} s.rods = true) : rodGet (rodSet n x s) n = x :=
  mapGet_set_self n x h

theorem rodGet_rodSet_ne {n m : Nat} (x : Rod) (s : State) (h : m ≠ n) : rodGet (rodSet n x s) m = rodGet s m :=
  mapGet_set_ne ({} : Rod) s.rods x h

theorem qGet_qSet (q : Nat) (x : Queue) (s : State) (h : mapWf {} s.host.queues = true) : qGet (qSet q x s) q = x :=
  mapGet_set_self q x h

theorem qGet_qSet_ne {q p : Nat} (x : Queue) (s : State) (h : p ≠ q) : qGet (qSet q x s) p = qGet s p :=
  mapGet_set_ne ({} : Queue) s.host.queues x h

theorem peerGet_peerSet (d : Nat) (x : Peer) (s : State) (h : mapWf {} s.zl.peers = true) : peerGet (peerSet d x s) d = x :=
  mapGet_set_self d x h

theorem objGet_objSet (n : Nat) (x : Object) (s : State) (h : mapWf {} s.objects = true) : objGet (objSet n x s) n = x :=
  mapGet_set_self n x h

theorem objGet_objSet_ne {n m : Nat} (x : Object) (s : State) (h : m ≠ n) : objGet (objSet n x s) m = objGet s m :=
  mapGet_set_ne ({} : Object) s.objects x h

/-- A byte of memory outside those that a write names reads as before. -/
theorem mem_write_frame (s : State) (a : Nat) (bs : Bytes) {i : Nat} (h : i < a ∨ a + bs.length ≤ i) :
    memGet ({ s with mem := memWrite s.mem a bs } : State).mem i = memGet s.mem i := memGet_write_out s.mem a bs h

end Sys2Proof.Machine
end

