-- ==== Sys2Proof/WellFormed.lean ====
section
/-!
DEFINITION. Operands within the width that the spec gives their fields (T10.2, T10.3, T11.2, T11.4, T12.2, T12.6, T17.7).
The meanings are total: an ill-formed command is one that nothing outside the device can send.
-/

namespace Sys2Proof

/-- A packet header's fields (T10.3). -/
def MsgHdr.wf (h : MsgHdr) : Bool :=
  decide (h.port < 32) && decide (h.src < 4096) && decide (h.srcBoot < 65536) && decide (h.dstBoot < 65536) && decide (h.mseq < 2 ^ 32)

/-- A MEMBER message's fields (T11.2). -/
def MemMsg.wf (m : MemMsg) : Bool :=
  m.hdr.wf && decide (m.group < 2 ^ 32) && decide (m.view < 2 ^ 32) && decide (m.member < 4096) && decide (m.device < 4096)
    && decide (m.newState < 4) && decide (m.step < 2 ^ 32)

/-- A COLL_STEP message's fields (T11.4). -/
def CollMsg.wf (m : CollMsg) : Bool :=
  m.hdr.wf && decide (m.group < 2 ^ 32) && decide (m.view < 2 ^ 32) && decide (m.run < 65536) && decide (m.member < 4096)
    && decide (m.unit < 2 ^ 32) && decide (m.gen < 4) && decide (m.ackCode < 4) && decide (m.count < 65536)
    && decide (m.mask < 65536) && decide (m.reasons < 2 ^ 32) && decide (m.records.length < 32)

/-- A sequence number (R346): 64 bits, from 1. -/
def seqWf (seq : Nat) : Bool := decide (1 ≤ seq) && decide (seq < 2 ^ 64)

/-- An error of a rod store lies in a word of the store (R80, R166). -/
def upsetWf (e : Option Upset) : Bool := e.all (fun u => decide (u.addr < 0x300000))

/-- The operands of a command are ones its sender can give. -/
def Instr.wf : Instr → Bool
  | .identify _ seq => seqWf seq
  | .getInfo _ seq => seqWf seq
  | .setParamQueue _ seq => seqWf seq
  | .setParamFcSeverity _ seq => seqWf seq
  | .setParamPowerLimit _ seq => seqWf seq
  | .setParamZlDeviceId _ seq => seqWf seq
  | .setParamZlPortEnable _ seq => seqWf seq
  | .setParamZlMirrorPorts _ seq => seqWf seq
  | .setParamJournalFlush _ seq => seqWf seq
  | .setParamCsSegMode _ seq => seqWf seq
  | .setParamWvLog2 _ seq => seqWf seq
  | .setParamWvThresh _ seq => seqWf seq
  | .getParam _ seq => seqWf seq
  | .setTallyBudget _ seq => seqWf seq
  | .setTallyMode _ seq => seqWf seq
  | .hostAdopt _ seq => seqWf seq
  | .ctxCreate _ seq => seqWf seq
  | .ctxDestroy _ seq => seqWf seq
  | .ctxReset _ seq => seqWf seq
  | .partConfigClaim _ seq => seqWf seq
  | .partConfigRelease _ seq => seqWf seq
  | .partConfigSetFlags _ seq => seqWf seq
  | .partReset _ seq _ => seqWf seq
  | .objRegister _ seq => seqWf seq
  | .objRelease _ seq => seqWf seq
  | .objPlace _ seq => seqWf seq
  | .copyBytes _ seq => seqWf seq
  | .prefetchSchedule _ seq => seqWf seq
  | .quotaSet _ seq => seqWf seq
  | .launch _ seq => seqWf seq
  | .launchChain _ seq => seqWf seq
  | .peerDiscover _ seq => seqWf seq
  | .routeSet _ seq => seqWf seq
  | .collGroupCreate _ seq => seqWf seq
  | .collGroupAdmit _ seq => seqWf seq
  | .collGroupBind _ seq => seqWf seq
  | .collGroupUnbind _ seq => seqWf seq
  | .collGroupDestroy _ seq => seqWf seq
  | .collRun _ seq => seqWf seq
  | .collRunGrad _ seq => seqWf seq
  | .codeTableLoad _ seq => seqWf seq
  | .baseSet _ seq => seqWf seq
  | .stepBegin _ seq => seqWf seq
  | .stepCommit _ seq => seqWf seq
  | .updateRun _ seq _ => seqWf seq
  | .excludeMember _ seq => seqWf seq
  | .snapshot _ seq => seqWf seq
  | .restoreShard _ seq _ => seqWf seq
  | .exportShard _ seq => seqWf seq
  | .fillFromPeer _ seq _ _ => seqWf seq
  | .digestCompare _ seq _ => seqWf seq
  | .selfTestArrayBist _ seq _ => seqWf seq
  | .selfTestRsMarch _ seq _ => seqWf seq
  | .selfTestLoopback _ seq _ => seqWf seq
  | .selfTestWvCheck _ seq _ => seqWf seq
  | .calibrateThermal _ seq => seqWf seq
  | .calibrateHbmPhy _ seq => seqWf seq
  | .calibrateSpeed _ seq => seqWf seq
  | .deferredTestStart _ seq _ => seqWf seq
  | .deferTimeout _ seq => seqWf seq
  | .readCounters _ seq => seqWf seq
  | .faultRead _ seq => seqWf seq
  | .faultClear _ seq => seqWf seq
  | .escalationSet _ seq => seqWf seq
  | .escalationReturn _ seq => seqWf seq
  | .fwStage _ seq => seqWf seq
  | .fwActivate _ seq => seqWf seq
  | .attest _ seq => seqWf seq
  | .certRead _ seq => seqWf seq
  | .pairBind _ seq => seqWf seq
  | .pairUnbind _ seq => seqWf seq
  | .pairBindTimeout _ seq => seqWf seq
  | .pairStatus _ seq => seqWf seq
  | .resumePoint _ seq => seqWf seq
  | .adminCfgWrite _ _ => true
  | .dbSqWrite _ _ _ => true
  | .dbCqWrite _ _ _ => true
  | .registerWrite _ offset _ _ => decide (offset < 65536)
  | .programStart _ => true
  | .descFetch _ => true
  | .descIssue _ => true
  | .descComplete _ _ => true
  | .loadTile _ e => upsetWf e
  | .bankLoad _ e => upsetWf e
  | .loadw _ e => upsetWf e
  | .gather _ e => upsetWf e
  | .storeTile _ e => upsetWf e
  | .scatter _ e => upsetWf e
  | .mma _ e => upsetWf e
  | .swap _ e => upsetWf e
  | .drain _ e => upsetWf e
  | .mmv _ e => upsetWf e
  | .vec _ e => upsetWf e
  | .reduce _ e => upsetWf e
  | .sortKeys _ e => upsetWf e
  | .setins _ e => upsetWf e
  | .setprobe _ e => upsetWf e
  | .layerBegin _ => true
  | .layerEnd _ => true
  | .checkNext _ => true
  | .waitCtr _ => true
  | .signalCtr _ => true
  | .rodBarrier _ => true
  | .syncTimeout _ => true
  | .tierHint _ => true
  | .setPhase _ => true
  | .endProgram _ => true
  | .wvCompare _ => true
  | .speedMeasure mhz => decide (mhz.length = 16) && mhz.all (· < 4096)
  | .thermalGradientCheck => true
  | .timerefLoss => true
  | .timerefReturn => true
  | .heartbeatAdvance _ => true
  | .heartbeatTimeout => true
  | .watchdogChipReset => true
  | .faultMessage _ => true
  | .powerCycleRepeat => true
  | .fcParityError _ => true
  | .thermtrip _ => true
  | .engineReset _ => true
  | .partitionReset _ => true
  | .chipReset _ => true
  | .replay => true
  | .pwrEnRise _ _ => true
  | .pwrEnFall => true
  | .conversionStop => true
  | .vin52Loss => true
  | .powerReading _ => true
  | .sensorRead readings => readings.all (fun r => decide (r.sensor < 128))
  | .convOvercurrent _ => true
  | .convOvertemp _ => true
  | .convShutdown _ => true
  | .softStartDone => true
  | .rotSelfTest _ => true
  | .bootRomLoad => true
  | .firstStageStart => true
  | .configImageApply _ _ => true
  | .memoryTraining _ => true
  | .firmwareAreaPrepare => true
  | .readyHigh => true
  | .hostLinkUp _ => true
  | .hostPortReset _ _ => true
  | .sbGetStatus => true
  | .sbFaultRead offset => decide (offset < 2 ^ 32)
  | .resetChip => true
  | .recoveryWrite offset _ => decide (offset < 2 ^ 32)
  | .recoveryCommit => true
  | .mctpControl _ => true
  | .pldmRequest _ _ => true
  | .setdasa staticAddr dynAddr => decide (staticAddr < 128) && decide (dynAddr < 128)
  | .entdaa dynAddr => decide (dynAddr < 128)
  | .sbWriteRetry => true
  | .doeDiscovery _ index => decide (index < 256)
  | .getVersion _ => true
  | .getCapabilities _ => true
  | .negotiateAlgorithms _ _ _ => true
  | .getDigests _ => true
  | .getCertificate _ slot offset length => decide (slot < 16) && decide (offset < 65536) && decide (length < 65536)
  | .challenge _ slot nonce => decide (slot < 256) && decide (nonce.length = 32)
  | .getMeasurements _ index signed nonce => decide (index < 256) && (!signed || decide (nonce.length = 32))
  | .unsupportedRequest _ code => decide (code < 256)
  | .tokenRefill => true
  | .extest => true
  | .clamp => true
  | .highz => true
  | .bypass => true
  | .idcode => true
  | .samplePreload => true
  | .hbmRead _ _ _ pa _ => decide (pa < 2 ^ 40)
  | .hbmWrite _ _ _ pa data _ _ => decide (pa < 2 ^ 40) && decide (0 < data.length)
  | .patrolScrub _ burst _ => decide (burst < 33554432)
  | .hbmCeRate _ => true
  | .phyCalibration _ => true
  | .csRequest _ _ _ va _ _ _ => decide (va < 2 ^ 48)
  | .rsWindowAccess _ _ _ pa _ _ _ => decide (pa < 2 ^ 40)
  | .useReport _ => true
  | .tierMiss _ va _ => decide (va < 2 ^ 48)
  | .pageArrival _ _ => true
  | .hintService _ => true
  | .tierStarvation _ => true
  | .codewordRead _ _ _ _ _ => true
  | .sourceTimeout _ _ _ => true
  | .tileCommit _ _ => true
  | .stripeCloseTimeout _ => true
  | .mapCheckpoint => true
  | .mountTier _ _ => true
  | .staticWearLevel _ => true
  | .readDisturbRefresh _ => true
  | .retentionTick _ _ => true
  | .readScan outcomes => decide (outcomes.length ≤ 65536)
  | .dieFailure _ => true
  | .countedSlot _ inst _ => decide (inst < 256)
  | .tallyStarvation _ inst _ => decide (inst < 256)
  | .trainingAttempt _ _ => true
  | .trainingTimeout _ => true
  | .hello _ _ => true
  | .flitReceive _ _ flit => decide (flit.length = 256)
  | .nak _ fseq => decide (fseq < 4096)
  | .ackTimeout _ => true
  | .recoveryTimeout _ => true
  | .retryRateCheck _ => true
  | .lossOfSignal _ => true
  | .peerSafe _ => true
  | .packetForward _ => true
  | .noRoute _ => true
  | .escapeTimeout _ => true
  | .sessionOpen h => h.wf
  | .sessionAccept h => h.wf
  | .ack h _ mseq _ => h.wf && decide (mseq < 2 ^ 32)
  | .stale h => h.wf
  | .retransmitTimeout _ _ mseq => decide (mseq < 2 ^ 32)
  | .streamTimeout _ _ => true
  | .tileWrite h group _ _ _ _ => h.wf && decide (group < 2 ^ 32)
  | .tileRead h group _ _ _ => h.wf && decide (group < 2 ^ 32)
  | .tileData h _ _ _ _ => h.wf
  | .journalMsg h _ => h.wf
  | .mirrorState h _ => h.wf
  | .snapCopy h _ => h.wf
  | .remoteQuery h => h.wf
  | .remoteReply h _ => h.wf
  | .excludeReq m => m.wf
  | .admitReq m => m.wf
  | .viewChange m => m.wf
  | .viewQuery m => m.wf
  | .viewReply m => m.wf
  | .arrive m => m.wf
  | .barrierRelease m _ _ => m.wf
  | .barrierStall _ => true
  | .collReady m => m.wf
  | .contrib m => m.wf
  | .landing _ => true
  | .collFinal m => m.wf
  | .collData m => m.wf
  | .resendReq m => m.wf
  | .tableLoad m => m.wf
  | .tableRetire m => m.wf
  | .tableAck m => m.wf
  | .normSum m => m.wf
  | .recoveryExit _ => true
  | .vin52Sag _ => true
  | .vin52SagEnd _ => true
  | .vin52Rise _ => true
  | .completionTimeOut _ _ => true
  | .journalStripeTimeout => true
  | .controlStateRewrite => true
  | .zlRefclkLoss => true
  | .pwrEnLowTimeEnd => true

end Sys2Proof
end

