-- ==== Sys2Proof/Tests/Slice0.lean ====
section
/-!
SUPPORT. Tests: ill-formed commands that WellFormed refuses, values that the spec states, and for every statement with
hypotheses a state and operands that meet them all.
-/

namespace Sys2Proof.Tests

open Sys2Proof Sys2Proof.Machine

set_option Elab.async false

/-! ### States -/

/-- A powered device in service: start-up is complete and both host links are up. -/
def up : State :=
  { sup := { domains := BitVec.allOnes 30, power := .on, pwrEn := true }
    dev := { ready := true, bootStep := 10, stage := 9, zlId := some 7, bootId := 0x1234#16 }
    ctxs := [(0, {}), (1, {})]
    host := { up := 3#2, trained := 3#2 } }

/-- An accepted command. -/
def cm (op ctx : Nat) (params : Bytes) : Cmd :=
  { jidx := 1, seq := 1, queue := 0, opcode := op, ctx := ctx, accepted := true, flags := 1, params := params }

/-- `s` with one accepted command. -/
def withCmd (op ctx : Nat) (params : Bytes) (s : State) : State :=
  { s with jr := { s.jr with ring := [cm op ctx params], next := 2 } }

/-- A device in service with one accepted command. -/
def st (op ctx : Nat) (params : Bytes) : State := withCmd op ctx params up

/-- The parameters of a SET_PARAM (T12.20). -/
def pset (param idx val : Nat) : Bytes := natLe 4 param ++ natLe 4 idx ++ natLe 8 val

/-- Parameters of an OBJ_REGISTER of one page at address 0 in the user region. -/
def regParams : Bytes := natLe 8 0 ++ natLe 4 1 ++ [2, 0, 0, 0] ++ natLe 4 0xFFFFFFFF

/-- An object of context 1 with one page in HBM, and a shared one. -/
def nearObj : Object :=
  { owner := 1, count := 1, writable := true, maps := [(1, 0)], pages := [(0, { loc := .hbm 0 0 })] }

/-- The object in the user region. -/
def ownObj : Object := { nearObj with home := 2, pages := [(0, { flash := true })] }

/-- A shared object of context 0's partition that context 1 does not map yet. -/
def sharedObj : Object := { owner := 0, count := 1, shared := true, maps := [(0, 0)] }

/-- A descriptor word: its opcode and its fields by their lowest bit. -/
def wd (op : Nat) (fs : List (Nat × Nat)) : BitVec 256 := BitVec.ofNat 256 (fs.foldl (fun a f => a + f.2 * 2 ^ f.1) op)

/-- A program of context 1. -/
def run1 : Run := { l := { ctx := 1, va := 0, number := 0, cmd := 1 }, next := 0 }

/-- A device in service whose rod 0 runs a program; its context maps one page. -/
def rodUp (r : Run) : State := { up with rods := [(0, { run := some r, last := some 1 })], objects := [(3, nearObj)] }

/-- A descriptor in a unit or in the sequencer. -/
def fl (w : BitVec 256) : Flight := { va := 32, word := w }

/-- A window parameter block at the start of rod store 0: one element in each dimension. -/
def windowMem : Mem := memWrite [] (rsBase 0) (natLe 64 (2 ^ 192 + 2 ^ 160 + 2 ^ 128 + 6 * 2 ^ 100))

/-- A STORE into G, and a device whose context 1 has an open step of that job. -/
def landFl : Flight := fl (wd 0x04 [(130, 1), (114, 32), (111, 2), (108, 1)])
def landRun : Run := { run1 with move := [landFl] }
def landUp : State :=
  { rodUp landRun with
    ctxs := [(0, {}), (1, { train := { st := .opened, job := byteSlice (List.replicate 40 0 ++ [1] ++ List.replicate 19 0 ++ [3]) 0 80 } })] }

/-- Where byte 5 of that page lies, and how it is cached. -/
def csPa : Nat := match translate { up with objects := [(3, nearObj)] } 1 5 false with | .ok pa _ _ _ => pa | _ => 0
def csCache : Nat := match translate { up with objects := [(3, nearObj)] } 1 5 false with | .ok _ _ _ c => c | _ => 0

/-- A device in service with the store die mounted and one page of context 1 in the user region. -/
def deepUp : State :=
  { up with
    objects := [(3, { ownObj with maps := [(1, 0)] })]
    deep := { mounted := true, map := [(tileKey 3 0 5, { block := 0 })], blocks := [(0, { tiles := [tileKey 3 0 5], used := 1 })] } }

/-- That device with an open block on every die of stripe group 0, and tiles that wait for its stripe. -/
def stripeUp (l : List TileWrite) : State :=
  { deepUp with
    deep := { deepUp.deep with
      stripes := [(0, l)]
      blocks := []
      current := [(0, 0), (8, 1), (16, 2), (24, 3), (32, 4), (40, 5), (48, 6), (56, 7)] }
    clk := { ltc := 100000 } }

theorem dieRoom_open {s : State} {d b : Nat} (h : mapFind s.deep.current (2 * d + if false then 1 else 0) = some b)
    (hb : blockGet s b = {}) : dieRoom s false d = true := by
  have h' : mapFind s.deep.current (2 * d) = some b := h
  simp [dieRoom, openRoom, h', hb, blockTiles]

theorem groupDies_whole {s : State} (h : s.deep.failedDies = 0#32) : groupDies s 0 = [0, 4, 8, 12, 16, 20, 24, 28] := by
  unfold groupDies
  rw [h]
  decide +kernel

/-- Whatever a block holds, an open block that is empty has room. -/
theorem stripeUp_ready (l : List TileWrite)
    (h : (flashRuns (stripeUp l) && !(nextStripe (stripeUp l) 0).isEmpty
      && !keySlc ((nextStripe (stripeUp l) 0).headD { key := 0 }).key) = true) : stripeReady (stripeUp l) 0 = true := by
  simp only [Bool.and_eq_true, Bool.not_eq_true'] at h
  simp only [stripeReady, h.1.1, h.1.2, h.2, stripeRoom, groupDies_whole (s := stripeUp l) rfl]
  simp only [List.all_cons, List.all_nil, dieRoom_open (s := stripeUp l) (d := 0) (b := 0) rfl rfl,
    dieRoom_open (s := stripeUp l) (d := 4) (b := 1) rfl rfl, dieRoom_open (s := stripeUp l) (d := 8) (b := 2) rfl rfl,
    dieRoom_open (s := stripeUp l) (d := 12) (b := 3) rfl rfl, dieRoom_open (s := stripeUp l) (d := 16) (b := 4) rfl rfl,
    dieRoom_open (s := stripeUp l) (d := 20) (b := 5) rfl rfl, dieRoom_open (s := stripeUp l) (d := 24) (b := 6) rfl rfl,
    dieRoom_open (s := stripeUp l) (d := 28) (b := 7) rfl rfl]
  rfl

/-- A device with a live port 3 to device 9, and a session open with it. -/
def linkUp3 : State :=
  { up with zl := { ports := [(3, { st := .up })], peers := [(9, { isOpen := true, boot := 5, route := 0x8000000000000008#64 })] } }

/-- The header of the next message from device 9. -/
def hd : MsgHdr := ⟨3, 9, 5, 0x1234, 0⟩

/-- A state at another value of the local time counter. -/
def atTick (n : Nat) (s : State) : State := { s with clk := { s.clk with ltc := n } }

/-- That device with port 3 in another state. -/
def port3 (x : Port) : State := { linkUp3 with zl := { linkUp3.zl with ports := [(3, x)] } }

/-- A packet of one flit to device 9 that waits. -/
def wait9 : Waiting := { pkt := { dst := 9, src := 7, flits := 1 }, flits := [List.replicate 240 0] }
def waitUp (w : Waiting) : State := { linkUp3 with zl := { linkUp3.zl with waiting := [w] } }

/-- The same with no credit left on VC 0, and an escape port. -/
def escapeUp : State :=
  { waitUp wait9 with zl := { (waitUp wait9).zl with
      ports := [(3, { st := .up, used := [(0, 384)] })]
      peers := [(9, { isOpen := true, boot := 5, route := 0x8700000000000008#64 })] } }

/-- An intact DATA flit with FSEQ 0 that starts no packet here. -/
def dataFlit : Bytes :=
  let bs := natLe 12 (2 ^ 66) ++ List.replicate 240 (0 : Byte)
  bs ++ natLe 4 (crc32c bs)

/-- An intact IDLE flit that acknowledges FSEQ 7. -/
def idleFlit : Bytes :=
  let bs := natLe 12 (7 * 2 ^ 72 + 2 ^ 70) ++ List.replicate 240 (0 : Byte)
  bs ++ natLe 4 (crc32c bs)

/-- A device with that session and group 4 of context 1, to which object 3 is bound. -/
def group4 : Group := { ctx := 1, own := 0, members := [(7, 0), (9, 0)], bound := [3] }
def tileUp : State := { linkUp3 with objects := [(3, nearObj)], groups := [(4, group4)] }

/-- A MEMBER and a COLL_STEP message of member 1 of group 4. -/
def mm : MemMsg := { hdr := hd, group := 4, view := 0, member := 1, device := 9, newState := 0, step := 0, digest := 0#64, mismatch := false }
def cg : CollMsg :=
  { hdr := hd, group := 4, view := 0, run := 0, member := 1, unit := 0, dropped := false, poisoned := false, gen := 1, ackCode := 0,
    count := 0, mask := 0, reasons := 0, digest := 0#64, records := [] }

/-- That device with its group changed, and with an accepted command too. -/
def groupUp (x : Group) : State := { tileUp with groups := [(4, x)] }
def groupCmd (x : Group) (op : Nat) (ps : Bytes) : State := withCmd op 1 ps (groupUp x)

/-- A run of group 4: its KIND and other fields of T11.3. -/
def runOf (kind : Nat) (fields : List (Nat × Nat)) : CollRun :=
  { run := 0, cmd := 1, view := 0, live := [0, 1]
    desc := natLe 64 (fields.foldl (fun a f => a + f.2 * 2 ^ f.1) (4 * 2 ^ 480 + kind * 2 ^ 476)) }
def runUp (r : CollRun) : State := groupUp { group4 with run := some r }

/-- The device with an open step of a job of group 4. -/
def trainJob : Bytes := byteSlice (List.replicate 16 0 ++ [4]) 0 80
def stepUp (s : State) : State := { s with ctxs := [(0, {}), (1, { train := { st := .opened, job := trainJob } })] }

/-- A code table of T11.5: 32 lengths of 5 bits in 4-bit fields. -/
def table5 : Bytes := List.replicate 15 0x55 ++ [0]

/-- A job of one block for group 4 and context 1: its state objects are 3 to 6, of one page each; its tensor table of one
entry lies at address 0. -/
def job1 : Bytes := natLe 80 (1 + 4 * 2 ^ 128 + 2 ^ 160 + 2 ^ 200 + 2 ^ 320 + 3 * 2 ^ 384 + 4 * 2 ^ 416 + 5 * 2 ^ 448 + 6 * 2 ^ 480 + 2 ^ 608)
def jobObj (k : Nat) : Object := { nearObj with maps := [(1, k * 2097152)], pages := [(0, { loc := .hbm 0 k })] }

/-- A device with group 4, the four state objects of that job, and context 1 in training state `t`. -/
def jobUp (t : Train) : State :=
  { tileUp with
    objects := [(3, jobObj 0), (4, jobObj 1), (5, jobObj 2), (6, jobObj 3)]
    groups := [(4, { group4 with bound := [] })]
    ctxs := [(0, {}), (1, { train := t })]
    deep := { mounted := true } }

/-- That job in IDLE at version 5, and with step 5 open and updated. -/
def idleTrain : Train := { st := .idle, job := job1, version := 5 }
def openTrain : Train := { st := .opened, job := job1, version := 5, step := 5, norms := [(0, 0#64)], gradDone := true, updated := true }

/-- The same with the commit waiting at the barrier. -/
def waitTrain : Train := { openTrain with commit := some { cmd := 1, since := 0 } }

/-- The barrier has been released there at tick 0. -/
def freedUp : State := jobUp { waitTrain with commit := some { cmd := 1, since := 0, released := some 0 } }

/-- The partner is device 9, on mirror port 3. -/
def pairUp (s : State) : State := { s with jr := { s.jr with pair := .bound, partner := 9 }, dev := { s.dev with mirrorPorts := 8#32 } }

/-- A shard of that job as another device holds it: one block of zeros at version 5, with its digest. -/
def zeroData : ShardData :=
  { jobId := 1, jobDef := job1, version := 5, digest := 0#64, weights := List.replicate 4096 0, slots := List.replicate 4224 0,
    wmd := List.replicate 64 0, smd := List.replicate 66 0,
    blocks := [blockDigest 0 5 (byteSlice (List.replicate 4096 0) 0 4096) (byteSlice (List.replicate 4224 0) 0 4224)] }
def zeroShard : ShardData := { zeroData with digest := shardDigest zeroData 0 1 }

theorem shardDigest_digest (d : ShardData) (x : BitVec 64) (f n : Nat) : shardDigest { d with digest := x } f n = shardDigest d f n := rfl

theorem zeroShard_whole {f n : Nat} (hf : f = 0) (hn : n = 1) : shardDigest zeroShard f n = zeroShard.digest := by
  subst hf hn
  exact shardDigest_digest zeroData _ 0 1

/-- This member of group 4 is not whole, and a fill waits. -/
def fillUp : State :=
  withCmd 0x607 1 [4, 0, 0, 0, 0xFF, 0xFF] { jobUp {} with groups := [(4, { group4 with members := [(7, 1), (9, 0)] })] }

/-- Two copies of a job's snapshots are held, and the partner sends a third. -/
def copyUp : State :=
  { pairUp (jobUp {}) with deep := { mounted := true, copyAt := 64, copies := [{ shard := { jobId := 1, version := 1 } }, { shard := { jobId := 1, version := 2 } }] } }
def copy3 : SnapCopy := { shard := { jobId := 1, version := 3 }, pages := 1 }
def copyEnd : State :=
  writeRegion 6 copyUp.deep.copyAt (32 * copy3.pages) { copyUp with deep := { copyUp.deep with copyAt := copyUp.deep.copyAt + 32 * copy3.pages, copies := copyUp.deep.copies ++ [{ shard := copy3.shard, pages := copy3.pages, first := copyUp.deep.copyAt }] } }

/-- A RESTORE waits that takes its shard from the partner. -/
def restoreUp : State := withCmd 0x605 1 [1, 0, 0, 0, 1, 0, 0, 0, 0xFF, 0xFF, 0xFF, 0xFF] (jobUp {})

theorem fillGood_zero {x : Job} (hf : x.first = 0) (hn : x.n = 1) : fillGood x zeroShard 0 = [0] := by
  have e : (List.range (min 1 (zeroShard.start + zeroShard.blocks.length) - 0)).map (0 + ·) = [0] := rfl
  have b : zeroShard.blocks = [blockDigest 0 5 (byteSlice zeroShard.weights 0 4096) (byteSlice zeroShard.slots 0 4224)] := rfl
  unfold fillGood
  rw [hf, hn, e, List.takeWhile_cons_of_pos (by simp [b, show zeroShard.version = 5 from rfl, show zeroShard.start = 0 from rfl])]
  rfl

/-- Whatever the replica map says, the fill's job is that job: it has one replica. -/
theorem fillJob_zeroShard (y : Group) : fillJob y zeroShard = job1 := by
  unfold fillJob
  dsimp only
  split
  · rename_i r h
    have hr := List.mem_of_find?_eq_some h
    rw [show jobRs zeroShard.jobDef = 1 from by decide +kernel] at hr
    have : r = 0 := by simpa using hr
    subst this
    decide +kernel
  · rfl

/-! An export's operands where the tensor table has one entry, whose size the spec leaves open. -/

theorem rangeMapped_small {s : State} {c va n : Nat} (h : rangeMapped s c va 1 false = true) (hv : va = 0) (hn : n < 4096) :
    rangeMapped s c va n false = true := by
  subst hv
  rcases Nat.eq_zero_or_pos n with h0 | h0
  · subst h0
    simp [rangeMapped, pageBytes]
  · have e : (0 % pageBytes + n + pageBytes - 1) / pageBytes = (0 % pageBytes + 1 + pageBytes - 1) / pageBytes := by
      simp only [pageBytes]
      omega
    unfold rangeMapped at *
    rw [e]
    simp only [Bool.and_eq_true, decide_eq_true_eq] at *
    exact ⟨by omega, h.2⟩

theorem findSome_range {α : Type} {f : Nat → Option α} {m n : Nat} (h : m ≤ n) (e : (List.range n).findSome? f = none) :
    (List.range m).findSome? f = none := by
  rw [List.findSome?_eq_none_iff] at *
  exact fun x hx => e x (List.mem_range.2 (by have := List.mem_range.1 hx; omega))

theorem firstAbsent_le {s : State} {c va m n : Nat} {w : Bool} (h : m ≤ n) (e : firstAbsent s c va n w = none) :
    firstAbsent s c va m w = none := by
  unfold firstAbsent at *
  split
  · rfl
  · rename_i he
    rw [if_neg he] at e
    refine findSome_range (Nat.div_le_div_right ?_) e
    omega

theorem firstBar_le {s : State} {c va m n : Nat} {w : Bool} (h : m ≤ n) (e : firstBar s c va n w = none) :
    firstBar s c va m w = none := by
  unfold firstBar at *
  split
  · rfl
  · rename_i he
    rw [if_neg he] at e
    refine findSome_range (Nat.div_le_div_right ?_) e
    omega

/-- Nothing keeps a command from the first part of a range where nothing keeps it from the range. -/
theorem hitch_le {s : State} {c va m n : Nat} {w : Bool} {l r : List Span} (h : m ≤ n)
    (e : hitch s c (l ++ (va, n, w) :: r) = none) : hitch s c (l ++ (va, m, w) :: r) = none := by
  unfold hitch at *
  split at e
  · exact absurd e nofun
  · rename_i hb
    simp only [Option.map_eq_none_iff, List.findSome?_eq_none_iff, List.mem_append, List.mem_cons] at hb e
    rw [List.findSome?_eq_none_iff.2, List.findSome?_eq_none_iff.2]
    · rfl
    · intro x hx
      rcases List.mem_append.1 hx with h' | h'
      · exact e x (.inl h')
      · rcases List.mem_cons.1 h' with rfl | h'
        · exact firstAbsent_le h (e _ (.inr (.inl rfl)))
        · exact e x (.inr (.inr h'))
    · intro x hx
      rcases List.mem_append.1 hx with h' | h'
      · exact hb x (.inl h')
      · rcases List.mem_cons.1 h' with rfl | h'
        · exact firstBar_le h (hb _ (.inr (.inl rfl)))
        · exact hb x (.inr (.inr h'))

/-- A job whose tensor table has one entry. -/
theorem hitch_table {s : State} {c : Nat} {l r : List Span} {job : Bytes} (h : jobField job 76 4 = 1)
    (e : hitch s c (l ++ (jobField job 64 8, 4096, false) :: r) = none) :
    hitch s c (l ++ (jobField job 64 8, Config.tensorBytes.val * jobField job 76 4, false) :: r) = none :=
  hitch_le (by have := Config.tensorBytes.isLt; rw [h]; omega) e

theorem exportBad_one {s : State} {c : Cmd} (h0 : c.p 0 1 = 0) (ht : jobField (ctxGet s c.ctx).train.job 76 4 = 1)
    (hv : jobField (ctxGet s c.ctx).train.job 64 8 = 0) (h : rangeMapped s c.ctx (jobField (ctxGet s c.ctx).train.job 64 8) 1 false = true) :
    exportBad s c (exportOf s c) = false := by
  have hm := rangeMapped_small h hv (n := Config.tensorBytes.val * 1) (by have := Config.tensorBytes.isLt; omega)
  simp only [exportBad, exportOf, h0, ht, hm]
  rfl

theorem tensorRecords_clean {s : State} {x : Job} (hf : x.first = 0) (hn : x.n = 1) (hb : (x.block s 0).2.2 = false) (v : Nat) (t : Tensor) :
    (tensorRecords s x v t).2 = false := by
  unfold tensorRecords
  dsimp only
  split
  · rfl
  · rename_i h
    rw [hf, hn] at *
    have e : max t.first 0 = 0 := by omega
    have e' : min (t.first + (t.shape.foldl (· * ·) 1 + 2047) / 2048) (0 + 1) = 1 := by omega
    simp only [e, e']
    simp [hb]

theorem exportRecords_clean {s : State} {c : Cmd} {x : Job} {e : Export} (hf : x.first = 0) (hn : x.n = 1) (hb : (x.block s 0).2.2 = false) :
    (exportRecords s c x e).2 = false := by
  simp [exportRecords, tensorRecords_clean hf hn hb]

/-- A device in service whose fault service runs, with the heartbeat armed and 101,000,000 ticks on the counter. -/
def fcUp : State := { up with fc := { service := true }, clk := { ltc := 101000000, armed := true } }

/-- PD_ON runs in a sag that leaves it 0.65 V or more. -/
theorem zenithRuns_sag {s : State} (h : s.sup.domains.getLsbD 0 = true) (k : 650 ≤ 750 * s.sup.vin52 / 40000) : zenithRuns s = true := by
  have := Config.logicStopMv.isLt
  simp [zenithRuns, stalled, h]
  omega

/-- A stack's correctable-error message with even parity: source 0x300, kind 0, address 0. -/
def msgOf (src : Nat) : BitVec 67 := faultMsg src 0 0

/-- PD_ON is powered and start-up stands at a step. -/
def bootAt (n : Nat) : State := { State.reset with sup := { domains := 1#30, power := .on, pwrEn := true }, dev := { bootStep := n } }

/-- A device in service with eight attestation tokens, a 3-byte certificate chain and staged bytes. -/
def trustUp : State := { up with trust := { tokens := 8, certs := [(0, [1, 2, 3])], stagedLast := true } }

/-- The SPDM negotiation of the sideband's responder is complete. -/
def spdmUp : State := { trustUp with side := { spdm := [(2, { version := true, caps := true, algs := true })] } }

/-- Start-up has ended in stage 0xE. -/
def stage14 : State := { up with dev := { stage := 14 } }

/-- The mirror port leads to device 9, by its HELLO; the pair is in state `p`. -/
def pairLed (p : Pair) : State :=
  let s := pairUp linkUp3
  { s with jr := { pair := p, partner := if p = .unbound then 0 else 9 }
           zl := { s.zl with ports := [(3, { st := .up, hello := some (BitVec.ofNat 128 (9 * 2 ^ 52 + 2 ^ 51)) })] } }

/-- The bound device with an accepted PAIR_BIND. -/
def pairLedCmd (ps : Bytes) : State := { pairLed .bound with jr := { ring := [cm 0x900 0 ps], next := 2, pair := .bound, partner := 9 } }

/-! ### Commands that nothing can send: each check of WellFormed refuses one -/

def badHdr : MsgHdr := { hd with src := 4096 }

theorem test_wf_seq : (Instr.identify 0 0).wf = false := by decide
theorem test_wf_seq_top : (Instr.resumePoint 511 (2 ^ 64)).wf = false := by decide
theorem test_wf_register : (Instr.registerWrite 0 65536 false 0).wf = false := by decide
theorem test_wf_speed_count : (Instr.speedMeasure [1000]).wf = false := by decide
theorem test_wf_speed_range : (Instr.speedMeasure (List.replicate 15 1000 ++ [4096])).wf = false := by decide
theorem test_wf_sensor : (Instr.sensorRead [⟨128, 0, false⟩]).wf = false := by decide
theorem test_wf_sbFaultRead : (Instr.sbFaultRead (2 ^ 32)).wf = false := by decide
theorem test_wf_recoveryWrite : (Instr.recoveryWrite (2 ^ 32) []).wf = false := by decide
theorem test_wf_setdasa_static : (Instr.setdasa 128 8).wf = false := by decide
theorem test_wf_setdasa_dynamic : (Instr.setdasa 8 128).wf = false := by decide
theorem test_wf_entdaa : (Instr.entdaa 128).wf = false := by decide
theorem test_wf_doeDiscovery : (Instr.doeDiscovery 0 256).wf = false := by decide
theorem test_wf_certificate_slot : (Instr.getCertificate 0 16 0 0).wf = false := by decide
theorem test_wf_certificate_offset : (Instr.getCertificate 0 0 65536 0).wf = false := by decide
theorem test_wf_certificate_length : (Instr.getCertificate 0 0 0 65536).wf = false := by decide
theorem test_wf_challenge_slot : (Instr.challenge 0 256 (List.replicate 32 0)).wf = false := by decide
theorem test_wf_challenge_nonce : (Instr.challenge 0 0 [1]).wf = false := by decide
theorem test_wf_measurements_index : (Instr.getMeasurements 0 256 false []).wf = false := by decide
theorem test_wf_measurements_nonce : (Instr.getMeasurements 0 1 true [1]).wf = false := by decide
theorem test_wf_unsupported : (Instr.unsupportedRequest 0 256).wf = false := by decide
theorem test_wf_hbmRead : (Instr.hbmRead 0 .maint 0 (2 ^ 40) .clean).wf = false := by decide
theorem test_wf_patrol : (Instr.patrolScrub 0 33554432 .clean).wf = false := by decide
theorem test_wf_upset : (Instr.mma 0 (some { addr := 0x300000, fixed := false })).wf = false := by decide
theorem test_wf_hbmWrite_empty : (Instr.hbmWrite 0 .maint 0 0 [] 0 false).wf = false := by decide
theorem test_wf_csRequest : (Instr.csRequest 0 .maint 0 (2 ^ 48) none 32 .clean).wf = false := by decide
theorem test_wf_rsWindow : (Instr.rsWindowAccess 0 .maint 0 (2 ^ 40) none 32 .clean).wf = false := by decide
theorem test_wf_tierMiss : (Instr.tierMiss 0 (2 ^ 48) none).wf = false := by decide
theorem test_wf_arbiter : (Instr.countedSlot 0 256 []).wf = false ∧ (Instr.tallyStarvation 0 256 0).wf = false := by decide
theorem test_wf_tile_group : (Instr.tileRead hd (2 ^ 32) 0 0 0).wf = false := by decide
theorem test_wf_retransmit : (Instr.retransmitTimeout 0 0 (2 ^ 32)).wf = false := by decide
theorem test_wf_nak : (Instr.nak 0 4096).wf = false := by decide
theorem test_wf_flit : (Instr.flitReceive 0 (some 0) [1]).wf = false := by decide
theorem test_wf_header_source : (Instr.stale badHdr).wf = false := by decide
theorem test_wf_header_port : (Instr.stale { hd with port := 32 }).wf = false := by decide
theorem test_wf_header_boot : (Instr.stale { hd with srcBoot := 65536 }).wf = false := by decide
theorem test_wf_header_number : (Instr.stale { hd with mseq := 2 ^ 32 }).wf = false := by decide
theorem test_wf_ack : (Instr.ack hd 0 (2 ^ 32) false).wf = false := by decide
theorem test_wf_member : (Instr.arrive { mm with member := 4096 }).wf = false := by decide
theorem test_wf_member_state : (Instr.viewChange { mm with newState := 4 }).wf = false := by decide
theorem test_wf_step_message : (Instr.contrib { cg with count := 65536 }).wf = false := by decide
theorem test_wf_step_records : (Instr.contrib { cg with records := List.replicate 32 [] }).wf = false := by decide
theorem test_wf_good : (Instr.identify 511 (2 ^ 64 - 1)).wf = true ∧ (Instr.arrive mm).wf = true ∧ (Instr.contrib cg).wf = true := by decide

/-! ### Values of the spec -/

/-- The state a step answers. -/
def nextOf : Host.Outcome State Fault Refusal → State
  | .next t => t
  | _ => State.reset

/-- The DONE entry of the command of `cm`. -/
def recordOf (o : Host.Outcome State Fault Refusal) : Bytes := ((mapFind (nextOf o).jr.ledger (slotKey 0 1)).map (fun x => x.done)).getD []

/-- T5.2: the largest finite magnitudes are 65,504, 480 and 122,880. -/
theorem test_fp16_top : dec16 0x7BFF#16 = .fin false 2047 5 ∧ 2047 * 2 ^ 5 = 65504 := by decide +kernel
theorem test_m8_top : decM8 0x7F#8 = .fin false 15 5 ∧ 15 * 2 ^ 5 = 480 := by decide +kernel
theorem test_u8_top : decU8 0xFF#8 = .fin false 15 13 ∧ 15 * 2 ^ 13 = 122880 := by decide +kernel
/-- T5.1: with E = 0 an M8 element is a zero, whatever M. -/
theorem test_m8_zero : decM8 0x87#8 = .zero true := by decide +kernel
/-- R114: a scale byte outside −64 to 63 is treated as the nearer limit. -/
theorem test_scale_limits : (scaleOf 0x7F#8).1 = 63 ∧ (scaleOf 0x80#8).1 = -64 ∧ (scaleOf 0xFF#8).1 = -1 := by decide +kernel
/-- R49: sums are truncated toward zero, and a magnitude beyond the largest finite one saturates. -/
theorem test_add_truncates : (add32 0x3F800000#32 0x337FFFFF#32).bits = 0x3F800000#32 := by decide +kernel
theorem test_mul_saturates : (mul32 0x7F7FFFFF#32 0x40000000#32).bits = 0x7F7FFFFF#32 := by decide +kernel
/-- R49: a subnormal operand counts as a zero of its sign. -/
theorem test_flush : (flush32 0x80000001#32).1 = 0x80000000#32 := by decide +kernel
/-- The check value of CRC-32C (over the digits 1 to 9). -/
theorem test_crc32c : crc32c [0x31, 0x32, 0x33, 0x34, 0x35, 0x36, 0x37, 0x38, 0x39] = 0xE3069283 := by decide +kernel
/-- T12.8: part number 0x9600, stepping 0xB0, interface version 0x01. -/
theorem test_identify : byteSlice (recordOf (exec (.identify 0 1) (st 0x100 0 []))) 16 4 = [0x00, 0x96, 0xB0, 0x01] := by decide +kernel
/-- T12.7: SEQ, then a status of SUCCESS. -/
theorem test_done_entry : byteSlice (recordOf (exec (.identify 0 1) (st 0x100 0 []))) 0 10 = [1, 0, 0, 0, 0, 0, 0, 0, 0, 0] := by decide +kernel
/-- T12.8, T12.19: an undefined page completes with INVALID_PARAM. -/
theorem test_getInfo_bad : byteSlice (recordOf (exec (.getInfo 0 1) (st 0x101 0 [0, 0]))) 8 2 = [3, 0] := by decide +kernel
/-- T12.20: POWER_LIMIT resets to 2,000 W and takes 1,200 to 2,100. -/
theorem test_powerLimit : byteSlice (recordOf (exec (.setParamPowerLimit 0 1) (st 0x102 0 (pset 0x11 0 1200)))) 16 2 = [0xD0, 0x07] := by decide +kernel
theorem test_powerLimit_bad : (nextOf (exec (.setParamPowerLimit 0 1) (st 0x102 0 (pset 0x11 0 2101)))).dev.powerLimit = 2000 := by decide +kernel
/-- R480: conversion waits for 43 V. -/
theorem test_rise_waits : (nextOf (exec (.pwrEnRise 0 false) { State.reset with sup := { vin52 := 42999 } })).sup.power = .waitInput := by decide +kernel
theorem test_rise_starts : (nextOf (exec (.pwrEnRise 0 false) { State.reset with sup := { vin52 := 43000 } })).sup.power = .softStart := by decide +kernel
/-- R46, T14.3: the loss of TIMEREF raises source 0x001. -/
theorem test_timeref : (nextOf (exec .timerefLoss up)).fc.net.map msgSource = [0x001] := by decide +kernel
/-- T14.5, R399: a NOTIFY message sets its sticky bit and leaves a record. -/
theorem test_notify : (nextOf (exec (.faultMessage (msgOf 0x300)) fcUp)).fc.sticky.getLsbD 0x300 = true
    ∧ (nextOf (exec (.faultMessage (msgOf 0x300)) fcUp)).fc.ring.map (fun r => r.source) = [0x300] := by decide +kernel
/-- R398: THERMTRIP drives its pin and starts the safe state. -/
theorem test_thermtrip : (nextOf (exec (.thermtrip 5) up)).sup.thermtripLow = true ∧ (nextOf (exec (.thermtrip 5) up)).dev.safe = true := by decide +kernel
/-- R406: the heartbeat advances only when all four cores have completed their loop. -/
theorem test_heartbeat : (nextOf (exec (.heartbeatAdvance 0xF#4) fcUp)).clk.beat = 1 ∧ (nextOf (exec (.heartbeatAdvance 0xE#4) fcUp)).clk.beat = 0 := by decide +kernel
/-- R444: an attestation takes one token. -/
theorem test_tokens : (nextOf (exec (.tokenRefill) { trustUp with trust := { trustUp.trust with tokens := 7 }, clk := { ltc := 100000000 } })).trust.tokens = 8 := by decide +kernel
/-- R455: a reading above the limit lowers the rod groups by 10 mV first. -/
theorem test_lower : (nextOf (exec (.powerReading 2500000) fcUp)).sup.coreMv = 740 ∧ (nextOf (exec (.powerReading 2500000) fcUp)).sup.fabMv = 750 := by decide +kernel
/-- R138: a WV_LOG2 of 17 is refused. -/
theorem test_wvLog2 : byteSlice (recordOf (exec (.setParamWvLog2 0 1) (st 0x102 0 (pset 0x41 0 17)))) 8 2 = [3, 0] := by decide +kernel
/-- The table gives its rows no bits. -/
theorem test_decode_none : decodeTableWord 32 0 = none ∧ up.withFetchWord 32 0 = up := by decide +kernel

/-! ### Hypotheses that are met -/

theorem test_meets_identify : ∃ (q : Fin 512) (seq : Nat) (s : State) (c : Cmd),
    (hostRuns s q seq 0x100 false [] c) :=
  ⟨0, 1, st 0x100 0 [], cm 0x100 0 [], by decide +kernel⟩

theorem test_meets_getInfo_short : ∃ (q : Fin 512) (seq : Nat) (s : State) (c : Cmd) (b : Bytes),
    (hostRuns s q seq 0x101 false [(0, 2), (8, 8)] c) ∧ (infoPage s (c.p 0 2) = some b) ∧ (b.length ≤ 16) :=
  ⟨0, 1, st 0x101 0 [3, 0], cm 0x101 0 [3, 0], natLe 8 0, by decide +kernel⟩

theorem test_meets_getInfo_long : ∃ (q : Fin 512) (seq : Nat) (s : State) (c : Cmd) (b : Bytes),
    (hostRuns s q seq 0x101 false [(0, 2), (8, 8)] c) ∧ (infoPage s (c.p 0 2) = some b) ∧ (16 < b.length) ∧ (linkUp s c.port) :=
  ⟨0, 1, st 0x101 0 [5, 0], cm 0x101 0 [5, 0], (infoPage (st 0x101 0 [5, 0]) 5).getD [], by decide +kernel⟩

theorem test_meets_getParam : ∃ (q : Fin 512) (seq : Nat) (s : State) (c : Cmd) (v : Nat),
    (hostRuns s q seq 0x103 false [(0, 16)] c) ∧ (c.p 0 4 ≠ 1) ∧ (settingValue s (c.p 0 4) (c.p 4 4) = some v) :=
  ⟨0, 1, st 0x103 0 [0x11], cm 0x103 0 [0x11], 2000, by decide +kernel⟩

theorem test_meets_getParam_queue : ∃ (q : Fin 512) (seq : Nat) (s : State) (c : Cmd),
    (hostRuns s q seq 0x103 false [(0, 16)] c) ∧ (c.p 0 4 = 1) ∧ (c.p 4 4 < 512) ∧ (linkUp s c.port) :=
  ⟨0, 1, st 0x103 0 [1], cm 0x103 0 [1], by decide +kernel⟩

theorem test_meets_hostAdopt : ∃ (q : Fin 512) (seq : Nat) (s : State) (c : Cmd),
    (hostRuns s q seq 0x105 false [(0, 3), (8, 64)] c) ∧ (c.p 0 1 ≤ 1) ∧ (c.p 1 1 = 1 - c.p 0 1) ∧ (c.p 2 1 ≤ 1) ∧ (qPort c.queue (qGet s c.queue) = c.port) ∧ ((List.range 512).filter (fun n => qPort n (qGet s n) = c.p 0 1 && (c.p 2 1 = 0 || bitOf (c.p 8 64) n)) ≠ []) :=
  ⟨0, 1, st 0x105 0 ([1, 0, 1, 0, 0, 0, 0, 0] ++ List.replicate 32 0 ++ [1]), cm 0x105 0 ([1, 0, 1, 0, 0, 0, 0, 0] ++ List.replicate 32 0 ++ [1]), by decide +kernel⟩

theorem test_meets_setParamQueue_enable : ∃ (q : Fin 512) (seq : Nat) (s : State) (c : Cmd),
    (paramRuns s q seq 0x01 c) ∧ (c.p 4 4 < 512) ∧ (c.p 4 4 % 256 ≠ 0) ∧ (bitsOf (c.p 16 8) 63 32 = 0 ∧ bitsOf (c.p 16 8) 30 22 = 0 ∧ bitsOf (c.p 16 8) 15 13 = 0 ∧ bitsOf (c.p 16 8) 7 5 = 0) ∧ (qPort (c.p 4 4) (qGet s (c.p 4 4)) = c.port) ∧ ((qGet s (c.p 4 4)).enabled = false) ∧ (bitOf (c.p 16 8) 31) ∧ (ringsOk (bitsOf (c.p 16 8) 4 0) (bitsOf (c.p 16 8) 12 8) (c.p 24 8) (c.p 32 8)) :=
  ⟨0, 1, st 0x102 0 (pset 1 1 0 ++ natLe 8 0x80000504), cm 0x102 0 (pset 1 1 0 ++ natLe 8 0x80000504), by decide +kernel⟩

theorem test_meets_setParamFcSeverity : ∃ (q : Fin 512) (seq : Nat) (s : State) (c : Cmd),
    (paramRuns s q seq 0x10 c) ∧ (sevAllowed (c.p 4 4) (c.p 8 8)) :=
  ⟨0, 1, st 0x102 0 (pset 0x10 0x100 2), cm 0x102 0 (pset 0x10 0x100 2), by decide +kernel⟩

theorem test_meets_setParamPowerLimit : ∃ (q : Fin 512) (seq : Nat) (s : State) (c : Cmd),
    (paramRuns s q seq 0x11 c) ∧ (c.p 4 4 = 0) ∧ (1200 ≤ c.p 8 8 ∧ c.p 8 8 ≤ 2100) :=
  ⟨0, 1, st 0x102 0 (pset 0x11 0 1200), cm 0x102 0 (pset 0x11 0 1200), by decide +kernel⟩

theorem test_meets_setParamZlDeviceId : ∃ (q : Fin 512) (seq : Nat) (s : State) (c : Cmd),
    (paramRuns s q seq 0x20 c) ∧ (c.p 4 4 = 0) ∧ (c.p 8 8 < 4096) ∧ (s.zl.peers.all (fun kv => !kv.2.isOpen)) :=
  ⟨0, 1, st 0x102 0 (pset 0x20 0 4095), cm 0x102 0 (pset 0x20 0 4095), by decide +kernel⟩

theorem test_meets_setParamZlPortEnable : ∃ (q : Fin 512) (seq : Nat) (s : State) (c : Cmd),
    (paramRuns s q seq 0x21 c) ∧ (c.p 4 4 = 0) ∧ (c.p 8 8 < 2 ^ 32) :=
  ⟨0, 1, st 0x102 0 (pset 0x21 0 1), cm 0x102 0 (pset 0x21 0 1), by decide +kernel⟩

theorem test_meets_setParamZlMirrorPorts : ∃ (q : Fin 512) (seq : Nat) (s : State) (c : Cmd),
    (paramRuns s q seq 0x22 c) ∧ (c.p 4 4 = 0) ∧ (c.p 8 8 < 2 ^ 32) ∧ (1 ≤ (maskList (c.p 8 8) 32).length ∧ (maskList (c.p 8 8) 32).length ≤ 4) ∧ ((maskList (c.p 8 8) 32).all (fun p => (mapFind s.parts.ded p).isNone)) ∧ (s.jr.pair ≠ .bound) :=
  ⟨0, 1, st 0x102 0 (pset 0x22 0 3), cm 0x102 0 (pset 0x22 0 3), by decide +kernel⟩

theorem test_meets_setParamJournalFlush : ∃ (q : Fin 512) (seq : Nat) (s : State) (c : Cmd),
    (paramRuns s q seq 0x30 c) ∧ (c.p 4 4 = 0) ∧ (c.p 8 8 = 0) :=
  ⟨0, 1, st 0x102 0 (pset 0x30 0 0), cm 0x102 0 (pset 0x30 0 0), by decide +kernel⟩

theorem test_meets_setParamCsSegMode : ∃ (q : Fin 512) (seq : Nat) (s : State) (c : Cmd),
    (paramRuns s q seq 0x40 c) ∧ (c.p 4 4 < 320) ∧ (c.p 8 8 = 1) ∧ (segScratch s (c.p 4 4) = false) :=
  ⟨0, 1, st 0x102 0 (pset 0x40 319 1), cm 0x102 0 (pset 0x40 319 1), by decide +kernel⟩

theorem test_meets_setParamWvLog2 : ∃ (q : Fin 512) (seq : Nat) (s : State) (c : Cmd),
    (paramRuns s q seq 0x41 c) ∧ (c.p 4 4 < 8) ∧ (4 ≤ c.p 8 8 ∧ c.p 8 8 ≤ 16) :=
  ⟨0, 1, st 0x102 0 (pset 0x41 7 16), cm 0x102 0 (pset 0x41 7 16), by decide +kernel⟩

theorem test_meets_setParamWvThresh : ∃ (q : Fin 512) (seq : Nat) (s : State) (c : Cmd),
    (paramRuns s q seq 0x42 c) ∧ (c.p 4 4 < 8) ∧ (1 ≤ c.p 8 8 ∧ c.p 8 8 ≤ 24) :=
  ⟨0, 1, st 0x102 0 (pset 0x42 0 24), cm 0x102 0 (pset 0x42 0 24), by decide +kernel⟩

theorem test_meets_setTallyBudget : ∃ (q : Fin 512) (seq : Nat) (s : State) (c : Cmd),
    (hostRuns s q seq 0x104 false [(0, 16)] c) ∧ ((tallyCmd c).op = 0 ∧ tallyRangeBad (tallyCmd c) = false ∧ (tallyCmd c).mode = 0 ∧ (tallyCmd c).budget ≤ 4096) ∧ ((tallyCmd c).cls ≠ 60 ∨ (tallyCmd c).kind = 3) ∧ (((tallyCmd c).cls ≠ 61 ∧ (tallyCmd c).cls ≠ 62) ∨ 41 ≤ (tallyCmd c).budget) ∧ (classPart s (tallyCmd c).cls = none) ∧ (∀ i < (tallyCmd c).count, budgetSum { arbGet s (tallyCmd c).kind ((tallyCmd c).first + i) with table := mapSet 0 (arbGet s (tallyCmd c).kind ((tallyCmd c).first + i)).table (tallyCmd c).cls (tallyCmd c).budget } ≤ 4096) :=
  ⟨0, 1, st 0x104 0 (natLe 16 (1 * 2 ^ 116 + 3 * 2 ^ 108 + 2 * 2 ^ 99 + 5 * 2 ^ 93)), cm 0x104 0 (natLe 16 (1 * 2 ^ 116 + 3 * 2 ^ 108 + 2 * 2 ^ 99 + 5 * 2 ^ 93)), by decide +kernel⟩

theorem test_meets_setTallyMode : ∃ (q : Fin 512) (seq : Nat) (s : State) (c : Cmd),
    (hostRuns s q seq 0x104 false [(0, 16)] c) ∧ ((tallyCmd c).op = 1 ∧ tallyRangeBad (tallyCmd c) = false ∧ (tallyCmd c).cls = 0 ∧ (tallyCmd c).budget = 0) :=
  ⟨0, 1, st 0x104 0 (natLe 16 (1 * 2 ^ 120 + 2 * 2 ^ 99)), cm 0x104 0 (natLe 16 (1 * 2 ^ 120 + 2 * 2 ^ 99)), by decide +kernel⟩

theorem test_meets_countedSlot : ∃ (kind : Fin 6) (inst : Nat) (arrivals : List Request) (s : State),
    (inst < arbInstances kind) ∧ (s.dev.safe = false) ∧ (slotRuns s kind = true ∧ (arbJoined s kind inst arrivals).queue ≠ []) :=
  ⟨5, 1, [{ source := 0, traffic := .maint, bytes := 4096 }], up, by decide +kernel⟩

theorem test_meets_countedSlot_waits : ∃ (kind : Fin 6) (inst : Nat) (arrivals : List Request) (s : State),
    (inst < arbInstances kind) ∧ (s.dev.safe = false) ∧ (slotRuns s kind = false ∧ (arbJoined s kind inst arrivals).queue ≠ []) :=
  ⟨4, 1, [{ source := 0, traffic := .maint, bytes := 4096 }], up, by decide +kernel⟩

theorem test_meets_countedSlot_none : ∃ (kind : Fin 6) (inst : Nat) (s : State),
    (inst < arbInstances kind) ∧ (s.dev.safe = false) ∧ ((arbJoined s kind inst []).queue = []) :=
  ⟨0, 1, { up with arbiters := [(1, { table := [(1, 5)] })] }, by decide +kernel⟩

theorem test_meets_tallyStarvation : ∃ (kind : Fin 6) (inst : Nat) (cls : Fin 64) (h : Waiter) (s : State),
    (inst < arbInstances kind) ∧ (s.dev.safe = false) ∧ (starvedHead s kind inst cls = some h) :=
  ⟨4, 15, 63, { source := 2, cls := 63 }, { up with clk := { ltc := 100000000 }, arbiters := [(1039, { queue := [{ source := 2, cls := 63 }] })] }, by decide +kernel⟩

theorem test_meets_ctxCreate : ∃ (q : Fin 512) (seq : Nat) (s : State) (c : Cmd),
    (startable s q seq 0x200 = some c) ∧ (c.rest0 [(0, 2), (8, 8)] = true ∧ c.ctx ≠ 0 ∧ ctxExists s c.ctx = false) ∧ (partDefined s (c.p 0 1) ∧ s.fc.rstParts.contains (c.p 0 1) = false) ∧ (c.p 1 1 ≤ 59 ∧ classPart s (c.p 1 1) = some (c.p 0 1)) ∧ (c.p 8 8 ≠ 0) :=
  ⟨0, 1, withCmd 0x200 9 [0, 0, 0, 0, 0, 0, 0, 0, 7] up, cm 0x200 9 [0, 0, 0, 0, 0, 0, 0, 0, 7], by decide +kernel⟩

theorem test_meets_ctxDestroy : ∃ (q : Fin 512) (seq : Nat) (s : State) (c : Cmd),
    (hostRuns s q seq 0x201 true [] c) ∧ (c.ctx ≠ 0) :=
  ⟨0, 1, st 0x201 1 [], cm 0x201 1 [], by decide +kernel⟩

theorem test_meets_ctxReset : ∃ (q : Fin 512) (seq : Nat) (s : State) (c : Cmd),
    (hostRuns s q seq 0x202 true [] c) ∧ (c.ctx ≠ 0) :=
  ⟨0, 1, st 0x202 1 [], cm 0x202 1 [], by decide +kernel⟩

theorem test_meets_partConfigClaim : ∃ (q : Fin 512) (seq : Nat) (s : State) (c : Cmd),
    (hostRuns s q seq 0x203 false [(0, 3), (8, 84)] c) ∧ (c.p 0 1 = 0 ∧ s.fc.rstParts = []) ∧ (claimCheck (partCmd c) s = stSuccess) :=
  ⟨0, 1, st 0x203 0 [0, 1], cm 0x203 0 [0, 1], by decide +kernel⟩

theorem test_meets_partConfigRelease : ∃ (q : Fin 512) (seq : Nat) (s : State) (c : Cmd),
    (hostRuns s q seq 0x203 false [(0, 3), (8, 84)] c) ∧ (c.p 0 1 = 1 ∧ s.fc.rstParts = []) ∧ (releaseCheck (partCmd c) s = stSuccess) :=
  ⟨0, 1, st 0x203 0 [1, 1], cm 0x203 0 [1, 1], by decide +kernel⟩

theorem test_meets_partConfigSetFlags : ∃ (q : Fin 512) (seq : Nat) (s : State) (c : Cmd),
    (hostRuns s q seq 0x203 false [(0, 3), (8, 84)] c) ∧ (c.p 0 1 = 2 ∧ s.fc.rstParts = [] ∧ c.p 1 1 = 0 ∧ c.p 2 1 = 0) ∧ ((partCmd c).rods = [] ∧ (partCmd c).chans = [] ∧ (partCmd c).segs = [] ∧ (partCmd c).ports = []) :=
  ⟨0, 1, st 0x203 0 [2], cm 0x203 0 [2], by decide +kernel⟩

theorem test_meets_partReset : ∃ (q : Fin 512) (seq : Nat) (ticks : Nat) (s : State) (c : Cmd),
    (hostRuns s q seq 0x204 false [(0, 1)] c) ∧ (partDefined s (c.p 0 1) ∧ s.fc.rstParts.contains (c.p 0 1) = false) :=
  ⟨0, 1, 77, st 0x204 0 [], cm 0x204 0 [], by decide +kernel⟩

theorem test_meets_quotaSet : ∃ (q : Fin 512) (seq : Nat) (s : State) (c : Cmd),
    (hostRuns s q seq 0x305 true [(0, 1), (4, 4)] c) ∧ (c.p 0 1 ≤ 2) ∧ (usedOf s c.ctx (c.p 0 1) ≤ c.p 4 4) ∧ (quotaSum s (ctxPart s c.ctx) (c.p 0 1) - quotaOf s c.ctx (c.p 0 1) + c.p 4 4 ≤ tierCap s (ctxPart s c.ctx) (c.p 0 1)) :=
  ⟨0, 1, st 0x305 1 [0, 0, 0, 0, 5], cm 0x305 1 [0, 0, 0, 0, 5], by decide +kernel⟩

theorem test_meets_objRegister : ∃ (q : Fin 512) (seq : Nat) (s : State) (c : Cmd) (a : Source) (b : Source) (o : Nat),
    (hostRuns s q seq 0x300 true [(0, 8), (8, 4), (12, 1), (13, 1), (16, 4), (32, 16), (48, 16)] c) ∧ (c.p 0 8 % pageBytes = 0 ∧ 1 ≤ c.p 8 4 ∧ c.p 0 8 + c.p 8 4 * pageBytes ≤ 2 ^ 48) ∧ (c.p 12 1 ≤ 2 ∧ bitsOf (c.p 13 1) 4 3 ≠ 3 ∧ bitsOf (c.p 13 1) 7 5 = 0) ∧ (c.p 16 4 = 0xFFFFFFFF ∧ rangeFree s c.ctx (c.p 0 8) (c.p 8 4)) ∧ (sourceOf c 32 = some a ∧ sourceOf c 48 = some b ∧ freeNumber s = o ∧ o < 1048576) :=
  ⟨0, 1, st 0x300 1 regParams, cm 0x300 1 regParams, {}, {}, 0, by decide +kernel⟩

theorem test_meets_objRegister_shared : ∃ (q : Fin 512) (seq : Nat) (s : State) (c : Cmd) (o : Nat),
    (hostRuns s q seq 0x300 true [(0, 8), (8, 4), (12, 1), (13, 1), (16, 4), (32, 16), (48, 16)] c) ∧ (c.p 0 8 % pageBytes = 0 ∧ 1 ≤ c.p 8 4 ∧ c.p 0 8 + c.p 8 4 * pageBytes ≤ 2 ^ 48) ∧ (c.p 12 1 ≤ 2 ∧ bitsOf (c.p 13 1) 4 3 ≠ 3 ∧ bitsOf (c.p 13 1) 7 5 = 0) ∧ (c.p 16 4 = o ∧ o ≠ 0xFFFFFFFF ∧ objExists s o ∧ (objGet s o).shared = true ∧ ctxPart s (objGet s o).owner = ctxPart s c.ctx) ∧ (objBase s c.ctx o = none ∧ c.p 8 4 = (objGet s o).count ∧ rangeFree s c.ctx (c.p 0 8) (objGet s o).count) :=
  ⟨0, 1, { st 0x300 1 (natLe 8 0 ++ natLe 4 1 ++ natLe 4 0 ++ natLe 4 3) with objects := [(3, sharedObj)] }, cm 0x300 1 (natLe 8 0 ++ natLe 4 1 ++ natLe 4 0 ++ natLe 4 3), 3, by decide +kernel⟩

theorem test_meets_objRelease : ∃ (q : Fin 512) (seq : Nat) (s : State) (c : Cmd) (b : Nat),
    (hostRuns s q seq 0x301 true [(0, 4)] c) ∧ (objBase s c.ctx (c.p 0 4) = some b) :=
  ⟨0, 1, { st 0x301 1 [3] with objects := [(3, ownObj)] }, cm 0x301 1 [3], 0, by decide +kernel⟩

theorem test_meets_objPlace : ∃ (q : Fin 512) (seq : Nat) (s : State) (c : Cmd) (b : Nat),
    (hostRuns s q seq 0x302 true [(0, 4), (4, 1), (5, 1), (6, 1), (8, 4), (12, 4)] c) ∧ (objBase s c.ctx (c.p 0 4) = some b ∧ c.p 4 1 ≤ 2 ∧ c.p 5 1 ≤ 1 ∧ c.p 8 4 + c.p 12 4 ≤ (objGet s (c.p 0 4)).count) ∧ ((c.p 5 1 = 0 ∧ c.p 4 1 = 0) → (c.p 6 1 < 32 ∧ groupChans s (ctxPart s (objGet s (c.p 0 4)).owner) (c.p 6 1) ≠ [])) :=
  ⟨0, 1, { st 0x302 1 (natLe 4 3 ++ [2, 0, 0, 0] ++ natLe 4 0 ++ natLe 4 1) with objects := [(3, ownObj)] }, cm 0x302 1 (natLe 4 3 ++ [2, 0, 0, 0] ++ natLe 4 0 ++ natLe 4 1), 0, by decide +kernel⟩

theorem test_meets_prefetchSchedule : ∃ (q : Fin 512) (seq : Nat) (s : State) (c : Cmd),
    (hostRuns s q seq 0x304 true [(0, 1), (2, 2), (16, 65536)] c) ∧ (c.p 0 1 ≤ 15 ∧ c.p 2 2 ≤ 4096 ∧ (schedEntries c).all entryOk ∧ seqStarts (schedEntries c) ∧ seqOk (schedEntries c)) :=
  ⟨0, 1, st 0x304 1 ([2, 0, 1, 0] ++ List.replicate 12 0 ++ natLe 16 (1 * 2 ^ 39)), cm 0x304 1 ([2, 0, 1, 0] ++ List.replicate 12 0 ++ natLe 16 (1 * 2 ^ 39)), by decide +kernel⟩

theorem test_meets_copyBytes : ∃ (q : Fin 512) (seq : Nat) (s : State) (c : Cmd) (d : Bytes) (m : List (BitVec 4)),
    (hostRuns s q seq 0x303 true [(0, 8), (8, 8), (16, 8), (24, 1)] c) ∧ (¬(c.bit 24 0 = true ∧ c.bit 24 1 = true) ∧ bitsOf (c.p 24 1) 7 2 = 0 ∧ c.p 16 8 % 64 = 0 ∧ c.p 0 8 % 64 = 0 ∧ c.p 8 8 % 64 = 0) ∧ (c.bit 24 0 = true ∨ rangeMapped s c.ctx (c.p 0 8) (c.p 16 8) false = true) ∧ (c.bit 24 1 = true ∨ rangeMapped s c.ctx (c.p 8 8) (c.p 16 8) true = true) ∧ (copyBar s c = none) ∧ (copyNeeds s c = none ∧ copyFull s c = false) ∧ ((copyRead c s).1 = some (d, m)) :=
  ⟨0, 1, { st 0x303 1 (natLe 8 0 ++ natLe 8 64 ++ natLe 8 64) with objects := [(3, nearObj)] }, cm 0x303 1 (natLe 8 0 ++ natLe 8 64 ++ natLe 8 64), List.replicate 64 0, [0#4], by decide +kernel⟩

theorem test_meets_launch : ∃ (q : Fin 512) (seq : Nat) (s : State) (c : Cmd) (l : List (Nat × Nat)),
    (hostRuns s q seq 0x400 true [(0, 24), (24, 1)] c) ∧ (launchBad s c = false ∧ launchAbsent s c = none) ∧ (elemPrograms (begun c (noteLaunch c s)) c.ctx (elemOf c 0) = some l) :=
  ⟨0, 1, st 0x400 1 [0, 0, 0, 0, 0, 0, 0, 0, 1], cm 0x400 1 [0, 0, 0, 0, 0, 0, 0, 0, 1], [(0, 0)], by decide +kernel⟩

theorem test_meets_launchChain : ∃ (q : Fin 512) (seq : Nat) (s : State) (c : Cmd) (l : List (Nat × Nat)),
    (hostRuns s q seq 0x401 true [(0, 2), (32, 8192)] c) ∧ (launchBad s c = false ∧ launchAbsent s c = none) ∧ (elemPrograms (begun c (noteLaunch c s)) c.ctx (elemOf c 0) = some l) :=
  ⟨0, 1, st 0x401 1 ([1, 0] ++ List.replicate 38 0 ++ [4]), cm 0x401 1 ([1, 0] ++ List.replicate 38 0 ++ [4]), [(2, 0)], by decide +kernel⟩

theorem test_meets_programStart_same : ∃ (rod : Fin 64) (s : State) (l : Launch) (rest : List Launch),
    (coreHalted s = false) ∧ ((rodGet s rod).run = none ∧ (rodGet s rod).queue = l :: rest ∧ (rodGet s rod).last = some l.ctx) :=
  ⟨63, { up with rods := [(63, { queue := [run1.l], last := some 1 })] }, run1.l, [], by decide +kernel⟩

theorem test_meets_programStart_other : ∃ (rod : Fin 64) (s : State) (l : Launch) (rest : List Launch),
    (coreHalted s = false) ∧ ((rodGet s rod).run = none ∧ (rodGet s rod).queue = l :: rest ∧ (rodGet s rod).last ≠ some l.ctx) :=
  ⟨0, { up with rods := [(0, { queue := [run1.l], last := some 2 })] }, run1.l, [], by decide +kernel⟩

theorem test_meets_descFetch : ∃ (rod : Fin 64) (s : State) (r : Run),
    (coreHalted s = false ∧ hbmHalted s = false) ∧ ((rodGet s rod).run = some r ∧ r.halt = none ∧ r.buf.length < 128) ∧ (r.buf.any (fun d => opOf d.2 = 0x3F) = false ∧ r.ctl.any (fun f => opOf f.word = 0x3F) = false) ∧ (firstAbsent s r.l.ctx r.next 32 false = none) ∧ ((readVa r.l.ctx r.next 32 s).1.acc = .ok) :=
  ⟨0, rodUp run1, run1, by decide +kernel⟩

theorem test_meets_descIssue : ∃ (rod : Fin 64) (s : State) (r : Run) (va : Nat) (w : BitVec 256) (rest : List (Nat × BitVec 256)) (f : Flight),
    (coreHalted s = false) ∧ ((rodGet s rod).run = some r ∧ r.halt = none ∧ r.ctl = none ∧ r.buf = (va, w) :: rest) ∧ (issueHalt s rod r w = none) ∧ (f = { n := r.issued, va := va, word := w, layer := (r.bracket.map (·.layer)).getD 0xFFFF, second := r.replaying, brk := r.bracket.map (·.id), step := stepField s r.l.ctx, check := r.check && decide (opOf w = 0x0A) }) :=
  ⟨0, rodUp { run1 with buf := [(32, wd 0x09 [])] }, { run1 with buf := [(32, wd 0x09 [])] }, 32, wd 0x09 [], [], fl (wd 0x09 []), by decide +kernel⟩

theorem test_meets_descComplete : ∃ (rod : Fin 64) (unit : Fin 4) (s : State) (r : Run) (f : Flight),
    (coreHalted s = false) ∧ ((rodGet s rod).run = some r ∧ (r.unit unit).find? (fun f => f.performed && f.wait = 0) = some f) :=
  ⟨0, 2, rodUp { run1 with array := [{ fl (wd 0x09 []) with performed := true }] }, { run1 with array := [{ fl (wd 0x09 []) with performed := true }] }, { fl (wd 0x09 []) with performed := true }, by decide +kernel⟩

theorem test_meets_layerBegin : ∃ (rod : Fin 64) (s : State) (r : Run) (f : Flight),
    (ctlRuns s rod 0x18 r f) :=
  ⟨0, rodUp { run1 with ctl := some (fl (wd 0x18 [(240, 5)])) }, { run1 with ctl := some (fl (wd 0x18 [(240, 5)])) }, fl (wd 0x18 [(240, 5)]), by decide +kernel⟩

theorem test_meets_layerEnd_close : ∃ (rod : Fin 64) (s : State) (r : Run) (f : Flight) (b : Bracket),
    (ctlRuns s rod 0x19 r f) ∧ (r.bracket = some b ∧ (b.replay = false ∨ (r.idle = true ∧ (b.marked = false ∨ b.second = true)))) ∧ ((sendHeld r.l b.held s).1 = []) :=
  ⟨0, rodUp { run1 with ctl := some (fl (wd 0x19 [(240, 5)])), bracket := some { layer := 5, replay := false } }, { run1 with ctl := some (fl (wd 0x19 [(240, 5)])), bracket := some { layer := 5, replay := false } }, fl (wd 0x19 [(240, 5)]), { layer := 5, replay := false }, by decide +kernel⟩

theorem test_meets_layerEnd_replay : ∃ (rod : Fin 64) (s : State) (r : Run) (f : Flight) (b : Bracket),
    (ctlRuns s rod 0x19 r f) ∧ (r.bracket = some b ∧ b.replay = true ∧ r.idle = true ∧ b.marked = true ∧ b.second = false) :=
  ⟨0, rodUp { run1 with ctl := some (fl (wd 0x19 [(240, 5)])), bracket := some { layer := 5, replay := true, marked := true, back := 64 } }, { run1 with ctl := some (fl (wd 0x19 [(240, 5)])), bracket := some { layer := 5, replay := true, marked := true, back := 64 } }, fl (wd 0x19 [(240, 5)]), { layer := 5, replay := true, marked := true, back := 64 }, by decide +kernel⟩

theorem test_meets_checkNext : ∃ (rod : Fin 64) (s : State) (r : Run) (f : Flight),
    (ctlRuns s rod 0x1A r f) :=
  ⟨0, rodUp { run1 with ctl := some (fl (wd 0x1A [])) }, { run1 with ctl := some (fl (wd 0x1A [])) }, fl (wd 0x1A []), by decide +kernel⟩

theorem test_meets_waitCtr : ∃ (rod : Fin 64) (s : State) (r : Run) (f : Flight),
    (ctlRuns s rod 0x20 r f) ∧ (r.replaying = false ∧ fld f.word 251 220 ≤ mapGet 0 (rodGet s rod).ctrs (fld f.word 255 252)) :=
  ⟨0, rodUp { run1 with ctl := some (fl (wd 0x20 [])) }, { run1 with ctl := some (fl (wd 0x20 [])) }, fl (wd 0x20 []), by decide +kernel⟩

theorem test_meets_waitCtr_replay : ∃ (rod : Fin 64) (s : State) (r : Run) (f : Flight),
    (ctlRuns s rod 0x20 r f) ∧ (r.replaying = true) :=
  ⟨0, rodUp { run1 with ctl := some (fl (wd 0x20 [(220, 9)])), bracket := some { layer := 5, replay := true, second := true } }, { run1 with ctl := some (fl (wd 0x20 [(220, 9)])), bracket := some { layer := 5, replay := true, second := true } }, fl (wd 0x20 [(220, 9)]), by decide +kernel⟩

theorem test_meets_waitCtr_waits : ∃ (rod : Fin 64) (s : State) (r : Run) (f : Flight),
    (ctlRuns s rod 0x20 r f) ∧ (r.replaying = false ∧ mapGet 0 (rodGet s rod).ctrs (fld f.word 255 252) < fld f.word 251 220 ∧ r.waiting = none) :=
  ⟨0, rodUp { run1 with ctl := some (fl (wd 0x20 [(220, 9)])) }, { run1 with ctl := some (fl (wd 0x20 [(220, 9)])) }, fl (wd 0x20 [(220, 9)]), by decide +kernel⟩

theorem test_meets_signalCtr : ∃ (rod : Fin 64) (s : State) (r : Run) (f : Flight),
    (ctlRuns s rod 0x21 r f) ∧ (r.bracket = none ∨ r.bracket.any (fun b => !b.replay)) ∧ ((sendSignal r.l (fld f.word 255 250) (fld f.word 249 246) (fld f.word 245 230) s).1 = true) :=
  ⟨0, rodUp { run1 with ctl := some (fl (wd 0x21 [(230, 1)])) }, { run1 with ctl := some (fl (wd 0x21 [(230, 1)])) }, fl (wd 0x21 [(230, 1)]), by decide +kernel⟩

theorem test_meets_signalCtr_held : ∃ (rod : Fin 64) (s : State) (r : Run) (f : Flight) (b : Bracket),
    (ctlRuns s rod 0x21 r f) ∧ (r.bracket = some b ∧ b.replay = true) :=
  ⟨0, rodUp { run1 with ctl := some (fl (wd 0x21 [(230, 1)])), bracket := some { layer := 5, replay := true } }, { run1 with ctl := some (fl (wd 0x21 [(230, 1)])), bracket := some { layer := 5, replay := true } }, fl (wd 0x21 [(230, 1)]), { layer := 5, replay := true }, by decide +kernel⟩

theorem test_meets_rodBarrier : ∃ (rod : Fin 64) (s : State) (r : Run) (f : Flight) (l : List Use),
    (ctlRuns s rod 0x22 r f) ∧ (r.idle = true ∧ r.arrived = false) ∧ (arriveUse rod (BitVec.ofNat 64 (fld f.word 255 192)) (mapGet [] (stratumGet s (rodPart s rod)).uses (16 * r.l.ctx + fld f.word 191 188)) = some l) :=
  ⟨0, rodUp { run1 with ctl := some (fl (wd 0x22 [(192, 3)])) }, { run1 with ctl := some (fl (wd 0x22 [(192, 3)])) }, fl (wd 0x22 [(192, 3)]), [⟨3#64, [0]⟩], by decide +kernel⟩

theorem test_meets_syncTimeout : ∃ (rod : Fin 64) (s : State) (r : Run) (t : Nat) (f : Flight),
    (coreHalted s = false) ∧ ((rodGet s rod).run = some r ∧ r.waiting = some t ∧ r.ctl = some f ∧ r.timedOut = false ∧ ticksS ≤ s.clk.ltc - t) :=
  ⟨0, { rodUp { run1 with ctl := some (fl (wd 0x20 [(220, 9)])), waiting := some 5 } with clk := { ltc := 100000005 } }, { run1 with ctl := some (fl (wd 0x20 [(220, 9)])), waiting := some 5 }, 5, fl (wd 0x20 [(220, 9)]), by decide +kernel⟩

theorem test_meets_tierHint : ∃ (rod : Fin 64) (s : State) (r : Run) (f : Flight),
    (ctlRuns s rod 0x23 r f) :=
  ⟨0, rodUp { run1 with ctl := some (fl (wd 0x23 [(176, 1)])) }, { run1 with ctl := some (fl (wd 0x23 [(176, 1)])) }, fl (wd 0x23 [(176, 1)]), by decide +kernel⟩

theorem test_meets_setPhase : ∃ (rod : Fin 64) (s : State) (r : Run) (f : Flight),
    (ctlRuns s rod 0x24 r f) :=
  ⟨0, rodUp { run1 with ctl := some (fl (wd 0x24 [(253, 4)])) }, { run1 with ctl := some (fl (wd 0x24 [(253, 4)])) }, fl (wd 0x24 [(253, 4)]), by decide +kernel⟩

theorem test_meets_endProgram : ∃ (rod : Fin 64) (s : State) (r : Run) (f : Flight),
    (ctlRuns s rod 0x3F r f) ∧ (r.idle = true) :=
  ⟨0, rodUp { run1 with ctl := some (fl (wd 0x3F [])) }, { run1 with ctl := some (fl (wd 0x3F [])) }, fl (wd 0x3F []), by decide +kernel⟩

theorem test_meets_endProgram_halted : ∃ (rod : Fin 64) (s : State) (r : Run) (h : Nat × Nat × BitVec 256),
    (coreHalted s = false) ∧ ((rodGet s rod).run = some r ∧ r.halt = some h ∧ r.idle = true) :=
  ⟨0, rodUp { run1 with halt := some (1, 32, 0#256) }, { run1 with halt := some (1, 32, 0#256) }, (1, 32, 0#256), by decide +kernel⟩

theorem test_meets_wvCompare : ∃ (frame : Fin 4) (s : State) (x : Sample) (l : List Sample),
    (coreHalted s = false) ∧ ((wvGet s frame).queue = x :: l) ∧ ((wvNorms x.d x.r).any (fun n => !(n.2 = 0 && n.1 ≠ 0) && !ratioGe n (mapGet 6 s.dev.wvThresh x.part))) :=
  ⟨3, { up with wvs := [(3, { queue := [{ rod := 48, part := 0, ctx := 1, tag := 0, step := 0, layer := 0, second := false, d := [0x3F800000#32], r := [0x3F800000#32] }] })] }, { rod := 48, part := 0, ctx := 1, tag := 0, step := 0, layer := 0, second := false, d := [0x3F800000#32], r := [0x3F800000#32] }, [], by decide +kernel⟩

theorem test_meets_wvCompare_drift : ∃ (frame : Fin 4) (s : State) (x : Sample) (l : List Sample),
    (coreHalted s = false) ∧ ((wvGet s frame).queue = x :: l) ∧ ((wvNorms x.d x.r).all (fun n => (n.2 = 0 && n.1 ≠ 0) || ratioGe n (mapGet 6 s.dev.wvThresh x.part))) :=
  ⟨0, { up with wvs := [(0, { queue := [{ rod := 1, part := 0, ctx := 1, tag := 0, step := 0, layer := 0, second := false, d := [0x3F800000#32], r := [0x40000000#32] }] })] }, { rod := 1, part := 0, ctx := 1, tag := 0, step := 0, layer := 0, second := false, d := [0x3F800000#32], r := [0x40000000#32] }, [], by decide +kernel⟩

theorem test_meets_loadTile : ∃ (rod : Fin 64) (e : Option Upset) (s0 : State) (s : State) (r : Run) (f : Flight) (m : MoveAcc),
    (unitRuns s0 rod 0 0x01 r f) ∧ (upsetOk e = true ∧ afterUpset rod e s0 = s) ∧ (replayBad r ([fld f.word 183 162] ++ (if fmtBlock (fld f.word 110 108) then [fld f.word 107 86] else [])) = false) ∧ ((List.range (fld f.word 145 130)).foldl (loadTileRow rod r f.word) { s := s } = m ∧ m.halt = none ∧ m.wait = false) :=
  ⟨0, none, rodUp { run1 with move := [fl (wd 0x01 [(130, 1), (114, 1), (111, 1), (108, 1)])] }, rodUp { run1 with move := [fl (wd 0x01 [(130, 1), (114, 1), (111, 1), (108, 1)])] }, { run1 with move := [fl (wd 0x01 [(130, 1), (114, 1), (111, 1), (108, 1)])] }, fl (wd 0x01 [(130, 1), (114, 1), (111, 1), (108, 1)]), loadTileRow 0 { run1 with move := [fl (wd 0x01 [(130, 1), (114, 1), (111, 1), (108, 1)])] } (wd 0x01 [(130, 1), (114, 1), (111, 1), (108, 1)]) { s := rodUp { run1 with move := [fl (wd 0x01 [(130, 1), (114, 1), (111, 1), (108, 1)])] } } 0, by decide +kernel⟩

theorem test_meets_gather : ∃ (rod : Fin 64) (e : Option Upset) (s0 : State) (s : State) (r : Run) (f : Flight) (m : MoveAcc),
    (unitRuns s0 rod 0 0x03 r f) ∧ (upsetOk e = true ∧ afterUpset rod e s0 = s) ∧ (replayBad r ([fld f.word 101 80, fld f.word 155 134] ++ (if fmtBlock (fld f.word 60 58) then [fld f.word 54 33] else [])) = false) ∧ ((List.range (idxCount s rod f.word)).foldl (gatherRow rod r f.word) { s := s } = m ∧ m.halt = none ∧ m.wait = false) :=
  ⟨0, none, rodUp { run1 with move := [fl (wd 0x03 [(114, 1), (102, 1), (61, 1), (58, 1), (156, 9)])] }, rodUp { run1 with move := [fl (wd 0x03 [(114, 1), (102, 1), (61, 1), (58, 1), (156, 9)])] }, { run1 with move := [fl (wd 0x03 [(114, 1), (102, 1), (61, 1), (58, 1), (156, 9)])] }, fl (wd 0x03 [(114, 1), (102, 1), (61, 1), (58, 1), (156, 9)]), gatherRow 0 { run1 with move := [fl (wd 0x03 [(114, 1), (102, 1), (61, 1), (58, 1), (156, 9)])] } (wd 0x03 [(114, 1), (102, 1), (61, 1), (58, 1), (156, 9)]) { s := rodUp { run1 with move := [fl (wd 0x03 [(114, 1), (102, 1), (61, 1), (58, 1), (156, 9)])] } } 0, by decide +kernel⟩

theorem test_meets_storeTile : ∃ (rod : Fin 64) (e : Option Upset) (s0 : State) (s : State) (r : Run) (f : Flight) (m : MoveAcc),
    (unitRuns s0 rod 0 0x04 r f) ∧ (upsetOk e = true ∧ afterUpset rod e s0 = s) ∧ ((List.range (fld f.word 145 130)).any (fun i => touchesG s r.l.ctx (fld f.word 255 208 + i * fld f.word 207 184) (rowStored (r.writeFmt (fld f.word 113 111)) (fld f.word 129 114))) = false) ∧ ((List.range (fld f.word 145 130)).foldl (storeTileRow rod r f.word) { s := s } = m ∧ m.halt = none ∧ m.wait = false) :=
  ⟨0, none, rodUp { run1 with move := [fl (wd 0x04 [(130, 1), (114, 1), (111, 1), (108, 1)])] }, rodUp { run1 with move := [fl (wd 0x04 [(130, 1), (114, 1), (111, 1), (108, 1)])] }, { run1 with move := [fl (wd 0x04 [(130, 1), (114, 1), (111, 1), (108, 1)])] }, fl (wd 0x04 [(130, 1), (114, 1), (111, 1), (108, 1)]), storeTileRow 0 { run1 with move := [fl (wd 0x04 [(130, 1), (114, 1), (111, 1), (108, 1)])] } (wd 0x04 [(130, 1), (114, 1), (111, 1), (108, 1)]) { s := rodUp { run1 with move := [fl (wd 0x04 [(130, 1), (114, 1), (111, 1), (108, 1)])] } } 0, by decide +kernel⟩

theorem test_meets_storeTile_landing : ∃ (rod : Fin 64) (e : Option Upset) (s0 : State) (s : State) (r : Run) (f : Flight),
    (unitRuns s0 rod 0 0x04 r f) ∧ (upsetOk e = true ∧ afterUpset rod e s0 = s) ∧ ((List.range (fld f.word 145 130)).any (fun i => (firstAbsent s r.l.ctx (fld f.word 255 208 + i * fld f.word 207 184) (rowStored (r.writeFmt (fld f.word 113 111)) (fld f.word 129 114)) true).isSome) = false) ∧ ((List.range (fld f.word 145 130)).any (fun i => touchesG s r.l.ctx (fld f.word 255 208 + i * fld f.word 207 184) (rowStored (r.writeFmt (fld f.word 113 111)) (fld f.word 129 114))) = true) ∧ (r.bracket.any (fun b => b.replay) = false ∧ landingOk s r.l.ctx f.word = true) :=
  ⟨0, none, landUp, landUp, landRun, landFl, by decide +kernel⟩

theorem test_meets_scatter : ∃ (rod : Fin 64) (e : Option Upset) (s0 : State) (s : State) (r : Run) (f : Flight) (m : MoveAcc) (mf : Nat),
    (unitRuns s0 rod 0 0x05 r f) ∧ (upsetOk e = true ∧ afterUpset rod e s0 = s) ∧ (mf = (if fld f.word 56 55 = 0 then r.writeFmt (fld f.word 63 61) else fld f.word 63 61)) ∧ ((List.range (idxCount s rod f.word)).foldl (scatterRow rod r f.word) { s := s } = m ∧ m.halt = none ∧ m.wait = false) :=
  ⟨0, none, rodUp { run1 with move := [fl (wd 0x05 [(114, 1), (102, 1), (61, 1), (58, 1), (156, 9)])] }, rodUp { run1 with move := [fl (wd 0x05 [(114, 1), (102, 1), (61, 1), (58, 1), (156, 9)])] }, { run1 with move := [fl (wd 0x05 [(114, 1), (102, 1), (61, 1), (58, 1), (156, 9)])] }, fl (wd 0x05 [(114, 1), (102, 1), (61, 1), (58, 1), (156, 9)]), scatterRow 0 { run1 with move := [fl (wd 0x05 [(114, 1), (102, 1), (61, 1), (58, 1), (156, 9)])] } (wd 0x05 [(114, 1), (102, 1), (61, 1), (58, 1), (156, 9)]) { s := rodUp { run1 with move := [fl (wd 0x05 [(114, 1), (102, 1), (61, 1), (58, 1), (156, 9)])] } } 0, 1, by decide +kernel⟩

theorem test_meets_bankLoad : ∃ (rod : Fin 64) (e : Option Upset) (s0 : State) (s : State) (r : Run) (f : Flight),
    (unitRuns s0 rod 2 0x01 r f) ∧ (upsetOk e = true ∧ afterUpset rod e s0 = s) ∧ (replayBad r [fld f.word 229 208] = false) :=
  ⟨0, none, rodUp { run1 with array := [fl (wd 0x01 [(32, 1)])] }, rodUp { run1 with array := [fl (wd 0x01 [(32, 1)])] }, { run1 with array := [fl (wd 0x01 [(32, 1)])] }, fl (wd 0x01 [(32, 1)]), by decide +kernel⟩

theorem test_meets_loadw : ∃ (rod : Fin 64) (e : Option Upset) (s0 : State) (s : State) (r : Run) (f : Flight),
    (unitRuns s0 rod 2 0x02 r f) ∧ (upsetOk e = true ∧ afterUpset rod e s0 = s) ∧ (loadwBad s rod f.word = false) ∧ (replayBad r (loadwStarts (windowOf (loadwBlock s rod f.word)) f.word) = false) ∧ (loadwRange (windowOf (loadwBlock s rod f.word)) f.word = false) :=
  ⟨0, none, { rodUp { run1 with array := [fl (wd 0x02 [(116, 1), (109, 1), (104, 1)])] } with mem := windowMem }, { rodUp { run1 with array := [fl (wd 0x02 [(116, 1), (109, 1), (104, 1)])] } with mem := windowMem }, { run1 with array := [fl (wd 0x02 [(116, 1), (109, 1), (104, 1)])] }, fl (wd 0x02 [(116, 1), (109, 1), (104, 1)]), by decide +kernel⟩

theorem test_meets_mma : ∃ (rod : Fin 64) (e : Option Upset) (s0 : State) (s : State) (r : Run) (f : Flight),
    (unitRuns s0 rod 2 0x08 r f) ∧ (upsetOk e = true ∧ afterUpset rod e s0 = s) ∧ (wrongService (rodGet s rod).active (fld f.word 12 12 = 1) = false) ∧ (replayBad r (mmaStarts f.word) = false) :=
  ⟨0, none, rodUp { run1 with array := [fl (wd 0x08 [(164, 1), (157, 1), (152, 1)])] }, rodUp { run1 with array := [fl (wd 0x08 [(164, 1), (157, 1), (152, 1)])] }, { run1 with array := [fl (wd 0x08 [(164, 1), (157, 1), (152, 1)])] }, fl (wd 0x08 [(164, 1), (157, 1), (152, 1)]), by decide +kernel⟩

theorem test_meets_swap : ∃ (rod : Fin 64) (e : Option Upset) (s0 : State) (s : State) (r : Run) (f : Flight),
    (unitRuns s0 rod 2 0x09 r f) ∧ (upsetOk e = true ∧ afterUpset rod e s0 = s) :=
  ⟨0, none, rodUp { run1 with array := [fl (wd 0x09 [(232, 1)])] }, rodUp { run1 with array := [fl (wd 0x09 [(232, 1)])] }, { run1 with array := [fl (wd 0x09 [(232, 1)])] }, fl (wd 0x09 [(232, 1)]), by decide +kernel⟩

theorem test_meets_drain : ∃ (rod : Fin 64) (e : Option Upset) (s0 : State) (s : State) (r : Run) (r' : Run) (f : Flight),
    (unitRuns s0 rod 2 0x0A r f) ∧ (upsetOk e = true ∧ afterUpset rod e s0 = s) ∧ (drainBad s rod f.word = false ∧ drainRange s rod r f.word = false) ∧ (r.widen (fld f.word 217 215) (fld f.word 255 234) (drainLen s rod r f.word) = some r') :=
  ⟨0, none, { rodUp { run1 with array := [fl (wd 0x0A [(215, 1), (218, 2)])] } with rods := [(0, { run := some { run1 with array := [fl (wd 0x0A [(215, 1), (218, 2)])] }, bank1 := { rows := 1, cols := 1, mode := some false } })] }, { rodUp { run1 with array := [fl (wd 0x0A [(215, 1), (218, 2)])] } with rods := [(0, { run := some { run1 with array := [fl (wd 0x0A [(215, 1), (218, 2)])] }, bank1 := { rows := 1, cols := 1, mode := some false } })] }, { run1 with array := [fl (wd 0x0A [(215, 1), (218, 2)])] }, { run1 with array := [fl (wd 0x0A [(215, 1), (218, 2)])] }, fl (wd 0x0A [(215, 1), (218, 2)]), by decide +kernel⟩

theorem test_meets_mmv : ∃ (rod : Fin 64) (e : Option Upset) (s0 : State) (s : State) (r : Run) (f : Flight),
    (unitRuns s0 rod 2 0x0B r f) ∧ (upsetOk e = true ∧ afterUpset rod e s0 = s) ∧ (replayBad r (mmvStarts f.word) = false) :=
  ⟨0, none, rodUp { run1 with array := [fl (wd 0x0B [(158, 1), (142, 1)])] }, rodUp { run1 with array := [fl (wd 0x0B [(158, 1), (142, 1)])] }, { run1 with array := [fl (wd 0x0B [(158, 1), (142, 1)])] }, fl (wd 0x0B [(158, 1), (142, 1)]), by decide +kernel⟩

theorem test_meets_vec : ∃ (rod : Fin 64) (e : Option Upset) (s0 : State) (s : State) (r : Run) (r' : Run) (f : Flight),
    (unitRuns s0 rod 3 0x10 r f) ∧ (upsetOk e = true ∧ afterUpset rod e s0 = s) ∧ (inRs (fld f.word 211 190) (vecLen r f.word) = true) ∧ (r.widen (fld f.word 162 160) (fld f.word 211 190) (vecLen r f.word) = some r') :=
  ⟨0, none, rodUp { run1 with vector := [fl (wd 0x10 [(169, 2), (166, 1), (160, 1)])] }, rodUp { run1 with vector := [fl (wd 0x10 [(169, 2), (166, 1), (160, 1)])] }, { run1 with vector := [fl (wd 0x10 [(169, 2), (166, 1), (160, 1)])] }, { run1 with vector := [fl (wd 0x10 [(169, 2), (166, 1), (160, 1)])] }, fl (wd 0x10 [(169, 2), (166, 1), (160, 1)]), by decide +kernel⟩

theorem test_meets_reduce : ∃ (rod : Fin 64) (e : Option Upset) (s0 : State) (s : State) (r : Run) (r' : Run) (f : Flight) (a : RedAcc),
    (unitRuns s0 rod 1 0x11 r f) ∧ (upsetOk e = true ∧ afterUpset rod e s0 = s) ∧ (inRs (fld f.word 199 178) (redLen r f.word) = true) ∧ (r.widen (fld f.word 77 75) (fld f.word 199 178) (redLen r f.word) = some r') ∧ (redAll s rod r f.word = a ∧ a.bad = none) :=
  ⟨0, none, rodUp { run1 with index := [fl (wd 0x11 [(114, 1), (94, 1), (84, 1), (78, 1), (75, 1)])] }, rodUp { run1 with index := [fl (wd 0x11 [(114, 1), (94, 1), (84, 1), (78, 1), (75, 1)])] }, { run1 with index := [fl (wd 0x11 [(114, 1), (94, 1), (84, 1), (78, 1), (75, 1)])] }, { run1 with index := [fl (wd 0x11 [(114, 1), (94, 1), (84, 1), (78, 1), (75, 1)])] }, fl (wd 0x11 [(114, 1), (94, 1), (84, 1), (78, 1), (75, 1)]), redAll (rodUp { run1 with index := [fl (wd 0x11 [(114, 1), (94, 1), (84, 1), (78, 1), (75, 1)])] }) 0 { run1 with index := [fl (wd 0x11 [(114, 1), (94, 1), (84, 1), (78, 1), (75, 1)])] } (wd 0x11 [(114, 1), (94, 1), (84, 1), (78, 1), (75, 1)]), by decide +kernel⟩

theorem test_meets_sortKeys : ∃ (rod : Fin 64) (e : Option Upset) (s0 : State) (s : State) (r : Run) (f : Flight) (out : List (Int × Nat × Nat)) (n : Nat),
    (unitRuns s0 rod 1 0x12 r f) ∧ (upsetOk e = true ∧ afterUpset rod e s0 = s) ∧ (replayBad r (sortStarts f.word) = false) ∧ (sortOut s rod f.word = (out, n)) :=
  ⟨0, none, rodUp { run1 with index := [fl (wd 0x12 [(104, 2)])] }, rodUp { run1 with index := [fl (wd 0x12 [(104, 2)])] }, { run1 with index := [fl (wd 0x12 [(104, 2)])] }, fl (wd 0x12 [(104, 2)]), [(0, 0, 0), (0, 0, 0)], 0, by decide +kernel⟩

theorem test_meets_setins : ∃ (rod : Fin 64) (e : Option Upset) (s0 : State) (s : State) (r : Run) (f : Flight),
    (unitRuns s0 rod 1 0x13 r f) ∧ (upsetOk e = true ∧ afterUpset rod e s0 = s) ∧ ((setKeys true rod f.word (fld f.word 123 104) 0 s).2 = false) :=
  ⟨0, none, rodUp { run1 with index := [fl (wd 0x13 [(104, 1), (95, 1)])] }, rodUp { run1 with index := [fl (wd 0x13 [(104, 1), (95, 1)])] }, { run1 with index := [fl (wd 0x13 [(104, 1), (95, 1)])] }, fl (wd 0x13 [(104, 1), (95, 1)]), by decide +kernel⟩

theorem test_meets_setprobe : ∃ (rod : Fin 64) (e : Option Upset) (s0 : State) (s : State) (r : Run) (f : Flight),
    (unitRuns s0 rod 1 0x14 r f) ∧ (upsetOk e = true ∧ afterUpset rod e s0 = s) ∧ (replayBad r [fld f.word 255 234, fld f.word 233 212, fld f.word 189 168, fld f.word 167 146] = false) :=
  ⟨0, none, rodUp { run1 with index := [fl (wd 0x14 [(104, 1)])] }, rodUp { run1 with index := [fl (wd 0x14 [(104, 1)])] }, { run1 with index := [fl (wd 0x14 [(104, 1)])] }, fl (wd 0x14 [(104, 1)]), by decide +kernel⟩

theorem test_rod_store_error : ({ addr := 5, fixed := false } : Upset).fixed = false ∧ unitRuns (rodUp { run1 with vector := [fl (wd 0x10 [])] }) 0 3 0x10 { run1 with vector := [fl (wd 0x10 [])] } (fl (wd 0x10 [])) = true ∧ unitRuns (rodUp { run1 with move := [fl (wd 0x01 [])] }) 0 0 0x01 { run1 with move := [fl (wd 0x01 [])] } (fl (wd 0x01 [])) = true ∧ unitRuns (rodUp { run1 with array := [fl (wd 0x09 [])] }) 0 2 0x09 { run1 with array := [fl (wd 0x09 [])] } (fl (wd 0x09 [])) = true ∧ unitRuns (rodUp { run1 with index := [fl (wd 0x11 [])] }) 0 1 0x11 { run1 with index := [fl (wd 0x11 [])] } (fl (wd 0x11 [])) = true := by decide +kernel

theorem test_meets_adminCfgWrite : ∃ (hp : Fin 2) (value : BitVec 32) (s : State),
    (linkUp s hp ∧ zenithRuns s = true) ∧ ((bitOf value.toNat 31 && !(qGet s (256 * hp)).away && ringsOk (bitsOf value.toNat 4 0) (bitsOf value.toNat 12 8) (mapGet 0 s.host.asq hp) (mapGet 0 s.host.acq hp)) = true) ∧ ((qGet s (256 * hp)).enabled = false ∧ value &&& adminCfgMask = value) :=
  ⟨1, 0x80010504#32, up, by decide +kernel⟩

theorem test_meets_adminCfgWrite_off : ∃ (hp : Fin 2) (value : BitVec 32) (s : State),
    (linkUp s hp ∧ zenithRuns s = true) ∧ (bitOf (value &&& adminCfgMask).toNat 31 = false ∧ (qGet s (256 * hp)).away = false) :=
  ⟨0, 0#32, { up with host := { up.host with queues := [(0, { enabled := true })] } }, by decide +kernel⟩

theorem test_meets_dbSqWrite : ∃ (hp : Fin 2) (slot : Fin 512) (value : BitVec 32) (s : State),
    (linkUp s hp ∧ zenithRuns s = true ∧ s.dev.safe = false) ∧ ((qGet s (doorbellQueue hp slot)).enabled = true ∧ qPort (doorbellQueue hp slot) (qGet s (doorbellQueue hp slot)) = hp) ∧ (value.toNat % 65536 < 2 ^ (qGet s (doorbellQueue hp slot)).sqLog2) :=
  ⟨1, 0, 0#32, { up with host := { up.host with queues := [(256, { enabled := true, sqLog2 := 4, cqLog2 := 5 })] } }, by decide +kernel⟩

theorem test_meets_dbSqWrite_ignored : ∃ (hp : Fin 2) (slot : Fin 512) (value : BitVec 32) (s : State),
    (linkUp s hp ∧ zenithRuns s = true ∧ s.dev.safe = false) ∧ ((qGet s (doorbellQueue hp slot)).enabled = false ∨ qPort (doorbellQueue hp slot) (qGet s (doorbellQueue hp slot)) ≠ hp ∨ 2 ^ (qGet s (doorbellQueue hp slot)).sqLog2 ≤ value.toNat % 65536) :=
  ⟨0, 511, 0#32, up, by decide +kernel⟩

theorem test_meets_dbCqWrite : ∃ (hp : Fin 2) (slot : Fin 512) (value : BitVec 32) (s : State),
    (linkUp s hp ∧ zenithRuns s = true ∧ s.dev.safe = false) ∧ ((qGet s (doorbellQueue hp slot)).enabled = true ∧ qPort (doorbellQueue hp slot) (qGet s (doorbellQueue hp slot)) = hp) ∧ (value.toNat % 131072 < 2 ^ (qGet s (doorbellQueue hp slot)).cqLog2) :=
  ⟨0, 0, 31#32, { up with host := { up.host with queues := [(0, { enabled := true, sqLog2 := 4, cqLog2 := 5 })] } }, by decide +kernel⟩

theorem test_meets_registerWrite_word : ∃ (hp : Fin 2) (offset : Nat) (value : BitVec 64) (s : State),
    (linkUp s hp ∧ zenithRuns s = true ∧ offset % 4 = 0 ∧ offset < 65536) :=
  ⟨0, 65532, 5#64, up, by decide +kernel⟩

theorem test_meets_registerWrite_wide : ∃ (hp : Fin 2) (offset : Nat) (value : BitVec 64) (s : State),
    (linkUp s hp ∧ zenithRuns s = true ∧ offset % 8 = 0 ∧ offset < 65536) :=
  ⟨1, 0x20, 0x100001000#64, up, by decide +kernel⟩

theorem test_meets_hostLinkUp : ∃ (hp : Fin 2) (s : State),
    (s.sup.domains.getLsbD 29) :=
  ⟨1, { up with host := {} }, by decide +kernel⟩

theorem test_meets_hostPortReset_linkLost : ∃ (hp : Fin 2) (s : State),
    (linkUp s hp) :=
  ⟨1, up, by decide +kernel⟩

theorem test_meets_hostPortReset_perst : ∃ (hp : Fin 2) (s : State),
    (linkUp s hp = false) :=
  ⟨0, { up with host := { up.host with up := 2#2 } }, by decide +kernel⟩

theorem test_meets_hbmRead : ∃ (req : Nat) (t : Traffic) (part : Fin 8) (pa : Nat) (ecc : Ecc) (s : State),
    (s.dev.safe = false ∧ hbmRuns s = true ∧ barOf s part (exempt req t) pa = none) :=
  ⟨78, .control, 0, 549755813887, .codeUe, up, by decide +kernel⟩

theorem test_meets_hbmRead_refused : ∃ (req : Nat) (t : Traffic) (part : Fin 8) (pa : Nat) (ecc : Ecc) (b : Bar) (s : State),
    (s.dev.safe = false ∧ hbmRuns s = true ∧ barOf s part (exempt req t) pa = some b) :=
  ⟨0, .context 1, 7, 0, .clean, ownerBar 0x500, up, by decide +kernel⟩

theorem test_meets_hbmRead_waits : ∃ (req : Nat) (t : Traffic) (part : Fin 8) (pa : Nat) (ecc : Ecc) (s : State),
    (s.dev.safe = false ∧ hbmRuns s = false) :=
  ⟨0, .maint, 0, hbmTop, .clean, { up with sup := { up.sup with zlRefclk := false } }, by decide +kernel⟩

theorem test_meets_hbmWrite : ∃ (req : Nat) (t : Traffic) (part : Fin 8) (pa : Nat) (data : Bytes) (tag : BitVec 2) (ver : Bool) (s : State),
    (s.dev.safe = false ∧ hbmRuns s = true ∧ barOf s part (exempt req t) pa = none) :=
  ⟨0, .context 0, 0, 63, [7], 1, true, up, by decide +kernel⟩

theorem test_meets_hbmWrite_refused : ∃ (req : Nat) (t : Traffic) (part : Fin 8) (pa : Nat) (data : Bytes) (tag : BitVec 2) (ver : Bool) (b : Bar) (s : State),
    (s.dev.safe = false ∧ hbmRuns s = true ∧ barOf s part (exempt req t) pa = some b) :=
  ⟨0, .context 0, 0, rsWindowTop, [7], 1, true, decodeBar rsWindowTop, up, by decide +kernel⟩

theorem test_meets_patrolScrub : ∃ (ch : Fin 256) (burst : Nat) (ecc : Ecc) (s : State),
    (hbmHalted s = false) :=
  ⟨255, 5, .corrected, up, by decide +kernel⟩

theorem test_meets_hbmCeRate_over : ∃ (ch : Fin 256) (s : State),
    (s.dev.safe = false ∧ mapGet 0 s.near.ceHour ch ≠ hourNow s ∧ 1000 < mapGet 0 s.near.corrHour ch) :=
  ⟨0, { up with near := { corrHour := [(0, 1001)] }, clk := { ltc := 360000000000 } }, by decide +kernel⟩

theorem test_meets_hbmCeRate : ∃ (ch : Fin 256) (s : State),
    (s.dev.safe = false ∧ mapGet 0 s.near.ceHour ch ≠ hourNow s ∧ mapGet 0 s.near.corrHour ch ≤ 1000) :=
  ⟨0, { up with near := { corrHour := [(0, 1000)] }, clk := { ltc := 360000000000 } }, by decide +kernel⟩

theorem test_meets_phyCalibration : ∃ (ch : Fin 256) (s : State),
    (hbmHalted s = false) :=
  ⟨9, { up with clk := { ltc := 77 } }, by decide +kernel⟩

theorem test_meets_csRequest : ∃ (req : Nat) (t : Traffic) (ctx : Fin 256) (va : Nat) (write : Option Bytes) (length : Nat) (ecc : Ecc) (pa : Nat) (o : Nat) (p : Nat) (cache : Nat) (s : State),
    (s.dev.safe = false ∧ coreRuns s = true ∧ translate s ctx va write.isSome = .ok pa o p cache ∧ pa < rsWindowBase) ∧ (hbmTop ≤ pa ∨ (cache ≠ 2 ∧ cacheSegs s (ctxPart s ctx) ≠ [])) :=
  ⟨0, .context 1, 1, 5, some [9], 4, .clean, csPa, 3, 0, csCache, { up with objects := [(3, nearObj)] }, by decide +kernel⟩

theorem test_meets_csRequest_barred : ∃ (req : Nat) (t : Traffic) (ctx : Fin 256) (va : Nat) (write : Option Bytes) (length : Nat) (ecc : Ecc) (b : Bar) (s : State),
    (s.dev.safe = false ∧ coreRuns s = true ∧ translate s ctx va write.isSome = .barred b ∧ exempt req t = false) :=
  ⟨0, .context 1, 1, 5, none, 4, .clean, ownerBar 0x500, { up with objects := [(3, nearObj)], parts := { up.parts with chan := [(0, 1)] } }, by decide +kernel⟩

theorem test_meets_csRequest_unmapped : ∃ (req : Nat) (t : Traffic) (ctx : Fin 256) (va : Nat) (write : Option Bytes) (length : Nat) (ecc : Ecc) (r : Run) (s : State),
    (s.dev.safe = false ∧ coreRuns s = true ∧ translate s ctx va write.isSome = .unmapped) ∧ (req < 64 ∧ (rodGet s req).run = some r) :=
  ⟨0, .context 1, 1, 0x200000, none, 4, .clean, run1, rodUp run1, by decide +kernel⟩

theorem test_meets_rsWindowAccess : ∃ (req : Nat) (t : Traffic) (part : Fin 8) (pa : Nat) (write : Option Bytes) (length : Nat) (ecc : Ecc) (s : State) (n : Nat) (a : Nat),
    (s.dev.safe = false ∧ coreRuns s = true ∧ barOf s part (exempt req t) pa = none ∧ rsWindowBase ≤ pa) ∧ (n = (pa - rsWindowBase) / 0x400000 ∧ a = (pa - rsWindowBase) % 0x400000) ∧ (ecc ≠ .codeUe ∧ ecc ≠ .stackUe) :=
  ⟨3, .context 1, 0, rsWindowBase + 0x6FFFFF, some [1], 1, .corrected, up, 1, 0x2FFFFF, by decide +kernel⟩

theorem test_meets_rsWindowAccess_ue : ∃ (req : Nat) (t : Traffic) (part : Fin 8) (pa : Nat) (write : Option Bytes) (length : Nat) (ecc : Ecc) (s : State) (n : Nat) (a : Nat),
    (s.dev.safe = false ∧ coreRuns s = true ∧ barOf s part (exempt req t) pa = none ∧ rsWindowBase ≤ pa) ∧ (n = (pa - rsWindowBase) / 0x400000 ∧ a = (pa - rsWindowBase) % 0x400000) ∧ (ecc = .codeUe ∨ ecc = .stackUe) :=
  ⟨3, .control, 0, rsWindowBase, none, 1, .codeUe, up, 0, 0, by decide +kernel⟩

theorem test_meets_rsWindowAccess_refused : ∃ (req : Nat) (t : Traffic) (part : Fin 8) (pa : Nat) (write : Option Bytes) (length : Nat) (ecc : Ecc) (b : Bar) (s : State),
    (s.dev.safe = false ∧ coreRuns s = true ∧ barOf s part (exempt req t) pa = some b) :=
  ⟨3, .context 1, 0, rsWindowBase + 0x300000, none, 1, .clean, decodeBar (rsWindowBase + 0x300000), up, by decide +kernel⟩

theorem test_meets_pageArrival : ∃ (object : Nat) (page : Nat) (s : State) (m : Move) (l : Loc),
    (flashRuns s = true ∧ hbmRuns s = true) ∧ (s.deep.moves.find? (fun m => m.object = object && m.page = page) = some m ∧ m.frame = some l) ∧ ((pageGet s object page).loc = .deep ∧ (pageGet s object page).bad = 0#32) ∧ (s.deep.stripes.any (fun kv => kv.2.any (fun t => t.data.isSome && t.key / 32 = object * 2 ^ 25 + page)) = false) ∧ ((List.range 32).filter (fun t => hopeless s (tileKey object page t)) = []) :=
  ⟨3, 0, { deepUp with deep := { deepUp.deep with moves := [{ object := 3, page := 0, dest := 0, frame := some (.hbm 0 0) }] } }, { object := 3, page := 0, dest := 0, frame := some (.hbm 0 0) }, .hbm 0 0, by decide +kernel⟩

theorem test_meets_tierMiss : ∃ (ctx : Fin 256) (va : Nat) (rod : Option (Fin 64)) (s : State) (t : State) (o : Nat) (p : Nat),
    (s.dev.safe = false ∧ translate s ctx va false = .deep o p) ∧ (pageGivenUp o p s = false) ∧ (t = (if s.deep.moves.any (fun m => m.object = o && m.page = p && m.cause = 0) then s else dcUp (dcCtx ctx 0) 1 s)) :=
  ⟨1, 0, some 5, deepUp, dcUp (dcCtx 1 0) 1 deepUp, 3, 0, by decide +kernel⟩

theorem test_meets_tierMiss_givenUp : ∃ (ctx : Fin 256) (va : Nat) (rod : Fin 64) (s : State) (o : Nat) (p : Nat),
    (s.dev.safe = false ∧ translate s ctx va false = .deep o p) ∧ (pageGivenUp o p s = true) :=
  ⟨1, 0, 5, { deepUp with objects := [(3, { ownObj with maps := [(1, 0)], pages := [(0, { flash := true, bad := 1#32 })] })] }, 3, 0, by decide +kernel⟩

theorem test_meets_hintService : ∃ (part : Fin 8) (s : State) (h : Nat × Nat × Nat × Nat) (l : List (Nat × Nat × Nat × Nat)) (g : List (Option (Nat × Nat))),
    (s.dev.safe = false ∧ (stratumGet s part).hints = h :: l) ∧ (g = (List.range ((h.2.1 + h.2.2.1 * tileBytes - 1) / pageBytes + 1 - h.2.1 / pageBytes)).map (fun i => objAt (stratumMod part (fun y => { y with hints := l }) s) h.1 ((h.2.1 / pageBytes + i) * pageBytes))) ∧ (g.any (·.isNone) = false) :=
  ⟨0, { deepUp with strata := [(0, { hints := [(1, 0, 1, 0)] })] }, (1, 0, 1, 0), [], [some (3, 0)], by decide +kernel⟩

theorem test_meets_hintService_dropped : ∃ (part : Fin 8) (s : State) (h : Nat × Nat × Nat × Nat) (l : List (Nat × Nat × Nat × Nat)),
    (s.dev.safe = false ∧ (stratumGet s part).hints = h :: l) ∧ (((List.range ((h.2.1 + h.2.2.1 * tileBytes - 1) / pageBytes + 1 - h.2.1 / pageBytes)).map (fun i => objAt (stratumMod part (fun y => { y with hints := l }) s) h.1 ((h.2.1 / pageBytes + i) * pageBytes))).any (·.isNone) = true) :=
  ⟨0, { deepUp with strata := [(0, { hints := [(2, 0, 1, 0)] })] }, (2, 0, 1, 0), [], by decide +kernel⟩

theorem test_meets_tierStarvation : ∃ (ctx : Fin 256) (s : State) (m : Move),
    (s.deep.moves.find? (fun m => m.asks.contains (ctx.val, 0) && !m.starved && ticksS ≤ s.clk.ltc - m.since && (m.frame.isNone || !s.sup.timeref)) = some m ∧ s.dev.safe = false) :=
  ⟨1, { deepUp with deep := { deepUp.deep with moves := [{ object := 3, page := 0, dest := 0, asks := [(1, 0)] }] }, clk := { ltc := 100000000 } }, { object := 3, page := 0, dest := 0, asks := [(1, 0)] }, by decide +kernel⟩

theorem test_meets_useReport : ∃ (used : List (Nat × Nat)) (s : State),
    (s.dev.safe = false) :=
  ⟨[(1, 0)], deepUp, by decide +kernel⟩

theorem test_meets_codewordRead : ∃ (object : Nat) (page : Nat) (l : TileLoc) (tile : Fin 32) (word : Fin 16) (outcome : CwOutcome) (s : State),
    (flashRuns s = true ∧ mapFind s.deep.map (tileKey object page tile) = some l) ∧ (s.deep.moves.any (fun m => m.object = object && m.page = page && otherFirst m tile) = false) ∧ (hopeless s (tileKey object page tile) = false ∧ outcome ≠ .uncorrectable) :=
  ⟨3, 0, { block := 0 }, 5, 15, .retry, deepUp, by decide +kernel⟩

theorem test_meets_codewordRead_uncorrectable : ∃ (object : Nat) (page : Nat) (l : TileLoc) (tile : Fin 32) (word : Fin 16) (outcome : CwOutcome) (s : State),
    (flashRuns s = true ∧ mapFind s.deep.map (tileKey object page tile) = some l) ∧ (s.deep.moves.any (fun m => m.object = object && m.page = page && otherFirst m tile) = false) ∧ (hopeless s (tileKey object page tile) = true ∨ outcome = .uncorrectable) :=
  ⟨3, 0, { block := 0 }, 5, 0, .uncorrectable, deepUp, by decide +kernel⟩

theorem test_meets_sourceTimeout : ∃ (object : Nat) (page : Nat) (tile : Fin 32) (s : State) (r : Refetch),
    (s.deep.refetch.find? (fun r => r.isOf object page tile) = some r) ∧ (s.dev.safe = false ∧ 100 * ticksMs ≤ s.clk.ltc - r.since) :=
  ⟨3, 0, 5, { deepUp with deep := { deepUp.deep with refetch := [{ object := 3, page := 0, tile := 5 }] }, clk := { ltc := 10000000 } }, { object := 3, page := 0, tile := 5 }, by decide +kernel⟩

theorem test_meets_tileCommit : ∃ (group : Fin 4) (programOk : Bool) (s : State),
    (stripeReady s group = true ∧ stripeTiles s group ≤ (nextStripe s group).length) :=
  ⟨0, true, stripeUp (List.replicate 7 { key := 5 }), by
  exact ⟨stripeUp_ready _ (by decide +kernel), by decide +kernel⟩⟩

theorem test_meets_stripeCloseTimeout : ∃ (group : Fin 4) (s : State),
    (stripeReady s group = true) ∧ (ticksMs ≤ s.clk.ltc - mapGet 0 s.deep.lastTile group) :=
  ⟨0, stripeUp [{ key := 5 }], by
  exact ⟨stripeUp_ready _ (by decide +kernel), by decide +kernel⟩⟩

theorem test_meets_mapCheckpoint : ∃ (s : State) (t : State),
    (flashRuns s = true ∧ (60 * ticksS ≤ s.clk.ltc - s.deep.ckptAt ∨ 1048576 ≤ s.deep.ckptTiles)) ∧ (t = writeRegion 1 (3136 * (s.deep.ckptAt / (60 * ticksS) % 2)) 3136 s) :=
  ⟨{ deepUp with deep := { deepUp.deep with ckptTiles := 1048576 } }, writeRegion 1 0 3136 { deepUp with deep := { deepUp.deep with ckptTiles := 1048576 } }, by
  refine ⟨⟨?_, .inr ?_⟩, rfl⟩ <;> decide +kernel⟩

theorem test_meets_mountTier : ∃ (newestOk : Bool) (olderOk : Bool) (s : State),
    (s.dev.safe = false ∧ s.deep.mounted = false ∧ s.sup.domains.getLsbD 28 = true ∧ s.sup.timeref = true) :=
  ⟨false, false, up, by decide +kernel⟩

theorem test_meets_staticWearLevel : ∃ (slc : Bool) (s : State) (a : Nat × Block) (lo : Nat × Block) (r : List (Nat × Block)),
    (flashRuns s = true ∧ s.deep.blocks.filter (fun kv => kv.2.slc = slc && !kv.2.retired) = a :: r) ∧ (lo = r.foldl (fun b kv => if kv.2.erases < b.2.erases then kv else b) a ∧ lo.2.tiles ≠ []) ∧ (150 < r.foldl (fun b kv => max b kv.2.erases) a.2.erases - lo.2.erases) :=
  ⟨false, { deepUp with deep := { deepUp.deep with blocks := [(0, { tiles := [(0, 1)] }), (2, { erases := 151 })] } }, (0, { tiles := [(0, 1)] }), (0, { tiles := [(0, 1)] }), [(2, { erases := 151 })], by decide +kernel⟩

theorem test_meets_readDisturbRefresh : ∃ (block : Nat) (s : State) (x : Block),
    (flashRuns s = true ∧ mapFind s.deep.blocks block = some x ∧ x.retired = false ∧ disturbLimit x.slc ≤ x.reads) :=
  ⟨2, { deepUp with deep := { deepUp.deep with blocks := [(2, { reads := 100000 })] } }, { reads := 100000 }, by decide +kernel⟩

theorem test_meets_retentionTick : ∃ (case0 : Int) (case1 : Int) (s : State) (t : State),
    (s.deep.mounted = true ∧ s.dev.safe = false ∧ 60 * ticksS ≤ s.clk.ltc - s.deep.agedAt) ∧ (t = (let u := caseTemp 1 case1 (caseTemp 0 case0 s); { u with deep := { u.deep with agedAt := u.clk.ltc, blocks := u.deep.blocks.map (fun kv => (kv.1, if kv.2.tiles.isEmpty then kv.2 else { kv.2 with age := kv.2.age + retentionWeight (if kv.2.die < 16 then case0 else case1) })) } })) ∧ (flashRuns t = true) :=
  ⟨1121, 640, { deepUp with clk := { ltc := 6000000000 } }, (let u := caseTemp 1 640 (caseTemp 0 1121 { deepUp with clk := { ltc := 6000000000 } }); { u with deep := { u.deep with agedAt := u.clk.ltc, blocks := u.deep.blocks.map (fun kv => (kv.1, if kv.2.tiles.isEmpty then kv.2 else { kv.2 with age := kv.2.age + retentionWeight (if kv.2.die < 16 then 1121 else 640) })) } }), by decide +kernel⟩

theorem test_meets_readScan : ∃ (outcomes : List (Nat × CwOutcome)) (s : State) (t : State),
    (flashRuns s = true ∧ 24 * 3600 * ticksS ≤ s.clk.ltc - s.deep.scanAt) ∧ (t = { s with deep := { s.deep with scanAt := s.clk.ltc } }) :=
  ⟨[(0, .weak)], { deepUp with clk := { ltc := 8640000000000 } }, { deepUp with clk := { ltc := 8640000000000 }, deep := { deepUp.deep with scanAt := 8640000000000 } }, by decide +kernel⟩

theorem test_meets_dieFailure : ∃ (die : Fin 32) (s : State),
    (s.deep.mounted = true ∧ s.dev.safe = false) :=
  ⟨31, deepUp, by decide +kernel⟩

theorem test_meets_trainingAttempt : ∃ (port : Fin 32) (lanes : BitVec 8) (s : State),
    ((portGet s port).st = .down ∧ s.dev.safe = false ∧ s.sup.zlRefclk = true ∧ linkDie s port = true ∧ s.host.portOut.getLsbD port = false ∧ (portGet s port).tried.all (fun n => n + 100000000 ≤ s.clk.ltc) = true) ∧ (lanes = 0xFF#8 ∨ lanes &&& 0x0F#8 = 0x0F#8) :=
  ⟨3, 0x0F#8, port3 { st := .down }, by decide +kernel⟩

theorem test_meets_trainingAttempt_upper : ∃ (port : Fin 32) (lanes : BitVec 8) (s : State),
    ((portGet s port).st = .down ∧ s.dev.safe = false ∧ s.sup.zlRefclk = true ∧ linkDie s port = true ∧ s.host.portOut.getLsbD port = false ∧ (portGet s port).tried.all (fun n => n + 100000000 ≤ s.clk.ltc) = true) ∧ (lanes &&& 0x0F#8 ≠ 0x0F#8 ∧ lanes &&& 0xF0#8 = 0xF0#8) :=
  ⟨3, 0xF7#8, port3 { st := .down }, by decide +kernel⟩

theorem test_meets_trainingTimeout : ∃ (port : Fin 32) (s : State),
    ((portGet s port).st = .training ∧ (portGet s port).since + 60000000 ≤ s.clk.ltc) :=
  ⟨3, atTick 60000000 (port3 { st := .training }), by decide +kernel⟩

theorem test_meets_hello_completes : ∃ (port : Fin 32) (payload : BitVec 128) (s : State) (t : State) (st : PortState),
    (s.dev.safe = false ∧ (portGet s port).st = .training ∧ (portGet s port).pending = some st) ∧ (t = portMod port (fun x => { x with hello := some payload }) s ∧ idConflict t port payload = false) :=
  ⟨3, 0#128, port3 { st := .training, pending := some .upX4 }, portMod 3 (fun x => { x with hello := some 0#128 }) (port3 { st := .training, pending := some .upX4 }), .upX4, by decide +kernel⟩

theorem test_meets_hello_conflict : ∃ (port : Fin 32) (payload : BitVec 128) (s : State) (t : State),
    (s.dev.safe = false ∧ (portGet s port).live = true) ∧ (t = portMod port (fun x => { x with hello := some payload }) s ∧ idConflict t port payload = true) :=
  ⟨3, BitVec.ofNat 128 (2 ^ 51 + 7 * 2 ^ 52), linkUp3, portMod 3 (fun x => { x with hello := some (BitVec.ofNat 128 (2 ^ 51 + 7 * 2 ^ 52)) }) linkUp3, by decide +kernel⟩

theorem test_meets_recoveryExit : ∃ (port : Fin 32) (s : State) (t : State),
    ((portGet s port).st = .recovery) ∧ (t = zlBump (zcPort port 6) ((portGet s port).replay.length - (portGet s port).unsent) (onLanes port (portGet s port).replay (autoRoutes (portMod port (fun x => { x with st := if x.narrow then .upX4 else .up, nakRun := 0, nakSent := false, unsent := 0, ackAt := s.clk.ltc }) s)))) :=
  ⟨3, port3 { st := .recovery, replay := [(0, [])] }, zlBump (zcPort 3 6) 1 (onLanes 3 [(0, [])] (autoRoutes (portMod 3 (fun x => { x with st := .up, nakRun := 0, nakSent := false, unsent := 0, ackAt := 0 }) (port3 { st := .recovery, replay := [(0, [])] })))), by decide +kernel⟩

theorem test_meets_recoveryTimeout : ∃ (port : Fin 32) (s : State),
    ((portGet s port).st = .recovery ∧ (portGet s port).since + 500000 ≤ s.clk.ltc) :=
  ⟨3, atTick 500000 (port3 { st := .recovery }), by decide +kernel⟩

theorem test_meets_lossOfSignal : ∃ (port : Fin 32) (s : State),
    ((portGet s port).st ≠ .disabled ∧ (portGet s port).st ≠ .down ∧ (portGet s port).st ≠ .safe) :=
  ⟨3, linkUp3, by decide +kernel⟩

theorem test_meets_peerSafe : ∃ (port : Fin 32) (s : State),
    ((portGet s port).st ≠ .disabled ∧ (portGet s port).st ≠ .down ∧ (portGet s port).st ≠ .safe) :=
  ⟨3, linkUp3, by decide +kernel⟩

theorem test_meets_ackTimeout : ∃ (port : Fin 32) (s : State),
    ((portGet s port).replay ≠ [] ∧ (portGet s port).ackAt + 200 ≤ s.clk.ltc) :=
  ⟨3, atTick 200 (port3 { st := .up, replay := [(0, [])] }), by decide +kernel⟩

theorem test_meets_flitReceive : ∃ (port : Fin 32) (n : Nat) (flit : Bytes) (s : State),
    ((portGet s port).live = true ∧ s.dev.safe = false) ∧ (crc32c (byteSlice flit 0 252) = fieldBytes flit 252 4) ∧ (bitsOf (fieldBytes flit 0 12) 69 66 = 1 ∨ bitsOf (fieldBytes flit 0 12) 69 66 = 2) ∧ (bitsOf (fieldBytes flit 0 12) 95 84 = (portGet s port).rxSeq) :=
  ⟨3, 2, dataFlit, linkUp3, by decide +kernel⟩

theorem test_meets_flitReceive_plain : ∃ (port : Fin 32) (n : Nat) (flit : Bytes) (s : State),
    ((portGet s port).live = true ∧ s.dev.safe = false) ∧ (crc32c (byteSlice flit 0 252) = fieldBytes flit 252 4) ∧ (bitsOf (fieldBytes flit 0 12) 69 66 ≠ 1 ∧ bitsOf (fieldBytes flit 0 12) 69 66 ≠ 2) :=
  ⟨3, 0, idleFlit, linkUp3, by decide +kernel⟩

theorem test_meets_flitReceive_bad : ∃ (port : Fin 32) (fec : Option Nat) (flit : Bytes) (s : State),
    ((portGet s port).live = true ∧ s.dev.safe = false) ∧ (fec.isSome = true → crc32c (byteSlice flit 0 252) ≠ fieldBytes flit 252 4) :=
  ⟨3, some 1, [], linkUp3, by decide +kernel⟩

theorem test_meets_packetForward : ∃ (index : Nat) (p : Nat) (w : Waiting) (s : State) (t : State),
    (s.dev.safe = false ∧ s.dev.zlId.isSome ∧ stalled s s.sup.fabMv = false) ∧ (s.zl.waiting[index]? = some w ∧ choosePort s w = some p) ∧ (t = forwardOn p w { dropWaiting index s with zl := { (dropWaiting index s).zl with turn := (p + 1) % 32 } }) :=
  ⟨0, 3, wait9, waitUp wait9, forwardOn 3 wait9 { dropWaiting 0 (waitUp wait9) with zl := { (dropWaiting 0 (waitUp wait9)).zl with turn := 4 } }, by
  exact ⟨by decide +kernel, by decide +kernel, rfl⟩⟩

theorem test_meets_packetForward_waits : ∃ (index : Nat) (w : Waiting) (s : State),
    (s.dev.safe = false ∧ s.dev.zlId.isSome ∧ stalled s s.sup.fabMv = false) ∧ (s.zl.waiting[index]? = some w ∧ choosePort s w = none) :=
  ⟨0, wait9, escapeUp, by decide +kernel⟩

theorem test_meets_noRoute : ∃ (index : Nat) (w : Waiting) (s : State),
    (s.zl.waiting[index]? = some w ∧ w.since + 10000 ≤ s.clk.ltc ∧ escapePort s w = none ∧ (2 ≤ w.pkt.vc ∨ adaptPorts s w = [])) :=
  ⟨0, { wait9 with pkt := { wait9.pkt with dst := 10 } }, atTick 10000 (waitUp { wait9 with pkt := { wait9.pkt with dst := 10 } }), by decide +kernel⟩

theorem test_meets_escapeTimeout : ∃ (index : Nat) (w : Waiting) (s : State),
    (s.zl.waiting[index]? = some w ∧ w.since + 100 ≤ s.clk.ltc ∧ w.pkt.vc < 2 ∧ choosePort s w = none ∧ (escapePort s w).isSome) :=
  ⟨0, wait9, atTick 100 escapeUp, by decide +kernel⟩

theorem test_meets_sessionOpen : ∃ (h : MsgHdr) (s : State) (t : State),
    (arrived h s = true ∧ h.dstBoot = 0 ∧ (peerGet s h.src).isOpen = false) ∧ (t = zlBump (zcPeer h.src 4) 1 (zlBump (zcPeer h.src 5) 1 (sessionUp h.src h.srcBoot s))) :=
  ⟨{ hd with dstBoot := 0 }, { linkUp3 with zl := { linkUp3.zl with peers := [] } }, zlBump (zcPeer 9 4) 1 (zlBump (zcPeer 9 5) 1 (sessionUp 9 5 { linkUp3 with zl := { linkUp3.zl with peers := [] } })), by decide +kernel⟩

theorem test_meets_sessionAccept : ∃ (h : MsgHdr) (s : State),
    (arrived h s = true ∧ h.dstBoot = s.dev.bootId.toNat ∧ (peerGet s h.src).isOpen = false) ∧ ((peerGet s h.src).out.any (fun m => m.mtype = 0x30) = true) :=
  ⟨hd, { linkUp3 with zl := { linkUp3.zl with peers := [(9, { out := [{ mtype := 0x30 }] })] } }, by decide +kernel⟩

theorem test_meets_stale : ∃ (h : MsgHdr) (s : State),
    (arrived h s = true ∧ h.dstBoot = s.dev.bootId.toNat ∧ (peerGet s h.src).isOpen = true ∧ (peerGet s h.src).boot ≠ h.srcBoot) :=
  ⟨{ hd with srcBoot := 6 }, linkUp3, by decide +kernel⟩

theorem test_meets_retransmitTimeout : ∃ (peer : Fin 4096) (stream : Fin 4) (mseq : Nat) (s : State) (m : OutMsg),
    (s.dev.safe = false ∧ m.sentAt + 5000 * 2 ^ min 5 m.resends ≤ s.clk.ltc ∧ (peerGet s peer).out.find? (fun m => m.stream = stream.val && m.mseq = mseq) = some m) :=
  ⟨9, 0, 0, atTick 5000 { linkUp3 with zl := { linkUp3.zl with peers := [(9, { isOpen := true, boot := 5, out := [{ mtype := 0x34 }] })] } }, { mtype := 0x34 }, by decide +kernel⟩

theorem test_meets_streamTimeout : ∃ (peer : Fin 4096) (stream : Fin 4) (s : State) (t : State),
    (s.dev.safe = false ∧ streamStuck s (peerGet s peer) stream = true) ∧ ((peerGet s peer).out.any (fun m => m.stream = stream.val) = true ∨ ((peerGet s peer).isOpen = false ∧ (peerGet s peer).backlog.any (fun m => m.stream = stream.val) = true)) ∧ (t = (if peer.val = (endSession peer s).jr.partner then partnerLost (raise srcZlUnreach 0 peer (endSession peer s)) else raise srcZlUnreach 0 peer (endSession peer s))) :=
  ⟨9, 0, atTick 10000000 { linkUp3 with zl := { linkUp3.zl with peers := [(9, { isOpen := true, boot := 5, out := [{ mtype := 0x34 }] })] } }, raise srcZlUnreach 0 9 (endSession 9 (atTick 10000000 { linkUp3 with zl := { linkUp3.zl with peers := [(9, { isOpen := true, boot := 5, out := [{ mtype := 0x34 }] })] } })), by decide +kernel⟩

theorem test_meets_tileWrite : ∃ (h : MsgHdr) (group : Nat) (object : Nat) (offset : Nat) (c : Nat) (va : Nat) (data : Bytes) (md : List (BitVec 4)) (s : State),
    (msgTurn s h 2) ∧ (tileTarget s group object offset data.length true = some (c, va) ∧ firstAbsent s c va data.length true = none) :=
  ⟨hd, 4, 3, 64, 1, 64, List.replicate 64 0xAA, [0#4], tileUp, by decide +kernel⟩

theorem test_meets_tileWrite_refused : ∃ (h : MsgHdr) (group : Nat) (object : Nat) (offset : Nat) (data : Bytes) (md : List (BitVec 4)) (s : State),
    (msgTurn s h 2) ∧ (tileTarget s group object offset data.length true = none) :=
  ⟨hd, 4, 3, 1, List.replicate 64 0xAA, [0#4], tileUp, by decide +kernel⟩

theorem test_meets_tileRead : ∃ (h : MsgHdr) (group : Nat) (object : Nat) (offset : Nat) (length : Nat) (c : Nat) (va : Nat) (s : State),
    (msgTurn s h 2) ∧ (tileTarget s group object offset length false = some (c, va) ∧ firstAbsent s c va length false = none) :=
  ⟨hd, 4, 3, 0, 64, 1, 0, tileUp, by decide +kernel⟩

theorem test_meets_tileData : ∃ (h : MsgHdr) (request : Nat) (available : Bool) (data : Bytes) (md : List (BitVec 4)) (s : State) (r : Refetch),
    (msgTurn s h 2) ∧ (refetchOf s h.src request = some r) :=
  ⟨hd, 6, false, [], [], { linkUp3 with objects := [(3, { ownObj with src1 := { kind := 1, device := 9 } })], deep := { mounted := true, refetch := [{ object := 3, page := 0, tile := 5, asked := some 6 }] } }, { object := 3, page := 0, tile := 5, asked := some 6 }, by decide +kernel⟩

theorem test_meets_remoteQuery : ∃ (h : MsgHdr) (s : State),
    (msgTurn s h 0) :=
  ⟨hd, linkUp3, by decide +kernel⟩

theorem test_meets_remoteReply : ∃ (h : MsgHdr) (records : Bytes) (s : State) (c : Cmd),
    (msgTurn s h 0) ∧ (s.jr.ring.find? (fun c => c.opcode = 0x500 && c.started && c.done.isNone && c.p 2 2 = h.src) = some c ∧ linkUp s c.port = true) :=
  ⟨hd, [], { linkUp3 with jr := { linkUp3.jr with ring := [{ cm 0x500 0 [1, 0, 9, 0] with started := true }], next := 2 } }, { cm 0x500 0 [1, 0, 9, 0] with started := true }, by decide +kernel⟩

theorem test_meets_peerDiscover_local : ∃ (q : Fin 512) (seq : Nat) (s : State) (c : Cmd),
    (hostRuns s q seq 0x500 false [(0, 1), (2, 2), (8, 8)] c) ∧ (bitsOf (c.p 0 1) 7 1 = 0 ∧ c.p 2 2 < 4096 ∧ c.bit 0 0 = false) :=
  ⟨0, 1, st 0x500 0 [], cm 0x500 0 [], by decide +kernel⟩

theorem test_meets_peerDiscover_remote : ∃ (q : Fin 512) (seq : Nat) (s : State) (c : Cmd),
    (hostRuns s q seq 0x500 false [(0, 1), (2, 2), (8, 8)] c) ∧ (bitsOf (c.p 0 1) 7 1 = 0 ∧ c.p 2 2 < 4096 ∧ c.bit 0 0 = true) :=
  ⟨0, 1, withCmd 0x500 0 [1, 0, 9, 0] linkUp3, cm 0x500 0 [1, 0, 9, 0], by decide +kernel⟩

theorem test_meets_routeSet : ∃ (q : Fin 512) (seq : Nat) (s : State) (c : Cmd),
    (hostRuns s q seq 0x501 false [(0, 4), (16, 32768)] c) ∧ (1 ≤ c.p 2 2 ∧ c.p 0 2 + c.p 2 2 ≤ 4096 ∧ 16 + 8 * c.p 2 2 ≤ c.params.length) ∧ (∀ i < c.p 2 2, s.dev.zlId ≠ some (c.p 0 2 + i) ∧ routeAuto (BitVec.ofNat 64 (c.p (16 + 8 * i) 8)) = false ∧ bitsOf (BitVec.ofNat 64 (c.p (16 + 8 * i) 8)).toNat 55 32 = 0 ∧ ¬(routeV (BitVec.ofNat 64 (c.p (16 + 8 * i) 8)) = true ∧ bitsOf (BitVec.ofNat 64 (c.p (16 + 8 * i) 8)).toNat 31 0 = 0)) :=
  ⟨0, 1, st 0x501 0 ([9, 0, 1, 0] ++ List.replicate 12 0 ++ natLe 8 0x8000000000000001), cm 0x501 0 ([9, 0, 1, 0] ++ List.replicate 12 0 ++ natLe 8 0x8000000000000001), by decide +kernel⟩

theorem test_meets_collGroupCreate : ∃ (q : Fin 512) (seq : Nat) (s : State) (c : Cmd) (x : Group),
    (hostRuns s q seq 0x502 true [(0, 1), (4, 8), (64, 8192)] c) ∧ (c.p 0 1 = 0 ∧ 1 ≤ c.p 8 2 ∧ c.p 8 2 ≤ 4096 ∧ c.p 10 2 < c.p 8 2 ∧ 64 + 2 * c.p 8 2 ≤ c.params.length) ∧ ((∀ i < c.p 8 2, c.p (64 + 2 * i) 2 < 8192) ∧ allZero (c.params.drop (64 + 2 * c.p 8 2)) = true) ∧ (groupGet s (c.p 4 4) = none ∧ s.groups.length < 64 ∧ (s.groups.filter (fun kv => kv.2.ctx = c.ctx)).length < 16) ∧ (x = { ctx := c.ctx, own := c.p 10 2, members := (List.range (c.p 8 2)).map (fun i => (c.p (64 + 2 * i) 2 % 4096, c.p (64 + 2 * i) 2 / 4096)) }) :=
  ⟨0, 1, st 0x502 1 (byteSlice [0, 0, 0, 0, 5, 0, 0, 0, 2, 0, 0, 0] 0 64 ++ natLe 2 7 ++ natLe 2 9 ++ List.replicate 4 0), cm 0x502 1 (byteSlice [0, 0, 0, 0, 5, 0, 0, 0, 2, 0, 0, 0] 0 64 ++ natLe 2 7 ++ natLe 2 9 ++ List.replicate 4 0), { ctx := 1, own := 0, members := [(7, 0), (9, 0)] }, by decide +kernel⟩

theorem test_meets_collGroupBind : ∃ (q : Fin 512) (seq : Nat) (s : State) (c : Cmd) (x : Group),
    (hostRuns s q seq 0x502 true [(0, 1), (4, 8)] c) ∧ (c.p 0 1 = 2 ∧ groupGet s (c.p 4 4) = some x ∧ x.ctx = c.ctx) ∧ ((objBase s c.ctx (c.p 8 4)).isSome ∧ x.liveList ≠ []) :=
  ⟨0, 1, groupCmd { group4 with bound := [] } 0x502 [2, 0, 0, 0, 4, 0, 0, 0, 3], cm 0x502 1 [2, 0, 0, 0, 4, 0, 0, 0, 3], { group4 with bound := [] }, by decide +kernel⟩

theorem test_meets_collGroupUnbind : ∃ (q : Fin 512) (seq : Nat) (s : State) (c : Cmd) (x : Group),
    (hostRuns s q seq 0x502 true [(0, 1), (4, 8)] c) ∧ (c.p 0 1 = 3 ∧ groupGet s (c.p 4 4) = some x ∧ x.ctx = c.ctx) ∧ (x.bound.contains (c.p 8 4) ∧ x.liveList ≠ []) :=
  ⟨0, 1, groupCmd group4 0x502 [3, 0, 0, 0, 4, 0, 0, 0, 3], cm 0x502 1 [3, 0, 0, 0, 4, 0, 0, 0, 3], group4, by decide +kernel⟩

theorem test_meets_collGroupDestroy : ∃ (q : Fin 512) (seq : Nat) (s : State) (c : Cmd) (x : Group),
    (hostRuns s q seq 0x502 true [(0, 1), (4, 4)] c) ∧ (c.p 0 1 = 4 ∧ groupGet s (c.p 4 4) = some x ∧ x.ctx = c.ctx) :=
  ⟨0, 1, groupCmd group4 0x502 [4, 0, 0, 0, 4], cm 0x502 1 [4, 0, 0, 0, 4], group4, by decide +kernel⟩

theorem test_meets_codeTableLoad : ∃ (q : Fin 512) (seq : Nat) (s : State) (c : Cmd) (x : Group),
    (hostRuns s q seq 0x504 true [(0, 5), (16, 16)] c) ∧ (groupGet s (c.p 0 4) = some x ∧ x.ctx = c.ctx ∧ c.p 4 1 < 4 ∧ tableOk (c.bytes 16 16) = true ∧ x.current ≠ some (c.p 4 1)) ∧ (x.liveList ≠ [] ∧ x.stateOf x.own = 0 ∧ x.load = none) :=
  ⟨0, 1, groupCmd group4 0x504 ([4, 0, 0, 0, 1] ++ List.replicate 11 0 ++ table5), cm 0x504 1 ([4, 0, 0, 0, 1] ++ List.replicate 11 0 ++ table5), group4, by decide +kernel⟩

theorem test_meets_baseSet : ∃ (q : Fin 512) (seq : Nat) (s : State) (c : Cmd) (x : Group),
    (hostRuns s q seq 0x505 true [(0, 12)] c) ∧ (groupGet s (c.p 0 4) = some x ∧ x.ctx = c.ctx ∧ c.p 4 1 ≠ 0xFF ∧ c.p 5 1 ≤ 1) ∧ (c.p 5 1 = 0 ∨ (objBase s c.ctx (c.p 8 4)).isSome) ∧ (x.liveList ≠ [] ∧ x.run.any (fun r => cdF r.desc 456 449 = c.p 4 1) = false) :=
  ⟨0, 1, groupCmd group4 0x505 [4, 0, 0, 0, 2, 1, 7, 0, 3], cm 0x505 1 [4, 0, 0, 0, 2, 1, 7, 0, 3], group4, by decide +kernel⟩

theorem test_meets_baseSet_shadow : ∃ (q : Fin 512) (seq : Nat) (s : State) (c : Cmd) (x : Group),
    (hostRuns s q seq 0x505 true [(0, 12)] c) ∧ (groupGet s (c.p 0 4) = some x ∧ x.ctx = c.ctx ∧ c.p 4 1 ≠ 0xFF ∧ c.p 5 1 = 2 ∧ (objBase s c.ctx (c.p 8 4)).isSome) ∧ ((ctxGet s c.ctx).train.st ≠ .none ∧ jobGroup (ctxGet s c.ctx).train.job = c.p 0 4 ∧ 4096 * jobBlocks (ctxGet s c.ctx).train.job ≤ (objGet s (c.p 8 4)).count * pageBytes) ∧ (x.liveList ≠ [] ∧ x.run.any (fun r => cdF r.desc 456 449 = c.p 4 1) = false) :=
  ⟨0, 1, stepUp (groupCmd group4 0x505 [4, 0, 0, 0, 2, 2, 7, 0, 3]), cm 0x505 1 [4, 0, 0, 0, 2, 2, 7, 0, 3], group4, by decide +kernel⟩

theorem test_meets_collGroupAdmit : ∃ (q : Fin 512) (seq : Nat) (s : State) (c : Cmd) (x : Group),
    (hostRuns s q seq 0x502 true [(0, 1), (4, 9)] c) ∧ (c.p 0 1 = 1 ∧ groupGet s (c.p 4 4) = some x ∧ x.ctx = c.ctx) ∧ (c.p 8 2 < x.members.length ∧ x.stateOf (c.p 8 2) = 2 ∧ c.p 10 2 < 4096 ∧ c.p 12 1 ≤ 1) ∧ (x.liveList ≠ [] ∧ x.stateOf x.own ≠ 2 ∧ hitch s c.ctx (changeNeeds s x) = none) :=
  ⟨0, 1, groupCmd { group4 with members := [(7, 0), (9, 2)] } 0x502 [1, 0, 0, 0, 4, 0, 0, 0, 1, 0, 9, 0, 1], cm 0x502 1 [1, 0, 0, 0, 4, 0, 0, 0, 1, 0, 9, 0, 1], { group4 with members := [(7, 0), (9, 2)] }, by decide +kernel⟩

theorem test_meets_excludeMember : ∃ (q : Fin 512) (seq : Nat) (s : State) (c : Cmd) (x : Group),
    (hostRuns s q seq 0x603 true [(0, 6)] c) ∧ ((ctxGet s c.ctx).train.st ≠ .none ∧ (ctxGet s c.ctx).train.st ≠ .broken) ∧ (groupGet s (c.p 0 4) = some x ∧ x.ctx = c.ctx ∧ c.p 4 2 < x.members.length) ∧ (x.liveList ≠ [] ∧ x.stateOf x.own ≠ 2 ∧ x.stateOf (c.p 4 2) ≠ 2 ∧ hitch s c.ctx (changeNeeds s x) = none) :=
  ⟨0, 1, stepUp (groupCmd group4 0x603 [4, 0, 0, 0, 1]), cm 0x603 1 [4, 0, 0, 0, 1], group4, by decide +kernel⟩

theorem test_meets_excludeMember_done : ∃ (q : Fin 512) (seq : Nat) (s : State) (c : Cmd) (x : Group),
    (hostRuns s q seq 0x603 true [(0, 6)] c) ∧ ((ctxGet s c.ctx).train.st ≠ .none ∧ (ctxGet s c.ctx).train.st ≠ .broken) ∧ (groupGet s (c.p 0 4) = some x ∧ x.ctx = c.ctx ∧ c.p 4 2 < x.members.length) ∧ (x.liveList ≠ [] ∧ x.stateOf x.own ≠ 2 ∧ x.stateOf (c.p 4 2) = 2) :=
  ⟨0, 1, stepUp (groupCmd { group4 with members := [(7, 0), (9, 2)] } 0x603 [4, 0, 0, 0, 1]), cm 0x603 1 [4, 0, 0, 0, 1], { group4 with members := [(7, 0), (9, 2)] }, by decide +kernel⟩

theorem test_meets_excludeReq : ∃ (m : MemMsg) (s : State) (x : Group),
    (memTurn s m x) ∧ (noWait s x.ctx (changeNeeds s x)) :=
  ⟨mm, tileUp, group4, by decide +kernel⟩

theorem test_meets_admitReq : ∃ (m : MemMsg) (s : State) (x : Group),
    (memTurn s m x) ∧ (noWait s x.ctx (changeNeeds s x)) :=
  ⟨mm, tileUp, group4, by decide +kernel⟩

theorem test_meets_viewChange : ∃ (m : MemMsg) (s : State) (x : Group),
    (msgTurn s m.hdr 0 ∧ groupGet s m.group = some x ∧ m.view = x.view + 1 ∧ noWait s x.ctx (changeNeeds s x)) :=
  ⟨{ mm with view := 1, newState := 2 }, tileUp, group4, by decide +kernel⟩

theorem test_meets_viewQuery : ∃ (m : MemMsg) (s : State) (x : Group),
    (memTurn s m x) :=
  ⟨mm, tileUp, group4, by decide +kernel⟩

theorem test_meets_viewReply : ∃ (m : MemMsg) (s : State) (x : Group) (t : Takeover) (i : Nat),
    (memTurn s m x) ∧ (x.takeover = some t ∧ x.indexOf m.hdr.src = some i ∧ noWait s x.ctx (changeNeeds s x)) :=
  ⟨mm, groupUp { group4 with takeover := some { left := [1] } }, { group4 with takeover := some { left := [1] } }, { left := [1] }, 1, by decide +kernel⟩

theorem test_meets_arrive : ∃ (m : MemMsg) (s : State) (x : Group),
    (memTurn s m x) ∧ (x.stateOf m.member = 0 ∧ x.dev m.member = m.hdr.src) :=
  ⟨mm, tileUp, group4, by decide +kernel⟩

theorem test_meets_tableRetire : ∃ (m : CollMsg) (s : State) (x : Group),
    (collTurn s m x) :=
  ⟨cg, tileUp, group4, by decide +kernel⟩

theorem test_meets_tableLoad : ∃ (m : CollMsg) (s : State) (x : Group),
    (collTurn s m x) ∧ (mapFind x.slots (4 * m.member + m.gen % 4) = none) :=
  ⟨cg, tileUp, group4, by decide +kernel⟩

theorem test_meets_tableLoad_taken : ∃ (m : CollMsg) (s : State) (x : Group),
    (collTurn s m x) ∧ ((mapFind x.slots (4 * m.member + m.gen % 4)).isSome) :=
  ⟨cg, groupUp { group4 with slots := [(5, [])] }, { group4 with slots := [(5, [])] }, by decide +kernel⟩

theorem test_meets_tableAck_installed : ∃ (m : CollMsg) (s : State) (x : Group),
    (collTurn s m x) ∧ (m.ackCode = 0 ∧ x.load.any (fun l => l.gen = m.gen) = false) :=
  ⟨cg, tileUp, group4, by decide +kernel⟩

theorem test_meets_tableAck_retired : ∃ (m : CollMsg) (s : State) (x : Group),
    (collTurn s m x) ∧ (m.ackCode = 1 ∧ x.load.any (fun l => l.gen = m.gen) = false) :=
  ⟨{ cg with ackCode := 1 }, tileUp, group4, by decide +kernel⟩

theorem test_meets_collRun : ∃ (q : Fin 512) (seq : Nat) (s : State) (c : Cmd) (x : Group) (r : CollRun),
    (hostRuns s q seq 0x503 true [(0, 64)] c) ∧ (c.p 59 1 / 16 ≠ 4 ∧ groupGet s (c.p 60 4) = some x ∧ x.ctx = c.ctx) ∧ (r = { run := 0, cmd := c.jidx, view := x.view, desc := c.bytes 0 64, live := x.liveList } ∧ r.kind ≤ 4) ∧ (x.liveList ≠ [] ∧ x.stateOf x.own = 0 ∧ descOk' x r = true) ∧ ((runRanges x r).all (fun t => rangeMapped s c.ctx t.1 t.2.1 t.2.2) = true) ∧ (hitch s c.ctx (runRanges x r) = none ∧ x.run = none) :=
  ⟨0, 1, groupCmd group4 0x503 (runOf 2 [(217, 0)]).desc, cm 0x503 1 (runOf 2 [(217, 0)]).desc, group4, { run := 0, cmd := 1, view := 0, desc := (cm 0x503 1 (runOf 2 [(217, 0)]).desc).bytes 0 64, live := [0, 1] }, by decide +kernel⟩

theorem test_meets_collRunGrad : ∃ (q : Fin 512) (seq : Nat) (s : State) (c : Cmd) (x : Group),
    (hostRuns s q seq 0x503 true [(0, 64)] c) ∧ (c.p 59 1 / 16 = 4 ∧ groupGet s (c.p 60 4) = some x ∧ x.ctx = c.ctx) ∧ ((ctxGet s c.ctx).train.st = .opened ∧ jobGroup (ctxGet s c.ctx).train.job = c.p 60 4) ∧ (cdF (c.bytes 0 64) 475 473 = 0 ∧ cdF (c.bytes 0 64) 472 470 = 2 ∧ cdF (c.bytes 0 64) 469 458 = 0 ∧ cdF (c.bytes 0 64) 448 0 = 0) ∧ (x.liveList ≠ [] ∧ x.stateOf x.own ≠ 2 ∧ hitch s c.ctx (jobOf s c.ctx).buffer = none ∧ x.run = none) :=
  ⟨0, 1, stepUp (groupCmd group4 0x503 (runOf 4 [(470, 2)]).desc), cm 0x503 1 (runOf 4 [(470, 2)]).desc, group4, by decide +kernel⟩

theorem test_meets_collReady : ∃ (m : CollMsg) (s : State) (x : Group) (r : CollRun),
    (runTurn s m x r) ∧ (noWait s x.ctx (runNeeds s x r)) :=
  ⟨cg, runUp (runOf 2 []), { group4 with run := some (runOf 2 []) }, runOf 2 [], by decide +kernel⟩

theorem test_meets_collReady_early : ∃ (m : CollMsg) (s : State) (x : Group),
    (collTurn s m x) ∧ (x.run = none ∧ x.gone.contains m.run = false ∧ doneOf x m.run = none ∧ runPast x m.run = false) :=
  ⟨cg, tileUp, group4, by decide +kernel⟩

theorem test_meets_contrib_poisoned : ∃ (m : CollMsg) (s : State) (x : Group) (r : CollRun),
    (runTurn s m x r) ∧ (r.kind ≠ 4 ∧ r.reduces = true ∧ m.unit < r.chunks ∧ r.owner m.unit = x.own ∧ r.live.contains m.member ∧ (mapGet [] r.landed m.unit).contains m.member = false ∧ m.poisoned = true) ∧ (noWait s x.ctx [(r.accAt m.unit 0, if r.fmt = 0 then 2 * r.chunkLen m.unit else r.chunkLen m.unit, true), (r.place x.own m.unit, r.chunkLen m.unit, true)]) ∧ (noWait s x.ctx (runBase s x r ++ recBases s x r m 0)) :=
  ⟨{ cg with poisoned := true }, runUp (runOf 0 [(217, 64), (470, 1)]), { group4 with run := some (runOf 0 [(217, 64), (470, 1)]) }, runOf 0 [(217, 64), (470, 1)], by decide +kernel⟩

theorem test_meets_contrib : ∃ (m : CollMsg) (s : State) (t : State) (x : Group) (r : CollRun) (b : Bool),
    (runTurn s m x r) ∧ ((if r.kind = 4 then contribGrad m x r s else contribChunk m x r s) = (t, some b)) :=
  ⟨cg, runUp (runOf 0 [(217, 64), (470, 1)]), (contribChunk cg { group4 with run := some (runOf 0 [(217, 64), (470, 1)]) } (runOf 0 [(217, 64), (470, 1)]) (runUp (runOf 0 [(217, 64), (470, 1)]))).1, { group4 with run := some (runOf 0 [(217, 64), (470, 1)]) }, runOf 0 [(217, 64), (470, 1)], false, by decide +kernel⟩

theorem test_meets_collFinal_grad : ∃ (m : CollMsg) (s : State) (t : State) (x : Group) (r : CollRun) (b : Bool),
    (runTurn s m x r) ∧ (r.kind = 4 ∧ finalGrad m x r s = (t, some b)) :=
  ⟨cg, stepUp (runUp (runOf 4 [])), (finalGrad cg { group4 with run := some (runOf 4 []) } (runOf 4 []) (stepUp (runUp (runOf 4 [])))).1, { group4 with run := some (runOf 4 []) }, runOf 4 [], false, by decide +kernel⟩

theorem test_meets_collFinal : ∃ (m : CollMsg) (s : State) (t : State) (x : Group) (r : CollRun) (b : Bool),
    (runTurn s m x r) ∧ (r.kind = 0 ∧ putChunk m x r s = (t, some b)) :=
  ⟨cg, runUp (runOf 0 [(217, 64), (470, 1)]), (putChunk cg { group4 with run := some (runOf 0 [(217, 64), (470, 1)]) } (runOf 0 [(217, 64), (470, 1)]) (runUp (runOf 0 [(217, 64), (470, 1)]))).1, { group4 with run := some (runOf 0 [(217, 64), (470, 1)]) }, runOf 0 [(217, 64), (470, 1)], false, by decide +kernel⟩

theorem test_meets_collData : ∃ (m : CollMsg) (s : State) (t : State) (x : Group) (r : CollRun) (b : Bool),
    (runTurn s m x r) ∧ ((r.kind = 2 ∨ (r.kind = 3 ∧ m.member = r.root)) ∧ putChunk m x r s = (t, some b)) :=
  ⟨cg, runUp (runOf 2 [(217, 64)]), (putChunk cg { group4 with run := some (runOf 2 [(217, 64)]) } (runOf 2 [(217, 64)]) (runUp (runOf 2 [(217, 64)]))).1, { group4 with run := some (runOf 2 [(217, 64)]) }, runOf 2 [(217, 64)], false, by decide +kernel⟩

theorem test_meets_collData_poisoned : ∃ (m : CollMsg) (s : State) (x : Group) (r : CollRun),
    (runTurn s m x r) ∧ (r.kind = 2 ∧ m.poisoned = true ∧ m.unit < r.chunks ∧ r.written.contains (unitKey m.unit m.member) = false) ∧ (firstAbsent s x.ctx (r.place m.member m.unit) (r.chunkLen m.unit) true = none ∧ noWait s x.ctx (recBases s x r m 0)) :=
  ⟨{ cg with poisoned := true }, runUp (runOf 2 [(217, 64)]), { group4 with run := some (runOf 2 [(217, 64)]) }, runOf 2 [(217, 64)], by decide +kernel⟩

theorem test_meets_contrib_stale : ∃ (m : CollMsg) (s : State) (x : Group),
    (collTurn s m x) ∧ (x.run = none ∨ x.run.any (fun r => r.run % 65536 ≠ m.run) = true) :=
  ⟨cg, groupUp { group4 with gone := [0] }, { group4 with gone := [0] }, by decide +kernel⟩

theorem test_meets_resendReq : ∃ (m : CollMsg) (s : State) (x : Group) (r : CollRun),
    (runTurn s m x r) ∧ (noWait s x.ctx (runNeeds s x r)) :=
  ⟨cg, runUp (runOf 2 [(217, 64)]), { group4 with run := some (runOf 2 [(217, 64)]) }, runOf 2 [(217, 64)], by decide +kernel⟩

theorem test_meets_normSum : ∃ (m : CollMsg) (s : State) (x : Group),
    (collTurn s m x) ∧ ((ctxGet s x.ctx).train.st = .opened ∧ jobGroup (ctxGet s x.ctx).train.job = m.group ∧ mapFind (ctxGet s x.ctx).train.norms m.unit = none) :=
  ⟨{ cg with digest := 9#64 }, stepUp tileUp, group4, by decide +kernel⟩

theorem test_meets_ack : ∃ (h : MsgHdr) (stream : Fin 4) (mseq : Nat) (refused : Bool) (s : State) (got : List OutMsg) (left : List OutMsg),
    (arrived h s = true ∧ h.dstBoot = s.dev.bootId.toNat ∧ (peerGet s h.src).isOpen = true ∧ (peerGet s h.src).boot = h.srcBoot) ∧ (got = (peerGet s h.src).out.filter (fun m => m.mtype ≠ 0x30 && m.stream = stream.val && m.mseq ≤ mseq)) ∧ (left = (peerGet s h.src).out.filter (fun m => !(m.mtype ≠ 0x30 && m.stream = stream.val && m.mseq ≤ mseq))) :=
  ⟨hd, 0, 0, false, { linkUp3 with zl := { linkUp3.zl with peers := [(9, { isOpen := true, boot := 5, out := [{ mtype := 0x35 }] })] } }, [{ mtype := 0x35 }], [], by decide +kernel⟩

theorem test_meets_stepBegin_new : ∃ (q : Fin 512) (seq : Nat) (s : State) (c : Cmd) (x : Group),
    (hostRuns s q seq 0x600 true [(0, 1), (4, 4), (64, 80)] c) ∧ ((ctxGet s c.ctx).train.st = .none ∧ c.p 0 1 = 1 ∧ c.p 4 4 = 0 ∧ jobOk s c.ctx (c.bytes 64 80) = true) ∧ (groupGet s (jobGroup (c.bytes 64 80)) = some x ∧ x.ctx = c.ctx ∧ x.liveList ≠ [] ∧ x.stateOf x.own ≠ 2) :=
  ⟨0, 1, withCmd 0x600 1 ([1, 0, 0, 0] ++ List.replicate 60 0 ++ job1) (jobUp {}), cm 0x600 1 ([1, 0, 0, 0] ++ List.replicate 60 0 ++ job1), { group4 with bound := [] }, by decide +kernel⟩

theorem test_meets_stepBegin_next : ∃ (q : Fin 512) (seq : Nat) (s : State) (c : Cmd),
    (hostRuns s q seq 0x600 true [(0, 1), (4, 4), (64, 80)] c) ∧ ((ctxGet s c.ctx).train.st = .idle ∧ c.p 4 4 = (ctxGet s c.ctx).train.version) ∧ ((c.p 0 1 = 0 ∧ allZero (c.bytes 64 80) = true) ∨ (c.p 0 1 = 1 ∧ c.bytes 64 80 = (ctxGet s c.ctx).train.job)) ∧ (jobGroupLost s c.ctx = false) :=
  ⟨0, 1, withCmd 0x600 1 ([0, 0, 0, 0, 5, 0, 0, 0] ++ List.replicate 136 0) (jobUp idleTrain), cm 0x600 1 ([0, 0, 0, 0, 5, 0, 0, 0] ++ List.replicate 136 0), by decide +kernel⟩

theorem test_meets_landing : ∃ (slice : Fin 4) (s : State) (e : Landing) (l : List Landing),
    (coreHalted s = false ∧ mapGet [] s.landings slice.val = e :: l) ∧ (firstAbsent s e.ctx ((jobOf s e.ctx).gAt (e.block - (jobOf s e.ctx).first)) 4224 true = none) :=
  ⟨0, { jobUp openTrain with landings := [(0, [{ ctx := 1, block := 0, first := 0, vals := [one32], rod := 0, desc := 0, lastOf := true }])] }, { ctx := 1, block := 0, first := 0, vals := [one32], rod := 0, desc := 0, lastOf := true }, [], by decide +kernel⟩

theorem test_meets_updateRun : ∃ (q : Fin 512) (seq : Nat) (refetch : List (Nat × Bytes)) (s : State) (c : Cmd) (t : Train) (x : Job) (cf : BitVec 32),
    (hostRuns s q seq 0x602 true [(0, 25)] c) ∧ (t = (ctxGet s c.ctx).train ∧ x = jobOf s c.ctx ∧ t.st = .opened) ∧ (updateOk c = true ∧ jobGroupLost s c.ctx = false ∧ normKnown t = true ∧ hitch s c.ctx (x.core ++ x.buffer) = none) ∧ (cf = clipFactor (updArg c 5) (normTotal t.norms (jobS t.job)) (drawFree s).1) :=
  ⟨0, 1, [], withCmd 0x602 1 (natLe 25 (0x00800000 * 2 ^ 96)) (jobUp { openTrain with updated := false }), cm 0x602 1 (natLe 25 (0x00800000 * 2 ^ 96)), { openTrain with updated := false }, jobOf (jobUp openTrain) 1, one32, by decide +kernel⟩

theorem test_meets_stepCommit : ∃ (q : Fin 512) (seq : Nat) (s : State) (c : Cmd) (t : Train),
    (hostRuns s q seq 0x601 true [(4, 4)] c) ∧ (t = (ctxGet s c.ctx).train ∧ t.st = .opened ∧ c.p 4 4 = t.step ∧ t.commit = none ∧ t.updated = true) ∧ (jobGroupLost s c.ctx = false) :=
  ⟨0, 1, withCmd 0x601 1 [0, 0, 0, 0, 5] (jobUp openTrain), cm 0x601 1 [0, 0, 0, 0, 5], openTrain, by decide +kernel⟩

theorem test_meets_stepCommit_again : ∃ (q : Fin 512) (seq : Nat) (s : State) (c : Cmd) (r : Bytes),
    (hostRuns s q seq 0x601 true [(4, 4)] c) ∧ (0 < c.tries ∧ (ctxGet s c.ctx).train.st ≠ .opened ∧ (ctxGet s c.ctx).train.last = some (c.p 4 4, r)) :=
  ⟨0, 1, { jobUp { idleTrain with last := some (4, [5, 0, 0, 0]) } with jr := { ring := [{ cm 0x601 1 [0, 0, 0, 0, 4] with tries := 1 }], next := 2 } }, { cm 0x601 1 [0, 0, 0, 0, 4] with tries := 1 }, [5, 0, 0, 0], by decide +kernel⟩

theorem test_meets_barrierStall : ∃ (ctx : Fin 256) (s : State) (w : Commit),
    (s.dev.safe = false ∧ (ctxGet s ctx.val).train.commit = some w ∧ w.stalled = false ∧ 6000000000 ≤ s.clk.ltc - w.since) :=
  ⟨1, { jobUp waitTrain with clk := { ltc := 6000000000 } }, { cmd := 1, since := 0 }, by decide +kernel⟩

theorem test_meets_barrierRelease : ∃ (m : MemMsg) (peers : List PeerDigests) (shards : List ShardSt) (s : State) (t : State) (x : Group),
    (memTurn s m x) ∧ (x.released = none ∧ (ctxGet s x.ctx).train.commit.isSome = true) ∧ (t = releaseStep m.group m.mismatch peers shards s ∧ (ctxGet t x.ctx).train.commit = none) :=
  ⟨{ mm with mismatch := true }, [], [], jobUp waitTrain, breakJob 1 stParam freedUp, { group4 with bound := [] }, by decide +kernel⟩

theorem test_meets_barrierRelease_commit : ∃ (m : MemMsg) (peers : List PeerDigests) (shards : List ShardSt) (s : State) (n : State) (u : State) (v : State) (k : Nat) (x : Group) (t : Train) (w : Commit) (y : Job),
    (memTurn s m x) ∧ (x.released = none ∧ t = (ctxGet s x.ctx).train ∧ t.commit = some w ∧ jobGroup t.job = m.group ∧ m.mismatch = false) ∧ (n = trainMod x.ctx (fun t => { t with commit := some { w with released := some (w.released.getD s.clk.ltc) } }) s) ∧ (y = jobOf n x.ctx ∧ shards.contains .broken = false ∧ shards.contains .pending = false ∧ hitch n x.ctx (y.core ++ y.buffer ++ shadowSpans n x y) = none) ∧ (resolveAll x.ctx y t (jobReplica t.job) (peers.filter (fun p => p.replica ≠ jobReplica t.job && (liveReps x t.job).contains p.replica)) n = (u, k, false)) ∧ (commitStep m.group x.ctx k { w with released := some (w.released.getD s.clk.ltc) } u = v ∧ (ctxGet v x.ctx).train.commit = none) :=
  ⟨mm, [], [.resolved], jobUp waitTrain, freedUp, freedUp, commitStep 4 1 0 { cmd := 1, since := 0, released := some 0 } freedUp, 0, { group4 with bound := [] }, waitTrain, { cmd := 1, since := 0 }, jobOf freedUp 1, by decide +kernel⟩

theorem test_meets_barrierRelease_broken : ∃ (m : MemMsg) (peers : List PeerDigests) (shards : List ShardSt) (s : State) (n : State) (x : Group) (w : Commit),
    (memTurn s m x) ∧ (x.released = none ∧ (ctxGet s x.ctx).train.commit = some w ∧ jobGroup (ctxGet s x.ctx).train.job = m.group ∧ m.mismatch = false) ∧ (n = trainMod x.ctx (fun t => { t with commit := some { w with released := some (w.released.getD s.clk.ltc) } }) s) ∧ (shards.contains .broken = true ∧ (ctxGet (breakJob x.ctx stPeerLost n) x.ctx).train.commit = none) :=
  ⟨mm, [], [.resolved, .broken], jobUp waitTrain, freedUp, { group4 with bound := [] }, { cmd := 1, since := 0 }, by decide +kernel⟩

theorem test_meets_barrierRelease_own : ∃ (m : MemMsg) (peers : List PeerDigests) (shards : List ShardSt) (s : State) (t : State) (x : Group) (r : Nat × Bool),
    (groupGet s m.group = some x ∧ x.released = some r ∧ m.hdr.src = x.dev x.own) ∧ (t = releaseStep m.group r.2 peers shards s ∧ (ctxGet t x.ctx).train.commit = none) :=
  ⟨{ mm with hdr := { hd with src := 7 } }, [], [], { jobUp waitTrain with groups := [(4, { group4 with released := some (5, true) })] }, breakJob 1 stParam { freedUp with groups := [(4, { group4 with released := some (5, true) })] }, { group4 with released := some (5, true) }, (5, true), by decide +kernel⟩

theorem test_meets_digestCompare : ∃ (q : Fin 512) (seq : Nat) (peers : List PeerDigests) (s : State) (c : Cmd) (t : Train) (x : Job),
    (hostRuns s q seq 0x608 true [(0, 1), (8, 8)] c) ∧ (t = (ctxGet s c.ctx).train ∧ x = jobOf s c.ctx ∧ t.st = .idle) ∧ (c.p 0 1 ≤ 1 ∧ jobGroupLost s c.ctx = false ∧ hitch s c.ctx x.core = none) ∧ (∀ j < x.n, (x.block s j).2.2 = false) :=
  ⟨0, 1, [], withCmd 0x608 1 [1] (jobUp idleTrain), cm 0x608 1 [1], idleTrain, jobOf (jobUp idleTrain) 1, by decide +kernel⟩

theorem test_meets_snapshot : ∃ (q : Fin 512) (seq : Nat) (s : State) (c : Cmd) (t : Train) (x : Job),
    (hostRuns s q seq 0x604 true [(0, 1)] c) ∧ (t = (ctxGet s c.ctx).train ∧ x = jobOf s c.ctx ∧ t.st = .idle) ∧ (c.p 0 1 ≤ 1 ∧ jobGroupLost s c.ctx = false ∧ snapBytes x.n ≤ snapMax ∧ flashRuns s = true ∧ hitch s c.ctx (x.core ++ x.table) = none) ∧ (∀ j < x.n, (x.block s j).2.2 = false) :=
  ⟨0, 1, withCmd 0x604 1 [1] (pairUp (jobUp idleTrain)), cm 0x604 1 [1], idleTrain, jobOf (jobUp idleTrain) 1, by
  exact ⟨by decide +kernel, by decide +kernel, ⟨by decide +kernel, by decide +kernel, by decide +kernel, by decide +kernel, hitch_table (l := (jobOf (jobUp idleTrain) 1).core) (r := []) (by decide +kernel) (by decide +kernel)⟩, by decide +kernel⟩⟩

theorem test_meets_snapCopy : ∃ (h : MsgHdr) (k : SnapCopy) (s : State),
    (msgTurn s h 2) ∧ ((s.jr.pair = .bound ∨ s.jr.pair = .binding) ∧ h.src = s.jr.partner ∧ mirrorPort s h.port = true) ∧ (flashRuns s = true ∧ k.pages ≤ poolFree s 0 2 ∧ s.deep.spare ≠ 0 ∧ (s.deep.copies.filter (fun y => y.shard.jobId = k.shard.jobId)).length < 2) :=
  ⟨hd, { shard := zeroShard, pages := 1 }, pairUp (jobUp {}), by decide +kernel⟩

theorem test_meets_snapCopy_third : ∃ (h : MsgHdr) (k : SnapCopy) (s : State) (u : State) (old : Snap),
    (msgTurn s h 2) ∧ ((s.jr.pair = .bound ∨ s.jr.pair = .binding) ∧ h.src = s.jr.partner ∧ mirrorPort s h.port = true) ∧ (flashRuns s = true ∧ k.pages ≤ poolFree s 0 2 ∧ s.deep.spare ≠ 0 ∧ 2 ≤ (s.deep.copies.filter (fun y => y.shard.jobId = k.shard.jobId)).length) ∧ (s.deep.copies.find? (fun y => decide (y.shard.jobId = k.shard.jobId)) = some old) ∧ (u = writeRegion 6 s.deep.copyAt (32 * k.pages) { s with deep := { s.deep with copyAt := s.deep.copyAt + 32 * k.pages, copies := s.deep.copies ++ [{ shard := k.shard, pages := k.pages, first := s.deep.copyAt }] } }) :=
  ⟨hd, copy3, copyUp, copyEnd, { shard := { jobId := 1, version := 1 } }, by
  exact ⟨by decide +kernel, by decide +kernel, by decide +kernel, by decide +kernel, rfl⟩⟩

theorem test_meets_restoreShard : ∃ (q : Fin 512) (seq : Nat) (peer : Option ShardData) (s : State) (n : State) (u : State) (c : Cmd) (d : ShardData) (j : Bytes),
    (hostRuns s q seq 0x605 true [(0, 12)] c) ∧ ((ctxGet s c.ctx).train.st ≠ .opened ∧ (c.tries = 0 ∨ (ctxGet s c.ctx).train.st ≠ .broken) ∧ outcast s c.ctx = false) ∧ (c.p 0 1 ≤ 2 ∧ c.p 1 1 ≤ 1 ∧ c.p 2 2 < 4096) ∧ ((c.p 0 1 = 0 ∧ flashRuns s = true ∧ (mapFind s.deep.slots (c.p 1 1)).map (fun k => k.shard) = some d) ∨ (c.p 0 1 ≠ 0 ∧ peer = some d)) ∧ (j = takeJob (ctxGet s c.ctx).train d ∧ d.jobId = c.p 4 4 ∧ (c.p 8 4 = 0xFFFFFFFF ∨ d.version = c.p 8 4) ∧ jobOk s c.ctx j = true) ∧ (n = noteRestore c.ctx (if c.p 0 1 = 0 then readRegion (3 + c.p 1 1) s else s)) ∧ (hitch n c.ctx ((jobIn s c.ctx j).core ++ (jobIn s c.ctx j).buffer) = none ∧ shardDigest d (jobIn s c.ctx j).first (jobIn s c.ctx j).n = d.digest) ∧ (u = (jobIn n c.ctx j).load d false n) :=
  ⟨0, 1, some zeroShard, restoreUp, noteRestore 1 restoreUp, (jobIn (noteRestore 1 restoreUp) 1 job1).load zeroShard false (noteRestore 1 restoreUp), cm 0x605 1 [1, 0, 0, 0, 1, 0, 0, 0, 0xFF, 0xFF, 0xFF, 0xFF], zeroShard, job1, by
  refine ⟨by decide +kernel, by decide +kernel, by decide +kernel, .inr ⟨by decide +kernel, rfl⟩, ⟨by decide +kernel, by decide +kernel, by decide +kernel, by decide +kernel⟩, by decide +kernel, ⟨by decide +kernel, ?_⟩, rfl⟩
  exact zeroShard_whole (by decide +kernel) (by decide +kernel)⟩

theorem test_meets_fillFromPeer : ∃ (q : Fin 512) (seq : Nat) (peer : Option ShardData) (snap : Option SnapCopy) (s : State) (c : Cmd) (y : Group) (t : Train) (d : ShardData) (j : Bytes) (x : Job) (k : Nat),
    (hostRuns s q seq 0x607 true [(0, 9)] c) ∧ (t = (ctxGet s c.ctx).train ∧ (t.st = .none ∨ t.st = .repair)) ∧ (groupGet s (c.p 0 4) = some y ∧ y.liveList ≠ [] ∧ y.stateOf y.own ≠ 2 ∧ fillBad c y (t.filling = some c.jidx) = false ∧ fillWaits s c = false) ∧ ((c.p 8 1 = 0 ∨ flashRuns s = true) ∧ peer = some d ∧ fillTakes c y t j (jobReplica d.jobDef) = true) ∧ (j = fillJob y d ∧ jobGroup j = c.p 0 4 ∧ jobShard j = c.p 6 2 ∧ jobOk s c.ctx j = true) ∧ (x = jobIn s c.ctx j ∧ hitch s c.ctx (x.core ++ x.buffer) = none ∧ k = fillKnown t d j ∧ d.start ≤ k) ∧ (k + (fillGood x d k).length = x.n) :=
  ⟨0, 1, some zeroShard, none, fillUp, cm 0x607 1 [4, 0, 0, 0, 0xFF, 0xFF], { group4 with members := [(7, 1), (9, 0)] }, {}, zeroShard, job1, jobIn fillUp 1 job1, 0, by
  refine ⟨by decide +kernel, by decide +kernel, by decide +kernel, ⟨by decide +kernel, rfl, by decide +kernel⟩, ⟨(fillJob_zeroShard _).symm, by decide +kernel, by decide +kernel, by decide +kernel⟩, ⟨rfl, by decide +kernel, by decide +kernel, by decide +kernel⟩, ?_⟩
  rw [fillGood_zero (by decide +kernel) (by decide +kernel)]; decide +kernel⟩

theorem test_meets_fillFromPeer_part : ∃ (q : Fin 512) (seq : Nat) (peer : Option ShardData) (snap : Option SnapCopy) (s : State) (c : Cmd) (y : Group) (t : Train) (d : ShardData) (j : Bytes) (x : Job) (k : Nat),
    (hostRuns s q seq 0x607 true [(0, 9)] c) ∧ (t = (ctxGet s c.ctx).train ∧ (t.st = .none ∨ t.st = .repair)) ∧ (groupGet s (c.p 0 4) = some y ∧ y.liveList ≠ [] ∧ y.stateOf y.own ≠ 2 ∧ fillBad c y (t.filling = some c.jidx) = false ∧ fillWaits s c = false) ∧ ((c.p 8 1 = 0 ∨ flashRuns s = true) ∧ peer = some d ∧ fillTakes c y t j (jobReplica d.jobDef) = true) ∧ (j = fillJob y d ∧ jobGroup j = c.p 0 4 ∧ jobShard j = c.p 6 2 ∧ jobOk s c.ctx j = true) ∧ (x = jobIn s c.ctx j ∧ hitch s c.ctx (x.core ++ x.buffer) = none ∧ k = fillKnown t d j ∧ d.start ≤ k) ∧ (k + (fillGood x d k).length < x.n ∧ d.start + d.blocks.length ≤ k + (fillGood x d k).length) :=
  ⟨0, 1, some { zeroShard with blocks := [] }, none, fillUp, cm 0x607 1 [4, 0, 0, 0, 0xFF, 0xFF], { group4 with members := [(7, 1), (9, 0)] }, {}, { zeroShard with blocks := [] }, job1, jobIn fillUp 1 job1, 0, by
  refine ⟨by decide +kernel, by decide +kernel, by decide +kernel, ⟨by decide +kernel, rfl, by decide +kernel⟩, ⟨(fillJob_zeroShard _).symm, by decide +kernel, by decide +kernel, by decide +kernel⟩, ⟨rfl, by decide +kernel, by decide +kernel, by decide +kernel⟩, by decide +kernel⟩⟩

theorem test_meets_exportShard : ∃ (q : Fin 512) (seq : Nat) (s : State) (c : Cmd) (e : Export) (x : Job),
    (hostRuns s q seq 0x606 true [(0, 1), (8, 16)] c) ∧ (((ctxGet s c.ctx).train.st = .idle ∨ (ctxGet s c.ctx).train.st = .repair)) ∧ (e = exportOf s c ∧ x = jobOf s c.ctx ∧ exportBad s c e = false) ∧ (jobGroupLost s c.ctx = false ∧ hitch s c.ctx (exportSpans c x e) = none) ∧ ((exportRecords s c x e).2 = false) :=
  ⟨0, 1, withCmd 0x606 1 (natLe 24 (1000 * 2 ^ 64 + 10000 * 2 ^ 128)) (jobUp idleTrain), cm 0x606 1 (natLe 24 (1000 * 2 ^ 64 + 10000 * 2 ^ 128)), exportOf (withCmd 0x606 1 (natLe 24 (1000 * 2 ^ 64 + 10000 * 2 ^ 128)) (jobUp idleTrain)) (cm 0x606 1 (natLe 24 (1000 * 2 ^ 64 + 10000 * 2 ^ 128))), jobOf (jobUp idleTrain) 1, by
  refine ⟨by decide +kernel, by decide +kernel, ⟨rfl, by decide +kernel, ?_⟩, ⟨by decide +kernel, ?_⟩, ?_⟩
  · exact exportBad_one (by decide +kernel) (by decide +kernel) (by decide +kernel) (by decide +kernel)
  · exact hitch_table (l := (jobOf (jobUp idleTrain) 1).core) (r := []) (by decide +kernel) (by decide +kernel)
  · exact exportRecords_clean (by decide +kernel) (by decide +kernel) (by decide +kernel)⟩

theorem test_meets_selfTestArrayBist : ∃ (q : Fin 512) (seq : Nat) (failing : Nat) (s : State) (c : Cmd) (l : List Nat),
    (hostRuns s q seq 0x700 false [(0, 1), (8, 8)] c) ∧ (c.waitFrom = none ∧ c.p 0 1 = 0 ∧ l = maskList (c.p 8 8) 64 ∧ testReady s 0 l = true) :=
  ⟨0, 1, 2, st 0x700 0 ([0, 0, 0, 0, 0, 0, 0, 0] ++ natLe 8 7), cm 0x700 0 ([0, 0, 0, 0, 0, 0, 0, 0] ++ natLe 8 7), [0, 1, 2], by decide +kernel⟩

theorem test_meets_selfTestRsMarch : ∃ (q : Fin 512) (seq : Nat) (failing : Nat) (s : State) (c : Cmd) (l : List Nat),
    (hostRuns s q seq 0x700 false [(0, 1), (8, 8)] c) ∧ (c.waitFrom = none ∧ c.p 0 1 = 1 ∧ l = maskList (c.p 8 8) 64 ∧ testReady s 1 l = true) :=
  ⟨0, 1, 4, st 0x700 0 ([1, 0, 0, 0, 0, 0, 0, 0] ++ natLe 8 6), cm 0x700 0 ([1, 0, 0, 0, 0, 0, 0, 0] ++ natLe 8 6), [1, 2], by decide +kernel⟩

theorem test_meets_selfTestLoopback : ∃ (q : Fin 512) (seq : Nat) (failing : Nat) (s : State) (c : Cmd) (l : List Nat),
    (hostRuns s q seq 0x700 false [(0, 1), (8, 8)] c) ∧ (c.waitFrom = none ∧ c.p 0 1 = 2 ∧ c.p 8 8 < 2 ^ 32 ∧ l = maskList (c.p 8 8) 32 ∧ testReady s 2 l = true) :=
  ⟨0, 1, 0, { st 0x700 0 ([2, 0, 0, 0, 0, 0, 0, 0] ++ natLe 8 8) with host := { up := 3#2, trained := 3#2, portOut := 8#32 } }, cm 0x700 0 ([2, 0, 0, 0, 0, 0, 0, 0] ++ natLe 8 8), [3], by decide +kernel⟩

theorem test_meets_selfTestWvCheck : ∃ (q : Fin 512) (seq : Nat) (failing : Nat) (s : State) (c : Cmd) (l : List Nat),
    (hostRuns s q seq 0x700 false [(0, 1), (8, 8)] c) ∧ (c.waitFrom = none ∧ c.p 0 1 = 3 ∧ c.p 8 8 < 16 ∧ l = maskList (c.p 8 8) 4 ∧ (testReady s 3 l = true ∨ bitOf c.flags 3 = false)) :=
  ⟨0, 1, 0, st 0x700 0 ([3, 0, 0, 0, 0, 0, 0, 0] ++ natLe 8 8), cm 0x700 0 ([3, 0, 0, 0, 0, 0, 0, 0] ++ natLe 8 8), [3], by decide +kernel⟩

theorem test_meets_selfTest_waits : ∃ (q : Fin 512) (seq : Nat) (failing : Nat) (s : State) (c : Cmd),
    (hostRuns s q seq 0x700 false [(0, 1), (8, 8)] c) ∧ (c.waitFrom = none ∧ c.p 0 1 = 0 ∧ testReady s 0 (maskList (c.p 8 8) 64) = false ∧ bitOf c.flags 3 = true ∧ (deferred s).length < 16) :=
  ⟨0, 1, 0, { rodUp run1 with jr := { ring := [{ cm 0x700 0 [0, 0, 0, 0, 0, 0, 0, 0, 1] with flags := 8 }], next := 2 } }, { cm 0x700 0 [0, 0, 0, 0, 0, 0, 0, 0, 1] with flags := 8 }, by decide +kernel⟩

theorem test_meets_deferredTestStart : ∃ (q : Fin 512) (seq : Nat) (failing : Nat) (s : State) (c : Cmd),
    (waitingCmd s q seq = some c ∧ c.opcode = 0x700 ∧ testReady s (c.p 0 1) (testList c) = true) ∧ (s.dev.safe = false ∧ zenithRuns s = true ∧ s.fc.rstChip = false) :=
  ⟨0, 1, 0, { up with jr := { ring := [{ cm 0x700 0 [0, 0, 0, 0, 0, 0, 0, 0, 1] with waitFrom := some 0 }], next := 2 } }, { cm 0x700 0 [0, 0, 0, 0, 0, 0, 0, 0, 1] with waitFrom := some 0 }, by decide +kernel⟩

theorem test_meets_deferTimeout : ∃ (q : Fin 512) (seq : Nat) (s : State) (c : Cmd) (t : Nat),
    (waitingCmd s q seq = some c ∧ c.waitFrom = some t ∧ t + 360000000000 ≤ s.clk.ltc) ∧ (s.dev.safe = false ∧ zenithRuns s = true) :=
  ⟨0, 1, { up with clk := { ltc := 360000000007 }, jr := { ring := [{ cm 0x700 0 [0, 0, 0, 0, 0, 0, 0, 0, 1] with waitFrom := some 7 }], next := 2 } }, { cm 0x700 0 [0, 0, 0, 0, 0, 0, 0, 0, 1] with waitFrom := some 7 }, 7, by decide +kernel⟩

theorem test_meets_calibrateThermal : ∃ (q : Fin 512) (seq : Nat) (s : State) (c : Cmd),
    (hostRuns s q seq 0x701 false [(0, 1), (8, 8)] c) ∧ (c.p 0 1 = 0 ∧ c.p 8 8 = 0) :=
  ⟨0, 1, st 0x701 0 [0], cm 0x701 0 [0], by decide +kernel⟩

theorem test_meets_calibrateHbmPhy : ∃ (q : Fin 512) (seq : Nat) (s : State) (c : Cmd) (l : List Nat),
    (hostRuns s q seq 0x701 false [(0, 1), (8, 8)] c) ∧ (c.p 0 1 = 1 ∧ c.p 8 8 < 256 ∧ l = maskList (c.p 8 8) 8) ∧ (bitOf c.flags 3 = false ∨ l.all (fun u => !(calParts s 1 u).any (partStep s)) = true) :=
  ⟨0, 1, { st 0x701 0 [1, 0, 0, 0, 0, 0, 0, 0, 0x81] with clk := { ltc := 5 } }, cm 0x701 0 [1, 0, 0, 0, 0, 0, 0, 0, 0x81], [0, 7], by decide +kernel⟩

theorem test_meets_calibrateSpeed : ∃ (q : Fin 512) (seq : Nat) (s : State) (c : Cmd),
    (hostRuns s q seq 0x701 false [(0, 1), (8, 8)] c) ∧ (c.p 0 1 = 2 ∧ c.p 8 8 < 2 ^ 22) ∧ (bitOf c.flags 3 = false ∨ (maskList (c.p 8 8) 22).all (fun u => !(calParts s 2 u).any (partStep s)) = true) :=
  ⟨0, 1, st 0x701 0 [2, 0, 0, 0, 0, 0, 0, 0, 0xFF, 0xFF, 0x3F], cm 0x701 0 [2, 0, 0, 0, 0, 0, 0, 0, 0xFF, 0xFF, 0x3F], by decide +kernel⟩

theorem test_meets_readCounters : ∃ (q : Fin 512) (seq : Nat) (s : State) (c : Cmd) (l : List Nat) (set : Nat),
    (startable s q seq 0x702 = some c ∧ c.rest0 [(0, 5), (8, 8), (16, 4)] = true ∧ c.p 4 1 ≤ 1) ∧ (set = c.p 0 2 ∧ 1 ≤ set ∧ set ≤ 0x0B ∧ l ≠ []) ∧ (l = if c.p 2 2 = 0xFFFF then setInstances s c.ctx set else (setInstances s c.ctx set).filter (fun i => decide (i = c.p 2 2))) ∧ (if set = 8 ∨ set = 9 ∨ set = 10 then ctxExists s c.ctx = true else c.ctx = 0) ∧ (linkUp s c.port = true) :=
  ⟨0, 1, { st 0x702 0 (natLe 20 (2 + 2 * 65536 + 4096 * 2 ^ 64 + 64 * 2 ^ 128)) with strata := [(2, { log := [1#256, 2#256] })] }, cm 0x702 0 (natLe 20 (2 + 2 * 65536 + 4096 * 2 ^ 64 + 64 * 2 ^ 128)), [2], 2, by decide +kernel⟩

theorem test_reads : up.host.trained.getLsbD 1 = true ∧ up.dev.safe = false ∧ up.dev.stage < 0xE ∧ linkUp up 1 = true ∧ zenithRuns up = true ∧ (adminCfg up 1).getLsbD 31 = false := by decide +kernel

theorem test_reads_back : registerRead (nextOf (exec (.registerWrite 1 0x28 true 0x123456789ABCDEF0#64) up)) 1 0x28 true = some 0x123456789ABCDEF0#64 := by decide +kernel

theorem test_reads_zero : registerRead up 1 0x8FFC false = some 0#64 ∧ registerRead up 1 0x1C false = some 0#64 ∧ registerRead up 1 0xFFFC false = some 0#64 := by decide +kernel

theorem test_meets_faultMessage_parity : ∃ (msg : BitVec 67) (s : State),
    (networkRuns s = true ∧ parityOk msg = false) :=
  ⟨1#67, { fcUp with fc := { service := true, net := [1#67] } }, by decide +kernel⟩

theorem test_meets_faultMessage : ∃ (msg : BitVec 67) (s : State) (n : Nat),
    (messageRuns s n = true ∧ parityOk msg = true ∧ n = msgSource msg ∧ sourceKnown n = true ∧ n ≠ 0x003) ∧ (s.dev.safe = true ∨ sevOf s n = 0) :=
  ⟨msgOf 0x8A0, { fcUp with fc := { service := true, net := [msgOf 0x8A0] } }, 0x8A0, by decide +kernel⟩

theorem test_meets_faultMessage_notify : ∃ (msg : BitVec 67) (s : State) (n : Nat),
    (messageRuns s n = true ∧ parityOk msg = true ∧ n = msgSource msg ∧ sourceKnown n = true ∧ n ≠ 0x003) ∧ (s.dev.safe = false ∧ s.fc.service = true ∧ sevOf s n = 1) :=
  ⟨msgOf 0x300, { fcUp with fc := { service := true, net := [msgOf 0x300] } }, 0x300, by decide +kernel⟩

theorem test_meets_faultMessage_contain : ∃ (msg : BitVec 67) (s : State) (n : Nat),
    (messageRuns s n = true ∧ parityOk msg = true ∧ n = msgSource msg ∧ sourceKnown n = true ∧ n ≠ 0x003) ∧ (s.dev.safe = false ∧ s.fc.service = true ∧ sevOf s n = 2) :=
  ⟨msgOf 0x100, { fcUp with fc := { service := true, sev := [(0x100, 2)], net := [msgOf 0x100] } }, 0x100, by decide +kernel⟩

theorem test_meets_faultMessage_safe : ∃ (msg : BitVec 67) (s : State) (n : Nat),
    (messageRuns s n = true ∧ parityOk msg = true ∧ n = msgSource msg ∧ sourceKnown n = true ∧ n ≠ 0x003) ∧ (s.dev.safe = false ∧ sevOf s n = 3) :=
  ⟨msgOf 0xA80, { fcUp with fc := { service := true, net := [msgOf 0xA80] } }, 0xA80, by decide +kernel⟩

theorem test_meets_faultMessage_thermtrip : ∃ (msg : BitVec 67) (s : State) (t : State),
    (messageRuns s 0x003 = true ∧ parityOk msg = true ∧ msgSource msg = 0x003 ∧ sevOf s 0x003 = 3 ∧ s.dev.safe = false) ∧ (t = setSticky 0x003 (arriveNow msg s)) :=
  ⟨msgOf 0x003, fcUp, setSticky 0x003 fcUp, by decide +kernel⟩

theorem test_meets_faultMessage_waits : ∃ (msg : BitVec 67) (s : State),
    (parityOk msg = true ∧ sourceKnown (msgSource msg) = true ∧ messageRuns s (msgSource msg) = false ∧ s.fc.net.any (fun m => msgSource m = msgSource msg) = false ∧ s.fc.transit.contains msg = false) :=
  ⟨msgOf 0x100, State.reset, by decide +kernel⟩

theorem test_meets_fcParityError : ∃ (word : Nat) (s : State),
    (zenithRuns s = true ∧ word < 65536) :=
  ⟨3, fcUp, by decide +kernel⟩

theorem test_meets_fcParityError_record : ∃ (word : Nat) (i : Nat) (s : State),
    (zenithRuns s = true ∧ word = 65536 + i ∧ i < s.fc.ring.length) :=
  ⟨65537, 1, { fcUp with fc := { service := true, ring := [{ time := 1, source := 2, kind := 0, sev := 1, addr := 0 }, { time := 2, source := 3, kind := 0, sev := 1, addr := 0 }] } }, by decide +kernel⟩

theorem test_meets_thermtrip : ∃ (sensor : Fin 128) (s : State),
    (zenithRuns s = true ∧ s.clk.failed.contains sensor.val = false) :=
  ⟨127, fcUp, by decide +kernel⟩

theorem test_meets_faultRead : ∃ (q : Fin 512) (seq : Nat) (s : State) (c : Cmd),
    (hostRuns s q seq 0x703 false [(8, 8), (16, 4)] c) :=
  ⟨0, 1, st 0x703 0 (natLe 20 (4096 * 2 ^ 64 + 512 * 2 ^ 128)), cm 0x703 0 (natLe 20 (4096 * 2 ^ 64 + 512 * 2 ^ 128)), by decide +kernel⟩

theorem test_meets_faultClear : ∃ (q : Fin 512) (seq : Nat) (s : State) (c : Cmd) (gone : List Nat),
    (hostRuns s q seq 0x704 false [(0, 2)] c) ∧ (c.p 0 2 = 0xFFFF ∨ sourceKnown (c.p 0 2) = true) ∧ (gone = (stickyList s).filter (fun m => m ≠ 0x005 && (c.p 0 2 = 0xFFFF || m = c.p 0 2))) :=
  ⟨0, 1, { st 0x704 0 [0xFF, 0xFF] with fc := { sticky := 0x22#4096 } }, cm 0x704 0 [0xFF, 0xFF], [1], by decide +kernel⟩

theorem test_meets_escalationSet : ∃ (q : Fin 512) (seq : Nat) (s : State) (c : Cmd),
    (hostRuns s q seq 0x705 false [(0, 8)] c) ∧ (c.p 0 1 = 0 ∧ c.p 1 1 ≤ 1 ∧ 1 ≤ c.p 2 2 ∧ c.p 2 2 ≤ 16 ∧ 1 ≤ c.p 4 4 ∧ c.p 4 4 ≤ 86400) :=
  ⟨0, 1, st 0x705 0 [0, 1, 16, 0, 1], cm 0x705 0 [0, 1, 16, 0, 1], by decide +kernel⟩

theorem test_meets_escalationReturn : ∃ (q : Fin 512) (seq : Nat) (s : State) (c : Cmd),
    (hostRuns s q seq 0x705 false [(0, 8)] c) ∧ (c.p 0 1 = 1 ∧ s.dev.retired = true ∧ s.trust.cycled = true) :=
  ⟨0, 1, { st 0x705 0 [1] with dev := { up.dev with retired := true }, trust := { retired := true, cycled := true } }, cm 0x705 0 [1], by decide +kernel⟩

theorem test_meets_speedMeasure : ∃ (mhz : List Nat) (s : State) (g : Nat) (l : List Nat) (low : Nat),
    (maintains s = true ∧ g :: l = (List.range 16).filter (fun g => s.sup.domains.getLsbD (2 + g) && decide (g < mhz.length))) ∧ (low = l.foldl (fun b i => if mhz.getD i 0 < mhz.getD b 0 then i else b) g) :=
  ⟨[1900, 1880, 1880], { fcUp with sup := { fcUp.sup with unheard := true } }, 0, [1, 2], 1, by decide +kernel⟩

theorem test_meets_speedMeasure_off : ∃ (mhz : List Nat) (s : State),
    (maintains s = true ∧ (List.range 16).any (fun g => s.sup.domains.getLsbD (2 + g)) = false) :=
  ⟨[], { fcUp with sup := { fcUp.sup with domains := 0x3FFC0003#30, unheard := true } }, by decide +kernel⟩

theorem test_meets_thermalGradientCheck : ∃ (s : State),
    (maintains s = true) :=
  ⟨{ fcUp with clk := { fcUp.clk with sensors := [(0, 1000), (1, 1000), (2, 1000), (3, 1000)] } }, by decide +kernel⟩

theorem test_meets_timerefLoss : ∃ (s : State),
    (s.sup.timeref = true ∧ zenithRuns s = true ∧ s.clk.internal = false) :=
  ⟨fcUp, by decide +kernel⟩

theorem test_meets_timerefLoss_off : ∃ (s : State),
    (s.sup.timeref = true ∧ zenithRuns s = false) :=
  ⟨State.reset, by decide +kernel⟩

theorem test_meets_heartbeatAdvance : ∃ (s : State),
    (zenithRuns s = true ∧ s.fc.service = true ∧ s.clk.lastBeat + 100000 ≤ s.clk.ltc) :=
  ⟨fcUp, by decide +kernel⟩

theorem test_meets_heartbeatTimeout : ∃ (s : State),
    (zenithRuns s = true ∧ s.clk.armed = true ∧ 1000000 ≤ s.clk.ltc - s.clk.lastBeat ∧ s.clk.beatRaised = false) :=
  ⟨fcUp, by decide +kernel⟩

theorem test_meets_watchdogChipReset : ∃ (s : State),
    (zenithRuns s = true ∧ s.clk.armed = true ∧ 101000000 ≤ s.clk.ltc - s.clk.lastBeat ∧ s.clk.beatRaised = true) ∧ (s.dev.safe = false ∧ s.dev.retired = false ∧ s.fc.window = false) :=
  ⟨{ fcUp with clk := { fcUp.clk with beatRaised := true }, fc := { fcUp.fc with rstRods := [3] } }, by decide +kernel⟩

theorem test_meets_watchdogChipReset_retires : ∃ (s : State),
    (zenithRuns s = true ∧ s.clk.armed = true ∧ 101000000 ≤ s.clk.ltc - s.clk.lastBeat ∧ s.clk.beatRaised = true) ∧ (s.dev.safe = false ∧ s.dev.retired = false ∧ s.fc.window = true ∧ s.fc.escN ≤ counted s + 1) :=
  ⟨{ fcUp with clk := { fcUp.clk with beatRaised := true }, fc := { fcUp.fc with window := true, escN := 1 } }, by decide +kernel⟩

theorem test_meets_powerCycleRepeat : ∃ (s : State),
    (s.fc.cycleReq = true ∧ s.sup.pwrEn = true ∧ zenithRuns s = true ∧ s.fc.cycleAt + 100000000 ≤ s.clk.ltc) :=
  ⟨{ fcUp with fc := { fcUp.fc with cycleReq := true } }, by decide +kernel⟩

theorem test_meets_engineReset : ∃ (rod : Fin 64) (s : State),
    (s.fc.rstRods.contains rod.val = true ∧ zenithRuns s = true ∧ s.dev.safe = false) :=
  ⟨0, { rodUp run1 with fc := { rstRods := [0] } }, by decide +kernel⟩

theorem test_meets_partitionReset : ∃ (part : Fin 8) (s : State),
    (s.fc.rstParts.contains part.val = true ∧ zenithRuns s = true ∧ s.dev.safe = false) :=
  ⟨0, { rodUp run1 with fc := { rstParts := [0] } }, by decide +kernel⟩

theorem test_meets_chipReset : ∃ (unread : BitVec 4) (s : State),
    (s.fc.rstChip = true ∧ zenithRuns s = true ∧ s.sup.power = .on ∧ s.sup.pwrEn = true ∧ s.dev.bootStep ≠ 2 ∧ s.sup.thermtripLow = false ∧ s.trust.testHold = false) :=
  ⟨0#4, { rodUp run1 with fc := { rstChip := true } }, by decide +kernel⟩

theorem test_meets_replay : ∃ (s : State),
    (s.jr.due ≠ [] ∧ zenithRuns s = true ∧ s.dev.ready = true ∧ s.dev.safe = false ∧ s.fc.rstChip = false) :=
  ⟨{ st 0x102 0 (pset 0 0 1) with jr := { ring := [cm 0x102 0 (pset 0 0 1)], next := 2, due := [1] } }, by decide +kernel⟩

theorem test_meets_pwrEnRise : ∃ (strap : BitVec 4) (pairSel : Bool) (s : State) (t : State),
    (s.sup.pwrEn = false ∧ s.sup.power = .off ∧ s.sup.lowOver = true) ∧ (t = { s with sup := { s.sup with pwrEn := true, strapPins := strap, pairPin := pairSel, riseWait := false } }) :=
  ⟨5#4, true, { State.reset with sup := { vin52 := 42999 } }, { State.reset with sup := { vin52 := 42999, pwrEn := true, strapPins := 5#4, pairPin := true } }, by decide +kernel⟩

theorem test_meets_pwrEnRise_waits : ∃ (strap : BitVec 4) (pairSel : Bool) (s : State),
    (s.sup.pwrEn = false ∧ (s.sup.power ≠ .off ∨ s.sup.lowOver = false)) :=
  ⟨0#4, false, { State.reset with sup := { power := .holdOff, lowOver := false } }, by decide +kernel⟩

theorem test_meets_pwrEnLowTimeEnd : ∃ (s : State),
    (s.sup.power = .off ∧ s.sup.lowOver = false ∧ (s.sup.riseWait = false ∨ s.sup.pwrEn = false)) :=
  ⟨{ State.reset with sup := { lowOver := false } }, by decide +kernel⟩

theorem test_meets_pwrEnLowTimeEnd_starts : ∃ (s : State) (t : State),
    (s.sup.power = .off ∧ s.sup.lowOver = false ∧ s.sup.riseWait = true ∧ s.sup.pwrEn = true) ∧ (t = { s with sup := { s.sup with lowOver := true, riseWait := false } }) :=
  ⟨{ State.reset with sup := { lowOver := false, riseWait := true, pwrEn := true } }, { State.reset with sup := { riseWait := false, pwrEn := true } }, by decide +kernel⟩

theorem test_meets_softStartDone : ∃ (s : State),
    (s.sup.power = .softStart) :=
  ⟨{ State.reset with sup := { power := .softStart, pwrEn := true }, dev := { bootStep := 1 } }, by decide +kernel⟩

theorem test_meets_vin52Rise : ∃ (mv : Nat) (s : State),
    (mv ≤ 62000 ∧ s.sup.vin52 < mv ∧ 40000 ≤ s.sup.vin52 ∧ (s.sup.power ≠ .waitInput ∨ mv < 43000)) :=
  ⟨62000, up, by decide +kernel⟩

theorem test_meets_vin52Rise_sag : ∃ (mv : Nat) (s : State),
    (mv ≤ 62000 ∧ s.sup.vin52 < mv ∧ s.sup.vin52 < 40000 ∧ (s.sup.power ≠ .waitInput ∨ mv < 43000)) :=
  ⟨39000, { State.reset with sup := { vin52 := 0 } }, by decide +kernel⟩

theorem test_meets_vin52Rise_starts : ∃ (mv : Nat) (s : State),
    (mv ≤ 62000 ∧ s.sup.vin52 < mv ∧ s.sup.power = .waitInput ∧ 43000 ≤ mv) :=
  ⟨43000, { State.reset with sup := { power := .waitInput, pwrEn := true, vin52 := 0 } }, by decide +kernel⟩

theorem test_meets_pwrEnFall : ∃ (s : State) (t : State),
    (s.sup.pwrEn = true ∧ (s.sup.power = .on ∨ s.sup.power = .softStart ∨ s.sup.power = .holdOff)) ∧ (t = if zenithRuns s then enterSafe s else s) :=
  ⟨up, enterSafe up, by decide +kernel⟩

theorem test_meets_conversionStop : ∃ (s : State),
    (s.sup.power = .holdOff) :=
  ⟨{ up with sup := { up.sup with power := .holdOff, pwrEn := false } }, by decide +kernel⟩

theorem test_meets_vin52Sag : ∃ (mv : Nat) (s : State) (t : State),
    (Config.inputLossMv.val ≤ mv ∧ mv < 40000 ∧ t = { s with sup := { s.sup with vin52 := mv } }) ∧ (zenithRuns s = true ∧ zenithRuns t = true ∧ s.crossing = [] ∧ s.zl.ports = []) :=
  ⟨39999, { up with sup := { up.sup with vin52 := 39998 } }, { up with sup := { up.sup with vin52 := 39999 } }, by
  exact ⟨⟨by have := Config.inputLossMv.isLt; omega, by decide, rfl⟩, zenithRuns_sag (by decide +kernel) (by decide +kernel), zenithRuns_sag (by decide +kernel) (by decide +kernel), by decide +kernel, by decide +kernel⟩⟩

theorem test_meets_vin52Sag_any : ∃ (mv : Nat) (s : State) (u : State),
    (mv < 40000 ∧ u = drainPorts (serveCrossings (keepShadow s { s with sup := { s.sup with vin52 := mv } }))) :=
  ⟨39999, up, drainPorts (serveCrossings (keepShadow up { up with sup := { up.sup with vin52 := 39999 } })), by
  exact ⟨by decide, rfl⟩⟩

theorem test_meets_vin52SagEnd : ∃ (mv : Nat) (s : State),
    (s.sup.vin52 < 40000 ∧ 40000 ≤ mv ∧ mv ≤ 62000 ∧ zenithRuns s = true ∧ s.crossing = [] ∧ s.zl.ports = []) :=
  ⟨52000, { fcUp with sup := { up.sup with vin52 := 39999 } }, by
  exact ⟨by decide +kernel, by decide, by decide, zenithRuns_sag (by decide +kernel) (by decide +kernel), by decide +kernel, by decide +kernel⟩⟩

theorem test_meets_vin52SagEnd_runs : ∃ (mv : Nat) (s : State) (u : State),
    (s.sup.vin52 < 40000 ∧ 40000 ≤ mv ∧ mv ≤ 62000 ∧ u = drainPorts (serveCrossings { s with sup := { s.sup with vin52 := mv } })) :=
  ⟨52000, { fcUp with sup := { up.sup with vin52 := 100 } }, { fcUp with sup := { up.sup with vin52 := 52000 } }, by decide +kernel⟩

theorem test_meets_convOvercurrent : ∃ (die : Fin 2) (s : State),
    (converting s = true ∧ zenithRuns s = true) :=
  ⟨1, up, by decide +kernel⟩

theorem test_meets_convOvertemp : ∃ (die : Fin 2) (s : State),
    (converting s = true ∧ zenithRuns s = true) :=
  ⟨1, up, by decide +kernel⟩

theorem test_meets_convShutdown : ∃ (die : Fin 2) (s : State),
    (converting s = true) :=
  ⟨0, up, by decide +kernel⟩

theorem test_meets_powerReading : ∃ (mw : Nat) (s : State) (t : State) (u : Supply),
    (maintains s = true ∧ u = { s.sup with window := (mw :: s.sup.window).take 100, sinceLower := min 100 (s.sup.sinceLower + 1) }) ∧ (t = { s with sup := if u.unheard then u else if 1000 * s.dev.powerLimit < mw || u.thermal then lowerStep u else if roomToRaise u s.dev.powerLimit && u.sinceLower = 100 then raiseStep u else u }) :=
  ⟨5000000, fcUp, { fcUp with sup := { up.sup with window := [5000000], coreMv := 740, sinceLower := 0, unheard := true } }, { up.sup with window := [5000000] }, by decide +kernel⟩

theorem test_meets_sensorRead : ∃ (l : List SensorReading) (s : State) (t : State),
    (zenithRuns s = true) ∧ (t = [0, 1].foldl (fun s n => if l.any (fun r => r.sensor / 2 = 59 + n) then caseTemp n (caseReading s n) s else s) (l.foldl (fun s r => readSensor r s) s)) :=
  ⟨[{ sensor := 90, value := 1700, valid := true }], fcUp, readSensor { sensor := 90, value := 1700, valid := true } fcUp, by decide +kernel⟩

theorem test_meets_rotSelfTest : ∃ (s : State) (t : State),
    (booting s 2 = true) ∧ (t = noteTimeref { s with sup := { s.sup with strap := s.sup.strapPins, pairSel := s.sup.pairPin }, clk := { s.clk with ltc := 0, internal := false, degraded := false } }) :=
  ⟨bootAt 2, bootAt 2, by decide +kernel⟩

theorem test_meets_rotSelfTest_fails : ∃ (s : State) (t : State),
    (booting s 2 = true) ∧ (t = noteTimeref { s with sup := { s.sup with strap := s.sup.strapPins, pairSel := s.sup.pairPin }, clk := { s.clk with ltc := 0, internal := false, degraded := false } }) :=
  ⟨bootAt 2, bootAt 2, by decide +kernel⟩

theorem test_meets_rotSelfTest_later : ∃ (s : State),
    (s.dev.bootStep = 10 ∧ zenithRuns s = true) :=
  ⟨up, by decide +kernel⟩

theorem test_meets_bootRomLoad_none : ∃ (s : State) (t : State) (u : State) (v : State) (i : Fin 2),
    (booting s 4 = true ∧ s.sup.timeref = true) ∧ (t = countAttempt { s with sup := { s.sup with domains := s.sup.domains ||| 0x30000000#30 }, trust := { s.trust with actPending := false } }) ∧ (i = t.trust.preferred ∧ v = readSlot i t ∧ u = readSlot (1 - i) (slotRefused i v)) ∧ (slotOk v i = false ∧ slotOk u (1 - i) = false) :=
  ⟨bootAt 4, countAttempt { bootAt 4 with sup := { (bootAt 4).sup with domains := 0x30000001#30 } }, readSlot 1 (slotRefused 0 (readSlot 0 (countAttempt { bootAt 4 with sup := { (bootAt 4).sup with domains := 0x30000001#30 } }))), readSlot 0 (countAttempt { bootAt 4 with sup := { (bootAt 4).sup with domains := 0x30000001#30 } }), 0, by decide +kernel⟩

theorem test_meets_bootRomLoad : ∃ (s : State) (t : State) (u : State) (v : State) (i : Fin 2),
    (booting s 4 = true ∧ s.sup.timeref = true) ∧ (t = countAttempt { s with sup := { s.sup with domains := s.sup.domains ||| 0x30000000#30 }, trust := { s.trust with actPending := false } }) ∧ (i = t.trust.preferred ∧ v = readSlot i t ∧ u = readSlot (1 - i) (slotRefused i v)) :=
  ⟨bootAt 4, countAttempt { bootAt 4 with sup := { (bootAt 4).sup with domains := 0x30000001#30 } }, readSlot 1 (slotRefused 0 (readSlot 0 (countAttempt { bootAt 4 with sup := { (bootAt 4).sup with domains := 0x30000001#30 } }))), readSlot 0 (countAttempt { bootAt 4 with sup := { (bootAt 4).sup with domains := 0x30000001#30 } }), 0, by decide +kernel⟩

theorem test_meets_firstStageStart : ∃ (s : State) (t : State) (u : State),
    (booting s 5 = true) ∧ (t = { s with clk := { s.clk with beat := (s.clk.beat + 1) % 2 ^ 64, shadow := (s.clk.beat + 1) % 2 ^ 64, lastBeat := s.clk.ltc, beatRaised := false, armed := true }, fc := { s.fc with service := true }, dev := { s.dev with retired := s.trust.retired } }) ∧ (u = takeChar (if (configImage t).isNone then raise 0xB00 0 0x3 t else t)) :=
  ⟨bootAt 5, { bootAt 5 with clk := { beat := 1, shadow := 1, armed := true }, fc := { service := true } }, takeChar (raise 0xB00 0 0x3 { bootAt 5 with clk := { beat := 1, shadow := 1, armed := true }, fc := { service := true } }), by decide +kernel⟩

theorem test_meets_configImageApply : ∃ (mma : BitVec 64) (rod : BitVec 64) (s : State) (t : State),
    (booting s 6 = true) ∧ (t = applyImage s ∧ t.dev.retired = false) :=
  ⟨1#64, 2#64, bootAt 6, applyImage (bootAt 6), by decide +kernel⟩

theorem test_meets_configImageApply_retired : ∃ (mma : BitVec 64) (rod : BitVec 64) (s : State) (t : State),
    (booting s 6 = true ∧ t = applyImage s ∧ t.dev.retired = true) :=
  ⟨1#64, 2#64, { bootAt 6 with dev := { bootStep := 6, retired := true } }, applyImage { bootAt 6 with dev := { bootStep := 6, retired := true } }, by decide +kernel⟩

theorem test_meets_memoryTraining : ∃ (s : State),
    (booting s 7 = true ∧ s.sup.zlRefclk = true ∧ (s.deep.mounted = true ∨ s.sup.timeref = true)) :=
  ⟨bootAt 7, by decide +kernel⟩

theorem test_meets_memoryTraining_fails : ∃ (n : Fin 8) (s : State),
    (booting s 7 = true ∧ s.sup.zlRefclk = true) :=
  ⟨7, bootAt 7, by decide +kernel⟩

theorem test_meets_firmwareAreaPrepare : ∃ (s : State) (t : State) (u : State),
    (booting s 8 = true) ∧ (t = takeKept s ∧ u = { t with jr := { t.jr with flushing := if s.dev.kept then t.jr.flushing else t.dev.journalFlush, lastCopy := t.clk.ltc } }) :=
  ⟨bootAt 8, takeKept (bootAt 8), takeKept (bootAt 8), by decide +kernel⟩

theorem test_meets_readyHigh : ∃ (s : State) (t : State),
    (booting s 9 = true ∧ t = policyEffect s) :=
  ⟨bootAt 9, policyEffect (bootAt 9), by decide +kernel⟩

theorem test_meets_fwStage : ∃ (q : Fin 512) (seq : Nat) (s : State) (t : State) (c : Cmd) (b : Bytes),
    (hostRuns s q seq 0x800 false [(0, 17)] c) ∧ (c.p 4 4 ≤ 1048576 ∧ c.p 16 1 ≤ 1 ∧ s.trust.actPending = false ∧ c.p 0 4 ≤ s.trust.staged ∧ c.p 0 4 + c.p 4 4 ≤ 67108864) ∧ (s.sup.timeref = true ∧ b = hostRead s c.port (c.p 8 8) (c.p 4 4)) ∧ (t = writeRegion 0 (c.p 0 4 / 65536) ((c.p 0 4 % 65536 + b.length + 65535) / 65536) s) :=
  ⟨0, 1, { st 0x800 0 (natLe 17 (4 * 2 ^ 32 + 2 ^ 128)) with host := { up := 3#2, memA := memWrite [] 0 [1, 2, 3, 4] } }, writeRegion 0 0 1 { st 0x800 0 (natLe 17 (4 * 2 ^ 32 + 2 ^ 128)) with host := { up := 3#2, memA := memWrite [] 0 [1, 2, 3, 4] } }, cm 0x800 0 (natLe 17 (4 * 2 ^ 32 + 2 ^ 128)), [1, 2, 3, 4], by
  exact ⟨by decide +kernel, by decide +kernel, by decide +kernel, rfl⟩⟩

theorem test_meets_fwActivate : ∃ (q : Fin 512) (seq : Nat) (s : State) (t : State) (c : Cmd) (b : Bytes),
    (hostRuns s q seq 0x801 false [(0, 1)] c) ∧ (c.p 0 1 ≤ 1 ∧ s.trust.stagedLast = true ∧ s.sup.timeref = true ∧ b = stagedImage s) ∧ (t = activate b (decide (c.p 0 1 = 1)) s) :=
  ⟨0, 1, withCmd 0x801 0 [1] trustUp, activate [] true (withCmd 0x801 0 [1] trustUp), cm 0x801 0 [1], [], by decide +kernel⟩

theorem test_meets_attest : ∃ (q : Fin 512) (seq : Nat) (s : State) (t : State) (c : Cmd) (body : Bytes),
    (hostRuns s q seq 0x802 false [(0, 33), (40, 8), (48, 4)] c) ∧ (c.p 32 1 = 1 ∧ 2568 ≤ c.p 48 4 ∧ s.trust.tokens ≠ 0) ∧ (t = useToken s ∧ body = attestBody t (c.bytes 0 32) 1 s.trust.leaf) :=
  ⟨0, 1, withCmd 0x802 0 (natLe 52 (2 ^ 256 + 4096 * 2 ^ 320 + 2568 * 2 ^ 384)) trustUp, useToken (withCmd 0x802 0 (natLe 52 (2 ^ 256 + 4096 * 2 ^ 320 + 2568 * 2 ^ 384)) trustUp), cm 0x802 0 (natLe 52 (2 ^ 256 + 4096 * 2 ^ 320 + 2568 * 2 ^ 384)), attestBody (useToken trustUp) (List.replicate 32 0) 1 0, by decide +kernel⟩

theorem test_meets_attest_lms : ∃ (q : Fin 512) (seq : Nat) (s : State) (t : State) (c : Cmd) (body : Bytes),
    (hostRuns s q seq 0x802 false [(0, 33), (40, 8), (48, 4)] c) ∧ (c.p 32 1 = 2 ∧ 2568 ≤ c.p 48 4 ∧ s.trust.tokens ≠ 0 ∧ s.trust.leaf < 1048576) ∧ (t = useToken (useLeaf s) ∧ body = attestBody t (c.bytes 0 32) 2 s.trust.leaf) :=
  ⟨0, 1, withCmd 0x802 0 (natLe 52 (2 ^ 257 + 4096 * 2 ^ 320 + 2568 * 2 ^ 384)) trustUp, useToken (useLeaf (withCmd 0x802 0 (natLe 52 (2 ^ 257 + 4096 * 2 ^ 320 + 2568 * 2 ^ 384)) trustUp)), cm 0x802 0 (natLe 52 (2 ^ 257 + 4096 * 2 ^ 320 + 2568 * 2 ^ 384)), attestBody (useToken (useLeaf trustUp)) (List.replicate 32 0) 2 0, by decide +kernel⟩

theorem test_meets_attest_both : ∃ (q : Fin 512) (seq : Nat) (s : State) (t : State) (c : Cmd) (body : Bytes),
    (hostRuns s q seq 0x802 false [(0, 33), (40, 8), (48, 4)] c) ∧ (c.p 32 1 = 3 ∧ 2568 ≤ c.p 48 4 ∧ s.trust.tokens ≠ 0 ∧ s.trust.leaf < 1048576) ∧ (t = useToken (useLeaf s) ∧ body = attestBody t (c.bytes 0 32) 3 s.trust.leaf) :=
  ⟨0, 1, withCmd 0x802 0 (natLe 52 (3 * 2 ^ 256 + 4096 * 2 ^ 320 + 2568 * 2 ^ 384)) trustUp, useToken (useLeaf (withCmd 0x802 0 (natLe 52 (3 * 2 ^ 256 + 4096 * 2 ^ 320 + 2568 * 2 ^ 384)) trustUp)), cm 0x802 0 (natLe 52 (3 * 2 ^ 256 + 4096 * 2 ^ 320 + 2568 * 2 ^ 384)), attestBody (useToken (useLeaf trustUp)) (List.replicate 32 0) 3 0, by decide +kernel⟩

theorem test_meets_certRead : ∃ (q : Fin 512) (seq : Nat) (s : State) (c : Cmd) (b : Bytes),
    (hostRuns s q seq 0x803 false [(0, 1), (8, 8), (16, 4)] c) ∧ (c.p 0 1 ≤ 1 ∧ b = (mapGet [] s.trust.certs (c.p 0 1)).take (c.p 16 4)) :=
  ⟨0, 1, withCmd 0x803 0 (natLe 20 (4096 * 2 ^ 64 + 2 * 2 ^ 128)) trustUp, cm 0x803 0 (natLe 20 (4096 * 2 ^ 64 + 2 * 2 ^ 128)), [1, 2], by decide +kernel⟩

theorem test_meets_tokenRefill : ∃ (s : State),
    (zenithRuns s = true ∧ s.trust.lastRefill + 100000000 ≤ s.clk.ltc) :=
  ⟨{ fcUp with trust := { tokens := 7 } }, by decide +kernel⟩

theorem test_meets_doeDiscovery : ∃ (box : Fin 3) (i : Nat) (s : State),
    (box ≠ 2 ∧ boxReached s box = true ∧ boxBusy s box = false) :=
  ⟨1, 0, up, by decide +kernel⟩

theorem test_meets_getVersion : ∃ (box : Fin 3) (s : State),
    (boxReached s box = true ∧ boxBusy s box = false) :=
  ⟨2, up, by decide +kernel⟩

theorem test_meets_getCapabilities : ∃ (box : Fin 3) (s : State) (x : Spdm),
    (boxReached s box = true ∧ boxBusy s box = false ∧ x = mapGet {} s.side.spdm box ∧ x.version = true) :=
  ⟨2, spdmUp, { version := true, caps := true, algs := true }, by decide +kernel⟩

theorem test_meets_negotiateAlgorithms : ∃ (box : Fin 3) (s : State) (x : Spdm),
    (boxReached s box = true ∧ boxBusy s box = false ∧ x = mapGet {} s.side.spdm box ∧ x.caps = true) :=
  ⟨2, spdmUp, { version := true, caps := true, algs := true }, by decide +kernel⟩

theorem test_meets_getDigests : ∃ (box : Fin 3) (s : State) (x : Spdm),
    (boxReached s box = true ∧ boxBusy s box = false ∧ x = mapGet {} s.side.spdm box ∧ x.algs = true) :=
  ⟨2, spdmUp, { version := true, caps := true, algs := true }, by decide +kernel⟩

theorem test_meets_getDigests_early : ∃ (box : Fin 3) (s : State),
    (boxReached s box = true ∧ boxBusy s box = false ∧ (mapGet {} s.side.spdm box).algs = false) :=
  ⟨1, spdmUp, by decide +kernel⟩

theorem test_meets_getCertificate : ∃ (box : Fin 3) (off : Nat) (len : Nat) (s : State) (x : Spdm),
    (boxReached s box = true ∧ boxBusy s box = false ∧ x = mapGet {} s.side.spdm box ∧ x.algs = true) ∧ (off < (mapGet [] s.trust.certs 0).length) :=
  ⟨2, 2, 9, spdmUp, { version := true, caps := true, algs := true }, by decide +kernel⟩

theorem test_meets_challenge : ∃ (box : Fin 3) (nonce : Bytes) (s : State) (t : State) (x : Spdm),
    (boxReached s box = true ∧ boxBusy s box = false ∧ x = mapGet {} s.side.spdm box ∧ x.algs = true) ∧ (s.trust.tokens ≠ 0 ∧ s.trust.leaf < 1048576 ∧ t = useToken (useLeaf s)) :=
  ⟨2, [], spdmUp, useToken (useLeaf spdmUp), { version := true, caps := true, algs := true }, by decide +kernel⟩

theorem test_meets_getMeasurements : ∃ (box : Fin 3) (i : Nat) (nonce : Bytes) (s : State) (x : Spdm),
    (boxReached s box = true ∧ boxBusy s box = false ∧ x = mapGet {} s.side.spdm box ∧ x.algs = true) ∧ (1 ≤ i ∧ i ≤ 12) :=
  ⟨2, 12, [], spdmUp, { version := true, caps := true, algs := true }, by decide +kernel⟩

theorem test_meets_getMeasurements_signed : ∃ (box : Fin 3) (nonce : Bytes) (s : State) (t : State) (x : Spdm),
    (boxReached s box = true ∧ boxBusy s box = false ∧ x = mapGet {} s.side.spdm box ∧ x.algs = true) ∧ (s.trust.tokens ≠ 0 ∧ 1048576 ≤ s.trust.leaf ∧ t = useToken s) :=
  ⟨2, [], { spdmUp with trust := { trustUp.trust with leaf := 1048576 } }, useToken { spdmUp with trust := { trustUp.trust with leaf := 1048576 } }, { version := true, caps := true, algs := true }, by decide +kernel⟩

theorem test_meets_unsupportedRequest : ∃ (box : Fin 3) (code : Nat) (s : State),
    (boxReached s box = true ∧ boxBusy s box = false) :=
  ⟨2, 0x99, up, by decide +kernel⟩

theorem test_meets_busy : ∃ (box : Fin 3) (s : State),
    (boxReached s box = true ∧ boxBusy s box = true) :=
  ⟨2, stage14, by decide +kernel⟩

theorem test_meets_sbGetStatus : ∃ (s : State),
    (sideServed s = true) :=
  ⟨up, by decide +kernel⟩

theorem test_meets_sbFaultRead : ∃ (off : Nat) (s : State),
    (sideServed s = true) :=
  ⟨0, up, by decide +kernel⟩

theorem test_meets_resetChip : ∃ (s : State),
    (sideServed s = true ∧ s.sup.thermtripLow = false ∧ s.trust.testHold = false) :=
  ⟨up, by decide +kernel⟩

theorem test_meets_recoveryWrite : ∃ (off : Nat) (data : Bytes) (s : State),
    (sideServed s = true ∧ s.dev.stage = 0xE ∧ data.length ≤ 256 ∧ off + data.length ≤ 67108864) :=
  ⟨67108862, [1, 2], stage14, by decide +kernel⟩

theorem test_meets_recoveryCommit : ∃ (s : State) (t : State),
    (sideServed s = true ∧ s.dev.stage = 0xE ∧ s.sup.timeref = true ∧ t = writeSlot 0 (recoveryImage s) s) :=
  ⟨stage14, writeSlot 0 (recoveryImage stage14) stage14, by decide +kernel⟩

theorem test_meets_mctpControl : ∃ (r : Bytes) (s : State),
    (sideServed s = true ∧ s.dev.stage ≠ 0xE) :=
  ⟨[1], up, by decide +kernel⟩

theorem test_meets_pldmRequest : ∃ (n : Fin 128) (r : Bytes) (s : State),
    (sideServed s = true ∧ s.dev.stage ≠ 0xE) :=
  ⟨127, [], up, by decide +kernel⟩

theorem test_meets_pldmRequest_power : ∃ (r : Bytes) (s : State),
    (sideServed s = true ∧ s.dev.stage ≠ 0xE) :=
  ⟨[], up, by decide +kernel⟩

theorem test_meets_mctpControl_recovery : ∃ (r : Bytes) (s : State),
    (sideServed s = true ∧ s.dev.stage = 0xE) :=
  ⟨[1], stage14, by decide +kernel⟩

theorem test_meets_pldmRequest_recovery : ∃ (n : Option (Fin 128)) (r : Bytes) (s : State),
    (sideServed s = true ∧ s.dev.stage = 0xE) :=
  ⟨some 5, [1], stage14, by decide +kernel⟩

theorem test_meets_setdasa : ∃ (a : Nat) (d : Nat) (s : State),
    (sideServed s = true ∧ s.side.dynAddr = none ∧ d < 128) ∧ (a = 0x58 + 2 * (s.sup.strap.toNat % 4) + (if s.sup.pairSel then 1 else 0)) :=
  ⟨0x58, 9, up, by decide +kernel⟩

theorem test_meets_entdaa : ∃ (d : Nat) (s : State),
    (sideServed s = true ∧ s.side.dynAddr = none ∧ d < 128) :=
  ⟨127, up, by decide +kernel⟩

theorem test_meets_sbWriteRetry : ∃ (s : State) (n : Nat),
    (sideServed s = true ∧ s.side.dynAddr = none ∧ n = s.side.sent.length ∧ n ≠ 0) ∧ (s.side.retry.any (fun r => r.1 = n) = false) :=
  ⟨{ up with side := { sent := [0x80, 0x81], retry := some (1, 100) } }, 2, by decide +kernel⟩

theorem test_meets_sbWriteRetry_again : ∃ (s : State) (n : Nat) (k : Nat),
    (sideServed s = true ∧ s.side.dynAddr = none ∧ n = s.side.sent.length ∧ n ≠ 0) ∧ (s.side.retry = some (n, k) ∧ k < 100) :=
  ⟨{ up with side := { sent := [0x80], retry := some (1, 99) } }, 1, 99, by decide +kernel⟩

theorem test_meets_bypass : ∃ (s : State),
    (zenithRuns s = true) :=
  ⟨up, by decide +kernel⟩

theorem test_meets_samplePreload : ∃ (s : State),
    (zenithRuns s = true) :=
  ⟨up, by decide +kernel⟩

theorem test_meets_idcode : ∃ (s : State),
    (zenithRuns s = true) :=
  ⟨up, by decide +kernel⟩

theorem test_meets_extest : ∃ (s : State),
    (zenithRuns s = true ∧ s.dev.bootStep ≠ 2) :=
  ⟨up, by decide +kernel⟩

theorem test_meets_extest_early : ∃ (s : State),
    (zenithRuns s = true ∧ s.dev.bootStep = 2) :=
  ⟨bootAt 2, by decide +kernel⟩

theorem test_meets_clamp : ∃ (s : State),
    (zenithRuns s = true ∧ s.dev.bootStep ≠ 2) :=
  ⟨up, by decide +kernel⟩

theorem test_meets_highz : ∃ (s : State),
    (zenithRuns s = true ∧ s.dev.bootStep ≠ 2) :=
  ⟨up, by decide +kernel⟩

theorem test_meets_pairBind : ∃ (q : Fin 512) (seq : Nat) (s : State) (c : Cmd) (d : Nat),
    (hostRuns s q seq 0x900 false [(0, 1), (2, 2)] c) ∧ (c.p 0 1 = 0 ∧ d = c.p 2 2 ∧ s.dev.zlId ≠ none ∧ s.dev.zlId ≠ some d ∧ s.dev.journalFlush = false ∧ mirrorLeads s d = true) ∧ (s.jr.pair = .unbound ∨ (s.jr.pair = .lost ∧ s.jr.partner = d)) :=
  ⟨0, 1, withCmd 0x900 0 [0, 0, 9] (pairLed .unbound), cm 0x900 0 [0, 0, 9], 9, by decide +kernel⟩

theorem test_meets_pairBind_bound : ∃ (q : Fin 512) (seq : Nat) (s : State) (c : Cmd) (d : Nat),
    (hostRuns s q seq 0x900 false [(0, 1), (2, 2)] c) ∧ (c.p 0 1 = 0 ∧ d = c.p 2 2 ∧ s.dev.zlId ≠ none ∧ s.dev.zlId ≠ some d ∧ s.dev.journalFlush = false ∧ mirrorLeads s d = true) ∧ (s.jr.pair = .bound ∧ s.jr.partner = d) :=
  ⟨0, 1, pairLedCmd [0, 0, 9], cm 0x900 0 [0, 0, 9], 9, by decide +kernel⟩

theorem test_meets_pairUnbind : ∃ (q : Fin 512) (seq : Nat) (s : State) (c : Cmd),
    (hostRuns s q seq 0x900 false [(0, 1), (2, 2)] c) ∧ (c.p 0 1 = 1 ∧ (s.jr.pair = .bound ∨ (s.jr.pair = .lost ∧ partnerNear s = true)) ∧ c.p 2 2 = s.jr.partner) :=
  ⟨0, 1, pairLedCmd [1, 0, 9], cm 0x900 0 [1, 0, 9], by decide +kernel⟩

theorem test_meets_pairUnbind_lost : ∃ (q : Fin 512) (seq : Nat) (s : State) (c : Cmd),
    (hostRuns s q seq 0x900 false [(0, 1), (2, 2)] c) ∧ (c.p 0 1 = 1 ∧ s.jr.pair = .lost ∧ partnerNear s = false ∧ c.p 2 2 = s.jr.partner) :=
  ⟨0, 1, { st 0x900 0 [1, 0, 9] with jr := { ring := [cm 0x900 0 [1, 0, 9]], next := 2, pair := .lost, partner := 9, heldJournal := [[1]] } }, cm 0x900 0 [1, 0, 9], by decide +kernel⟩

theorem test_meets_pairBindTimeout : ∃ (q : Fin 512) (s : State) (c : Cmd) (t : Nat),
    (s.jr.bindCmd.bind (ringFind s) = some c ∧ c.queue = q.val ∧ s.jr.copySent = false ∧ s.jr.taking = false ∧ s.jr.taken = false) ∧ (zenithRuns s = true ∧ s.dev.safe = false ∧ c.waitFrom = some t ∧ t + 1000000000 ≤ s.clk.ltc) :=
  ⟨0, { pairUp linkUp3 with clk := { ltc := 1000000005 }, jr := { ring := [{ cm 0x900 0 [0, 0, 9] with started := true, waitFrom := some 5 }], next := 2, pair := .binding, partner := 9, bindCmd := some 1 } }, { cm 0x900 0 [0, 0, 9] with started := true, waitFrom := some 5 }, 5, by decide +kernel⟩

theorem test_meets_pairStatus : ∃ (q : Fin 512) (seq : Nat) (s : State) (c : Cmd),
    (hostRuns s q seq 0x901 false [] c) ∧ (s.jr.pair = .lost) :=
  ⟨0, 1, { st 0x901 0 [] with jr := { ring := [cm 0x901 0 []], next := 2, pair := .lost, partner := 9, unmirrored := 4, lastMirrored := 7 } }, cm 0x901 0 [], by decide +kernel⟩

theorem test_meets_pairStatus_bound : ∃ (q : Fin 512) (seq : Nat) (s : State) (c : Cmd),
    (hostRuns s q seq 0x901 false [] c) ∧ (s.jr.pair = .bound) :=
  ⟨0, 1, { st 0x901 0 [] with jr := { ring := [cm 0x901 0 []], next := 2, pair := .bound, partner := 9 } }, cm 0x901 0 [], by decide +kernel⟩

theorem test_meets_resumePoint : ∃ (q : Fin 512) (seq : Nat) (s : State) (c : Cmd),
    (hostRuns s q seq 0x902 false [(0, 2), (8, 8)] c) ∧ (c.p 0 2 < 512) :=
  ⟨0, 1, st 0x902 0 [0xFF, 1], cm 0x902 0 [0xFF, 1], by decide +kernel⟩

theorem test_meets_resumePoint_all : ∃ (q : Fin 512) (seq : Nat) (s : State) (c : Cmd),
    (hostRuns s q seq 0x902 false [(0, 2), (8, 8)] c) ∧ (c.p 0 2 = 0xFFFF) :=
  ⟨0, 1, st 0x902 0 [0xFF, 0xFF], cm 0x902 0 [0xFF, 0xFF], by decide +kernel⟩

theorem test_meets_journalMsg : ∃ (h : MsgHdr) (l : List Bytes) (s : State),
    (msgTurn s h 0) ∧ ((s.jr.pair = .bound ∨ s.jr.pair = .binding) ∧ h.src = s.jr.partner ∧ mirrorPort s h.port = true) ∧ (s.jr.taking = false) :=
  ⟨hd, [List.replicate 64 0], pairUp linkUp3, by decide +kernel⟩

theorem test_meets_journalMsg_taking : ∃ (h : MsgHdr) (l : List Bytes) (s : State),
    (msgTurn s h 0) ∧ ((s.jr.pair = .bound ∨ s.jr.pair = .binding) ∧ h.src = s.jr.partner ∧ mirrorPort s h.port = true) ∧ (s.jr.taking = true) :=
  ⟨hd, [List.replicate 64 0], { pairUp linkUp3 with jr := { pair := .binding, partner := 9, taking := true } }, by decide +kernel⟩

theorem test_meets_mirrorState : ∃ (h : MsgHdr) (r : Bytes) (s : State),
    (msgTurn s h 0) ∧ ((s.jr.pair = .bound ∨ s.jr.pair = .binding) ∧ h.src = s.jr.partner ∧ mirrorPort s h.port = true) :=
  ⟨hd, [1], pairUp linkUp3, by decide +kernel⟩

theorem test_meets_journalStripeTimeout : ∃ (s : State),
    (s.jr.stripe ≠ [] ∧ flashRuns s = true ∧ s.jr.stripeAt + 10000000 ≤ s.clk.ltc) :=
  ⟨{ jobUp {} with clk := { ltc := 10000000 }, jr := { stripe := [{ jidx := 1, applied := true }] } }, by decide +kernel⟩

theorem test_meets_controlStateRewrite : ∃ (s : State),
    (s.dev.journalFlush = true ∧ flashRuns s = true) :=
  ⟨{ jobUp {} with dev := { journalFlush := true }, clk := { ltc := 7 } }, by decide +kernel⟩

theorem test_idle_powered : up.pending = [] ∧ up.sup.domains.getLsbD 0 = true := by decide +kernel

theorem test_idle_off : State.reset.pending = [] ∧ State.reset.sup.domains.getLsbD 0 = false := by decide +kernel

theorem test_queue_next : ∃ t, exec (.zlRefclkLoss) { up with pending := [.timerefLoss] } = .next t := ⟨_, rfl⟩

theorem test_overvoltage_none : ∀ mv, Instr.timerefLoss = .vin52Rise mv → mv ≤ 62000 := fun _ h => nomatch h

theorem test_overvoltage : 62000 < 62001 := by decide

theorem test_inv_kept : Inv State.reset = true ∧ ∃ t, step State.reset = .next t := ⟨by decide +kernel, _, rfl⟩

theorem test_policy : ∃ t, step { State.reset with pending := [.timerefLoss] } = .next t := ⟨_, rfl⟩

theorem test_leaves : ∃ t, step { State.reset with pending := [.challenge 0 0 []] } = .next t := ⟨_, rfl⟩

theorem test_fault_message : 0xA80 < 4096 ∧ parityOk (faultMsg 0xA80 0x0E 5) = true := by decide +kernel

theorem test_bad_parity : zenithRuns fcUp = true ∧ parityOk (msgOf 0x300 ^^^ 1#67) = false ∧ sevOf fcUp 0x006 < 2 := by decide +kernel

theorem test_bad_parity_safe : zenithRuns { fcUp with fc := { sev := [(6, 3)] } } = true ∧ parityOk (msgOf 0x300 ^^^ 1#67) = false ∧ sevOf { fcUp with fc := { sev := [(6, 3)] } } 0x006 = 3 ∧ fcUp.dev.safe = false := by decide +kernel

theorem test_resume_one : hostRuns (st 0x902 0 [0xFF, 1]) 0 1 0x902 false [(0, 2), (8, 8)] (cm 0x902 0 [0xFF, 1]) = true ∧ (cm 0x902 0 [0xFF, 1]).p 0 2 < 512 := by decide +kernel

theorem test_resume_all : hostRuns (st 0x902 0 [0xFF, 0xFF]) 0 1 0x902 false [(0, 2), (8, 8)] (cm 0x902 0 [0xFF, 0xFF]) = true ∧ (cm 0x902 0 [0xFF, 0xFF]).p 0 2 = 0xFFFF ∧ linkUp (st 0x902 0 [0xFF, 0xFF]) (cm 0x902 0 [0xFF, 0xFF]).port = true := by decide +kernel

theorem test_resume_record : lastAccepted State.reset 511 < 2 ^ 64 ∧ lastApplied State.reset 511 < 2 ^ 64 := by decide +kernel

theorem test_resume_none : (qGet State.reset 0).e = 1 ∧ ∀ c ∈ State.reset.jr.ring, c.queue ≠ 0 := ⟨rfl, fun _ h => nomatch h⟩

theorem test_wvLog2_bad : paramRuns (st 0x102 0 (pset 0x41 7 17)) 0 1 0x41 (cm 0x102 0 (pset 0x41 7 17)) = true ∧ (8 ≤ (cm 0x102 0 (pset 0x41 7 17)).p 4 4 ∨ (cm 0x102 0 (pset 0x41 7 17)).p 8 8 < 4 ∨ 16 < (cm 0x102 0 (pset 0x41 7 17)).p 8 8) := by decide +kernel

theorem test_wvThresh_bad : paramRuns (st 0x102 0 (pset 0x42 7 0)) 0 1 0x42 (cm 0x102 0 (pset 0x42 7 0)) = true ∧ (8 ≤ (cm 0x102 0 (pset 0x42 7 0)).p 4 4 ∨ (cm 0x102 0 (pset 0x42 7 0)).p 8 8 < 1 ∨ 24 < (cm 0x102 0 (pset 0x42 7 0)).p 8 8) := by decide +kernel

theorem test_wvLog2_good : paramRuns (st 0x102 0 (pset 0x41 7 16)) 0 1 0x41 (cm 0x102 0 (pset 0x41 7 16)) = true ∧ mapWf 8 (st 0x102 0 (pset 0x41 7 16)).dev.wvLog2 = true ∧ (cm 0x102 0 (pset 0x41 7 16)).p 4 4 < 8 ∧ 4 ≤ (cm 0x102 0 (pset 0x41 7 16)).p 8 8 ∧ (cm 0x102 0 (pset 0x41 7 16)).p 8 8 ≤ 16 := by decide +kernel

theorem test_wvThresh_good : paramRuns (st 0x102 0 (pset 0x42 7 1)) 0 1 0x42 (cm 0x102 0 (pset 0x42 7 1)) = true ∧ mapWf 6 (st 0x102 0 (pset 0x42 7 1)).dev.wvThresh = true ∧ (cm 0x102 0 (pset 0x42 7 1)).p 4 4 < 8 ∧ 1 ≤ (cm 0x102 0 (pset 0x42 7 1)).p 8 8 ∧ (cm 0x102 0 (pset 0x42 7 1)).p 8 8 ≤ 24 := by decide +kernel

theorem test_severity_reserved : paramRuns (st 0x102 0 (pset 0x10 0x248 1)) 0 1 0x10 (cm 0x102 0 (pset 0x10 0x248 1)) = true ∧ sourceKnown ((cm 0x102 0 (pset 0x10 0x248 1)).p 4 4) = false := by decide +kernel

theorem test_severity_fixed : paramRuns (st 0x102 0 (pset 0x10 5 0)) 0 1 0x10 (cm 0x102 0 (pset 0x10 5 0)) = true ∧ (cm 0x102 0 (pset 0x10 5 0)).p 4 4 = 0x005 ∧ (cm 0x102 0 (pset 0x10 5 0)).p 8 8 ≠ 3 := by decide +kernel

theorem test_severity_contain : paramRuns (st 0x102 0 (pset 0x10 6 2)) 0 1 0x10 (cm 0x102 0 (pset 0x10 6 2)) = true ∧ (cm 0x102 0 (pset 0x10 6 2)).p 4 4 = 0x006 ∧ (cm 0x102 0 (pset 0x10 6 2)).p 8 8 = 2 := by decide +kernel

theorem test_page5 : infoPage up 5 = some (List.replicate 256 0) ∧ 127 < 128 := by decide +kernel

theorem test_page_none : hostRuns (st 0x101 0 [7, 0]) 0 1 0x101 false [(0, 2), (8, 8)] (cm 0x101 0 [7, 0]) = true ∧ ((cm 0x101 0 [7, 0]).p 0 2 = 0 ∨ 6 < (cm 0x101 0 [7, 0]).p 0 2) := by decide +kernel

theorem test_update_infinite : hostRuns (withCmd 0x602 1 (natLe 25 0xFF800000) (jobUp openTrain)) 0 1 0x602 true [(0, 25)] (cm 0x602 1 (natLe 25 0xFF800000)) = true ∧ (ctxGet (withCmd 0x602 1 (natLe 25 0xFF800000) (jobUp openTrain)) 1).train.st = .opened ∧ bitsOf ((cm 0x602 1 (natLe 25 0xFF800000)).p 0 4) 30 23 = 255 := by decide +kernel

theorem test_update_negative : hostRuns (withCmd 0x602 1 (natLe 25 0x80800000) (jobUp openTrain)) 0 1 0x602 true [(0, 25)] (cm 0x602 1 (natLe 25 0x80800000)) = true ∧ bitOf ((cm 0x602 1 (natLe 25 0x80800000)).p 0 4) 31 = true ∧ 0x00800000 ≤ bitsOf ((cm 0x602 1 (natLe 25 0x80800000)).p 0 4) 30 0 := by decide +kernel

theorem test_update_beta : hostRuns (withCmd 0x602 1 (natLe 25 (0x3F800000 * 2 ^ 32)) (jobUp openTrain)) 0 1 0x602 true [(0, 25)] (cm 0x602 1 (natLe 25 (0x3F800000 * 2 ^ 32))) = true ∧ 0x3F800000 ≤ bitsOf ((cm 0x602 1 (natLe 25 (0x3F800000 * 2 ^ 32))).p 4 4) 30 0 := by decide +kernel

theorem test_update_eps : hostRuns (withCmd 0x602 1 (natLe 25 (0x80000000 * 2 ^ 96)) (jobUp openTrain)) 0 1 0x602 true [(0, 25)] (cm 0x602 1 (natLe 25 (0x80000000 * 2 ^ 96))) = true ∧ bitsOf ((cm 0x602 1 (natLe 25 (0x80000000 * 2 ^ 96))).p 12 4) 30 0 < 0x00800000 := by decide +kernel

theorem test_partConfig_reset : ∀ op ∈ [0, 1, 2], hostRuns { st 0x203 0 [op, 1] with fc := { rstParts := [3] } } 0 1 0x203 false [(0, 3), (8, 84)] (cm 0x203 0 [op, 1]) = true := by decide +kernel

theorem test_reserved_identify : startable (st 0x100 0 (List.replicate 63 0 ++ [1])) 0 1 0x100 = some (cm 0x100 0 (List.replicate 63 0 ++ [1])) ∧ (cm 0x100 0 (List.replicate 63 0 ++ [1])).rest0 [] = false := by decide +kernel

theorem test_reserved_getInfo : startable (st 0x101 0 (List.replicate 63 0 ++ [1])) 0 1 0x101 = some (cm 0x101 0 (List.replicate 63 0 ++ [1])) ∧ (cm 0x101 0 (List.replicate 63 0 ++ [1])).rest0 [(0, 2), (8, 8)] = false := by decide +kernel

theorem test_reserved_getParam : startable (st 0x103 0 (List.replicate 63 0 ++ [1])) 0 1 0x103 = some (cm 0x103 0 (List.replicate 63 0 ++ [1])) ∧ (cm 0x103 0 (List.replicate 63 0 ++ [1])).rest0 [(0, 16)] = false := by decide +kernel

theorem test_reserved_ctxReset : startable (st 0x202 1 (List.replicate 63 0 ++ [1])) 0 1 0x202 = some (cm 0x202 1 (List.replicate 63 0 ++ [1])) ∧ (cm 0x202 1 (List.replicate 63 0 ++ [1])).rest0 [] = false := by decide +kernel

theorem test_reserved_objRelease : startable (st 0x301 1 (List.replicate 63 0 ++ [1])) 0 1 0x301 = some (cm 0x301 1 (List.replicate 63 0 ++ [1])) ∧ (cm 0x301 1 (List.replicate 63 0 ++ [1])).rest0 [(0, 4)] = false := by decide +kernel

theorem test_reserved_objPlace : startable (st 0x302 1 (List.replicate 63 0 ++ [1])) 0 1 0x302 = some (cm 0x302 1 (List.replicate 63 0 ++ [1])) ∧ (cm 0x302 1 (List.replicate 63 0 ++ [1])).rest0 [(0, 4), (4, 1), (5, 1), (6, 1), (8, 4), (12, 4)] = false := by decide +kernel

theorem test_reserved_quotaSet : startable (st 0x305 1 (List.replicate 63 0 ++ [1])) 0 1 0x305 = some (cm 0x305 1 (List.replicate 63 0 ++ [1])) ∧ (cm 0x305 1 (List.replicate 63 0 ++ [1])).rest0 [(0, 1), (4, 4)] = false := by decide +kernel

theorem test_reserved_launch : startable (st 0x400 1 (List.replicate 63 0 ++ [1])) 0 1 0x400 = some (cm 0x400 1 (List.replicate 63 0 ++ [1])) ∧ (cm 0x400 1 (List.replicate 63 0 ++ [1])).rest0 [(0, 24), (24, 1)] = false := by decide +kernel

theorem test_reserved_baseSet : startable (st 0x505 1 (List.replicate 63 0 ++ [1])) 0 1 0x505 = some (cm 0x505 1 (List.replicate 63 0 ++ [1])) ∧ (cm 0x505 1 (List.replicate 63 0 ++ [1])).rest0 [(0, 12)] = false := by decide +kernel

theorem test_reserved_stepCommit : startable (st 0x601 1 (List.replicate 63 0 ++ [1])) 0 1 0x601 = some (cm 0x601 1 (List.replicate 63 0 ++ [1])) ∧ (cm 0x601 1 (List.replicate 63 0 ++ [1])).rest0 [(4, 4)] = false := by decide +kernel

theorem test_reserved_faultRead : startable (st 0x703 0 (List.replicate 63 0 ++ [1])) 0 1 0x703 = some (cm 0x703 0 (List.replicate 63 0 ++ [1])) ∧ (cm 0x703 0 (List.replicate 63 0 ++ [1])).rest0 [(8, 8), (16, 4)] = false := by decide +kernel

theorem test_reserved_faultClear : startable (st 0x704 0 (List.replicate 63 0 ++ [1])) 0 1 0x704 = some (cm 0x704 0 (List.replicate 63 0 ++ [1])) ∧ (cm 0x704 0 (List.replicate 63 0 ++ [1])).rest0 [(0, 2)] = false := by decide +kernel

theorem test_reserved_fwActivate : startable (st 0x801 0 (List.replicate 63 0 ++ [1])) 0 1 0x801 = some (cm 0x801 0 (List.replicate 63 0 ++ [1])) ∧ (cm 0x801 0 (List.replicate 63 0 ++ [1])).rest0 [(0, 1)] = false := by decide +kernel

theorem test_reserved_attest : startable (st 0x802 0 (List.replicate 63 0 ++ [1])) 0 1 0x802 = some (cm 0x802 0 (List.replicate 63 0 ++ [1])) ∧ (cm 0x802 0 (List.replicate 63 0 ++ [1])).rest0 [(0, 33), (40, 8), (48, 4)] = false := by decide +kernel

theorem test_reserved_pairStatus : startable (st 0x901 0 (List.replicate 63 0 ++ [1])) 0 1 0x901 = some (cm 0x901 0 (List.replicate 63 0 ++ [1])) ∧ (cm 0x901 0 (List.replicate 63 0 ++ [1])).rest0 [] = false := by decide +kernel

theorem test_reserved_resumePoint : startable (st 0x902 0 (List.replicate 63 0 ++ [1])) 0 1 0x902 = some (cm 0x902 0 (List.replicate 63 0 ++ [1])) ∧ (cm 0x902 0 (List.replicate 63 0 ++ [1])).rest0 [(0, 2), (8, 8)] = false := by decide +kernel

theorem test_m8 : bitsOf (0xFF#8).toNat 6 3 ≠ 0 := by decide

theorem test_u8 : bitsOf (0x08#8).toNat 7 3 ≠ 0 := by decide

theorem test_fp16 : bitsOf (0xFBFF#16).toNat 14 10 ≠ 31 ∧ isSub 5 10 (0xFBFF#16).toNat = false := by decide

end Sys2Proof.Tests
end

section
/-!
Reads of BAR0 and of the configuration space, and a base of an admin ring read after it was written
(spec/12_host_command_interface.md R332 to R336, R361, R401, T12.1, T12.2). `RegisterReadsAnswer` is refuted: its states hold any
list of bases, and a base reads back as written only where the list is in canonical form (`mapWf`). With that premise, its three
clauses are `registerReads_current`, `adminBases_read_back` and `configRead_identity`.
-/

namespace Sys2Proof.Machine

/-! ### The readable registers (R334, R361, R401) -/

theorem bitOf_toNat {w : Nat} (b : BitVec w) (i : Nat) : bitOf b.toNat i = b.getLsbD i := by
  simp [bitOf, BitVec.getLsbD, Nat.testBit_eq_decide_div_mod_eq]

/-- The two words of a register make up its value. -/
theorem wordOf_append (v : Nat) : wordOf v true ++ wordOf v false = BitVec.ofNat 64 v := by
  apply BitVec.eq_of_toNat_eq
  simp only [wordOf, if_true, Bool.false_eq_true, if_false, BitVec.toNat_append, BitVec.toNat_ofNat]
  rw [← Nat.shiftLeft_add_eq_or_of_lt (Nat.mod_lt _ (by decide)), Nat.shiftLeft_eq]
  omega

/-- Port `p` answers reads of BAR0: its link is up and has trained once (R333). -/
def readable (s : State) (p : Nat) : Bool := s.host.trained.getLsbD p && linkUp s p

/-- In service: not in safe state, and start-up has not ended in stage 0xE or 0xF (R361, R431). -/
def inService (s : State) : Bool := !s.dev.safe && decide (s.dev.stage < 0xE)

/-- A register that answers, read at its width. -/
theorem registerRead_of_answers {s : State} {p off : Nat} {wide : Bool} (hp : readable s p = true)
    (ha : off % (if wide then 8 else 4) = 0) (hb : off < 65536) (hs : safeReadable off = true ∨ inService s = true) :
    registerRead s p off wide = some ((if wide then readWord s p (off + 4) else 0#32) ++ readWord s p off) := by
  simp only [readable, inService, Bool.and_eq_true, Bool.not_eq_true', decide_eq_true_eq] at hp hs
  obtain ⟨ht, hl⟩ := hp
  have hx : ((s.dev.safe || decide (0xE ≤ s.dev.stage)) && !safeReadable off) = false := by
    rcases hs with h | ⟨h, h'⟩
    · simp [h]
    · simp [h, h']
  simp [registerRead, bitOf_toNat, ht, hl, ha, hb, hx]

/-- A register of 64 bits whose words are those of `v` reads as `v`. -/
theorem registerRead_wide {s : State} {p off v : Nat} (hp : readable s p = true) (ha : off % 8 = 0) (hb : off < 65536)
    (hs : safeReadable off = true ∨ inService s = true) (hi : readWord s p (off + 4) = wordOf v true)
    (lo : readWord s p off = wordOf v false) : registerRead s p off true = some (BitVec.ofNat 64 v) := by
  simp [registerRead_of_answers (wide := true) hp ha hb hs, hi, lo, wordOf_append]

/-- A word of BAR0. -/
theorem registerRead_word {s : State} {p off : Nat} {w : BitVec 32} (hp : readable s p = true) (ha : off % 4 = 0) (hb : off < 65536)
    (hs : safeReadable off = true ∨ inService s = true) (h : readWord s p off = w) :
    registerRead s p off false = some (0#32 ++ w) := by
  simp [registerRead_of_answers (wide := false) hp ha hb hs, h]

theorem registerRead_devStatus {s : State} {p : Nat} (hp : readable s p = true) :
    registerRead s p 0x00 true = some (BitVec.ofNat 64
      (if zenithRuns s then devStatus s p else if p = 0 then s.host.shadow.1 else s.host.shadow.2.1)) :=
  registerRead_wide hp rfl (by decide) (.inl rfl) rfl rfl

theorem registerRead_heartbeat {s : State} {p : Nat} (hp : readable s p = true) :
    registerRead s p 0x08 true = some (BitVec.ofNat 64 s.clk.shadow) :=
  registerRead_wide hp rfl (by decide) (.inl rfl) rfl rfl

theorem registerRead_faultSummary {s : State} {p : Nat} (hp : readable s p = true) :
    registerRead s p 0x10 true = some (BitVec.ofNat 64 (if zenithRuns s then faultSummary s else s.host.shadow.2.2)) :=
  registerRead_wide hp rfl (by decide) (.inl rfl) rfl rfl

theorem registerRead_adminSqBase {s : State} {p : Nat} (hp : readable s p = true) (hs : inService s = true) :
    registerRead s p 0x20 true = some (BitVec.ofNat 64 (mapGet 0 s.host.asq p)) :=
  registerRead_wide hp rfl (by decide) (.inr hs) rfl rfl

theorem registerRead_adminCqBase {s : State} {p : Nat} (hp : readable s p = true) (hs : inService s = true) :
    registerRead s p 0x28 true = some (BitVec.ofNat 64 (mapGet 0 s.host.acq p)) :=
  registerRead_wide hp rfl (by decide) (.inr hs) rfl rfl

theorem registerRead_adminCfg {s : State} {p : Nat} (hp : readable s p = true) (hs : inService s = true) :
    registerRead s p 0x30 false = some (0#32 ++ adminCfg s p) :=
  registerRead_word hp rfl (by decide) (.inr hs) rfl

theorem registerRead_stickyWindow {s : State} {p w : Nat} (hp : readable s p = true) (hw : w < 128) :
    registerRead s p (0x4000 + 4 * w) false = some (0#32 ++ s.fc.sticky.extractLsb' (32 * w) 32) := by
  have hs : safeReadable (0x4000 + 4 * w) = true := by
    simp only [safeReadable, Bool.or_eq_true, Bool.and_eq_true, decide_eq_true_eq]
    omega
  refine registerRead_word hp (by omega) (by omega) (.inl hs) ?_
  have hr : readWord s p (0x4000 + 4 * w) = stickyWord s ((0x4000 + 4 * w - 0x4000) / 4) := by
    simp (disch := omega) only [readWord, Bool.and_eq_true, decide_eq_true_eq, if_neg, if_pos]
  rw [hr, stickyWord]
  congr 2
  omega

/-- The offsets that T12.2 gives no register and those of the doorbells, which are write-only. -/
def readsZero (off : Nat) : Prop :=
  0x18 ≤ off ∧ off < 0x20 ∨ 0x34 ≤ off ∧ off < 0x2000 ∨ 0x3008 ≤ off ∧ off < 0x4000 ∨ 0x4600 ≤ off ∧ off < 65536

theorem registerRead_readsZero {s : State} {p off : Nat} (hp : readable s p = true) (hs : inService s = true)
    (ha : off % 4 = 0) (ho : readsZero off) : registerRead s p off false = some 0#64 := by
  unfold readsZero at ho
  refine registerRead_word hp ha (by omega) (.inr hs) (w := 0#32) ?_
  simp (disch := omega) only [readWord, Bool.and_eq_true, decide_eq_true_eq, if_neg]

theorem registerRead_safe {s : State} {off : Nat} (p : Nat) (wide : Bool) (h : s.dev.safe = true) (ho : 0x4600 ≤ off) :
    registerRead s p off wide = none := by
  have hn : safeReadable off = false := by
    simp only [safeReadable, Bool.or_eq_false_iff, Bool.and_eq_false_iff, decide_eq_false_iff_not]
    omega
  simp [registerRead, h, hn]

theorem registerRead_unaligned (s : State) (p : Nat) {off : Nat} {wide : Bool} (h : off % (if wide then 8 else 4) ≠ 0) :
    registerRead s p off wide = none := by
  simp [registerRead, h]

/-! ### A base of an admin ring written and read (R336) -/

/-- A base of port `p` with one of its two words written: `hi` is the upper one. -/
def setHalf (p : Nat) (hi : Bool) (w : BitVec 32) (m : FMap Nat) : FMap Nat :=
  mapSet 0 m p (if hi then mapGet 0 m p % 2 ^ 32 + w.toNat * 2 ^ 32 else mapGet 0 m p / 2 ^ 32 * 2 ^ 32 + w.toNat)

/-- A base of port `p` with both words written, the lower one first (R334). -/
def setBase (p : Nat) (v : BitVec 64) (m : FMap Nat) : FMap Nat :=
  setHalf p true (v.extractLsb' 32 32) (setHalf p false (v.extractLsb' 0 32) m)

/-- A map in canonical form holds the base that was written. -/
theorem mapGet_setBase {m : FMap Nat} (p : Nat) (v : BitVec 64) (h : mapWf 0 m = true) : mapGet 0 (setBase p v m) p = v.toNat := by
  have hlow : mapGet 0 (setHalf p false (v.extractLsb' 0 32) m) p = mapGet 0 m p / 2 ^ 32 * 2 ^ 32 + v.toNat % 2 ^ 32 := by
    rw [setHalf, mapGet_set_self p _ h, if_neg (by decide), BitVec.extractLsb'_toNat, Nat.shiftRight_zero]
  have hhigh : mapGet 0 (setBase p v m) p =
      mapGet 0 (setHalf p false (v.extractLsb' 0 32) m) p % 2 ^ 32 + v.toNat / 2 ^ 32 % 2 ^ 32 * 2 ^ 32 := by
    have hm : mapWf 0 (setHalf p false (v.extractLsb' 0 32) m) = true := mapWf_set p _ h
    rw [setBase, setHalf, mapGet_set_self p _ hm, if_pos rfl, BitVec.extractLsb'_toNat, Nat.shiftRight_eq_div_pow]
  have hv := v.isLt
  omega

/-- The bases of the admin submission rings replaced. -/
def withSqBases (m : FMap Nat) (s : State) : State := { s with host := { s.host with asq := m } }

/-- The bases of the admin completion rings replaced. -/
def withCqBases (m : FMap Nat) (s : State) : State := { s with host := { s.host with acq := m } }

theorem withSqBases_asq (m : FMap Nat) (s : State) : (withSqBases m s).host.asq = m := rfl
theorem withSqBases_twice (m n : FMap Nat) (s : State) : withSqBases n (withSqBases m s) = withSqBases n s := rfl
theorem adminCfg_withSqBases (m : FMap Nat) (s : State) (p : Nat) : adminCfg (withSqBases m s) p = adminCfg s p := rfl
theorem readable_withSqBases (m : FMap Nat) (s : State) (p : Nat) : readable (withSqBases m s) p = readable s p := rfl
theorem inService_withSqBases (m : FMap Nat) (s : State) : inService (withSqBases m s) = inService s := rfl

theorem withCqBases_acq (m : FMap Nat) (s : State) : (withCqBases m s).host.acq = m := rfl
theorem withCqBases_twice (m n : FMap Nat) (s : State) : withCqBases n (withCqBases m s) = withCqBases n s := rfl
theorem adminCfg_withCqBases (m : FMap Nat) (s : State) (p : Nat) : adminCfg (withCqBases m s) p = adminCfg s p := rfl
theorem readable_withCqBases (m : FMap Nat) (s : State) (p : Nat) : readable (withCqBases m s) p = readable s p := rfl
theorem inService_withCqBases (m : FMap Nat) (s : State) : inService (withCqBases m s) = inService s := rfl

/-- While ENABLE is 0, a write to either word of ADMIN_SQ_BASE sets that word. -/
theorem writeWord_adminSqBase {s : State} {p off : Nat} {hi : Bool} (w : BitVec 32) (ho : off = if hi then 0x24 else 0x20)
    (hd : (adminCfg s p).getLsbD 31 = false) : writeWord p off w s = withSqBases (setHalf p hi w s.host.asq) s := by
  rw [← bitOf_toNat] at hd
  subst ho
  cases hi <;> simp [writeWord, hd, withSqBases, setHalf]

/-- While ENABLE is 0, a write to either word of ADMIN_CQ_BASE sets that word. -/
theorem writeWord_adminCqBase {s : State} {p off : Nat} {hi : Bool} (w : BitVec 32) (ho : off = if hi then 0x2C else 0x28)
    (hd : (adminCfg s p).getLsbD 31 = false) : writeWord p off w s = withCqBases (setHalf p hi w s.host.acq) s := by
  rw [← bitOf_toNat] at hd
  subst ho
  cases hi <;> simp [writeWord, hd, withCqBases, setHalf]

/-- A write of 64 bits writes the lower word and then the upper one (R334). -/
theorem exec_registerWrite_wide {s : State} {p : Fin 2} {off : Nat} (v : BitVec 64) (hl : linkUp s p = true) (hz : zenithRuns s = true)
    (ha : off % 8 = 0) (hb : off < 65536) :
    exec (.registerWrite p off true v) s = .next (writeWord p (off + 4) (v.extractLsb' 32 32) (writeWord p off (v.extractLsb' 0 32) s)) := by
  have he : exec (.registerWrite p off true v) s = execRegisterWrite p off true v s := rfl
  simp [he, execRegisterWrite, across, writeRegister, hl, hz, ha, hb]

theorem exec_write_adminSqBase {s : State} {p : Fin 2} (v : BitVec 64) (hl : linkUp s p = true) (hz : zenithRuns s = true)
    (hd : (adminCfg s p).getLsbD 31 = false) :
    exec (.registerWrite p 0x20 true v) s = .next (withSqBases (setBase p v s.host.asq) s) := by
  rw [exec_registerWrite_wide v hl hz rfl (by decide), writeWord_adminSqBase (off := 0x20) (hi := false) _ rfl hd,
    writeWord_adminSqBase (off := 0x20 + 4) (hi := true) _ rfl (by rwa [adminCfg_withSqBases]), withSqBases_asq, withSqBases_twice, setBase]

theorem exec_write_adminCqBase {s : State} {p : Fin 2} (v : BitVec 64) (hl : linkUp s p = true) (hz : zenithRuns s = true)
    (hd : (adminCfg s p).getLsbD 31 = false) :
    exec (.registerWrite p 0x28 true v) s = .next (withCqBases (setBase p v s.host.acq) s) := by
  rw [exec_registerWrite_wide v hl hz rfl (by decide), writeWord_adminCqBase (off := 0x28) (hi := false) _ rfl hd,
    writeWord_adminCqBase (off := 0x28 + 4) (hi := true) _ rfl (by rwa [adminCfg_withCqBases]), withCqBases_acq, withCqBases_twice, setBase]

theorem linkUp_of_readable {s : State} {p : Nat} (hp : readable s p = true) : linkUp s p = true := by
  rw [readable, Bool.and_eq_true] at hp
  exact hp.2

/-- What ADMIN_SQ_BASE reads as after a write. -/
theorem read_write_adminSqBase {s : State} {p : Fin 2} (v : BitVec 64) (hp : readable s p = true) (hz : zenithRuns s = true)
    (hs : inService s = true) (hd : (adminCfg s p).getLsbD 31 = false) :
    ∃ t, exec (.registerWrite p 0x20 true v) s = .next t ∧
      registerRead t p 0x20 true = some (BitVec.ofNat 64 (mapGet 0 (setBase p v s.host.asq) p)) :=
  ⟨_, exec_write_adminSqBase v (linkUp_of_readable hp) hz hd, by
    rw [registerRead_adminSqBase (by rwa [readable_withSqBases]) (by rwa [inService_withSqBases]), withSqBases_asq]⟩

/-- What ADMIN_CQ_BASE reads as after a write. -/
theorem read_write_adminCqBase {s : State} {p : Fin 2} (v : BitVec 64) (hp : readable s p = true) (hz : zenithRuns s = true)
    (hs : inService s = true) (hd : (adminCfg s p).getLsbD 31 = false) :
    ∃ t, exec (.registerWrite p 0x28 true v) s = .next t ∧
      registerRead t p 0x28 true = some (BitVec.ofNat 64 (mapGet 0 (setBase p v s.host.acq) p)) :=
  ⟨_, exec_write_adminCqBase v (linkUp_of_readable hp) hz hd, by
    rw [registerRead_adminCqBase (by rwa [readable_withCqBases]) (by rwa [inService_withCqBases]), withCqBases_acq]⟩

/-! ### The configuration space (R332, T12.1) -/

/-- Port `p` answers configuration reads: PD_HP is powered, PERST_N is high and the link is up. -/
def configReadable (s : State) (p : Nat) : Bool := s.sup.domains.getLsbD 29 && bitOf s.sup.perst.toNat p && linkUp s p

/-- The identity of T12.1 and the port's BAR0, whatever the state of the device. -/
theorem configRead_identity {s : State} {p : Nat} (h : configReadable s p = true) :
    configRead s p 0x00 = some (0x9600#16 ++ Config.vendorId) ∧ configRead s p 0x08 = some 0x120000B0#32 ∧
      configRead s p 0x10 = some ((mapGet {} s.host.cfg p).bar0.extractLsb' 0 32 &&& 0xFFFF0000#32 ||| 4#32) ∧
      configRead s p 0x14 = some ((mapGet {} s.host.cfg p).bar0.extractLsb' 32 32) := by
  simp only [configReadable, Bool.and_eq_true] at h
  obtain ⟨⟨hd, hr⟩, hl⟩ := h
  refine ⟨?_, ?_, ?_, ?_⟩ <;> simp [configRead, hd, hr, hl]

/-! ### The statement -/

/-- The reads of BAR0 on a port that answers (the first clause of `RegisterReadsAnswer`). -/
theorem registerReads_current (s : State) (p : Fin 2) (ht : s.host.trained.getLsbD p = true) (hl : linkUp s p = true) :
    registerRead s p 0x00 true = some (BitVec.ofNat 64
      (if zenithRuns s then devStatus s p else if p = 0 then s.host.shadow.1 else s.host.shadow.2.1)) ∧
    registerRead s p 0x08 true = some (BitVec.ofNat 64 s.clk.shadow) ∧
    registerRead s p 0x10 true = some (BitVec.ofNat 64 (if zenithRuns s then faultSummary s else s.host.shadow.2.2)) ∧
    (s.dev.safe = false → s.dev.stage < 0xE →
      registerRead s p 0x20 true = some (BitVec.ofNat 64 (mapGet 0 s.host.asq p)) ∧
      registerRead s p 0x28 true = some (BitVec.ofNat 64 (mapGet 0 s.host.acq p)) ∧
      registerRead s p 0x30 false = some (0#32 ++ adminCfg s p)) ∧
    (∀ w < 128, registerRead s p (0x4000 + 4 * w) false = some (0#32 ++ s.fc.sticky.extractLsb' (32 * w) 32)) ∧
    (s.dev.safe = false → s.dev.stage < 0xE → ∀ off, off % 4 = 0 → readsZero off → registerRead s p off false = some 0#64) ∧
    (s.dev.safe = true → ∀ off wide, 0x4600 ≤ off → registerRead s p off wide = none) ∧
    (∀ off, off % 4 ≠ 0 → registerRead s p off false = none) ∧ (∀ off, off % 8 ≠ 0 → registerRead s p off true = none) := by
  have hp : readable s p = true := by simp only [readable, ht, hl, Bool.and_self]
  have hs (h : s.dev.safe = false) (h' : s.dev.stage < 0xE) : inService s = true := by simp [inService, h, h']
  refine ⟨?_, registerRead_heartbeat hp, registerRead_faultSummary hp, fun h h' => ?_, fun w hw => registerRead_stickyWindow hp hw,
    fun h h' off ha ho => registerRead_readsZero hp (hs h h') ha ho, fun h off wide ho => registerRead_safe p wide h ho,
    fun off ho => registerRead_unaligned s p ho, fun off ho => registerRead_unaligned s p ho⟩
  · simpa only [Fin.ext_iff, Fin.val_zero] using registerRead_devStatus hp
  · exact ⟨registerRead_adminSqBase hp (hs h h'), registerRead_adminCqBase hp (hs h h'), registerRead_adminCfg hp (hs h h')⟩

/-- A base written while ENABLE is 0 reads back as written where the bases are in canonical form (the second clause of
`RegisterReadsAnswer`, with the premise that it lacks). -/
theorem adminBases_read_back (s : State) (p : Fin 2) (v : BitVec 64) (hp : readable s p = true) (hz : zenithRuns s = true)
    (hs : inService s = true) (hd : (adminCfg s p).getLsbD 31 = false) (hsq : mapWf 0 s.host.asq = true) (hcq : mapWf 0 s.host.acq = true) :
    (∃ t, exec (.registerWrite p 0x20 true v) s = .next t ∧ registerRead t p 0x20 true = some v) ∧
    (∃ t, exec (.registerWrite p 0x28 true v) s = .next t ∧ registerRead t p 0x28 true = some v) := by
  have hq := read_write_adminSqBase v hp hz hs hd
  have hc := read_write_adminCqBase v hp hz hs hd
  rw [mapGet_setBase p v hsq, BitVec.ofNat_toNat, BitVec.setWidth_eq] at hq
  rw [mapGet_setBase p v hcq, BitVec.ofNat_toNat, BitVec.setWidth_eq] at hc
  exact ⟨hq, hc⟩

/-- Bases with two entries for port 0, a list not in canonical form: writing the default 0 takes only the first one away. -/
def twiceListed : FMap Nat := [(0, 0), (0, 1)]

/-- Port 0 of a device in service, with `twiceListed` for the bases of the admin submission rings. -/
def twiceListedBase : State :=
  { sup := { domains := 1#30 }, host := { up := 1#2, trained := 1#2, asq := twiceListed } }

theorem mapGet_setBase_twiceListed : mapGet 0 (setBase 0 0#64 twiceListed) 0 = 1 := by decide

theorem read_write_zero_twiceListedBase :
    ∃ t, exec (.registerWrite 0 0x20 true 0#64) twiceListedBase = .next t ∧ registerRead t 0 0x20 true = some 1#64 := by
  obtain ⟨t, hw, hr⟩ := read_write_adminSqBase (s := twiceListedBase) (p := 0) 0#64 (by decide) (by decide) (by decide) (by decide)
  exact ⟨t, hw, hr.trans (congrArg (fun n => some (BitVec.ofNat 64 n)) mapGet_setBase_twiceListed)⟩

/-- Refutes O27 by its second clause: in `twiceListedBase`, ADMIN_SQ_BASE written as 0 reads back as 1. The model changes
bases by `mapSet` and `mapErase` alone, which keep the canonical form, so that no run leads to this list: the clause lacks the premise that
the bases are in that form (`adminBases_read_back`), and the other two clauses hold. -/
theorem not_registerReadsAnswer : ¬ Obligations.RegisterReadsAnswer := by
  unfold Obligations.RegisterReadsAnswer
  rintro ⟨-, hback, -⟩
  obtain ⟨⟨t, hw, hr⟩, -⟩ := hback twiceListedBase 0 0#64 (by decide) (by decide) (by decide) (by decide) (by decide) (by decide)
  obtain ⟨t', hw', hr'⟩ := read_write_zero_twiceListedBase
  obtain rfl : t = t' := Host.Outcome.next.inj (hw.symm.trans hw')
  exact absurd (hr.symm.trans hr') (by decide)

end Sys2Proof.Machine
end

section
/-!
Contexts, partitions and requests to near memory (spec/01_structure.md R15 to R25; spec/06_near_memory.md R140 to R171). Each row
stands behind checks that it shares with others: `partConfig_of` and `partConfig_underReset` open those of PART_CONFIG,
`across_served`, `across_waits`, `unlessBarred_passed` and `unlessBarred_refused` those of a request.
-/

namespace Sys2Proof.Machine

/-! ### Contexts and partitions (R15 to R24, R191, R410, R412) -/

section
variable {q : Fin 512} {seq op : Nat} {s : State} {c : Cmd}

/-- PART_CONFIG of the row's operation has its effect while no partition reset is in progress. -/
theorem partConfig_of (h : hostRuns s q seq 0x203 false [(0, 3), (8, 84)] c = true) (ho : c.p 0 1 = op)
    (hr : s.fc.rstParts = []) (body : PartCmd → Cmd → State → State) :
    partConfig s q seq op body = body (partCmd c) c s := by
  have hpick : (decide (c.p 0 1 = op) || decide (2 < c.p 0 1)) = true := by simp [ho]
  rw [partConfig, runSub_of h hpick, if_neg (not_not_intro ho), if_neg (by simp [hr])]

/-- It ends with NOT_READY while one is (R22). -/
theorem partConfig_underReset (h : hostRuns s q seq 0x203 false [(0, 3), (8, 84)] c = true) (ho : c.p 0 1 = op)
    (hr : s.fc.rstParts ≠ []) (body : PartCmd → Cmd → State → State) :
    partConfig s q seq op body = finish c stNotReady [] s := by
  have hpick : (decide (c.p 0 1 = op) || decide (2 < c.p 0 1)) = true := by simp [ho]
  rw [partConfig, runSub_of h hpick, if_neg (not_not_intro ho), if_pos (by simpa using hr), refuse]

/-- CTX_CREATE with a seed of its own makes the context (R23, R24, R213). -/
theorem execCtxCreate_of (h : startable s q seq 0x200 = some c) (hrest : c.rest0 [(0, 2), (8, 8)] = true) (hctx : c.ctx ≠ 0)
    (hnew : ctxExists s c.ctx = false) (hpart : partDefined s (c.p 0 1) = true)
    (hreset : s.fc.rstParts.contains (c.p 0 1) = false) (hcls : c.p 1 1 ≤ 59) (hbound : classPart s (c.p 1 1) = some (c.p 0 1))
    (hseed : c.p 8 8 ≠ 0) :
    execCtxCreate q seq s =
      .next (finish c stSuccess [] (ctxSet c.ctx { part := c.p 0 1, cls := c.p 1 1, seed := BitVec.ofNat 64 (c.p 8 8) } s)) := by
  have hcls' : ¬ 59 < c.p 1 1 := Nat.not_lt.mpr hcls
  simp only [execCtxCreate, h, hrest, hctx, hnew, hpart, hreset, hcls', hbound, hseed, ne_eq, not_true_eq_false, decide_false,
    Bool.not_true, Bool.or_self, Bool.false_eq_true, if_false]

/-- PART_CONFIG SET_FLAGS with flag 0 clears the flag of P0, where it names no unit (R21). -/
theorem execPartConfigSetFlags_of (h : hostRuns s q seq 0x203 false [(0, 3), (8, 84)] c = true) (ho : c.p 0 1 = 2)
    (hr : s.fc.rstParts = []) (hpart : c.p 1 1 = 0) (hflags : c.p 2 1 = 0) (hrods : (partCmd c).rods = [])
    (hchans : (partCmd c).chans = []) (hsegs : (partCmd c).segs = []) (hports : (partCmd c).ports = []) :
    execPartConfigSetFlags q seq s =
      .next (finish c stSuccess [] { s with parts := { s.parts with fast := s.parts.fast &&& 0xFE#8 } }) := by
  have hk : (partCmd c).part = 0 := hpart
  have hf : (partCmd c).flags = 0 := hflags
  rw [execPartConfigSetFlags, partConfig_of h ho hr]
  simp [hk, hf, hrods, hchans, hsegs, hports]

/-- QUOTA_SET holds a quota that covers the pages in use and that its tier has room for (R191). -/
theorem execQuotaSet_of (h : hostRuns s q seq 0x305 true [(0, 1), (4, 4)] c = true) (ht : c.p 0 1 ≤ 2)
    (hused : usedOf s c.ctx (c.p 0 1) ≤ c.p 4 4)
    (hroom : quotaSum s (ctxPart s c.ctx) (c.p 0 1) - quotaOf s c.ctx (c.p 0 1) + c.p 4 4 ≤ tierCap s (ctxPart s c.ctx) (c.p 0 1)) :
    execQuotaSet q seq s = .next (finish c stSuccess (natLe 4 (quotaOf s c.ctx (c.p 0 1)))
      (ctxMod c.ctx (fun x => { x with quotas := mapSet 0 x.quotas (c.p 0 1) (c.p 4 4) }) s)) := by
  rw [execQuotaSet, runCmd_of h, if_neg (Nat.not_lt.mpr ht), if_neg (Nat.not_lt.mpr hused), if_neg (Nat.not_lt.mpr hroom)]

end

/-- Settles O58: the check for a reset stands before the three operations, in the wrapper that they share. -/
theorem partConfigDuringReset : Obligations.PartConfigDuringReset := by
  unfold Obligations.PartConfigDuringReset
  intro q seq s c h hr
  exact ⟨fun ho => congrArg _ (partConfig_underReset h ho hr _), fun ho => congrArg _ (partConfig_underReset h ho hr _),
    fun ho => congrArg _ (partConfig_underReset h ho hr _)⟩

/-- Settles O4, row by row: the hypotheses of a clause say that none of the row's refusals applies. -/
theorem contextsAndPartitionsChange : Obligations.ContextsAndPartitionsChange := by
  unfold Obligations.ContextsAndPartitionsChange
  refine ⟨?ctxCreate, ?ctxDestroy, ?ctxReset, ?claim, ?release, ?setFlags, ?partReset, ?quotaSet⟩
  case ctxCreate =>
    rintro q seq s c h ⟨hrest, hctx, hnew⟩ ⟨hpart, hreset⟩ ⟨hcls, hbound⟩ hseed
    exact execCtxCreate_of h hrest hctx hnew hpart hreset hcls hbound hseed
  case ctxDestroy =>
    intro q seq s c h hctx
    show execCtxDestroy q seq s = _
    rw [execCtxDestroy, runCmd_of h, if_neg hctx]
  case ctxReset =>
    intro q seq s c h hctx
    show execCtxReset q seq s = _
    rw [execCtxReset, runCmd_of h, if_neg hctx]
  case claim =>
    rintro q seq s c h ⟨ho, hr⟩ hcheck
    show execPartConfigClaim q seq s = _
    rw [execPartConfigClaim, partConfig_of h ho hr, if_neg (not_not_intro hcheck)]
  case release =>
    rintro q seq s c h ⟨ho, hr⟩ hcheck
    show execPartConfigRelease q seq s = _
    rw [execPartConfigRelease, partConfig_of h ho hr, if_neg (not_not_intro hcheck)]
  case setFlags =>
    rintro q seq s c h ⟨ho, hr, hpart, hflags⟩ ⟨hrods, hchans, hsegs, hports⟩
    exact execPartConfigSetFlags_of h ho hr hpart hflags hrods hchans hsegs hports
  case partReset =>
    rintro q seq ticks s c h ⟨hpart, hreset⟩
    show execPartReset q seq ticks s = _
    rw [execPartReset, runCmd_of h, if_neg (by simp [hpart]), if_neg (ne_true_of_eq_false hreset)]
  case quotaSet =>
    intro q seq s c h ht hused hroom
    exact execQuotaSet_of h ht hused hroom

/-! ### Requests to near memory (R25, R40, R140, R148) -/

section
variable {runs : Bool} {s : State}

/-- A request to a region that runs is served. -/
theorem across_served (hs : s.dev.safe = false) (hr : runs = true) (i : Instr) (k : State → State) :
    (if s.dev.safe = true then s else across runs i s k) = k s := by
  simp [across, hs, hr]

/-- A request to a region that stalls waits at the crossing (R40). -/
theorem across_waits (hs : s.dev.safe = false) (hr : runs = false) (i : Instr) (k : State → State) :
    (if s.dev.safe = true then s else across runs i s k) = { s with crossing := s.crossing ++ [i] } := by
  simp [across, hs, hr]

variable {req part pa : Nat} {t : Traffic}

/-- The ownership check lets the request pass (R25). -/
theorem unlessBarred_passed (h : barOf s part (exempt req t) pa = none) (k : State → State) :
    unlessBarred req part t pa s k = k s := by
  simp [unlessBarred, h]

/-- The ownership check or the map refuses the request (R25, R140). -/
theorem unlessBarred_refused {b : Bar} (h : barOf s part (exempt req t) pa = some b) (k : State → State) :
    unlessBarred req part t pa s k = refuseReq b req s := by
  simp [unlessBarred, h]

end

/-- Settles O13, row by row: the region runs or stalls, the check passes or refuses, and what is left is the row's own
effect. -/
theorem nearMemoryRequestsRun : Obligations.NearMemoryRequestsRun := by
  unfold Obligations.NearMemoryRequestsRun
  refine ⟨?read, ?readRefused, ?readWaits, ?write, ?writeRefused, ?scrub, ?rateOver, ?rateUnder, ?calibration, ?cs, ?csRefused,
    ?csUnmapped, ?window, ?windowBad, ?windowRefused⟩
  case read =>
    rintro req t part pa ecc s ⟨hs, hr, hb⟩
    show execHbmRead req t part pa ecc s = _
    rw [execHbmRead, across_served hs hr, unlessBarred_passed hb]
  case readRefused =>
    rintro req t part pa ecc b s ⟨hs, hr, hb⟩
    show execHbmRead req t part pa ecc s = _
    rw [execHbmRead, across_served hs hr, unlessBarred_refused hb]
  case readWaits =>
    rintro req t part pa ecc s ⟨hs, hr⟩
    show execHbmRead req t part pa ecc s = _
    rw [execHbmRead, across_waits hs hr]
  case write =>
    rintro req t part pa data tag ver s ⟨hs, hr, hb⟩
    show execHbmWrite req t part pa data tag ver s = _
    rw [execHbmWrite, across_served hs hr, unlessBarred_passed hb]
  case writeRefused =>
    rintro req t part pa data tag ver b s ⟨hs, hr, hb⟩
    show execHbmWrite req t part pa data tag ver s = _
    rw [execHbmWrite, across_served hs hr, unlessBarred_refused hb]
  case scrub =>
    intro ch burst ecc s hh
    show execPatrolScrub ch burst ecc s = _
    rw [execPatrolScrub, if_neg (ne_true_of_eq_false hh)]
  case rateOver =>
    rintro ch s ⟨hs, hhour, hn⟩
    show execHbmCeRate ch s = _
    rw [execHbmCeRate, if_neg (ne_true_of_eq_false hs), rateCheck, if_neg hhour, if_pos hn]
  case rateUnder =>
    rintro ch s ⟨hs, hhour, hn⟩
    show execHbmCeRate ch s = _
    rw [execHbmCeRate, if_neg (ne_true_of_eq_false hs), rateCheck, if_neg hhour, if_neg (Nat.not_lt.mpr hn)]
  case calibration =>
    intro ch s hh
    show execPhyCalibration ch s = _
    rw [execPhyCalibration, if_neg (ne_true_of_eq_false hh)]
  case cs =>
    rintro req t ctx va write length ecc pa o p cache s ⟨hs, hr, hx, hpa⟩ hserved
    show execCsRequest req t ctx va write length ecc s = _
    have hrow : (decide (rsWindowBase ≤ pa) ||
        (decide (pa < hbmTop) && (decide (cache = 2) || (cacheSegs s (ctxPart s ctx)).isEmpty))) = false := by
      rcases hserved with htop | ⟨hcache, hsegs⟩
      · simp [Nat.not_le.mpr hpa, Nat.not_lt.mpr htop]
      · simp [Nat.not_le.mpr hpa, hcache, hsegs]
    simp only [execCsRequest, across_served hs hr, hx, hrow, Bool.false_eq_true, if_false]
  case csRefused =>
    rintro req t ctx va write length ecc b s ⟨hs, hr, hx, he⟩
    show execCsRequest req t ctx va write length ecc s = _
    simp only [execCsRequest, across_served hs hr, hx, he, Bool.false_eq_true, if_false]
  case csUnmapped =>
    rintro req t ctx va write length ecc r s ⟨hs, hr, hx⟩ ⟨hrod, hrun⟩
    show execCsRequest req t ctx va write length ecc s = _
    simp only [execCsRequest, across_served hs hr, hx, hrod, hrun, if_true]
  case window =>
    rintro req t part pa write length ecc s n a ⟨hs, hr, hb, hpa⟩ ⟨hn, ha⟩ ⟨hcode, hstack⟩
    show execRsWindowAccess req t part pa write length ecc s = _
    rw [execRsWindowAccess, across_served hs hr, unlessBarred_passed hb, if_neg (Nat.not_lt.mpr hpa),
      if_neg (by simp [hcode, hstack]), hn, ha]
  case windowBad =>
    rintro req t part pa write length ecc s n a ⟨hs, hr, hb, hpa⟩ ⟨hn, ha⟩ hue
    show execRsWindowAccess req t part pa write length ecc s = _
    rw [execRsWindowAccess, across_served hs hr, unlessBarred_passed hb, if_neg (Nat.not_lt.mpr hpa),
      if_pos (by simpa using hue), hn, ha]
  case windowRefused =>
    rintro req t part pa write length ecc b s ⟨hs, hr, hb⟩
    show execRsWindowAccess req t part pa write length ecc s = _
    rw [execRsWindowAccess, across_served hs hr, unlessBarred_refused hb]

end Sys2Proof.Machine
end

section
/-!
The fault collector and the monitors (spec/14_fault_collection.md R390 to R404; spec/15_hang_reset_recovery.md R406 to R421;
spec/02_timing_without_clock.md R38 to R46). `execFaultMessage_taken`, `execFaultMessage_held` and `execFaultMessage_badParity` say
what becomes of a message, and the `takeMessage` lemmas what a message that is taken does at each severity.
-/

namespace Sys2Proof.Machine

/-! ### The fault collector (R390 to R400, T14.5) -/

section
variable {s : State} {n k a : Nat}

/-- An interrupt changes the host side alone (R341). -/
theorem signal_mk (p v : Nat) (s : State) : signal p v s = { s with host := (signal p v s).host } := by
  unfold signal
  split
  · rfl
  · dsimp only
    split
    · rfl
    · exact hostWrite_mk ..

@[simp] theorem signalBoth_dev (s : State) : (signalBoth s).dev = s.dev := by
  rw [signalBoth, signal_mk, signal_mk]

@[simp] theorem signalBoth_fc (s : State) : (signalBoth s).fc = s.fc := by
  rw [signalBoth, signal_mk, signal_mk]

@[simp] theorem arriveNow_dev (msg : BitVec 67) (s : State) : (arriveNow msg s).dev = s.dev := by
  unfold arriveNow
  split <;> rfl

@[simp] theorem arriveNow_service (msg : BitVec 67) (s : State) : (arriveNow msg s).fc.service = s.fc.service := by
  unfold arriveNow
  split <;> rfl

/-- A message that leaves the network changes no severity. -/
@[simp] theorem sevOf_arriveNow (msg : BitVec 67) (s : State) (n : Nat) : sevOf (arriveNow msg s) n = sevOf s n := by
  unfold arriveNow
  split <;> rfl

/-- In the safe state, and at severity LOG, a message sets its sticky bit alone. -/
theorem takeMessage_logged (hn : n ≠ srcThermtrip) (h : s.dev.safe = true ∨ sevOf s n = 0) :
    takeMessage n k a s = setSticky n s := by
  have hlog : (s.dev.safe || decide (sevOf s n = 0)) = true := by simpa using h
  simp only [takeMessage, if_neg hn]
  exact if_pos hlog

/-- At severity SAFE it enters the safe state. -/
theorem takeMessage_safe (hn : n ≠ srcThermtrip) (hs : s.dev.safe = false) (h : sevOf s n = 3) :
    takeMessage n k a s = enterSafe (setSticky n s) := by
  simp [takeMessage, hn, h, setSticky, hs]

/-- THERMTRIP at severity SAFE notes the trip as well (R398). -/
theorem takeMessage_thermtrip (hs : s.dev.safe = false) (h : sevOf s srcThermtrip = 3) :
    takeMessage srcThermtrip k a s =
      enterSafe { setSticky srcThermtrip s with fc := { (setSticky srcThermtrip s).fc with thermtrip := true } } := by
  simp [takeMessage, h, setSticky, hs]

/-- At severity NOTIFY or CONTAIN it is signalled and recorded, and CONTAIN contains. -/
theorem takeMessage_recorded {v : Nat} (hn : n ≠ srcThermtrip) (hs : s.dev.safe = false) (hf : s.fc.service = true)
    (hv : sevOf s n = v) (h0 : v ≠ 0) (h3 : v ≠ 3) :
    takeMessage n k a s =
      if v = 2 then contain n k a (record n k v a (signalBoth (setSticky n s))) else record n k v a (signalBoth (setSticky n s)) := by
  simp [takeMessage, hn, hv, h0, h3, setSticky, hs, hf]

variable {msg : BitVec 67}

/-- A message that can travel reaches the collector (R390). -/
theorem execFaultMessage_taken (hr : messageRuns s (msgSource msg) = true) (hp : parityOk msg = true)
    (hk : sourceKnown (msgSource msg) = true) :
    execFaultMessage msg s =
      .next (takeMessage (msgSource msg) (kindTaken (msgSource msg) (msgKind msg)) (msgAddr msg) (arriveNow msg s)) := by
  simp [execFaultMessage, hr, hp, hk]

/-- One that fails the parity check is discarded for MSG_PARITY (R391). -/
theorem execFaultMessage_badParity (hr : networkRuns s = true) (hp : parityOk msg = false) :
    execFaultMessage msg s = .next (takeMessage srcMsgParity 0 0 (arriveNow msg s)) := by
  simp [execFaultMessage, hr, hp]

/-- One that cannot travel waits (R40). -/
theorem execFaultMessage_held (hr : messageRuns s (msgSource msg) = false) (hp : parityOk msg = true)
    (hk : sourceKnown (msgSource msg) = true) : execFaultMessage msg s = .next (holdMessage msg s) := by
  simp [execFaultMessage, hr, hp, hk]

/-- ESCALATION_SET runs the body of the operation that it names. -/
theorem escalation_of {q : Fin 512} {seq op : Nat} {c : Cmd} (h : hostRuns s q seq 0x705 false [(0, 8)] c = true)
    (ho : c.p 0 1 = op) (body : Cmd → State → State) : escalation s q seq op body = body c s := by
  have hpick : (decide (c.p 0 1 = op) || decide (1 < c.p 0 1)) = true := by simp [ho]
  rw [escalation, runSub_of h hpick, if_neg (not_not_intro ho)]

end

/-- Settles O28: a message is discarded, held or taken, by its parity and what runs; the severity of its source says what follows. -/
theorem collectorCommandsRun : Obligations.CollectorCommandsRun := by
  unfold Obligations.CollectorCommandsRun
  refine ⟨?badParity, ?logged, ?notified, ?contained, ?safe, ?trip, ?held, ?registerParity, ?ringParity, ?comparator, ?read, ?clear,
    ?escalation, ?returned⟩
  case badParity =>
    rintro msg s ⟨hr, hp⟩
    exact execFaultMessage_badParity hr hp
  case logged =>
    rintro msg s _ ⟨hr, hp, rfl, hk, hn⟩ hlog
    refine (execFaultMessage_taken hr hp hk).trans (congrArg _ (takeMessage_logged hn ?_))
    simpa using hlog
  case notified =>
    rintro msg s _ ⟨hr, hp, rfl, hk, hn⟩ ⟨hs, hf, hsev⟩
    exact (execFaultMessage_taken hr hp hk).trans (congrArg _
      (takeMessage_recorded hn (by simpa using hs) (by simpa using hf) ((sevOf_arriveNow ..).trans hsev) (by decide) (by decide)))
  case contained =>
    rintro msg s _ ⟨hr, hp, rfl, hk, hn⟩ ⟨hs, hf, hsev⟩
    exact (execFaultMessage_taken hr hp hk).trans (congrArg _
      (takeMessage_recorded hn (by simpa using hs) (by simpa using hf) ((sevOf_arriveNow ..).trans hsev) (by decide) (by decide)))
  case safe =>
    rintro msg s _ ⟨hr, hp, rfl, hk, hn⟩ ⟨hs, hsev⟩
    exact (execFaultMessage_taken hr hp hk).trans (congrArg _ (takeMessage_safe hn (by simpa using hs) ((sevOf_arriveNow ..).trans hsev)))
  case trip =>
    rintro msg s _ ⟨hr, hp, hn, hsev, hs⟩ rfl
    rw [← hn] at hr
    have htaken := execFaultMessage_taken hr hp (by rw [hn]; decide)
    rw [hn] at htaken
    exact htaken.trans (congrArg _ (takeMessage_thermtrip (by simpa using hs) ((sevOf_arriveNow ..).trans hsev)))
  case held =>
    rintro msg s ⟨hp, hk, hr, hnet, htransit⟩
    refine (execFaultMessage_held hr hp hk).trans (congrArg _ ?_)
    rw [holdMessage, hnet, htransit, if_neg (by decide)]
  case registerParity =>
    rintro word s ⟨hz, hw⟩
    show execFcParityError word s = _
    rw [execFcParityError, if_neg (by simp [hz]), if_pos hw]
    rfl
  case ringParity =>
    rintro _ i s ⟨hz, rfl, hi⟩
    show execFcParityError (65536 + i) s = _
    rw [execFcParityError, if_neg (by simp [hz]), if_neg (by omega), Nat.add_sub_cancel_left, ringParity, if_pos hi]
    rfl
  case comparator =>
    rintro sensor s ⟨hz, hf⟩
    have hon : s.sup.domains.getLsbD 0 = true := by
      simp only [zenithRuns, Bool.and_eq_true] at hz
      exact hz.1
    show execThermtrip sensor s = _
    rw [execThermtrip, if_neg (by rw [hon, hf]; decide)]
    exact congrArg _ (if_pos hz)
  case read =>
    intro q seq s c h
    exact congrArg _ (runCmd_of h _)
  case clear =>
    intro q seq s c gone h hsource hgone
    rw [hgone]
    show execFaultClear q seq s = _
    rw [execFaultClear, runCmd_of h]
    exact congrArg _ (if_neg (by simpa [or_iff_not_imp_left] using hsource))
  case escalation =>
    rintro q seq s c h ⟨ho, hmode, hlo, hhi, hwlo, hwhi⟩
    show execEscalationSet q seq s = _
    rw [execEscalationSet, escalation_of h ho, if_neg]
    simp only [Bool.or_eq_true, decide_eq_true_eq]
    omega
  case returned =>
    rintro q seq s c h ⟨ho, hretired, hcycled⟩
    show execEscalationReturn q seq s = _
    rw [execEscalationReturn, escalation_of h ho, if_neg (by simp [hretired, hcycled])]

/-! ### Speed, temperature, TIMEREF and the watchdog (R38 to R46, R406 to R414) -/

section
variable {s : State}

/-- PD_ON without TIMEREF takes over the counter and reports the loss (R46). -/
theorem noteTimeref_lost (ht : s.sup.timeref = false) (hi : s.clk.internal = false) (hz : zenithRuns s = true) :
    noteTimeref s = raise srcTimeref 0 s.clk.ltc { s with clk := { s.clk with internal := true, degraded := true } } := by
  rw [noteTimeref, if_neg (by rw [ht, hi, hz]; decide)]

/-- While PD_ON does not run, nothing is noted. -/
theorem noteTimeref_still (hz : zenithRuns s = false) : noteTimeref s = s := by
  rw [noteTimeref, if_pos (by simp [hz])]

/-- The second stage of the watchdog is due: 1 s after the first (R408). -/
theorem watchdogCheck_due (hz : zenithRuns s = true) (ha : s.clk.armed = true) (hage : 101000000 ≤ beatAge s)
    (hb : s.clk.beatRaised = true) (hs : s.dev.safe = false) (hr : s.dev.retired = false) :
    watchdogCheck s =
      if s.fc.window && decide (s.fc.escN ≤ counted s + 1) then retire s
      else doReset ⟨.chip, 0, none⟩ { s with clk := { s.clk with armed := false } } := by
  rw [watchdogCheck, if_pos (by rw [hz, ha, hs, hr]; simpa using hage), raiseBeat, if_pos hb]

/-- SPEED_MEASURE takes the rate of the slowest region that it hears of (R39). -/
theorem execSpeedMeasure_heard {mhz l : List Nat} {g : Nat} (hm : maintains s = true)
    (hl : g :: l = (List.range 16).filter (fun g => s.sup.domains.getLsbD (2 + g) && decide (g < mhz.length))) :
    execSpeedMeasure mhz s =
      .next { s with
        clk := { s.clk with
          beatLive := mhz.getD (l.foldl (fun b i => if mhz.getD i 0 < mhz.getD b 0 then i else b) g) 0 % 4096
          liveRegion := l.foldl (fun b i => if mhz.getD i 0 < mhz.getD b 0 then i else b) g }
        sup := { s.sup with unheard := false } } := by
  simp only [execSpeedMeasure, hm, ← hl]
  rfl

/-- With every group off a lowering step waits no longer (R37, R455). -/
theorem execSpeedMeasure_off (mhz : List Nat) (hm : maintains s = true)
    (hoff : (List.range 16).any (fun g => s.sup.domains.getLsbD (2 + g)) = false) :
    execSpeedMeasure mhz s = .next { s with sup := { s.sup with unheard := false } } := by
  have hnone : (List.range 16).filter (fun g => s.sup.domains.getLsbD (2 + g) && decide (g < mhz.length)) = [] := by
    rw [List.filter_eq_nil_iff]
    intro g hg
    have hg' : s.sup.domains.getLsbD (2 + g) = false := by simpa using List.any_eq_false.mp hoff g hg
    simp [hg']
  simp only [execSpeedMeasure, hm, hnone, hoff]
  rfl

end

/-- Settles O29: each monitor stands behind the checks that the hypotheses of its clause meet. -/
theorem monitorEventsRun : Obligations.MonitorEventsRun := by
  unfold Obligations.MonitorEventsRun
  refine ⟨?heard, ?off, ?gradients, ?lost, ?lostStill, ?returned, ?advance, ?missing, ?reset, ?retired, ?cycle⟩
  case heard =>
    rintro mhz s g l low ⟨hm, hl⟩ hlow
    rw [hlow]
    exact execSpeedMeasure_heard hm hl
  case off =>
    rintro mhz s ⟨hm, hoff⟩
    exact execSpeedMeasure_off mhz hm hoff
  case gradients =>
    intro s hm
    show execThermalGradientCheck s = _
    rw [execThermalGradientCheck, if_pos hm]
  case lost =>
    rintro s ⟨ht, hz, hi⟩
    show execTimerefLoss s = _
    rw [execTimerefLoss, if_neg (by simp [ht])]
    exact congrArg _ (noteTimeref_lost rfl hi hz)
  case lostStill =>
    rintro s ⟨ht, hz⟩
    show execTimerefLoss s = _
    rw [execTimerefLoss, if_neg (by simp [ht])]
    exact congrArg _ (noteTimeref_still hz)
  case returned =>
    intro s
    rfl
  case advance =>
    rintro s ⟨hz, hf, hage⟩
    exact congrArg _ (if_pos (by rw [hz, hf]; simpa using hage))
  case missing =>
    rintro s ⟨hz, ha, hage, hb⟩
    have hage : 1000000 ≤ beatAge s := hage
    show execHeartbeatTimeout s = _
    rw [execHeartbeatTimeout, beatCheck, if_pos (by rw [hz, ha]; simpa using hage), raiseBeat, if_neg (by simp [hb])]
    rfl
  case reset =>
    rintro s ⟨hz, ha, hage, hb⟩ ⟨hs, hr, hw⟩
    show execWatchdogChipReset s = _
    rw [execWatchdogChipReset, watchdogCheck_due hz ha hage hb hs hr, if_neg (by simp [hw])]
    rfl
  case retired =>
    rintro s ⟨hz, ha, hage, hb⟩ ⟨hs, hr, hw, hn⟩
    show execWatchdogChipReset s = _
    rw [execWatchdogChipReset, watchdogCheck_due hz ha hage hb hs hr, if_pos (by simpa [hw] using hn)]
  case cycle =>
    rintro s ⟨hc, hp, hz, hage⟩
    exact congrArg _ (if_pos (by rw [hc, hp, hz]; simpa using hage))

end Sys2Proof.Machine
end

section
/-!
Sags of VIN52, power limiting, the conversion dies, the sensors, and the root of trust's self-test (spec/17_package_power_cooling.md
R448 to R464; spec/02_timing_without_clock.md R40; spec/16_startup_trust.md R428, R431). `runAgain_eq` and `runAgain_quiet` say what a
change of a voltage leads to. `StartUpEventsRun` is refuted: its second clause keeps a fault service that `stopStart` stops (R399).
-/

namespace Sys2Proof.Machine

/-! ### Sags of VIN52 (R40, R448, R458) -/

section
variable {s : State}

/-- With nothing at a crossing, nothing is served. -/
theorem serveCrossings_none (hc : s.crossing = []) : serveCrossings s = s := by
  rw [serveCrossings, hc]
  show { s with crossing := [] } = s
  rw [← hc]

/-- Without ports there is nothing to drain. -/
theorem drainPorts_none (hp : s.zl.ports = []) : drainPorts s = s := by
  rw [drainPorts, hp]
  exact ite_self s

/-- Where PD_ON ran before, what waited for a region is served, and nothing else follows. -/
theorem runAgain_ran (s : State) : runAgain true s = drainPorts (serveCrossings s) := rfl

/-- What follows a change of the voltage, by what ran before and what runs after it. -/
theorem runAgain_eq (ran : Bool) (s : State) :
    runAgain ran s =
      if ran = true ∨ zenithRuns (drainPorts (serveCrossings s)) = false then drainPorts (serveCrossings s)
      else resumeIntake (watchdogCheck (beatCheck (noteTimeref (drainPorts (serveCrossings s))))) := by
  cases ran with
  | true => rfl
  | false => cases hz : zenithRuns (drainPorts (serveCrossings s)) <;> simp [runAgain, hz]

/-- Where PD_ON ran before and nothing waits for a region, nothing follows. -/
theorem runAgain_quiet (hc : s.crossing = []) (hp : s.zl.ports = []) : runAgain true s = s := by
  rw [runAgain_ran, serveCrossings_none hc, drainPorts_none hp]

/-- While PD_ON goes on, the shadows follow what it writes. -/
theorem keepShadow_runs {t : State} (ht : zenithRuns t = true) : keepShadow s t = t := by
  simp [keepShadow, ht]

/-- The end of a sag is acted on where there was one (R458). -/
theorem execVin52SagEnd_of {mv : Nat} (hsag : s.sup.vin52 < 40000) (hlo : 40000 ≤ mv) (hhi : mv ≤ 62000) :
    execVin52SagEnd mv s = .next (runAgain (zenithRuns s) { s with sup := { s.sup with vin52 := mv } }) := by
  rw [execVin52SagEnd, if_pos (by simp [hsag, hlo, hhi])]

end

/-- Settles O33: a sag is a loss of power, or leads like its end to `runAgain`. -/
theorem sagsRun : Obligations.SagsRun := by
  unfold Obligations.SagsRun
  refine ⟨?quietSag, ?sag, ?quietEnd, ?sagEnd⟩
  case quietSag =>
    rintro mv s t ⟨hlo, hhi, rfl⟩ ⟨hz, ht, hc, hp⟩
    show execVin52Sag mv s = _
    rw [execVin52Sag, if_neg (Nat.not_lt.mpr hlo), if_pos hhi, keepShadow_runs ht, hz]
    exact congrArg _ (runAgain_quiet hc hp)
  case sag =>
    rintro mv s _ ⟨hhi, rfl⟩
    show execVin52Sag mv s = _
    rw [execVin52Sag, if_pos hhi, runAgain_eq]
    rfl
  case quietEnd =>
    rintro mv s ⟨hsag, hlo, hhi, hz, hc, hp⟩
    show execVin52SagEnd mv s = _
    rw [execVin52SagEnd_of hsag hlo hhi, hz]
    exact congrArg _ (runAgain_quiet hc hp)
  case sagEnd =>
    rintro mv s _ ⟨hsag, hlo, hhi, rfl⟩
    exact (execVin52SagEnd_of hsag hlo hhi).trans (congrArg _ (runAgain_eq ..))

/-! ### Conversion dies, input power and sensors (R451, R455, R462 to R464) -/

/-- A reading that moves no setpoint moves the duty at most; one that moves a setpoint may let a region run again (R458). -/
theorem takeReading_eq (mw : Nat) (s : State) :
    takeReading mw s =
      if (limitStep s.dev.powerLimit mw (noteReading mw s.sup)).fabMv = s.sup.fabMv ∧
          (limitStep s.dev.powerLimit mw (noteReading mw s.sup)).coreMv = s.sup.coreMv then
        { s with sup := limitStep s.dev.powerLimit mw (noteReading mw s.sup) }
      else drainPorts (serveCrossings { s with sup := limitStep s.dev.powerLimit mw (noteReading mw s.sup) }) := by
  simp only [takeReading, runAgain_ran, Bool.and_eq_true, decide_eq_true_eq]

/-- Settles O34: a die is at work, or Zenith runs, and the event has its effect. -/
theorem conversionAndSensorsRun : Obligations.ConversionAndSensorsRun := by
  unfold Obligations.ConversionAndSensorsRun
  refine ⟨?overcurrent, ?overtemp, ?shutdown, ?power, ?sensors⟩
  case overcurrent =>
    rintro die s ⟨hc, hz⟩
    exact congrArg _ (if_pos (by rw [hc, hz]; rfl))
  case overtemp =>
    rintro die s ⟨hc, hz⟩
    exact congrArg _ (if_pos (by rw [hc, hz]; rfl))
  case shutdown =>
    intro die s hc
    exact congrArg _ (if_pos hc)
  case power =>
    rintro mw s _ _ ⟨hm, rfl⟩ rfl
    show execPowerReading mw s = _
    rw [execPowerReading, if_pos hm, takeReading_eq]
    rfl
  case sensors =>
    rintro l s _ hz rfl
    exact congrArg _ (if_pos hz)

/-! ### Start-up: a self-test that fails (R431, R399) -/

section
variable {s : State}

@[simp] theorem raise_service (src kind addr : Nat) (s : State) : (raise src kind addr s).fc.service = s.fc.service := by
  unfold raise
  split <;> rfl

@[simp] theorem noteTimeref_service (s : State) : (noteTimeref s).fc.service = s.fc.service := by
  unfold noteTimeref
  split
  · rfl
  · exact raise_service ..

/-- The straps are sampled and the counter starts from 0 (R45, R428). -/
def selfTestStart (s : State) : State :=
  { s with
    sup := { s.sup with strap := s.sup.strapPins, pairSel := s.sup.pairPin }
    clk := { s.clk with ltc := 0, internal := false, degraded := false } }

/-- A self-test of step 2 that fails ends start-up in stage 0xF. -/
theorem exec_rotSelfTest_failed (h : booting s 2 = true) :
    exec (.rotSelfTest false) s = .next (stopStart 0xF (noteTimeref (selfTestStart s))) :=
  congrArg _ (if_pos h)

/-- It leaves no fault service behind (R399). -/
theorem exec_rotSelfTest_failed_service (h : booting s 2 = true) :
    ∃ t, exec (.rotSelfTest false) s = .next t ∧ t.fc.service = false :=
  ⟨_, exec_rotSelfTest_failed h, rfl⟩

/-- The second clause of `StartUpEventsRun` with the premise that it lacks: no fault service runs yet. -/
theorem exec_rotSelfTest_failed_of_noService {t : State} (h : booting s 2 = true) (hf : s.fc.service = false)
    (ht : t = noteTimeref (selfTestStart s)) :
    exec (.rotSelfTest false) s =
      .next { t with
        sup := { t.sup with faultNLow := true }
        dev := { t.dev with bootStep := 0, stage := 15 }
        side := { t.side with sent := t.side.sent ++ [0x81] } } := by
  have hservice : t.fc.service = false := by rw [ht]; exact (noteTimeref_service _).trans hf
  have hfc : { t.fc with service := false } = t.fc := by rw [← hservice]
  rw [exec_rotSelfTest_failed h, ← ht, stopStart, hfc]

end

/-- The root of trust's self-test is due, and the fault service runs: start-up itself starts it only in step 5. -/
def servedSelfTest : State :=
  { sup := { pwrEn := true, power := .on, domains := 1#30 }, dev := { bootStep := 2 }, fc := { service := true } }

/-- Refutes O35 by its second clause: in `servedSelfTest` a self-test that fails stops the fault service (R399), where the clause
has it run on. The clause lacks the premise that no fault service runs before step 5
(`exec_rotSelfTest_failed_of_noService`). -/
theorem not_startUpEventsRun : ¬ Obligations.StartUpEventsRun := by
  unfold Obligations.StartUpEventsRun
  rintro ⟨-, hfailed, -⟩
  have hdue : booting servedSelfTest 2 = true := by decide
  obtain ⟨t, ht, hstops⟩ := exec_rotSelfTest_failed_service hdue
  have hclause := Host.Outcome.next.inj (ht.symm.trans (hfailed servedSelfTest _ hdue rfl))
  have hruns : t.fc.service = true := by rw [hclause]; exact noteTimeref_service _
  exact absurd (hstops.symm.trans hruns) (by decide)

end Sys2Proof.Machine
end

section
/-!
The descriptors of the array unit (spec/03_rod_array.md R48 to R62, R86 to R90). `onUnit_runs` opens the wrapper that the
descriptors of all four units share; what is left of a row is its own checks, in the model's order: service and fields, replay pass,
range.
-/

namespace Sys2Proof.Machine

/-- A descriptor that may start runs its body in the state `s` that its read of the rod store leaves (R74, R166). -/
theorem onUnit_runs {s0 s : State} {n u op : Nat} {r : Run} {f : Flight} {e : Option Upset} (h : unitRuns s0 n u op r f = true)
    (hu : upsetOk e = true ∧ afterUpset n e s0 = s) (body : Run → Flight → State → State) :
    onUnit s0 n u op e body = body r f s := by
  obtain ⟨hok, rfl⟩ := hu
  exact onUnit_of h hok body

/-- Settles O9, row by row: the hypotheses of a clause say that none of the row's halts applies. -/
theorem arrayDescriptorsRun : Obligations.ArrayDescriptorsRun := by
  unfold Obligations.ArrayDescriptorsRun
  refine ⟨?bankLoad, ?loadw, ?mma, ?swap, ?drain, ?mmv⟩
  case bankLoad =>
    intro rod e s0 s r f h hu hreplay
    show execBankLoad rod e s0 = _
    rw [execBankLoad, onUnit_runs h hu, if_neg (ne_true_of_eq_false hreplay)]
  case loadw =>
    intro rod e s0 s r f h hu hbad hreplay hrange
    show execLoadw rod e s0 = _
    rw [execLoadw, onUnit_runs h hu]
    simp only [hbad, hreplay, hrange, Bool.false_eq_true, if_false]
  case mma =>
    intro rod e s0 s r f h hu hservice hreplay
    show execMma rod e s0 = _
    rw [execMma, onUnit_runs h hu]
    simp only [hservice, hreplay, Bool.false_eq_true, if_false]
  case swap =>
    intro rod e s0 s r f h hu
    show execSwap rod e s0 = _
    rw [execSwap, onUnit_runs h hu]
  case drain =>
    rintro rod e s0 s r r' f h hu ⟨hbad, hrange⟩ hwiden
    show execDrain rod e s0 = _
    rw [execDrain, onUnit_runs h hu]
    simp only [hbad, hrange, hwiden, Bool.false_eq_true, if_false]
  case mmv =>
    intro rod e s0 s r f h hu hreplay
    show execMmv rod e s0 = _
    rw [execMmv, onUnit_runs h hu]
    simp only [hreplay, Bool.false_eq_true, if_false]

end Sys2Proof.Machine
end

section
/-!
The control descriptors of the sequencer (spec/04_tile_programs.md R102 to R112) and the comparison of the weathervane
(spec/05_numerics.md R136, R137). `onCtl_of` opens the wrapper that the control descriptors share; a body that branches again has
here one lemma for each end that a clause of O7 names.
-/

namespace Sys2Proof.Machine

section
variable {s : State} {rod : Fin 64} {r : Run} {f : Flight} {b : Bracket}

/-- A bracket that needs no replay pass, or has had it, closes once every signal that it held is out (R103, R107). -/
theorem execLayerEnd_closes (h : ctlRuns s rod 0x19 r f = true) (hb : r.bracket = some b)
    (hready : b.replay = false ∨ (r.idle = true ∧ (b.marked = false ∨ b.second = true))) (hsent : (sendHeld r.l b.held s).1 = []) :
    execLayerEnd rod s = .next (ctlDone rod (fun r =>
      { r with bracket := none, wide := [], replays := if b.second then satAdd 16 r.replays 1 else r.replays })
      (sendHeld r.l b.held s).2) := by
  have hwaits : (b.replay && !r.idle) = false := by
    rcases hready with h | ⟨h, -⟩ <;> simp [h]
  have hrewinds : (b.replay && b.marked && !b.second) = false := by
    rcases hready with h | ⟨-, h | h⟩ <;> simp [h]
  rw [execLayerEnd, onCtl_of h]
  simp only [hb, hwaits, hrewinds, hsent, List.isEmpty_nil, Bool.false_eq_true, if_false, if_true]

/-- A marked bracket of a replay scope rewinds to its start at its first end, and logs a REPLAY_RUN record (R104, R127). -/
theorem execLayerEnd_rewinds (h : ctlRuns s rod 0x19 r f = true) (hb : r.bracket = some b) (hreplay : b.replay = true)
    (hidle : r.idle = true) (hmarked : b.marked = true) (hsecond : b.second = false) :
    execLayerEnd rod s = .next (logEvents (rodPart s rod) b.layer (tagOf f.word) r.l.ctx rod false
      [{ kind := kReplayRun, count := 1, first := Config.freeValue s.free % 2 ^ 32,
         value := BitVec.ofNat 32 (Config.freeValue (s.free + 1)) }]
      (ctlDone rod (fun r => { r with bracket := some { b with second := true, held := [] }, buf := [], next := b.back,
                                      events := satAdd 32 r.events 1 }) { s with free := s.free + 2 })) := by
  rw [execLayerEnd, onCtl_of h]
  simp only [hb, hreplay, hidle, hmarked, hsecond, Bool.not_true, Bool.not_false, Bool.and_self, Bool.and_false, Bool.false_eq_true,
    if_false, if_true]
  rfl

/-- A SIGNAL outside a replay scope is sent at once, and completes where the table has room (R107). -/
theorem execSignalCtr_sent (h : ctlRuns s rod 0x21 r f = true) (hb : r.bracket = none ∨ r.bracket.any (fun b => !b.replay) = true)
    (hsent : (sendSignal r.l (fld f.word 255 250) (fld f.word 249 246) (fld f.word 245 230) s).1 = true) :
    execSignalCtr rod s =
      .next (ctlDone rod id (sendSignal r.l (fld f.word 255 250) (fld f.word 249 246) (fld f.word 245 230) s).2) := by
  rw [execSignalCtr, onCtl_of h]
  cases hbr : r.bracket with
  | none => simp only [signalNow, hsent, if_true]
  | some b =>
    have hopen : b.replay = false := by simpa [hbr] using hb
    simp only [hopen, signalNow, hsent, Bool.false_eq_true, if_false, if_true]

/-- An END whose AFTER mask holds ends the program with reason 0, once every unit has completed (R112). -/
theorem execEndProgram_end (h : ctlRuns s rod 0x3F r f = true) (hidle : r.idle = true) :
    execEndProgram rod s = .next (endRun rod 0 f.va f.word r s) := by
  simp only [ctlRuns, Bool.and_eq_true, decide_eq_true_eq, Bool.not_eq_true', Option.isNone_iff_eq_none] at h
  obtain ⟨⟨⟨⟨⟨hcore, hrun⟩, hctl⟩, hhalt⟩, hop⟩, hafter⟩ := h
  simp [execEndProgram, hcore, hrun, hidle, hhalt, hctl, hop, hafter]

/-- A halted program ends with the reason and the descriptor of its halt (R112). -/
theorem execEndProgram_halted {h : Nat × Nat × BitVec 256} (hcore : coreHalted s = false) (hrun : (rodGet s rod).run = some r)
    (hhalt : r.halt = some h) (hidle : r.idle = true) : execEndProgram rod s = .next (endRun rod h.1 h.2.1 h.2.2 r s) := by
  simp [execEndProgram, hcore, hrun, hidle, hhalt]

end

/-! ### The comparison of the weathervane (R136, R137) -/

/-- ρ of a sample reaches its partition's threshold, or is not finite (R137). -/
def wvOver (s : State) (x : Sample) : Bool :=
  (wvNorms x.d x.r).all (fun n => (n.2 = 0 && n.1 ≠ 0) || ratioGe n (mapGet 6 s.dev.wvThresh x.part))

/-- The oldest sample of a weathervane has been counted: in its bin and in the number of samples (T5.12). -/
def wvCounted (frame : Nat) (x : Sample) (l : List Sample) (s : State) : State :=
  wvMod frame (fun y => { y with
    queue := l
    hist := mapMod 0 (mapMod 0 y.hist (32 * x.part + wvBin (wvNorms x.d x.r)) (satAdd 32 · 1)) (32 * x.part + 23) (satAdd 32 · 1) }) s

/-- WV_COMPARE counts the oldest sample, and where ρ is over the threshold logs DRIFT and raises its source (R136, R137). -/
theorem execWvCompare_sample {s : State} {frame : Fin 4} {x : Sample} {l : List Sample} (hcore : coreHalted s = false)
    (hq : (wvGet s frame).queue = x :: l) :
    execWvCompare frame s = .next
      (if wvOver s x then
        raise (srcDrift + x.rod) 0 (fieldAt x.ctx 8 16 + x.tag % 65536)
          (logRecord x.part (numRecord (wvCounted frame x l s) x.step x.layer x.tag x.ctx (68 + frame) x.second
            { kind := kDrift, count := 1, first := 0, value := wvRatio (wvNorms x.d x.r) }) (wvCounted frame x l s))
      else wvCounted frame x l s) := by
  rw [execWvCompare, if_neg (ne_true_of_eq_false hcore)]
  simp only [hq]
  refine congrArg _ (if_congr ?_ rfl rfl)
  rw [wvOver]
  cases wvNorms x.d x.r <;> rfl

/-- Settles O7: each descriptor under an AFTER mask that holds takes the branch that the hypotheses of its clause name. -/
theorem controlDescriptorsRun : Obligations.ControlDescriptorsRun := by
  unfold Obligations.ControlDescriptorsRun
  refine ⟨?layerBegin, ?closes, ?rewinds, ?check, ?arrived, ?replayed, ?waits, ?sent, ?held, ?barrier, ?timeout, ?hint, ?phase,
    ?ends, ?halted, ?steady, ?drift⟩
  case layerBegin =>
    intro rod s r f h
    exact congrArg _ (onCtl_of h _)
  case closes =>
    rintro rod s r f b h ⟨hb, hready⟩ hsent
    exact execLayerEnd_closes h hb hready hsent
  case rewinds =>
    rintro rod s r f b h ⟨hb, hreplay, hidle, hmarked, hsecond⟩
    exact execLayerEnd_rewinds h hb hreplay hidle hmarked hsecond
  case check =>
    intro rod s r f h
    exact congrArg _ (onCtl_of h _)
  case arrived =>
    rintro rod s r f h ⟨hreplaying, hcount⟩
    show execWaitCtr rod s = _
    rw [execWaitCtr, onCtl_of h, if_neg (ne_true_of_eq_false hreplaying), if_pos hcount]
  case replayed =>
    intro rod s r f h hreplaying
    show execWaitCtr rod s = _
    rw [execWaitCtr, onCtl_of h, if_pos hreplaying]
  case waits =>
    rintro rod s r f h ⟨hreplaying, hcount, hfirst⟩
    show execWaitCtr rod s = _
    rw [execWaitCtr, onCtl_of h, if_neg (ne_true_of_eq_false hreplaying), if_neg (Nat.not_le.mpr hcount), if_neg (by simp [hfirst])]
  case sent =>
    intro rod s r f h hb hsent
    exact execSignalCtr_sent h hb hsent
  case held =>
    rintro rod s r f b h ⟨hb, hreplay⟩
    show execSignalCtr rod s = _
    rw [execSignalCtr, onCtl_of h]
    simp only [hb, hreplay, if_true]
  case barrier =>
    rintro rod s r f l h ⟨hidle, hnew⟩ huse
    show execRodBarrier rod s = _
    rw [execRodBarrier, onCtl_of h, if_neg (by simp [hidle, hnew])]
    simp only [huse, stratumMod_clk]
  case timeout =>
    rintro rod s r t f hcore ⟨hrun, hwaiting, hctl, hnew, hsecond⟩
    show execSyncTimeout rod s = _
    simp [execSyncTimeout, hcore, hrun, hwaiting, hctl, hnew, hsecond]
  case hint =>
    intro rod s r f h
    exact congrArg _ (onCtl_of h _)
  case phase =>
    intro rod s r f h
    exact congrArg _ (onCtl_of h _)
  case ends =>
    intro rod s r f h hidle
    exact execEndProgram_end h hidle
  case halted =>
    rintro rod s r h hcore ⟨hrun, hhalt, hidle⟩
    exact execEndProgram_halted hcore hrun hhalt hidle
  case steady =>
    intro frame s x l hcore hq hunder
    have hover : wvOver s x = false := by
      cases hn : wvNorms x.d x.r with
      | none => simp [hn] at hunder
      | some n => simpa [wvOver, hn, imp_iff_not_or] using hunder
    exact (execWvCompare_sample hcore hq).trans (congrArg _ (if_neg (ne_true_of_eq_false hover)))
  case drift =>
    intro frame s x l hcore hq hover
    exact (execWvCompare_sample hcore hq).trans (congrArg _ (if_pos hover))

end Sys2Proof.Machine
end

section
/-!
The descriptors of the move unit (spec/04_tile_programs.md R81 to R84). The rows of a descriptor are one fold of its row function,
and `endMove` says what becomes of the result. A STORE asks first whether a row of it lies in the gradient region (R234).
-/

namespace Sys2Proof.Machine

/-- A MOVE descriptor whose rows neither halted nor met an absent page is settled (R82, R153). -/
theorem endMove_settled {m : MoveAcc} (hhalt : m.halt = none) (hwait : m.wait = false) (rod : Nat) (f : Flight) (marks : Bool)
    (s : State) : endMove rod f marks s m = settle rod 0 f m.tally marks m.draws m.s := by
  simp only [endMove, hhalt, hwait, Bool.false_eq_true, if_false]

/-- Settles O8, row by row: no replay pass refuses the descriptor, and its rows are settled or, where they lie in G, queued. -/
theorem moveDescriptorsRun : Obligations.MoveDescriptorsRun := by
  unfold Obligations.MoveDescriptorsRun
  refine ⟨?load, ?gather, ?store, ?landings, ?scatter⟩
  case load =>
    rintro rod e s0 s r f m h hu hreplay ⟨hm, hhalt, hwait⟩
    show execLoadTile rod e s0 = _
    rw [execLoadTile, onUnit_runs h hu, if_neg (ne_true_of_eq_false hreplay), hm, endMove_settled hhalt hwait]
  case gather =>
    rintro rod e s0 s r f m h hu hreplay ⟨hm, hhalt, hwait⟩
    show execGather rod e s0 = _
    rw [execGather, onUnit_runs h hu, if_neg (ne_true_of_eq_false hreplay), hm, endMove_settled hhalt hwait]
  case store =>
    rintro rod e s0 s r f m h hu hmemory ⟨hm, hhalt, hwait⟩
    show execStoreTile rod e s0 = _
    rw [execStoreTile, onUnit_runs h hu, if_neg (ne_true_of_eq_false hmemory), hm, endMove_settled hhalt hwait]
  case landings =>
    rintro rod e s0 s r f h hu hresident hgradient ⟨hbracket, hlands⟩
    show execStoreTile rod e s0 = _
    rw [execStoreTile, onUnit_runs h hu, if_pos hgradient]
    refine congrArg _ ((if_neg ?noReplay).trans ((if_neg ?lands).trans (if_neg (ne_true_of_eq_false hresident))))
    case noReplay =>
      cases hb : r.bracket with
      | none => exact Bool.false_ne_true
      | some b => simpa [hb] using hbracket
    case lands => rw [hlands]; exact Bool.false_ne_true
  case scatter =>
    rintro rod e s0 s r f m _ h hu rfl ⟨hm, hhalt, hwait⟩
    show execScatter rod e s0 = _
    rw [execScatter, onUnit_runs h hu]
    simp only [hm, endMove_settled hhalt hwait]

end Sys2Proof.Machine
end

section
/-!
The descriptors of the vector unit and the index engine (spec/04_tile_programs.md R93 to R101). VEC and REDUCE check that their
output lies in the rod store (R80) and that a replay pass can record it as widened (R129), SORT and SETPROBE that no operand starts
in a widened range (R128), SETINS each address of its key list; what is left is the result and `settle`.
-/

namespace Sys2Proof.Machine

/-- Settles O10, row by row: the hypotheses of a clause say that none of the row's halts applies. -/
theorem vectorAndIndexDescriptorsRun : Obligations.VectorAndIndexDescriptorsRun := by
  unfold Obligations.VectorAndIndexDescriptorsRun
  refine ⟨?vec, ?reduce, ?sort, ?setins, ?setprobe⟩
  case vec =>
    intro rod e s0 s r r' f h hu hrange hwiden
    show execVec rod e s0 = _
    rw [execVec, onUnit_runs h hu]
    simp only [hrange, hwiden, Bool.not_true, Bool.false_eq_true, if_false, Bool.and_eq_true, decide_eq_true_eq]
  case reduce =>
    rintro rod e s0 s r r' f _ h hu hrange hwiden ⟨rfl, hbad⟩
    show execReduce rod e s0 = _
    rw [execReduce, onUnit_runs h hu]
    simp only [hrange, hwiden, hbad, Bool.not_true, Bool.false_eq_true, if_false]
  case sort =>
    intro rod e s0 s r f out n h hu hreplay hout
    show execSortKeys rod e s0 = _
    rw [execSortKeys, onUnit_runs h hu]
    simp only [hreplay, hout, Bool.false_eq_true, if_false]
  case setins =>
    intro rod e s0 s r f h hu hlist
    show execSetins rod e s0 = _
    rw [execSetins, onUnit_runs h hu]
    simp only [hlist, Bool.false_eq_true, if_false]
  case setprobe =>
    intro rod e s0 s r f h hu hreplay
    show execSetprobe rod e s0 = _
    rw [execSetprobe, onUnit_runs h hu, if_neg (ne_true_of_eq_false hreplay)]

end Sys2Proof.Machine
end

section
/-!
The settings of the weathervanes (spec/05_numerics.md R138, T5.13). `WV_LOG2` and `WV_THRESH` are one row, `setPartition`, over two
maps from partitions to numbers, each with its default and its range.
-/

namespace Sys2Proof.Machine

/-! ### The end of a command leaves the device settings (R348) -/

theorem ends_finish (c : Cmd) (status : Nat) (result : Bytes) (s : State) : Ends s (finish c status result s) := by
  unfold finish
  refine ends_ite _ (ends_mk ..) ?_
  exact ends_trans (ends_setSlot ..) (ends_trans (ends_ringMod ..) (ends_trans (ends_holdRecord ..) (ends_resumeIntake _)))

@[simp] theorem finish_dev (c : Cmd) (status : Nat) (result : Bytes) (s : State) : (finish c status result s).dev = s.dev := by
  rw [ends_finish c status result s, endsOf]

@[simp] theorem setDone_dev (c : Cmd) (old : Nat) (s : State) : (setDone c old s).dev = s.dev := finish_dev ..

/-! ### One setting of each partition -/

/-- The setting `i` of a map `m` with default `d` takes the value `v` from `lo` to `hi`; `put` replaces the map. -/
def setPartition (d lo hi : Nat) (m : FMap Nat) (put : FMap Nat → State) (i v : Nat) (c : Cmd) (s : State) : State :=
  if 8 ≤ i || v < lo || hi < v then refuse c stParam s else setDone c (mapGet d m i) (put (mapSet d m i v))

/-- The state with another map of WV_LOG2. -/
def withWvLog2 (s : State) (m : FMap Nat) : State := { s with dev := { s.dev with wvLog2 := m } }

/-- The state with another map of WV_THRESH. -/
def withWvThresh (s : State) (m : FMap Nat) : State := { s with dev := { s.dev with wvThresh := m } }

section
variable {q : Fin 512} {seq : Nat} {s : State} {c : Cmd}

theorem exec_setParamWvLog2 (h : paramRuns s q seq 0x41 c = true) :
    exec (.setParamWvLog2 q seq) s = .next (setPartition 8 4 16 s.dev.wvLog2 (withWvLog2 s) (c.p 4 4) (c.p 8 8) c s) :=
  congrArg _ (setParam_of h _)

theorem exec_setParamWvThresh (h : paramRuns s q seq 0x42 c = true) :
    exec (.setParamWvThresh q seq) s = .next (setPartition 6 1 24 s.dev.wvThresh (withWvThresh s) (c.p 4 4) (c.p 8 8) c s) :=
  congrArg _ (setParam_of h _)

end

section
variable {d lo hi i v : Nat} {m : FMap Nat} {put : FMap Nat → State} {c : Cmd} {s : State}

theorem setPartition_refused (h : 8 ≤ i ∨ v < lo ∨ hi < v) : setPartition d lo hi m put i v c s = finish c stParam [] s :=
  if_pos (by simpa [or_assoc] using h)

theorem setPartition_taken (hpart : i < 8) (hlo : lo ≤ v) (hhi : v ≤ hi) :
    setPartition d lo hi m put i v c s = setDone c (mapGet d m i) (put (mapSet d m i v)) :=
  if_neg (by simp [hpart, hlo, hhi])

/-- Only the partition that the command names has another setting afterwards. -/
theorem mapGet_mapSet_only (h : mapWf d m = true) :
    mapGet d (mapSet d m i v) i = v ∧ ∀ p, p ≠ i → mapGet d (mapSet d m i v) p = mapGet d m p :=
  ⟨mapGet_set_self i v h, fun _ hp => mapGet_set_ne d m v hp⟩

end

/-- Settles O54: a value in its range is written to the map of its setting and survives the end of the command; any other is
refused. -/
theorem weathervaneSettings : Obligations.WeathervaneSettings := by
  unfold Obligations.WeathervaneSettings
  refine ⟨?defaults, ?log2Refused, ?threshRefused, ?log2Taken, ?threshTaken⟩
  case defaults => exact fun p => ⟨rfl, rfl⟩
  case log2Refused =>
    intro q seq s c h hbad
    rw [exec_setParamWvLog2 h, setPartition_refused hbad]
  case threshRefused =>
    intro q seq s c h hbad
    rw [exec_setParamWvThresh h, setPartition_refused hbad]
  case log2Taken =>
    intro q seq s c h hwf hp hlo hhi
    refine ⟨_, exec_setParamWvLog2 h, ?_⟩
    rw [setPartition_taken hp hlo hhi, setDone_dev]
    exact mapGet_mapSet_only hwf
  case threshTaken =>
    intro q seq s c h hwf hp hlo hhi
    refine ⟨_, exec_setParamWvThresh h, ?_⟩
    rw [setPartition_taken hp hlo hhi, setDone_dev]
    exact mapGet_mapSet_only hwf

end Sys2Proof.Machine
end

section
/-!
Elements of the narrow formats written back (spec/05_numerics.md R116, R118, R122, T5.1). A pattern is its sign, its exponent field
`E` and its fraction (`pattern_split`); it decodes to the significand `2 ^ k + fraction` of `k + 1` bits, which the encoder keeps whole:
no bit is discarded, so no draw counts (`srMag_exact`).
-/

namespace Sys2Proof.Machine

/-! ### The fields of a pattern -/

theorem bitsOf_lt (v hi lo : Nat) : bitsOf v hi lo < 2 ^ (hi + 1 - lo) := Nat.mod_lt _ (Nat.two_pow_pos _)

/-- What a sign adds to a pattern: the sign bit, where the format has one. -/
def signPat : Option Nat → Bool → Nat
  | some b, true => 2 ^ b
  | _, _ => 0

/-- The bits below the sign are the exponent field of `j` bits and the fraction of `k` bits. -/
theorem field_fraction_split (v j k : Nat) : bitsOf v (j + k) k * 2 ^ k + v % 2 ^ k = v % 2 ^ (j + 1 + k) := by
  have hj : j + k + 1 - k = j + 1 := by omega
  rw [bitsOf, hj, Nat.add_comm (j + 1) k, pow_add 2 k (j + 1), Nat.mod_mul, Nat.mul_comm, Nat.add_comm]

theorem signPat_none (n : Bool) : signPat none n = 0 := rfl

theorem signPat_some (b : Nat) (n : Bool) : signPat (some b) n = 2 ^ b * n.toNat := by
  cases n <;> simp [signPat]

/-- A pattern is its sign bit and the bits below it. -/
theorem sign_split {v b : Nat} (h : v < 2 ^ (b + 1)) : signPat (some b) (bitOf v b) + v % 2 ^ b = v := by
  have hbit : bitOf v b = v.testBit b := Nat.testBit_eq_decide_div_mod_eq.symm
  rw [hbit, signPat_some, Nat.toNat_testBit, Nat.add_comm, ← Nat.mod_pow_succ, Nat.mod_eq_of_lt h]

/-- A pattern of a format with a sign is its sign, exponent field and fraction. -/
theorem pattern_split {v : Nat} (j k : Nat) (h : v < 2 ^ (j + 1 + k + 1)) :
    signPat (some (j + 1 + k)) (bitOf v (j + 1 + k)) + (bitsOf v (j + k) k * 2 ^ k + v % 2 ^ k) = v := by
  rw [field_fraction_split, sign_split h]

/-! ### The encoder where nothing is discarded -/

theorem topExp_significand {k a : Nat} (ha : a < 2 ^ k) (e : Int) : topExp (2 ^ k + a) e = e + k := by
  have hlog : Nat.log2 (2 ^ k + a) = k :=
    (Nat.log2_eq_iff (by have := Nat.two_pow_pos k; omega)).mpr ⟨Nat.le_add_right _ _, by rw [pow_succ]; omega⟩
  rw [topExp, hlog]

/-- A significand of as many bits as the format holds is kept, whatever the draw (R122). -/
theorem srMag_exact {f : NFmt} {k a : Nat} (hp : f.p = k + 1) (ha : a < 2 ^ k) (E r : Nat) :
    srMag f (2 ^ k + a) ((E : Int) + f.emin - 1 - k) r = E * 2 ^ k + a := by
  have hfield : ((E : Int) + f.emin - 1 - f.emin + 1).toNat = E := by omega
  simp [srMag, topExp_significand ha, hp, hfield]

theorem magLe_of_le {m m' : Nat} {e e' : Int} (hm : m ≤ m') (he : e ≤ e') : magLe m e m' e' = true := by
  simp only [magLe, min_eq_left he, sub_self, Int.toNat_zero, pow_zero, mul_one, decide_eq_true_eq]
  exact hm.trans (Nat.le_mul_of_pos_right _ (Nat.two_pow_pos _))

theorem encNarrow_zero (f : NFmt) (sb : Option Nat) (ieee : Bool) (r : Nat) (n : Bool) :
    encNarrow f sb ieee r (.zero n) = { bits := signPat sb n } := by
  cases sb <;> cases n <;> rfl

/-- A finite value that the format's sign and range can hold keeps its sign and has its magnitude rounded (R118). -/
theorem encNarrow_inRange {f : NFmt} {sb : Option Nat} {n : Bool} {m : Nat} {e : Int} (ieee : Bool) (r : Nat)
    (hs : sb.isSome = true ∨ n = false) (hmax : magLe m e f.maxM f.maxE = true) (hmin : f.emin ≤ topExp m e) :
    encNarrow f sb ieee r (.fin n m e) = { bits := signPat sb n + srMag f m e r } := by
  have hsign : (sb.isNone && n) = false := by
    cases sb with
    | none => simpa using hs
    | some b => rfl
  have hflush : ¬ topExp m e < f.emin := Int.not_lt.mpr hmin
  simp only [encNarrow, hsign, hmax, hflush, Bool.not_true, Bool.false_eq_true, if_false]
  cases sb <;> cases n <;> rfl

/-- The normal value with exponent field `E` and fraction `a` is written as that field and that fraction. -/
theorem encNarrow_normal {f : NFmt} {sb : Option Nat} {n : Bool} {k a E : Nat} (ieee : Bool) (r : Nat) (hp : f.p = k + 1)
    (hM : f.maxM + 1 = 2 ^ (k + 1)) (hs : sb.isSome = true ∨ n = false) (ha : a < 2 ^ k) (h0 : E ≠ 0)
    (hE : (E : Int) + f.emin - 1 - k ≤ f.maxE) :
    encNarrow f sb ieee r (.fin n (2 ^ k + a) ((E : Int) + f.emin - 1 - k)) = { bits := signPat sb n + (E * 2 ^ k + a) } := by
  have hmag : magLe (2 ^ k + a) ((E : Int) + f.emin - 1 - k) f.maxM f.maxE = true :=
    magLe_of_le (by rw [pow_succ] at hM; omega) hE
  have htop : f.emin ≤ topExp (2 ^ k + a) ((E : Int) + f.emin - 1 - k) := by
    rw [topExp_significand ha]
    omega
  rw [encNarrow_inRange ieee r hs hmag htop, srMag_exact hp ha]

/-! ### The decoders (T5.1) -/

theorem decM8_zero {w : Byte} (h : bitsOf w.toNat 6 3 = 0) : decM8 w = .zero (bitOf w.toNat 7) := if_pos h

theorem decM8_normal {w : Byte} (h : bitsOf w.toNat 6 3 ≠ 0) :
    decM8 w = .fin (bitOf w.toNat 7) (2 ^ 3 + w.toNat % 2 ^ 3) ((bitsOf w.toNat 6 3 : Int) + nfM8.emin - 1 - (3 : Nat)) := by
  refine (if_neg h).trans (congrArg _ ?_)
  simp only [nfM8]
  omega

theorem decU8_zero {w : Byte} (h : bitsOf w.toNat 7 3 = 0) : decU8 w = .zero false := if_pos h

theorem decU8_normal {w : Byte} (h : bitsOf w.toNat 7 3 ≠ 0) :
    decU8 w = .fin false (2 ^ 3 + w.toNat % 2 ^ 3) ((bitsOf w.toNat 7 3 : Int) + nfU8.emin - 1 - (3 : Nat)) := by
  refine (if_neg h).trans (congrArg _ ?_)
  simp only [nfU8]
  omega

theorem dec16_zero {w : BitVec 16} (h : bitsOf w.toNat 14 10 = 0) (hm : w.toNat % 2 ^ 10 = 0) :
    dec16 w = .zero (bitOf w.toNat 15) := by
  have hinf : bitsOf w.toNat 14 10 ≠ 31 := by omega
  exact (if_neg hinf).trans ((if_pos h).trans (if_pos hm))

theorem dec16_normal {w : BitVec 16} (hinf : bitsOf w.toNat 14 10 ≠ 31) (h : bitsOf w.toNat 14 10 ≠ 0) :
    dec16 w = .fin (bitOf w.toNat 15) (2 ^ 10 + w.toNat % 2 ^ 10) ((bitsOf w.toNat 14 10 : Int) + nf16.emin - 1 - (10 : Nat)) := by
  refine ((if_neg hinf).trans (if_neg h)).trans (congrArg _ ?_)
  simp only [nf16, Nat.reduceAdd, Nat.reduceSub]
  omega

/-! ### Decoded and encoded again -/

theorem encNarrow_decM8 (w : Byte) (r : Nat) (h : bitsOf w.toNat 6 3 ≠ 0 ∨ w.toNat % 2 ^ 3 = 0) :
    encNarrow nfM8 (some 7) false r (decM8 w) = { bits := w.toNat } := by
  have hw : signPat (some 7) (bitOf w.toNat 7) + (bitsOf w.toNat 6 3 * 2 ^ 3 + w.toNat % 2 ^ 3) = w.toNat :=
    pattern_split 3 3 w.isLt
  by_cases h0 : bitsOf w.toNat 6 3 = 0
  · have ha : w.toNat % 2 ^ 3 = 0 := h.resolve_left (not_not_intro h0)
    rw [h0, ha, Nat.zero_mul, Nat.add_zero] at hw
    rw [decM8_zero h0, encNarrow_zero, hw]
  · have hE := bitsOf_lt w.toNat 6 3
    rw [decM8_normal h0, encNarrow_normal (f := nfM8) false r rfl rfl (.inl rfl) (Nat.mod_lt _ (by decide)) h0
      (by simp only [nfM8]; omega), hw]

theorem encNarrow_decU8 (w : Byte) (r : Nat) (h : bitsOf w.toNat 7 3 ≠ 0 ∨ w = 0#8) :
    encNarrow nfU8 none false r (decU8 w) = { bits := w.toNat } := by
  by_cases h0 : bitsOf w.toNat 7 3 = 0
  · obtain rfl : w = 0#8 := h.resolve_left (not_not_intro h0)
    rw [decU8_zero h0, encNarrow_zero]
    rfl
  · have hE := bitsOf_lt w.toNat 7 3
    have hw : bitsOf w.toNat 7 3 * 2 ^ 3 + w.toNat % 2 ^ 3 = w.toNat :=
      (field_fraction_split w.toNat 4 3).trans (Nat.mod_eq_of_lt w.isLt)
    rw [decU8_normal h0, encNarrow_normal (f := nfU8) false r rfl rfl (.inr rfl) (Nat.mod_lt _ (by decide)) h0
      (by simp only [nfU8]; omega), hw, signPat_none, Nat.zero_add]

theorem enc16_dec16 (w : BitVec 16) (r : Nat) (hinf : bitsOf w.toNat 14 10 ≠ 31) (hsub : isSub 5 10 w.toNat = false) :
    enc16 r (dec16 w) = { bits := w.toNat } := by
  have hw : signPat (some 15) (bitOf w.toNat 15) + (bitsOf w.toNat 14 10 * 2 ^ 10 + w.toNat % 2 ^ 10) = w.toNat :=
    pattern_split 4 10 w.isLt
  by_cases h0 : bitsOf w.toNat 14 10 = 0
  · have ha : w.toNat % 2 ^ 10 = 0 := by simpa [isSub, h0] using hsub
    rw [h0, ha, Nat.zero_mul, Nat.add_zero] at hw
    rw [dec16_zero h0 ha, enc16, encNarrow_zero, hw]
  · have hE := bitsOf_lt w.toNat 14 10
    rw [dec16_normal hinf h0, enc16, encNarrow_normal (f := nf16) true r rfl rfl (.inl rfl) (Nat.mod_lt _ (by decide)) h0
      (by simp only [nf16]; omega), hw]

/-- Settles O60: a zero keeps its sign, and a normal value has a significand that the format holds whole. -/
theorem narrowFormatsRoundTrip : Obligations.NarrowFormatsRoundTrip := by
  unfold Obligations.NarrowFormatsRoundTrip
  refine ⟨fun w r h => encNarrow_decM8 w r ?_, encNarrow_decU8, enc16_dec16⟩
  simpa [bitsOf] using h

end Sys2Proof.Machine
end

section
/-!
Errors of the rod store that are not corrected (spec/06_near_memory.md R166; spec/04_tile_programs.md R112). All descriptors of the
four units start through `onUnit`, which looks at the error before it runs the row's body: `exec_upset` says so for any of them.
-/

namespace Sys2Proof.Machine

/-- A row that starts through `onUnit` halts its program at an error that is not corrected, whatever its body. -/
theorem exec_upset {i : Instr} {s : State} {n u op : Nat} {r : Run} {f : Flight} {x : Upset} {body : Run → Flight → State → State}
    (hx : x.fixed = false) (hi : exec i s = .next (onUnit s n u op (some x) body)) (h : unitRuns s n u op r f = true) :
    exec i s = .next (haltRod n hUnavailable f.va f.word (raise (srcRsUe + n) 0 x.addr s)) := by
  rw [hi, onUnit_upset h hx]

/-- Settles O11: each of the fifteen rows is a call of `onUnit` with its unit and opcode. -/
theorem rodStoreErrorHalts : Obligations.RodStoreErrorHalts := by
  unfold Obligations.RodStoreErrorHalts
  intro rod x s r f hx
  refine ⟨?loadTile, ?gather, ?storeTile, ?scatter, ?bankLoad, ?loadw, ?mma, ?swap, ?drain, ?mmv, ?vec, ?reduce, ?sortKeys, ?setins,
    ?setprobe⟩
  all_goals exact exec_upset hx rfl

end Sys2Proof.Machine
end

section
/-!
The tier engine's requests and the recovery of tiles (spec/07_deep_tier.md R192 to R203). `demandPage_fetches` and
`demandPage_givenUp` say what a demand for an absent page does, `execCodewordRead_taken` what a codeword that may be read does.
-/

namespace Sys2Proof.Machine

/-! ### Demand for a page (R153, R196, R200, R203) -/

section
variable {s t : State} {c o p : Nat}

/-- A demand is counted once for its page, and asks for it in the tier of its object. -/
theorem demandPage_fetches (hkept : pageGivenUp o p s = false)
    (ht : t = (if s.deep.moves.any (fun m => m.object = o && m.page = p && m.cause = 0) then s else dcUp (dcCtx c 0) 1 s))
    (rod tile : Option Nat) :
    demandPage c o p rod s tile = pump (askMove o p (fetchTier (objGet t o)) 0 c rod tile t) := by
  rw [ht]
  exact if_neg (ne_true_of_eq_false hkept)

/-- Where no source of a poisoned tile is left, the rod that waits for the page halts. -/
theorem demandPage_givenUp (hlost : pageGivenUp o p s = true) (n : Nat) (tile : Option Nat) :
    demandPage c o p (some n) s tile = haltWaiting n s := if_pos hlost

/-- A miss on a page in the deep tier demands it. -/
theorem execTierMiss_deep {ctx : Fin 256} {va : Nat} (hs : s.dev.safe = false) (hx : translate s ctx va false = .deep o p)
    (rod : Option (Fin 64)) :
    execTierMiss ctx va rod s = .next (demandPage ctx o p (rod.map (·.val)) s (some (va % pageBytes / tileBytes))) := by
  simp only [execTierMiss, hs, hx, Bool.false_eq_true, if_false]

end

/-! ### Codewords (R176, R196, R202) -/

/-- The page's move notes a codeword as read. -/
def gotCodeword (object page : Nat) (tile : Fin 32) (word : Fin 16) (s : State) : State :=
  moveMod object page (fun m => { m with got := m.got ||| BitVec.ofNat 512 (2 ^ (16 * tile.val + word.val)) }) s

/-- A codeword that a move may read now is counted with its outcome, which is uncorrectable where its stripe has lost two dies, and
noted; the sources of an uncorrectable tile are asked. -/
theorem execCodewordRead_taken {object page : Nat} {tile : Fin 32} {word : Fin 16} {l : TileLoc} {outcome found : CwOutcome} {s : State}
    (hf : flashRuns s = true) (hmap : mapFind s.deep.map (tileKey object page tile) = some l)
    (hturn : s.deep.moves.any (fun m => m.object = object && m.page = page && otherFirst m tile) = false)
    (hfound : (if hopeless s (tileKey object page tile) then .uncorrectable else outcome) = found) :
    execCodewordRead object page tile word outcome s =
      .next (if found = .uncorrectable
        then pump (tileUncorrectable object page tile
          (gotCodeword object page tile word (noteRead l.block (tileKey object page tile) found s)))
        else gotCodeword object page tile word (noteRead l.block (tileKey object page tile) found s)) := by
  simp only [execCodewordRead, gotCodeword, hf, hmap, hturn, hfound, Bool.not_true, Bool.false_eq_true, if_false]

/-! ### The statement -/

/-- Settles O14, row by row: the trigger of a clause passes the row's checks, and what is left is its effect. -/
theorem tierEngineCommandsRun : Obligations.TierEngineCommandsRun := by
  unfold Obligations.TierEngineCommandsRun
  refine ⟨?arrival, ?miss, ?missLost, ?hint, ?hintDropped, ?starvation, ?use, ?codeword, ?codewordLost, ?timeout⟩
  case arrival =>
    rintro object page s m l ⟨hflash, hhbm⟩ ⟨hm, hframe⟩ ⟨hdeep, hgood⟩ hstripes hread
    show execPageArrival object page s = _
    simp only [execPageArrival, hflash, hhbm, hm, hframe, hread]
    refine congrArg _ ((if_neg (by decide)).trans ((if_neg ?whole).trans (if_neg (by decide))))
    case whole => simp only [hdeep, hgood, hstripes, ne_eq, not_true, decide_false, Bool.or_self, Bool.false_eq_true, not_false_eq_true]
  case miss =>
    rintro ctx va rod s t o p ⟨hs, hx⟩ hkept ht
    show execTierMiss ctx va rod s = _
    rw [execTierMiss_deep hs hx, demandPage_fetches hkept ht]
  case missLost =>
    rintro ctx va rod s o p ⟨hs, hx⟩ hlost
    show execTierMiss ctx va (some rod) s = _
    rw [execTierMiss_deep hs hx, Option.map_some, demandPage_givenUp hlost]
  case hint =>
    rintro part s h l g ⟨hs, hh⟩ rfl hmapped
    show execHintService part s = _
    simp only [execHintService, hs, hh, Bool.false_eq_true, if_false]
    exact congrArg _ (if_neg (ne_true_of_eq_false hmapped))
  case hintDropped =>
    rintro part s h l ⟨hs, hh⟩ hunmapped
    show execHintService part s = _
    simp only [execHintService, hs, hh, Bool.false_eq_true, if_false]
    exact congrArg _ (if_pos hunmapped)
  case starvation =>
    rintro ctx s m ⟨hm, hs⟩
    show execTierStarvation ctx s = _
    simp only [execTierStarvation, hm, hs, Bool.false_eq_true, if_false]
  case use =>
    intro used s hs
    exact congrArg _ (if_neg (ne_true_of_eq_false hs))
  case codeword =>
    rintro object page l tile word outcome s ⟨hf, hmap⟩ hturn ⟨hhope, hread⟩
    show execCodewordRead object page tile word outcome s = _
    rw [execCodewordRead_taken hf hmap hturn (if_neg (ne_true_of_eq_false hhope)), if_neg hread, gotCodeword]
  case codewordLost =>
    rintro object page l tile word outcome s ⟨hf, hmap⟩ hturn hlost
    show execCodewordRead object page tile word outcome s = _
    have hfound : (if hopeless s (tileKey object page tile) then .uncorrectable else outcome) = CwOutcome.uncorrectable :=
      ite_eq_left_iff.mpr fun hhope => hlost.resolve_left hhope
    rw [execCodewordRead_taken hf hmap hturn hfound, if_pos rfl, gotCodeword]
  case timeout =>
    rintro object page tile s r hr ⟨hs, hdue⟩
    show execSourceTimeout object page tile s = _
    simp only [execSourceTimeout, hr]
    exact congrArg _ (if_neg (by simp [hs, hdue]))

end Sys2Proof.Machine
end

section
/-!
Sessions, tile messages, discovery and routes (spec/10_zilet_links.md R277 to R292; spec/06_near_memory.md R147, R149). A message in
its turn has its effect and is acknowledged (`receive_delivered`); the `tileWriteIn` and `tileReadIn` lemmas say what that effect is
where the target's pages are there.
-/

namespace Sys2Proof.Machine

section
variable {s t : State}

/-- Counting on a link leaves every peer as it was. -/
@[simp] theorem peerGet_zlBump (k n d : Nat) : peerGet (zlBump k n s) d = peerGet s d := rfl

/-- The next message of a session whose effect need not wait is acknowledged after it (R285). -/
theorem receive_delivered {row : Instr} {h : MsgHdr} {stream : Nat} {act : State → State × Option Bool} {refused : Bool}
    (turn : msgTurn s h stream = true) (hact : act s = (t, some refused)) :
    receive row h stream act s = ackNow h.src stream h.mseq h.srcBoot refused t := by
  rw [receive_of turn, hact]

/-- A TILE_WRITE whose pages are there writes data and metadata (R147). -/
theorem tileWriteIn_writes {c va : Nat} {data : Bytes} (hthere : firstAbsent s c va data.length true = none)
    (md : List (BitVec 4)) :
    tileWriteIn data md (some (c, va)) s = (setMd c va md (writeVa c va data 0 false s).2, some false) := by
  simp only [tileWriteIn, hthere]

/-- A TILE_READ whose pages are there is answered, without data where one of its bursts is poisoned (R149). -/
theorem tileReadIn_answers {c va length : Nat} (hthere : firstAbsent s c va length false = none) (h : MsgHdr) (group : Nat) :
    tileReadIn h group length (some (c, va)) s =
      (answerTile h group c (if (readRaw c va length s).1.md.any mdPoison then none
        else some ((readRaw c va length s).1.bytes, (readRaw c va length s).1.md)) (readRaw c va length s).2, some false) := by
  simp only [tileReadIn, hthere]

end

/-- Settles O18, row by row: a packet of the session in its state has the row's effect, a message in its turn is acknowledged, and a
command whose operands are in order runs its body. -/
theorem sessionAndTileCommandsRun : Obligations.SessionAndTileCommandsRun := by
  unfold Obligations.SessionAndTileCommandsRun
  refine ⟨?opened, ?accepted, ?stale, ?resent, ?stuck, ?write, ?writeRefused, ?read, ?data, ?query, ?reply, ?discover, ?discoverPeer,
    ?routes⟩
  case opened =>
    rintro h s _ ⟨harr, hboot, hclosed⟩ rfl
    show execSessionOpen h s = _
    simp [execSessionOpen, harr, hboot, hclosed]
  case accepted =>
    rintro h s ⟨harr, hboot, hclosed⟩ hasked
    show execSessionAccept h s = _
    simp [execSessionAccept, harr, hboot, hclosed, hasked]
  case stale =>
    rintro h s ⟨harr, hboot, hopen, hother⟩
    exact congrArg _ (if_pos (by simp [harr, hboot, hopen, hother]))
  case resent =>
    rintro peer stream mseq s m ⟨hs, hdue, hm⟩
    show execRetransmitTimeout peer stream mseq s = _
    simp only [execRetransmitTimeout, hs, hm, Bool.false_eq_true, if_false]
    exact congrArg _ (if_neg (Nat.not_lt.mpr hdue))
  case stuck =>
    rintro peer stream s _ ⟨hs, hstuck⟩ hwaits rfl
    show execStreamTimeout peer stream s = _
    simp only [execStreamTimeout, hs, hstuck, raise_jr, List.isEmpty_iff, Bool.false_eq_true, if_false]
    exact congrArg _ (if_pos (by simpa using hwaits))
  case write =>
    rintro h group object offset c va data md s turn ⟨htarget, hthere⟩
    refine congrArg _ (receive_delivered turn ?_)
    rw [htarget, tileWriteIn_writes hthere]
  case writeRefused =>
    intro h group object offset data md s turn htarget
    refine congrArg _ (receive_delivered turn ?_)
    rw [htarget, tileWriteIn]
  case read =>
    rintro h group object offset length c va s turn ⟨htarget, hthere⟩
    refine congrArg _ (receive_delivered turn ?_)
    rw [htarget, tileReadIn_answers hthere]
  case data =>
    intro h request available data md s r turn hr
    refine congrArg _ (receive_delivered turn ?_)
    simp only [hr]
  case query =>
    intro h s turn
    exact congrArg _ (receive_delivered turn rfl)
  case reply =>
    rintro h records s c turn ⟨hc, hlink⟩
    refine congrArg _ (receive_delivered turn ?_)
    simp only [hc, withHost, hlink, if_true]
  case discover =>
    rintro q seq s c h ⟨hpad, hpeer, hown⟩
    show execPeerDiscover q seq s = _
    rw [execPeerDiscover, runCmd_of h, if_neg (by simp [hpad, hpeer]), if_neg (ne_true_of_eq_false hown)]
  case discoverPeer =>
    rintro q seq s c h ⟨hpad, hpeer, hask⟩
    show execPeerDiscover q seq s = _
    rw [execPeerDiscover, runCmd_of h, if_neg (by simp [hpad, hpeer]), if_pos hask]
  case routes =>
    rintro q seq s c h ⟨hn, hlast, hlen⟩ hgood
    show execRouteSet q seq s = _
    rw [execRouteSet, runCmd_of h]
    refine congrArg _ (if_neg ?_)
    simp only [Bool.or_eq_true, decide_eq_true_eq, List.any_eq_true, List.mem_range, not_or, not_exists, not_and]
    refine ⟨⟨⟨by omega, by omega⟩, by omega⟩, fun i hi => ?_⟩
    obtain ⟨hself, hauto, hreserved, hport⟩ := hgood i hi
    exact ⟨⟨⟨by simpa only [Bool.and_eq_true, decide_eq_true_eq] using hport, ne_true_of_eq_false hauto⟩,
      not_not_intro hreserved⟩, hself⟩

end Sys2Proof.Machine
end

section
/-!
Objects, the flash translation layer and the loss of power (spec/07_deep_tier.md R173 to R206; spec/17_package_power_cooling.md R481 to
R483). `execMountTier_mounts` says what a mount does. `FlashCommandsRun` is refuted: its fourth clause lacks the reads of the map region
that a mount makes, which its blocks count (R178, R181).
-/

namespace Sys2Proof.Machine

/-! ### Objects (R147, R149, R189, R196, R197) -/

section
variable {s t : State} {c : Cmd}

/-- A new object with sources of its own starts with the placement of every page (R189, R196). -/
theorem registerNew_of {a b : Source} {o : Nat} (ha : sourceOf c 32 = some a) (hb : sourceOf c 48 = some b) (ho : freeNumber s = o)
    (hroom : o < 1048576)
    (ht : t = objSet o
      { owner := c.ctx, home := c.p 12 1, pin := c.bit 13 0, shared := c.bit 13 1, writable := c.bit 13 2,
        cache := bitsOf (c.p 13 1) 4 3, src1 := a, src2 := b, count := c.p 8 4, vpn := c.p 0 8 / pageBytes,
        maps := [(c.ctx, c.p 0 8)] } (begun c (purge o s))) :
    registerNew c s = pump { t with deep := { t.deep with jobs := t.deep.jobs ++
      [{ cmd := c.jidx, ctx := c.ctx, object := o, dest := c.p 12 1, next := 0, stop := c.p 8 4, fresh := true }] } } := by
  simp only [registerNew, ha, hb, ho, ht]
  exact if_neg (Nat.not_le.mpr hroom)

/-- A SHARED object of the caller's partition that the caller has not mapped gets one more mapping (R189). -/
theorem mapShared_of {o : Nat} (hthere : objExists s o = true) (hshared : (objGet s o).shared = true)
    (hpart : ctxPart s (objGet s o).owner = ctxPart s c.ctx) (hnew : objBase s c.ctx o = none) (hcount : c.p 8 4 = (objGet s o).count)
    (hfree : rangeFree s c.ctx (c.p 0 8) (objGet s o).count = true) :
    mapShared c o s = finish c stSuccess (natLe 4 o)
      (objSet o { (objGet s o) with maps := (objGet s o).maps ++ [(c.ctx, c.p 0 8)] } s) := by
  simp only [mapShared]
  exact if_neg (by simp [hthere, hshared, hpart, hnew, hcount, hfree])

/-- OBJ_REGISTER of an address range and flags that are allowed maps a SHARED object or makes a new one (R189). -/
theorem execObjRegister_of {q : Fin 512} {seq : Nat}
    (h : hostRuns s q seq 0x300 true [(0, 8), (8, 4), (12, 1), (13, 1), (16, 4), (32, 16), (48, 16)] c = true)
    (hrange : c.p 0 8 % pageBytes = 0 ∧ 1 ≤ c.p 8 4 ∧ c.p 0 8 + c.p 8 4 * pageBytes ≤ 2 ^ 48)
    (hattr : c.p 12 1 ≤ 2 ∧ bitsOf (c.p 13 1) 4 3 ≠ 3 ∧ bitsOf (c.p 13 1) 7 5 = 0) :
    execObjRegister q seq s = .next (if c.p 16 4 ≠ 0xFFFFFFFF then mapShared c (c.p 16 4) s
      else if !rangeFree s c.ctx (c.p 0 8) (c.p 8 4) then refuse c stParam s else registerNew c s) := by
  obtain ⟨haligned, hsome, hspace⟩ := hrange
  obtain ⟨hhome, hcache, hrest⟩ := hattr
  rw [execObjRegister, runCmd_of h]
  exact congrArg _ (if_neg (by
    simpa [haligned, Nat.ne_of_gt hsome, Nat.not_lt.mpr hhome, hcache, hrest] using hspace))

/-- COPY whose ranges are there, whose data may be read and whose target has room writes what it read (R147, R149, R153). -/
theorem execCopyBytes_of {q : Fin 512} {seq : Nat} {d : Bytes} {m : List (BitVec 4)}
    (h : hostRuns s q seq 0x303 true [(0, 8), (8, 8), (16, 8), (24, 1)] c = true)
    (hflags : ¬(c.bit 24 0 = true ∧ c.bit 24 1 = true) ∧ bitsOf (c.p 24 1) 7 2 = 0)
    (haligned : c.p 16 8 % 64 = 0 ∧ c.p 0 8 % 64 = 0 ∧ c.p 8 8 % 64 = 0)
    (hsrc : c.bit 24 0 = true ∨ rangeMapped s c.ctx (c.p 0 8) (c.p 16 8) false = true)
    (hdst : c.bit 24 1 = true ∨ rangeMapped s c.ctx (c.p 8 8) (c.p 16 8) true = true)
    (hbar : copyBar s c = none) (hthere : copyNeeds s c = none) (hroom : copyFull s c = false)
    (hread : (copyRead c s).1 = some (d, m)) :
    execCopyBytes q seq s = .next (copyDone c.jidx (copyWrite c d m (begun c (copyRead c s).2))) := by
  obtain ⟨hone, hrest⟩ := hflags
  obtain ⟨hn, hfrom, hto⟩ := haligned
  rw [execCopyBytes, runCmd_of h]
  simp only [hbar, hthere, hread, hroom, Bool.false_eq_true, if_false]
  refine congrArg _ (if_neg ?_)
  simp only [hrest, hn, hfrom, hto, ne_eq, not_true_eq_false, decide_false, Bool.or_false, Bool.or_eq_true, Bool.and_eq_true,
    Bool.not_eq_true', not_or, not_and, Bool.not_eq_false]
  exact ⟨⟨fun hs hd => hone ⟨hs, hd⟩, fun hs => hsrc.resolve_left (ne_true_of_eq_false hs)⟩,
    fun hd => hdst.resolve_left (ne_true_of_eq_false hd)⟩

end

/-- Settles O5, row by row: the hypotheses of a clause say that none of the row's refusals applies. -/
theorem objectCommandsRun : Obligations.ObjectCommandsRun := by
  unfold Obligations.ObjectCommandsRun
  refine ⟨?register, ?share, ?release, ?place, ?schedule, ?copy⟩
  case register =>
    rintro q seq s c a b o h hrange hattr ⟨hnew, hfree⟩ ⟨ha, hb, ho, hroom⟩
    show execObjRegister q seq s = _
    rw [execObjRegister_of h hrange hattr, if_neg (not_not_intro hnew), if_neg (by simp [hfree]), registerNew_of ha hb ho hroom rfl]
  case share =>
    rintro q seq s c o h hrange hattr ⟨hnum, hold, hthere, hshared, hpart⟩ ⟨hnew, hcount, hfree⟩
    show execObjRegister q seq s = _
    rw [execObjRegister_of h hrange hattr, hnum, if_pos hold, mapShared_of hthere hshared hpart hnew hcount hfree]
  case release =>
    intro q seq s c b h hmapped
    show execObjRelease q seq s = _
    rw [execObjRelease, runCmd_of h, if_neg (by simp [hmapped])]
  case place =>
    rintro q seq s c b h ⟨hmapped, hdest, hmode, hpages⟩ hgroup
    show execObjPlace q seq s = _
    rw [execObjPlace, runCmd_of h]
    simp only [Bool.and_eq_true, decide_eq_true_eq]
    refine congrArg _ (if_neg ?_)
    simp only [hmapped, Option.isNone_some, Bool.or_eq_true, Bool.and_eq_true, decide_eq_true_eq, List.isEmpty_iff,
      Bool.false_eq_true, false_or, not_or, not_and, Nat.not_lt, Nat.not_le]
    exact ⟨⟨⟨hdest, hmode⟩, hpages⟩, hgroup⟩
  case schedule =>
    rintro q seq s c h ⟨hd, hn, hentries, hstarts, hseq⟩
    show execPrefetchSchedule q seq s = _
    rw [execPrefetchSchedule, runCmd_of h]
    exact congrArg _ (if_neg (by simp [hd, hn, hentries, hstarts, hseq]))
  case copy =>
    rintro q seq s c d m h ⟨hone, hrest, haligned⟩ hsrc hdst hbar ⟨hthere, hroom⟩ hread
    exact execCopyBytes_of h ⟨hone, hrest⟩ haligned hsrc hdst hbar hthere hroom hread

/-! ### The mount of the flash (R178, R179, R181, R185, R186) -/

/-- What a mount takes up: the map, no open stripe, and no page that was leaving for the flash (R179). -/
def mountStart (newestOk olderOk : Bool) (s : State) : State :=
  { s with
    deep := { s.deep with mounted := true, stripes := [], ckptAt := s.clk.ltc, map := mountedMap newestOk olderOk s }
    objects := s.objects.map (fun kv => (kv.1, { kv.2 with pages := kv.2.pages.map (fun p => (p.1, { p.2 with leaving := none })) })) }

section
variable {s : State}

/-- A mount reads the map region, and all of the user region where no checkpoint can be read, before it takes up what a restart cut
off. This is the fourth clause of `FlashCommandsRun` with the reads that it lacks. -/
theorem execMountTier_mounts {newestOk olderOk : Bool} (hs : s.dev.safe = false) (hm : s.deep.mounted = false)
    (hp : s.sup.domains.getLsbD 28 = true) (ht : s.sup.timeref = true) :
    execMountTier newestOk olderOk s = .next (
      if newestOk || olderOk then resumeBlocks (readRegion 1 (mountStart newestOk olderOk s))
      else raise srcDtRebuild 0 0 (resumeBlocks (readRegion 5 (readRegion 1 (mountStart newestOk olderOk s))))) := by
  rw [execMountTier, if_neg (ne_true_of_eq_false hs), mount, if_neg (by simp [hm, hp, ht])]
  cases hread : newestOk || olderOk <;> rfl

/-- Without a retired block and a failed die there is no move to take up. -/
theorem resumeBlocks_none (hd : s.deep.failedDies = 0#32) (hb : ∀ kv ∈ s.deep.blocks, kv.2.retired = false) : resumeBlocks s = s := by
  have hblocks : ∀ l : List (Nat × Block), (∀ kv ∈ l, kv.2.retired = false) →
      l.foldl (fun s kv => if kv.2.tiles.isEmpty then s else if kv.2.retired then moveBlock kv.1 .retire 0 s
        else if s.deep.failedDies.getLsbD kv.2.die then moveBlock kv.1 .die 0 s else s) s = s := by
    intro l hl
    induction l with
    | nil => rfl
    | cons kv l ih =>
      rw [List.foldl_cons]
      simp only [hl kv List.mem_cons_self, hd, BitVec.getLsbD_zero, Bool.false_eq_true, if_false, ite_self]
      exact ih fun x hx => hl x (List.mem_cons_of_mem _ hx)
  have hdies : maskList s.deep.failedDies.toNat 32 = [] := by rw [hd]; decide
  rw [resumeBlocks, hdies, hblocks _ hb, List.foldl_nil]

end

/-- The flash is to be mounted after a restart, and one block holds a tile of the checkpoint's region. -/
def checkpointedFlash : State :=
  { sup := { pwrEn := true, power := .on, domains := 0x10000001#30 }
    deep := {
      blocks := [(0, { slc := true, tiles := [(0, regionKey 1 0)], used := 1 })]
      map := [(regionKey 1 0, { block := 0 })]
      ckpts := [{ map := [(regionKey 1 0, { block := 0 })] }] } }

/-- Refutes O15 by its fourth clause: in `checkpointedFlash` a mount reads the 16 codewords of the checkpoint's tile, and its block
counts them (R181), where the clause leaves the block's count at 0. `execMountTier_mounts` has the reads that the clause lacks. -/
theorem not_flashCommandsRun : ¬ Obligations.FlashCommandsRun := by
  unfold Obligations.FlashCommandsRun
  rintro ⟨-, -, -, hmount, -⟩
  have hclause : exec (.mountTier true true) checkpointedFlash = .next (resumeBlocks (mountStart true true checkpointedFlash)) :=
    hmount true true checkpointedFlash ⟨rfl, rfl, by decide, rfl⟩
  have hsame : resumeBlocks (readRegion 1 (mountStart true true checkpointedFlash)) =
      resumeBlocks (mountStart true true checkpointedFlash) :=
    Host.Outcome.next.inj ((execMountTier_mounts rfl rfl (by decide) rfl).symm.trans hclause)
  rw [resumeBlocks_none rfl (by decide), resumeBlocks_none rfl (by decide)] at hsame
  have hcount : (blockGet (readRegion 1 (mountStart true true checkpointedFlash)) 0).reads = 16 := by decide
  rw [hsame] at hcount
  exact absurd hcount (by decide)

/-! ### The loss of power (R206, R481 to R483) -/

/-- PWR_EN falling while there is power starts the safe state where PD_ON runs, and keeps the power until conversion stops (R481). -/
theorem execPwrEnFall_of {s t : State} (hen : s.sup.pwrEn = true)
    (hpower : s.sup.power = .on ∨ s.sup.power = .softStart ∨ s.sup.power = .holdOff)
    (ht : t = if zenithRuns s then enterSafe s else s) :
    execPwrEnFall s = .next { t with
      sup := { t.sup with pwrEn := false, lowOver := false, riseWait := false, power := .holdOff }
      side := { t.side with sent := s.side.sent }
      fc := { t.fc with rstChip := false }
      dev := { t.dev with bootStep := 0, ready := false } } := by
  have hpowered : (decide (s.sup.power = .on) || decide (s.sup.power = .softStart) || decide (s.sup.power = .holdOff)) = true := by
    simpa [or_assoc] using hpower
  simp only [execPwrEnFall, hen, hpowered, ht, Bool.not_true, Bool.false_eq_true, if_false, if_true]

/-- Settles O32: the fall of PWR_EN by `execPwrEnFall_of`; the stop of conversion and the loss of VIN52 are `powerLost`, whose fields the
clauses write out. -/
theorem powerOffRuns : Obligations.PowerOffRuns := by
  unfold Obligations.PowerOffRuns
  refine ⟨?fall, ?stop, ?loss⟩
  case fall =>
    rintro s t ⟨hen, hpower⟩ ht
    exact execPwrEnFall_of hen hpower ht
  case stop =>
    intro s hpower
    exact congrArg _ (if_pos hpower)
  case loss =>
    intro s
    rfl

end Sys2Proof.Machine
end

section
/-!
Tally arbiters (spec/08_tallies.md R209 to R222). `tallyCommandsRun`: SET_TALLY within the limits of R219 to R221, a counted slot, and the
starvation of a head request.
-/

namespace Sys2Proof.Machine

/-! ### SET_TALLY (R219 to R222) -/

section
variable {s : State} {c : Cmd} {q : Fin 512} {seq : Nat}

/-- A bound that holds at each arbiter a SET_TALLY names refuses none of them. -/
theorem any_shifted_eq_false {p : Nat → Bool} {first count : Nat} (h : ∀ i < count, p (first + i) = false) :
    ((List.range count).map (fun i => first + i)).any p = false := by
  simpa [List.any_eq_false] using h

/-- SET_TALLY BUDGET of a class bound to no partition, within the ranges and floors of R220, puts the budget into every table where the
budgets then keep to the 4,096 of R221. -/
theorem execSetTallyBudget_of {t : TallyCmd} (h : hostRuns s q seq 0x104 false [(0, 16)] c = true) (ht : tallyCmd c = t)
    (hfields : t.op = 0 ∧ tallyRangeBad t = false ∧ t.mode = 0 ∧ t.budget ≤ 4096)
    (htransit : t.cls ≠ 60 ∨ t.kind = 3) (hfloor : (t.cls ≠ 61 ∧ t.cls ≠ 62) ∨ 41 ≤ t.budget) (hfree : classPart s t.cls = none)
    (hsum : ∀ i < t.count, budgetSum { arbGet s t.kind (t.first + i) with
      table := mapSet 0 (arbGet s t.kind (t.first + i)).table t.cls t.budget } ≤ 4096) :
    execSetTallyBudget q seq s = .next (tallyDone c t (fun x => { x with table := mapSet 0 x.table t.cls t.budget }) s) := by
  obtain ⟨hop, hrange, hmode, hbudget⟩ := hfields
  have hpick : decide ((tallyCmd c).op ≠ 1) = true := by simp [ht, hop]
  have hkind : t.cls = 60 → t.kind = 3 := fun hcls => htransit.resolve_left (not_not_intro hcls)
  have hleast : t.cls = 61 ∨ t.cls = 62 → 41 ≤ t.budget :=
    fun hcls => hfloor.resolve_left fun hother => hcls.elim hother.1 hother.2
  rw [execSetTallyBudget, runSub_of h hpick]
  simp only [ht]
  rw [if_neg (by simpa [hop, hrange, hmode, hbudget, hfree] using ⟨hkind, hleast⟩), if_neg]
  exact ne_true_of_eq_false (any_shifted_eq_false fun i hi => by simp [Nat.not_lt.mpr (hsum i hi)])

/-- SET_TALLY MODE within the ranges of R219 puts the mode into every table. -/
theorem execSetTallyMode_of {t : TallyCmd} (h : hostRuns s q seq 0x104 false [(0, 16)] c = true) (ht : tallyCmd c = t)
    (hfields : t.op = 1 ∧ tallyRangeBad t = false ∧ t.cls = 0 ∧ t.budget = 0) :
    execSetTallyMode q seq s = .next (tallyDone c t (fun x => { x with tableBorrow := decide (t.mode = 1) }) s) := by
  obtain ⟨hop, hrange, hcls, hbudget⟩ := hfields
  have hpick : decide ((tallyCmd c).op = 1) = true := by simp [ht, hop]
  rw [execSetTallyMode, runSub_of h hpick]
  simp only [ht]
  rw [if_neg (by simp [hrange, hcls, hbudget])]

end

/-! ### Counted slots and starvation (R209, R215, R216, R218) -/

section
variable {s : State} {kind : Fin 6} {inst : Nat}

/-- Outside the safe state an arbiter of Table 8.1 acts. -/
theorem arbiter_acts (hi : inst < arbInstances kind) (hs : s.dev.safe = false) :
    ¬(decide (arbInstances kind ≤ inst) || s.dev.safe) = true := by
  simp [hs, hi]

/-- With a request waiting, COUNTED_SLOT counts one slot where the resource accepts requests, and else keeps them waiting. -/
theorem execCountedSlot_of_waiting {arrivals : List Request} (hi : inst < arbInstances kind) (hs : s.dev.safe = false)
    (hq : (arbJoined s kind inst arrivals).queue ≠ []) :
    execCountedSlot kind inst arrivals s = .next (arbSet kind inst
      (if slotRuns s kind then settleArb (countSlot (arbJoined s kind inst arrivals)) else arbJoined s kind inst arrivals) s) := by
  rw [execCountedSlot, if_neg (arbiter_acts hi hs)]
  exact congrArg _ (if_neg (by simpa using hq))

/-- With no request waiting there is no slot (R209). -/
theorem execCountedSlot_of_idle {arrivals : List Request} (hi : inst < arbInstances kind) (hs : s.dev.safe = false)
    (hq : (arbJoined s kind inst arrivals).queue = []) : execCountedSlot kind inst arrivals s = .next s := by
  rw [execCountedSlot, if_neg (arbiter_acts hi hs)]
  exact congrArg _ (if_pos (by simp [hq]))

/-- TALLY_STARVATION of a class with a starved head request reports that request (R218). -/
theorem execTallyStarvation_of {cls : Fin 64} {h : Waiter} (hi : inst < arbInstances kind) (hs : s.dev.safe = false)
    (hh : starvedHead s kind inst cls = some h) : execTallyStarvation kind inst cls s = .next (noteStarved kind inst h s) := by
  rw [execTallyStarvation, if_neg (arbiter_acts hi hs)]
  simp only [hh]

end

/-- Settles O3, row by row: SET_TALLY where no refusal of R220 and R221 applies, the counted slot by whether a request waits and its
resource runs, and the report of a starved request, which is `noteStarved`. -/
theorem tallyCommandsRun : Obligations.TallyCommandsRun := by
  unfold Obligations.TallyCommandsRun
  refine ⟨?budget, ?mode, ?slot, ?stopped, ?idle, ?starvation⟩
  case budget =>
    intro q seq s c h hfields htransit hfloor hfree hsum
    exact execSetTallyBudget_of h rfl hfields htransit hfloor hfree hsum
  case mode =>
    intro q seq s c h hfields
    exact execSetTallyMode_of h rfl hfields
  case slot =>
    rintro kind inst arrivals s hi hs ⟨hrun, hq⟩
    show execCountedSlot kind inst arrivals s = _
    rw [execCountedSlot_of_waiting hi hs hq, if_pos hrun]
  case stopped =>
    rintro kind inst arrivals s hi hs ⟨hrun, hq⟩
    show execCountedSlot kind inst arrivals s = _
    rw [execCountedSlot_of_waiting hi hs hq, if_neg (ne_true_of_eq_false hrun)]
  case idle =>
    intro kind inst s hi hs hq
    exact execCountedSlot_of_idle hi hs hq
  case starvation =>
    intro kind inst cls h s hi hs hh
    exact execTallyStarvation_of hi hs hh

end Sys2Proof.Machine
end

section
/-!
Changes of a group's view that a command asks for (spec/11_collectives.md R303 to R305), with the checks that training commands share:
`unhitched_of` for the ranges they need, `inJob_of` for the state of the context's job (R354, T9.3), `group_not_lost` for the members of
the group.
-/

namespace Sys2Proof.Machine

section
variable {s : State} {c : Cmd} {x : Group}

/-- A command that nothing keeps from its ranges runs. -/
theorem unhitched_of {rs : List Span} (h : hitch s c.ctx rs = none) (k : State → State) : unhitched c rs s k = k s := by
  simp only [unhitched, h]

/-- A command on a group that its context holds runs. -/
theorem onGroup_of (hx : groupGet s (c.p 4 4) = some x) (hctx : x.ctx = c.ctx) (k : Group → State → State) :
    onGroup c s k = k x s := by
  simp only [onGroup, hx, hctx, if_true]

/-- A group with a LIVE member, in which this one is not EXCLUDED, is not lost to this member (R304). -/
theorem group_not_lost (hl : x.liveList ≠ []) (ho : x.stateOf x.own ≠ 2) :
    ¬(x.liveList.isEmpty || decide (x.stateOf x.own = 2)) = true := by
  simp [hl, ho]

/-- A flag byte of 0 or 1 has its reserved bits zero (R8). -/
theorem bitsOf_flag {b : Nat} (h : b ≤ 1) : bitsOf b 7 1 = 0 := by
  rw [bitsOf, Nat.div_eq_of_lt (by omega), Nat.zero_mod]

/-- The flag of a flag byte of 0 or 1. -/
theorem bit_flag (h : c.p 0 1 ≤ 1) : c.bit 0 0 = decide (c.p 0 1 = 1) := by
  rw [Cmd.bit, bitOf, Nat.pow_zero, Nat.div_one, Nat.mod_eq_of_lt (by omega)]

/-- A training command runs where its context's state accepts it (T9.3). -/
theorem inState_of {ok : List TrainSt} (h : ok.contains (ctxGet s c.ctx).train.st = true) (k : State → State) :
    inState c ok s k = k s := if_pos h

/-- The same for a command that needs the job's group (R354). -/
theorem inJob_of {ok : List TrainSt} (hl : jobGroupLost s c.ctx = false) (h : ok.contains (ctxGet s c.ctx).train.st = true)
    (k : State → State) : inJob c ok s k = k s := by
  rw [inJob, if_neg (ne_true_of_eq_false hl), inState_of h]

/-- EXCLUDE_MEMBER of a member of a group that is not lost completes where that member is EXCLUDED, and asks for the change where it is
not (R305). -/
theorem execExcludeMember_of {q : Fin 512} {seq : Nat} (h : hostRuns s q seq 0x603 true [(0, 6)] c = true)
    (hst : (ctxGet s c.ctx).train.st ≠ .none ∧ (ctxGet s c.ctx).train.st ≠ .broken)
    (hmember : groupGet s (c.p 0 4) = some x ∧ x.ctx = c.ctx ∧ c.p 4 2 < x.members.length)
    (hl : x.liveList ≠ []) (ho : x.stateOf x.own ≠ 2) :
    execExcludeMember q seq s = .next (if x.stateOf (c.p 4 2) = 2 then finish c stSuccess (natLe 4 x.view) s
      else unhitched c (changeNeeds s x) s (fun s => askChange (c.p 0 4) c.jidx 2 (c.p 4 2) (x.dev (c.p 4 2)) (begun c s))) := by
  obtain ⟨hjob, hbroken⟩ := hst
  obtain ⟨hx, hctx, hi⟩ := hmember
  rw [execExcludeMember, runCmd_of h, if_neg hbroken]
  simp only [hx]
  rw [if_neg (not_not_intro hctx), if_neg (group_not_lost hl ho), if_neg (by simp [hjob, hi])]

end

/-- Settles O21, row by row: the hypotheses of a clause say that none of the row's refusals applies. -/
theorem groupChangesAsked : Obligations.GroupChangesAsked := by
  unfold Obligations.GroupChangesAsked
  refine ⟨?admission, ?exclude, ?excluded⟩
  case admission =>
    rintro q seq s c x h ⟨hop, hx, hctx⟩ ⟨hi, hst, hdev, hnew⟩ ⟨hl, ho, hthere⟩
    show execCollGroupAdmit q seq s = _
    rw [execCollGroupAdmit, runSub_of h (by simp [groupOp, hop]), onGroup_of hx hctx, if_neg (group_not_lost hl ho), unhitched_of hthere]
    exact congrArg _ (if_neg (by simp [hst, hi, hdev, hnew]))
  case exclude =>
    rintro q seq s c x h hst hmember ⟨hl, ho, hold, hthere⟩
    show execExcludeMember q seq s = _
    rw [execExcludeMember_of h hst hmember hl ho, if_neg hold, unhitched_of hthere]
  case excluded =>
    rintro q seq s c x h hst hmember ⟨hl, ho, hold⟩
    show execExcludeMember q seq s = _
    rw [execExcludeMember_of h hst hmember hl ho, if_pos hold]

end Sys2Proof.Machine
end

section
/-!
Runs of the collective engine and their messages (spec/11_collectives.md R308 to R316, R322). `collIn_delivered` says when a message for
the run in progress is acknowledged, `whenHere_same` when a lost page makes no difference to it.
-/

namespace Sys2Proof.Machine

section
variable {s t : State} {m : CollMsg} {x : Group} {r : CollRun}

/-- The next COLL_STEP message for the run in progress is acknowledged after an effect that need not wait (R285). -/
theorem collIn_delivered {row : Instr} {k : Group → CollRun → State → State × Option Bool} {refused : Bool}
    (turn : runTurn s m x r = true) (hk : k x r s = (t, some refused)) :
    collIn row m k s = ackNow m.hdr.src 1 m.hdr.mseq m.hdr.srcBoot refused t := by
  rw [collIn_of turn, hk]

/-- What the turn of a COLL_STEP message for the run in progress says. -/
theorem runTurn_of (turn : runTurn s m x r = true) : msgTurn s m.hdr 1 = true ∧ collFrom s m = some x ∧ collStale x m = false ∧
    x.run.filter (fun r => decide (r.run % 65536 = m.run)) = some r := by
  simp only [runTurn, Bool.and_eq_true, decide_eq_true_eq] at turn
  obtain ⟨⟨hcoll, hrun⟩, hnum⟩ := turn
  obtain ⟨hmsg, hfrom, hlive⟩ := collTurn_of hcoll
  exact ⟨hmsg, hfrom, hlive, by simp [hrun, hnum]⟩

/-- Where no page of the ranges makes a message wait, and a lost page of those that must be there does not change its effect, the
message has that effect (R153, R203). -/
theorem whenHere_same {c : Nat} {must may : List Span} {lost k : State → State × Option Bool} (hmust : noWait s c must = true)
    (hmay : noWait s c may = true) (hsame : lost s = k s) : whenHere c must may lost s k = k s := by
  simp only [noWait, Option.isNone_iff_eq_none] at hmust hmay
  simp only [whenHere, hmay]
  cases hf : must.findSome? (fun r => firstAbsent s c r.1 r.2.1 r.2.2) with
  | none => rfl
  | some a =>
    obtain ⟨r, hr, ha⟩ := List.exists_of_findSome?_eq_some hf
    have hlost : pageGivenUp a.1 a.2 s = true := by
      simpa [ha] using List.findSome?_eq_none_iff.mp hmust r hr
    simp only [hlost, if_true, hsame]

/-- A poisoned CONTRIB from a member that the chunk still waits for counts that member and poisons the chunk, be the chunk's pages there
or lost (R311, R314). -/
theorem contribChunk_poisoned (hchunk : r.reduces = true ∧ m.unit < r.chunks ∧ r.owner m.unit = x.own)
    (hfrom : r.live.contains m.member = true ∧ (mapGet [] r.landed m.unit).contains m.member = false) (hpoison : m.poisoned = true)
    (hplace : noWait s x.ctx [(r.accAt m.unit 0, if r.fmt = 0 then 2 * r.chunkLen m.unit else r.chunkLen m.unit, true),
      (r.place x.own m.unit, r.chunkLen m.unit, true)] = true)
    (hbase : noWait s x.ctx (runBase s x r ++ recBases s x r m 0) = true) :
    contribChunk m x r s = (runCheck m.group (countChunk m.group m.unit m.member true s), some false) := by
  obtain ⟨hred, hunit, hown⟩ := hchunk
  obtain ⟨hlive, hnew⟩ := hfrom
  rw [contribChunk, if_neg (by simp [hred, hown, hunit, hlive, hnew, -List.contains_eq_mem])]
  refine (whenHere_same hplace hbase ?_).trans ?_
  all_goals simp only [hpoison, if_true]

/-- DATA of an ALL_GATHER that says its segment is poisoned writes POISON there (R314). -/
theorem putChunk_poisoned (hkind : r.kind = 2) (hpoison : m.poisoned = true) (hunit : m.unit < r.chunks)
    (hnew : r.written.contains (unitKey m.unit m.member) = false)
    (hthere : firstAbsent s x.ctx (r.place m.member m.unit) (r.chunkLen m.unit) true = none)
    (hbase : noWait s x.ctx (recBases s x r m 0) = true) :
    putChunk m x r s = (runCheck m.group (runSet m.group
      (fun q => { q with written := q.written ++ [unitKey m.unit m.member], poisoned := q.poisoned ++ [m.unit] })
      (poisonChunk x.ctx (r.place m.member m.unit) (r.chunkLen m.unit) s)), some false) := by
  simp only [noWait, Option.isNone_iff_eq_none] at hbase
  simp only [putChunk, hkind, if_true]
  rw [if_neg (by simp [hunit, hnew, -List.contains_eq_mem])]
  simp only [whenHere, List.findSome?_cons, List.findSome?_nil, hthere, hbase, hpoison, if_true]

end

/-- Settles O23, row by row: a command whose operands are in order starts its run, and a message in its turn has the effect of its kind and
is acknowledged. -/
theorem collectiveRunCommandsRun : Obligations.CollectiveRunCommandsRun := by
  unfold Obligations.CollectiveRunCommandsRun
  refine ⟨?run, ?grad, ?ready, ?early, ?contribPoisoned, ?contrib, ?finalGrad, ?final, ?data, ?dataPoisoned, ?stale, ?resend,
    ?norm, ?ack⟩
  case run =>
    rintro q seq s c x _ h ⟨hop, hx, hctx⟩ ⟨rfl, hkind⟩ ⟨hl, ho, hdesc⟩ hmapped ⟨hthere, hrun⟩
    show execCollRun q seq s = _
    rw [execCollRun, runSub_of h (by simpa using hop)]
    simp only [hx]
    rw [if_neg (not_not_intro hctx), if_neg (group_not_lost hl (by simp [ho])), if_neg (by simpa [ho, hdesc, hkind] using hmapped),
      if_neg (by simp [hrun]), unhitched_of hthere]
    simp only [hrun]
    rfl
  case grad =>
    rintro q seq s c x h ⟨hop, hx, hctx⟩ ⟨hopen, hjob⟩ ⟨hrop, hfmt, hroot, hrest⟩ ⟨hl, ho, hthere, hrun⟩
    show execCollRunGrad q seq s = _
    rw [execCollRunGrad, runSub_of h (by simpa using hop)]
    simp only [hx]
    rw [if_neg (by simp [hl, ho]), if_neg (not_not_intro hopen),
      if_neg (by simp [hctx, hjob, hrop, hfmt, hroot, hrest]), unhitched_of hthere]
    simp only [hrun]
    rfl
  case ready =>
    intro m s x r turn hthere
    obtain ⟨hmsg, hfrom, hlive, hnamed⟩ := runTurn_of turn
    refine congrArg _ (receive_delivered hmsg ?_)
    simp only [hfrom, hlive, hnamed, whenHere_of hthere, Bool.false_eq_true, if_false]
  case early =>
    rintro m s x hcoll ⟨hrun, hgone, hdone, hpast⟩
    obtain ⟨hmsg, hfrom, hlive⟩ := collTurn_of hcoll
    refine congrArg _ (receive_delivered hmsg ?_)
    simp only [hfrom, hlive, hrun, hgone, hdone, hpast, Option.filter_none, Bool.false_eq_true, if_false]
  case contribPoisoned =>
    rintro m s x r turn ⟨hkind, hred, hunit, hown, hlive, hnew, hpoison⟩ hplace hbase
    refine congrArg _ (collIn_delivered turn ?_)
    rw [if_neg hkind, contribChunk_poisoned ⟨hred, hunit, hown⟩ ⟨hlive, hnew⟩ hpoison hplace hbase]
  case contrib =>
    intro m s t x r b turn hact
    exact congrArg _ (collIn_delivered turn hact)
  case finalGrad =>
    rintro m s t x r b turn ⟨hkind, hact⟩
    exact congrArg _ (collIn_delivered turn (by rw [if_pos hkind, hact]))
  case final =>
    rintro m s t x r b turn ⟨hkind, hact⟩
    exact congrArg _ (collIn_delivered turn (by rw [if_neg (by simp [hkind]), if_pos hkind, hact]))
  case data =>
    rintro m s t x r b turn ⟨hkind, hact⟩
    exact congrArg _ (collIn_delivered turn (by rw [if_pos (by simpa using hkind), hact]))
  case dataPoisoned =>
    rintro m s x r turn ⟨hkind, hpoison, hunit, hnew⟩ ⟨hthere, hbase⟩
    exact congrArg _ (collIn_delivered turn (by rw [if_pos (by simp [hkind]), putChunk_poisoned hkind hpoison hunit hnew hthere hbase]))
  case stale =>
    intro m s x hcoll hrun
    obtain ⟨hmsg, hfrom, hlive⟩ := collTurn_of hcoll
    refine congrArg _ (receive_delivered hmsg ?_)
    simp only [hfrom, hlive, Bool.false_eq_true, if_false]
    rcases hrun with hnone | hother
    · simp only [hnone]
    · obtain ⟨r, hr, hnum⟩ := (Option.any_eq_true _ _).mp hother
      simp only [hr]
      exact if_neg (by simpa using hnum)
  case resend =>
    intro m s x r turn hthere
    obtain ⟨hmsg, hfrom, hlive, hnamed⟩ := runTurn_of turn
    refine congrArg _ (receive_delivered hmsg ?_)
    simp only [hfrom, hlive, hnamed, whenHere_of hthere, Option.some_or, Bool.false_eq_true, if_false]
  case norm =>
    rintro m s x hcoll ⟨hopen, hjob, hnew⟩
    obtain ⟨hmsg, hfrom, hlive⟩ := collTurn_of hcoll
    refine congrArg _ (receive_delivered hmsg ?_)
    simp [hfrom, hlive, hopen, hjob, hnew]
  case ack =>
    rintro h stream mseq refused s _ _ ⟨harr, hboot, hopen, hsess⟩ rfl rfl
    show execAck h stream mseq refused s = _
    have hturn : ¬(!arrived h s || decide (h.dstBoot ≠ s.dev.bootId.toNat) || !(peerGet s h.src).isOpen
        || decide ((peerGet s h.src).boot ≠ h.srcBoot)) = true := by
      simp [harr, hboot, hopen, hsess]
    rw [execAck]
    refine congrArg _ ((if_neg hturn).trans ?_)
    simp only [List.isEmpty_iff]
    split <;> rfl

end Sys2Proof.Machine
end

section
/-!
Steps of a training job (spec/09_training_steps.md R227 to R252). `stepCommit_arrives` brings a commit to the step's barrier,
`execBarrierRelease_of` is the release from the leader, `releaseStep_commits` and `releaseStep_broken` are its two outcomes.
-/

namespace Sys2Proof.Machine

section
variable {s t : State} {c : Cmd} {x : Group} {m : MemMsg}

/-- A STEP_COMMIT of the open step, once it is updated, arrives at the step's barrier (R246). -/
theorem stepCommit_arrives (hst : (ctxGet s c.ctx).train.st = .opened) (hstep : c.p 4 4 = (ctxGet s c.ctx).train.step)
    (hnone : (ctxGet s c.ctx).train.commit = none) (hupd : (ctxGet s c.ctx).train.updated = true) (hl : jobGroupLost s c.ctx = false) :
    execStepCommit.body c s = barrierArrive (jobGroup (ctxGet s c.ctx).train.job) (ctxGet s c.ctx).train.step
      (trainMod c.ctx (fun t => { t with commit := some { cmd := c.jidx, since := s.clk.ltc } }) (begun c s)) := by
  rw [execStepCommit.body, inJob_of hl (by simp [hst]), if_neg (by simp [hstep, hnone]), if_neg (by simp [hupd])]

/-- The next MEMBER message of a group is acknowledged after an effect that need not wait (R285). -/
theorem memIn_delivered {row : Instr} {k : Group → State → State × Option Bool} {refused : Bool}
    (turn : memTurn s m x = true) (hk : k x s = (t, some refused)) :
    memIn row m k s = ackNow m.hdr.src 0 m.hdr.mseq m.hdr.srcBoot refused t := by
  rw [memIn_of turn, hk]

/-- What the turn of a MEMBER message says of its group. -/
theorem memTurn_group (turn : memTurn s m x = true) : groupGet s m.group = some x := by
  simp only [memTurn, Bool.and_eq_true, decide_eq_true_eq] at turn
  obtain ⟨⟨⟨-, hx⟩, -⟩, -⟩ := turn
  exact hx

/-- A RELEASE from the leader that leaves no commit waiting is acknowledged after the release (R246, R285). -/
theorem execBarrierRelease_of {peers : List PeerDigests} {shards : List ShardSt} (turn : memTurn s m x = true)
    (hown : x.released = none) (hwaits : (ctxGet s x.ctx).train.commit.isSome = true)
    (ht : t = releaseStep m.group m.mismatch peers shards s) (hdone : (ctxGet t x.ctx).train.commit = none) :
    execBarrierRelease m peers shards s = .next (ackNow m.hdr.src 0 m.hdr.mseq m.hdr.srcBoot false t) := by
  simp only [execBarrierRelease, memTurn_group turn, hown]
  refine congrArg _ (memIn_delivered turn ?_)
  simp only [← ht, hdone, Option.isSome_none, Bool.false_eq_true, if_false]
  exact if_neg (by simpa [Option.isSome_iff_ne_none] using hwaits)

/-- A commit that waits, with the time of its release: that of the first try (R246). -/
def releasedAt (s : State) (w : Commit) : Commit := { w with released := some (w.released.getD s.clk.ltc) }

/-- The state in which the release of a context's commit goes on. -/
def noteReleased (ctx : Nat) (w : Commit) (s : State) : State := trainMod ctx (fun t => { t with commit := some (releasedAt s w) }) s

section
variable {g : Nat} {peers : List PeerDigests} {shards : List ShardSt} {w : Commit} (hx : groupGet s g = some x)
include hx

/-- A release that finds a shard that cannot be resolved breaks the job (R251). -/
theorem releaseStep_broken (hw : (ctxGet s x.ctx).train.commit = some w) (hg : jobGroup (ctxGet s x.ctx).train.job = g)
    (hbroken : shards.contains .broken = true) :
    releaseStep g false peers shards s = breakJob x.ctx stPeerLost (noteReleased x.ctx w s) := by
  simp only [releaseStep, hx, hw, hg, hbroken, ne_eq, not_true_eq_false, Bool.false_eq_true, if_false, if_true]
  rfl

/-- A release that finds every other shard resolved, and resolves the blocks of its own, commits (R250 to R252). -/
theorem releaseStep_commits {k : Nat} {t : Train} {y : Job} {n u : State} (ht : t = (ctxGet s x.ctx).train) (hw : t.commit = some w)
    (hg : jobGroup t.job = g) (hn : n = noteReleased x.ctx w s) (hy : y = jobOf n x.ctx)
    (hothers : shards.contains .broken = false ∧ shards.contains .pending = false)
    (hthere : hitch n x.ctx (y.core ++ y.buffer ++ shadowSpans n x y) = none)
    (hresolved : resolveAll x.ctx y t (jobReplica t.job)
      (peers.filter (fun p => p.replica ≠ jobReplica t.job && (liveReps x t.job).contains p.replica)) n = (u, k, false)) :
    releaseStep g false peers shards s = commitStep g x.ctx k (releasedAt s w) u := by
  obtain ⟨hbroken, hpending⟩ := hothers
  subst ht hn hy
  simp only [noteReleased, releasedAt] at hthere hresolved
  simp only [releaseStep, hx, hw, hg, hbroken, hpending, hthere, hresolved, ne_eq, not_true_eq_false, Bool.false_eq_true, if_false]
  rfl

end

end

/-- Settles O24, row by row: `execBarrierRelease_of` acknowledges a release, and what it does to the job is `releaseStep`, by
`releaseStep_commits` and `releaseStep_broken` where the clauses write it out. -/
theorem trainingStepsRun : Obligations.TrainingStepsRun := by
  unfold Obligations.TrainingStepsRun
  refine ⟨?new, ?next, ?landing, ?update, ?commit, ?again, ?stall, ?release, ?commits, ?breaks, ?own⟩
  case new =>
    rintro q seq s c x h ⟨hst, hflags, hstep, hjob⟩ ⟨hx, hctx, hl, ho⟩
    show execStepBegin q seq s = _
    rw [execStepBegin, runCmd_of h]
    simp only [hst, hx, if_true]
    rw [if_neg (by simp [bit_flag hflags.le, hflags, hctx]), if_neg (group_not_lost hl ho),
      if_neg (by simp [bitsOf_flag hflags.le, hstep, hjob])]
  case next =>
    rintro q seq s c h ⟨hst, hstep⟩ hjob hl
    show execStepBegin q seq s = _
    rw [execStepBegin, runCmd_of h, if_neg (by simp [hst]), inJob_of hl (by simp [hst])]
    have hle : c.p 0 1 ≤ 1 := by omega
    refine congrArg _ (if_neg ?_)
    rw [bitsOf_flag hle, bit_flag hle]
    rcases hjob with ⟨hflag, hzero⟩ | ⟨hflag, hsame⟩
    · simp [hflag, hstep, hzero]
    · simp [hflag, hstep, hsame]
  case landing =>
    rintro slice s e l ⟨hcore, hnext⟩ hthere
    show execLanding slice s = _
    simp only [execLanding, hcore, hnext, hthere, Bool.false_eq_true, if_false]
  case update =>
    rintro q seq refetch s c _ _ _ h ⟨rfl, rfl, hst⟩ ⟨hok, hl, hnorm, hthere⟩ rfl
    show execUpdateRun q seq refetch s = _
    rw [execUpdateRun, runCmd_of h, inJob_of hl (by simp [hst]), if_neg (by simp [hok]), if_neg (by simp [hnorm]), unhitched_of hthere]
  case commit =>
    rintro q seq s c _ h ⟨rfl, hst, hstep, hnone, hupd⟩ hl
    show execStepCommit q seq s = _
    rw [execStepCommit, runCmd_of h, ← stepCommit_arrives hst hstep hnone hupd hl]
    dsimp only
    split
    · rw [if_neg (by simp [hst])]
    · rfl
  case again =>
    rintro q seq s c r h ⟨htries, hst, hlast⟩
    show execStepCommit q seq s = _
    rw [execStepCommit, runCmd_of h]
    simp only [hlast]
    exact congrArg _ (if_pos (by simp [htries, hst]))
  case stall =>
    rintro ctx s w ⟨hs, hw, hstall, hlate⟩
    show execBarrierStall ctx s = _
    simp only [execBarrierStall, hs, hw, Bool.false_eq_true, if_false]
    exact congrArg _ (if_neg (by simpa [hstall] using hlate))
  case release =>
    rintro m peers shards s t x turn ⟨hown, hwaits⟩ ⟨ht, hdone⟩
    exact execBarrierRelease_of turn hown hwaits ht hdone
  case commits =>
    rintro m peers shards s n u v k x t w y turn ⟨hown, ht, hw, hg, hmis⟩ hn ⟨hy, hb, hp, hthere⟩ hr ⟨rfl, hdone⟩
    refine execBarrierRelease_of turn hown (by rw [← ht, hw]; rfl) ?_ hdone
    rw [hmis, releaseStep_commits (memTurn_group turn) ht hw hg hn hy ⟨hb, hp⟩ hthere hr]
    rfl
  case breaks =>
    rintro m peers shards s n x w turn ⟨hown, hw, hg, hmis⟩ hn ⟨hb, hdone⟩
    refine execBarrierRelease_of turn hown (by rw [hw]; rfl) ?_ hdone
    rw [hmis, releaseStep_broken (memTurn_group turn) hw hg hb, hn]
    rfl
  case own =>
    rintro m peers shards s t x r ⟨hx, hr, hsrc⟩ ⟨ht, hdone⟩
    show execBarrierRelease m peers shards s = _
    simp only [execBarrierRelease, hx, hr]
    refine congrArg _ ((if_pos hsrc).trans ?_)
    rw [← ht]
    exact if_neg (by simp [hdone])

end Sys2Proof.Machine
end

section
/-!
A shard compared, kept, restored, filled and exported (spec/09_training_steps.md R249 to R261). `execSnapCopy_of` keeps the partner's
copies, `execRestoreShard_of` and `execFillFromPeer_of` open the checks of the commands that place a shard.
-/

namespace Sys2Proof.Machine

section
variable {s : State} {c : Cmd}

/-- A command that places a shard does so where nothing keeps it from the shard's state (R256, R258). -/
theorem placing_of {s' : State} {ctx : Nat} {j : Bytes}
    (h : hitch s ctx ((jobIn s' ctx j).core ++ (jobIn s' ctx j).buffer) = none) (k : State → State) :
    (jobIn s' ctx j).placing c s k = k s := by
  have hjob : hitch s (jobIn s' ctx j).ctx ((jobIn s' ctx j).core ++ (jobIn s' ctx j).buffer) = none := h
  simp only [Job.placing, hjob]

/-- Writing a region leaves the partner's copies as they are. -/
theorem writeRegion_copies (r i n : Nat) (s : State) : (writeRegion r i n s).deep.copies = s.deep.copies :=
  congrArg (fun t => t.deep.copies) (ends_writeStripes _ _ _ _ s)

/-- No block of the shard reads as poisoned. -/
theorem any_block_clean {x : Job} (h : ∀ j < x.n, (x.block s j).2.2 = false) :
    (List.range x.n).any (fun j => (x.block s j).2.2) = false := by
  simpa [List.any_eq_false] using h

/-- A snapshot of a shard without poisoned blocks is held, and sent where it is asked for (R254, R255). -/
theorem takeSnapshot_of {x : Job} (h : ∀ j < x.n, (x.block s j).2.2 = false) :
    takeSnapshot c x s = sendSnap c (x.shard s (ctxGet s c.ctx).train) (finish c stSuccess
      (natLe 4 (nextSlot s) ++ natLe 4 (ctxGet s c.ctx).train.version ++ natLe 8 (snapBytes x.n))
      (keepSnap (nextSlot s) (snapBytes x.n)
        { shard := x.shard s (ctxGet s c.ctx).train, pages := (snapBytes x.n + pageBytes - 1) / pageBytes } s)) := by
  simp only [takeSnapshot, any_block_clean h, Bool.false_eq_true, if_false]

/-- A new copy of a job's shard counts among those of the job. -/
theorem copiesOf_append {new : Snap} {job : Nat} (h : new.shard.jobId = job) (l : List Snap) :
    ((l ++ [new]).filter (fun y => decide (y.shard.jobId = job))).length
      = (l.filter (fun y => decide (y.shard.jobId = job))).length + 1 := by
  simp [h]

end

section
variable {s : State} {h : MsgHdr} {k : SnapCopy}

/-- A snapshot's copy from the partner, written behind the copies that are held (R255). -/
def withCopy (k : SnapCopy) (s : State) : State :=
  writeRegion 6 s.deep.copyAt (32 * k.pages) { s with deep := { s.deep with
    copyAt := s.deep.copyAt + 32 * k.pages
    copies := s.deep.copies ++ [{ shard := k.shard, pages := k.pages, first := s.deep.copyAt }] } }

/-- The new copy stands last among those of the device. -/
theorem withCopy_copies (k : SnapCopy) (s : State) :
    (withCopy k s).deep.copies = s.deep.copies ++ [{ shard := k.shard, pages := k.pages, first := s.deep.copyAt }] :=
  writeRegion_copies ..

/-- The first copy of a job's shard is given up (R255). -/
def withoutCopy (job : Nat) (old : Snap) (s : State) : State :=
  freeRegion 6 (fun n => old.first ≤ n && n < old.first + 32 * old.pages)
    { s with deep := { s.deep with copies := listEraseFirst (fun y => decide (y.shard.jobId = job)) s.deep.copies } }

/-- Of the copies of a job's shard the two most recent are kept (R255). -/
def keepTwo (job : Nat) (s : State) : State :=
  if 2 < (s.deep.copies.filter (fun y => decide (y.shard.jobId = job))).length then
    (match s.deep.copies.find? (fun y => decide (y.shard.jobId = job)) with
     | some old => withoutCopy job old s
     | none => s)
  else s

section
variable (turn : msgTurn s h 2 = true)
  (hpair : (s.jr.pair = .bound ∨ s.jr.pair = .binding) ∧ h.src = s.jr.partner ∧ mirrorPort s h.port = true)
  (hroom : flashRuns s = true ∧ k.pages ≤ poolFree s 0 2 ∧ s.deep.spare ≠ 0)
include turn hpair hroom

/-- A copy from the partner is kept, if there is room, and of a job's copies the two most recent (R255). -/
theorem execSnapCopy_of :
    execSnapCopy h k s = .next (ackNow h.src 2 h.mseq h.srcBoot false (keepTwo k.shard.jobId (withCopy k s))) := by
  obtain ⟨hbound, hsrc, hport⟩ := hpair
  obtain ⟨hruns, hfree, hspare⟩ := hroom
  have hpool : ¬(decide (poolFree s 0 2 < k.pages) || decide (s.deep.spare = 0)) = true := by simp [hspare, hfree]
  rw [execSnapCopy, receivePair_of turn hbound hsrc hport]
  refine congrArg _ (receive_delivered turn ?_)
  rw [if_neg (by simp [hruns])]
  exact congrArg (·, some false) (if_neg hpool)

/-- A copy of a job that has fewer than two here is kept beside them. -/
theorem execSnapCopy_keeps (hfew : (s.deep.copies.filter (fun y => decide (y.shard.jobId = k.shard.jobId))).length < 2) :
    execSnapCopy h k s = .next (ackNow h.src 2 h.mseq h.srcBoot false (withCopy k s)) := by
  rw [execSnapCopy_of turn hpair hroom, keepTwo, withCopy_copies, copiesOf_append (job := k.shard.jobId) rfl, if_neg (by omega)]

/-- A copy of a job that has two here takes the place of the older one. -/
theorem execSnapCopy_replaces {old : Snap}
    (htwo : 2 ≤ (s.deep.copies.filter (fun y => decide (y.shard.jobId = k.shard.jobId))).length)
    (hold : s.deep.copies.find? (fun y => decide (y.shard.jobId = k.shard.jobId)) = some old) :
    execSnapCopy h k s = .next (ackNow h.src 2 h.mseq h.srcBoot false (withoutCopy k.shard.jobId old (withCopy k s))) := by
  rw [execSnapCopy_of turn hpair hroom, keepTwo, withCopy_copies, copiesOf_append (job := k.shard.jobId) rfl, if_pos (by omega),
    List.find?_append, hold]
  rfl

end

end

/-- RESTORE of an allowed source, whose data have their digest, places the shard (R256): the slot, the partner or the replica has it, and
its pages are there. -/
theorem execRestoreShard_of {q : Fin 512} {seq : Nat} {peer : Option ShardData} {s n : State} {c : Cmd} {d : ShardData} {j : Bytes}
    (h : hostRuns s q seq 0x605 true [(0, 12)] c = true)
    (hst : (ctxGet s c.ctx).train.st ≠ .opened ∧ (c.tries = 0 ∨ (ctxGet s c.ctx).train.st ≠ .broken) ∧ outcast s c.ctx = false)
    (hop : c.p 0 1 ≤ 2 ∧ c.p 1 1 ≤ 1 ∧ c.p 2 2 < 4096)
    (hsrc : (c.p 0 1 = 0 ∧ flashRuns s = true ∧ (mapFind s.deep.slots (c.p 1 1)).map (fun k => k.shard) = some d)
      ∨ (c.p 0 1 ≠ 0 ∧ peer = some d))
    (hjob : j = takeJob (ctxGet s c.ctx).train d ∧ d.jobId = c.p 4 4 ∧ (c.p 8 4 = 0xFFFFFFFF ∨ d.version = c.p 8 4)
      ∧ jobOk s c.ctx j = true)
    (hn : n = noteRestore c.ctx (if c.p 0 1 = 0 then readRegion (3 + c.p 1 1) s else s))
    (hthere : hitch n c.ctx ((jobIn s c.ctx j).core ++ (jobIn s c.ctx j).buffer) = none)
    (hdig : shardDigest d (jobIn s c.ctx j).first (jobIn s c.ctx j).n = d.digest) :
    execRestoreShard q seq peer s = .next (restoreShard c j d n) := by
  obtain ⟨hopen, htries, hcast⟩ := hst
  obtain ⟨hkind, hslot, hrep⟩ := hop
  obtain ⟨rfl, hid, hver, hok⟩ := hjob
  have hstate : [TrainSt.none, .idle, .repair, .broken].contains (ctxGet s c.ctx).train.st = true := by
    revert hopen
    cases (ctxGet s c.ctx).train.st <;> decide
  have hfrom : restoreFrom c peer s = some d := by
    rcases hsrc with ⟨hk, -, hd⟩ | ⟨hk, hd⟩
    · rw [restoreFrom, if_pos hk, hd]
    · rw [restoreFrom, if_neg hk, hd]
  have hruns : c.p 0 1 = 0 → flashRuns s = true := fun hk => hsrc.elim (·.2.1) (absurd hk ·.1)
  rw [execRestoreShard, runCmd_of h, if_neg (ne_true_of_eq_false hcast), inState_of hstate]
  simp only [hfrom]
  rw [if_neg (by simpa [Nat.pos_iff_ne_zero, or_iff_not_imp_left] using htries), if_neg (by simp [hkind, hslot, hrep]),
    if_neg (by simpa using hruns), if_neg (by simpa [hid, hok, or_iff_not_imp_left] using hver), if_neg (not_not_intro hdig), ← hn,
    placing_of hthere]

section
variable {s : State} {c : Cmd} {y : Group} {t : Train} {d : ShardData} {j : Bytes} {peer : Option ShardData} {snap : Option SnapCopy}

/-- FILL_FROM_PEER of an allowed member loads what the source of its turn delivers (R258). -/
theorem execFillFromPeer_of {q : Fin 512} {seq : Nat} (h : hostRuns s q seq 0x607 true [(0, 9)] c = true)
    (ht : t = (ctxGet s c.ctx).train) (hst : t.st = .none ∨ t.st = .repair)
    (hy : groupGet s (c.p 0 4) = some y ∧ y.liveList ≠ [] ∧ y.stateOf y.own ≠ 2 ∧ fillBad c y (t.filling = some c.jidx) = false
      ∧ fillWaits s c = false)
    (hsrc : (c.p 8 1 = 0 ∨ flashRuns s = true) ∧ peer = some d ∧ fillTakes c y t j (jobReplica d.jobDef) = true)
    (hjob : j = fillJob y d ∧ jobGroup j = c.p 0 4 ∧ jobShard j = c.p 6 2 ∧ jobOk s c.ctx j = true)
    (hthere : hitch s c.ctx ((jobIn s c.ctx j).core ++ (jobIn s c.ctx j).buffer) = none) :
    execFillFromPeer q seq peer snap s = .next (fillLoad c y d j snap s) := by
  subst ht
  obtain ⟨hgroup, hl, ho, hbad, hwait⟩ := hy
  obtain ⟨hflash, rfl, htakes⟩ := hsrc
  obtain ⟨rfl, hgrp, hshard, hok⟩ := hjob
  have hstate : [TrainSt.none, .repair].contains (ctxGet s c.ctx).train.st = true := by
    rcases hst with hst | hst <;> simp [hst]
  have hsnap : ¬(fillWaits s c || c.bit 8 0 && !flashRuns s) = true := by
    rcases hflash with hflag | hruns
    · simp [hwait, Cmd.bit, hflag, bitOf]
    · simp [hwait, hruns]
  rw [execFillFromPeer, runCmd_of h]
  dsimp only
  rw [if_neg (by simp [hgroup, hl, ho]), if_neg (by rcases hst with hst | hst <;> simp [hst]), inState_of hstate]
  simp only [hgroup, fillBody]
  rw [if_neg (ne_true_of_eq_false hbad), if_neg hsnap, if_neg (by simp [hgrp, hshard, hok]), if_neg (by simp [htakes]),
    placing_of hthere]

/-- The blocks that a source delivered and that agree with its digests, loaded and counted as verified (R258). -/
def fillProgress (c : Cmd) (d : ShardData) (j : Bytes) (x : Job) (k : Nat) (s : State) : State :=
  trainMod c.ctx (fun t => {
      ring := t.ring, counters := t.counters, st := t.st, job := j, version := d.version, selPhase := d.selPhase
      verified := k + (fillGood x d k).length, filling := some c.jidx, fillGone := t.fillGone })
    ((fillGood x d k).foldl (fun s i => x.loadBlock d d.selPhase i s) s)

variable {x : Job} {k : Nat} (hx : x = jobIn s c.ctx j) (hk : k = fillKnown (ctxGet s c.ctx).train d j) (hstart : d.start ≤ k)
include hx hk hstart

/-- With the last block verified the fill is done (R258). -/
theorem fillLoad_whole (hall : k + (fillGood x d k).length = x.n) :
    fillLoad c y d j snap s = fillDone c y x d snap (fillProgress c d j x k s) := by
  subst hx hk
  simp only [fillLoad, fillProgress, hstart, hall, if_true]

/-- A source that stops early, with good blocks alone, leaves the fill to what comes next (R259). -/
theorem fillLoad_part (hsome : k + (fillGood x d k).length < x.n)
    (hgood : d.start + d.blocks.length ≤ k + (fillGood x d k).length) :
    fillLoad c y d j snap s = fillProgress c d j x k s := by
  subst hx hk
  simp only [fillLoad, hstart, if_true]
  rw [if_neg (Nat.ne_of_lt hsome), if_neg (Nat.not_lt.mpr hgood)]
  rfl

end

/-- Settles O25, row by row: the hypotheses of a clause say that none of the row's refusals applies, and that what the row waits for is
there. -/
theorem shardCommandsRun : Obligations.ShardCommandsRun := by
  unfold Obligations.ShardCommandsRun
  refine ⟨?compare, ?snapshot, ?copy, ?third, ?restore, ?filled, ?fills, ?exported⟩
  case compare =>
    rintro q seq peers s c t x h ⟨rfl, rfl, hst⟩ ⟨hflags, hl, hthere⟩ hclean
    show execDigestCompare q seq peers s = _
    rw [execDigestCompare, runCmd_of h, inJob_of hl (by simp [hst])]
    dsimp only
    rw [if_neg (by simp [bitsOf_flag hflags]), unhitched_of hthere, any_block_clean hclean, bit_flag hflags]
    simp only [decide_eq_true_eq, Bool.false_eq_true, if_false]
  case snapshot =>
    rintro q seq s c t x h ⟨rfl, rfl, hst⟩ ⟨hflags, hl, hfits, hruns, hthere⟩ hclean
    show execSnapshot q seq s = _
    rw [execSnapshot, runCmd_of h, inJob_of hl (by simp [hst])]
    dsimp only
    rw [if_neg (by simp [bitsOf_flag hflags]), if_neg (Nat.not_lt.mpr hfits), if_neg (by simp [hruns]), unhitched_of hthere,
      takeSnapshot_of hclean]
  case copy =>
    rintro h k s turn hpair ⟨hruns, hfree, hspare, hfew⟩
    exact execSnapCopy_keeps turn hpair ⟨hruns, hfree, hspare⟩ hfew
  case third =>
    rintro h k s _ old turn hpair ⟨hruns, hfree, hspare, htwo⟩ hold rfl
    exact execSnapCopy_replaces turn hpair ⟨hruns, hfree, hspare⟩ htwo hold
  case restore =>
    rintro q seq peer s n _ c d j h hst hop hsrc hjob hn ⟨hthere, hdig⟩ rfl
    exact execRestoreShard_of h hst hop hsrc hjob hn hthere hdig
  case filled =>
    rintro q seq peer snap s c y t d j x k h ⟨rfl, hst⟩ hy hsrc hjob ⟨rfl, hthere, hk, hstart⟩ hall
    show execFillFromPeer q seq peer snap s = _
    rw [execFillFromPeer_of h rfl hst hy hsrc hjob hthere, fillLoad_whole rfl hk hstart hall, fillProgress, hall]
  case fills =>
    rintro q seq peer snap s c y t d j x k h ⟨rfl, hst⟩ hy hsrc hjob ⟨rfl, hthere, hk, hstart⟩ ⟨hsome, hgood⟩
    show execFillFromPeer q seq peer snap s = _
    rw [execFillFromPeer_of h rfl hst hy hsrc hjob hthere, fillLoad_part rfl hk hstart hsome hgood, fillProgress]
  case exported =>
    rintro q seq s c e x h hst ⟨rfl, rfl, hok⟩ ⟨hl, hthere⟩ hclean
    show execExportShard q seq s = _
    rw [execExportShard, runCmd_of h, inJob_of hl (by rcases hst with hst | hst <;> simp [hst])]
    dsimp only
    rw [if_neg (ne_true_of_eq_false hok), unhitched_of hthere, exportBody, hclean]
    rfl

end Sys2Proof.Machine
end

section
/-!
Ports of the Zilet link and the flits on them (spec/10_zilet_links.md R265 to R280; R291, R468). A training attempt that may run
(`mayTrain`) takes the half of the port whose lanes all pass; a FLIT_RECEIVE on a port that carries flits does what `flitIn` says, by
what the flit's check and header show; a row about a waiting packet does what the port chosen for it allows.
-/

namespace Sys2Proof.Machine

/-! ### Training, recovery and loss (R265 to R269, R291, R468) -/

section
variable {port : Fin 32} {s : State}

/-- A port may start a training attempt: it is DOWN and in use, its die is on and clocked, and its last attempt is a second ago (R265). -/
def mayTrain (port : Fin 32) (s : State) : Prop :=
  (portGet s port).st = .down ∧ s.dev.safe = false ∧ s.sup.zlRefclk = true ∧ linkDie s port = true ∧ s.host.portOut.getLsbD port = false ∧
    (portGet s port).tried.all (fun n => n + 100000000 ≤ s.clk.ltc) = true

/-- The port after an attempt whose lanes make it `st`, on the upper half if `up`: in TRAINING, with this side's HELLO sent (R266). -/
def trainedAs (port : Fin 32) (lanes : BitVec 8) (st : PortState) (up : Bool) (s : State) : State :=
  sendHello port (portMod port (fun x => { x with st := .training, pending := some st, upper := up, failLanes := ~~~lanes })
    (portMod port (fun x => { x with tried := some s.clk.ltc, since := s.clk.ltc }) s))

/-- None of the lanes of a half fails just where all of them pass. -/
theorem not_and_eq_zero_iff {w : Nat} (a m : BitVec w) : ~~~a &&& m = 0#w ↔ a &&& m = m := by
  simp only [BitVec.eq_of_getElem_eq_iff, BitVec.getElem_and, BitVec.getElem_not, BitVec.getElem_zero]
  refine forall₂_congr fun i hi => ?_
  cases a[i] <;> cases m[i] <;> decide

/-- A tick, where there is one, from which `gap` has passed is none from which it has still to pass. -/
theorem not_stillResting {o : Option Nat} {gap now : Nat} (h : o.all (fun n => n + gap ≤ now) = true) :
    o.any (fun n => now < n + gap) = false := by
  cases o with
  | none => rfl
  | some n => simpa using h

/-- The attempt by its lanes: all of them, all of the lower half, all of the upper half, or neither (R266). -/
theorem execTrainingAttempt_of (h : mayTrain port s) (lanes : BitVec 8) :
    execTrainingAttempt port lanes s = .next (
      if lanes = 0xFF#8 then trainedAs port lanes .up false s
      else if lanes &&& 0x0F#8 = 0x0F#8 then trainedAs port lanes .upX4 false s
      else if lanes &&& 0xF0#8 = 0xF0#8 then trainedAs port lanes .upX4 true s
      else zlBump (zcPort port 8) 1 (portMod port (fun x => { x with tried := some s.clk.ltc, since := s.clk.ltc }) s)) := by
  obtain ⟨hst, hsafe, hclk, hdie, hout, htried⟩ := h
  have hrested : (portGet s port).tried.any (fun t => s.clk.ltc < t + 100000000) = false :=
    not_stillResting htried
  have hall : ~~~lanes = 0#8 ↔ lanes = 0xFF#8 := BitVec.not_eq_comm.trans (by rw [BitVec.not_zero]; rfl)
  simp only [execTrainingAttempt, trainedAs, hst, hsafe, hclk, hdie, hout, hrested, hall, not_and_eq_zero_iff, ne_eq,
    not_true_eq_false, decide_false, Bool.not_true, Bool.or_self, Bool.false_eq_true, if_false]

/-- A HELLO without a conflict ends the training of a port (R265, R266, R291). -/
theorem execHello_completes {payload : BitVec 128} {st : PortState} (hsafe : s.dev.safe = false)
    (hst : (portGet s port).st = .training) (hpend : (portGet s port).pending = some st)
    (hfree : idConflict (portMod port (fun x => { x with hello := some payload }) s) port payload = false) :
    execHello port payload s = .next (helloPair port (mirrorCheck (autoRoutes (
      if st = .upX4 then
        raise (srcZlDegraded + port) 0 (portGet s port).failLanes.toNat
          (portMod port (fun x => { x with st := st, pending := none }) (portMod port (fun x => { x with hello := some payload }) s))
      else portMod port (fun x => { x with st := st, pending := none }) (portMod port (fun x => { x with hello := some payload }) s))))) := by
  rw [execHello, if_neg (by simp [hsafe, hst, hpend])]
  simp only [hfree, hst, hpend, Bool.false_eq_true, if_false, reduceCtorEq]

/-- A HELLO with a conflict isolates a port that carries flits (R294). -/
theorem execHello_isolates {payload : BitVec 128} (hsafe : s.dev.safe = false) (hlive : (portGet s port).live = true)
    (hconf : idConflict (portMod port (fun x => { x with hello := some payload }) s) port payload = true) :
    execHello port payload s = .next (mirrorCheck (autoRoutes (raise (srcZlConflict + port) 0 ((hId payload).getD 0)
      (portLeave port .isolated (portMod port (fun x => { x with hello := some payload }) s))))) := by
  have hst : (portGet s port).st ≠ .isolated := by
    intro h
    simp [Port.live, h] at hlive
  rw [execHello, if_neg (by simp [hsafe, hlive])]
  simp only [hconf, hst, if_true, if_false]

/-- A port that is neither DISABLED, DOWN nor SAFE passes the check of the rows that take it DOWN. -/
theorem not_downAlready {st : PortState} (h : st ≠ .disabled ∧ st ≠ .down ∧ st ≠ .safe) :
    ¬(decide (st = .disabled) || decide (st = .down) || decide (st = .safe)) = true := by
  simp [h]

end

/-- Settles O16, row by row: the trigger of a clause opens the row's own check. -/
theorem portTrainingRun : Obligations.PortTrainingRun := by
  unfold Obligations.PortTrainingRun
  refine ⟨?lower, ?upper, ?timeout, ?completes, ?conflict, ?exits, ?fails, ?signal, ?peer, ?refclk⟩
  case lower =>
    intro port lanes s h hlanes
    show execTrainingAttempt port lanes s = _
    rw [execTrainingAttempt_of h]
    by_cases hall : lanes = 0xFF#8
    · rw [if_pos hall, if_pos hall, trainedAs]
    · rw [if_neg hall, if_neg hall, if_pos (hlanes.resolve_left hall), trainedAs]
  case upper =>
    rintro port lanes s h ⟨hlow, hhigh⟩
    show execTrainingAttempt port lanes s = _
    have hall : lanes ≠ 0xFF#8 := by
      rintro rfl
      exact hlow rfl
    rw [execTrainingAttempt_of h, if_neg hall, if_neg hlow, if_pos hhigh, trainedAs]
  case timeout =>
    rintro port s ⟨hst, hlate⟩
    show execTrainingTimeout port s = _
    rw [execTrainingTimeout, if_pos (by simp [hst, hlate])]
  case completes =>
    rintro port payload s _ st ⟨hsafe, hst, hpend⟩ ⟨rfl, hfree⟩
    exact execHello_completes hsafe hst hpend hfree
  case conflict =>
    rintro port payload s _ ⟨hsafe, hlive⟩ ⟨rfl, hconf⟩
    exact execHello_isolates hsafe hlive hconf
  case exits =>
    rintro port s _ hst rfl
    show execRecoveryExit port s = _
    rw [execRecoveryExit, if_pos hst]
  case fails =>
    rintro port s ⟨hst, hlate⟩
    show execRecoveryTimeout port s = _
    rw [execRecoveryTimeout, if_pos (by simp [hst, hlate])]
  case signal =>
    intro port s h
    show execLossOfSignal port s = _
    rw [execLossOfSignal, if_neg (not_downAlready h)]
  case peer =>
    intro port s h
    show execPeerSafe port s = _
    rw [execPeerSafe, if_neg (not_downAlready h)]
  case refclk =>
    intro s
    show execZlRefclkLoss s = _
    simp only [execZlRefclkLoss, Bool.or_eq_true, decide_eq_true_eq, or_assoc]

/-! ### Flits received (R267 to R269, R272) -/

section
variable {port : Fin 32} {s : State}

/-- Counting on a link leaves every port as it was. -/
@[simp] theorem portGet_zlBump (k n p : Nat) (s : State) : portGet (zlBump k n s) p = portGet s p := rfl

/-- A port that carries flits passes the check of FLIT_RECEIVE. -/
theorem not_flitIgnored (hlive : (portGet s port).live = true) (hsafe : s.dev.safe = false) :
    ¬(!(portGet s port).live || s.dev.safe) = true := by
  simp [hlive, hsafe]

/-- A flit that the FEC did not correct is asked for again, and the answer goes back at once (R267, R268). -/
theorem execFlitReceive_uncorrected (hlive : (portGet s port).live = true) (hsafe : s.dev.safe = false) (flit : Bytes) :
    execFlitReceive port none flit s = .next (answerNow port (badFlit port (zlBump (zcPort port 3) 1 s))) := by
  rw [execFlitReceive, if_neg (not_flitIgnored hlive hsafe)]

/-- One that it corrected is taken by its check and header, and the answer goes back at once (R267, R268). -/
theorem execFlitReceive_corrected (hlive : (portGet s port).live = true) (hsafe : s.dev.safe = false) (n : Nat) (flit : Bytes) :
    execFlitReceive port (some n) flit s = .next (answerNow port (flitIn port flit (zlBump (zcPort port 2) n s))) := by
  rw [execFlitReceive, if_neg (not_flitIgnored hlive hsafe)]

/-- An intact DATA or ABORT flit in order is accepted (R268). -/
theorem flitIn_accepts {p : Nat} {flit : Bytes} (hcrc : crc32c (byteSlice flit 0 252) = fieldBytes flit 252 4)
    (htype : bitsOf (fieldBytes flit 0 12) 69 66 = 1 ∨ bitsOf (fieldBytes flit 0 12) 69 66 = 2)
    (hseq : bitsOf (fieldBytes flit 0 12) 95 84 = (portGet s p).rxSeq) :
    flitIn p flit s = acceptFlit p (fieldBytes flit 0 12) flit s := by
  have hdata : ¬(decide (bitsOf (fieldBytes flit 0 12) 69 66 ≠ 1) && decide (bitsOf (fieldBytes flit 0 12) 69 66 ≠ 2)) = true := by
    rcases htype with htype | htype <;> simp [htype]
  rw [flitIn, if_neg (not_not_intro hcrc), if_neg hdata, if_neg (not_not_intro hseq)]

/-- Of an intact IDLE or CONTROL flit the header alone is read (R268, R272). -/
theorem flitIn_plain {p : Nat} {flit : Bytes} (hcrc : crc32c (byteSlice flit 0 252) = fieldBytes flit 252 4)
    (htype : bitsOf (fieldBytes flit 0 12) 69 66 ≠ 1 ∧ bitsOf (fieldBytes flit 0 12) 69 66 ≠ 2) :
    flitIn p flit s = flitNews p (fieldBytes flit 0 12) s := by
  rw [flitIn, if_neg (not_not_intro hcrc), if_pos (by simp [htype])]

/-- A flit whose CRC fails is discarded and asked for again (R268). -/
theorem flitIn_damaged {p : Nat} {flit : Bytes} (hcrc : crc32c (byteSlice flit 0 252) ≠ fieldBytes flit 252 4) :
    flitIn p flit s = badFlit p (zlBump (zcPort p 4) 1 s) := by
  rw [flitIn, if_pos hcrc]

end

/-! ### Packets that wait (R273, R274, R280) -/

section
variable {index : Nat} {w : Waiting} {s : State}

/-- A device with an id whose fabric runs passes the check of PACKET_FORWARD (R40, R276). -/
theorem not_forwardBarred (hsafe : s.dev.safe = false) (hid : s.dev.zlId.isSome = true) (hruns : stalled s s.sup.fabMv = false) :
    ¬(s.dev.safe || s.dev.zlId.isNone || stalled s s.sup.fabMv) = true := by
  rw [hsafe, hruns, Option.isNone_eq_false_iff.mpr hid]
  decide

/-- NO_ROUTE discards a packet that has waited 100 µs with no port of its route usable (R274). -/
theorem execNoRoute_discards (hw : s.zl.waiting[index]? = some w) (hlate : w.since + 10000 ≤ s.clk.ltc)
    (hesc : escapePort s w = none) (hadapt : 2 ≤ w.pkt.vc ∨ adaptPorts s w = []) :
    execNoRoute index s = .next (discardPacket w (zlBump (zcDev 1) 1 (dropWaiting index s))) := by
  simp only [execNoRoute, hw]
  rw [if_pos (by simp [hlate, hesc, hadapt])]

/-- ESCAPE_TIMEOUT moves a packet that has waited 1 µs for an adaptive port to its escape channel (R280). -/
theorem execEscapeTimeout_escapes (hw : s.zl.waiting[index]? = some w) (hlate : w.since + 100 ≤ s.clk.ltc) (hvc : w.pkt.vc < 2)
    (hnone : choosePort s w = none) (hesc : (escapePort s w).isSome = true) :
    execEscapeTimeout index s = .next { s with zl := { s.zl with waiting := listSet s.zl.waiting index w.escape } } := by
  simp only [execEscapeTimeout, hw]
  rw [if_pos (by simp [hlate, hvc, hnone, hesc])]

end

/-- Settles O17, row by row: what a clause says of the port, the flit or the waiting packet picks the branch that the row takes. -/
theorem flitsRun : Obligations.FlitsRun := by
  unfold Obligations.FlitsRun
  refine ⟨?nak, ?timeout, ?rate, ?accepted, ?plain, ?bad, ?forward, ?waits, ?noRoute, ?escape⟩
  case nak =>
    intro port fseq s
    show execNak port fseq s = _
    rw [execNak]
  case timeout =>
    rintro port s ⟨hsent, hlate⟩
    show execAckTimeout port s = _
    rw [execAckTimeout, if_neg (by simp [hsent, hlate])]
  case rate =>
    intro port s
    show execRetryRateCheck port s = _
    rw [execRetryRateCheck]
  case accepted =>
    rintro port n flit s ⟨hlive, hsafe⟩ hcrc htype hseq
    show execFlitReceive port (some n) flit s = _
    rw [execFlitReceive_corrected hlive hsafe, flitIn_accepts hcrc htype (by rwa [portGet_zlBump])]
  case plain =>
    rintro port n flit s ⟨hlive, hsafe⟩ hcrc htype
    show execFlitReceive port (some n) flit s = _
    rw [execFlitReceive_corrected hlive hsafe, flitIn_plain hcrc htype]
  case bad =>
    rintro port fec flit s ⟨hlive, hsafe⟩ hcrc
    show execFlitReceive port fec flit s = _
    cases fec with
    | none => rw [execFlitReceive_uncorrected hlive hsafe]
    | some n => rw [execFlitReceive_corrected hlive hsafe, flitIn_damaged (hcrc rfl)]
  case forward =>
    rintro index p w s _ ⟨hsafe, hid, hruns⟩ ⟨hw, hport⟩ rfl
    show execPacketForward index s = _
    rw [execPacketForward, if_neg (not_forwardBarred hsafe hid hruns)]
    cases hfrom : w.from_ <;> simp only [hw, hport, hfrom]
  case waits =>
    rintro index w s ⟨hsafe, hid, hruns⟩ ⟨hw, hport⟩
    show execPacketForward index s = _
    rw [execPacketForward, if_neg (not_forwardBarred hsafe hid hruns)]
    simp only [hw, hport]
  case noRoute =>
    rintro index w s ⟨hw, hlate, hesc, hadapt⟩
    exact execNoRoute_discards hw hlate hesc hadapt
  case escape =>
    rintro index w s ⟨hw, hlate, hvc, hnone, hesc⟩
    exact execEscapeTimeout_escapes hw hlate hvc hnone hesc

end Sys2Proof.Machine
end

section
/-!
What a step can do to the setpoints, the tokens, the leaf index, the policy and the queue of waiting commands (Laws/Kept.lean):
`KeptChange` lists it once, over all commands, and each invariant is a case analysis of that list (spec/16_startup_trust.md R434, R435,
R441, R444; spec/17_package_power_cooling.md R448, R452, R455).
-/

namespace Sys2Proof.Machine

/-! ### What a command can do to them -/

/-- The commands that can take a token (R444). -/
inductive TakesToken : Instr → Prop
  | attest (q : Fin 512) (seq : Nat) : TakesToken (.attest q seq)
  | challenge (box : Fin 3) (slot : Nat) (nonce : Bytes) : TakesToken (.challenge box slot nonce)
  | getMeasurements (box : Fin 3) (index : Nat) (signed : Bool) (nonce : Bytes) : TakesToken (.getMeasurements box index signed nonce)

/-- What the command `c` can make of what `Kept` gathers of the state `s`. -/
inductive KeptChange (c : Instr) (s : State) : Kept → Prop
  | same : KeptChange c s (kept s)
  | signed (lms : Bool) (hc : TakesToken c) (htoken : s.trust.tokens ≠ 0) (hleaf : lms → s.trust.leaf < lmsLeaves) :
    KeptChange c s ((kept s).signed lms)
  | refilled : KeptChange c s { kept s with tokens := min 8 (s.trust.tokens + 1) }
  | restarted : KeptChange c s (kept s).restart
  | chipReset : KeptChange c s (kept s).chip
  | attempted : KeptChange c s (kept s).attempt
  | policy (hc : c = .readyHigh) : KeptChange c s ((kept s).policy (bootedImage s))
  | lowered (u : Supply) (hcore : u.coreMv = s.sup.coreMv) (hfab : u.fabMv = s.sup.fabMv) (hduty : u.duty = s.sup.duty) :
    KeptChange c s (keptOf (lowerStep u) s.trust s.pending)
  | raised (u : Supply) (hcore : u.coreMv = s.sup.coreMv) (hfab : u.fabMv = s.sup.fabMv) (hduty : u.duty = s.sup.duty) :
    KeptChange c s (keptOf (raiseStep u) s.trust s.pending)

/-- An outcome that has what `Kept` gathers is a next state. -/
theorem next_of_outKept {o : Host.Outcome State Fault Refusal} {k : Kept} (h : outKept o = some k) : ∃ t, o = .next t := by
  cases o with
  | next t => exact ⟨t, rfl⟩
  | _ => cases h

theorem execVin52Rise_next {mv : Nat} (h : mv ≤ 62000) (s : State) : ∃ t, execVin52Rise mv s = .next t :=
  ⟨_, if_neg (Nat.not_lt.mpr h)⟩

theorem exec_vin52Rise_over {mv : Nat} (h : 62000 < mv) {s : State} : exec (.vin52Rise mv) s = .fault .absoluteMaximum := if_pos h

/-- Every command but an input voltage beyond the absolute maximum makes one of these changes. -/
theorem exec_keptChange (c : Instr) (s : State) (hmax : ∀ mv, c = .vin52Rise mv → mv ≤ 62000) :
    ∃ k, outKept (exec c s) = some k ∧ KeptChange c s k := by
  cases hc : changesKept c with
  | false => exact ⟨_, k_exec c s hc, .same⟩
  | true =>
    cases c with
    | attest q seq =>
      obtain h | ⟨lms, htoken, hleaf, h⟩ := k_execAttest_cases q seq s
      · exact ⟨_, h, .same⟩
      · exact ⟨_, h, .signed lms (.attest q seq) htoken hleaf⟩
    | challenge box slot nonce =>
      obtain h | ⟨htoken, h⟩ := k_execChallenge_cases box slot nonce s
      · exact ⟨_, h, .same⟩
      · exact ⟨_, h, .signed _ (.challenge box slot nonce) htoken of_decide_eq_true⟩
    | getMeasurements box index signed nonce =>
      obtain h | ⟨htoken, h⟩ := k_execGetMeasurements_cases box index signed nonce s
      · exact ⟨_, h, .same⟩
      · exact ⟨_, h, .signed _ (.getMeasurements box index signed nonce) htoken of_decide_eq_true⟩
    | tokenRefill => exact (k_execTokenRefill_cases s).elim (⟨_, ·, .same⟩) (⟨_, ·, .refilled⟩)
    | conversionStop => exact (k_execConversionStop_cases s).elim (⟨_, ·, .same⟩) (⟨_, ·, .restarted⟩)
    | vin52Loss => exact ⟨_, k_execVin52Loss s, .restarted⟩
    | vin52Sag mv => exact (k_execVin52Sag_cases mv s).elim (⟨_, ·, .same⟩) (⟨_, ·, .restarted⟩)
    | convShutdown die => exact (k_execConvShutdown_cases die s).elim (⟨_, ·, .same⟩) (⟨_, ·, .restarted⟩)
    | chipReset unread => exact (k_execChipReset_cases unread s).elim (⟨_, ·, .same⟩) (⟨_, ·, .chipReset⟩)
    | bootRomLoad => exact (k_execBootRomLoad_cases s).elim (⟨_, ·, .same⟩) (⟨_, ·, .attempted⟩)
    | readyHigh => exact (k_execReadyHigh_cases s).elim (⟨_, ·, .same⟩) (⟨_, ·, .policy rfl⟩)
    | powerReading mw =>
      obtain h | ⟨u, hcore, hfab, hduty, h | h⟩ := k_execPowerReading_cases mw s
      · exact ⟨_, h, .same⟩
      · exact ⟨_, h, .lowered u hcore hfab hduty⟩
      · exact ⟨_, h, .raised u hcore hfab hduty⟩
    | vin52Rise mv =>
      obtain ⟨t, ht⟩ := execVin52Rise_next (hmax mv rfl) s
      refine ⟨kept s, ?_, .same⟩
      exact (congrArg outKept ht).trans (congrArg some (k_execVin52Rise mv s ht))
    | _ => exact Bool.noConfusion hc

/-- So does a command that answers a next state. -/
theorem keptChange_of_exec {c : Instr} {s t : State} (e : exec c s = .next t) : KeptChange c s (kept t) := by
  have hmax : ∀ mv, c = .vin52Rise mv → mv ≤ 62000 := by
    rintro mv rfl
    refine Nat.not_lt.mp fun hover => ?_
    rw [exec_vin52Rise_over hover] at e
    cases e
  obtain ⟨k, hk, change⟩ := exec_keptChange c s hmax
  rw [e, outKept_next] at hk
  exact Option.some.inj hk ▸ change

/-- A step is a tick, which changes none of them, or such a command. -/
theorem keptChange_of_step {s t : State} (e : step s = .next t) :
    kept t = kept s ∨ ∃ c l, s.pending = c :: l ∧ KeptChange c { s with pending := l } (kept t) := by
  cases hp : s.pending with
  | nil =>
    simp only [step, hp] at e
    cases e
    exact .inl k_tick
  | cons c l =>
    simp only [step, hp] at e
    exact .inr ⟨c, l, rfl, keptChange_of_exec e⟩

/-- Settles O41: it is the equation of step for a queue with a command at its front. -/
theorem stepRunsFrontCommand : Obligations.StepRunsFrontCommand := by
  unfold Obligations.StepRunsFrontCommand
  intro c l s
  rfl

/-- Settles O43: no change of `KeptChange` touches the queue. -/
theorem commandsLeaveTheQueue : Obligations.CommandsLeaveTheQueue := by
  unfold Obligations.CommandsLeaveTheQueue
  intro c s t e
  have hpending : ∀ k, KeptChange c s k → k.pending = s.pending := by
    intro k change
    cases change <;> rfl
  exact hpending _ (keptChange_of_exec e)

/-- Settles O44: a command whose outcome has what `Kept` gathers answers a next state. -/
theorem onlyOvervoltageStops : Obligations.OnlyOvervoltageStops := by
  unfold Obligations.OnlyOvervoltageStops
  refine ⟨fun c s hmax => ?_, fun mv s hover => exec_vin52Rise_over hover⟩
  obtain ⟨k, hk, -⟩ := exec_keptChange c s hmax
  exact next_of_outKept hk

/-! ### The invariant (R435, R441, R444, R452, R455) -/

/-- The invariant of Safety.lean, of what `Kept` gathers. -/
def Kept.inRange (k : Kept) : Bool :=
  setpointsOk k.coreMv k.fabMv k.duty && decide (k.tokens ≤ 8) && decide (k.leaf ≤ lmsLeaves) && decide (k.attempts < 2)

theorem inv_eq_inRange (s : State) : Inv s = (kept s).inRange := rfl

theorem Kept.inRange_iff (k : Kept) : k.inRange = true ↔
    setpointsOk k.coreMv k.fabMv k.duty = true ∧ k.tokens ≤ 8 ∧ k.leaf ≤ lmsLeaves ∧ k.attempts < 2 := by
  simp only [Kept.inRange, Bool.and_eq_true, decide_eq_true_eq, and_assoc]

theorem setpointsOk_iff (core fab duty : Nat) : setpointsOk core fab duty = true ↔
    (650 ≤ core ∧ core ≤ 750 ∧ core % 10 = 0) ∧ (700 ≤ fab ∧ fab ≤ 750 ∧ fab % 10 = 0) ∧ (core ≤ fab ∧ fab ≤ core + 50) ∧
    1 ≤ duty ∧ duty ≤ 8 := by
  simp only [setpointsOk, Bool.and_eq_true, decide_eq_true_eq, and_assoc]

theorem setpointsOk_start : setpointsOk 750 750 8 = true := by decide

/-- A lowering step keeps the setpoints in range: each of its steps has the lower end of its range as its guard (R455). -/
theorem lowerStep_setpointsOk {u : Supply} (h : setpointsOk u.coreMv u.fabMv u.duty = true) :
    setpointsOk (lowerStep u).coreMv (lowerStep u).fabMv (lowerStep u).duty = true := by
  rw [setpointsOk_iff] at *
  unfold lowerStep
  split
  case isTrue hguard =>
    simp only [Bool.and_eq_true, decide_eq_true_eq] at hguard ⊢
    omega
  case isFalse =>
    split
    case isTrue hguard =>
      simp only [Bool.and_eq_true, decide_eq_true_eq] at hguard ⊢
      omega
    case isFalse =>
      split
      case isTrue hguard =>
        simp only
        omega
      case isFalse => exact h

/-- So does a raising step, with the upper ends. -/
theorem raiseStep_setpointsOk {u : Supply} (h : setpointsOk u.coreMv u.fabMv u.duty = true) :
    setpointsOk (raiseStep u).coreMv (raiseStep u).fabMv (raiseStep u).duty = true := by
  rw [setpointsOk_iff] at *
  unfold raiseStep
  split
  case isTrue hguard =>
    simp only
    omega
  case isFalse =>
    split
    case isTrue hguard =>
      simp only [Bool.and_eq_true, decide_eq_true_eq] at hguard ⊢
      omega
    case isFalse hfull =>
      split
      case isTrue hguard =>
        simp only [Bool.and_eq_true, decide_eq_true_eq, not_and] at hfull ⊢
        omega
      case isFalse => exact h

/-- Every change keeps the invariant. -/
theorem KeptChange.inRange {c : Instr} {s : State} {k : Kept} (change : KeptChange c s k) (h : (kept s).inRange = true) :
    k.inRange = true := by
  rw [Kept.inRange_iff] at *
  obtain ⟨hset, htokens, hleaf, hattempts⟩ := h
  cases change with
  | same => exact ⟨hset, htokens, hleaf, hattempts⟩
  | signed lms hc htoken hleft =>
    refine ⟨hset, Nat.le_trans (Nat.sub_le ..) htokens, ?_, hattempts⟩
    cases lms with
    | false => exact hleaf
    | true => exact hleft rfl
  | refilled => exact ⟨hset, Nat.min_le_left .., hleaf, hattempts⟩
  | restarted => exact ⟨setpointsOk_start, Nat.le_refl 8, hleaf, hattempts⟩
  | chipReset => exact ⟨setpointsOk_start, htokens, hleaf, hattempts⟩
  | attempted =>
    refine ⟨hset, htokens, hleaf, ?_⟩
    simp only [Kept.attempt]
    split
    · exact Nat.zero_lt_two
    · omega
  | policy => exact ⟨hset, htokens, hleaf, Nat.zero_lt_two⟩
  | lowered u hcore hfab hduty =>
    exact ⟨lowerStep_setpointsOk (by rw [hcore, hfab, hduty]; exact hset), htokens, hleaf, hattempts⟩
  | raised u hcore hfab hduty =>
    exact ⟨raiseStep_setpointsOk (by rw [hcore, hfab, hduty]; exact hset), htokens, hleaf, hattempts⟩

/-- Settles O46. -/
theorem invariantHoldsAtReset : Obligations.InvariantHoldsAtReset := by
  unfold Obligations.InvariantHoldsAtReset
  rfl

/-- Settles O47: a tick keeps what the invariant speaks of, and each change that a command can make keeps it in range. -/
theorem invariantKept : Obligations.InvariantKept := by
  unfold Obligations.InvariantKept
  intro s t h e
  rw [inv_eq_inRange] at *
  obtain htick | ⟨c, l, -, change⟩ := keptChange_of_step e
  · rw [htick, h]
  · exact change.inRange h

/-! ### The policy (R434) -/

/-- A minimum SVN raised to at least `v` under one key rises, or stays, under every key. -/
theorem mapGet_le_mapSet_max (m : FMap Nat) (j v k : Nat) : mapGet 0 m k ≤ mapGet 0 (mapSet 0 m j (max (mapGet 0 m j) v)) k := by
  by_cases hk : k = j
  · subst hk
    unfold mapSet
    split
    case isTrue hzero => omega
    case isFalse => simp only [mapGet, mapFind_insert_self, Option.getD_some]; omega
  · rw [mapGet_set_ne _ _ _ hk]

/-- Nor does raising it under several keys lower any. -/
theorem mapGet_le_foldl_max (l : List Nat) (m : FMap Nat) (v k : Nat) :
    mapGet 0 m k ≤ mapGet 0 (l.foldl (fun m j => mapSet 0 m j (max (mapGet 0 m j) v)) m) k := by
  induction l generalizing m with
  | nil => exact Nat.le_refl _
  | cons j l ih => exact (mapGet_le_mapSet_max m j v k).trans (ih _)

/-- The policy of a bundle lowers no minimum SVN. -/
theorem policySvn_le (b : Bytes) (m : FMap Nat) (k : Nat) : mapGet 0 m k ≤ mapGet 0 (policySvn b m) k := by
  unfold policySvn
  split
  · exact mapGet_le_foldl_max ..
  · exact Nat.le_refl _

/-- It makes no revoked key valid. -/
theorem policyRevoked_keeps (b : Bytes) {r : BitVec 4} {i : Nat} (h : r.getLsbD i = true) : (policyRevoked b r).getLsbD i = true := by
  unfold policyRevoked
  split
  · simp [h]
  · exact h

/-- Every other change leaves the policy as it was. -/
theorem KeptChange.policy_only {c : Instr} {s : State} {k : Kept} (change : KeptChange c s k) (hc : c ≠ .readyHigh) :
    k.minSvn = s.trust.minSvn ∧ k.revoked = s.trust.revoked := by
  cases change with
  | policy hready => exact absurd hready hc
  | _ => exact ⟨rfl, rfl⟩

/-- No change loosens it. -/
theorem KeptChange.policy_tightens {c : Instr} {s : State} {k : Kept} (change : KeptChange c s k) :
    (∀ j, mapGet 0 s.trust.minSvn j ≤ mapGet 0 k.minSvn j) ∧ ∀ i, s.trust.revoked.getLsbD i = true → k.revoked.getLsbD i = true := by
  cases change with
  | policy => exact ⟨policySvn_le _ _, fun _ => policyRevoked_keeps _⟩
  | _ => exact ⟨fun _ => Nat.le_refl _, fun _ h => h⟩

/-- Settles O48: READY_HIGH alone applies a policy, and a policy applied only tightens. -/
theorem policyOnlyTightens : Obligations.PolicyOnlyTightens := by
  unfold Obligations.PolicyOnlyTightens
  intro s t e
  obtain htick | ⟨c, l, hp, change⟩ := keptChange_of_step e
  · have hsvn : t.trust.minSvn = s.trust.minSvn := congrArg Kept.minSvn htick
    have hrevoked : t.trust.revoked = s.trust.revoked := congrArg Kept.revoked htick
    exact ⟨fun k => by rw [hsvn], fun i h => by rw [hrevoked, h], fun _ => ⟨hsvn, hrevoked⟩⟩
  · obtain ⟨hsvn, hrevoked⟩ := change.policy_tightens
    refine ⟨hsvn, hrevoked, fun hfront => change.policy_only fun hready => hfront ?_⟩
    rw [hp, hready, List.head?_cons]

/-! ### The leaves (R441, R444) -/

/-- The leaf index stays, or a command that signs takes one leaf and one token that were left. -/
theorem KeptChange.leaf_cases {c : Instr} {s : State} {k : Kept} (change : KeptChange c s k) :
    k.leaf = s.trust.leaf ∨
    (k.leaf = s.trust.leaf + 1 ∧ s.trust.leaf < lmsLeaves ∧ s.trust.tokens = k.tokens + 1 ∧ TakesToken c) := by
  cases change with
  | signed lms hc htoken hleft =>
    cases lms with
    | false => exact .inl rfl
    | true => exact .inr ⟨rfl, hleft rfl, (Nat.sub_add_cancel (Nat.pos_of_ne_zero htoken)).symm, hc⟩
  | _ => exact .inl rfl

/-- Settles O49: of the changes that a command can make, a signature alone takes a leaf. -/
theorem leavesAreNeverReused : Obligations.LeavesAreNeverReused := by
  unfold Obligations.LeavesAreNeverReused
  intro s t e
  obtain htick | ⟨c, l, hp, change⟩ := keptChange_of_step e
  · exact .inl (congrArg Kept.leaf htick)
  · obtain hsame | ⟨hleaf, hleft, htokens, hc⟩ := change.leaf_cases
    · exact .inl hsame
    · refine .inr ⟨hleaf, hleft, htokens, ?_⟩
      rw [hp, List.head?_cons]
      cases hc with
      | attest q seq => exact .inl ⟨q, seq, rfl⟩
      | challenge box slot nonce => exact .inr (.inl ⟨box, slot, nonce, rfl⟩)
      | getMeasurements box index signed nonce => exact .inr (.inr ⟨box, index, signed, nonce, rfl⟩)

end Sys2Proof.Machine
end

section
/-!
Groups, bases, code tables and the messages of a group (spec/11_collectives_delta_coding.md R302 to R307, R320, R325 to R331). Every
row stands behind checks that it shares with others: `onGroup_of` and `group_not_lost` are those of a group, `memIn_delivered`,
`receive_delivered` and `whenChange_of` those of a message, `execBaseSet_of` those of BASE_SET.
-/

namespace Sys2Proof.Machine

/-! ### Groups, bases and tables -/

section
variable {q : Fin 512} {seq : Nat} {s : State} {c : Cmd} {x : Group}

/-- The rows of COLL_GROUP are told apart by OP. -/
theorem groupOp_of {k : Nat} (h : c.p 0 1 = k) : groupOp k c = true := by simp [groupOp, h]

/-- COLL_GROUP CREATE with a list that is in order makes the group, where this device has room for it (R302). -/
theorem execCollGroupCreate_of (h : hostRuns s q seq 0x502 true [(0, 1), (4, 8), (64, 8192)] c = true) (hop : c.p 0 1 = 0)
    (hn : 1 ≤ c.p 8 2 ∧ c.p 8 2 ≤ 4096 ∧ c.p 10 2 < c.p 8 2 ∧ 64 + 2 * c.p 8 2 ≤ c.params.length)
    (hlist : (∀ i < c.p 8 2, c.p (64 + 2 * i) 2 < 8192) ∧ allZero (c.params.drop (64 + 2 * c.p 8 2)) = true)
    (hnew : groupGet s (c.p 4 4) = none)
    (hroom : s.groups.length < 64 ∧ (s.groups.filter (fun kv => kv.2.ctx = c.ctx)).length < 16)
    (hx : x = { ctx := c.ctx, own := c.p 10 2,
                members := (List.range (c.p 8 2)).map (fun i => (c.p (64 + 2 * i) 2 % 4096, c.p (64 + 2 * i) 2 / 4096)) }) :
    execCollGroupCreate q seq s =
      .next (finish c stSuccess (natLe 8 (listDigest (c.p 4 4) x).toNat) (groupSet (c.p 4 4) x s)) := by
  obtain ⟨hpos, hmax, hown, hlen⟩ := hn
  obtain ⟨hentries, htail⟩ := hlist
  obtain ⟨hall, hctx⟩ := hroom
  have hany : (List.range (c.p 8 2)).any (fun i => decide (8192 ≤ c.p (64 + 2 * i) 2)) = false := by
    simpa using hentries
  rw [execCollGroupCreate, runSub_of h (groupOp_of hop)]
  dsimp only
  rw [if_neg (by simp only [hop, hany, htail, hnew]; simp; omega), if_neg (by simp only [Bool.or_eq_true, decide_eq_true_eq]; omega), hx]

/-- CODE_TABLE_LOAD on a LIVE member of a group without a load begins one (R328). -/
theorem execCodeTableLoad_of (h : hostRuns s q seq 0x504 true [(0, 5), (16, 16)] c = true)
    (hx : groupGet s (c.p 0 4) = some x) (hctx : x.ctx = c.ctx) (hgen : c.p 4 1 < 4 ∧ x.current ≠ some (c.p 4 1))
    (htable : tableOk (c.bytes 16 16) = true) (hlive : x.liveList ≠ []) (hown : x.stateOf x.own = 0) (hload : x.load = none) :
    execCodeTableLoad q seq s = .next (loadStep (c.p 0 4) (groupSet (c.p 0 4) { x with
      load := some ⟨c.jidx, c.p 4 1, c.bytes 16 16, (x.liveList.filter (· ≠ x.own)).map (fun i => (i, 0))⟩ } (begun c s))) := by
  obtain ⟨hgen, hother⟩ := hgen
  rw [execCodeTableLoad, runCmd_of h]
  simp only [hx]
  rw [if_neg (not_not_intro hctx), if_neg (group_not_lost hlive (by simp [hown])), if_neg (by simp [hgen, htable, hother, hown]),
    if_neg (by simp [hload])]

/-- BASE_SET whose base is in order, and that no run uses, changes the group's bases (R325, R326). -/
theorem execBaseSet_of (h : hostRuns s q seq 0x505 true [(0, 12)] c = true) (hx : groupGet s (c.p 0 4) = some x)
    (hctx : x.ctx = c.ctx) (hid : c.p 4 1 ≠ 0xFF) (hkind : c.p 5 1 ≤ 2) (hobject : c.p 5 1 = 0 ∨ (objBase s c.ctx (c.p 8 4)).isSome)
    (hshadow : c.p 5 1 = 2 → (ctxGet s c.ctx).train.st ≠ .none ∧ jobGroup (ctxGet s c.ctx).train.job = c.p 0 4 ∧
      4096 * jobBlocks (ctxGet s c.ctx).train.job ≤ (objGet s (c.p 8 4)).count * pageBytes)
    (hlive : x.liveList ≠ []) (hfree : x.run.any (fun r => cdF r.desc 456 449 = c.p 4 1) = false) :
    execBaseSet q seq s = .next (finish c stSuccess [] (groupSet (c.p 0 4) { x with
      bases := if c.p 5 1 = 0 then mapErase x.bases (c.p 4 1) else mapInsert x.bases (c.p 4 1)
        { shadow := decide (c.p 5 1 = 2), object := c.p 8 4, ver := c.p 6 2, isSet := decide (c.p 5 1 = 1) } } s)) := by
  rw [execBaseSet, runCmd_of h]
  simp only [hx]
  rw [if_neg (not_not_intro hctx), if_neg (by simp [hlive]), if_neg ?inOrder, if_neg (ne_true_of_eq_false hfree)]
  case inOrder =>
    simp only [Bool.or_eq_true, Bool.and_eq_true, decide_eq_true_eq, Option.isNone_iff_eq_none, not_or, not_and]
    refine ⟨⟨⟨hid, Nat.not_lt.mpr hkind⟩, fun hne => Option.isSome_iff_ne_none.mp (hobject.resolve_left hne)⟩, fun h2 => ?_⟩
    obtain ⟨hst, hgroup, hsize⟩ := hshadow h2
    exact ⟨⟨hst, not_not_intro hgroup⟩, Nat.not_lt.mpr hsize⟩

end

/-- Settles O19, row by row: the hypotheses of a clause say that none of the row's refusals applies. -/
theorem groupsMadeAndEnded : Obligations.GroupsMadeAndEnded := by
  unfold Obligations.GroupsMadeAndEnded
  refine ⟨?create, ?bind, ?unbind, ?destroy⟩
  case create =>
    rintro q seq s c x h ⟨hop, hn⟩ hlist ⟨hnew, hroom⟩ hx
    exact execCollGroupCreate_of h hop hn hlist hnew hroom hx
  case bind =>
    rintro q seq s c x h ⟨hop, hx, hctx⟩ ⟨hobject, hlive⟩
    show execCollGroupBind q seq s = _
    rw [execCollGroupBind, runSub_of h (groupOp_of hop), onGroup_of hx hctx, if_neg (by simpa using hlive),
      if_neg (by simpa [Option.isSome_iff_ne_none] using hobject)]
  case unbind =>
    rintro q seq s c x h ⟨hop, hx, hctx⟩ ⟨hbound, hlive⟩
    show execCollGroupUnbind q seq s = _
    rw [execCollGroupUnbind, runSub_of h (groupOp_of hop), onGroup_of hx hctx, if_neg (by simpa using hlive),
      if_neg (by simpa using hbound)]
  case destroy =>
    rintro q seq s c x h ⟨hop, hx, hctx⟩
    show execCollGroupDestroy q seq s = _
    rw [execCollGroupDestroy, runSub_of h (groupOp_of hop), onGroup_of hx hctx]
    simp only [List.isEmpty_iff]

/-- Settles O20. -/
theorem basesAndTables : Obligations.BasesAndTables := by
  unfold Obligations.BasesAndTables
  refine ⟨?load, ?base, ?shadow⟩
  case load =>
    rintro q seq s c x h ⟨hx, hctx, hgen, htable, hother⟩ ⟨hlive, hown, hload⟩
    exact execCodeTableLoad_of h hx hctx ⟨hgen, hother⟩ htable hlive hown hload
  case base =>
    rintro q seq s c x h ⟨hx, hctx, hid, hkind⟩ hobject ⟨hlive, hfree⟩
    refine (execBaseSet_of h hx hctx hid (by omega) hobject (by omega) hlive hfree).trans ?_
    by_cases h0 : c.p 5 1 = 0
    · simp only [h0, if_true]
    · have h1 : c.p 5 1 = 1 := by omega
      simp [h1]
  case shadow =>
    rintro q seq s c x h ⟨hx, hctx, hid, hkind, hobject⟩ hjob ⟨hlive, hfree⟩
    refine (execBaseSet_of h hx hctx hid (by omega) (.inr hobject) (fun _ => hjob) hlive hfree).trans ?_
    simp [hkind]

/-! ### Messages -/

/-- A change of view whose ranges do not make it wait takes place (R247, R316). -/
theorem whenChange_of {s : State} {x : Group} (h : noWait s x.ctx (changeNeeds s x) = true) (k : State → State) :
    whenChange x s k = (k s, some false) := whenHere_of h _ _

/-- Settles O22: a message in its turn has the effect of its kind and is acknowledged. -/
theorem groupMessagesRun : Obligations.GroupMessagesRun := by
  unfold Obligations.GroupMessagesRun
  refine ⟨?exclude, ?admission, ?viewChange, ?viewQuery, ?viewReply, ?arrive, ?retire, ?load, ?loadTaken, ?ackLoaded, ?ackRetired⟩
  case exclude =>
    intro m s x turn hthere
    exact congrArg _ (memIn_delivered turn (whenChange_of hthere _))
  case admission =>
    intro m s x turn hthere
    exact congrArg _ (memIn_delivered turn (whenChange_of hthere _))
  case viewChange =>
    rintro m s x ⟨turn, hx, hnext, hthere⟩
    refine congrArg _ (receive_delivered turn ?_)
    simp only [hx]
    rw [if_neg (by simp [hnext]), if_pos (by simp [hnext]), whenChange_of hthere]
  case viewQuery =>
    intro m s x turn
    exact congrArg _ (memIn_delivered turn rfl)
  case viewReply =>
    rintro m s x t i turn ⟨htake, hindex, hthere⟩
    refine congrArg _ (memIn_delivered turn ?_)
    simp only [htake, hindex, whenChange_of hthere]
    split <;> rfl
  case arrive =>
    rintro m s x turn ⟨hlive, hdev⟩
    exact congrArg _ (memIn_delivered turn (if_pos (by simp [hlive, hdev])))
  case retire =>
    intro m s x turn
    exact congrArg _ (tableIn_of turn _ _)
  case load =>
    intro m s x turn hslot
    refine congrArg _ ((tableIn_of turn _ _).trans ?_)
    simp only [hslot, Option.isSome_none, Bool.false_eq_true, if_false]
  case loadTaken =>
    intro m s x turn hslot
    refine congrArg _ ((tableIn_of turn _ _).trans ?_)
    simp only [hslot, if_true]
  case ackLoaded =>
    rintro m s x turn ⟨hcode, hload⟩
    refine congrArg _ ((tableIn_of turn _ _).trans ?_)
    simp only [hcode, hload, Nat.zero_ne_one, Bool.false_eq_true, if_false, if_true]
  case ackRetired =>
    rintro m s x turn ⟨hcode, hload⟩
    refine congrArg _ ((tableIn_of turn _ _).trans ?_)
    simp only [hcode, hload, Bool.false_eq_true, if_false, if_true]

end Sys2Proof.Machine
end

section
/-!
The host command interface (spec/12_host_command_interface.md R333 to R341, R350 to R360; spec/13_mirror_pair_consistency.md R382). Each
command is one equation per outcome (`execGetInfo_inResult`, `execGetInfo_inMemory`, ...), in which none of its checks is
left; the bytes of a page are read by `byteSlice_flatMap`, those of a resume record by `leNat_append` and `leNat_natLe`.
-/

namespace Sys2Proof.Machine

/-! ### Bytes -/

@[simp] theorem natLe_length (n v : Nat) : (natLe n v).length = n := by
  induction n generalizing v with
  | zero => rfl
  | succ n ih => rw [natLe, List.length_cons, ih]

theorem leNat_natLe (n v : Nat) : leNat (natLe n v) = v % 256 ^ n := by
  induction n generalizing v with
  | zero => exact (Nat.mod_one v).symm
  | succ n ih =>
    have hpow : 256 ^ (n + 1) = 256 * 256 ^ n := Nat.pow_succ'
    rw [natLe, leNat, ih, BitVec.toNat_ofNat, hpow, Nat.mod_mul, Nat.mod_mod]

theorem leNat_append (a b : Bytes) : leNat (a ++ b) = leNat a + 256 ^ a.length * leNat b := by
  induction a with
  | nil => simp [leNat]
  | cons x a ih =>
    rw [List.cons_append, leNat, leNat, ih, List.length_cons, Nat.pow_succ]
    ring

/-- A slice that lies within the bytes needs no padding. -/
theorem byteSlice_within {b : Bytes} {lo n : Nat} (h : lo + n ≤ b.length) : byteSlice b lo n = (b.drop lo).take n := by
  have hnone : n - (b.drop lo).length = 0 := by rw [List.length_drop]; omega
  rw [byteSlice, hnone, List.replicate_zero, List.append_nil]

/-- Of records of equal length one after another, the slice at a record's place is that record. -/
theorem take_drop_flatMap {α : Type} {k : Nat} (f : α → Bytes) (hf : ∀ a, (f a).length = k) (l : List α) {n : Nat} {a : α}
    (ha : l[n]? = some a) : ((l.flatMap f).drop (k * n)).take k = f a := by
  induction l generalizing n with
  | nil => cases ha
  | cons b l ih =>
    rw [List.flatMap_cons]
    cases n with
    | zero =>
      cases ha
      rw [Nat.mul_zero, List.drop_zero, ← hf a, List.take_left]
    | succ n =>
      have hplace : k * (n + 1) = (f b).length + k * n := by rw [hf, Nat.mul_succ, Nat.add_comm]
      rw [hplace, List.drop_length_add_append, ih ha]

theorem length_flatMap_const {α : Type} {k : Nat} (f : α → Bytes) (hf : ∀ a, (f a).length = k) (l : List α) :
    (l.flatMap f).length = k * l.length := by
  simp only [List.length_flatMap, hf, List.map_const', List.sum_replicate, smul_eq_mul, Nat.mul_comm]

theorem byteSlice_flatMap_range {k : Nat} (f : Nat → Bytes) (hf : ∀ a, (f a).length = k) {m n : Nat} (h : n < m) :
    byteSlice ((List.range m).flatMap f) (k * n) k = f n := by
  have hwithin : k * n + k ≤ ((List.range m).flatMap f).length := by
    rw [length_flatMap_const f hf, List.length_range, ← Nat.mul_succ]
    exact Nat.mul_le_mul_left k h
  rw [byteSlice_within hwithin, take_drop_flatMap f hf _ (List.getElem?_range h)]

/-! ### GET_INFO (R352, T12.17) -/

/-- The bytes of sensor `n` on page 5. -/
def sensorBytes (s : State) (n : Nat) : Bytes := natLe 2 (unsgn 16 (mapGet 0 s.clk.sensors n))

theorem infoPage_sensors (s : State) : infoPage s 5 = some ((List.range 128).flatMap (sensorBytes s)) := rfl

theorem infoPage_none {page : Nat} (s : State) (h : page = 0 ∨ 6 < page) : infoPage s page = none := by
  rw [infoPage, if_neg (by omega), if_neg (by omega), if_neg (by omega), if_neg (by omega), if_neg (by omega), if_neg (by omega)]

/-- The lengths of the pages whose fields have no order in the spec, and of the sensors' page. -/
theorem infoPage_lengths (s : State) : (infoPage s 1).map List.length = some 256 ∧ (infoPage s 4).map List.length = some 1024 ∧
    (infoPage s 5).map List.length = some 256 ∧ (infoPage s 6).map List.length = some 4096 := by
  refine ⟨?device, ?partitions, ?sensors, ?queues⟩
  case device => exact congrArg some (byteSlice_length _ 0 256)
  case partitions =>
    refine congrArg some ((length_flatMap_const (k := 128) _ (fun _ => byteSlice_length ..) _).trans ?_)
    rw [List.length_range]
  case sensors =>
    refine congrArg some ((length_flatMap_const (k := 2) _ (fun _ => natLe_length ..) _).trans ?_)
    rw [List.length_range]
  case queues =>
    refine congrArg some ((length_flatMap_const (k := 8) _ (fun _ => byteSlice_length ..) _).trans ?_)
    rw [List.length_range]

section
variable {q : Fin 512} {seq : Nat} {s : State} {c : Cmd}

theorem execGetInfo_refused (h : hostRuns s q seq 0x101 false [(0, 2), (8, 8)] c = true) (hp : infoPage s (c.p 0 2) = none) :
    execGetInfo q seq s = .next (finish c stParam [] s) := by
  rw [execGetInfo, runCmd_of h]
  simp only [hp, refuse]

theorem execGetInfo_inResult {b : Bytes} (h : hostRuns s q seq 0x101 false [(0, 2), (8, 8)] c = true)
    (hp : infoPage s (c.p 0 2) = some b) (hshort : b.length ≤ 16) : execGetInfo q seq s = .next (finish c stSuccess b s) := by
  rw [execGetInfo, runCmd_of h]
  simp only [hp, if_pos hshort]

theorem execGetInfo_inMemory {b : Bytes} (h : hostRuns s q seq 0x101 false [(0, 2), (8, 8)] c = true)
    (hp : infoPage s (c.p 0 2) = some b) (hlong : 16 < b.length) :
    execGetInfo q seq s = .next (finish c stSuccess (natLe 4 b.length) (hostWrite c.port (c.p 8 8) b s)) := by
  rw [execGetInfo, runCmd_of h]
  simp only [hp, if_neg (Nat.not_le.mpr hlong)]

end

/-- Settles O56: the pages by their contents, the command by the page that it asks for. -/
theorem infoPagesServed : Obligations.InfoPagesServed := by
  unfold Obligations.InfoPagesServed
  refine ⟨?pages, ?sensor, ?refused, ?inResult, ?inMemory⟩
  case pages =>
    intro s
    obtain ⟨hdevice, hpartitions, hsensors, hqueues⟩ := infoPage_lengths s
    exact ⟨hdevice, rfl, rfl, hpartitions, hsensors, hqueues⟩
  case sensor =>
    intro s b n hb hn
    rw [infoPage_sensors, Option.some.injEq] at hb
    rw [← hb]
    exact byteSlice_flatMap_range (sensorBytes s) (fun _ => natLe_length ..) hn
  case refused =>
    intro q seq s c h hpage
    exact execGetInfo_refused h (infoPage_none s hpage)
  case inResult =>
    intro q seq s c b h hp hshort
    exact execGetInfo_inResult h hp hshort
  case inMemory =>
    intro q seq s c b h hp hlong _
    exact execGetInfo_inMemory h hp hlong

/-! ### The other management commands (R350, R355, R359) -/

section
variable {q : Fin 512} {seq : Nat} {s : State} {c : Cmd}

theorem execGetParam_value {v : Nat} (h : hostRuns s q seq 0x103 false [(0, 16)] c = true) (hp : c.p 0 4 ≠ 1)
    (hv : settingValue s (c.p 0 4) (c.p 4 4) = some v) : execGetParam q seq s = .next (finish c stSuccess (natLe 8 v) s) := by
  rw [execGetParam, runCmd_of h]
  simp only [if_neg hp, hv]

theorem execGetParam_queue (h : hostRuns s q seq 0x103 false [(0, 16)] c = true) (hp : c.p 0 4 = 1) (hq : c.p 4 4 < 512) :
    execGetParam q seq s =
      .next (finish c stSuccess [] (hostWrite c.port (c.p 8 8) (queueValue (qGet s (c.p 4 4))) s)) := by
  rw [execGetParam, runCmd_of h, if_pos hp, if_neg (Nat.not_le.mpr hq)]

/-- The queues that a HOST_ADOPT moves: those bound to the port that it names, of a list where it gives one (R359). -/
def adopted (s : State) (c : Cmd) : List Nat :=
  (List.range 512).filter (fun n => qPort n (qGet s n) = c.p 0 1 && (c.p 2 1 = 0 || bitOf (c.p 8 64) n))

theorem execHostAdopt_of (h : hostRuns s q seq 0x105 false [(0, 3), (8, 64)] c = true) (hfrom : c.p 0 1 ≤ 1) (hto : c.p 1 1 = 1 - c.p 0 1)
    (hmode : c.p 2 1 ≤ 1) (hport : qPort c.queue (qGet s c.queue) = c.port) (hsome : adopted s c ≠ []) :
    execHostAdopt q seq s = .next (finish c stSuccess (natLe 2 (adopted s c).length)
      (signalBoth ((adopted s c).foldl (fun s n => moveQueue n s) s))) := by
  unfold adopted at hsome ⊢
  rw [execHostAdopt, runCmd_of h]
  dsimp only
  rw [if_neg (by simp only [hport, Bool.or_eq_true, decide_eq_true_eq]; omega), if_neg (by rwa [List.isEmpty_iff])]

end

/-- Settles O1, row by row. -/
theorem managementCommandsRun : Obligations.ManagementCommandsRun := by
  unfold Obligations.ManagementCommandsRun
  refine ⟨?identify, ?infoInResult, ?infoInMemory, ?paramValue, ?paramQueue, ?adopt⟩
  case identify =>
    intro q seq s c h
    show execIdentify q seq s = _
    rw [execIdentify, runCmd_of h]
  case infoInResult =>
    intro q seq s c b h hp hshort
    exact execGetInfo_inResult h hp hshort
  case infoInMemory =>
    intro q seq s c b h hp hlong _
    exact execGetInfo_inMemory h hp hlong
  case paramValue =>
    intro q seq s c v h hp hv
    exact execGetParam_value h hp hv
  case paramQueue =>
    intro q seq s c h hp hq _
    exact execGetParam_queue h hp hq
  case adopt =>
    intro q seq s c h hfrom hto hmode hport hsome
    exact execHostAdopt_of h hfrom hto hmode hport hsome

/-! ### Settings (R138, R338, R355, R394, T12.20) -/

/-- Settles O55: each of the three is a severity that `sevAllowed` excludes. -/
theorem severitiesRefused : Obligations.SeveritiesRefused := by
  unfold Obligations.SeveritiesRefused
  intro q seq s c h hbad
  have hnot : sevAllowed (c.p 4 4) (c.p 8 8) = false := by
    obtain hunknown | ⟨hsource, hsafe⟩ | ⟨hsource, hcontain⟩ := hbad
    · simp [sevAllowed, hunknown]
    · obtain hs | hs := hsource <;> simp [sevAllowed, srcThermtrip, srcFcParity, hs, hsafe]
    · obtain hs | hs | hs := hsource <;> simp [sevAllowed, srcHeartbeat, srcFwFault, srcMsgParity, hs, hcontain]
  show execSetParamFcSeverity q seq s = _
  rw [execSetParamFcSeverity, setParam_of h, if_pos (by simp [hnot]), refuse]

/-- Settles O2, row by row: the hypotheses of a clause say that none of the row's refusals applies. -/
theorem settingsTakeTheirValues : Obligations.SettingsTakeTheirValues := by
  unfold Obligations.SettingsTakeTheirValues
  refine ⟨?queue, ?severity, ?powerLimit, ?deviceId, ?portEnable, ?mirrorPorts, ?journalFlush, ?segMode, ?wvLog2, ?wvThresh⟩
  case queue =>
    rintro q seq s c h hq hadmin ⟨h63, h30, h15, h7⟩ hport hoff hon hrings
    show execSetParamQueue q seq s = _
    rw [execSetParamQueue, setParam_of h]
    dsimp only
    rw [if_neg (by simp [h63, h30, h15, h7, hq]), if_neg (by simp [hadmin]), if_neg (not_not_intro hport), if_neg (by simp [hoff]),
      if_neg (by simp [hrings]), if_pos hon]
  case severity =>
    intro q seq s c h hallowed
    show execSetParamFcSeverity q seq s = _
    rw [execSetParamFcSeverity, setParam_of h, if_neg (by simp [hallowed])]
  case powerLimit =>
    rintro q seq s c h hi ⟨hlo, hhi⟩
    show execSetParamPowerLimit q seq s = _
    rw [execSetParamPowerLimit, setParam_of h, if_neg (by simp [hi, hlo, hhi])]
  case deviceId =>
    intro q seq s c h hi hv hclosed
    have hnone : s.zl.peers.any (fun kv => kv.2.isOpen) = false := by simpa using hclosed
    show execSetParamZlDeviceId q seq s = _
    rw [execSetParamZlDeviceId, setParam_of h, if_neg (by simp [hi, hv]), if_neg (ne_true_of_eq_false hnone)]
  case portEnable =>
    intro q seq s c h hi hv
    show execSetParamZlPortEnable q seq s = _
    rw [execSetParamZlPortEnable, setParam_of h, if_neg (by simp only [hi, Bool.or_eq_true, decide_eq_true_eq]; omega)]
  case mirrorPorts =>
    rintro q seq s c h hi hv ⟨hsome, hfew⟩ hfree hpair
    have hded : (maskList (c.p 8 8) 32).any (fun p => (mapFind s.parts.ded p).isSome) = false := by
      simpa [Option.isSome_eq_false_iff] using hfree
    show execSetParamZlMirrorPorts q seq s = _
    rw [execSetParamZlMirrorPorts, setParam_of h]
    dsimp only
    rw [if_neg ?inOrder, if_neg hpair]
    case inOrder =>
      have hne : maskList (c.p 8 8) 32 ≠ [] := List.ne_nil_of_length_pos hsome
      simpa [hi, hded, hne, hfew] using hv
  case journalFlush =>
    intro q seq s c h hi hv
    show execSetParamJournalFlush q seq s = _
    rw [execSetParamJournalFlush, setParam_of h, if_neg (by simp [hi, hv])]
    simp only [hv]
    rfl
  case segMode =>
    intro q seq s c h hi hv hcache
    show execSetParamCsSegMode q seq s = _
    rw [execSetParamCsSegMode, setParam_of h]
    dsimp only
    rw [if_neg (by simp [hv, hi]), if_neg (by simp [hv]), if_neg (by simp [hv, hcache])]
    simp [hv, hcache]
  case wvLog2 =>
    rintro q seq s c h hpart ⟨hlo, hhi⟩
    rw [exec_setParamWvLog2 h, setPartition_taken hpart hlo hhi, withWvLog2]
  case wvThresh =>
    rintro q seq s c h hpart ⟨hlo, hhi⟩
    rw [exec_setParamWvThresh h, setPartition_taken hpart hlo hhi, withWvThresh]

/-! ### RESUME_POINT (R382) -/

section
variable {q : Fin 512} {seq : Nat} {s : State} {c : Cmd}

theorem execResumePoint_queue (h : hostRuns s q seq 0x902 false [(0, 2), (8, 8)] c = true) (hq : c.p 0 2 < 512) :
    execResumePoint q seq s = .next (finish c stSuccess (resumeRecord s (c.p 0 2)) s) := by
  rw [execResumePoint, runCmd_of h]
  exact congrArg _ (if_pos hq)

theorem execResumePoint_all (h : hostRuns s q seq 0x902 false [(0, 2), (8, 8)] c = true) (hq : c.p 0 2 = 0xFFFF) :
    execResumePoint q seq s =
      .next (finish c stSuccess [] (hostWrite c.port (c.p 8 8) ((List.range 512).flatMap (resumeRecord s)) s)) := by
  rw [execResumePoint, runCmd_of h]
  dsimp only
  rw [if_neg (by omega), if_pos hq]

end

theorem resumeRecord_length (s : State) (q : Nat) : (resumeRecord s q).length = 16 := by
  rw [resumeRecord, List.length_append, natLe_length, natLe_length]

theorem leNat_resumeRecord {s : State} {q : Nat} (hacc : lastAccepted s q < 2 ^ 64) (happ : lastApplied s q < 2 ^ 64) :
    leNat (resumeRecord s q) = lastApplied s q * 2 ^ 64 + lastAccepted s q := by
  rw [resumeRecord, leNat_append, leNat_natLe, leNat_natLe, natLe_length]
  omega

/-- Without an accepted number and without a command in the ring, no number has been applied. -/
theorem resumeRecord_noHistory {s : State} {q : Nat} (hnext : (qGet s q).e = 1) (hring : ∀ c ∈ s.jr.ring, c.queue ≠ q) :
    resumeRecord s q = List.replicate 16 0 := by
  have hacc : lastAccepted s q = 0 := by rw [lastAccepted, hnext]
  have hnone : s.jr.ring.filter (fun c => c.queue = q && c.done.isNone && !c.quiet) = [] :=
    List.filter_eq_nil_iff.mpr fun c hc => by simp [hring c hc]
  have happ : lastApplied s q = 0 := by rw [lastApplied, hnone, hacc, List.foldl_nil]
  rw [resumeRecord, hacc, happ]
  rfl

/-- Settles O53. -/
theorem resumePointReports : Obligations.ResumePointReports := by
  unfold Obligations.ResumePointReports
  refine ⟨?queue, ?all, ?record, ?noHistory⟩
  case queue =>
    intro q seq s c h hq
    exact execResumePoint_queue h hq
  case all =>
    intro q seq s c h hq _
    exact execResumePoint_all h hq
  case record =>
    intro s q hacc happ
    exact ⟨resumeRecord_length s q, leNat_resumeRecord hacc happ⟩
  case noHistory =>
    intro s q hnext hring
    exact resumeRecord_noHistory hnext hring

end Sys2Proof.Machine
end

section
/-!
Writes of BAR0, doorbells and the links of the host ports (spec/12_host_command_interface.md R333 to R341, R360). A row's write crosses to
PD_ON (`crossed_of`) and then is `writeAdminCfg`, `ringSq`, `ringCq` or `writeRegister`, each with an equation per outcome.
-/

namespace Sys2Proof.Machine

section
variable {s : State} {p slot : Nat}

/-- A write on a port whose link is up reaches its register while PD_ON runs (R40, R333). -/
theorem crossed_of {i : Instr} (h : linkUp s p = true ∧ zenithRuns s = true) (k : State → State) :
    (if linkUp s p = true then across (zenithRuns s) i s k else s) = k s := by
  obtain ⟨hl, hz⟩ := h
  rw [if_pos hl, across, if_pos hz]

/-- ADMIN_CFG with ENABLE and rings within R339 enables an admin queue that is disabled (R336). -/
theorem writeAdminCfg_enables {value : BitVec 32} (hon : (bitOf value.toNat 31 && !(qGet s (256 * p)).away &&
      ringsOk (bitsOf value.toNat 4 0) (bitsOf value.toNat 12 8) (mapGet 0 s.host.asq p) (mapGet 0 s.host.acq p)) = true)
    (hoff : (qGet s (256 * p)).enabled = false) (hmask : value &&& adminCfgMask = value) :
    writeAdminCfg p value s = enableQueue (256 * p) (bitsOf value.toNat 21 16) (bitsOf value.toNat 4 0) (bitsOf value.toNat 12 8)
      (mapGet 0 s.host.asq p) (mapGet 0 s.host.acq p)
      { s with host := { s.host with acfg := mapSet 0x00010000#32 s.host.acfg p value } } := by
  rw [writeAdminCfg, hmask]
  dsimp only
  rw [if_pos hon, if_pos hon, if_neg (ne_true_of_eq_false hoff)]

/-- Without ENABLE it disables the queue, where that is bound to its home port. -/
theorem writeAdminCfg_disables {value : BitVec 32} (hoff : bitOf (value &&& adminCfgMask).toNat 31 = false)
    (hhome : (qGet s (256 * p)).away = false) :
    writeAdminCfg p value s = qSet (256 * p) { qGet s (256 * p) with enabled := false }
      { s with host := { s.host with acfg := mapSet 0x00010000#32 s.host.acfg p (value &&& adminCfgMask &&& 0x7FFFFFFF#32) } } := by
  simp only [writeAdminCfg, hoff, hhome, Bool.false_and, Bool.false_eq_true, if_false]

/-- A doorbell outside the ring of its queue, or of a queue that is disabled or bound to the other port, counts as an error (R337). -/
theorem ringSq_counted {value : BitVec 32} (hsafe : s.dev.safe = false) (hbad : (qGet s (doorbellQueue p slot)).enabled = false ∨
      qPort (doorbellQueue p slot) (qGet s (doorbellQueue p slot)) ≠ p ∨
      2 ^ (qGet s (doorbellQueue p slot)).sqLog2 ≤ value.toNat % 65536) : ringSq p slot value s = bumpHost p 0 s := by
  rw [ringSq, if_neg (ne_true_of_eq_false hsafe), if_pos (by simpa [or_assoc] using hbad)]

/-- A doorbell within the ring of a queue that is enabled and bound to the port moves the tail and fetches (R340). -/
theorem ringSq_moves {value : BitVec 32} (hsafe : s.dev.safe = false) (hon : (qGet s (doorbellQueue p slot)).enabled = true)
    (hport : qPort (doorbellQueue p slot) (qGet s (doorbellQueue p slot)) = p)
    (hring : value.toNat % 65536 < 2 ^ (qGet s (doorbellQueue p slot)).sqLog2) :
    ringSq p slot value s = fetchQueue (doorbellQueue p slot)
      (qSet (doorbellQueue p slot) { qGet s (doorbellQueue p slot) with sqTail := value.toNat % 65536 } s) := by
  rw [ringSq, if_neg (ne_true_of_eq_false hsafe), if_neg (by simp [hon, hport, hring])]

/-- The doorbell of the completion ring moves the head, and what it had stopped goes on (R340). -/
theorem ringCq_moves {value : BitVec 32} (hsafe : s.dev.safe = false) (hon : (qGet s (doorbellQueue p slot)).enabled = true)
    (hport : qPort (doorbellQueue p slot) (qGet s (doorbellQueue p slot)) = p)
    (hring : value.toNat % 131072 < 2 ^ (qGet s (doorbellQueue p slot)).cqLog2) :
    ringCq p slot value s = fetchQueue (doorbellQueue p slot) (postHeld (doorbellQueue p slot)
      (qSet (doorbellQueue p slot) { qGet s (doorbellQueue p slot) with cqHead := value.toNat % 131072 } s)) := by
  rw [ringCq, if_neg (ne_true_of_eq_false hsafe), if_neg (by simp [hon, hport, hring])]

end

/-- Settles O12, row by row. -/
theorem barAndLinkCommandsRun : Obligations.BarAndLinkCommandsRun := by
  unfold Obligations.BarAndLinkCommandsRun
  refine ⟨?cfgEnables, ?cfgDisables, ?sqMoves, ?sqCounted, ?cqMoves, ?word, ?twoWords, ?linkUp, ?linkLost, ?perst, ?timeOut⟩
  case cfgEnables =>
    rintro hp value s hup hon ⟨hoff, hmask⟩
    exact congrArg _ ((crossed_of hup _).trans (writeAdminCfg_enables hon hoff hmask))
  case cfgDisables =>
    rintro hp value s hup ⟨hoff, hhome⟩
    exact congrArg _ ((crossed_of hup _).trans (writeAdminCfg_disables hoff hhome))
  case sqMoves =>
    rintro hp slot value s ⟨hl, hz, hsafe⟩ ⟨hon, hport⟩ hring
    exact congrArg _ ((crossed_of ⟨hl, hz⟩ _).trans (ringSq_moves hsafe hon hport hring))
  case sqCounted =>
    rintro hp slot value s ⟨hl, hz, hsafe⟩ hbad
    exact congrArg _ ((crossed_of ⟨hl, hz⟩ _).trans (ringSq_counted hsafe hbad))
  case cqMoves =>
    rintro hp slot value s ⟨hl, hz, hsafe⟩ ⟨hon, hport⟩ hring
    exact congrArg _ ((crossed_of ⟨hl, hz⟩ _).trans (ringCq_moves hsafe hon hport hring))
  case word =>
    rintro hp offset value s ⟨hl, hz, haligned, hoff⟩
    refine congrArg _ ((crossed_of ⟨hl, hz⟩ _).trans ?_)
    simp [writeRegister, haligned, hoff]
  case twoWords =>
    rintro hp offset value s ⟨hl, hz, haligned, hoff⟩
    exact exec_registerWrite_wide value hl hz haligned hoff
  case linkUp =>
    intro hp s hpower
    exact congrArg _ (if_pos hpower)
  case linkLost =>
    intro hp s hl
    show execHostPortReset hp false s = _
    rw [execHostPortReset, if_pos hl]
    rfl
  case perst =>
    intro hp s hl
    show execHostPortReset hp true s = _
    rw [execHostPortReset, if_neg (ne_true_of_eq_false hl)]
    rfl
  case timeOut =>
    intro hp address s
    rfl

end Sys2Proof.Machine
end

section
/-!
Launches, and the fetch, issue and completion of descriptors (spec/04_tile_programs.md R69 to R77; spec/12_host_command_interface.md R351).
-/

namespace Sys2Proof.Machine

/-- A command that may run is the accepted one that may start. -/
theorem startable_of {s : State} {q seq op : Nat} {onCtx : Bool} {named : List (Nat × Nat)} {c : Cmd}
    (h : hostRuns s q seq op onCtx named c = true) : startable s q seq op = some c := by
  simp only [hostRuns, Bool.and_eq_true, decide_eq_true_eq] at h
  obtain ⟨⟨⟨⟨⟨hstart, -⟩, -⟩, -⟩, -⟩, -⟩ := h
  exact hstart

section
variable {rod : Fin 64} {s : State}

/-- A launch whose elements and tables are in order starts its first element (R351). -/
theorem launchBody_starts {c : Cmd} (hbad : launchBad s c = false) (hthere : launchAbsent s c = none) :
    launchBody c s = startElem c 0 (begun c (noteLaunch c s)) := by
  rw [launchBody, if_neg (ne_true_of_eq_false hbad), hthere]

/-- A rod that runs nothing starts the first launch of its queue; a launch of another context finds the rod cleared (R69, R165). -/
theorem execProgramStart_of {l : Launch} {rest : List Launch} (hcore : coreHalted s = false) (hrun : (rodGet s rod).run = none)
    (hqueue : (rodGet s rod).queue = l :: rest) :
    execProgramStart rod s = .next (applySignals rod l.ctx (refill rod (rodSet rod
      { (if (rodGet s rod).last ≠ some l.ctx then { (rodGet s rod).clearBanks with ctrs := [] } else rodGet s rod) with
        queue := rest, last := some l.ctx, run := some { l := l, next := l.va } }
      (if (rodGet s rod).last ≠ some l.ctx then { groupsOn rod s with mem := memZero s.mem (rsBase rod) rsSize }
        else groupsOn rod s)))) := by
  rw [execProgramStart]
  dsimp only
  rw [if_neg (by simp [hcore, hrun])]
  simp only [hqueue, decide_eq_true_eq]
  rfl

/-- Fetch appends one descriptor while the buffer has room, no END is in it and its page is there (R71, R77). -/
theorem execDescFetch_of {r : Run} (hcore : coreHalted s = false) (hhbm : hbmHalted s = false) (hrun : (rodGet s rod).run = some r)
    (hgoes : r.halt = none ∧ r.buf.length < 128)
    (hnoEnd : r.buf.any (fun d => opOf d.2 = 0x3F) = false ∧ r.ctl.any (fun f => opOf f.word = 0x3F) = false)
    (hthere : firstAbsent s r.l.ctx r.next 32 false = none) (hok : (readVa r.l.ctx r.next 32 s).1.acc = .ok) :
    execDescFetch rod s = .next (runMod rod (fun x => { x with
      buf := x.buf ++ [(r.next, BitVec.ofNat 256 (leNat (readVa r.l.ctx r.next 32 s).1.bytes))], next := r.next + 32 })
      (readVa r.l.ctx r.next 32 s).2) := by
  obtain ⟨hhalt, hroom⟩ := hgoes
  obtain ⟨hbuf, hctl⟩ := hnoEnd
  rw [execDescFetch, if_neg (by simp [hcore, hhbm])]
  simp only [hrun, hbuf, hctl]
  rw [if_neg (by simp [hhalt, hroom]), if_neg (by simp [hthere])]
  simp only [hok]

/-- Issue hands the oldest descriptor to its unit, or to the sequencer, which holds one (R73). -/
theorem execDescIssue_of {r : Run} {va : Nat} {w : BitVec 256} {rest : List (Nat × BitVec 256)} {f : Flight}
    (hcore : coreHalted s = false) (hrun : (rodGet s rod).run = some r) (hhalt : r.halt = none) (hctl : r.ctl = none)
    (hbuf : r.buf = (va, w) :: rest) (hmay : issueHalt s rod r w = none)
    (hf : f = { n := r.issued, va := va, word := w, layer := (r.bracket.map (·.layer)).getD 0xFFFF, second := r.replaying,
                brk := r.bracket.map (·.id), step := stepField s r.l.ctx, check := r.check && decide (opOf w = 0x0A) }) :
    execDescIssue rod s = .next (runMod rod (fun _ =>
      if unitOf w = 4 then { r with buf := rest, issued := r.issued + 1, check := r.check && !f.check, ctl := some f }
      else { r with buf := rest, issued := r.issued + 1, check := r.check && !f.check }.setUnit (unitOf w)
        (r.unit (unitOf w) ++ [f])) s) := by
  subst hf
  rw [execDescIssue, if_neg (ne_true_of_eq_false hcore)]
  simp only [hrun]
  rw [if_neg (by simp [hhalt, hctl])]
  simp only [hbuf, hmay]
  rfl

/-- Completion removes the oldest performed descriptor of a unit and logs its events (R74, R132; log 80). -/
theorem execDescComplete_of {unit : Fin 4} {r : Run} {f : Flight} (hcore : coreHalted s = false) (hrun : (rodGet s rod).run = some r)
    (hf : (r.unit unit).find? (fun f => f.performed && f.wait = 0) = some f) :
    execDescComplete rod unit s = .next (logEvents (rodPart s rod) f.layer (tagOf f.word) r.l.ctx rod f.second f.evs
      (runMod rod (fun x => { x.setUnit unit ((x.unit unit).filter (fun g => g.n ≠ f.n)) with
        events := satAdd 32 x.events f.evs.length, high := x.high || f.evs.any (fun e => kindSev e.kind = 3) }) s)) := by
  rw [execDescComplete, if_neg (ne_true_of_eq_false hcore)]
  simp only [hrun, hf]
  rfl

end

/-- Settles O6, row by row. -/
theorem launchesRun : Obligations.LaunchesRun := by
  unfold Obligations.LaunchesRun
  refine ⟨?launch, ?chain, ?startSame, ?startOther, ?fetch, ?issue, ?complete⟩
  case launch =>
    rintro q seq s c _ h ⟨hbad, hthere⟩ _
    exact congrArg _ ((runCmd_of h _).trans (launchBody_starts hbad hthere))
  case chain =>
    rintro q seq s c _ h ⟨hbad, hthere⟩ _
    show execLaunchChain q seq s = _
    rw [execLaunchChain]
    simp only [startable_of h]
    exact congrArg _ ((runCmd_of h _).trans (launchBody_starts hbad hthere))
  case startSame =>
    rintro rod s l rest hcore ⟨hrun, hqueue, hlast⟩
    refine (execProgramStart_of hcore hrun hqueue).trans ?_
    simp only [hlast, ne_eq, not_true_eq_false, if_false]
  case startOther =>
    rintro rod s l rest hcore ⟨hrun, hqueue, hlast⟩
    refine (execProgramStart_of hcore hrun hqueue).trans ?_
    simp only [hlast, ne_eq, not_false_eq_true, if_true]
  case fetch =>
    rintro rod s r ⟨hcore, hhbm⟩ ⟨hrun, hgoes⟩ hnoEnd hthere hok
    exact execDescFetch_of hcore hhbm hrun hgoes hnoEnd hthere hok
  case issue =>
    rintro rod s r va w rest f hcore ⟨hrun, hhalt, hctl, hbuf⟩ hmay hf
    exact execDescIssue_of hcore hrun hhalt hctl hbuf hmay hf
  case complete =>
    rintro rod unit s r f hcore ⟨hrun, hf⟩
    exact execDescComplete_of hcore hrun hf

end Sys2Proof.Machine
end

section
/-!
PWR_EN, the test port, fault messages and the values at reset (spec/14_fault_collection.md R390, T14.1; spec/16_startup_trust.md R477,
R478; spec/18_signals_electrical.md R474, R480 to R482).
-/

namespace Sys2Proof.Machine

/-! ### PWR_EN and VIN52 (R474, R480 to R482) -/

section
variable {s : State}

/-- PWR_EN rising where the package may not start yet waits (R481). -/
theorem execPwrEnRise_waits (strap : BitVec 4) (pair : Bool) (hen : s.sup.pwrEn = false)
    (hnot : s.sup.power ≠ .off ∨ s.sup.lowOver = false) :
    execPwrEnRise strap pair s = .next { s with
      sup := { s.sup with pwrEn := true, strapPins := strap, pairPin := pair, riseWait := true } } := by
  rw [execPwrEnRise, if_neg (ne_true_of_eq_false hen)]
  dsimp only
  rw [if_neg ?off]
  case off =>
    rw [Bool.and_eq_true, decide_eq_true_eq]
    rintro ⟨hoff, hlow⟩
    exact hnot.elim (absurd hoff) (ne_true_of_eq_false · hlow)

/-- A rise of VIN52 within its range (R448). -/
theorem execVin52Rise_of {mv : Nat} (hmax : mv ≤ 62000) (hrise : s.sup.vin52 < mv) :
    execVin52Rise mv s = .next (if s.sup.power = .waitInput ∧ 43000 ≤ mv then softStart { s with sup := { s.sup with vin52 := mv } }
      else if s.sup.vin52 < 40000 then runAgain (zenithRuns s) { s with sup := { s.sup with vin52 := mv } }
      else { s with sup := { s.sup with vin52 := mv } }) := by
  rw [execVin52Rise, if_neg (Nat.not_lt.mpr hmax), if_pos hrise]
  simp only [Bool.and_eq_true, decide_eq_true_eq]

/-- Conversion that does not wait for the input, or a level still too low for it. -/
theorem not_inputReached {mv : Nat} (h : s.sup.power ≠ .waitInput ∨ mv < 43000) : ¬(s.sup.power = .waitInput ∧ 43000 ≤ mv) :=
  fun ⟨hwait, hlevel⟩ => h.elim (absurd hwait) (Nat.not_lt.mpr hlevel)

end

/-- Settles O31, row by row. -/
theorem powerOnRuns : Obligations.PowerOnRuns := by
  unfold Obligations.PowerOnRuns
  refine ⟨?rise, ?riseWaits, ?lowTime, ?lowTimeStarts, ?softStart, ?level, ?levelRuns, ?levelStarts⟩
  case rise =>
    rintro strap pair s _ ⟨hen, hoff, hlow⟩ rfl
    show execPwrEnRise strap pair s = _
    rw [execPwrEnRise, if_neg (ne_true_of_eq_false hen)]
    dsimp only
    rw [if_pos (by simp [hoff, hlow])]
    rfl
  case riseWaits =>
    rintro strap pair s ⟨hen, hnot⟩
    exact execPwrEnRise_waits strap pair hen hnot
  case lowTime =>
    rintro s ⟨hoff, hlow, hnone⟩
    show execPwrEnLowTimeEnd s = _
    rw [execPwrEnLowTimeEnd, if_pos (by simp [hoff, hlow])]
    dsimp only
    rw [if_neg ?waits]
    case waits =>
      rw [Bool.and_eq_true]
      rintro ⟨hwait, hen⟩
      exact hnone.elim (ne_true_of_eq_false · hwait) (ne_true_of_eq_false · hen)
  case lowTimeStarts =>
    rintro s _ ⟨hoff, hlow, hwait, hen⟩ rfl
    show execPwrEnLowTimeEnd s = _
    rw [execPwrEnLowTimeEnd, if_pos (by simp [hoff, hlow])]
    dsimp only
    rw [if_pos (by simp [hwait, hen])]
    rfl
  case softStart =>
    intro s hsoft
    exact congrArg _ (if_pos hsoft)
  case level =>
    rintro mv s ⟨hmax, hrise, hruns, hnot⟩
    exact (execVin52Rise_of hmax hrise).trans (by rw [if_neg (not_inputReached hnot), if_neg (Nat.not_lt.mpr hruns)])
  case levelRuns =>
    rintro mv s ⟨hmax, hrise, hsag, hnot⟩
    exact (execVin52Rise_of hmax hrise).trans (by rw [if_neg (not_inputReached hnot), if_pos hsag])
  case levelStarts =>
    rintro mv s ⟨hmax, hrise, hwait, hlevel⟩
    exact (execVin52Rise_of hmax hrise).trans (by rw [if_pos ⟨hwait, hlevel⟩, softStart])

/-! ### The test port (R477, R478) -/

section
variable {s : State} (j : Jtag)

theorem loadTest_of (h : zenithRuns s = true) : loadTest j s = { s with trust := { s.trust with jtag := j } } := if_pos h

/-- At step 2 of start-up a test holds it (R478). -/
theorem enterTest_holds (h : zenithRuns s = true) (hstep : s.dev.bootStep = 2) :
    enterTest j s = { s with trust := { s.trust with jtag := j, testHold := true } } := by
  rw [enterTest, if_neg (by simp [h])]
  exact if_pos hstep

/-- After it a test enters the safe state. -/
theorem enterTest_safe (h : zenithRuns s = true) (hstep : s.dev.bootStep ≠ 2) :
    enterTest j s = enterSafe { s with trust := { s.trust with jtag := j, testHold := true } } := by
  rw [enterTest, if_neg (by simp [h])]
  exact if_neg hstep

end

/-- Settles O39, row by row. -/
theorem testPortRun : Obligations.TestPortRun := by
  unfold Obligations.TestPortRun
  refine ⟨?bypass, ?sample, ?idcode, ?extestSafe, ?extestHolds, ?clamp, ?highz⟩
  case bypass =>
    intro s h
    exact congrArg _ (loadTest_of .bypass h)
  case sample =>
    intro s h
    exact congrArg _ (loadTest_of .sample h)
  case idcode =>
    intro s h
    show execIdcode s = _
    rw [execIdcode, if_pos h, loadTest_of .idcode h]
    rfl
  case extestSafe =>
    rintro s ⟨h, hstep⟩
    exact congrArg _ (enterTest_safe .extest h hstep)
  case extestHolds =>
    rintro s ⟨h, hstep⟩
    exact congrArg _ (enterTest_holds .extest h hstep)
  case clamp =>
    rintro s ⟨h, hstep⟩
    exact congrArg _ (enterTest_safe .clamp h hstep)
  case highz =>
    rintro s ⟨h, hstep⟩
    exact congrArg _ (enterTest_safe .highz h hstep)

/-! ### Fault messages (R390, T14.1) -/

/-- The 66 bits of a fault message under its parity bit. -/
def faultBits (src kind addr : Nat) : Nat := fieldAt src 12 54 + fieldAt kind 6 48 + addr % 2 ^ 48

theorem faultBits_lt (src kind addr : Nat) : faultBits src kind addr < 2 ^ 66 := by
  unfold faultBits fieldAt
  omega

/-- Bits added above the first `n` leave the number of ones among these as it was. -/
theorem ones_add_above {k n : Nat} (v w : Nat) (h : n ≤ k) : ones (v + w * 2 ^ k) n = ones v n := by
  induction n with
  | zero => rfl
  | succ n ih =>
    obtain ⟨d, rfl⟩ := Nat.exists_eq_add_of_le h
    have hsplit : v + w * 2 ^ (n + 1 + d) = v + 2 ^ n * (2 * (w * 2 ^ d)) := by ring
    have hbit : (v + w * 2 ^ (n + 1 + d)) / 2 ^ n % 2 = v / 2 ^ n % 2 := by
      rw [hsplit, Nat.add_mul_div_left _ _ (Nat.two_pow_pos n), Nat.add_mul_mod_self_left]
    rw [ones, ones, ih (Nat.le_of_succ_le h), hbit]

theorem toNat_faultMsg (src kind addr : Nat) :
    (faultMsg src kind addr).toNat = faultBits src kind addr + ones (faultBits src kind addr) 66 % 2 * 2 ^ 66 := by
  have hlt := faultBits_lt src kind addr
  have hbit := Nat.mod_lt (ones (faultBits src kind addr) 66) Nat.two_pos
  refine (BitVec.toNat_ofNat ..).trans (Nat.mod_eq_of_lt ?_)
  rw [← faultBits]
  omega

/-- The parity bit makes the number of ones even (R390). -/
theorem parityOk_faultMsg (src kind addr : Nat) : parityOk (faultMsg src kind addr) = true := by
  have hlt := faultBits_lt src kind addr
  rw [parityOk, decide_eq_true_eq, toNat_faultMsg, ones, ones_add_above _ _ (Nat.le_refl 66),
    Nat.add_mul_div_right _ _ (Nat.two_pow_pos 66), Nat.div_eq_of_lt hlt]
  omega

theorem msgSource_faultMsg {src : Nat} (kind addr : Nat) (h : src < 4096) : msgSource (faultMsg src kind addr) = src := by
  rw [msgSource, bitsOf, toNat_faultMsg, faultBits, fieldAt, fieldAt]
  omega

theorem msgKind_faultMsg (src kind addr : Nat) : msgKind (faultMsg src kind addr) = kind % 64 := by
  rw [msgKind, bitsOf, toNat_faultMsg, faultBits, fieldAt, fieldAt]
  omega

theorem msgAddr_faultMsg (src kind addr : Nat) : msgAddr (faultMsg src kind addr) = addr % 2 ^ 48 := by
  rw [msgAddr, toNat_faultMsg, faultBits, fieldAt, fieldAt]
  omega

/-- An interrupt changes host memory or a pending bit (R341). -/
theorem signal_host (p v : Nat) (s : State) : (signal p v s).host =
    { s.host with memA := (signal p v s).host.memA, memB := (signal p v s).host.memB, pba := (signal p v s).host.pba } := by
  unfold signal
  split
  · rfl
  · dsimp only
    split
    · rfl
    · unfold hostWrite
      split <;> rfl

/-- Settles O51. -/
theorem faultMessagesAndInterruptsFrame : Obligations.FaultMessagesAndInterruptsFrame := by
  unfold Obligations.FaultMessagesAndInterruptsFrame
  refine ⟨?raised, ?message, ?interrupts⟩
  case raised =>
    intro src kind addr s
    rfl
  case message =>
    intro src kind addr h
    exact ⟨parityOk_faultMsg src kind addr, msgSource_faultMsg kind addr h, msgKind_faultMsg src kind addr, msgAddr_faultMsg src kind addr⟩
  case interrupts =>
    intro s
    refine ⟨?side, ?fields⟩
    case side =>
      rw [signalBoth, signal_mk 1, signal_mk 0]
    case fields =>
      rw [signalBoth, signal_host 1, signal_host 0]

/-! ### Reset -/

theorem resumeRecord_reset (q : Nat) : resumeRecord State.reset q = List.replicate 16 0 :=
  resumeRecord_noHistory rfl (fun _ h => nomatch h)

theorem stickyList_reset : stickyList State.reset = [] :=
  List.filter_eq_nil_iff.mpr fun n _ => by simp [State.reset]

/-- Settles O45: each value is a default of State.reset, or follows from the maps that are empty there. -/
theorem resetValues : Obligations.ResetValues := by
  unfold Obligations.ResetValues
  refine ⟨rfl, rfl, rfl, rfl, rfl, rfl, ?summary, ?sticky, fun _ => rfl, by decide, by decide, by decide, by decide, by decide,
    rfl, rfl, rfl, rfl, fun _ => ⟨rfl, rfl⟩, rfl, rfl, rfl, rfl, fun _ => rfl, fun q => ⟨rfl, resumeRecord_reset q⟩, rfl, rfl⟩
  case summary =>
    rw [faultSummary, stickyList_reset]
    rfl
  case sticky =>
    intro n
    exact BitVec.getLsbD_zero

end Sys2Proof.Machine
end

section
/-!
Self-tests, calibrations and READ_COUNTERS (spec/15_hang_reset_recovery.md R422 to R426; spec/12_host_command_interface.md R353). The rows
of SELF_TEST are one operation, with an equation for a test that runs and one for a test that waits; those of CALIBRATE another.
-/

namespace Sys2Proof.Machine

section
variable {s : State} {q seq test failing : Nat} {c : Cmd}

/-- A SELF_TEST of units that exist, which may be tested now or need not be free, runs (R422, R424). -/
theorem selfTest_runs (h : hostRuns s q seq 0x700 false [(0, 1), (8, 8)] c = true) (hfirst : c.waitFrom = none) (htest : c.p 0 1 = test)
    (hunits : c.p 8 8 < 2 ^ testUnits test)
    (hready : testReady s test (testList c) = true ∨ (test = 3 ∧ bitOf c.flags 3 = false)) :
    selfTest s q seq test failing = testDone c failing s := by
  rw [selfTest, runSub_of h (by simp [hfirst, htest]), if_neg (by simp [htest, hunits])]
  exact if_pos (by simpa using hready)

/-- One whose units are not free waits under DEFER, where fewer than 16 commands do (R424). -/
theorem selfTest_waits (h : hostRuns s q seq 0x700 false [(0, 1), (8, 8)] c = true) (hfirst : c.waitFrom = none) (htest : c.p 0 1 = test)
    (hunits : c.p 8 8 < 2 ^ testUnits test) (hbusy : testReady s test (testList c) = false) (hdefer : bitOf c.flags 3 = true)
    (hroom : (deferred s).length < 16) :
    selfTest s q seq test failing = ringMod c.jidx (fun d => { d with waitFrom := some s.clk.ltc }) s := by
  rw [selfTest, runSub_of h (by simp [hfirst, htest]), if_neg (by simp [htest, hunits])]
  simp only [hbusy, hdefer, Bool.not_true, Bool.and_false, Bool.or_self, Bool.false_eq_true, if_false, if_true]
  exact if_neg (Nat.not_le.mpr hroom)

/-- The units that a SELF_TEST names. -/
theorem testList_of (htest : c.p 0 1 = test) : testList c = maskList (c.p 8 8) (testUnits test) := by rw [testList, htest]

/-- A mask of 8 bytes names no unit beyond the 64 rods. -/
theorem mask_lt (c : Cmd) : c.p 8 8 < 2 ^ 64 := c.p_lt 8 8

/-- What a SELF_TEST that runs answers and leaves. -/
theorem testDone_of (htest : c.p 0 1 = test) : testDone c failing s =
    finish c stSuccess (natLe 8 (listMask ((maskList (c.p 8 8) (testUnits test)).filter (bitOf failing))))
      (runTest test (maskList (c.p 8 8) (testUnits test)) failing s) := by
  rw [testDone, testList_of htest, htest]

/-- A CALIBRATE of units that exist, whose partitions have no open step where it asks for that, acts on them (R424). -/
theorem calibrate_acts {what n : Nat} {act : List Nat → State → State} (h : hostRuns s q seq 0x701 false [(0, 1), (8, 8)] c = true)
    (hwhat : c.p 0 1 = what) (hunits : c.p 8 8 < 2 ^ n)
    (hfree : bitOf c.flags 3 = false ∨ (maskList (c.p 8 8) n).all (fun u => !(calParts s what u).any (partStep s)) = true) :
    calibrate s q seq what n act = finish c stSuccess (natLe 8 (c.p 8 8)) (act (maskList (c.p 8 8) n) s) := by
  have hnot : (bitOf c.flags 3 && (maskList (c.p 8 8) n).any (fun u => (calParts s what u).any (partStep s))) = false := by
    obtain hplain | hall := hfree
    · rw [hplain, Bool.false_and]
    · rw [Bool.and_eq_false_iff]
      exact .inr (by simpa using hall)
  rw [calibrate, runSub_of h (by simp [hwhat])]
  dsimp only
  rw [if_neg (by simp [hwhat, hunits]), if_neg (ne_true_of_eq_false hnot)]

/-- READ_COUNTERS of instances that the set has writes them, and clears them if asked (R353). -/
theorem readCounters_writes {set : Nat} {l : List Nat} (hup : linkUp s c.port = true) (hrest : c.rest0 [(0, 5), (8, 8), (16, 4)] = true)
    (hclear : c.p 4 1 ≤ 1) (hset : c.p 0 2 = set) (hlo : 1 ≤ set) (hhi : set ≤ 0x0B) (hsome : l ≠ [])
    (hl : l = if c.p 2 2 = 0xFFFF then setInstances s c.ctx set else (setInstances s c.ctx set).filter (fun i => decide (i = c.p 2 2)))
    (hctx : if set = 8 ∨ set = 9 ∨ set = 10 then ctxExists s c.ctx = true else c.ctx = 0) :
    readCounters c s = finish c stSuccess
      (natLe 4 ((l.flatMap (setBytes s c.ctx set)).take (c.p 16 4)).length ++ natLe 4 0 ++ natLe 8 s.clk.ltc)
      (if c.bit 4 0 then l.foldl (fun s i => setClear c.ctx set i s)
          (hostWrite c.port (c.p 8 8) ((l.flatMap (setBytes s c.ctx set)).take (c.p 16 4)) s)
        else hostWrite c.port (c.p 8 8) ((l.flatMap (setBytes s c.ctx set)).take (c.p 16 4)) s) := by
  have hmine : ¬(if ctxSets.contains set = true then !ctxExists s c.ctx else decide (c.ctx ≠ 0)) = true := by
    have hsets : ctxSets.contains set = true ↔ set = 8 ∨ set = 9 ∨ set = 10 := by simp [ctxSets]
    split at hctx
    case isTrue hc =>
      rw [if_pos (hsets.mpr hc), hctx]
      exact Bool.false_ne_true
    case isFalse hc =>
      rw [if_neg (mt hsets.mp hc)]
      simpa using hctx
  have hknown : ¬ 0x0B < set := Nat.not_lt.mpr hhi
  have hnotZero : set ≠ 0 := Nat.ne_of_gt hlo
  have hflag : ¬ 1 < c.p 4 1 := Nat.not_lt.mpr hclear
  unfold readCounters
  simp only [hset, ← hl]
  rw [if_neg (by simp [hup]), if_neg]
  simp only [hrest, hflag, hnotZero, hknown, hsome, Bool.not_true, Bool.or_eq_true, decide_eq_true_eq, List.isEmpty_iff,
    Bool.false_eq_true, false_or]
  exact hmine

end

/-- Settles O26, row by row. -/
theorem diagnosticCommandsRun : Obligations.DiagnosticCommandsRun := by
  unfold Obligations.DiagnosticCommandsRun
  refine ⟨?arrayBist, ?rsMarch, ?loopback, ?wvCheck, ?deferred, ?deferredStart, ?deferTimeout, ?thermal, ?hbmPhy, ?speed, ?counters⟩
  case arrayBist =>
    rintro q seq failing s c _ h ⟨hfirst, htest, rfl, hready⟩
    exact congrArg _ ((selfTest_runs h hfirst htest (mask_lt c) (.inl (testList_of htest ▸ hready))).trans (testDone_of htest))
  case rsMarch =>
    rintro q seq failing s c _ h ⟨hfirst, htest, rfl, hready⟩
    exact congrArg _ ((selfTest_runs h hfirst htest (mask_lt c) (.inl (testList_of htest ▸ hready))).trans (testDone_of htest))
  case loopback =>
    rintro q seq failing s c _ h ⟨hfirst, htest, hunits, rfl, hready⟩
    exact congrArg _ ((selfTest_runs h hfirst htest hunits (.inl (testList_of htest ▸ hready))).trans (testDone_of htest))
  case wvCheck =>
    rintro q seq failing s c _ h ⟨hfirst, htest, hunits, rfl, hready⟩
    have hgoes : testReady s 3 (testList c) = true ∨ (3 = 3 ∧ bitOf c.flags 3 = false) :=
      hready.imp (testList_of htest ▸ ·) (⟨rfl, ·⟩)
    exact congrArg _ ((selfTest_runs h hfirst htest hunits hgoes).trans (testDone_of htest))
  case deferred =>
    rintro q seq failing s c h ⟨hfirst, htest, hbusy, hdefer, hroom⟩
    exact congrArg _ (selfTest_waits h hfirst htest (mask_lt c) (testList_of htest ▸ hbusy) hdefer hroom)
  case deferredStart =>
    rintro q seq failing s c ⟨hwait, hop, hready⟩ ⟨hsafe, hruns, hchip⟩
    show execDeferredTestStart q seq failing s = _
    rw [execDeferredTestStart]
    simp only [hwait]
    rw [if_pos (by simp [hop, hready, hsafe, hruns, hchip]), testDone]
  case deferTimeout =>
    rintro q seq s c t ⟨hwait, hfrom, hlate⟩ ⟨hsafe, hruns⟩
    show execDeferTimeout q seq s = _
    rw [execDeferTimeout]
    simp only [hwait]
    rw [if_pos (by simpa [hfrom, hsafe, hruns, ticksS] using hlate)]
  case thermal =>
    rintro q seq s c h ⟨hwhat, hmask⟩
    refine congrArg _ ((calibrate_acts h hwhat (by rw [hmask]; exact Nat.zero_lt_one) (.inr rfl)).trans ?_)
    rw [hmask]
  case hbmPhy =>
    rintro q seq s c _ h ⟨hwhat, hunits, rfl⟩ hfree
    exact congrArg _ (calibrate_acts h hwhat hunits hfree)
  case speed =>
    rintro q seq s c h ⟨hwhat, hunits⟩ hfree
    exact congrArg _ (calibrate_acts h hwhat hunits hfree)
  case counters =>
    rintro q seq s c l set ⟨hstart, hrest, hclear⟩ ⟨hset, hlo, hhi, hsome⟩ hl hctx hup
    show execReadCounters q seq s = _
    rw [execReadCounters]
    simp only [hstart]
    exact congrArg _ (readCounters_writes hup hrest hclear hset.symm hlo hhi hsome hl hctx)

end Sys2Proof.Machine
end

section
/-!
The mirror pair and the journal flush region (spec/13_mirror_pair_consistency.md R374 to R382).
-/

namespace Sys2Proof.Machine

section
variable {q : Fin 512} {seq d : Nat} {s : State} {c : Cmd}

/-- A PAIR_BIND with a device that its mirror ports lead to binds, or completes where the pair is bound to it (R377). -/
theorem execPairBind_of (h : hostRuns s q seq 0x900 false [(0, 1), (2, 2)] c = true)
    (hbind : c.p 0 1 = 0 ∧ d = c.p 2 2 ∧ s.dev.zlId ≠ none ∧ s.dev.zlId ≠ some d ∧ s.dev.journalFlush = false ∧ mirrorLeads s d = true)
    (hpair : s.jr.pair ≠ .binding) (hpartner : s.jr.pair = .bound ∨ s.jr.pair = .lost → s.jr.partner = d) :
    execPairBind q seq s = .next (if s.jr.pair = .bound then finish c stSuccess [] s else askPair (startBind c.jidx d s)) := by
  obtain ⟨hop, rfl, hid, hother, hflush, hleads⟩ := hbind
  rw [execPairBind, runSub_of h (by simp [hop])]
  dsimp only
  rw [if_neg (by simp [hop, hid, hother, hflush, hleads]), if_neg]
  simp only [Bool.or_eq_true, Bool.and_eq_true, decide_eq_true_eq, not_or, not_and, not_not]
  exact ⟨hpair, hpartner⟩

/-- UNBIND ends a pair, and says so to a partner that it can reach (R379). -/
theorem execPairUnbind_of (h : hostRuns s q seq 0x900 false [(0, 1), (2, 2)] c = true) (hop : c.p 0 1 = 1)
    (hpair : s.jr.pair = .bound ∨ s.jr.pair = .lost) (hpartner : c.p 2 2 = s.jr.partner) :
    execPairUnbind q seq s = .next (finish c stSuccess []
      (unpair (if s.jr.pair = .bound ∨ partnerNear s = true then sendMark s.jr.partner 6 s else s))) := by
  rw [execPairUnbind, runSub_of h (by simp [hop]), if_neg (by simpa [hpartner, Classical.or_iff_not_imp_left] using hpair)]
  simp only [Bool.or_eq_true, decide_eq_true_eq]

/-- A bind that waits ends with the status that it is given. -/
theorem endBind_of {status : Nat} (hc : s.jr.bindCmd.bind (ringFind s) = some c) :
    endBind status s = mirrorHello (finish c status [] (unwait c s)) := by rw [endBind, hc]

end

section
variable {h : MsgHdr} {s : State}

/-- The pair goes on with the partner that sends the message, on a mirror port. -/
theorem receivePair_delivered {row : Instr} {act : State → State × Option Bool} {t : State} {refused : Bool} (turn : msgTurn s h 0 = true)
    (hpair : (s.jr.pair = .bound ∨ s.jr.pair = .binding) ∧ h.src = s.jr.partner ∧ mirrorPort s h.port = true)
    (hact : act s = (t, some refused)) : receivePair row h 0 act s = ackNow h.src 0 h.mseq h.srcBoot refused t := by
  obtain ⟨hbound, hsrc, hport⟩ := hpair
  rw [receivePair_of turn hbound hsrc hport, receive_delivered turn hact]

/-- A pair that is bound or that a bind waits for is not lost. -/
theorem pair_not_lost (h : s.jr.pair = .bound ∨ s.jr.pair = .binding) : s.jr.pair ≠ .lost := by
  obtain h | h := h <;> rw [h] <;> decide

end

/-- Settles O40, row by row. -/
theorem pairCommandsRun : Obligations.PairCommandsRun := by
  unfold Obligations.PairCommandsRun
  refine ⟨?bind, ?bound, ?unbind, ?unbindAlone, ?timeOut, ?statusLost, ?statusBound, ?resumeOne, ?resumeAll, ?journal, ?ownJournal, ?state,
    ?stripe, ?rewrite⟩
  case bind =>
    intro q seq s c d h hbind hpair
    have hnot : s.jr.pair ≠ .binding ∧ s.jr.pair ≠ .bound := by
      obtain hp | ⟨hp, -⟩ := hpair <;> rw [hp] <;> decide
    have hpartner : s.jr.pair = .bound ∨ s.jr.pair = .lost → s.jr.partner = d := by
      obtain hp | ⟨-, hd⟩ := hpair
      · rw [hp]
        rintro (hb | hl)
        · cases hb
        · cases hl
      · exact fun _ => hd
    exact (execPairBind_of h hbind hnot.1 hpartner).trans (by rw [if_neg hnot.2])
  case bound =>
    rintro q seq s c d h hbind ⟨hbound, hd⟩
    exact (execPairBind_of h hbind (by rw [hbound]; decide) (fun _ => hd)).trans (by rw [if_pos hbound])
  case unbind =>
    rintro q seq s c h ⟨hop, hpair, hpartner⟩
    refine (execPairUnbind_of h hop (hpair.imp_right (·.1)) hpartner).trans ?_
    rw [if_pos (hpair.imp_right (·.2))]
  case unbindAlone =>
    rintro q seq s c h ⟨hop, hlost, hfar, hpartner⟩
    refine (execPairUnbind_of h hop (.inr hlost) hpartner).trans ?_
    rw [if_neg (by simp [hlost, hfar])]
  case timeOut =>
    rintro q s c t ⟨hc, hq, hsent, htaking, htaken⟩ ⟨hruns, hsafe, hfrom, hlate⟩
    show execPairBindTimeout q c.seq s = _
    rw [execPairBindTimeout]
    simp only [hc]
    rw [if_pos (by simpa [hq, hsent, htaking, htaken, hruns, hsafe, hfrom, ticksS] using hlate), endBind_of hc]
  case statusLost =>
    intro q seq s c h hlost
    show execPairStatus q seq s = _
    rw [execPairStatus, runCmd_of h]
    simp only [hlost, if_true]
  case statusBound =>
    intro q seq s c h hbound
    show execPairStatus q seq s = _
    rw [execPairStatus, runCmd_of h]
    simp only [hbound, reduceCtorEq, if_false, if_true]
  case resumeOne =>
    intro q seq s c h hq
    exact execResumePoint_queue h hq
  case resumeAll =>
    intro q seq s c h hq
    exact execResumePoint_all h hq
  case journal =>
    intro h l s turn hpair htaking
    exact congrArg _ (receivePair_delivered turn hpair (by rw [if_neg (ne_true_of_eq_false htaking)]))
  case ownJournal =>
    intro h l s turn hpair htaking
    exact congrArg _ (receivePair_delivered turn hpair (by rw [if_pos htaking]))
  case state =>
    intro h r s turn hpair
    show execMirrorState h r s = _
    rw [execMirrorState, if_neg (by simp [pair_not_lost hpair.1])]
    exact congrArg _ (receivePair_delivered turn hpair rfl)
  case stripe =>
    rintro s ⟨hopen, hruns, hlate⟩
    exact congrArg _ (if_pos (by simpa [hopen, hruns, ticksMs] using hlate))
  case rewrite =>
    rintro s ⟨hflush, hruns⟩
    exact congrArg _ (if_pos (by simp [hflush, hruns]))

end Sys2Proof.Machine
end

section
/-!
The root of trust: staging and activation, attestation, the SPDM responders and the sideband (spec/16_startup_trust.md R438 to R446;
spec/18_signals_electrical.md R475, R476). `execAttest_of` and `signedReply_of` say what a signature takes and signs; `spdm_of` and
`negotiated_of` are the checks that the responders share, and the requests of the sideband stand behind `sideServed` alone.
-/

namespace Sys2Proof.Machine

/-! ### Staging and activation (R438, R439) -/

theorem memRead_length (m : Mem) (a n : Nat) : (memRead m a n).length = n := by
  induction n generalizing a with
  | zero => rfl
  | succ n ih => rw [memRead, List.length_cons, ih]

section
variable {q : Fin 512} {seq : Nat} {s : State} {c : Cmd}

/-- A chunk that the staging area takes lies there as far as it reaches (R438). -/
theorem execFwStage_of (h : hostRuns s q seq 0x800 false [(0, 17)] c = true) (hlen : c.p 4 4 ≤ 1048576) (hlast : c.p 16 1 ≤ 1)
    (hfree : s.trust.actPending = false) (hnext : c.p 0 4 ≤ s.trust.staged) (hroom : c.p 0 4 + c.p 4 4 ≤ stagingMax)
    (htimeref : s.sup.timeref = true) :
    execFwStage q seq s = .next (finish c stSuccess (natLe 4 (c.p 0 4 + c.p 4 4))
      (stageBytes (c.p 0 4) (hostRead s c.port (c.p 8 8) (c.p 4 4)) (c.bit 16 0) s)) := by
  have hflag : bitsOf (c.p 16 1) 7 1 = 0 := bitsOf_flag hlast
  rw [execFwStage, runCmd_of h]
  dsimp only
  rw [if_neg (by simp [hflag, hlen]), if_neg (ne_true_of_eq_false hfree), if_neg (Nat.not_lt.mpr hnext), if_neg (Nat.not_lt.mpr hroom),
    if_neg (by simp [htimeref])]

/-- An activation takes an image that verifies into its slot, and drops any other (R433, R439). -/
theorem execFwActivate_of (h : hostRuns s q seq 0x801 false [(0, 1)] c = true) (hwhen : c.p 0 1 ≤ 1) (hlast : s.trust.stagedLast = true)
    (htimeref : s.sup.timeref = true) :
    execFwActivate q seq s = .next (
      if imageOk s 1 (stagedImage s) ||
        (imageOk s 2 (stagedImage s) && serialOk s (stagedImage s) && (startingState s (stagedImage s)).isSome)
      then finish c stSuccess [] (if c.p 0 1 = 1 ∧ imgKind (stagedImage s) = 1
        then { activate (stagedImage s) (decide (c.p 0 1 = 1)) s with
          trust := { (activate (stagedImage s) (decide (c.p 0 1 = 1)) s).trust with resetAfter := some c.jidx } }
        else activate (stagedImage s) (decide (c.p 0 1 = 1)) s)
      else finish c stAuth [] { s with trust := { s.trust with staging := [], staged := 0, stagedLast := false } }) := by
  rw [execFwActivate, runCmd_of h]
  dsimp only
  rw [if_neg (by simp [hwhen, hlast]), if_neg (by simp [htimeref])]
  simp only [Bool.and_eq_true (decide _), decide_eq_true_eq]

end

/-! ### Signatures (R441, R443, R444) -/

/-- A leaf taken is no ECDSA signature. -/
@[simp] theorem useLeaf_signatures (s : State) : (useLeaf s).trust.signatures = s.trust.signatures := by
  unfold useLeaf
  dsimp only
  split
  · rw [raise_trust]
  · split
    · rw [raise_trust]
    · rfl

@[simp] theorem useToken_signatures (s : State) : (useToken s).trust.signatures = s.trust.signatures := rfl

/-- ATTEST with algorithms that exist takes a token, a leaf for an LMS signature, and writes the report (R443, R444). -/
theorem execAttest_of {q : Fin 512} {seq alg : Nat} {s : State} {c : Cmd}
    (h : hostRuns s q seq 0x802 false [(0, 33), (40, 8), (48, 4)] c = true) (halg : c.p 32 1 = alg) (hsome : bitsOf alg 7 2 = 0 ∧ alg ≠ 0)
    (hroom : 2568 ≤ c.p 48 4) (htoken : s.trust.tokens ≠ 0) (hleaf : bitOf alg 1 = true → s.trust.leaf < lmsLeaves) :
    execAttest q seq s = .next (attestReply c s.trust.leaf (useToken (if bitOf alg 1 then useLeaf s else s))) := by
  obtain ⟨hknown, hsome⟩ := hsome
  rw [execAttest, runCmd_of h]
  simp only [halg]
  rw [if_neg (by simp [hknown, hsome, hroom]), if_neg (by simpa [htoken] using hleaf)]

/-- Settles O36, row by row. -/
theorem trustCommandsRun : Obligations.TrustCommandsRun := by
  unfold Obligations.TrustCommandsRun
  refine ⟨?stage, ?activate, ?attestEc, ?attestLms, ?attestBoth, ?cert, ?refill⟩
  case stage =>
    rintro q seq s _ c _ h ⟨hlen, hlast, hfree, hnext, hroom⟩ ⟨htimeref, rfl⟩ rfl
    refine (execFwStage_of h hlen hlast hfree hnext hroom htimeref).trans ?_
    rw [stageBytes, hostRead, memRead_length]
  case activate =>
    rintro q seq s _ c _ h ⟨hwhen, hlast, htimeref, rfl⟩ rfl
    exact execFwActivate_of h hwhen hlast htimeref
  case attestEc =>
    rintro q seq s _ c _ h ⟨halg, hroom, htoken⟩ ⟨rfl, rfl⟩
    refine (execAttest_of h halg (by decide) hroom htoken (fun hlms => absurd hlms (by decide))).trans ?_
    rw [attestReply, halg]
    rfl
  case attestLms =>
    rintro q seq s _ c _ h ⟨halg, hroom, htoken, hleaf⟩ ⟨rfl, rfl⟩
    refine (execAttest_of h halg (by decide) hroom htoken (fun _ => hleaf)).trans ?_
    rw [attestReply, halg]
    rfl
  case attestBoth =>
    rintro q seq s _ c _ h ⟨halg, hroom, htoken, hleaf⟩ ⟨rfl, rfl⟩
    refine (execAttest_of h halg (by decide) hroom htoken (fun _ => hleaf)).trans ?_
    have hbits : bitOf 3 0 = true ∧ bitOf 3 1 = true := by decide
    simp only [attestReply, halg, hbits, if_true, useToken_signatures, useLeaf_signatures]
  case cert =>
    rintro q seq s c _ h ⟨hslot, rfl⟩
    show execCertRead q seq s = _
    rw [execCertRead, runCmd_of h, if_neg (Nat.not_lt.mpr hslot)]
  case refill =>
    rintro s ⟨hruns, hlate⟩
    exact congrArg _ (if_pos (by simpa [hruns, ticksS] using hlate))

/-! ### The SPDM responders (R445) -/

section
variable {box : Nat} {s : State} {x : Spdm}

/-- A request that reaches a responder that is not busy is answered by its progress (R445, R446). -/
theorem spdm_of (hreached : boxReached s box = true) (hbusy : boxBusy s box = false) (k : Spdm → State → State) :
    spdm box k s = k (mapGet {} s.side.spdm box) s := by
  rw [spdm, if_neg (by simp [hreached]), if_neg (ne_true_of_eq_false hbusy)]

theorem spdm_busy (hreached : boxReached s box = true) (hbusy : boxBusy s box = true) (k : Spdm → State → State) :
    spdm box k s = spdmError 0 s := by
  rw [spdm, if_neg (by simp [hreached]), if_pos hbusy]

/-- A request after the negotiation. -/
theorem negotiated_of (h : boxReached s box = true ∧ boxBusy s box = false ∧ x = mapGet {} s.side.spdm box ∧ x.algs = true)
    (k : Spdm → State → State) : negotiated box k s = k x s := by
  obtain ⟨hreached, hbusy, rfl, halgs⟩ := h
  rw [negotiated, spdm_of hreached hbusy, if_pos halgs]

/-- The same request before it. -/
theorem negotiated_early (hreached : boxReached s box = true) (hbusy : boxBusy s box = false)
    (halgs : (mapGet {} s.side.spdm box).algs = false) (k : Spdm → State → State) : negotiated box k s = spdmError 2 s := by
  rw [negotiated, spdm_of hreached hbusy, if_neg (ne_true_of_eq_false halgs)]

/-- A signed answer takes a token, and a leaf while leaves remain (R444, R445). -/
theorem signedReply_of (said req body : Bytes) (after : Spdm) (htoken : s.trust.tokens ≠ 0) :
    signedReply box said req body after s =
      (let h := Config.sha384 (said ++ req ++ body)
       let t := useToken (if s.trust.leaf < lmsLeaves then useLeaf s else s)
       answer (body ++ (if s.trust.leaf < lmsLeaves then byteSlice (Config.lmsSign s.trust.leaf h) 0 1776 else [])
         ++ byteSlice (Config.ecdsaSign t.trust.signatures h) 0 96) (signed (spdmSet box after t))) := by
  rw [signedReply, if_neg htoken]
  simp only [decide_eq_true_eq]

end

/-- Settles O37, row by row. -/
theorem attestationRequestsRun : Obligations.AttestationRequestsRun := by
  unfold Obligations.AttestationRequestsRun
  refine ⟨?discovery, ?version, ?capabilities, ?algorithms, ?digests, ?digestsEarly, ?certificate, ?challenge, ?measurement,
    ?measurementsSigned, ?unsupported, ?busy⟩
  case discovery =>
    rintro box i s ⟨hbox, hreached, hbusy⟩
    show execDoeDiscovery box i s = _
    rw [execDoeDiscovery, if_neg hbox, spdm_of hreached hbusy]
  case version =>
    rintro box s ⟨hreached, hbusy⟩
    exact congrArg _ (spdm_of hreached hbusy _)
  case capabilities =>
    rintro box s _ ⟨hreached, hbusy, rfl, hversion⟩
    exact congrArg _ ((spdm_of hreached hbusy _).trans (if_pos hversion))
  case algorithms =>
    rintro box s _ ⟨hreached, hbusy, rfl, hcaps⟩
    exact congrArg _ ((spdm_of hreached hbusy _).trans (if_neg (by simp [hcaps])))
  case digests =>
    intro box s x hready
    exact congrArg _ (negotiated_of hready _)
  case digestsEarly =>
    rintro box s ⟨hreached, hbusy, halgs⟩
    exact congrArg _ (negotiated_early hreached hbusy halgs _)
  case certificate =>
    intro box off len s x hready hoff
    exact congrArg _ ((negotiated_of hready _).trans (if_neg (by simp [hoff])))
  case challenge =>
    rintro box nonce s _ x hready ⟨htoken, hleaf, rfl⟩
    refine congrArg _ ((negotiated_of hready _).trans ?_)
    rw [if_neg (by simp), signedReply_of _ _ _ _ htoken]
    simp only [if_pos (show s.trust.leaf < lmsLeaves from hleaf)]
  case measurement =>
    rintro box i nonce s x hready ⟨hlo, hhi⟩
    refine congrArg _ ((negotiated_of hready _).trans ?_)
    have hone : i ≠ 0 := Nat.ne_of_gt hlo
    have hall : i ≠ 0xFF := by omega
    rw [if_neg (by simp [hhi]), if_neg Bool.false_ne_true]
    simp only [hone, hall, Bool.false_eq_true, if_false]
  case measurementsSigned =>
    rintro box nonce s _ x hready ⟨htoken, hleaf, rfl⟩
    refine congrArg _ ((negotiated_of hready _).trans ?_)
    rw [if_neg (by simp), if_pos rfl, signedReply_of _ _ _ _ htoken]
    simp only [if_neg (show ¬ s.trust.leaf < lmsLeaves from Nat.not_lt.mpr hleaf)]
    rfl
  case unsupported =>
    rintro box code s ⟨hreached, hbusy⟩
    exact congrArg _ (spdm_of hreached hbusy _)
  case busy =>
    rintro box s ⟨hreached, hbusy⟩
    exact congrArg _ (spdm_busy hreached hbusy _)

/-! ### The sideband (R446, R475, R476) -/

section
variable {s : State}

/-- MCTP and PLDM requests are answered outside stage 0xE. -/
theorem onSideband_of (hserved : sideServed s = true) (hstage : s.dev.stage ≠ 0xE) (k : State → State) : onSideband s k = k s := by
  rw [onSideband, if_neg (by simp [hserved]), if_neg hstage]

theorem onSideband_recovery (hserved : sideServed s = true) (hstage : s.dev.stage = 0xE) (k : State → State) :
    onSideband s k = answer (natLe 2 stParam) s := by
  rw [onSideband, if_neg (by simp [hserved]), if_pos hstage, answerStatus]

/-- How often the message sent last has been written again. -/
def retriesSoFar (x : Side) : Nat :=
  match x.retry with
  | some (n, k) => if n = x.sent.length then k else 0
  | none => 0

theorem retriesSoFar_other {x : Side} (h : x.retry.any (fun r => r.1 = x.sent.length) = false) : retriesSoFar x = 0 := by
  unfold retriesSoFar
  cases hr : x.retry with
  | none => rfl
  | some r =>
    have hne : r.1 ≠ x.sent.length := by simpa [hr] using h
    exact if_neg hne

theorem retriesSoFar_same {x : Side} {k : Nat} (h : x.retry = some (x.sent.length, k)) : retriesSoFar x = k := by
  simp only [retriesSoFar, h, if_true]

/-- The message sent last is written again, up to 100 times (R476). -/
theorem execSbWriteRetry_of (hserved : sideServed s = true) (hfixed : s.side.dynAddr = none) (hsent : s.side.sent.length ≠ 0)
    (hleft : retriesSoFar s.side < 100) : execSbWriteRetry s =
      .next { s with side := { s.side with retry := some (s.side.sent.length, retriesSoFar s.side + 1) } } := by
  have hne : s.side.sent ≠ [] := fun h => hsent (by rw [h, List.length_nil])
  rw [execSbWriteRetry, if_pos (by simp [hserved, hfixed, hne])]
  exact congrArg _ (if_pos hleft)

end

/-- Settles O38, row by row. -/
theorem sidebandRun : Obligations.SidebandRun := by
  unfold Obligations.SidebandRun
  refine ⟨?status, ?faultRead, ?resetChip, ?recoveryWrite, ?recoveryCommit, ?mctp, ?pldmSensor, ?pldmPower, ?mctpRecovery, ?pldmRecovery,
    ?setdasa, ?entdaa, ?firstRetry, ?nextRetry⟩
  case status =>
    intro s hserved
    exact congrArg _ (if_pos hserved)
  case faultRead =>
    intro off s hserved
    exact congrArg _ (if_pos hserved)
  case resetChip =>
    rintro s ⟨hserved, htherm, htest⟩
    exact congrArg _ (if_pos (by simp [hserved, htherm, htest]))
  case recoveryWrite =>
    rintro off data s ⟨hserved, hstage, hlen, hroom⟩
    have hfits : ¬ stagingMax < off + data.length := Nat.not_lt.mpr hroom
    show execRecoveryWrite off data s = _
    rw [execRecoveryWrite, if_neg (by simp [hserved]), if_neg (by simp [hstage, hlen, hfits]), answerStatus]
  case recoveryCommit =>
    rintro s _ ⟨hserved, hstage, htimeref, rfl⟩
    show execRecoveryCommit s = _
    rw [execRecoveryCommit, if_neg (by simp [hserved]), if_neg (not_not_intro hstage), if_neg (by simp [htimeref])]
    rfl
  case mctp =>
    rintro r s ⟨hserved, hstage⟩
    exact congrArg _ (onSideband_of hserved hstage _)
  case pldmSensor =>
    rintro n r s ⟨hserved, hstage⟩
    exact congrArg _ (onSideband_of hserved hstage _)
  case pldmPower =>
    rintro r s ⟨hserved, hstage⟩
    exact congrArg _ (onSideband_of hserved hstage _)
  case mctpRecovery =>
    rintro r s ⟨hserved, hstage⟩
    exact congrArg _ (onSideband_recovery hserved hstage _)
  case pldmRecovery =>
    rintro n r s ⟨hserved, hstage⟩
    exact congrArg _ (onSideband_recovery hserved hstage _)
  case setdasa =>
    rintro _ d s ⟨hserved, hnone, hd⟩ rfl
    exact congrArg _ (if_pos (by simp [hserved, hnone, hd, staticAddress]))
  case entdaa =>
    rintro d s ⟨hserved, hnone, hd⟩
    exact congrArg _ (if_pos (by simp [hserved, hnone, hd]))
  case firstRetry =>
    rintro s _ ⟨hserved, hnone, rfl, hsent⟩ hother
    have hk := retriesSoFar_other hother
    exact (execSbWriteRetry_of hserved hnone hsent (by rw [hk]; decide)).trans (by rw [hk])
  case nextRetry =>
    rintro s _ k ⟨hserved, hnone, rfl, hsent⟩ ⟨hr, hleft⟩
    have hk := retriesSoFar_same hr
    exact (execSbWriteRetry_of hserved hnone hsent (by rwa [hk])).trans (by rw [hk])

end Sys2Proof.Machine
end
